-- ==== Sys2Proof/Word.lean ====
section
/-! DEFINITION. Characters and text as the serial line and the tags carry them, and the three rounding terms of the
spec's conventions (00_scope.md, "Rounding"). -/

namespace Sys2Proof

/-- One 8-bit character: of the serial line (R219) or of a tag's text field (R189). -/
abbrev Chr := BitVec 8

/-- A run of characters. -/
abbrev Text := List Chr

/-- The characters of a string of ASCII characters. -/
def txt (s : String) : Text := s.toList.map fun c => BitVec.ofNat 8 c.toNat

/-- "Round half up" of a / b for b > 0: the nearest integer, a half going toward +∞. -/
def roundHalfUp (a b : Nat) : Nat := (2 * a + b) / (2 * b)

/-- "Round half away" of a / b for b > 0: on quotients that are not negative, a half goes up. -/
def roundHalfAway (a b : Nat) : Nat := (2 * a + b) / (2 * b)

/-- The value v brought to the nearer end of lo … hi when it lies outside. -/
def clampInt (lo hi v : Int) : Int := max lo (min hi v)

end Sys2Proof
end

