-- ==== Sys2Proof/Syntax.lean ====
section
/-! DEFINITION. The commands of the part: one constructor of `Instr` for each row of spec/opcode_table.json, with the
operands its rule gives the step. Events carry what the sensor, the driver, the bus or the clock reports. A request
carries the fields of its message as they stand on the line, in the order they were written (R222). -/

namespace Sys2Proof

/-- A circuit: `c` stands for the circuit numbered `c + 1` (1–24). -/
abbrev Circ := Fin 24

/-- One of the two mixers. -/
inductive Mix where
  | a | b
  deriving DecidableEq, Repr

/-- A place of the line: the zones Z1 to Z5, the two mixers and the OUT lane (section 7.1). -/
inductive Place where
  | z1 | z2 | z3 | z4 | z5 | mixA | mixB | out
  deriving DecidableEq, Repr

/-- What the check scale shows: a mass in mg, or OVER (R122). -/
inductive Reading where
  | mg (n : Nat) | over
  deriving DecidableEq, Repr

/-- A sensor of the line that PLACE_SENSOR_CHANGE can report: a place's own sensor, a lane position sensor
(0 is OUT 1), or the height-class sensor at Z1 (no class, or 1–6). -/
inductive SensorChange where
  | place (p : Place) (tin : Bool)
  | lane (k : Fin 4) (tin : Bool)
  | height (cls : Option Nat)
  deriving DecidableEq, Repr

/-- The name of one record of the Settings Store (section 2.5). -/
inductive RecordName where
  | circuit (c : Circ) | level (c : Circ) | base (b : Fin 8) | size (z : Fin 12) | slot (n : Nat)
  | scheme | lidPolicy | lidCode (m : Fin 3) | daily | marker
  deriving DecidableEq, Repr

/-- One field key=value of a request (R222). -/
structure Field where
  key : Text
  value : Text
  deriving DecidableEq, Repr

/-- The fields of a request in the order they were written. -/
abbrev Fields := List Field

/-- One character as the receiver takes it: eight bits, or a character whose stop bit was found low (R219). -/
inductive RxChar where
  | chr (c : Chr) | framingError
  deriving DecidableEq, Repr

/-- The commands: one constructor for each row of spec/opcode_table.json, in the table's order. -/
inductive Instr where
  /-- POWER_ON (R232); `damaged` names the store records whose internal check fails (R43). -/
  | powerOn (damaged : List RecordName)
  | stopInputActive
  | stopInputReleased
  | baySwitchChange (c : Circ) (closed : Bool)
  | frameStart
  | slot
  | burstComplete (c : Circ)
  | burstStall (c : Circ)
  | burstTimeout (c : Circ)
  | storeWriteEnd
  | capMotionEnd
  | closingDelayExpiry
  | settleEnd (reading : Reading)
  /-- ARRIVAL (R147): the place whose sensor reports the tin, and the marks counted from the move's start. -/
  | arrival (dest : Place) (marks : Nat)
  | jam (dest : Place)
  | zoneDisagreement (zone : Place) (tin : Bool)
  | cradleDisagreement (m : Mix) (tin : Bool)
  | headTaken
  | pressCycleEnd (seated : Bool)
  | guardOpen
  | guardClose
  | lidSensorChange (m : Fin 3) (lids : Bool)
  | doorOpen (m : Mix)
  | doorClose (m : Mix)
  | clampEnd (m : Mix)
  | mixEnd (m : Mix)
  | brakeEnd (m : Mix)
  | unclampEnd (m : Mix)
  | stirEnd (c : Circ)
  | stirBoundary
  | siteMinute
  | purgeIntervalElapsed (c : Circ)
  | startConditionSeen
  | stopConditionSeen
  | busLinesHigh
  | taken
  | addrAck
  | addrNak
  /-- BYTE_ACK (R188); `data` is the byte read, where the phase is a byte read. -/
  | byteAck (data : BitVec 8)
  | byteNak
  | lost
  | lineError
  | stopSent
  | pollInterval
  | tagWriteTimeout
  | busWait
  /-- MESSAGE_RECEIVED (R220): the LF arrives; `chars` are the characters received before it. -/
  | messageReceived (chars : List RxChar)
  | messageDiscarded
  | lineSent
  | cset (fs : Fields)
  | trim (fs : Fields)
  | canout (fs : Fields)
  | cread (fs : Fields)
  | bset (fs : Fields)
  | bread (fs : Fields)
  | bdel (fs : Fields)
  | sset (fs : Fields)
  | sread (fs : Fields)
  | sdel (fs : Fields)
  | fstore (fs : Fields)
  | fread (fs : Fields)
  | fnext (fs : Fields)
  | ferase (fs : Fields)
  | nvstat (fs : Fields)
  | preview (fs : Fields)
  | order (fs : Fields)
  | hold (fs : Fields)
  | go (fs : Fields)
  | cancel (fs : Fields)
  | cancelAfter (fs : Fields)
  | wanted (fs : Fields)
  | lread (fs : Fields)
  | book (fs : Fields)
  | scheme (fs : Fields)
  | pump (fs : Fields)
  | scale (fs : Fields)
  | calrun (fs : Fields)
  | caltake (fs : Fields)
  | calread (fs : Fields)
  | station (fs : Fields)
  | loaded (fs : Fields)
  | confirm (fs : Fields)
  | confirmOut (fs : Fields)
  | clear (fs : Fields)
  | zones (fs : Fields)
  | tread (fs : Fields)
  | flist (fs : Fields)
  | lids (fs : Fields)
  | lidpol (fs : Fields)
  | lidder (fs : Fields)
  | mixers (fs : Fields)
  | tagbus (fs : Fields)
  | tag (fs : Fields)
  | time (fs : Fields)
  | stirday (fs : Fields)
  | purge (fs : Fields)
  | stir (fs : Fields)
  | care (fs : Fields)
  | fclear (fs : Fields)
  | notice (fs : Fields)
  | flags (fs : Fields)
  | resume (fs : Fields)
  | restart (fs : Fields)
  | state (fs : Fields)
  | powerLoss
  | messageFirstCharacter
  | placeSensorChange (change : SensorChange)
  deriving DecidableEq, Repr

end Sys2Proof
end

