-- ==== Sys2Proof/Decode.lean ====
section
/-! DEFINITION. The decoder over the rows of the table that give bits. No row of spec/opcode_table.json gives any, so no
word spells a command (Assumption 7). -/

namespace Sys2Proof

/-- A row of the table that gives bits: their width, a mask, a pattern, and the command. -/
structure BitRow where
  nbits : Nat
  mask : Nat
  pattern : Nat
  command : Instr
  deriving DecidableEq, Repr

/-- The rows of the table that give bits: none. -/
def bitRows : List BitRow := []

/-- The command that a word spells by the table's bits. -/
def decodeTableWord (nbits w : Nat) : Option Instr :=
  (bitRows.find? fun r => r.nbits == nbits && Nat.land w r.mask == r.pattern).map (·.command)

end Sys2Proof
end

