-- ==== Sys2Proof/Config.lean ====
section
/-! DEFINITION. The constants of the part that several blocks share, and the free values: choices the spec leaves
open between two orders of one step. A free value has no body, so nothing can be proved about which order is taken. -/

namespace Sys2Proof.Config

/-- The dose divisor D (R46). -/
def doseDivisor : Nat := 1024000000

/-- The residue every colourant line starts from, D/2 (R47). -/
def halfStep : Nat := 512000000

/-- The piston chamber C in steps (section 5.1). -/
def chamber : Nat := 25600

/-- The steps of a delivery burst, at most (R96). -/
def deliveryBurst : Nat := 160

/-- The steps of a refill burst, at most (R96). -/
def refillBurst : Nat := 640

/-- The steps a prime delivers to the cap drain (R11). -/
def primeSteps : Nat := 3200

/-- Places of the link-write FIFO of the Settings Store (section 2.5). -/
def fifoPlaces : Nat := 8

/-- Places of the tag bus queue (R199). -/
def tagPlaces : Nat := 8

/-- Input places of the Counter Link (R220). -/
def inputPlaces : Nat := 4

/-- Lines the book holds at most (R64). -/
def bookPlaces : Nat := 32

/-- Records the finished list holds at most (R154). -/
def finishedPlaces : Nat := 48

/-- Tin ids the open-tin marker lists at most (R42). -/
def markerTins : Nat := 16

/-- Stirrers that run together at most (R209). -/
def stirrers : Nat := 4

/-- Slots of the formula library (section 2.4). -/
def librarySlots : Nat := 400

/-- The greatest mass the scale reads, in mg; above it the scale reads OVER (R122). -/
def scaleMax : Nat := 25000000

/-- Durations in microseconds, the model's unit of time. -/
def ms : Nat := 1000
def sec : Nat := 1000000
def minute : Nat := 60000000

/-- FREE VALUE, the choice a step makes where the spec says that a pump request "competes" with something else and gives
an outcome for each order: with the opening of a cap that is CLOSED for an instant (R119), and with the stir start of
the same circuit (R209). `true` is: the pump request is taken first. The n-th such choice of a run is `pumpFirst n`.
Assumption 4. -/
opaque pumpFirst : Nat → Bool

end Sys2Proof.Config
end

