-- ==== Sys2Proof/Machine/State.lean ====
section
/-! DEFINITION. The state of the part, block by block, as plain data, and the state right after reset. Every type
names the section of the spec whose table it follows. Times are moments of one clock, in microseconds. -/

namespace Sys2Proof.Machine

/-! ### Stops -/

/-- What can stop the part with a fault: nothing. The spec describes no condition that stops it. -/
inductive Fault where
  deriving DecidableEq, Repr

/-- A command without a meaning. -/
inductive Refusal where
  /-- Raised by `exec` alone, for a row of the table that has no meaning yet. Safe: no claim about it can be proved. -/
  | notModelled (mnemonic : String)
  deriving DecidableEq, Repr

/-! ### Physical inputs ("Inputs from the line", 00_scope.md) -/

/-- The sensors and switches of the line as they stand. `true` is: STOP active, bay switch closed, a tin shown, lids
shown, a lid seated, guard open, door open. -/
structure Inputs where
  stop : Bool
  bays : Vector Bool 24
  /-- The place sensors of Z1–Z5, the two cradles, and the lane's entry sensor (index 7). -/
  places : Vector Bool 8
  lane : Vector Bool 4
  height : Option Nat
  scale : Reading
  seated : Bool
  lids : Vector Bool 3
  guardOpen : Bool
  doors : Vector Bool 2
  deriving DecidableEq, Repr

/-! ### Circuit Table (section 1.1) -/

inductive StirClass where
  | off | q15 | h1 | h4 | daily
  deriving DecidableEq, Repr

inductive Policy where
  | hold | twin | skip
  deriving DecidableEq, Repr

/-- The configured settings of a circuit (section 1.1, first table). `trim` and `nmin` are the values last accepted,
which the Settings Store keeps (R21). -/
structure Settings where
  code : Option Text
  k : Nat
  trim : Int
  nmin : Nat
  density : Nat
  capacity : Nat
  low : Nat
  reserve : Nat
  purgeInt : Nat
  purgeSteps : Nat
  stir : StirClass
  stirDur : Nat
  twin : Option Circ
  policy : Policy
  watch : Bool
  deriving DecidableEq, Repr

/-- The settings of a store that has never been written (R43). -/
def Settings.default : Settings where
  code := none
  k := 4000
  trim := 0
  nmin := 24
  density := 1000
  capacity := 4000
  low := 0
  reserve := 0
  purgeInt := 0
  purgeSteps := 3200
  stir := .off
  stirDur := 10
  twin := none
  policy := .hold
  watch := true

inductive CircuitState where
  | unfitted | checking | priming | ready | empty | blocked | releasing | service
  deriving DecidableEq, Repr

inductive BlockReason where
  | wrongColourant | tagInvalid | tagAbsent | pumpFault | levelLost
  deriving DecidableEq, Repr

inductive CheckKind where
  | insertion | powerOn
  deriving DecidableEq, Repr

inductive ReleaseOrigin where
  | ready | empty | blocked
  deriving DecidableEq, Repr

/-- A running stirrer: its end time, and the due time the stir had when it first came due (R210, R211). -/
structure Stir where
  ends : Nat
  due : Nat
  deriving DecidableEq, Repr

inductive PurgeCause where
  | interval | forced
  deriving DecidableEq, Repr

/-- A circuit record (section 1.1). `baseline` is true for CLOSED, `latchOpen` for OPEN. -/
structure Circuit where
  cfg : Settings
  state : CircuitState
  reason : Option BlockReason
  trim : Int
  nmin : Nat
  pendingTrim : Option Int
  pendingNmin : Option Nat
  level : Nat
  lowArmed : Bool
  lot : Option Text
  checkKind : CheckKind
  origin : ReleaseOrigin
  openBatch : Nat
  baseline : Bool
  latchOpen : Bool
  lastDelivery : Nat
  stir : Option Stir
  purgeDue : Option PurgeCause
  deriving DecidableEq, Repr

/-! ### Formula Library (sections 2.1 to 2.4) -/

structure Base where
  load : Nat
  mixClass : Nat
  deriving DecidableEq, Repr

structure Size where
  vol : Nat
  height : Nat
  lid : Fin 3
  mix1 : Nat
  mix2 : Nat
  mix3 : Nat
  deriving DecidableEq, Repr

/-- A formula: its colourant lines are kept in authored order. -/
structure Formula where
  name : Option Text
  base : Fin 8
  lines : List (Text × Nat)
  deriving DecidableEq, Repr

/-- The library: the slots as a list of used slots, rising by slot number. -/
structure Library where
  bases : Vector (Option Base) 8
  sizes : Vector (Option Size) 12
  slots : List (Nat × Formula)
  cursor : Nat
  deriving DecidableEq, Repr

/-! ### Settings Store (section 2.5) -/

inductive Scheme where
  | continuous | spread | split
  deriving DecidableEq, Repr

inductive LidPolicy where
  | hold | pass
  deriving DecidableEq, Repr

/-- The open-tin marker as written: tin ids, oldest first, and a planned volume in µL for each circuit listed. -/
structure Marker where
  tins : List Nat
  vols : List (Circ × Nat)
  deriving DecidableEq, Repr

/-- One record with its content, as a request queues it. A removal is an absent content. -/
inductive StoreRecord where
  | circuit (c : Circ) (v : Settings)
  | base (b : Fin 8) (v : Option Base)
  | size (z : Fin 12) (v : Option Size)
  | slot (n : Nat) (v : Option Formula)
  | scheme (v : Scheme)
  | lidPolicy (v : LidPolicy)
  | lidCode (m : Fin 3) (v : Fin 3)
  | daily (v : Nat)
  deriving DecidableEq, Repr

/-- The non-volatile records. `none` is a record that is absent; `marker = none` is the marker stored clear. -/
structure NonVolatile where
  circuits : Vector (Option Settings) 24
  levels : Vector (Option Nat) 24
  bases : Vector (Option Base) 8
  sizes : Vector (Option Size) 12
  slots : List (Nat × Formula)
  scheme : Option Scheme
  lidPolicy : Option LidPolicy
  lidCodes : Vector (Option (Fin 3)) 3
  daily : Option Nat
  marker : Option Marker
  deriving DecidableEq, Repr

/-- What the writer is writing, captured when the write began (R38). -/
inductive WriteWork where
  | marker (m : Option Marker)
  | level (c : Circ) (v : Nat)
  | link (r : StoreRecord)
  deriving DecidableEq, Repr

structure Store where
  nv : NonVolatile
  /-- The write in progress and the moment it ends. -/
  writer : Option (WriteWork × Nat)
  pendingSet : Option Marker
  pendingClear : Bool
  /-- The clear RESTART has given waits for the end of a run of a listed circuit that RESTART cuts (R44). -/
  heldClear : Bool
  /-- The dirty level set: the circuits whose level record must be written. -/
  dirty : Vector Bool 24
  fifo : List StoreRecord
  lost : Nat
  deriving DecidableEq, Repr

/-! ### Dose Planner (section 3.5) -/

inductive CalCause where
  | shortRun | lowMass | changed
  deriving DecidableEq, Repr

inductive CalStatus where
  | ok | outOfRange | failed (cause : CalCause)
  deriving DecidableEq, Repr

/-- The calibration result the planner holds (R62). -/
structure CalResult where
  circuit : Circ
  target : Nat
  steps : Nat
  delivered : Nat
  mass : Int
  trim : Option Int
  status : CalStatus
  deriving DecidableEq, Repr

/-! ### Order Book (section 4.1) -/

inductive LineState where
  | queued | running | held | finishing | done | cancelled
  deriving DecidableEq, Repr

/-- The hold reason; with CIRCUIT the hold circuit, 0 where no circuit held the code. -/
inductive Hold where
  | host | circuit (c : Nat) | weight
  deriving DecidableEq, Repr

/-- What a line keeps for one colourant line of its formula copy. -/
structure ColourantEntry where
  bound : Option Circ
  residue : Option Nat
  lot : Option Text
  deriving DecidableEq, Repr

structure OrderLine where
  number : Nat
  ref : Option Text
  formula : Formula
  slot : Option Nat
  size : Fin 12
  tins : Nat
  limit : Nat
  rush : Bool
  state : LineState
  hold : Option Hold
  released : Nat
  completed : Nat
  failed : Nat
  entries : List ColourantEntry
  deriving DecidableEq, Repr

/-- The book in book order, and the last line number assigned (R66). -/
structure Book where
  lines : List OrderLine
  lastNumber : Nat
  deriving DecidableEq, Repr

/-! ### Drive Frame (section 5.3) -/

inductive Kind where
  | dose | purge | prime | refill
  deriving DecidableEq, Repr

/-- Who is told of an activity's end. `tin` carries the tin id and the index of the colourant entry. -/
inductive Owner where
  | tin (id entry : Nat) | cal | care | table
  deriving DecidableEq, Repr

inductive Phase where
  | refill | deliver
  deriving DecidableEq, Repr

inductive RunState where
  | running | waitingStir | waitingCap | stopped
  deriving DecidableEq, Repr

inductive CutCause where
  | pumpFault | removed | restart
  deriving DecidableEq, Repr

/-- Piston position: known, or UNKNOWN with the steps already drawn of the stroke to the refill stop (R97). -/
inductive Piston where
  | known (p : Nat) | unknown (stroke : Nat)
  deriving DecidableEq, Repr

/-- What waits for the burst boundary of an activity whose burst is outstanding (R104, R106, R107, R110). -/
inductive AtBoundary where
  | stop | abandon | cut (cause : CutCause)
  deriving DecidableEq, Repr

structure Activity where
  kind : Kind
  owner : Owner
  planned : Nat
  delivered : Nat
  phase : Phase
  run : RunState
  stopSeen : Bool
  atBoundary : Option AtBoundary
  /-- RESTART has cut the activity, and the report of its run end is still to come (R110, R217). -/
  restarted : Bool
  deriving DecidableEq, Repr

/-- A request to the Drive Frame, as it is asked and as the next place holds it (R95). -/
structure PumpRequest where
  kind : Kind
  owner : Owner
  planned : Nat
  deriving DecidableEq, Repr

/-- A burst outstanding: its direction, its steps and the moment it was granted (R96). -/
structure Burst where
  refill : Bool
  steps : Nat
  granted : Nat
  deriving DecidableEq, Repr

structure Pump where
  piston : Piston
  activity : Option Activity
  next : Option PumpRequest
  burst : Option Burst
  /-- A prime that is asked for and has no activity record: one that STOP abandoned (R107) or held (R108), or one that follows
a run which RESTART cut in its burst (R110, Assumption 12). -/
  heldPrime : Bool
  deriving DecidableEq, Repr

structure Drive where
  scheme : Scheme
  /-- The scheme an accepted SCHEME puts in force at the next frame start (R91). -/
  nextScheme : Option Scheme
  pumps : Vector Pump 24
  /-- The slot that comes up next, 0–31; 32 after the frame's last slot. -/
  slot : Nat
  frameStart : Nat
  /-- The spare slots lent in this frame, with the circuit whose dose each was lent to (R92). -/
  lent : List (Nat × Circ)
  /-- Circuits whose dose has lost its lent slots in this frame (R93). -/
  forfeit : Vector Bool 24
  deriving DecidableEq, Repr

/-! ### Dispense Station (section 6.1) -/

inductive Job where
  | idle | inbound | preparing | dosing | weighing | outbound | calPreparing | calRunning | calWeighing
  deriving DecidableEq, Repr

inductive WaitReason where
  | stopped | z2 | scale | line | circuit | purge
  deriving DecidableEq, Repr

inductive ScaleMode where
  | doseCheck | calibration
  deriving DecidableEq, Repr

inductive CapTarget where
  | opened | closed
  deriving DecidableEq, Repr

/-- The head cap; a motion carries the moment it ends. -/
inductive Cap where
  | closed | opening (ends : Nat) | opened | closing (ends : Nat) | halted (target : CapTarget)
  deriving DecidableEq, Repr

/-- The closing delay. `expired` is a delay that ran out and whose closure waits for RESUME (R121). -/
inductive ClosingDelay where
  | off | running (ends : Nat) | expired
  deriving DecidableEq, Repr

/-- The settle of a tare or a weighing. `held` waits for RESUME to begin in full (R122). -/
inductive Settle where
  | off | running (ends : Nat) | held
  deriving DecidableEq, Repr

/-- How far a dose or CAL activity has come on its way to the Drive Frame (R124, R131). -/
inductive Handing where
  | notYet | again (compared : Bool) | handed | ended
  deriving DecidableEq, Repr

/-- A calibration run in flight (R130). -/
structure CalRun where
  circuit : Circ
  target : Nat
  steps : Nat
  k : Nat
  density : Nat
  delivered : Nat
  changed : Bool
  handing : Handing
  deriving DecidableEq, Repr

structure Station where
  job : Job
  tin : Option Nat
  waiting : List WaitReason
  scale : ScaleMode
  tare : Option Reading
  reading : Option Reading
  cap : Cap
  delay : ClosingDelay
  settle : Settle
  cal : Option CalRun
  /-- The job tin has asked for a marker set (R117). -/
  markerAsked : Bool
  /-- An event of R114 has been taken in this step, and its admission attempt is still to be made. -/
  attemptOwed : Bool
  deriving DecidableEq, Repr

/-! ### Tin Track (sections 7.1 and 7.4) -/

inductive Stage where
  | loaded | readyToMove | preparing | dosing | weighing | lidding | mixing | out | failed | orphan
  deriving DecidableEq, Repr

inductive PlanOutcome where
  | planned | deferred | minAdjust | noneDue | skipped
  deriving DecidableEq, Repr

inductive RunOutcome where
  | delivered | cut (cause : CutCause) | notRun
  deriving DecidableEq, Repr

/-- A dose entry of the committed plan with its run result (R56, R100). `mass` is the entry's term of the expected
mass, formed when its run ends (R58). -/
structure DoseEntry where
  code : Text
  circuit : Circ
  planned : Nat
  volume : Nat
  outcome : PlanOutcome
  adjust : Option Int
  substituted : Bool
  handing : Handing
  delivered : Nat
  deliveredVolume : Nat
  run : Option RunOutcome
  mass : Nat
  deriving DecidableEq, Repr

inductive Verdict where
  | pass | deviation | uncheckedLight | uncheckedOverRange
  deriving DecidableEq, Repr

structure WeightCheck where
  expected : Option Nat
  measured : Option Int
  verdict : Option Verdict
  deriving DecidableEq, Repr

inductive LidStatus where
  | seated | notSeated | notFitted
  deriving DecidableEq, Repr

inductive Route where
  | mix | bypass
  deriving DecidableEq, Repr

/-- The mix result (R173, R182): DONE or ABORTED, the mixer, the program in s, the elapsed time in µs, INTERRUPTED. -/
structure MixResult where
  done : Bool
  mixer : Mix
  program : Nat
  elapsed : Nat
  interrupted : Bool
  deriving DecidableEq, Repr

inductive Note where
  | offShade | substituted | shortDose | interrupted | lotSplit | weightDeviation | notLidded | unmixed
  deriving DecidableEq, Repr

/-- A tin record (R141). `readyAt` is the moment its stage last became READY_TO_MOVE (R144). -/
structure Tin where
  id : Nat
  order : Option (Nat × Nat)
  size : Option (Fin 12)
  base : Option (Fin 8)
  stage : Stage
  entries : List DoseEntry
  weight : WeightCheck
  lid : Option LidStatus
  route : Option Route
  mix : Option MixResult
  notes : List Note
  readyAt : Nat
  deriving DecidableEq, Repr

/-- A place record (R139). For the out lane `tin` is unused: the lane's ids stand in `Track.lane`, and `arriving` is
the condition of its tail entry. -/
structure PlaceRecord where
  tin : Option Nat
  arriving : Bool
  departing : Bool
  reserved : Option Nat
  uncertain : Bool
  /-- A slipped tin stands here whose hand-over waits for a CONFIRM (R148). -/
  owed : Bool
  deriving DecidableEq, Repr

/-- A move in flight: `deadline` ends its 4 s of running time, `none` while STOP halts it (R146, R158). -/
structure Move where
  tin : Nat
  src : Place
  dst : Place
  deadline : Option Nat
  deriving DecidableEq, Repr

/-- A jam pair and the tin that stands on it (R149). -/
structure JamPair where
  tin : Nat
  src : Place
  dst : Place
  deriving DecidableEq, Repr

inductive FinishCause where
  | taken | cleared | lost
  deriving DecidableEq, Repr

/-- A record of the finished list (R154). -/
structure Finished where
  tin : Tin
  cause : FinishCause
  failed : Bool
  deriving DecidableEq, Repr

structure Track where
  tins : List Tin
  lastId : Nat
  places : Vector PlaceRecord 8
  lane : List Nat
  moves : List Move
  jams : List JamPair
  /-- Arm transfers that are ready and not granted, with the moment each became ready (R145). -/
  armReady : List (Nat × Nat)
  /-- The encoder counts of the sections under Z1–Z5 and of the arm (index 5). -/
  encoders : Vector Nat 6
  /-- The finished list, newest first. -/
  finished : List Finished
  deriving DecidableEq, Repr

/-! ### Lidder (sections 8.1 and 8.2) -/

inductive PressState where
  | idle | waiting | waitingLid | pressing | lidded
  deriving DecidableEq, Repr

structure Magazine where
  code : Fin 3
  count : Nat
  deriving DecidableEq, Repr

structure Lidder where
  press : PressState
  tin : Option Nat
  code : Option (Fin 3)
  drawn : Bool
  mag : Option (Fin 3)
  attempt : Nat
  policy : LidPolicy
  mags : Vector Magazine 3
  /-- The moment the press cycle in flight ends. -/
  cycleEnd : Option Nat
  deriving DecidableEq, Repr

/-! ### Mixers (section 8.3) -/

inductive MixerState where
  | idle | loading | clamping | mixing | braking | unclamping | holding | stopped
  deriving DecidableEq, Repr

inductive Clamp where
  | opened | closed | moving
  deriving DecidableEq, Repr

inductive PendingStep where
  | clamp | mix | unclamp
  deriving DecidableEq, Repr

inductive StopCause where
  | door | stop | power | restart
  deriving DecidableEq, Repr

/-- A mixer. `program` is in s, `elapsed` in µs; `since` is the moment the running step began and `ends` the moment
it ends. `brakeTo` is the step that will be pending where a braking in progress ends STOPPED: MIX after an interruption,
and where it is absent UNCLAMP, after a completed program (R175). -/
structure Mixer where
  state : MixerState
  tin : Option Nat
  clamp : Clamp
  program : Option Nat
  elapsed : Nat
  interrupted : Bool
  pending : Option PendingStep
  brakeTo : Option PendingStep
  causes : List StopCause
  resumeTaken : Bool
  idleSince : Nat
  since : Nat
  ends : Nat
  deriving DecidableEq, Repr

/-! ### Tag Bus (chapter 9) -/

inductive BusState where
  /-- `settling` is BUSY until both lines have stood high for 100 µs (R186). -/
  | free | busy | settling
  deriving DecidableEq, Repr

/-- A READ, or a WRITE with its remaining volume in 0.1 mL. -/
inductive JobKind where
  | read | write (remaining : Nat)
  deriving DecidableEq, Repr

structure TagJob where
  circuit : Circ
  kind : JobKind
  deriving DecidableEq, Repr

/-- Where a job resumes: a read from phase 1, a page (0–3) from its start, or the polling after a page. -/
inductive JobPoint where
  | read | page (n : Nat) | poll (n : Nat)
  deriving DecidableEq, Repr

inductive BusPhase where
  | start | address | pointer | write (i : Nat) | restart | readAddress | read (i : Nat) | stop
  deriving DecidableEq, Repr

/-- What the active job is doing: waiting for the bus since a moment, in a phase of a transaction, or in the 200 µs
between polls. -/
inductive JobStep where
  | wait (since : Nat) | phase (p : BusPhase) | gap
  deriving DecidableEq, Repr

structure ActiveJob where
  job : TagJob
  point : JobPoint
  step : JobStep
  losses : Nat
  faults : Nat
  /-- The record a WRITE writes, built when the job became active (R193). -/
  record : List (BitVec 8)
  /-- The bytes read so far in this transaction. -/
  buffer : List (BitVec 8)
  /-- The end of the 10 ms polling limit (R194). -/
  pollLimit : Nat
  /-- The job is to end unreported at the next byte boundary (R202, R204). -/
  abandoned : Bool
  deriving DecidableEq, Repr

/-- What the controller puts on the tag lines in a phase: a start or repeated start, a byte it sends, the answer it gives to
a byte it receives (an acknowledge is low), or a stop (R185, R191, R194). -/
inductive BusDrive where
  | start | repeatedStart | send (b : BitVec 8) | answer (acknowledge : Bool) | stop
  deriving DecidableEq, Repr

/-- A tag image (R193): the fields of the last valid record read from or written to the tag. -/
structure TagImage where
  code : Text
  lot : Text
  fill : Nat
  remaining : Nat
  day : Nat
  writes : Nat
  deriving DecidableEq, Repr

inductive TagFailure where
  | tagInvalid | tagAbsent | writeTimeout | lineContended | busFault
  deriving DecidableEq, Repr

/-- A circuit's last result (R206). -/
inductive LastResult where
  | none | readOk | writeOk | read (f : TagFailure) | write (f : TagFailure)
  deriving DecidableEq, Repr

structure TagBus where
  bus : BusState
  /-- The controller is sending the stop of a transaction whose job has gone on or ended. -/
  stopping : Bool
  active : Option ActiveJob
  /-- The jobs behind the active one; with it they take the 8 places. -/
  queue : List TagJob
  backlog : List TagJob
  images : Vector (Option TagImage) 24
  last : Vector LastResult 24
  deriving DecidableEq, Repr

/-! ### Care Scheduler (chapter 10) -/

structure Care where
  siteTime : Option Nat
  /-- The moment at which the present minute of the site time began. -/
  minuteStart : Nat
  daily : Nat
  origin : Nat
  /-- The quarter-hour boundaries that have arrived since the phase origin. -/
  quarters : Nat
  /-- The due list: circuit and due time, in order (R209). -/
  due : List (Circ × Nat)
  deriving DecidableEq, Repr

/-! ### Counter Link (chapter 11) -/

inductive Reason where
  | syntaxError | unknown | range | busy | full | state | notFound | mismatch | empty | overload | unknownColourant
  | stopped | overrun
  deriving DecidableEq, Repr

/-- One colon-separated part of a field's value. `signed` carries its sign, `plus` joins words by plus signs. -/
inductive Atom where
  | num (n : Nat) | int (i : Int) | signed (i : Int) | word (s : String) | text (t : Text)
  | adjusted (s : String) (i : Int) | plus (ss : List String)
  deriving DecidableEq, Repr

/-- One word of a reply or a notice: key=value, or a bare word. A value is a comma-separated list of groups of
colon-separated atoms. -/
inductive Item where
  | field (key : String) (value : List (List Atom))
  | bare (s : String)
  deriving DecidableEq, Repr

inductive Reply where
  | ok (items : List Item)
  | no (r : Reason)
  deriving DecidableEq, Repr

/-- The event flags in table order (section 11.6); the four circuit flags are held once for each circuit. -/
inductive Flag where
  | loadWanted | lineHeld | lineDone | tinFinished | weightDeviation
  | low (c : Circ) | empty (c : Circ) | blocked (c : Circ) | tagFault (c : Circ)
  | trackSlip | trackJam | lidEmpty | lidLow | mixerDoor | calDone | stop | uncleanStop | start
  deriving DecidableEq, Repr

inductive FlagClass where
  | order | tin | circuit | track | lid | mix | scale | machine
  deriving DecidableEq, Repr

/-- A line for the transmitter. A reply that answers an entry of the input list frees that entry's place. -/
inductive OutLine where
  | reply (place : Bool) (r : Reply)
  | notice (f : Flag) (items : List Item)
  deriving DecidableEq, Repr

/-- An entry of the input list (R220): in reception, received and not yet taken, an overrun entry not yet taken, or
answered with its reply waiting or being sent. -/
inductive InEntry where
  | receiving | received (chars : List RxChar) | overrun | answered
  deriving DecidableEq, Repr

inductive StartCause where
  | power | unclean | restart
  deriving DecidableEq, Repr

structure Link where
  inputs : List InEntry
  overrun : Nat
  sending : Option OutLine
  output : List OutLine
  /-- The set flags with the notice fields captured when each was set. -/
  flags : List (Flag × List Item)
  enabled : Vector Bool 8
  startCause : StartCause
  deriving DecidableEq, Repr

/-! ### The part -/

/-- The whole part. `pending` is the queue of the commands that wait, first in, first out. -/
structure State where
  pending : List Instr
  powered : Bool
  now : Nat
  /-- The free choices taken so far (Config.pumpFirst). -/
  choices : Nat
  stopped : Bool
  inp : Inputs
  circuits : Vector Circuit 24
  lib : Library
  store : Store
  calResult : Option CalResult
  bk : Book
  drive : Drive
  stn : Station
  track : Track
  lid : Lidder
  mixer : Vector Mixer 2
  tag : TagBus
  cares : Care
  link : Link
  deriving DecidableEq, Repr

/-! ### Reset -/

/-- The inputs at reset: STOP inactive, bays open, no tins, no height class, nothing on the scale, lids shown, guard and
doors closed. Assumption 2. -/
def Inputs.reset : Inputs where
  stop := false
  bays := Vector.replicate 24 false
  places := Vector.replicate 8 false
  lane := Vector.replicate 4 false
  height := none
  scale := .mg 0
  seated := false
  lids := Vector.replicate 3 true
  guardOpen := false
  doors := Vector.replicate 2 false

/-- A store that has never been written (R43). -/
def NonVolatile.blank : NonVolatile where
  circuits := Vector.replicate 24 none
  levels := Vector.replicate 24 none
  bases := Vector.replicate 8 none
  sizes := Vector.replicate 12 none
  slots := []
  scheme := none
  lidPolicy := none
  lidCodes := Vector.replicate 3 none
  daily := none
  marker := none

/-- A circuit record at power-on with no colourant code: UNFITTED and LOCKED (R23). -/
def Circuit.reset : Circuit where
  cfg := Settings.default
  state := .unfitted
  reason := none
  trim := 0
  nmin := 24
  pendingTrim := none
  pendingNmin := none
  level := 0
  lowArmed := true
  lot := none
  checkKind := .powerOn
  origin := .ready
  openBatch := 0
  baseline := false
  latchOpen := false
  lastDelivery := 0
  stir := none
  purgeDue := none

def Pump.reset : Pump where
  piston := .unknown 0
  activity := none
  next := none
  burst := none
  heldPrime := false

def PlaceRecord.reset : PlaceRecord where
  tin := none
  arriving := false
  departing := false
  reserved := none
  uncertain := false
  owed := false

def Mixer.reset : Mixer where
  state := .idle
  tin := none
  clamp := .opened
  program := none
  elapsed := 0
  interrupted := false
  pending := none
  brakeTo := none
  causes := []
  resumeTaken := false
  idleSince := 0
  since := 0
  ends := 0

def Store.reset : Store where
  nv := NonVolatile.blank
  writer := none
  pendingSet := none
  pendingClear := false
  heldClear := false
  dirty := Vector.replicate 24 false
  fifo := []
  lost := 0

def Library.reset : Library where
  bases := Vector.replicate 8 none
  sizes := Vector.replicate 12 none
  slots := []
  cursor := 1

def Drive.reset : Drive where
  scheme := .continuous
  nextScheme := none
  pumps := Vector.replicate 24 Pump.reset
  slot := 32
  frameStart := 0
  lent := []
  forfeit := Vector.replicate 24 false

/-- The station at power-on, with the cap driven toward CLOSED (R136). -/
def Station.reset : Station where
  job := .idle
  tin := none
  waiting := []
  scale := .doseCheck
  tare := none
  reading := none
  cap := .closing (2 * Config.sec)
  delay := .off
  settle := .off
  cal := none
  markerAsked := false
  attemptOwed := false

def Track.reset : Track where
  tins := []
  lastId := 0
  places := Vector.replicate 8 PlaceRecord.reset
  lane := []
  moves := []
  jams := []
  armReady := []
  encoders := Vector.replicate 6 0
  finished := []

def Lidder.reset : Lidder where
  press := .idle
  tin := none
  code := none
  drawn := false
  mag := none
  attempt := 0
  policy := .hold
  mags := #v[⟨0, 0⟩, ⟨1, 0⟩, ⟨2, 0⟩]
  cycleEnd := none

def TagBus.reset : TagBus where
  bus := .settling
  stopping := false
  active := none
  queue := []
  backlog := []
  images := Vector.replicate 24 none
  last := Vector.replicate 24 .none

def Care.reset : Care where
  siteTime := none
  minuteStart := 0
  daily := 360
  origin := 0
  quarters := 0
  due := []

/-- The fields of the START notice of a clean power-on (R232). -/
def startPower : List Item := [.field "cause" [[.word "POWER"]]]

/-- The Counter Link right after power-on: START is set and its notice is the first line sent (R232). -/
def Link.reset : Link where
  inputs := []
  overrun := 0
  sending := some (.notice .start startPower)
  output := []
  flags := [(.start, startPower)]
  enabled := Vector.replicate 8 true
  startCause := .power

/-- The part right after power-on with a store that has never been written and the inputs of `Inputs.reset`, its queue
empty. `Sys2Proof.Tests` shows that POWER_ON itself leads here. -/
def State.reset : State where
  pending := []
  powered := true
  now := 0
  choices := 0
  stopped := false
  inp := Inputs.reset
  circuits := Vector.replicate 24 Circuit.reset
  lib := Library.reset
  store := Store.reset
  calResult := none
  bk := ⟨[], 0⟩
  drive := Drive.reset
  stn := Station.reset
  track := Track.reset
  lid := Lidder.reset
  mixer := Vector.replicate 2 Mixer.reset
  tag := TagBus.reset
  cares := Care.reset
  link := Link.reset

end Sys2Proof.Machine
end

