-- ==== Sys2Proof/Machine/Ops.lean ====
section
/-! DEFINITION. The named operations over the state that every block uses: reading and updating one circuit, pump,
place, tin or mixer, the clock, and the tin table. -/

namespace Sys2Proof

/-! ### Places and mixers -/

/-- The place's index in the tables of place records and place sensors. -/
def Place.ix : Place → Fin 8
  | .z1 => 0 | .z2 => 1 | .z3 => 2 | .z4 => 3 | .z5 => 4 | .mixA => 5 | .mixB => 6 | .out => 7

def allPlaces : List Place := [.z1, .z2, .z3, .z4, .z5, .mixA, .mixB, .out]

/-- The zones and mixers: the places that hold one record each. -/
def singlePlaces : List Place := [.z1, .z2, .z3, .z4, .z5, .mixA, .mixB]

def Place.isMixer : Place → Bool
  | .mixA | .mixB => true
  | _ => false

def Mix.place : Mix → Place
  | .a => .mixA
  | .b => .mixB

def Place.mixer? : Place → Option Mix
  | .mixA => some .a
  | .mixB => some .b
  | _ => none

def Mix.ix : Mix → Fin 2
  | .a => 0
  | .b => 1

end Sys2Proof

namespace Sys2Proof.Machine

/-- Replace entry i of a table by its image under f. -/
def updAt {α : Type} {n : Nat} (v : Vector α n) (i : Fin n) (f : α → α) : Vector α n := v.set i.val (f v[i]) i.isLt

/-- The circuits in ascending order. -/
def allCircuits : List Circ := List.finRange 24

/-- The circuit's number, 1–24. -/
def circNo (c : Circ) : Nat := c.val + 1

/-- Carry out f for each circuit in ascending order. -/
def forCircuits (f : Circ → State → State) (s : State) : State := allCircuits.foldl (fun t c => f c t) s

/-! ### The clock -/

/-- The moment t has come: the clock stands at t or later. -/
def State.reach (s : State) (t : Nat) : State := { s with now := max s.now t }

/-! ### Circuits and pumps -/

def State.circuit (s : State) (c : Circ) : Circuit := s.circuits[c]

def State.setCircuit (s : State) (c : Circ) (f : Circuit → Circuit) : State :=
  { s with circuits := updAt s.circuits c f }

def State.pump (s : State) (c : Circ) : Pump := s.drive.pumps[c]

def State.setPump (s : State) (c : Circ) (f : Pump → Pump) : State :=
  { s with drive := { s.drive with pumps := updAt s.drive.pumps c f } }

def State.setActivity (s : State) (c : Circ) (f : Activity → Activity) : State :=
  s.setPump c fun p => { p with activity := p.activity.map f }

/-- The circuit is in READY or EMPTY. -/
def Circuit.inService (r : Circuit) : Bool := r.state == .ready || r.state == .empty

/-! ### Places -/

def State.placeRec (s : State) (p : Place) : PlaceRecord := s.track.places[p.ix]

def State.setPlace (s : State) (p : Place) (f : PlaceRecord → PlaceRecord) : State :=
  { s with track := { s.track with places := updAt s.track.places p.ix f } }

/-- The place's sensor shows a tin. -/
def State.shows (s : State) (p : Place) : Bool := s.inp.places[p.ix]

/-- The lane positions that show a tin. -/
def State.laneCount (s : State) : Nat := (s.inp.lane.toList.filter id).length

def State.mixerRec (s : State) (m : Mix) : Mixer := s.mixer[m.ix]

def State.setMixer (s : State) (m : Mix) (f : Mixer → Mixer) : State := { s with mixer := updAt s.mixer m.ix f }

/-! ### Tin records -/

def State.tin? (s : State) (id : Nat) : Option Tin := s.track.tins.find? fun t => t.id == id

def State.setTin (s : State) (id : Nat) (f : Tin → Tin) : State :=
  { s with track := { s.track with tins := s.track.tins.map fun t => if t.id = id then f t else t } }

/-- The record resting or arriving at a zone or mixer. -/
def State.tinAt (s : State) (p : Place) : Option Tin := (s.placeRec p).tin.bind s.tin?

/-- The record belongs to an order line: it is no orphan. -/
def Tin.ordered (t : Tin) : Bool := t.stage != .orphan && t.order.isSome

/-- Put a note into the tin's set; a note once in the set stays there (R141). -/
def Tin.note (t : Tin) (n : Note) : Tin := if n ∈ t.notes then t else { t with notes := t.notes ++ [n] }

def State.noteTin (s : State) (id : Nat) (n : Note) : State := s.setTin id fun t => t.note n

/-- The tin's stage becomes READY_TO_MOVE at this moment (R144). -/
def State.readyTin (s : State) (id : Nat) : State :=
  s.setTin id fun t => { t with stage := .readyToMove, readyAt := s.now }

def State.stageTin (s : State) (id : Nat) (g : Stage) : State := s.setTin id fun t => { t with stage := g }

/-- The id a new record takes: the first of last + 1, last + 2, … that no live record holds, wrapping from 255 to 1
(R140). -/
def nextFree (top : Nat) (used : Nat → Bool) (last : Nat) : Nat → Nat
  | 0 => last
  | n + 1 =>
    let k := if last ≥ top then 1 else last + 1
    if used k then nextFree top used k n else k

def State.newTinId (s : State) : Nat :=
  nextFree 255 (fun k => (s.tin? k).isSome) s.track.lastId 256

/-- A record with no order, as an orphan made from a presence starts (R156). -/
def Tin.orphan (id : Nat) : Tin where
  id := id
  order := none
  size := none
  base := none
  stage := .orphan
  entries := []
  weight := ⟨none, none, none⟩
  lid := none
  route := none
  mix := none
  notes := []
  readyAt := 0

/-- Enter a new record into the tin table; its id becomes the last assigned. -/
def State.addTin (s : State) (t : Tin) : State :=
  { s with track := { s.track with tins := s.track.tins ++ [t], lastId := t.id } }

/-- Take the record out of the tin table, with every reservation and readiness held for it. -/
def State.dropTin (s : State) (id : Nat) : State :=
  { s with track := { s.track with
      tins := s.track.tins.filter fun t => t.id != id
      armReady := s.track.armReady.filter fun x => x.1 != id
      places := Vector.ofFn fun i : Fin 8 =>
        let r := s.track.places[i]
        if r.reserved = some id then { r with reserved := none } else r } }

/-- A move into or out of the place is in flight. -/
def State.moving (s : State) (p : Place) : Bool := s.track.moves.any fun m => m.src == p || m.dst == p

/-- The jam pair the place stands on. -/
def State.jamAt (s : State) (p : Place) : Option JamPair := s.track.jams.find? fun j => j.src == p || j.dst == p

/-- A move made by the transfer arm: into or out of a mixer (section 7.3). -/
def armMove (src dst : Place) : Bool := src.isMixer || dst.isMixer

/-- Where the live record stands. -/
inductive Standing where
  | at (p : Place) | lane (k : Nat) | jammed (j : JamPair) | nowhere
  deriving DecidableEq, Repr

def State.standing (s : State) (id : Nat) : Standing :=
  match s.track.jams.find? (fun j => j.tin == id) with
  | some j => .jammed j
  | none =>
    match singlePlaces.find? (fun p => (s.placeRec p).tin == some id) with
    | some p => .at p
    | none =>
      match s.track.lane.findIdx? (· == id) with
      | some k => .lane k
      | none => .nowhere

/-! ### Formulas and sizes -/

def State.slot? (s : State) (n : Nat) : Option Formula := (s.lib.slots.find? fun x => x.1 == n).map (·.2)

/-- Write slot n of a list of used slots that rises by slot number; `none` makes it unused. -/
def putSlot (n : Nat) (v : Option Formula) : List (Nat × Formula) → List (Nat × Formula)
  | [] => match v with
    | some f => [(n, f)]
    | none => []
  | (k, g) :: rest =>
    if n < k then
      match v with
      | some f => (n, f) :: (k, g) :: rest
      | none => (k, g) :: rest
    else if n = k then
      match v with
      | some f => (n, f) :: rest
      | none => rest
    else (k, g) :: putSlot n v rest

/-- The loading of a formula: the sum of its amounts (section 2.3). -/
def Formula.loading (f : Formula) : Nat := (f.lines.map (·.2)).sum

/-! ### Machine conditions -/

/-- A run of one command: the commands of an unpowered part change nothing. Assumption 3. -/
def whenPowered (f : State → State) (s : State) : Host.Outcome State Fault Refusal :=
  .next (if s.powered then f s else s)

/-- A command that first changes an input of the line, powered or not, and is then taken by the part. -/
def withInput (setInput : Inputs → Inputs) (f : State → State) (s : State) : Host.Outcome State Fault Refusal :=
  let s' := { s with inp := setInput s.inp }
  .next (if s.powered then f s' else s')

end Sys2Proof.Machine
end

