-- ==== Sys2Proof/Machine/Flags.lean ====
section
/-! DEFINITION. Event flags and notices, and the output list of the Counter Link (sections 11.3 and 11.6). -/

namespace Sys2Proof.Machine

/-! ### Words of replies and notices -/

def Item.num (key : String) (n : Nat) : Item := .field key [[.num n]]
def Item.int (key : String) (i : Int) : Item := .field key [[.int i]]
def Item.signed (key : String) (i : Int) : Item := .field key [[.signed i]]
def Item.word (key : String) (w : String) : Item := .field key [[.word w]]
def Item.text (key : String) (t : Text) : Item := .field key [[.text t]]
def Item.parts (key : String) (v : List Atom) : Item := .field key [v]

/-- A value or NONE. -/
def Atom.opt : Option Nat → Atom
  | some n => .num n
  | none => .word "NONE"

def Atom.optText : Option Text → Atom
  | some t => .text t
  | none => .word "NONE"

/-- A list of groups, or NONE where it is empty. -/
def Item.listOrNone (key : String) (v : List (List Atom)) : Item :=
  if v = [] then .word key "NONE" else .field key v

def yesNo (b : Bool) : String := if b then "YES" else "NO"

/-! ### The output list (R224) -/

/-- A line joins the output list; an idle transmitter begins it at once. -/
def Link.push (l : Link) (x : OutLine) : Link :=
  match l.sending with
  | none => { l with sending := some x }
  | some _ => { l with output := l.output ++ [x] }

/-- The reply of a taken request joins the output list. -/
def State.pushReply (s : State) (place : Bool) (r : Reply) : State :=
  { s with link := s.link.push (.reply place r) }

/-! ### Flags (R225, R226) -/

def FlagClass.ix : FlagClass → Fin 8
  | .order => 0 | .tin => 1 | .circuit => 2 | .track => 3 | .lid => 4 | .mix => 5 | .scale => 6 | .machine => 7

def FlagClass.all : List FlagClass := [.order, .tin, .circuit, .track, .lid, .mix, .scale, .machine]

def FlagClass.name : FlagClass → String
  | .order => "ORDER" | .tin => "TIN" | .circuit => "CIRCUIT" | .track => "TRACK" | .lid => "LID"
  | .mix => "MIX" | .scale => "SCALE" | .machine => "MACHINE"

/-- The flag's class (section 11.6). -/
def Flag.cls : Flag → FlagClass
  | .loadWanted | .lineHeld | .lineDone => .order
  | .tinFinished | .weightDeviation => .tin
  | .low _ | .empty _ | .blocked _ | .tagFault _ => .circuit
  | .trackSlip | .trackJam => .track
  | .lidEmpty | .lidLow => .lid
  | .mixerDoor => .mix
  | .calDone => .scale
  | .stop | .uncleanStop | .start => .machine

def Flag.name : Flag → String
  | .loadWanted => "LOAD_WANTED" | .lineHeld => "LINE_HELD" | .lineDone => "LINE_DONE"
  | .tinFinished => "TIN_FINISHED" | .weightDeviation => "WEIGHT_DEVIATION"
  | .low _ => "LOW" | .empty _ => "EMPTY" | .blocked _ => "BLOCKED" | .tagFault _ => "TAG_FAULT"
  | .trackSlip => "TRACK_SLIP" | .trackJam => "TRACK_JAM" | .lidEmpty => "LID_EMPTY" | .lidLow => "LID_LOW"
  | .mixerDoor => "MIXER_DOOR" | .calDone => "CAL_DONE" | .stop => "STOP" | .uncleanStop => "UNCLEAN_STOP"
  | .start => "START"

/-- The circuit of a circuit flag. -/
def Flag.circuit? : Flag → Option Circ
  | .low c | .empty c | .blocked c | .tagFault c => some c
  | _ => none

/-- The 110 flags in table order, circuit flags by circuit number (R225, R228). -/
def Flag.all : List Flag :=
  [.loadWanted, .lineHeld, .lineDone, .tinFinished, .weightDeviation]
    ++ allCircuits.map .low ++ allCircuits.map .empty ++ allCircuits.map .blocked ++ allCircuits.map .tagFault
    ++ [.trackSlip, .trackJam, .lidEmpty, .lidLow, .mixerDoor, .calDone, .stop, .uncleanStop, .start]

def Link.isSet (l : Link) (f : Flag) : Bool := l.flags.any fun x => x.1 == f

def Link.isEnabled (l : Link) (k : FlagClass) : Bool := l.enabled[k.ix]

/-- The line is a notice of the flag. -/
def OutLine.isNoticeOf (f : Flag) : OutLine → Bool
  | .notice g _ => g == f
  | .reply _ _ => false

def OutLine.isNotice : OutLine → Bool
  | .notice _ _ => true
  | .reply _ _ => false

/-- A notice of the flag waits: it stands in the output list and has not been begun. -/
def Link.noticeWaits (l : Link) (f : Flag) : Bool := l.output.any (·.isNoticeOf f)

/-- Set a flag: a clear flag becomes set and captures its fields, and its notice becomes waiting where its class is
enabled; a set flag keeps its fields (R225, R226). -/
def Link.setFlag (l : Link) (f : Flag) (items : List Item) : Link :=
  if l.isSet f then l
  else
    let l' := { l with flags := l.flags ++ [(f, items)] }
    if l.isEnabled f.cls then l'.push (.notice f items) else l'

def State.setFlag (s : State) (f : Flag) (items : List Item) : State := { s with link := s.link.setFlag f items }

/-- Clear the flags p holds of and withdraw their waiting notices (R226, R227). -/
def Link.clearFlags (l : Link) (p : Flag → Bool) : Link :=
  { l with
    flags := l.flags.filter fun x => !p x.1
    output := l.output.filter fun x => match x with
      | .notice f _ => !p f
      | .reply _ _ => true }

/-- Enable a class: each set flag of it with no waiting notice gets one, in table order (R228). -/
def Link.enableClass (l : Link) (k : FlagClass) : Link :=
  if l.isEnabled k then l
  else
    Flag.all.foldl
      (fun m f =>
        match m.flags.find? (fun x => x.1 == f) with
        | some (_, items) =>
          if f.cls == k && !m.noticeWaits f then m.push (.notice f items) else m
        | none => m)
      { l with enabled := l.enabled.set k.ix.val true k.ix.isLt }

/-- Disable a class and withdraw its waiting notices; a class already OFF stays as it is (R228). -/
def Link.disableClass (l : Link) (k : FlagClass) : Link :=
  if !l.isEnabled k then l
  else { l with
    enabled := l.enabled.set k.ix.val false k.ix.isLt
    output := l.output.filter fun x => match x with
      | .notice f _ => f.cls != k
      | .reply _ _ => true }

/-! ### The text of a line (R223, R224) -/

def digitsOf (n : Nat) : Text := txt (toString n)

/-- A whole number with a minus sign where it is negative. -/
def plainText (i : Int) : Text := if i < 0 then txt "-" ++ digitsOf i.natAbs else digitsOf i.natAbs

/-- A signed result: 0 and positive values carry a plus sign ("Signed quantities", 00_scope.md). -/
def signedText (i : Int) : Text := if i < 0 then txt "-" ++ digitsOf i.natAbs else txt "+" ++ digitsOf i.natAbs

def joinText (sep : Text) : List Text → Text
  | [] => []
  | [t] => t
  | t :: rest => t ++ sep ++ joinText sep rest

/-- The characters of a part of a field. That MIN_ADJUST stands with its signed difference directly behind it is the
model's choice: Assumption 69. -/
def Atom.chars : Atom → Text
  | .num n => digitsOf n
  | .int i => plainText i
  | .signed i => signedText i
  | .word s => txt s
  | .text t => t
  | .adjusted s i => txt s ++ signedText i
  | .plus ss => joinText (txt "+") (ss.map txt)

/-- The characters of a word of a line. Where a rule fixes no characters between the contents of a field, that parts are
joined by colons and the members of a list by commas is the model's choice: Assumption 69. -/
def Item.chars : Item → Text
  | .field k v => txt k ++ txt "=" ++ joinText (txt ",") (v.map fun g => joinText (txt ":") (g.map Atom.chars))
  | .bare s => txt s

def Reason.name : Reason → String
  | .syntaxError => "SYNTAX" | .unknown => "UNKNOWN" | .range => "RANGE" | .busy => "BUSY" | .full => "FULL"
  | .state => "STATE" | .notFound => "NOT_FOUND" | .mismatch => "MISMATCH" | .empty => "EMPTY"
  | .overload => "OVERLOAD" | .unknownColourant => "UNKNOWN_COLOURANT" | .stopped => "STOPPED"
  | .overrun => "OVERRUN"

/-- The characters of a line before its CR LF (R223, R224). -/
def OutLine.chars : OutLine → Text
  | .reply _ (.ok items) => joinText (txt " ") (txt "OK" :: items.map Item.chars)
  | .reply _ (.no r) => txt "NO " ++ txt r.name
  | .notice f items => joinText (txt " ") ((txt "*" ++ txt f.name) :: items.map Item.chars)

end Sys2Proof.Machine
end

