-- ==== Sys2Proof/Machine/Operands.lean ====
section
/-! DEFINITION. The operands of requests: how an owning block reads the fields of a request (R222, section 11.4), and
the answer it gives (R223). -/

namespace Sys2Proof

/-! ### Reading one value -/

/-- The decimal digit a character stands for. -/
def digit? (c : Chr) : Option Nat :=
  if 48 ≤ c.toNat ∧ c.toNat ≤ 57 then some (c.toNat - 48) else none

/-- The whole number a run of decimal digits stands for; leading zeros are accepted (R222). -/
def digits? : Text → Nat → Option Nat
  | [], acc => some acc
  | c :: cs, acc => (digit? c).bind fun d => digits? cs (10 * acc + d)

/-- A whole number of any length, as the clamped fields take it. -/
def whole? (t : Text) : Option Nat := if t = [] then none else digits? t 0

/-- A whole number; one of more than 9 digits reads as 10^9, which lies outside every range (R222). -/
def number? (t : Text) : Option Nat :=
  (whole? t).map fun n => if t.length > 9 then 1000000000 else n

/-- A signed whole number: one leading sign is accepted (R222, trim= of TRIM). -/
def signed? : Text → Option Int
  | [] => none
  | c :: cs =>
    if c = 43 then (whole? cs).map Int.ofNat
    else if c = 45 then (whole? cs).map fun n => -(Int.ofNat n)
    else (whole? (c :: cs)).map Int.ofNat

/-- The entry of a table of names. -/
def named? {α : Type} (table : List (String × α)) (t : Text) : Option α :=
  (table.find? fun x => txt x.1 == t).map (·.2)

/-- A code made of one capital letter and a number from 1 to n: B1–B8, S1–S12, L1–L3. -/
def code? (letter : String) (n : Nat) (t : Text) : Option (Fin n) :=
  (List.finRange n).find? fun i => txt (letter ++ toString (i.val + 1)) == t

/-- The circuit numbered n. -/
def circ? (n : Nat) : Option Circ := if h : 1 ≤ n ∧ n ≤ 24 then some ⟨n - 1, by omega⟩ else none

/-- The magazine numbered n. -/
def magazine? (n : Nat) : Option (Fin 3) := if h : 1 ≤ n ∧ n ≤ 3 then some ⟨n - 1, by omega⟩ else none

/-- The value lies within lo … hi, both included. -/
def within (lo hi n : Nat) : Bool := lo ≤ n && n ≤ hi

/-! ### Reading fields -/

/-- The value of the first field with the key. -/
def Fields.get (fs : Fields) (key : String) : Option Text :=
  (List.find? (fun f => f.key == txt key) fs).map (·.value)

def Fields.has (fs : Fields) (key : String) : Bool := (fs.get key).isSome

/-- The whole number a field gives. -/
def Fields.num (fs : Fields) (key : String) : Option Nat := (fs.get key).bind number?

/-- The whole number a field gives, or the present value where it is not named. -/
def Fields.numD (fs : Fields) (key : String) (d : Nat) : Nat := (fs.num key).getD d

/-- The values of every field with the key, in order (line= of ORDER and FSTORE). -/
def Fields.all (fs : Fields) (key : String) : List Text :=
  (List.filter (fun f => f.key == txt key) fs).map (·.value)

/-- A key is given twice (R222); `lines` says that line= may be repeated, as in ORDER and FSTORE. -/
def Fields.repeatsKey (fs : Fields) (lines : Bool) : Bool :=
  List.any fs fun f =>
    !(lines && f.key == txt "line") && (List.filter (fun g => g.key == f.key) fs).length > 1

/-- The SYNTAX check every request shares: an unknown field, a key given twice, a required field missing, or a numeric
value that is not a whole number (R222, section 11.4). ORDER and FSTORE, which know name=, may repeat line=. -/
def Fields.malformed (fs : Fields) (allowed required numeric : List String) : Bool :=
  (List.any fs fun f => !allowed.any fun k => f.key == txt k)
    || fs.repeatsKey (allowed.contains "name")
    || required.any (fun k => !fs.has k)
    || numeric.any fun k => fs.has k && (fs.num k).isNone

/-- A field is given and its value names nothing of its range. -/
def Fields.unreadable {α : Type} (fs : Fields) (key : String) (read : Text → Option α) : Bool :=
  fs.has key && ((fs.get key).bind read).isNone

end Sys2Proof

namespace Sys2Proof.Machine

/-! ### Answers -/

/-- An owning block's answer: a refusal and a report change nothing in the part; an accepted request makes its change,
with its reply already in the output list (R223, R224). -/
inductive Answer where
  | refuse (r : Reason)
  | report (items : List Item)
  | accept (items : List Item) (effect : State → State)

/-- One check of a request: the first check that fails decides the refusal. -/
def Answer.check (fails : Bool) (r : Reason) (next : Answer) : Answer := if fails then .refuse r else next

end Sys2Proof.Machine
end

