-- ==== Sys2Proof/Machine/Store.lean ====
section
/-! DEFINITION. The Settings Store: link writes, the dirty level set, the open-tin marker and the writer
(sections 2.5 and 2.6). -/

namespace Sys2Proof.Machine

/-- The link-write FIFO has k free places (R39). -/
def State.linkRoom (s : State) (k : Nat) : Bool := s.store.fifo.length + k ≤ Config.fifoPlaces

/-- Queue one link write (R39). -/
def State.linkWrite (s : State) (r : StoreRecord) : State :=
  { s with store := { s.store with fifo := s.store.fifo ++ [r] } }

/-- Mark the circuit's level dirty (R40). -/
def State.markDirty (s : State) (c : Circ) : State :=
  { s with store := { s.store with dirty := updAt s.store.dirty c fun _ => true } }

def Store.dirtyList (t : Store) : List Circ := allCircuits.filter fun c => t.dirty[c]

/-! ### The open-tin marker (R42) -/

/-- The marker as the store's own rules count it: while a marker write is in progress it counts as stored with the
contents being written. R42 says so of its table; that RESTART counts it so too (R44) is the model's choice, Assumption
44. -/
def Store.markerStored (t : Store) : Option Marker :=
  match t.writer with
  | some (.marker m, _) => m
  | _ => t.nv.marker

/-- Add a volume to a circuit's sum; each circuit is listed once. -/
def addVolume (c : Circ) (v : Nat) : List (Circ × Nat) → List (Circ × Nat)
  | [] => [(c, v)]
  | (d, w) :: rest => if c = d then (d, w + v) :: rest else (d, w) :: addVolume c v rest

/-- Join a later list to an earlier one: volumes are summed, and the 16 newest ids are kept. -/
def Marker.join (m new : Marker) : Marker where
  tins := let all := m.tins ++ new.tins; all.drop (all.length - Config.markerTins)
  vols := new.vols.foldl (fun acc x => addVolume x.1 x.2 acc) m.vols

/-- The station asks for the marker to be set; a pending clear is withdrawn. -/
def Store.askMarkerSet (t : Store) (new : Marker) : Store :=
  let base := match t.pendingSet with
    | some m => some m
    | none => t.markerStored
  { t with
    pendingSet := some (match base with
      | some m => m.join new
      | none => new)
    pendingClear := false
    heldClear := false }

def State.askMarkerSet (s : State) (new : Marker) : State := { s with store := s.store.askMarkerSet new }

/-- A clear becomes pending, behind a set that is still pending. -/
def State.askMarkerClear (s : State) : State := { s with store := { s.store with pendingClear := true } }

/-- The list the marker will have once its pending set is written. -/
def Store.markerDue (t : Store) : Option Marker := t.pendingSet.orElse fun _ => t.markerStored

/-- A run that RESTART cuts is still to end on a circuit the marker lists. -/
def State.cutRunsOn (s : State) : Bool :=
  ((s.store.markerDue.map (·.vols)).getD []).any fun x => ((s.pump x.1).activity.map (·.restarted)).getD false

/-- The clear that RESTART gave becomes pending once the cut runs of the listed circuits have ended, so that it is taken
only after their levels are stored (R44, R137, Assumption 51). -/
def State.releaseClear (s : State) : State :=
  if s.store.heldClear && !s.cutRunsOn then
    { s with store := { s.store with pendingClear := true, heldClear := false } }
  else s

/-! ### The writer (R38, R41) -/

/-- The free writer takes its next work: marker set, dirty level, marker clear, link write (R41). What is written is
captured now (R38). -/
def State.storeTake (s : State) : State :=
  match s.store.writer with
  | some _ => s
  | none =>
    let ends := s.now + 30 * Config.ms
    match s.store.pendingSet with
    | some m => { s with store := { s.store with writer := some (.marker (some m), ends), pendingSet := none } }
    | none =>
      match s.store.dirtyList with
      | c :: _ =>
        { s with store := { s.store with
            writer := some (.level c (s.circuit c).level, ends)
            dirty := updAt s.store.dirty c fun _ => false } }
      | [] =>
        if s.store.pendingClear then
          { s with store := { s.store with writer := some (.marker none, ends), pendingClear := false } }
        else
          match s.store.fifo with
          | r :: rest => { s with store := { s.store with writer := some (.link r, ends), fifo := rest } }
          | [] => s

/-- The record is stored whole. -/
def NonVolatile.write (nv : NonVolatile) : WriteWork → NonVolatile
  | .marker m => { nv with marker := m }
  | .level c v => { nv with levels := updAt nv.levels c fun _ => some v }
  | .link (.circuit c v) => { nv with circuits := updAt nv.circuits c fun _ => some v }
  | .link (.base b v) => { nv with bases := updAt nv.bases b fun _ => v }
  | .link (.size z v) => { nv with sizes := updAt nv.sizes z fun _ => v }
  | .link (.slot n v) => { nv with slots := putSlot n v nv.slots }
  | .link (.scheme v) => { nv with scheme := some v }
  | .link (.lidPolicy v) => { nv with lidPolicy := some v }
  | .link (.lidCode m v) => { nv with lidCodes := updAt nv.lidCodes m fun _ => some v }
  | .link (.daily v) => { nv with daily := some v }

/-- A write ends: the record is stored, and the writer is free and takes its next work (R38). -/
def State.storeWriteEnd (s : State) : State :=
  match s.store.writer with
  | none => s
  | some (w, ends) =>
    State.storeTake { s with now := max s.now ends, store := { s.store with nv := s.store.nv.write w, writer := none } }

/-! ### NVSTAT (R45) -/

def circAtoms (cs : List Circ) : List (List Atom) := cs.map fun c => [.num (circNo c)]

/-- The marker whose tins and circuits NVSTAT lists: the pending set, else a set being written, else the marker stored.
R45 does not say which: Assumption 45. -/
def Store.markerShown (t : Store) : Option Marker :=
  (t.pendingSet.orElse fun _ => match t.writer with
    | some (.marker m, _) => m
    | _ => none).orElse fun _ => t.nv.marker

/-- The fields of NVSTAT. `marker` is the marker as stored: a write in progress is not stored yet (R38, R45). R45 orders
the circuits of dirty= alone; that the marker's tins stand oldest first, and its circuits in the order in which they
joined its list, is the model's choice: Assumption 61. The form of writer=, marker=, pending= and dirty= is Assumption 69. -/
def Store.statusItems (t : Store) : List Item :=
  [ match t.writer with
    | none => .word "writer" "IDLE"
    | some (.marker _, _) => .word "writer" "MARKER"
    | some (.level c _, _) => .parts "writer" [.word "LEVEL", .num (circNo c)]
    | some (.link _, _) => .word "writer" "LINK",
    .word "marker" (if t.nv.marker.isSome then "SET" else "CLEAR"),
    .word "pending" (match t.pendingSet.isSome, t.pendingClear || t.heldClear with
      | false, false => "NONE"
      | true, false => "SET"
      | false, true => "CLEAR"
      | true, true => "SET+CLEAR"),
    Item.listOrNone "tins" ((t.markerShown.map (·.tins)).getD [] |>.map fun n => [.num n]),
    Item.listOrNone "circuits" ((t.markerShown.map (·.vols)).getD [] |>.map fun x => [.num (circNo x.1)]),
    .field "dirty" ([.num t.dirtyList.length] :: circAtoms t.dirtyList),
    .num "fifo" t.fifo.length,
    .num "lost" t.lost ]

/-- NVSTAT (R45). -/
def nvstatAnswer (fs : Fields) (s : State) : Answer :=
  .check (fs.malformed [] [] []) .syntaxError <| .report s.store.statusItems

end Sys2Proof.Machine
end

