-- ==== Sys2Proof/Machine/Dues.lean ====
section
/-! DEFINITION. What the Care Scheduler keeps for each circuit: the due list, running stirs and purge dues
(sections 10.2 to 10.4), and the changes a circuit's state makes to them. -/

namespace Sys2Proof.Machine

/-! ### Stirs -/

/-- The order of the due list: by due time, then by circuit number (R209). -/
def dueBefore (x y : Circ × Nat) : Bool := x.2 < y.2 || (x.2 == y.2 && x.1.val < y.1.val)

def insertDue (x : Circ × Nat) : List (Circ × Nat) → List (Circ × Nat)
  | [] => [x]
  | y :: rest => if dueBefore x y then x :: y :: rest else y :: insertDue x rest

def State.stirListed (s : State) (c : Circ) : Bool := s.cares.due.any fun x => x.1 == c

def State.addDue (s : State) (c : Circ) (t : Nat) : State :=
  { s with cares := { s.cares with due := insertDue (c, t) s.cares.due } }

def State.dropDue (s : State) (c : Circ) : State :=
  { s with cares := { s.cares with due := s.cares.due.filter fun x => x.1 != c } }

/-- A stir comes due at the moment t: it joins the due list unless one is due or running (R208). -/
def State.stirComesDue (s : State) (c : Circ) (t : Nat) : State :=
  if s.stirListed c || (s.circuit c).stir.isSome then s else s.addDue c t

/-- The stirrer stops and the Drive Frame is told: a WAITING(STIR) activity becomes RUNNING (R101, R210). -/
def State.endStir (s : State) (c : Circ) : State :=
  (s.setCircuit c fun r => { r with stir := none }).setActivity c fun a =>
    if a.run = .waitingStir then { a with run := .running } else a

/-- A running stir is cut; cut by a state change or by STOP it goes back with its first due time (R211). -/
def State.cutStir (s : State) (c : Circ) (back : Bool) : State :=
  match (s.circuit c).stir with
  | none => s
  | some st => if back then (s.endStir c).addDue c st.due else s.endStir c

/-- The number of stirrers running. -/
def State.stirring (s : State) : Nat := (allCircuits.filter fun c => (s.circuit c).stir.isSome).length

/-! ### Purge dues (R212) -/

/-- A purge becomes due. The station's cap closes for it by R120. -/
def State.purgeBecomesDue (s : State) (c : Circ) (cause : PurgeCause) : State :=
  s.setCircuit c fun r => { r with purgeDue := some cause }

/-- A purge stops being due, and the station makes an admission attempt (R114, R212). -/
def State.clearPurgeDue (s : State) (c : Circ) : State :=
  match (s.circuit c).purgeDue with
  | none => s
  | some _ =>
    let t := s.setCircuit c fun r => { r with purgeDue := none }
    { t with stn := { t.stn with attemptOwed := true } }

/-- The moment the circuit's purge interval ends. -/
def Circuit.purgeMoment (r : Circuit) : Nat := r.lastDelivery + r.cfg.purgeInt * Config.minute

/-- The INTERVAL conditions of R212 hold at the moment t, and no purge is due yet. -/
def Circuit.purgeFalls (r : Circuit) (t : Nat) : Bool :=
  r.cfg.purgeInt != 0 && r.inService && r.purgeMoment ≤ t && r.purgeDue.isNone

/-- The purge test of R212. -/
def State.purgeTest (s : State) (c : Circ) : State :=
  if (s.circuit c).purgeFalls s.now then s.purgeBecomesDue c .interval else s

/-- An INTERVAL due is cleared by a dose or calibration run that delivered steps (R212). -/
def State.clearIntervalDue (s : State) (c : Circ) : State :=
  if (s.circuit c).purgeDue = some .interval then s.clearPurgeDue c else s

/-! ### The circuit's state -/

/-- Move a circuit to a state, with what leaving and entering READY and EMPTY bring: a running stir is cut and goes
back, a purge due is cleared, a circuit that enters SERVICE or UNFITTED leaves the due list (R211), and a circuit that
enters READY or EMPTY takes the purge test (R212). -/
def State.moveCircuit (s : State) (c : Circ) (g : CircuitState) : State :=
  let was := (s.circuit c).inService
  let s1 := s.setCircuit c fun r => { r with state := g }
  let now := (s1.circuit c).inService
  let s2 := if was && !now then (s1.cutStir c true).clearPurgeDue c else s1
  let s3 := if g = .service ∨ g = .unfitted then s2.dropDue c else s2
  if now then s3.purgeTest c else s3

end Sys2Proof.Machine
end

