-- ==== Sys2Proof/Machine/Levels.lean ====
section
/-! DEFINITION. Level accounting of the Circuit Table: reductions, LOW, EMPTY, staged trim and minimum dose, and the
open-batch count (sections 1.7 and 1.9). -/

namespace Sys2Proof.Machine

/-- The greatest level a circuit records, in µL. -/
def Settings.maxLevel (g : Settings) : Nat := g.capacity * 1000

/-- 1024 + T, for a trim within −63 … +63 (section 3.1). -/
def trimFactor (t : Int) : Nat := (1024 + t).toNat

/-- The volume in µL of n steps at stroke constant k and trim t (R15, R57). -/
def stepsVolume (n k : Nat) (t : Int) : Nat := roundHalfUp (n * 1024000) (k * trimFactor t)

/-! ### LOW and EMPTY -/

/-- The notice fields of LOW(c) and EMPTY(c) (R225). -/
def levelItems (c : Circ) (level : Nat) : List Item := [.num "circuit" (circNo c), .num "level" level]

/-- The LOW evaluation (R17). -/
def State.lowEvaluate (s : State) (c : Circ) : State :=
  let r := s.circuit c
  if r.cfg.low ≤ r.level then s.setCircuit c fun r => { r with lowArmed := true }
  else if r.lowArmed then
    (s.setCircuit c fun r => { r with lowArmed := false }).setFlag (.low c) (levelItems c r.level)
  else s

/-- A circuit enters EMPTY, and EMPTY(c) is set (R11, R16). -/
def State.enterEmpty (s : State) (c : Circ) : State :=
  (s.moveCircuit c .empty).setFlag (.empty c) (levelItems c (s.circuit c).level)

/-- The EMPTY check (R16). -/
def State.emptyCheck (s : State) (c : Circ) : State :=
  let r := s.circuit c
  if r.state = .ready ∧ r.level ≤ r.cfg.reserve then s.enterEmpty c else s

/-- The EMPTY check after a change of the empty reserve: an EMPTY circuit above it goes back to READY (R16). -/
def State.emptyCheckReserve (s : State) (c : Circ) : State :=
  let r := s.circuit c
  if r.state = .empty ∧ r.cfg.reserve < r.level then s.moveCircuit c .ready else s.emptyCheck c

/-! ### Reductions -/

/-- Reduce the level by the volume of a run that delivered n steps, with what follows each reduction (R15). `t` is
the trim the reduction uses. -/
def State.reduceLevel (s : State) (c : Circ) (n : Nat) (t : Int) : State :=
  if n = 0 then s
  else
    let v := stepsVolume n (s.circuit c).cfg.k t
    ((((s.setCircuit c fun r => { r with level := r.level - v, lastDelivery := s.now }).markDirty c).lowEvaluate
      c).emptyCheck c)

/-! ### Staged trim and minimum dose (R21, R22) -/

/-- Stage a trim: active at an open-batch count of 0, else pending. -/
def Circuit.stageTrim (r : Circuit) (t : Int) : Circuit :=
  if r.openBatch = 0 then { r with cfg := { r.cfg with trim := t }, trim := t, pendingTrim := none }
  else { r with cfg := { r.cfg with trim := t }, pendingTrim := some t }

/-- Stage a minimum dose. -/
def Circuit.stageNmin (r : Circuit) (n : Nat) : Circuit :=
  if r.openBatch = 0 then { r with cfg := { r.cfg with nmin := n }, nmin := n, pendingNmin := none }
  else { r with cfg := { r.cfg with nmin := n }, pendingNmin := some n }

/-- applied=NOW or applied=PENDING, for a value staged at the present open-batch count. -/
def Circuit.applied (r : Circuit) : Item := .word "applied" (if r.openBatch = 0 then "NOW" else "PENDING")

/-- The pending values become active (R22). -/
def Circuit.applyPending (r : Circuit) : Circuit :=
  { r with
    trim := r.pendingTrim.getD r.trim
    nmin := r.pendingNmin.getD r.nmin
    pendingTrim := none
    pendingNmin := none }

/-- A binding to the circuit is made (R20). -/
def State.bindingMade (s : State) (c : Circ) : State :=
  s.setCircuit c fun r => { r with openBatch := r.openBatch + 1 }

/-- A binding to the circuit ends; at a count of 0 the pending values are applied (R20, R22). -/
def State.bindingEnded (s : State) (c : Circ) : State :=
  s.setCircuit c fun r =>
    let r' := { r with openBatch := r.openBatch - 1 }
    if r'.openBatch = 0 then r'.applyPending else r'

/-! ### Blocking -/

def BlockReason.name : BlockReason → String
  | .wrongColourant => "WRONG_COLOURANT" | .tagInvalid => "TAG_INVALID" | .tagAbsent => "TAG_ABSENT"
  | .pumpFault => "PUMP_FAULT" | .levelLost => "LEVEL_LOST"

/-- Set BLOCKED(c) with the reason (R225). -/
def State.flagBlocked (s : State) (c : Circ) (why : BlockReason) : State :=
  s.setFlag (.blocked c) [.num "circuit" (circNo c), .word "reason" why.name]

/-- The circuit moves to BLOCKED with a reason, and BLOCKED(c) is set (R9, R10, R14). -/
def State.block (s : State) (c : Circ) (why : BlockReason) : State :=
  ((s.moveCircuit c .blocked).setCircuit c fun r => { r with reason := some why }).flagBlocked c why

/-- A pump fault: READY, EMPTY and PRIMING move to BLOCKED(PUMP_FAULT); a BLOCKED circuit takes the reason (R14). -/
def State.pumpFault (s : State) (c : Circ) : State :=
  match (s.circuit c).state with
  | .ready | .empty | .priming | .blocked => s.block c .pumpFault
  | _ => s

end Sys2Proof.Machine
end

