-- ==== Sys2Proof/Machine/Pumps.lean ====
section
/-! DEFINITION. The Drive Frame: slots and lending, activities, bursts and refills, faults, cuts, STOP and RESUME
(chapter 5). -/

namespace Sys2Proof.Machine

/-! ### The slot schemes (R90) -/

/-- The circuit's own slot under a scheme. -/
def ownSlot : Scheme → Circ → Nat
  | .continuous, c => c.val + 1
  | .spread, c => 4 * (c.val / 3) + c.val % 3 + 1
  | .split, c => if c.val < 15 then c.val + 1 else c.val + 2

/-- The circuit whose own slot it is, if any. -/
def slotOwner (m : Scheme) (k : Nat) : Option Circ := allCircuits.find? fun c => ownSlot m c == k

/-- The spare slots of a scheme, in ascending order. -/
def spareSlots : Scheme → List Nat
  | .continuous => [0, 25, 26, 27, 28, 29, 30, 31]
  | .spread => []
  | .split => [26, 27, 28, 29, 30, 31]

/-! ### Lending (R92) -/

/-- The pump's activity is a dose that can be lent slots now. -/
def Pump.lendable (p : Pump) : Bool :=
  p.burst.isNone && match p.activity with
    | some a => a.kind == .dose && a.run == .running && a.phase == .deliver
    | none => false

def Pump.remaining (p : Pump) : Nat :=
  match p.activity with
  | some a => a.planned - a.delivered
  | none => 0

/-- Insert by remaining steps, largest first, and by circuit number among equals. -/
def insertRanked (x : Nat × Circ) : List (Nat × Circ) → List (Nat × Circ)
  | [] => [x]
  | y :: rest =>
    if y.1 < x.1 || (y.1 == x.1 && x.2.val < y.2.val) then x :: y :: rest else y :: insertRanked x rest

/-- The eligible doses in rank order. -/
def Drive.ranked (d : Drive) : List Circ :=
  ((allCircuits.filter fun c => d.pumps[c].lendable).foldl
    (fun acc c => insertRanked (d.pumps[c].remaining, c) acc) []).map (·.2)

/-- Hand out the spare slots two to each dose, in ascending slot number. -/
def handOut : List Nat → List Circ → List (Nat × Circ)
  | a :: b :: spares, c :: rest => (a, c) :: (b, c) :: handOut spares rest
  | _, _ => []

/-- A new frame begins: an accepted SCHEME takes effect, and the spare slots are lent (R91, R92). -/
def Drive.frame (d : Drive) (start : Nat) : Drive :=
  let m := d.nextScheme.getD d.scheme
  { d with
    scheme := m
    nextScheme := none
    slot := 0
    frameStart := start
    lent := handOut (spareSlots m) d.ranked
    forfeit := Vector.replicate 24 false }

/-- The circuit's dose loses its lent slots for the rest of the frame (R93). -/
def State.forfeitSlots (s : State) (c : Circ) : State :=
  { s with drive := { s.drive with forfeit := updAt s.drive.forfeit c fun _ => true } }

/-! ### Activities (R94, R95, R97) -/

/-- The activity begins by refilling (R97). -/
def startsRefill (kind : Kind) (planned delivered : Nat) : Piston → Bool
  | .unknown _ => true
  | .known p =>
    match kind with
    | .dose => if planned ≤ Config.chamber then p < planned - delivered else p < Config.chamber
    | .purge => p < planned - delivered
    | .prime => true
    | .refill => p < Config.chamber

/-- A stroke to the refill stop begins anew when a refill phase begins (R97). -/
def Piston.beginStroke : Piston → Piston
  | .unknown _ => .unknown 0
  | .known p => .known p

def State.capClosed (s : State) : Bool := s.stn.cap == .closed

/-- The run state of an activity that may run: it waits for a running stirrer (R101). -/
def State.freshRun (s : State) (c : Circ) : RunState :=
  if (s.circuit c).stir.isSome then .waitingStir else .running

/-- Create an activity for a request (R95). A dose created while the machine is stopped is created STOPPED (R108). A prime
created on a full chamber begins in phase REFILL as R97 says of every prime, and leaves it at the end of a refill burst of
0 steps: Assumption 54. -/
def State.createActivity (s : State) (c : Circ) (q : PumpRequest) : State :=
  s.setPump c fun p =>
    { p with
      piston := p.piston.beginStroke
      heldPrime := if q.kind = .prime then false else p.heldPrime
      activity := some
        { kind := q.kind
          owner := q.owner
          planned := q.planned
          delivered := 0
          phase := if startsRefill q.kind q.planned 0 p.piston then .refill else .deliver
          run := if s.stopped then .stopped else s.freshRun c
          stopSeen := s.stopped
          atBoundary := none
          restarted := false } }

/-- A request for an activity, and whether it is taken or refused BUSY (R95, R102). Behind a standalone REFILL, also one that
STOP or a cut ends at its burst boundary, it takes the next place where that is empty. A prime that finds the machine stopped
is held (R108). -/
def State.askPump (s : State) (c : Circ) (q : PumpRequest) : State × Bool :=
  if q.kind = .purge ∧ (s.stopped ∨ ¬s.capClosed) then (s, false)
  else if q.kind = .prime ∧ s.stopped then (s.setPump c fun p => { p with heldPrime := true }, true)
  else
    match (s.pump c).activity with
    | none => (s.createActivity c q, true)
    | some a =>
      if a.kind = .refill ∧ (s.pump c).next = none then
        (s.setPump c fun p => { p with next := some q }, true)
      else (s, false)

/-- The prime of a circuit (R103). -/
def primeRequest : PumpRequest where
  kind := .prime
  owner := .table
  planned := Config.primeSteps

/-- The Circuit Table asks for a prime (R9, R103). What it does where that is refused BUSY is left open: it asks again at
RESTART alone, the model's choice, Assumption 75. -/
def State.askPrime (s : State) (c : Circ) : State := (s.askPump c primeRequest).1

/-- RESTART asks for a prime once the run that it has cut is over (R25, R110): a run still in its burst keeps the prime held
until its boundary, but a standalone REFILL has its next place (R95). Assumption 12. -/
def State.askPrimeAgain (s : State) (c : Circ) : State :=
  match (s.pump c).activity with
  | some a => if a.kind = .refill then s.askPrime c else s.setPump c fun p => { p with heldPrime := true }
  | none => s.askPrime c

/-! ### The end of a run (R99, R100) -/

inductive EndCause where
  | complete | cut (why : CutCause) | abandoned
  deriving DecidableEq, Repr

def modifyAt {α : Type} (f : α → α) : Nat → List α → List α
  | _, [] => []
  | 0, x :: xs => f x :: xs
  | n + 1, x :: xs => x :: modifyAt f n xs

/-- The entry of a tin changes. -/
def State.setEntry (s : State) (id k : Nat) (f : DoseEntry → DoseEntry) : State :=
  s.setTin id fun t => { t with entries := modifyAt f k t.entries }

/-- The run outcome of a dose: DELIVERED when delivered equals planned, CUT otherwise (R100). -/
def doseOutcome (a : Activity) : EndCause → RunOutcome
  | .cut why => if a.delivered = a.planned then .delivered else .cut why
  | _ => .delivered

/-- The end of a tin's dose is written into its entry, with its term of the expected mass and its notes
(R58, R100). -/
def State.doseEnded (s : State) (c : Circ) (id k : Nat) (a : Activity) (volume : Nat) (cause : EndCause) : State :=
  let out := doseOutcome a cause
  let rho := (s.circuit c).cfg.density
  let s1 := s.setEntry id k fun e =>
    { e with
      handing := .ended
      delivered := a.delivered
      deliveredVolume := volume
      run := some out
      mass := roundHalfUp (volume * rho) 1000 }
  let s2 := match out with
    | .cut .pumpFault | .cut .removed => s1.noteTin id .shortDose
    | _ => s1
  if a.stopSeen then s2.noteTin id .interrupted else s2

/-- A prime ends COMPLETE: the circuit moves to READY or EMPTY, and a stir comes due (R11, R208). -/
def State.primeEnded (s : State) (c : Circ) : State :=
  if (s.circuit c).state = .priming then
    let r := s.circuit c
    let s1 := if r.level ≤ r.cfg.reserve then s.enterEmpty c else s.moveCircuit c .ready
    if r.cfg.stir = .off then s1 else s1.stirComesDue c s1.now
  else s

/-- Pass the end of an activity on to its owner (R99). -/
def State.tellOwner (s : State) (c : Circ) (a : Activity) (volume : Nat) (cause : EndCause) : State :=
  match a.owner with
  | .tin id k =>
    let s1 := s.doseEnded c id k a volume cause
    if a.delivered = 0 then s1 else s1.clearIntervalDue c
  | .cal =>
    let s1 := { s with stn := { s.stn with
      cal := s.stn.cal.map fun q =>
        if q.circuit = c ∧ q.handing = .handed then { q with delivered := a.delivered, handing := .ended } else q } }
    if a.delivered = 0 then s1 else s1.clearIntervalDue c
  | .care => if cause = .complete then s.clearPurgeDue c else s
  | .table => if cause = .complete ∧ a.kind = .prime then s.primeEnded c else s

/-- The trim a run is reduced with: 0 for a calibration run (R15). -/
def Activity.reduceTrim (a : Activity) (r : Circuit) : Int := if a.owner = .cal then 0 else r.trim

/-- The report of a run that RESTART has cut leaves the last-delivery time at the moment of RESTART, which `before` has
from it (R217, Assumption 51). -/
def State.keepDelivery (s : State) (c : Circ) (a : Activity) (before : Circuit) : State :=
  if a.restarted then s.setCircuit c fun r => { r with lastDelivery := before.lastDelivery } else s

/-- The pump is IDLE; a request in the next place is created by R95 under the conditions of this moment. One that is not
taken then is dropped: a PURGE that finds the cap not closed stays due (R99, R102, Assumption 46). -/
def State.releaseNext (s : State) (c : Circ) : State :=
  match (s.pump c).next with
  | none => s
  | some q => ((s.setPump c fun p => { p with next := none }).askPump c q).1

/-- End the circuit's activity: the run end is reported to the Circuit Table and to the owner, except for a standalone
REFILL, and the next place is served (R99). -/
def State.endActivity (s : State) (c : Circ) (cause : EndCause) : State :=
  match (s.pump c).activity with
  | none => s
  | some a =>
    let s1 := (s.setPump c fun p => { p with activity := none }).forfeitSlots c
    let s2 :=
      if a.kind = .refill then s1
      else
        let t := a.reduceTrim (s.circuit c)
        let v := if a.delivered = 0 then 0 else stepsVolume a.delivered (s.circuit c).cfg.k t
        ((s1.reduceLevel c a.delivered t).keepDelivery c a (s.circuit c)).tellOwner c a v cause
    s2.releaseNext c

/-- The block whose request stood in the next place is refused BUSY (R105, R106). -/
def State.refuseNext (s : State) (c : Circ) : State :=
  match (s.pump c).next with
  | none => s
  | some q =>
    let s1 := s.setPump c fun p => { p with next := none }
    match q.owner with
    | .tin id k => s1.setEntry id k fun e => { e with handing := .again true }
    | .cal => { s1 with stn := { s1.stn with cal := s1.stn.cal.map fun r => { r with handing := .again true } } }
    | _ => s1

/-! ### Cuts (R104, R106, R107, R110) -/

/-- Cut the circuit's activity finally: at once, or at the boundary of a burst in flight. A cut that waits there takes the
place of whatever waited before: of a STOP, which then leaves stop seen as it is, and of an earlier cut with its cause:
Assumption 55. -/
def State.cutFinally (s : State) (c : Circ) (why : CutCause) : State :=
  match (s.pump c).activity, (s.pump c).burst with
  | some _, some _ => s.setActivity c fun a => { a with atBoundary := some (.cut why) }
  | some _, none => s.endActivity c (.cut why)
  | none, _ => s

/-- A forced removal reaches the pump: the next place is refused, a held prime is discarded, and the activity is cut
(R106). -/
def State.pumpRemoved (s : State) (c : Circ) : State :=
  ((s.refuseNext c).setPump c fun p => { p with heldPrime := false }).cutFinally c .removed

/-- RESTART reaches the pump: the next place is emptied without reply, a held prime is discarded, and the activity is
cut (R110). -/
def State.pumpRestart (s : State) (c : Circ) : State :=
  ((s.setPump c fun p => { p with next := none, heldPrime := false }).setActivity c fun a =>
    { a with restarted := true }).cutFinally c .restart

/-- The standalone REFILL that carries on the refill of an abandoned purge (R104, R107). No one is told of its end; that its
owner is put as the Circuit Table is the model's choice: Assumption 56. A stroke of an UNKNOWN piston that the purge had
begun goes on in it from where it stands: Assumption 60. -/
def carriedRefill (stopped : Bool) (run : RunState) : Activity where
  kind := .refill
  owner := .table
  planned := 0
  delivered := 0
  phase := .refill
  run := if stopped then .stopped else run
  stopSeen := stopped
  atBoundary := none
  restarted := false

/-- Abandon an activity that has no burst in flight; a purge in phase REFILL leaves a standalone REFILL in its place
(R104, R107). -/
def State.abandonNow (s : State) (c : Circ) : State :=
  match (s.pump c).activity with
  | none => s
  | some a =>
    let s1 := s.endActivity c .abandoned
    if a.kind = .purge ∧ a.phase = .refill then
      s1.setPump c fun p => { p with activity := some (carriedRefill s.stopped (s.freshRun c)) }
    else s1

/-- Abandon the circuit's purge or prime at its burst boundary; a final cut already due stands. -/
def State.abandon (s : State) (c : Circ) : State :=
  match (s.pump c).burst with
  | some _ => s.setActivity c fun a =>
      match a.atBoundary with
      | some (.cut w) => { a with atBoundary := some (.cut w) }
      | _ => { a with atBoundary := some .abandon }
  | none => s.abandonNow c

/-- The cap leaves closed: every purge is abandoned (R104). -/
def State.abandonPurges (s : State) : State :=
  forCircuits (fun c t =>
    match (t.pump c).activity with
    | some a => if a.kind = .purge then t.abandon c else t
    | none => t) s

/-- STOP reaches the pump (R107). -/
def State.pumpStop (s : State) (c : Circ) : State :=
  match (s.pump c).activity with
  | none => s
  | some a =>
    match a.kind with
    | .dose | .refill =>
      match (s.pump c).burst with
      | some _ => (s.setActivity c fun a =>
          { a with atBoundary := a.atBoundary.orElse fun _ => some .stop }).forfeitSlots c
      | none => (s.setActivity c fun a => { a with run := .stopped, stopSeen := true }).forfeitSlots c
    | .purge => s.abandon c
    | .prime => (s.setPump c fun p => { p with heldPrime := true }).abandon c

/-- The phase and run state of an activity that goes on at RESUME, judged again by R97 (R109). -/
def Activity.resumed (a : Activity) (piston : Piston) (run : RunState) : Activity :=
  { a with
    run := run
    phase := if startsRefill a.kind a.planned a.delivered piston then .refill else .deliver }

/-- A stopped activity goes on: RUNNING, or WAITING(STIR), and judged again by R97 (R109). One whose burst from before
STOP is still outstanding has not stopped yet: its pending stop is lifted, stop seen becomes yes, and it goes on as it is
(Assumption 47). A stroke to the refill stop of an UNKNOWN piston begins anew here: Assumption 60. -/
def State.resumeActivity (s : State) (c : Circ) : State :=
  match (s.pump c).activity with
  | none => s
  | some a =>
    if a.run = .stopped then
      if a.kind = .refill ∧ !startsRefill a.kind 0 0 (s.pump c).piston then s.endActivity c .complete
      else s.setPump c fun p =>
        { p with
          piston := p.piston.beginStroke
          activity := some (a.resumed p.piston (s.freshRun c)) }
    else if a.atBoundary = some .stop then
      s.setActivity c fun a => { a with atBoundary := none, stopSeen := true }
    else s

/-- The held prime follows the activity that is still in its burst: the prime that STOP abandons there (R26, R107), or a run
that RESTART cut (R110). Assumption 12. -/
def Activity.primeFollows (a : Activity) : Bool :=
  (a.kind == .prime && a.atBoundary == some .abandon) || a.atBoundary == some (.cut .restart)

/-- A prime that STOP abandoned or held is created from the start by R95, for a circuit still PRIMING (R109); one that follows
an activity still in its burst stays held until that has ended. -/
def State.resumePrime (s : State) (c : Circ) : State :=
  if (s.pump c).heldPrime then
    let t := s.setPump c fun p => { p with heldPrime := false }
    if (s.circuit c).state = .priming then
      if (s.pump c).activity.any Activity.primeFollows then s else t.askPrime c
    else t
  else s

/-- RESUME reaches the pump (R109). -/
def State.pumpResume (s : State) (c : Circ) : State := (s.resumeActivity c).resumePrime c

/-- A prime that is still held on a machine that is not stopped, because it follows an activity that was in its burst
(`Activity.primeFollows`), is created once the circuit's pump is free (Assumption 12). -/
def State.createHeldPrime (s : State) (c : Circ) : State :=
  if (s.pump c).heldPrime ∧ (s.pump c).activity = none ∧ (s.circuit c).state = .priming ∧ ¬s.stopped then s.askPrime c
  else s

/-- A prime's delivery phase runs while the cap is closed and waits otherwise; a burst in flight completes (R103). -/
def State.primeCap (s : State) (c : Circ) : State :=
  match (s.pump c).activity with
  | some a =>
    if a.kind = .prime ∧ a.phase = .deliver ∧ (s.pump c).burst = none then
      if a.run = .running ∧ ¬s.capClosed then s.setActivity c fun a => { a with run := .waitingCap }
      else if a.run = .waitingCap ∧ s.capClosed then s.setActivity c fun a => { a with run := .running }
      else s
    else s
  | none => s

def State.primesLook (s : State) : State := forCircuits (fun c t => (t.createHeldPrime c).primeCap c) s

/-- A prime of any circuit is in WAITING(CAP) (R120). -/
def State.primeWaits (s : State) : Bool :=
  allCircuits.any fun c => match (s.pump c).activity with
    | some a => a.run == .waitingCap
    | none => false

/-! ### Bursts (R93, R96, R98) -/

/-- The steps of the burst the activity would be granted now (R96). -/
def burstSteps (a : Activity) : Piston → Nat
  | .known p =>
    match a.phase with
    | .refill => min Config.refillBurst (Config.chamber - p)
    | .deliver => min Config.deliveryBurst (min (a.planned - a.delivered) p)
  | .unknown stroke => min Config.refillBurst (Config.chamber - stroke)

/-- Grant the circuit a burst of its activity's current phase. -/
def State.grant (s : State) (c : Circ) (a : Activity) : State :=
  s.setPump c fun p =>
    { p with burst := some ⟨a.phase == .refill, burstSteps a p.piston, s.now⟩ }

/-- The activity can be driven: RUNNING, with no burst outstanding (R93). -/
def Pump.drivable (p : Pump) : Option Activity :=
  match p.activity, p.burst with
  | some a, none => if a.run = .running then some a else none
  | _, _ => none

/-- Serve slot k of the frame (R90, R93). -/
def State.serveSlot (s : State) (k : Nat) : State :=
  match slotOwner s.drive.scheme k with
  | some c =>
    match (s.pump c).drivable with
    | some a => s.grant c a
    | none => s
  | none =>
    match s.drive.lent.find? (fun x => x.1 == k) with
    | some (_, c) =>
      match (s.pump c).drivable with
      | some a =>
        if a.kind = .dose ∧ a.phase = .deliver ∧ s.drive.forfeit[c] = false then s.grant c a else s
      | none => s
    | none => s

/-- The next slot of the frame comes up; after slot 31 none comes up until the next frame start. -/
def State.nextSlot (s : State) : State :=
  let k := s.drive.slot
  if k < 32 then
    State.serveSlot
      { s with now := max s.now (s.drive.frameStart + 625 * k), drive := { s.drive with slot := k + 1 } } k
  else s

/-- The piston after a refill of n steps; a full stroke leaves 25,600 (R96, R97). -/
def Piston.drawn (n : Nat) : Piston → Piston
  | .known p => .known (p + n)
  | .unknown stroke => if stroke + n ≥ Config.chamber then .known Config.chamber else .unknown (stroke + n)

/-- The piston after a delivery of n steps. -/
def Piston.pushed (n : Nat) : Piston → Piston
  | .known p => .known (p - n)
  | .unknown stroke => .unknown stroke

/-- The counts move at a burst's completion (R96). -/
def Pump.counted (p : Pump) (b : Burst) : Pump :=
  { p with
    burst := none
    piston := if b.refill then p.piston.drawn b.steps else p.piston.pushed b.steps
    activity := p.activity.map fun a => if b.refill then a else { a with delivered := a.delivered + b.steps } }

/-- The activity has reached its end: the planned count delivered, or for a REFILL a full chamber (R99). -/
def Activity.finished (a : Activity) (piston : Piston) : Bool :=
  match a.kind with
  | .refill => piston == .known Config.chamber
  | _ => a.phase == .deliver && a.delivered == a.planned

/-- The phase after a burst: an emptied piston with steps left refills, a full chamber delivers (R97, R98). -/
def Activity.nextPhase (a : Activity) (piston : Piston) : Phase :=
  match a.phase with
  | .deliver => if piston = .known 0 then .refill else .deliver
  | .refill => if piston = .known Config.chamber ∧ a.kind ≠ .refill then .deliver else .refill

/-- An activity that goes on after a burst takes its next phase; a dose that enters REFILL loses its lent slots. -/
def State.advancePhase (s : State) (c : Circ) : State :=
  match (s.pump c).activity with
  | none => s
  | some a =>
    let ph := a.nextPhase (s.pump c).piston
    let s1 := s.setActivity c fun a => { a with phase := ph }
    if ph = .refill then s1.forfeitSlots c else s1

/-- What waited for the burst boundary comes about: a final cut, an end, an abandonment or a stop (R104 to R110). An
activity that is finished there ends COMPLETE and is not stopped, so its stop seen stays as it is: Assumptions 19 and 55. -/
def State.atBoundary (s : State) (c : Circ) : State :=
  match (s.pump c).activity with
  | none => s
  | some a =>
    match a.atBoundary with
    | some (.cut why) => s.endActivity c (.cut why)
    | none => if a.finished (s.pump c).piston then s.endActivity c .complete else s.advancePhase c
    | some .abandon =>
      if a.finished (s.pump c).piston then
        (s.setPump c fun p => { p with heldPrime := false }).endActivity c .complete
      else ((s.advancePhase c).setActivity c fun a => { a with atBoundary := none }).abandonNow c
    | some .stop =>
      if a.finished (s.pump c).piston then s.endActivity c .complete
      else (s.advancePhase c).setActivity c fun a =>
        { a with run := .stopped, stopSeen := true, atBoundary := none }

/-- The pump driver reports a burst complete; a report with no burst outstanding is discarded (R96, R105). -/
def State.burstComplete (s : State) (c : Circ) : State :=
  match (s.pump c).burst with
  | none => s
  | some b => (s.setPump c fun p => p.counted b).atBoundary c

/-- A burst is taken as stalled: nothing is counted, the piston is UNKNOWN, the next place is refused, the circuit is
told of the fault, and the activity is cut (R105). The cause is PUMP_FAULT also where a final cut waits for the boundary,
for which R106 and R110 go on with the cause REMOVED or RESTART: the model's choice, Assumption 55. -/
def State.burstStall (s : State) (c : Circ) : State :=
  match (s.pump c).burst with
  | none => s
  | some _ =>
    let s1 := (s.setPump c fun p =>
      { p with burst := none, piston := .unknown 0, heldPrime := false }).refuseNext c
    (s1.pumpFault c).endActivity c (.cut .pumpFault)

/-- 60 ms have passed since the grant: the burst is taken as stalled (R105). -/
def State.burstTimeout (s : State) (c : Circ) : State :=
  match (s.pump c).burst with
  | none => s
  | some b => (s.reach (b.granted + 60 * Config.ms)).burstStall c

end Sys2Proof.Machine
end

