-- ==== Sys2Proof/Machine/TagBus.lean ====
section
/-! DEFINITION. The Tag Bus controller: the tag record, the job queue, transactions and their phase results, and what
the Circuit Table makes of a job's end (chapter 9; R9, R10, R13). -/

namespace Sys2Proof.Machine

/-! ### The tag record (R189, R190, R193) -/

def byteSum (bs : List (BitVec 8)) : Nat := (bs.map BitVec.toNat).sum

/-- A two-byte field, high byte first. -/
def twoBytes (n : Nat) : List (BitVec 8) := [BitVec.ofNat 8 (n / 256), BitVec.ofNat 8 n]

/-- A text field, padded on the right with spaces. -/
def padded (t : Text) (n : Nat) : Text := (t ++ List.replicate n 0x20#8).take n

/-- The 32 bytes of a record; the check byte makes their sum 0 modulo 256. -/
def TagImage.bytes (g : TagImage) : List (BitVec 8) :=
  let body := [0x02#8] ++ padded g.code 4 ++ padded g.lot 8 ++ twoBytes g.fill ++ twoBytes g.remaining
    ++ twoBytes g.day ++ twoBytes g.writes ++ List.replicate 10 0x00#8
  body ++ [BitVec.ofNat 8 (256 - byteSum body % 256)]

/-- The record is valid: its sum is 0 modulo 256 and its format byte is 0x02 (R190). -/
def recordValid (bs : List (BitVec 8)) : Bool := byteSum bs % 256 == 0 && bs.head? == some 0x02#8

def byteAt (bs : List (BitVec 8)) (k : Nat) : Nat := (bs.getD k 0).toNat

def wordAt (bs : List (BitVec 8)) (k : Nat) : Nat := 256 * byteAt bs k + byteAt bs (k + 1)

/-- A text without its trailing spaces. -/
def trimmed (t : Text) : Text := (t.reverse.dropWhile (· == 0x20#8)).reverse

/-- The fields of a record. -/
def TagImage.ofBytes (bs : List (BitVec 8)) : TagImage where
  code := trimmed ((bs.drop 1).take 4)
  lot := (bs.drop 5).take 8
  fill := wordAt bs 13
  remaining := wordAt bs 15
  day := wordAt bs 17
  writes := wordAt bs 19

/-- The record a WRITE writes, from the circuit's image and the job's remaining volume (R193). -/
def TagImage.written (g : TagImage) (remaining : Nat) : TagImage :=
  { g with remaining := remaining, writes := min 65535 (g.writes + 1) }

/-- The image a WRITE builds on; it is present whenever a WRITE becomes active (R193). -/
def TagImage.blank : TagImage where
  code := []
  lot := []
  fill := 0
  remaining := 0
  day := 0
  writes := 0

/-! ### The job queue (R199, R202) -/

def JobKind.same : JobKind → JobKind → Bool
  | .read, .read => true
  | .write _, .write _ => true
  | _, _ => false

def TagJob.like (a b : TagJob) : Bool := a.circuit == b.circuit && a.kind.same b.kind

/-- The places in use: the active job and the jobs behind it. -/
def TagBus.inUse (t : TagBus) : Nat := t.queue.length + (if t.active.isSome then 1 else 0)

/-- Backlog jobs fill the free places, in their order. -/
def TagBus.fill (t : TagBus) : TagBus :=
  let room := Config.tagPlaces - t.inUse
  { t with queue := t.queue ++ t.backlog.take room, backlog := t.backlog.drop room }

/-- An ask merges with a like job that is not active, joins the queue, or joins the backlog (R199). -/
def TagBus.ask (t : TagBus) (j : TagJob) : TagBus :=
  if (t.queue ++ t.backlog).any (·.like j) then
    { t with
      queue := t.queue.map fun x => if x.like j then j else x
      backlog := t.backlog.map fun x => if x.like j then j else x }
  else if t.inUse < Config.tagPlaces then { t with queue := t.queue ++ [j] }
  else { t with backlog := t.backlog ++ [j] }

def State.askTag (s : State) (c : Circ) (k : JobKind) : State := { s with tag := s.tag.ask ⟨c, k⟩ }

/-- The active job leaves the queue, and the head of the backlog joins it (R199). -/
def TagBus.drop (t : TagBus) : TagBus := TagBus.fill { t with active := none }

/-- Abandon the active job: at once where it waits or stands between polls, else at the end of the byte in progress
(R202, R204). In a phase without a byte, a start, a repeated start or the stop, it is at the end of that phase: Assumption
72. -/
def TagBus.abandonActive (t : TagBus) : TagBus :=
  match t.active with
  | none => t
  | some a =>
    match a.step with
    | .phase _ => { t with active := some { a with abandoned := true } }
    | _ => t.drop

/-- A forced removal abandons the circuit's jobs (R202). -/
def TagBus.abandonJobs (t : TagBus) (c : Circ) : TagBus :=
  let t1 := TagBus.fill { t with
    queue := t.queue.filter fun j => j.circuit != c
    backlog := t.backlog.filter fun j => j.circuit != c }
  match t1.active with
  | some a => if a.job.circuit = c then t1.abandonActive else t1
  | none => t1

/-! ### What the Circuit Table makes of a job's end -/

/-- The lot becomes the tag facts, and the level is taken as the check kind says (R9). -/
def Circuit.tagAccepted (r : Circuit) (g : TagImage) : Circuit :=
  match r.checkKind with
  | .insertion =>
    { r with lot := some g.lot, reason := none, lowArmed := true, level := min (g.remaining * 100) r.cfg.maxLevel }
  | .powerOn => { r with lot := some g.lot, reason := none }

/-- A READ job ended successfully (R9). -/
def State.readSucceeded (s : State) (c : Circ) (g : TagImage) : State :=
  let r := s.circuit c
  if r.state = .checking then
    if r.cfg.code = some g.code then
      let s1 := s.setCircuit c fun r => r.tagAccepted g
      let s2 := if r.checkKind = .insertion then s1.markDirty c else s1
      ((s2.lowEvaluate c).moveCircuit c .priming).askPrime c
    else s.block c .wrongColourant
  else s

/-- A READ job failed (R10). -/
def State.readFailed (s : State) (c : Circ) (f : TagFailure) : State :=
  if (s.circuit c).state = .checking then
    s.block c (match f with
      | .tagInvalid => .tagInvalid
      | .tagAbsent => .tagAbsent
      | _ => .levelLost)
  else s

def TagFailure.name : TagFailure → String
  | .tagInvalid => "TAG_INVALID" | .tagAbsent => "TAG_ABSENT" | .writeTimeout => "TAG_WRITE_TIMEOUT"
  | .lineContended => "LINE_CONTENDED" | .busFault => "BUS_FAULT"

/-- A release ends: the circuit moves to SERVICE and the latch opens (R13). -/
def State.releaseEnds (s : State) (c : Circ) : State :=
  (s.moveCircuit c .service).setCircuit c fun r => { r with latchOpen := true }

/-- A WRITE job ended, with its failure if it failed (R13). -/
def State.writeEnded (s : State) (c : Circ) (f : Option TagFailure) : State :=
  let s1 := if (s.circuit c).state = .releasing then s.releaseEnds c else s
  match f with
  | some f => s1.setFlag (.tagFault c) [.num "circuit" (circNo c), .word "result" f.name]
  | none => s1

/-! ### The end of a job (R201) -/

def State.setLast (s : State) (c : Circ) (r : LastResult) : State :=
  { s with tag := { s.tag with last := updAt s.tag.last c fun _ => r } }

def State.setImage (s : State) (c : Circ) (g : TagImage) : State :=
  { s with tag := { s.tag with images := updAt s.tag.images c fun _ => some g } }

/-- The active job leaves the queue after its report. -/
def State.dropJob (s : State) : State := { s with tag := s.tag.drop }

/-- The active job ends in a failure, which is reported (R201). -/
def State.failJob (s : State) (a : ActiveJob) (f : TagFailure) : State :=
  let c := a.job.circuit
  match a.job.kind with
  | .read => ((s.setLast c (.read f)).readFailed c f).dropJob
  | .write _ => ((s.setLast c (.write f)).writeEnded c (some f)).dropJob

/-- A READ ends with its 32 bytes, judged once the stop has been sent (R191, R192). -/
def State.judgeRead (s : State) (a : ActiveJob) : State :=
  let c := a.job.circuit
  if recordValid a.buffer then
    let g := TagImage.ofBytes a.buffer
    (((s.setImage c g).setLast c .readOk).readSucceeded c g).dropJob
  else s.failJob a .tagInvalid

/-- A WRITE ends in success after page 4; its image is the record written (R193, R194). -/
def State.writeDone (s : State) (a : ActiveJob) : State :=
  let c := a.job.circuit
  (((s.setImage c (TagImage.ofBytes a.record)).setLast c .writeOk).writeEnded c none).dropJob

/-! ### What the controller sends (R185, R191, R194) -/

/-- The address byte of a circuit's tag: its upper seven bits are the address, 0x20 plus the circuit number, and its lowest
bit the direction, 1 for reading (R185). -/
def addressByte (c : Circ) (reading : Bool) : BitVec 8 :=
  BitVec.ofNat 8 (2 * (0x20 + circNo c) + if reading then 1 else 0)

/-- The first tag byte of a transaction: 0 for a read, and 0, 8, 16 or 24 for pages 1 to 4 of a write. -/
def JobPoint.firstByte : JobPoint → Nat
  | .read => 0
  | .page n => 8 * n
  | .poll n => 8 * n

/-- What a phase of the job's transaction puts on the lines. Of the 32 bytes read, the last is not acknowledged (R191). -/
def ActiveJob.drives (a : ActiveJob) : BusPhase → BusDrive
  | .start => .start
  | .address => .send (addressByte a.job.circuit false)
  | .pointer => .send (BitVec.ofNat 8 a.point.firstByte)
  | .write i => .send (a.record.getD (a.point.firstByte + i) 0)
  | .restart => .repeatedStart
  | .readAddress => .send (addressByte a.job.circuit true)
  | .read i => .answer (i < 31)
  | .stop => .stop

/-- What the controller puts on the tag lines now; a job that waits for the bus, or stands between polls, drives nothing. -/
def State.tagDrives (s : State) : Option BusDrive :=
  if s.tag.stopping then some .stop
  else s.tag.active.bind fun a => match a.step with
    | .phase p => some (a.drives p)
    | _ => none

/-! ### Phases (R186 to R198) -/

def State.setBus (s : State) (b : BusState) : State := { s with tag := { s.tag with bus := b } }

def State.setActiveJob (s : State) (a : ActiveJob) : State := { s with tag := { s.tag with active := some a } }

/-- The active job goes on to a phase. -/
def State.goPhase (s : State) (a : ActiveJob) (p : BusPhase) : State := s.setActiveJob { a with step := .phase p }

/-- The active job waits for the bus from now on (R196). -/
def State.waitBus (s : State) (a : ActiveJob) : State := s.setActiveJob { a with step := .wait s.now }

/-- The controller sends a stop that no phase of the job waits for; nothing but its end is taken of it: Assumption 66. -/
def State.sendStop (s : State) : State := { s with tag := { s.tag with stopping := true } }

/-- A loss: the job fails at a count of 3, else waits for the bus (R197). -/
def State.countLoss (s : State) (a : ActiveJob) : State :=
  if a.losses + 1 ≥ 3 then s.failJob { a with losses := a.losses + 1 } .lineContended
  else s.waitBus { a with losses := a.losses + 1 }

/-- A fault: the job fails at a count of 2, else waits for the bus (R198). -/
def State.countFault (s : State) (a : ActiveJob) : State :=
  if a.faults + 1 ≥ 2 then s.failJob { a with faults := a.faults + 1 } .busFault
  else s.waitBus { a with faults := a.faults + 1 }

/-- An abandoned job ends unreported at a byte boundary, and a stop is sent (R202). -/
def State.endAbandoned (s : State) : State := s.dropJob.sendStop

/-- A start condition is seen: the bus becomes BUSY, and a job that has not sent its start waits (R186), or ends
where it is abandoned (R202), with no stop: Assumption 72. -/
def State.startSeen (s : State) : State :=
  let s1 := if s.tag.bus = .free then s.setBus .busy else s
  match s1.tag.active with
  | some a =>
    if a.step = .phase .start then (if a.abandoned then s1.dropJob else s1.waitBus a) else s1
  | none => s1

/-- A stop condition is seen: a BUSY bus becomes FREE (R186). -/
def State.stopSeenOnBus (s : State) : State := if s.tag.bus = .busy then s.setBus .free else s

/-- Both lines have stood high for 100 µs (R186). -/
def State.linesHigh (s : State) : State := if s.tag.bus = .settling then s.setBus .free else s

/-- The job in a phase of a transaction. -/
def State.inPhase (s : State) : Option (ActiveJob × BusPhase) :=
  match s.tag.active with
  | some a =>
    match a.step with
    | .phase p => some (a, p)
    | _ => none
  | none => none

/-- The bus is the controller's own. -/
def State.busTaken (s : State) : State := if s.tag.bus = .free then s.setBus .busy else s

/-- A start or repeated start ends TAKEN (R188). An abandoned job in such a phase, where no byte is in progress, completes it,
and then sends its stop and ends (R202, R204): the model's choice, Assumption 72. -/
def State.startTaken (s : State) : State :=
  match s.inPhase with
  | some (a, .start) => if a.abandoned then s.busTaken.endAbandoned else s.busTaken.goPhase a .address
  | some (a, .restart) => if a.abandoned then s.endAbandoned else s.goPhase a .readAddress
  | _ => s

/-- A poll is acknowledged: the page is stored, and the job goes on to the next page or ends in success (R194). -/
def State.pageStored (s : State) (a : ActiveJob) (n : Nat) : State :=
  if n < 3 then (s.waitBus { a with point := .page (n + 1) }).sendStop else (s.writeDone a).sendStop

/-- An address byte or a poll is acknowledged (R188). -/
def State.addressAcked (s : State) : State :=
  match s.inPhase with
  | some (a, .address) =>
    if a.abandoned then s.endAbandoned
    else match a.point with
      | .poll n => s.pageStored a n
      | _ => s.goPhase a .pointer
  | some (a, .readAddress) => if a.abandoned then s.endAbandoned else s.goPhase { a with buffer := [] } (.read 0)
  | _ => s

/-- An address byte is not acknowledged: a stop is sent, and the job fails TAG_ABSENT, polls again or counts a fault
(R192, R194, R195). -/
def State.addressNaked (s : State) : State :=
  match s.inPhase with
  | some (a, .address) =>
    if a.abandoned then s.endAbandoned
    else match a.point with
      | .read => (s.failJob a .tagAbsent).sendStop
      | .page 0 => (s.failJob a .tagAbsent).sendStop
      | .page _ => (s.countFault a).sendStop
      | .poll _ => s.goPhase a .stop
  | some (a, .readAddress) => if a.abandoned then s.endAbandoned else (s.failJob a .tagAbsent).sendStop
  | _ => s

/-- A byte written is acknowledged, or a byte is read in full (R191, R194). -/
def State.byteAcked (s : State) (data : BitVec 8) : State :=
  match s.inPhase with
  | some (a, .pointer) =>
    if a.abandoned then s.endAbandoned
    else if a.point = .read then s.goPhase a .restart else s.goPhase a (.write 0)
  | some (a, .write i) =>
    if a.abandoned then s.endAbandoned else s.goPhase a (if i < 7 then .write (i + 1) else .stop)
  | some (a, .read i) =>
    if a.abandoned then s.endAbandoned
    else s.goPhase { a with buffer := a.buffer ++ [data] } (if i < 31 then .read (i + 1) else .stop)
  | _ => s

/-- The tag refuses a written byte: a stop is sent and a fault is counted (R198). -/
def State.byteNaked (s : State) : State :=
  match s.inPhase with
  | some (a, .pointer) => if a.abandoned then s.endAbandoned else (s.countFault a).sendStop
  | some (a, .write _) => if a.abandoned then s.endAbandoned else (s.countFault a).sendStop
  | _ => s

/-- Arbitration is lost: the controller stops driving, the bus is the other master's, and a loss is counted
(R187, R197). In a stop that no phase of the active job waits for it changes nothing, the model's choice: Assumption 66. -/
def State.arbitrationLost (s : State) : State :=
  match s.inPhase with
  | some (a, _) => if a.abandoned then s.busTaken.dropJob else s.busTaken.countLoss a
  | none => s

/-- A start or stop appears inside a byte of the controller's transaction: it stops driving, the bus is BUSY until the
lines stand high, and a fault is counted (R188, R198). In a stop that no phase of the active job waits for it changes
nothing, and the part goes on to its STOP_SENT, the model's choice: Assumption 66. -/
def State.lineBroken (s : State) : State :=
  match s.inPhase with
  | some (_, .start) => s
  | some (a, _) =>
    let s1 := s.setBus .settling
    if a.abandoned then s1.dropJob else s1.countFault a
  | none => s

/-- The controller's stop makes a BUSY bus FREE. -/
def State.busReleased (s : State) : State :=
  let s1 := s.stopSeenOnBus
  { s1 with tag := { s1.tag with stopping := false } }

/-- The controller's stop phase ends: a read is judged, a page's polling begins, or a refused poll is over
(R191, R194). -/
def State.stopEnded (s : State) : State :=
  let s1 := s.busReleased
  if s.tag.stopping then s1
  else
    match s.inPhase with
    | some (a, .stop) =>
      if a.abandoned then s1.dropJob
      else match a.point with
        | .read => s1.judgeRead a
        | .page n => s1.waitBus { a with point := .poll n, pollLimit := s.now + 10 * Config.ms }
        | .poll _ => s1.setActiveJob { a with step := .gap }
    | _ => s1

/-- 200 µs after a refused poll the next poll begins (R194). -/
def State.pollDue (s : State) : State :=
  match s.tag.active with
  | some a => if a.step = .gap then s.waitBus a else s
  | none => s

/-- The 10 ms of a page's polling run out: the write job fails (R194). A poll that is on the lines then is ended by a stop
at once, and one still in its start phase by none: Assumption 64. They no longer run for an abandoned job: Assumption 72. -/
def State.pollTimeout (s : State) : State :=
  match s.tag.active with
  | some a =>
    match a.point with
    | .poll _ =>
      if a.abandoned then s
      else
        let s1 := (s.reach a.pollLimit).failJob a .writeTimeout
        match a.step with
        | .phase .start => s1
        | .phase _ => s1.sendStop
        | _ => s1
    | _ => s
  | none => s

/-- 50 ms of unbroken waiting for a FREE bus count as a loss (R196, R197). -/
def State.busWaited (s : State) : State :=
  match s.tag.active with
  | some a =>
    match a.step with
    | .wait since => if s.tag.bus = .free then s else (s.reach (since + 50 * Config.ms)).countLoss a
    | _ => s
  | none => s

/-! ### The next job and the next transaction (R200) -/

/-- A job that becomes active; a WRITE builds its record now (R193, R200). -/
def State.activated (s : State) (j : TagJob) : ActiveJob where
  job := j
  point := match j.kind with
    | .read => .read
    | .write _ => .page 0
  step := .wait s.now
  losses := 0
  faults := 0
  record := match j.kind with
    | .read => []
    | .write rem => ((s.tag.images[j.circuit].getD TagImage.blank).written rem).bytes
  buffer := []
  pollLimit := 0
  abandoned := false

/-- The head of the queue becomes active where no job is, and a waiting job begins its transaction on a FREE bus
(R196, R200). -/
def State.tagBegin (s : State) : State :=
  let s1 := match s.tag.active, s.tag.queue with
    | none, j :: rest => { s with tag := { s.tag with active := some (s.activated j), queue := rest } }
    | _, _ => s
  match s1.tag.active with
  | some a =>
    match a.step with
    | .wait _ => if s1.tag.bus = .free ∧ s1.tag.stopping = false then s1.goPhase a .start else s1
    | _ => s1
  | none => s1

end Sys2Proof.Machine
end

