-- ==== Sys2Proof/Machine/Circuits.lean ====
section
/-! DEFINITION. The Circuit Table: CSET, TRIM, CANOUT and CREAD, bay events, twins, and the circuits at power-on and
RESTART (chapter 1). -/

namespace Sys2Proof.Machine

/-! ### Bay events (R4 to R8) -/

/-- The bay switch is closed. -/
def State.bayClosed (s : State) (c : Circ) : Bool := s.inp.bays[c]

/-- An insertion taken in SERVICE (R6). -/
def State.insertion (s : State) (c : Circ) : State :=
  ((s.moveCircuit c .checking).setCircuit c fun r => { r with latchOpen := false, checkKind := .insertion }).askTag c
    .read

/-- A forced removal (R8). -/
def State.forcedRemoval (s : State) (c : Circ) : State :=
  let s1 := s.pumpRemoved c
  let s2 := { s1 with tag := s1.tag.abandonJobs c }
  ((s2.moveCircuit c .service).setCircuit c fun r => { r with reason := some .levelLost, lot := none }).flagBlocked c
    .levelLost

/-- A bay event is taken: an insertion where the switch is closed, else a removal (R4, R6, R7, R8). An insertion in a
state other than SERVICE only moves the baseline. -/
def State.bayEvent (s : State) (c : Circ) : State :=
  let closed := s.bayClosed c
  let s1 := s.setCircuit c fun r => { r with baseline := closed }
  match (s.circuit c).state with
  | .unfitted => s1
  | .service => if closed then s1.insertion c else s1.setCircuit c fun r => { r with lot := none }
  | _ => if closed then s1 else s1.forcedRemoval c

/-- Compare the switch with the baseline and take the difference as a bay event (R4). -/
def State.bayCompare (s : State) (c : Circ) : State :=
  if s.bayClosed c = (s.circuit c).baseline then s else s.bayEvent c

/-- A bay switch changes (R4). -/
def State.bayChanged (s : State) (c : Circ) : State :=
  let r := s.circuit c
  if r.state = .unfitted then s.setCircuit c fun r => { r with baseline := s.bayClosed c }
  else if r.cfg.watch then s.bayCompare c
  else s

/-! ### CSET (R1, R2, R3) -/

def stirTable : List (String × StirClass) :=
  [("OFF", .off), ("Q15", .q15), ("H1", .h1), ("H4", .h4), ("DAILY", .daily)]

def policyTable : List (String × Policy) := [("HOLD", .hold), ("TWIN", .twin), ("SKIP", .skip)]

def onOffTable : List (String × Bool) := [("ON", true), ("OFF", false)]

/-- A colourant code: up to 4 characters; NONE removes the code (R1). -/
def colourant? (t : Text) : Option (Option Text) :=
  if t = txt "NONE" then some none
  else if t.length ≤ 4 then some (some t)
  else none

def csetKeys : List String :=
  ["circuit", "code", "k", "nmin", "density", "capacity", "low", "reserve", "purgeint", "purgesteps", "stir",
   "stirdur", "twin", "policy", "watch"]

def csetNumbers : List String :=
  ["circuit", "k", "nmin", "density", "capacity", "low", "reserve", "purgeint", "purgesteps", "stirdur", "twin"]

/-- A field is absent, or lies within lo … hi. -/
def fieldWithin (fs : Fields) (key : String) (lo hi : Nat) : Bool :=
  match fs.num key with
  | none => true
  | some n => within lo hi n

/-- A value of a CSET lies outside its own range. -/
def csetOutside (fs : Fields) : Bool :=
  !fieldWithin fs "k" 1000 16000 || !fieldWithin fs "nmin" 1 64 || !fieldWithin fs "density" 800 2500
    || !fieldWithin fs "capacity" 500 5000 || !fieldWithin fs "purgesteps" 1 3200 || !fieldWithin fs "stirdur" 5 60
    || !fieldWithin fs "twin" 0 24
    || (fs.num "purgeint").any (fun n => n != 0 && !within 10 240 n)
    || fs.unreadable "code" colourant? || fs.unreadable "stir" (named? stirTable)
    || fs.unreadable "policy" (named? policyTable) || fs.unreadable "watch" (named? onOffTable)

/-- The named value of a field, or the present one. -/
def named (fs : Fields) {α : Type} (key : String) (read : Text → Option α) (d : α) : α :=
  ((fs.get key).bind read).getD d

/-- The settings after a CSET, but for the minimum dose and the twin. -/
def Settings.overlay (g : Settings) (fs : Fields) : Settings :=
  { g with
    code := named fs "code" colourant? g.code
    k := fs.numD "k" g.k
    density := fs.numD "density" g.density
    capacity := fs.numD "capacity" g.capacity
    low := fs.numD "low" g.low
    reserve := fs.numD "reserve" g.reserve
    purgeInt := fs.numD "purgeint" g.purgeInt
    purgeSteps := fs.numD "purgesteps" g.purgeSteps
    stir := named fs "stir" (named? stirTable) g.stir
    stirDur := fs.numD "stirdur" g.stirDur
    policy := named fs "policy" (named? policyTable) g.policy
    watch := named fs "watch" (named? onOffTable) g.watch }

/-- The record with the request's settings in it, a new minimum dose staged (R21). -/
def Circuit.csetApplied (r : Circuit) (fs : Fields) : Circuit :=
  let r1 := { r with cfg := r.cfg.overlay fs }
  match fs.num "nmin" with
  | some n => r1.stageNmin n
  | none => r1

/-- The settings are consistent with each other (R1). -/
def Circuit.consistent (r : Circuit) : Bool :=
  r.cfg.low ≤ r.cfg.maxLevel && r.cfg.reserve ≤ r.cfg.maxLevel
    && max r.nmin (r.pendingNmin.getD 0) ≤ r.cfg.purgeSteps

/-- The configured circuits that hold a colourant code, in ascending order. -/
def State.holders (s : State) (code : Text) : List Circ :=
  allCircuits.filter fun c => (s.circuit c).cfg.code == some code

/-- The twin a CSET names: not named, none, or a circuit. -/
inductive TwinAsk where
  | unnamed | nothing | circuit (n : Circ)
  deriving DecidableEq, Repr

def twinAsk (fs : Fields) : TwinAsk :=
  match fs.num "twin" with
  | none => .unnamed
  | some n =>
    match circ? n with
    | some c => .circuit c
    | none => .nothing

/-- What a CSET makes of the twins: the old pair dissolves, and a new one forms with a circuit. -/
structure TwinChange where
  dissolve : Bool
  pair : Option Circ
  deriving DecidableEq, Repr

/-- The twin rules for a request that gives circuit c a code it does not hold (R2). A code that two circuits hold, left
untwinned by twin=0, takes no third holder: Assumption 42. -/
def State.twinForNewCode (s : State) (c : Circ) (code : Option Text) (ask : TwinAsk) : Option TwinChange :=
  let dissolve := (s.circuit c).cfg.twin.isSome
  match code with
  | none =>
    match ask with
    | .circuit _ => none
    | _ => some ⟨dissolve, none⟩
  | some x =>
    match (s.holders x).filter (· != c), ask with
    | [], .circuit _ => none
    | [], _ => some ⟨dissolve, none⟩
    | held, .circuit n =>
      if held.contains n ∧ (s.circuit n).cfg.twin = none ∧ held.length = 1 then some ⟨dissolve, some n⟩ else none
    | _, _ => none

/-- The twin rules for a request that leaves the code of circuit c as it is (R2). -/
def State.twinForSameCode (s : State) (c : Circ) (ask : TwinAsk) : Option TwinChange :=
  let g := (s.circuit c).cfg
  match ask with
  | .unnamed => some ⟨false, none⟩
  | .nothing => some ⟨g.twin.isSome, none⟩
  | .circuit n =>
    if g.twin = some n then some ⟨false, none⟩
    else if n ≠ c ∧ g.twin = none ∧ (s.circuit n).cfg.twin = none ∧ g.code.isSome ∧ (s.circuit n).cfg.code = g.code then
      some ⟨false, some n⟩
    else none

/-- The change a CSET makes to the twins; `none` is a MISMATCH. -/
def State.twinChange (s : State) (c : Circ) (fs : Fields) : Option TwinChange :=
  let g := (s.circuit c).cfg
  let code := (g.overlay fs).code
  if code = g.code then s.twinForSameCode c (twinAsk fs) else s.twinForNewCode c code (twinAsk fs)

/-- The circuits other than c whose records the twin change writes. -/
def TwinChange.partners (t : TwinChange) (g : Settings) : List Circ :=
  (if t.dissolve then g.twin.toList else []) ++ t.pair.toList

/-- The records of a dissolved and a formed pair. -/
def State.changeTwins (s : State) (c : Circ) (t : TwinChange) : State :=
  let s1 := if t.dissolve then
      match (s.circuit c).cfg.twin with
      | some d => (s.setCircuit d fun r => { r with cfg := { r.cfg with twin := none } }).setCircuit c fun r =>
          { r with cfg := { r.cfg with twin := none } }
      | none => s
    else s
  match t.pair with
  | some n => (s1.setCircuit n fun r => { r with cfg := { r.cfg with twin := some c } }).setCircuit c fun r =>
      { r with cfg := { r.cfg with twin := some n } }
  | none => s1

/-- The level is brought to the capacity, and marked dirty, where it lies above it (R1). -/
def State.clampLevel (s : State) (c : Circ) : State :=
  let r := s.circuit c
  if r.cfg.maxLevel < r.level then (s.setCircuit c fun r => { r with level := r.cfg.maxLevel }).markDirty c else s

/-- A code comes to an UNFITTED circuit, or leaves a circuit in SERVICE (R3). -/
def State.codeMoves (s : State) (c : Circ) : State :=
  let r := s.circuit c
  if r.state = .unfitted ∧ r.cfg.code.isSome then
    ((s.moveCircuit c .service).setCircuit c fun r =>
      { r with latchOpen := true, baseline := false, level := 0 }).markDirty c
  else if r.state ≠ .unfitted ∧ r.cfg.code = none then
    ((s.moveCircuit c .unfitted).setCircuit c fun r =>
      { r with
        latchOpen := false
        baseline := s.bayClosed c
        level := 0
        lot := none
        reason := none }).markDirty c
  else s

/-- A changed K, density or code reaches the calibration run and the calibration result (R61, R62). -/
def State.calibrationChanged (s : State) (c : Circ) (old new : Settings) : State :=
  let measure := old.k != new.k || old.density != new.density
  { s with
    calResult := s.calResult.filter fun q =>
      !(q.circuit == c && (measure || (old.code.isSome && new.code.isNone)))
    stn := { s.stn with
      cal := s.stn.cal.map fun q => if q.circuit = c ∧ measure then { q with changed := true } else q } }

/-- A purge interval is set: a purge due with cause INTERVAL stays due only where the time since the last delivery has
reached the new interval, and the purge test is made again (R212). -/
def State.purgeIntervalSet (s : State) (c : Circ) : State :=
  let r := s.circuit c
  if r.purgeDue = some .interval ∧ (r.cfg.purgeInt = 0 ∨ s.now < r.purgeMoment) then s.clearPurgeDue c
  else s.purgeTest c

/-- The changes an accepted CSET makes to circuit c and its twins (R1 to R4, R208, R212). -/
def State.csetEffect (s : State) (c : Circ) (fs : Fields) (t : TwinChange) : State :=
  let old := s.circuit c
  let s1 := (s.setCircuit c fun r => r.csetApplied fs).changeTwins c t
  let s2 := (t.partners old.cfg).foldl (fun u d => u.linkWrite (.circuit d (u.circuit d).cfg))
    (s1.linkWrite (.circuit c (s1.circuit c).cfg))
  let s3 := (s2.clampLevel c).codeMoves c
  let s4 := if fs.has "low" then s3.lowEvaluate c else s3
  let s5 := if fs.has "reserve" then s4.emptyCheckReserve c else s4
  let s6 := s5.calibrationChanged c old.cfg (s5.circuit c).cfg
  let s7 := if fs.has "purgeint" then s6.purgeIntervalSet c else s6
  let s8 := if old.cfg.stir != .off && (s7.circuit c).cfg.stir == .off then s7.dropDue c else s7
  let r := s8.circuit c
  if r.state ≠ .unfitted ∧ r.cfg.watch ∧ (old.state = .unfitted ∨ ¬old.cfg.watch) then s8.bayCompare c else s8

/-- A code or capacity change outside UNFITTED and SERVICE, or a K change under a binding or a pump activity (R1). -/
def State.csetHindered (s : State) (c : Circ) (fs : Fields) : Bool :=
  let r := s.circuit c
  let g := r.cfg.overlay fs
  ((g.code != r.cfg.code || g.capacity != r.cfg.capacity) && r.state != .unfitted && r.state != .service)
    || (g.k != r.cfg.k && (r.openBatch != 0 || (s.pump c).activity.isSome))

/-- CSET (R1, R2, R3). -/
def csetAnswer (fs : Fields) (s : State) : Answer :=
  .check (fs.malformed csetKeys ["circuit"] csetNumbers) .syntaxError <|
  match circ? (fs.numD "circuit" 0) with
  | none => .refuse .range
  | some c =>
    .check (csetOutside fs || !((s.circuit c).csetApplied fs).consistent) .range <|
    match s.twinChange c fs with
    | none => .refuse .mismatch
    | some t =>
      .check (s.csetHindered c fs) .state <|
      .check (!s.linkRoom (1 + (t.partners (s.circuit c).cfg).length)) .busy <|
      .accept (if fs.has "nmin" then [(s.circuit c).applied] else []) fun u => u.csetEffect c fs t

/-! ### TRIM (R21) -/

/-- Stage a trim and queue the circuit's record. -/
def State.trimEffect (s : State) (c : Circ) (t : Int) : State :=
  let s1 := s.setCircuit c fun r => r.stageTrim t
  s1.linkWrite (.circuit c (s1.circuit c).cfg)

def trimLimit (t : Int) : Int := clampInt (-63) 63 t

/-- TRIM (R21). A value of more than 9 digits is clamped as any other (R222). R21 names the refusals BUSY and STATE without
an order; that STATE is checked first is the model's choice: Assumption 52. -/
def trimAnswer (fs : Fields) (s : State) : Answer :=
  .check (fs.malformed ["circuit", "trim"] ["circuit", "trim"] ["circuit"]) .syntaxError <|
  match (fs.get "trim").bind signed? with
  | none => .refuse .syntaxError
  | some t =>
    match circ? (fs.numD "circuit" 0) with
    | none => .refuse .range
    | some c =>
      .check ((s.circuit c).state == .unfitted) .state <|
      .check (!s.linkRoom 1) .busy <|
      .accept ((s.circuit c).applied :: if trimLimit t = t then [] else [.bare "CLAMPED"])
        fun u => u.trimEffect c (trimLimit t)

/-! ### CANOUT (R12) -/

/-- The origin of a release that begins in a state. -/
def ReleaseOrigin.of : CircuitState → ReleaseOrigin
  | .empty => .empty
  | .blocked => .blocked
  | _ => .ready

/-- A release begins: with tag facts a WRITE job is asked for, without them the release ends at once (R12). -/
def State.release (s : State) (c : Circ) : State :=
  let s1 := (s.setCircuit c fun r => { r with origin := .of r.state }).moveCircuit c .releasing
  match (s.circuit c).lot with
  | some _ => (s1.markDirty c).askTag c (.write ((s.circuit c).level / 100))
  | none => s1.releaseEnds c

/-- CANOUT (R12). -/
def canoutAnswer (fs : Fields) (s : State) : Answer :=
  .check (fs.malformed ["circuit"] ["circuit"] ["circuit"]) .syntaxError <|
  match circ? (fs.numD "circuit" 0) with
  | none => .refuse .range
  | some c =>
    match (s.circuit c).state with
    | .unfitted => .refuse .state
    | .checking | .priming | .releasing => .refuse .busy
    | .service => .accept [] fun u => u.setCircuit c fun r => { r with latchOpen := true }
    | .ready | .empty | .blocked =>
      .check (s.pump c).activity.isSome .busy <| .accept [] fun u => u.release c

/-! ### CREAD (R27) -/

def CircuitState.name : CircuitState → String
  | .unfitted => "UNFITTED" | .checking => "CHECKING" | .priming => "PRIMING" | .ready => "READY"
  | .empty => "EMPTY" | .blocked => "BLOCKED" | .releasing => "RELEASING" | .service => "SERVICE"

def PurgeCause.name : PurgeCause → String
  | .interval => "INTERVAL" | .forced => "FORCED"

def Atom.optInt : Option Int → Atom
  | some i => .signed i
  | none => .word "NONE"

def openClosed (closed : Bool) : String := if closed then "CLOSED" else "OPEN"

/-- The fields of a circuit record as CREAD shows them (R27); their names are the model's: Assumption 13. The minutes since
the last delivery are the whole minutes: Assumption 53. -/
def State.circuitItems (s : State) (c : Circ) : List Item :=
  let r := s.circuit c
  [ .word "state" r.state.name,
    .word "reason" ((r.reason.map BlockReason.name).getD "NONE"),
    .parts "code" [.optText r.cfg.code],
    .parts "twin" [.opt (r.cfg.twin.map circNo)],
    .num "level" r.level,
    .num "low" r.cfg.low,
    .num "reserve" r.cfg.reserve,
    .word "armed" (yesNo r.lowArmed),
    .signed "trim" r.trim,
    .parts "ptrim" [.optInt r.pendingTrim],
    .num "nmin" r.nmin,
    .parts "pnmin" [.opt r.pendingNmin],
    .num "open" r.openBatch,
    .parts "lot" [.optText r.lot],
    .word "latch" (if r.latchOpen then "OPEN" else "LOCKED"),
    .word "switch" (openClosed (s.bayClosed c)),
    .word "baseline" (openClosed r.baseline),
    .word "watch" (if r.cfg.watch then "ON" else "OFF"),
    .word "stir" (yesNo r.stir.isSome),
    .word "purge" ((r.purgeDue.map PurgeCause.name).getD "NO"),
    .num "since" ((s.now - r.lastDelivery) / Config.minute) ]

/-- CREAD (R27). -/
def creadAnswer (fs : Fields) (s : State) : Answer :=
  .check (fs.malformed ["circuit"] ["circuit"] ["circuit"]) .syntaxError <|
  match circ? (fs.numD "circuit" 0) with
  | none => .refuse .range
  | some c => .report (s.circuitItems c)

/-! ### RESTART (R25) -/

/-- A circuit's state at RESTART, once the tag queue is discarded and the pumps are cut. -/
def State.circuitRestart (s : State) (c : Circ) : State :=
  match (s.circuit c).state with
  | .checking => s.askTag c .read
  | .priming => s.askPrimeAgain c
  | .releasing =>
    match (s.circuit c).origin with
    | .blocked => s.moveCircuit c .blocked
    | _ => (s.moveCircuit c .ready).emptyCheck c
  | _ => s

end Sys2Proof.Machine
end

