-- ==== Sys2Proof/Machine/Library.lean ====
section
/-! DEFINITION. The Formula Library: base and size records, formulas and their validation, the slots and the read
cursor (sections 2.1 to 2.4). -/

namespace Sys2Proof.Machine

def baseName (b : Fin 8) : String := "B" ++ toString (b.val + 1)
def sizeName (z : Fin 12) : String := "S" ++ toString (z.val + 1)
def lidName (m : Fin 3) : String := "L" ++ toString (m.val + 1)

/-! ### References from live order lines -/

/-- The live order lines whose formula copy names the base. -/
def State.baseRefs (s : State) (b : Fin 8) : Nat := (s.bk.lines.filter fun l => l.formula.base == b).length

/-- The live order lines that name the size. -/
def State.sizeRefs (s : State) (z : Fin 12) : Nat := (s.bk.lines.filter fun l => l.size == z).length

/-- The live order lines whose library reference is n. -/
def State.slotRefs (s : State) (n : Nat) : Nat := (s.bk.lines.filter fun l => l.slot == some n).length

/-! ### Bases (R28, R29) -/

def base? (fs : Fields) : Option (Fin 8) := (fs.get "base").bind (code? "B" 8)

def State.putBase (s : State) (b : Fin 8) (v : Option Base) : State :=
  State.linkWrite { s with lib := { s.lib with bases := updAt s.lib.bases b fun _ => v } } (.base b v)

/-- A request that creates a record names only some of the record's fields. -/
def incomplete (absent : Bool) (fs : Fields) (keys : List String) : Bool := absent && keys.any fun k => !fs.has k

/-- BSET (R28). One that names no field of an existing record is taken, and queues the link write of the record as it is:
Assumption 49. A code outside B1–B8 is refused RANGE, also where a field is missing: Assumption 52. -/
def bsetAnswer (fs : Fields) (s : State) : Answer :=
  .check (fs.malformed ["base", "load", "mix"] ["base"] ["load", "mix"]) .syntaxError <|
  match base? fs with
  | none => .refuse .range
  | some b =>
    let old := s.lib.bases[b]
    .check (incomplete old.isNone fs ["load", "mix"]) .syntaxError <|
    .check (!fieldWithin fs "load" 1000 150000 || !fieldWithin fs "mix" 1 3) .range <|
    .check (s.baseRefs b != 0) .state <|
    .check (!s.linkRoom 1) .busy <|
    let now : Base := old.getD ⟨0, 0⟩
    .accept [] fun u => u.putBase b (some ⟨fs.numD "load" now.load, fs.numD "mix" now.mixClass⟩)

/-- BREAD (R29). -/
def breadAnswer (fs : Fields) (s : State) : Answer :=
  .check (fs.malformed ["base"] ["base"] []) .syntaxError <|
  match base? fs with
  | none => .refuse .range
  | some b =>
    match s.lib.bases[b] with
    | none => .report [.bare "EMPTY"]
    | some r =>
      .report [.word "base" (baseName b), .num "load" r.load, .num "mix" r.mixClass, .num "refs" (s.baseRefs b)]

/-- BDEL (R29). -/
def bdelAnswer (fs : Fields) (s : State) : Answer :=
  .check (fs.malformed ["base"] ["base"] []) .syntaxError <|
  match base? fs with
  | none => .refuse .range
  | some b =>
    match s.lib.bases[b] with
    | none => .report [.bare "EMPTY"]
    | some _ =>
      .check (s.baseRefs b != 0 || s.lib.slots.any fun x => x.2.base == b) .state <|
      .check (!s.linkRoom 1) .busy <|
      .accept [] fun u => u.putBase b none

/-! ### Sizes (R30, R31) -/

def sizeKeys : List String := ["vol", "height", "lid", "mix1", "mix2", "mix3"]

def size? (fs : Fields) : Option (Fin 12) := (fs.get "size").bind (code? "S" 12)

def State.putSize (s : State) (z : Fin 12) (v : Option Size) : State :=
  State.linkWrite { s with lib := { s.lib with sizes := updAt s.lib.sizes z fun _ => v } } (.size z v)

/-- A value of an SSET lies outside its range (section 2.2). -/
def ssetOutside (fs : Fields) : Bool :=
  !fieldWithin fs "vol" 250 20000 || !fieldWithin fs "height" 1 6 || fs.unreadable "lid" (code? "L" 3)
    || !fieldWithin fs "mix1" 30 300 || !fieldWithin fs "mix2" 30 300 || !fieldWithin fs "mix3" 30 300

/-- The size record with the named fields replaced. -/
def Size.overlay (r : Size) (fs : Fields) : Size where
  vol := fs.numD "vol" r.vol
  height := fs.numD "height" r.height
  lid := named fs "lid" (code? "L" 3) r.lid
  mix1 := fs.numD "mix1" r.mix1
  mix2 := fs.numD "mix2" r.mix2
  mix3 := fs.numD "mix3" r.mix3

/-- SSET (R30). One that names no field of an existing record is taken, as with BSET: Assumption 49. A code outside S1–S12
is refused RANGE, also where a field is missing: Assumption 52. -/
def ssetAnswer (fs : Fields) (s : State) : Answer :=
  .check (fs.malformed ("size" :: sizeKeys) ["size"] ["vol", "height", "mix1", "mix2", "mix3"]) .syntaxError <|
  match size? fs with
  | none => .refuse .range
  | some z =>
    let old := s.lib.sizes[z]
    .check (incomplete old.isNone fs sizeKeys) .syntaxError <|
    .check (ssetOutside fs) .range <|
    .check (s.sizeRefs z != 0) .state <|
    .check (!s.linkRoom 1) .busy <|
    .accept [] fun u => u.putSize z (some ((old.getD ⟨0, 0, 0, 0, 0, 0⟩).overlay fs))

/-- SREAD: the six fields of R30, and refs= (R31). -/
def sreadAnswer (fs : Fields) (s : State) : Answer :=
  .check (fs.malformed ["size"] ["size"] []) .syntaxError <|
  match size? fs with
  | none => .refuse .range
  | some z =>
    match s.lib.sizes[z] with
    | none => .report [.bare "EMPTY"]
    | some r =>
      .report
        [ .num "vol" r.vol, .num "height" r.height, .word "lid" (lidName r.lid), .num "mix1" r.mix1,
          .num "mix2" r.mix2, .num "mix3" r.mix3, .num "refs" (s.sizeRefs z) ]

/-- SDEL (R31). -/
def sdelAnswer (fs : Fields) (s : State) : Answer :=
  .check (fs.malformed ["size"] ["size"] []) .syntaxError <|
  match size? fs with
  | none => .refuse .range
  | some z =>
    match s.lib.sizes[z] with
    | none => .report [.bare "EMPTY"]
    | some _ =>
      .check (s.sizeRefs z != 0) .state <|
      .check (!s.linkRoom 1) .busy <|
      .accept [] fun u => u.putSize z none

/-! ### Formulas and their validation (R32) -/

/-- A colourant line CODE:AMOUNT. -/
def formulaLine? (t : Text) : Option (Text × Nat) :=
  let code := t.takeWhile (· != 58)
  match t.dropWhile (· != 58) with
  | [] => none
  | _ :: amount => if code = [] then none else (number? amount).map fun n => (code, n)

def inlineLines (fs : Fields) : List (Text × Nat) := (fs.all "line").filterMap formulaLine?

/-- Two entries carry the same code. -/
def repeatsCode : List (Text × Nat) → Bool
  | [] => false
  | x :: rest => rest.any (fun y => y.1 == x.1) || repeatsCode rest

/-- R32's SYNTAX check of an inline formula. -/
def inlineSyntax (fs : Fields) : Bool :=
  (fs.all "line").any (fun t => (formulaLine? t).isNone) || repeatsCode (inlineLines fs)

/-- R32's RANGE check of an inline formula. -/
def inlineRange (fs : Fields) : Bool :=
  !within 1 8 (inlineLines fs).length
    || (inlineLines fs).any (fun x => !within 1 150000 x.2 || x.1.length > 4)
    || ((fs.get "name").getD []).length > 16
    || fs.unreadable "base" (code? "B" 8)

/-- The inline formula of a request that has passed those checks. -/
def inlineFormula (fs : Fields) : Formula where
  name := fs.get "name"
  base := (base? fs).getD 0
  lines := inlineLines fs

/-- R32's checks against the records, from the base check onward. -/
def State.formulaRefusal (s : State) (f : Formula) : Option Reason :=
  match s.lib.bases[f.base] with
  | none => some .notFound
  | some b =>
    if f.lines.any (fun x => s.holders x.1 == []) then some .unknownColourant
    else if b.load < f.loading then some .overload
    else none

/-- Go on with an answer unless a check has found a refusal. -/
def Answer.unless (r : Option Reason) (next : Answer) : Answer :=
  match r with
  | some r => .refuse r
  | none => next

/-! ### The slots (R34 to R37) -/

/-- The lowest unused slot, in a list that rises by slot number. -/
def lowestUnused : Nat → List (Nat × Formula) → Nat
  | k, [] => k
  | k, (n, _) :: rest => if n = k then lowestUnused (k + 1) rest else k

def State.writeSlot (s : State) (n : Nat) (v : Option Formula) : State :=
  State.linkWrite { s with lib := { s.lib with slots := putSlot n v s.lib.slots } } (.slot n v)

/-- FSTORE (R34). -/
def fstoreAnswer (fs : Fields) (s : State) : Answer :=
  .check (fs.malformed ["slot", "name", "base", "line"] ["base"] ["slot"] || inlineSyntax fs) .syntaxError <|
  .check (inlineRange fs || !fieldWithin fs "slot" 1 400) .range <|
  let f := inlineFormula fs
  Answer.unless (s.formulaRefusal f) <|
  let n := fs.numD "slot" (lowestUnused 1 s.lib.slots)
  .check (!fs.has "slot" && n > Config.librarySlots) .full <|
  .check (!s.linkRoom 1) .busy <|
  .accept [.num "slot" n, .word "replaced" (yesNo (s.slot? n).isSome)] fun u => u.writeSlot n (some f)

def formulaLineItems (f : Formula) : List Item := f.lines.map fun x => .parts "line" [.text x.1, .num x.2]

/-- The reply of FREAD for a used slot (R35). -/
def State.slotItems (s : State) (n : Nat) (f : Formula) : List Item :=
  [.num "slot" n, .parts "name" [.optText f.name], .word "base" (baseName f.base)] ++ formulaLineItems f
    ++ [.num "loading" f.loading, .num "refs" (s.slotRefs n)]

/-- FREAD (R35). -/
def freadAnswer (fs : Fields) (s : State) : Answer :=
  .check (fs.malformed ["slot"] ["slot"] ["slot"]) .syntaxError <|
  let n := fs.numD "slot" 0
  .check (n > Config.librarySlots) .range <|
  match s.slot? n with
  | none => .report [.bare "EMPTY", .num "slot" n]
  | some f => .report (s.slotItems n f)

def State.setCursor (s : State) (n : Nat) : State := { s with lib := { s.lib with cursor := n } }

/-- FNEXT (R36). -/
def fnextAnswer (fs : Fields) (s : State) : Answer :=
  .check (fs.malformed ["from"] [] ["from"]) .syntaxError <|
  .check (!fieldWithin fs "from" 0 400) .range <|
  let start := max 1 (fs.numD "from" s.lib.cursor)
  match s.lib.slots.find? (fun x => start ≤ x.1) with
  | some (n, f) => .accept (s.slotItems n f) fun u => u.setCursor (n + 1)
  | none => .accept [.bare "EMPTY"] fun u => u.setCursor 401

/-- FERASE (R37). -/
def feraseAnswer (fs : Fields) (s : State) : Answer :=
  .check (fs.malformed ["slot"] ["slot"] ["slot"]) .syntaxError <|
  let n := fs.numD "slot" 0
  .check (!within 1 400 n) .range <|
  .check (s.slot? n).isNone .notFound <|
  .check (s.slotRefs n != 0) .state <|
  .check (!s.linkRoom 1) .busy <|
  .accept [] fun u => u.writeSlot n none

end Sys2Proof.Machine
end

