-- ==== Sys2Proof/Machine/Lines.lean ====
section
/-! DEFINITION. The Order Book's operations on its lines: book order, the wanted tin, release and count, holds,
bindings and leaving the book (sections 4.1 to 4.7). -/

namespace Sys2Proof.Machine

/-! ### Lines -/

def State.line? (s : State) (n : Nat) : Option OrderLine := s.bk.lines.find? fun l => l.number == n

def State.setLine (s : State) (n : Nat) (f : OrderLine → OrderLine) : State :=
  { s with bk := { s.bk with lines := s.bk.lines.map fun l => if l.number = n then f l else l } }

/-- Released tins that have not finished (section 4.1). -/
def OrderLine.live (l : OrderLine) : Nat := l.released - l.completed - l.failed

def LineState.name : LineState → String
  | .queued => "QUEUED" | .running => "RUNNING" | .held => "HELD" | .finishing => "FINISHING"
  | .done => "DONE" | .cancelled => "CANCELLED"

def Hold.name : Hold → String
  | .host => "HOST" | .circuit _ => "CIRCUIT" | .weight => "WEIGHT"

/-- The number a new line takes (R66). -/
def State.newLineNumber (s : State) : Nat :=
  nextFree 65535 (fun k => (s.line? k).isSome) s.bk.lastNumber 65536

/-! ### Book order (R70, R71) -/

def OrderLine.queuedRush (l : OrderLine) : Bool := l.rush && l.state == .queued
def OrderLine.queuedNormal (l : OrderLine) : Bool := !l.rush && l.state == .queued

/-- Place x directly behind the last line that p holds of. -/
def behindLast (p : OrderLine → Bool) (x : OrderLine) : List OrderLine → Option (List OrderLine)
  | [] => none
  | y :: ys =>
    match behindLast p x ys with
    | some zs => some (y :: zs)
    | none => if p y then some (y :: x :: ys) else none

/-- Place x directly in front of the first line that p holds of. -/
def beforeFirst (p : OrderLine → Bool) (x : OrderLine) : List OrderLine → Option (List OrderLine)
  | [] => none
  | y :: ys => if p y then some (x :: y :: ys) else (beforeFirst p x ys).map (y :: ·)

/-- The book with a new line in its place (R70). -/
def placeNew (x : OrderLine) (lines : List OrderLine) : List OrderLine :=
  if x.rush then
    match behindLast OrderLine.queuedRush x lines with
    | some zs => zs
    | none => (beforeFirst OrderLine.queuedNormal x lines).getD (lines ++ [x])
  else lines ++ [x]

/-- A line that GO has returned to QUEUED is placed again where its place breaks the order of R70 (R71). -/
def placeAgain (n : Nat) (lines : List OrderLine) : List OrderLine :=
  let front := lines.takeWhile fun l => l.number != n
  match lines.dropWhile (fun l => l.number != n) with
  | [] => lines
  | x :: behind =>
    if x.rush then
      if front.any OrderLine.queuedNormal then
        (beforeFirst OrderLine.queuedNormal x (front ++ behind)).getD lines
      else lines
    else if behind.any OrderLine.queuedRush then
      (behindLast OrderLine.queuedRush x (front ++ behind)).getD lines
    else lines

/-! ### The wanted tin (R72, R73) -/

/-- The line the next tin is wanted for. -/
def State.wantedLine (s : State) : Option OrderLine :=
  s.bk.lines.find? fun l => l.state == .queued || l.state == .running

/-- The wanted tin as line number and index. -/
def State.wanted (s : State) : Option (Nat × Nat) := s.wantedLine.map fun l => (l.number, l.released + 1)

/-- Z1 holds a tin record. -/
def State.z1Holds (s : State) : Bool := (s.placeRec .z1).tin.isSome

def OrderLine.wantedItems (l : OrderLine) : List Item :=
  [ .num "line" l.number, .num "tin" (l.released + 1), .word "size" (sizeName l.size),
    .word "base" (baseName l.formula.base) ]

/-- LOAD_WANTED is set where the wanted tin has come to be one that was not wanted at Z1 before the step (R73). -/
def State.loadWanted (before s : State) : State :=
  match s.wantedLine with
  | none => s
  | some l =>
    if !s.z1Holds && (before.z1Holds || before.wanted != some (l.number, l.released + 1)) then
      s.setFlag .loadWanted l.wantedItems
    else s

/-! ### Bindings (R84) -/

/-- The line's bindings end. -/
def State.endBindings (s : State) (n : Nat) : State :=
  match s.line? n with
  | none => s
  | some l =>
    let s1 := l.entries.foldl (fun u e => match e.bound with
      | some c => u.bindingEnded c
      | none => u) s
    s1.setLine n fun l => { l with entries := l.entries.map fun e => { e with bound := none } }

/-! ### Leaving the book (R69) -/

/-- The line becomes DONE or is CANCELLED with no live tin: its bindings end, it leaves, and LINE_DONE is set. -/
def State.leaveBook (s : State) (n : Nat) (g : LineState) : State :=
  let s1 := s.endBindings n
  match s1.line? n with
  | none => s1
  | some l =>
    State.setFlag { s1 with bk := { s1.bk with lines := s1.bk.lines.filter fun l => l.number != n } } .lineDone
      [.num "line" n, .word "state" g.name, .num "completed" l.completed, .num "failed" l.failed]

/-! ### Release and count (R67, R68) -/

/-- The book releases the wanted tin of a line. -/
def State.releaseTin (s : State) (n : Nat) : State :=
  s.setLine n fun l =>
    let k := l.released + 1
    { l with
      released := k
      state := if l.state = .queued ∨ l.state = .running then (if k < l.limit then .running else .finishing)
        else l.state }

/-- A line with no live tin left becomes DONE from FINISHING or a fully released HELD, and a CANCELLED line leaves. -/
def State.settleLine (s : State) (n : Nat) : State :=
  match s.line? n with
  | none => s
  | some l =>
    if l.live = 0 then
      match l.state with
      | .finishing => s.leaveBook n .done
      | .held => if l.released = l.limit then s.leaveBook n .done else s
      | .cancelled => s.leaveBook n .cancelled
      | _ => s
    else s

/-- One of the line's live tins has finished, in stage FAILED or not (R68); a line with no live tin has none that can finish
(Assumption 37). -/
def OrderLine.tinFinishes (l : OrderLine) (failed : Bool) : OrderLine :=
  if l.live = 0 then l
  else if failed then { l with failed := l.failed + 1 } else { l with completed := l.completed + 1 }

/-- A tin of the line has finished (R68). -/
def State.countFinished (s : State) (n : Nat) (failed : Bool) : State :=
  (s.setLine n fun l => l.tinFinishes failed).settleLine n

/-! ### Holds (R76 to R78) -/

def Hold.items (n : Nat) (h : Hold) : List Item :=
  [.num "line" n, .word "reason" h.name] ++ match h with
    | .circuit c => [.num "circuit" c]
    | _ => []

/-- The line becomes HELD with a reason, and LINE_HELD is set. -/
def State.holdLine (s : State) (n : Nat) (h : Hold) : State :=
  (s.setLine n fun l => { l with state := .held, hold := some h }).setFlag .lineHeld (h.items n)

/-- A weight deviation is reported on a tin of the line (R78). -/
def State.holdWeight (s : State) (n : Nat) : State :=
  match s.line? n with
  | some l =>
    match l.state with
    | .running | .finishing | .held => s.holdLine n .weight
    | _ => s
  | none => s

/-- Admission meets a HOLD outcome (R77). -/
def State.holdCircuit (s : State) (n c : Nat) : State :=
  match s.line? n with
  | some l =>
    match l.state with
    | .running | .finishing => s.holdLine n (.circuit c)
    | _ => s
  | none => s

/-! ### Lots (R85) -/

/-- The station starts a dose of entry k of a tin of the line on circuit c: the first lot is taken or compared. -/
def State.compareLot (s : State) (id k : Nat) (c : Circ) : State :=
  match (s.tin? id).bind (·.order), (s.circuit c).lot with
  | some (n, _), some lot =>
    match ((s.line? n).bind fun l => l.entries[k]?).bind (·.lot) with
    | some first => if first = lot then s else s.noteTin id .lotSplit
    | none => s.setLine n fun l => { l with entries := modifyAt (fun e => { e with lot := some lot }) k l.entries }
  | _, _ => s

end Sys2Proof.Machine
end

