-- ==== Sys2Proof/Machine/Dose.lean ====
section
/-! DEFINITION. The Dose Planner: the plan of one tin, PREVIEW, and the calibration arithmetic (chapter 3). -/

namespace Sys2Proof.Machine

/-! ### Steps and residues (R46 to R50) -/

/-- The exact target numerator N (R46). -/
def targetNumerator (a v k : Nat) (t : Int) : Nat := a * v * k * trimFactor t

/-- The result of one computation: the steps issued, the outcome, its signed difference, and the residue afterwards. -/
structure StepPlan where
  steps : Nat
  outcome : PlanOutcome
  adjust : Option Int
  residue : Option Nat
  deriving DecidableEq, Repr

/-- The plan of one colourant line from its numerator, the residue it starts from, the minimum dose and the last-tin
answer (R48, R49, R50). -/
def planSteps (target r nmin : Nat) (last : Bool) : StepPlan :=
  let total := target + r
  let n := total / Config.doseDivisor
  if nmin ≤ n then
    ⟨n, .planned, none, if last then none else some (total - n * Config.doseDivisor)⟩
  else if !last then ⟨0, .deferred, none, some total⟩
  else if n = 0 then ⟨0, .noneDue, none, none⟩
  else if (nmin + 1) / 2 ≤ n then ⟨nmin, .minAdjust, some ((nmin : Int) - n), none⟩
  else ⟨0, .minAdjust, some (-(n : Int)), none⟩

/-- The computation with the constants of circuit c. -/
def State.planOn (s : State) (c : Circ) (amount vol r : Nat) (last : Bool) : StepPlan :=
  let q := s.circuit c
  planSteps (targetNumerator amount vol q.cfg.k q.trim) r q.nmin last

/-- The planned volume of n steps on circuit c (R57). -/
def State.plannedVolume (s : State) (c : Circ) (n : Nat) : Nat :=
  stepsVolume n (s.circuit c).cfg.k (s.circuit c).trim

/-! ### The serving circuit and its test (R18, R53) -/

/-- The pump leaves room for a dose: it has no activity, or its one activity is a standalone REFILL or a PURGE (R18). What
waits in the next place is no activity, and does not enter the test. -/
def Pump.canTakeDose (p : Pump) : Bool :=
  match p.activity with
  | none => true
  | some a => a.kind == .purge || a.kind == .refill

/-- Circuit c can serve a dose of planned volume v of the colourant code. -/
def State.canServe (s : State) (c : Circ) (code : Text) (v : Nat) : Bool :=
  let q := s.circuit c
  q.state == .ready && q.cfg.code == some code && q.cfg.reserve + v ≤ q.level && (s.pump c).canTakeDose

/-- The serving circuit of a colourant entry: the bound one, or the lowest-numbered holder of the code; none where no
circuit holds the code (R18, R53). Where two circuits hold the code and are no longer twins R18 names neither, and the
lower-numbered is the model's choice: Assumption 42. -/
def State.servingCircuit (s : State) (e : ColourantEntry) (code : Text) : Option Circ :=
  if s.holders code = [] then none else e.bound.orElse fun _ => (s.holders code).head?

/-! ### Judging a colourant line (R53 to R55) -/

inductive Judged where
  | served (c : Circ) (p : StepPlan) (substituted : Bool)
  | skipped (c : Circ) (p : StepPlan)
  | hold (c : Option Circ) (p : StepPlan)
  deriving DecidableEq, Repr

/-- The twin's result, where the policy is TWIN and the twin can serve it (R54). -/
def State.judgeTwin (s : State) (c : Circ) (p : StepPlan) (code : Text) (amount vol : Nat) (last : Bool) : Judged :=
  match (s.circuit c).cfg.twin with
  | none => .hold (some c) p
  | some d =>
    let q := s.planOn d amount vol Config.halfStep last
    if s.canServe d code (s.plannedVolume d q.steps) then .served d q true else .hold (some c) p

/-- The outcome for one colourant line of a tin. -/
def State.judge (s : State) (e : ColourantEntry) (line : Text × Nat) (vol : Nat) (last : Bool) : Judged :=
  match s.servingCircuit e line.1 with
  | none => .hold none ⟨0, .planned, none, none⟩
  | some c =>
    let p := s.planOn c line.2 vol (e.residue.getD Config.halfStep) last
    if p.steps = 0 ∨ s.canServe c line.1 (s.plannedVolume c p.steps) then .served c p false
    else
      match (s.circuit c).cfg.policy with
      | .hold => .hold (some c) p
      | .twin => s.judgeTwin c p line.1 line.2 vol last
      | .skip => .skipped c p

/-- The size record's volume; a line's size record cannot be removed while the line lives (R30). -/
def State.sizeVol (s : State) (z : Fin 12) : Nat := (s.lib.sizes[z].map (·.vol)).getD 0

/-- The plan of a tin of a line: each colourant line in authored order (R52). -/
def State.plan (s : State) (l : OrderLine) (last : Bool) : List Judged :=
  (l.formula.lines.zip l.entries).map fun x => s.judge x.2 x.1 (s.sizeVol l.size) last

/-- The hold circuit of the first colourant line whose outcome is HOLD: its number, or 0 (R77). -/
def holdOf : List Judged → Option Nat
  | [] => none
  | .hold c _ :: _ => some ((c.map circNo).getD 0)
  | _ :: rest => holdOf rest

/-! ### The committed plan (R52, R56, R83) -/

/-- The dose entry of one colourant line; a HOLD outcome is never committed. -/
def State.doseEntry (s : State) (code : Text) : Judged → Option DoseEntry
  | .served c p sub => some
      { code := code, circuit := c, planned := p.steps, volume := s.plannedVolume c p.steps, outcome := p.outcome
        adjust := p.adjust, substituted := sub, handing := if p.steps = 0 then .ended else .notYet
        delivered := 0, deliveredVolume := 0, run := none, mass := 0 }
  | .skipped c _ => some
      { code := code, circuit := c, planned := 0, volume := 0, outcome := .skipped, adjust := none
        substituted := false, handing := .ended, delivered := 0, deliveredVolume := 0, run := none, mass := 0 }
  | .hold _ _ => none

def State.doseEntries (s : State) (l : OrderLine) (plan : List Judged) : List DoseEntry :=
  (l.formula.lines.zip plan).filterMap fun x => s.doseEntry x.1.1 x.2

/-- The circuit and the residue a commit records for an entry. -/
def Judged.committed : Judged → Option (Circ × Option Nat)
  | .served c p _ => some (c, p.residue)
  | .skipped c p => some (c, p.residue)
  | .hold _ _ => none

def commitEntry (j : Judged) (e : ColourantEntry) : ColourantEntry :=
  match j.committed with
  | some (c, r) => { e with bound := some c, residue := r }
  | none => e

/-- The count of the circuit rises that a commit binds an entry to anew (R20, R83). -/
def State.commitMade (s : State) (e : ColourantEntry) (j : Judged) : State :=
  match j.committed with
  | some (c, _) => if e.bound = some c then s else s.bindingMade c
  | none => s

/-- The count of the circuit falls that a commit moves an entry away from (R20, R83). -/
def State.commitEnded (s : State) (e : ColourantEntry) (j : Judged) : State :=
  match j.committed, e.bound with
  | some (c, _), some d => if d = c then s else s.bindingEnded d
  | _, _ => s

/-- Commit a plan into its line. The bindings it makes count before those it ends, so that pending values come to no circuit
that the line is bound to afterwards: while a binding stands its circuit's minimum dose does not change (R21, R83). No rule
gives the order: Assumption 73. -/
def State.commitPlan (s : State) (l : OrderLine) (plan : List Judged) : State :=
  let made := (l.entries.zip plan).foldl (fun u x => u.commitMade x.1 x.2) s
  let s1 := (l.entries.zip plan).foldl (fun u x => u.commitEnded x.1 x.2) made
  s1.setLine l.number fun l => { l with entries := (plan.zip l.entries).map fun x => commitEntry x.1 x.2 }

/-- The notes a plan brings to its tin (R56). -/
def planNotes (es : List DoseEntry) : List Note :=
  (if es.any (fun e => e.outcome == .skipped) then [.offShade] else [])
    ++ (if es.any (·.substituted) then [.substituted] else [])

/-- The planned volumes of a tin, each circuit listed once (R42). -/
def planVolumes (es : List DoseEntry) : List (Circ × Nat) :=
  (es.filter fun e => e.planned != 0).foldl (fun acc e => addVolume e.circuit e.volume acc) []

/-- The needed circuits of a tin (R53). -/
def neededCircuits (es : List DoseEntry) : List Circ := (es.filter fun e => e.planned != 0).map (·.circuit)

/-! ### PREVIEW (R59) -/

def PlanOutcome.atom (adjust : Option Int) : PlanOutcome → Atom
  | .planned => .word "PLANNED"
  | .deferred => .word "DEFERRED"
  | .minAdjust => .adjusted "MIN_ADJUST" (adjust.getD 0)
  | .noneDue => .word "NONE_DUE"
  | .skipped => .word "SKIPPED"

/-- One dose field of PREVIEW. The outcome word of a substituted entry, and the steps and volume of a HOLD entry, are the
model's choice: Assumption 43. -/
def State.previewDose (s : State) (code : Text) (j : Judged) : Item :=
  .parts "dose" <| match j with
    | .served c p sub =>
      [ .text code, .num (circNo c), .num p.steps, .num (s.plannedVolume c p.steps),
        if sub then .word "SUBSTITUTED" else p.outcome.atom p.adjust ]
    | .skipped c _ => [.text code, .num (circNo c), .num 0, .num 0, .word "SKIPPED"]
    | .hold (some c) p =>
      [.text code, .num (circNo c), .num p.steps, .num (s.plannedVolume c p.steps), .word "HOLD"]
    | .hold none _ => [.text code, .num 0, .num 0, .num 0, .word "HOLD"]

/-- The index of the line's tin that stands at Z1, admitted or not. An orphan is no tin of a line (R156). -/
def State.indexAtZ1 (s : State) (n : Nat) : Option Nat :=
  match s.tinAt .z1 with
  | some t =>
    match t.order with
    | some (m, k) => if m = n ∧ t.stage ≠ .orphan then some k else none
    | none => none
  | none => none

/-- PREVIEW (R59). -/
def previewAnswer (fs : Fields) (s : State) : Answer :=
  .check (fs.malformed ["line"] ["line"] ["line"]) .syntaxError <|
  let n := fs.numD "line" 0
  .check (!within 1 65535 n) .range <|
  match s.line? n with
  | none => .refuse .notFound
  | some l =>
    .check (l.state == .cancelled || ((s.indexAtZ1 n).isNone && l.limit ≤ l.released)) .state <|
    let k := (s.indexAtZ1 n).getD (l.released + 1)
    let last := k == l.limit
    .report <| [.num "tin" k, .word "last" (yesNo last)]
      ++ (l.formula.lines.zip (s.plan l last)).map fun x => s.previewDose x.1.1 x.2

/-! ### Calibration (R60 to R62) -/

/-- The step count of a calibration run (R60). -/
def calSteps (target k : Nat) : Nat := roundHalfUp (target * k) 1000

/-- The new trim before it is clamped, for a mass of at least 1,000 mg (R61). -/
def newTrim (steps density k mass : Nat) : Int := (roundHalfAway (1024 * steps * density) (k * mass) : Int) - 1024

/-- The result of a calibration run that weighed M mg (R61, R62). -/
def CalRun.result (q : CalRun) (m : Int) : CalResult :=
  let failed (c : CalCause) : CalResult := ⟨q.circuit, q.target, q.steps, q.delivered, m, none, .failed c⟩
  if q.delivered < q.steps then failed .shortRun
  else if m < 1000 then failed .lowMass
  else if q.changed then failed .changed
  else
    let t := newTrim q.steps q.density q.k m.toNat
    let t' := clampInt (-63) 63 t
    ⟨q.circuit, q.target, q.steps, q.delivered, m, some t', if t' = t then .ok else .outOfRange⟩

end Sys2Proof.Machine
end

