-- ==== Sys2Proof/Machine/Book.lean ====
section
/-! DEFINITION. The requests of the Order Book: ORDER, HOLD, GO, CANCEL, WANTED, LREAD and BOOK (chapter 4). -/

namespace Sys2Proof.Machine

/-! ### ORDER (R64 to R66) -/

def prioTable : List (String × Bool) := [("NORMAL", false), ("RUSH", true)]

def orderKeys : List String := ["size", "tins", "prio", "ref", "slot", "base", "name", "line"]

/-- The SYNTAX check of ORDER. -/
def orderSyntax (fs : Fields) : Bool :=
  fs.malformed orderKeys ["size", "tins"] ["tins", "slot"]
    || (fs.has "slot" && (fs.has "base" || fs.has "name" || fs.has "line"))
    || (!fs.has "slot" && !fs.has "base")
    || (!fs.has "slot" && inlineSyntax fs)

/-- The RANGE check of ORDER. -/
def orderRange (fs : Fields) : Bool :=
  !fieldWithin fs "tins" 1 24 || fs.unreadable "prio" (named? prioTable) || ((fs.get "ref").getD []).length > 12
    || (size? fs).isNone || !fieldWithin fs "slot" 0 400 || (!fs.has "slot" && inlineRange fs)

/-- The formula an ORDER gives: the slot's record, or the inline one; `none` for slot 0 or an unused slot (R33). -/
def State.orderFormula (s : State) (fs : Fields) : Option Formula :=
  match fs.num "slot" with
  | some n => s.slot? n
  | none => some (inlineFormula fs)

/-- The line an accepted ORDER creates (R65). -/
def State.newLine (s : State) (fs : Fields) (f : Formula) (z : Fin 12) : OrderLine where
  number := s.newLineNumber
  ref := fs.get "ref"
  formula := f
  slot := fs.num "slot"
  size := z
  tins := fs.numD "tins" 0
  limit := fs.numD "tins" 0
  rush := named fs "prio" (named? prioTable) false
  state := .queued
  hold := none
  released := 0
  completed := 0
  failed := 0
  entries := f.lines.map fun _ => ⟨none, none, none⟩

/-- Enter a line into the book. -/
def State.enterLine (s : State) (l : OrderLine) : State :=
  { s with bk := { lines := placeNew l s.bk.lines, lastNumber := l.number } }

/-- A line's place in book order, from 1 at the front. -/
def linePos (n : Nat) (lines : List OrderLine) : Nat := (lines.findIdx fun l => l.number == n) + 1

/-- ORDER (R64). -/
def orderAnswer (fs : Fields) (s : State) : Answer :=
  .check (orderSyntax fs) .syntaxError <|
  .check (orderRange fs) .range <|
  match size? fs, s.orderFormula fs with
  | some z, some f =>
    .check (s.lib.sizes[z]).isNone .notFound <|
    Answer.unless (s.formulaRefusal f) <|
    .check (Config.bookPlaces ≤ s.bk.lines.length) .full <|
    let l := s.newLine fs f z
    .accept [.num "line" l.number, .num "pos" (linePos l.number (placeNew l s.bk.lines))] fun u => u.enterLine l
  | _, _ => .refuse .notFound

/-! ### HOLD and GO (R76, R79) -/

/-- The checks every request that names a live line shares. -/
def State.withLine (s : State) (fs : Fields) (allowed numeric : List String) (next : Nat → OrderLine → Answer) :
    Answer :=
  .check (fs.malformed allowed ["line"] numeric) .syntaxError <|
  let n := fs.numD "line" 0
  .check (!within 1 65535 n) .range <|
  match s.line? n with
  | none => .refuse .notFound
  | some l => next n l

/-- HOLD (R76). -/
def holdAnswer (fs : Fields) (s : State) : Answer :=
  s.withLine fs ["line"] ["line"] fun n l =>
    match l.state with
    | .queued | .running | .finishing => .accept [] fun u => u.holdLine n .host
    | .held => .accept [] fun u => if l.hold = some .host then u else u.holdLine n .host
    | .cancelled | .done => .refuse .state

/-- The state a line's counts give it (R79). -/
def OrderLine.counted (l : OrderLine) : LineState :=
  if l.released = 0 then .queued else if l.released < l.limit then .running else .finishing

/-- The tin an attempt is made for: a LOADED tin of an order line at Z1, with its line and index (R114). -/
def State.waitingTin (s : State) : Option (Tin × Nat × Nat) :=
  match s.tinAt .z1 with
  | some t =>
    match t.order with
    | some (n, k) => if t.stage = .loaded then some (t, n, k) else none
    | none => none
  | none => none

/-- A tin of the line waits at Z1. -/
def State.waitsAtZ1 (s : State) (n : Nat) : Bool := s.waitingTin.any fun x => x.2.1 == n

/-- A hold ends; a line that is QUEUED is placed again (R71, R79), and the station is asked to retry the admission of a tin
of the line that waits at Z1. -/
def State.goLine (s : State) (n : Nat) (g : LineState) : State :=
  let s1 := s.setLine n fun l => { l with state := g, hold := none }
  let s2 := if g = .queued then { s1 with bk := { s1.bk with lines := placeAgain n s1.bk.lines } } else s1
  if s.waitsAtZ1 n then { s2 with stn := { s2.stn with attemptOwed := true } } else s2

/-- GO (R79); the field state= of its reply is Assumption 13. -/
def goAnswer (fs : Fields) (s : State) : Answer :=
  s.withLine fs ["line"] ["line"] fun n l =>
    .check (l.state != .held) .state <|
    .accept [.word "state" l.counted.name] fun u => u.goLine n l.counted

/-! ### CANCEL (R80, R81) -/

/-- A tin of the line that stands at Z1 and has not been admitted is FAILED. -/
def State.failAtZ1 (s : State) (n : Nat) : State :=
  match s.waitingTin with
  | some (t, m, _) => if m = n then s.stageTin t.id .failed else s
  | none => s

/-- CANCEL without after= (R80). -/
def State.cancelLine (s : State) (n : Nat) : State :=
  (((s.failAtZ1 n).setLine n fun l =>
    { l with limit := l.released, state := .cancelled, hold := none }).endBindings n).settleLine n

/-- CANCEL with after=k below the release limit (R81). -/
def State.cutLine (s : State) (n k : Nat) : State :=
  (s.setLine n fun l =>
    { l with limit := k, state := if l.state = .running ∧ l.released = k then .finishing else l.state }).settleLine n

/-- CANCEL line=n after=k (R81); the field limit= of its reply is Assumption 13. -/
def cancelAfterTaken (n : Nat) (l : OrderLine) (k : Nat) : Answer :=
  .check (!within 1 24 k) .range <|
  .check (l.state == .cancelled || k < l.released) .state <|
  if l.limit ≤ k then .accept [] id else .accept [.num "limit" k] fun u => u.cutLine n k

/-- CANCEL line=n (R80). -/
def cancelTaken (n : Nat) (l : OrderLine) : Answer :=
  .check (l.state == .cancelled) .state <| .accept [] fun u => u.cancelLine n

/-- CANCEL (R80, R81): the form with after= cancels the tins above an index, the form without it the line. That after=
outside 1–24 is refused RANGE before a line that the book does not hold is refused NOT_FOUND is the model's choice:
Assumption 52. -/
def cancelAnswer (fs : Fields) (s : State) : Answer :=
  .check (fs.has "after" && (fs.num "after").isSome && !(fs.malformed ["line", "after"] ["line"] ["line", "after"])
    && !fieldWithin fs "after" 1 24) .range <|
  s.withLine fs ["line", "after"] ["line", "after"] fun n l =>
    match fs.num "after" with
    | some k => cancelAfterTaken n l k
    | none => cancelTaken n l

/-! ### WANTED, LREAD and BOOK (R75, R86, R87) -/

/-- WANTED (R75). -/
def wantedAnswer (fs : Fields) (s : State) : Answer :=
  .check (fs.malformed [] [] []) .syntaxError <|
  let z1 : Item := .word "z1" (if s.z1Holds then "OCCUPIED" else "FREE")
  match s.wantedLine with
  | none => .report [.bare "EMPTY", z1]
  | some l => .report <| l.wantedItems ++ [.num "height" ((s.lib.sizes[l.size].map (·.height)).getD 0), z1]

def prioName (rush : Bool) : String := if rush then "RUSH" else "NORMAL"

/-- hold=: the hold reason, with the hold circuit for CIRCUIT (R86); the form CIRCUIT:c is the model's choice:
Assumption 69. -/
def holdItem : Option Hold → Item
  | none => .word "hold" "NONE"
  | some (.circuit c) => .parts "hold" [.word "CIRCUIT", .num c]
  | some h => .word "hold" h.name

def entryItem (x : (Text × Nat) × ColourantEntry) : Item :=
  .parts "entry" [.text x.1.1, .num x.1.2, .opt (x.2.bound.map circNo), .opt x.2.residue, .optText x.2.lot]

/-- LREAD (R86). -/
def lreadAnswer (fs : Fields) (s : State) : Answer :=
  s.withLine fs ["line"] ["line"] fun n l => .report <|
    [ .num "line" n, .num "pos" (linePos n s.bk.lines), .parts "ref" [.optText l.ref],
      .num "slot" (l.slot.getD 0), .parts "name" [.optText l.formula.name], .word "base" (baseName l.formula.base),
      .word "size" (sizeName l.size), .num "tins" l.tins, .num "limit" l.limit, .word "prio" (prioName l.rush),
      .word "state" l.state.name, holdItem l.hold, .num "released" l.released, .num "completed" l.completed,
      .num "failed" l.failed, .num "live" l.live ]
      ++ (l.formula.lines.zip l.entries).map entryItem

/-- A line's state in BOOK; a HELD line shows its reason (R87). -/
def OrderLine.stateShown (l : OrderLine) : String :=
  match l.state, l.hold with
  | .held, some h => "HELD(" ++ h.name ++ ")"
  | g, _ => g.name

def bookItem (l : OrderLine) : Item :=
  .parts "line"
    [ .num l.number, .word (prioName l.rush), .word l.stateShown, .num l.released, .num l.completed, .num l.failed,
      .num l.limit ]

/-- wanted=: the wanted tin as LINE:INDEX, or NONE. -/
def State.wantedItem (s : State) : Item :=
  match s.wanted with
  | some (n, k) => .parts "wanted" [.num n, .num k]
  | none => .word "wanted" "NONE"

/-- BOOK (R87). -/
def bookAnswer (fs : Fields) (s : State) : Answer :=
  .check (fs.malformed [] [] []) .syntaxError <|
  .report <| [.num "count" s.bk.lines.length] ++ s.bk.lines.map bookItem ++ [s.wantedItem]

/-! ### RESTART (R88) -/

/-- RESTART clears the book: every binding ends, and the last number becomes 0. -/
def State.bookRestart (s : State) : State :=
  let s1 := s.bk.lines.foldl (fun u l => u.endBindings l.number) s
  { s1 with bk := ⟨[], 0⟩ }

end Sys2Proof.Machine
end

