-- ==== Sys2Proof/Machine/Places.lean ====
section
/-! DEFINITION. Orphans, slips and disagreements between a place's sensor and its record (R150, R156, R178), and the
station, press and mixer conditions that hold the watch off. -/

namespace Sys2Proof.Machine

def placeName : Place → String
  | .z1 => "Z1" | .z2 => "Z2" | .z3 => "Z3" | .z4 => "Z4" | .z5 => "Z5"
  | .mixA => "MIXA" | .mixB => "MIXB" | .out => "OUT"

def State.setUncertain (s : State) (p : Place) (b : Bool) : State := s.setPlace p fun r => { r with uncertain := b }

/-- Put a record at a zone or mixer, RESTING. -/
def State.restAt (s : State) (p : Place) (id : Nat) : State :=
  s.setPlace p fun r => { r with tin := some id, arriving := false }

/-- An orphan made from a presence at a place; one made in a cradle has lid status SEATED (R156, R178, R181). -/
def State.orphanAt (s : State) (p : Place) : State :=
  let id := s.newTinId
  let t := Tin.orphan id
  (s.addTin (if p.isMixer then { t with lid := some .seated } else t)).restAt p id

/-- An orphan appended at the tail of the lane. -/
def State.orphanInLane (s : State) : State :=
  let id := s.newTinId
  let s1 := s.addTin (Tin.orphan id)
  { s1 with track := { s1.track with lane := s1.track.lane ++ [id] } }

/-- TRACK_SLIP set by a disagreement: tin= and to=, with no from= and no marks= (R150, R225). -/
def State.slipSeen (s : State) (p : Place) (id : Nat) : State :=
  s.setFlag .trackSlip [.num "tin" id, .word "to" (placeName p)]

/-- The watch at the place is held off while another block works there (R150). -/
def State.watchHeld (s : State) : Place → Bool
  | .z2 =>
    s.stn.scale == .calibration || s.stn.job == .preparing || s.stn.job == .dosing || s.stn.job == .weighing
  | .z3 => s.lid.press == .pressing
  | _ => false

/-- The place is at rest: no move in flight, not UNCERTAIN. -/
def State.atRest (s : State) (p : Place) : Bool := !s.moving p && !(s.placeRec p).uncertain

/-- An appearing tin at a place without a record makes an orphan and sets TRACK_SLIP. -/
def State.appeared (s : State) (p : Place) : State :=
  let id := s.newTinId
  (s.orphanAt p).slipSeen p id

/-- A place whose sensor has cleared under a tin becomes UNCERTAIN, and TRACK_SLIP is set. -/
def State.vanished (s : State) (p : Place) (id : Nat) : State := (s.setUncertain p true).slipSeen p id

/-- Compare the sensor of a zone of Z2–Z5 with its record (R150). -/
def State.zoneCompare (s : State) (p : Place) : State :=
  if (p = .z2 ∨ p = .z3 ∨ p = .z4 ∨ p = .z5) ∧ s.atRest p ∧ ¬s.watchHeld p then
    match (s.placeRec p).tin with
    | none => if s.shows p then s.appeared p else s
    | some id =>
      match s.tin? id with
      | some t => if !s.shows p && t.stage != .orphan && t.stage != .failed then s.vanished p id else s
      | none => s
  else s

/-- The states in which the Mixers watch a cradle (R178). -/
def MixerState.watched : MixerState → Bool
  | .idle | .holding | .loading => true
  | _ => false

/-- The mixer holds an orphan found in its cradle. -/
def State.holdOrphan (s : State) (m : Mix) (id : Nat) : State :=
  s.setMixer m fun x =>
    { x with
      state := .holding
      tin := some id
      clamp := .opened
      program := none
      elapsed := 0
      interrupted := false
      pending := none
      brakeTo := none
      causes := []
      resumeTaken := false }

/-- Compare a cradle sensor with the mixer's record (R178). A reservation for a tin at Z4 ends with the orphan. -/
def State.cradleCompare (s : State) (m : Mix) : State :=
  let p := m.place
  if (s.mixerRec m).state.watched ∧ s.atRest p then
    match (s.placeRec p).tin with
    | none =>
      if s.shows p then
        let id := s.newTinId
        ((s.appeared p).setPlace p fun r => { r with reserved := none }).holdOrphan m id
      else s
    | some id =>
      match s.tin? id with
      | some t =>
        if !s.shows p && t.stage != .orphan && (s.mixerRec m).state == .holding then s.vanished p id else s
      | none => s
  else s

/-- Compare the sensor of any place with its record; Z1 and the lane are not watched. -/
def State.placeCompare (s : State) (p : Place) : State :=
  match p.mixer? with
  | some m => s.cradleCompare m
  | none => s.zoneCompare p

end Sys2Proof.Machine
end

