-- ==== Sys2Proof/Machine/Lidder.lean ====
section
/-! DEFINITION. The Lidder: the press, the magazines, LIDS, LIDPOL and LIDDER (sections 8.1 and 8.2). -/

namespace Sys2Proof.Machine

def State.setLid (s : State) (f : Lidder → Lidder) : State := { s with lid := f s.lid }

/-! ### The search (R164) -/

/-- The lowest-numbered magazine of the code whose empty sensor shows lids. -/
def State.findMagazine (s : State) (code : Fin 3) : Option (Fin 3) :=
  (List.finRange 3).find? fun m => s.lid.mags[m].code == code && s.inp.lids[m]

/-- The tin is sent past the mixers unlidded: NOT_LIDDED and UNMIXED, and READY_TO_MOVE. -/
def State.bypassTin (s : State) (id : Nat) (status : LidStatus) : State :=
  ((((s.setTin id fun t => { t with lid := some status, route := some .bypass }).noteTin id .notLidded).noteTin id
    .unmixed).readyTin id).setLid fun l => { l with press := .lidded }

/-- LID_EMPTY is set for a tin that finds no lid. -/
def State.lidEmpty (s : State) (id : Nat) (code : Fin 3) : State :=
  s.setFlag .lidEmpty [.num "tin" id, .word "code" (lidName code)]

/-- No magazine is found: LID_EMPTY unless the tin waits already, and then the lid policy. -/
def State.noLid (s : State) (id : Nat) (code : Fin 3) : State :=
  let s1 := if s.lid.press = .waitingLid then s else s.lidEmpty id code
  match s1.lid.policy with
  | .hold => s1.setLid fun l => { l with press := .waitingLid, mag := none }
  | .pass => (s1.bypassTin id .notFitted).setLid fun l => { l with mag := none }

/-- The Lidder looks for a magazine for its tin; it does not act on a tin at an UNCERTAIN Z3 (R150). -/
def State.lidSearch (s : State) : State :=
  match s.lid.tin, s.lid.code with
  | some id, some code =>
    if s.lid.drawn = false ∧ (s.lid.press = .waiting ∨ s.lid.press = .waitingLid) ∧ (s.placeRec .z3).uncertain = false then
      match s.findMagazine code with
      | some m => s.setLid fun l => { l with mag := some m, press := .waiting }
      | none => s.noLid id code
    else s
  | _, _ => s

/-! ### Taking and leaving (R163, R167) -/

/-- The lid code of the tin's size record. -/
def State.neededLid (s : State) (t : Tin) : Fin 3 := ((t.size.bind fun z => s.lib.sizes[z]).map (·.lid)).getD 0

/-- The Lidder takes a tin at Z3; an orphan or FAILED record is not taken. -/
def State.lidderTake (s : State) (id : Nat) : State :=
  match s.tin? id with
  | some t =>
    if t.stage = .orphan ∨ t.stage = .failed then s
    else
      ((s.stageTin id .lidding).setLid fun l =>
        { l with
          press := .waiting
          tin := some id
          code := some (s.neededLid t)
          drawn := false
          mag := none
          attempt := 0 }).lidSearch
  | none => s

/-- The Lidder's tin leaves it. -/
def Lidder.leave (l : Lidder) : Lidder :=
  { l with press := .idle, tin := none, code := none, drawn := false, mag := none, attempt := 0, cycleEnd := none }

/-- The record has left Z3: where it is the Lidder's tin, the Lidder lets it go. -/
def State.lidderLeave (s : State) (id : Nat) : State := if s.lid.tin = some id then s.setLid Lidder.leave else s

/-! ### The press cycle (R165, R166, R169) -/

/-- A lid leaves a magazine, and LID_LOW is set at a count of 5 or fewer. -/
def State.drawLid (s : State) (m : Fin 3) : State :=
  let s1 := s.setLid fun l =>
    { l with drawn := true, mags := updAt l.mags m fun x => { x with count := x.count - 1 } }
  let x := s1.lid.mags[m]
  if x.count ≤ 5 then
    s1.setFlag .lidLow [.num "magazine" (m.val + 1), .word "code" (lidName x.code), .num "count" x.count]
  else s1

/-- The press draws down for a cycle of 2.5 s. -/
def State.startCycle (s : State) : State :=
  s.setLid fun l =>
    { l with press := .pressing, attempt := max 1 l.attempt, cycleEnd := some (s.now + 2500 * Config.ms) }

/-- The conditions of a press cycle hold, but for the magazine. -/
def State.pressFree (s : State) : Bool :=
  s.lid.press == .waiting && !s.inp.guardOpen && !s.stopped && !(s.placeRec .z3).uncertain

/-- A press cycle starts where its conditions hold; the magazine is looked at again before a lid is drawn. -/
def State.pressLook (s : State) : State :=
  if s.pressFree then
    if s.lid.drawn then s.startCycle
    else
      match s.lid.mag with
      | none => s
      | some m =>
        if s.lid.code = some (s.lid.mags[m].code) ∧ s.inp.lids[m] then (s.drawLid m).startCycle
        else (s.setLid fun l => { l with mag := none }).lidSearch
  else s

/-- A cycle that ran in full is judged by the seat sensor (R165). -/
def State.judgeSeat (s : State) (seated : Bool) : State :=
  match s.lid.tin with
  | none => s
  | some id =>
    if seated then
      ((s.setTin id fun t => { t with lid := some .seated, route := some .mix }).readyTin id).setLid fun l =>
        { l with press := .lidded }
    else if s.lid.attempt ≤ 1 then s.setLid fun l => { l with attempt := 2, press := .waiting }
    else s.bypassTin id .notSeated

/-- The press cycle in flight ends: the tin is judged, and Z3's sensor is compared with its record (R150, R165). -/
def State.cycleEnds (s : State) (seated : Bool) : State :=
  match s.lid.cycleEnd with
  | none => s
  | some e => (((s.reach e).setLid fun l => { l with cycleEnd := none }).judgeSeat seated).zoneCompare .z3

/-- The press cycle in flight is abandoned (R166). -/
def State.abandonCycle (s : State) : State :=
  match s.lid.cycleEnd with
  | none => s
  | some _ => (s.setLid fun l => { l with press := .waiting, cycleEnd := none }).zoneCompare .z3

/-! ### LIDS (R168) -/

/-- The fields of one magazine (R168); their names are the model's: Assumption 13. -/
def State.magazineItems (s : State) (m : Fin 3) : List Item :=
  [ .word "code" (lidName s.lid.mags[m].code), .num "count" s.lid.mags[m].count,
    .word "sensor" (if s.inp.lids[m] then "LIDS" else "EMPTY") ]

/-- The magazine after a LIDS request: its code, and its count clamped to 0–80. -/
def Magazine.set (x : Magazine) (code : Option (Fin 3)) (count : Option Nat) : Magazine where
  code := code.getD x.code
  count := (count.map fun n => min 80 n).getD x.count

def State.putMagazine (s : State) (m : Fin 3) (code : Option (Fin 3)) (count : Option Nat) : State :=
  s.setLid fun l => { l with mags := updAt l.mags m fun x => x.set code count }

/-- The changes an accepted LIDS makes: a new code is queued, and the tin that waits looks again (R164). -/
def State.lidsEffect (s : State) (m : Fin 3) (code : Option (Fin 3)) (count : Option Nat) : State :=
  let s1 := s.putMagazine m code count
  match code with
  | some k => if k = s.lid.mags[m].code then s1 else (s1.linkWrite (.lidCode m k)).lidSearch
  | none => s1

/-- LIDS (R168). A count of any length is clamped (R222). -/
def lidsAnswer (fs : Fields) (s : State) : Answer :=
  let code := (fs.get "code").bind (code? "L" 3)
  let count := (fs.get "count").bind whole?
  .check (fs.malformed ["magazine", "code", "count"] ["magazine"] ["magazine"] || (fs.has "count" && count.isNone))
    .syntaxError <|
  match magazine? (fs.numD "magazine" 0) with
  | none => .refuse .range
  | some m =>
    .check (fs.unreadable "code" (code? "L" 3)) .range <|
    .check (code.isSome && !s.linkRoom 1) .busy <|
    let clamped : List Item := if count.any (fun n => n > 80) then [.bare "CLAMPED"] else []
    if code = none ∧ count = none then .report (s.magazineItems m)
    else .accept ((s.putMagazine m code count).magazineItems m ++ clamped) fun u => u.lidsEffect m code count

/-! ### LIDPOL and LIDDER (R170, R183) -/

def lidPolicyTable : List (String × LidPolicy) := [("HOLD", .hold), ("PASS", .pass)]

def LidPolicy.name : LidPolicy → String
  | .hold => "HOLD" | .pass => "PASS"

def State.setPolicy (s : State) (p : LidPolicy) : State :=
  ((s.setLid fun l => { l with policy := p }).linkWrite (.lidPolicy p)).lidSearch

/-- LIDPOL (R170). With a full link-write FIFO an equal mode is refused BUSY, and a request without mode= reports: R170
lists BUSY without a condition and answers an equal mode OK, and the order of the two is the model's choice:
Assumption 70. -/
def lidpolAnswer (fs : Fields) (s : State) : Answer :=
  .check (fs.malformed ["mode"] [] []) .syntaxError <|
  match fs.get "mode" with
  | none => .report [.word "mode" s.lid.policy.name]
  | some v =>
    match named? lidPolicyTable v with
    | none => .refuse .range
    | some p =>
      .check (!s.linkRoom 1) .busy <|
      .accept [] fun u => if u.lid.policy = p then u else u.setPolicy p

def PressState.name : PressState → String
  | .idle => "IDLE" | .waiting => "WAITING" | .waitingLid => "WAITING_LID" | .pressing => "PRESSING"
  | .lidded => "LIDDED"

/-- LIDDER (R183). -/
def lidderAnswer (fs : Fields) (s : State) : Answer :=
  .check (fs.malformed [] [] []) .syntaxError <|
  .report <|
    [ .word "state" s.lid.press.name, .parts "tin" [.opt s.lid.tin],
      .word "code" ((s.lid.code.map lidName).getD "NONE"), .num "attempt" s.lid.attempt,
      .parts "mag" [.opt (s.lid.mag.map fun m => m.val + 1)],
      .word "guard" (if s.inp.guardOpen then "OPEN" else "CLOSED"), .word "policy" s.lid.policy.name ]
      ++ (List.finRange 3).map fun m =>
        .parts ("mag" ++ toString (m.val + 1))
          [ .word (lidName s.lid.mags[m].code), .num s.lid.mags[m].count,
            .word (if s.inp.lids[m] then "LIDS" else "EMPTY") ]

/-! ### RESTART (R180) -/

def State.lidderRestart (s : State) : State := s.setLid Lidder.leave

end Sys2Proof.Machine
end

