-- ==== Sys2Proof/Machine/Mixers.lean ====
section
/-! DEFINITION. The Mixers: the choice of mixer, the mixer cycle, doors, STOP and RESUME, RESTART, and MIXERS
(sections 8.3 to 8.5). -/

namespace Sys2Proof.Machine

def mixes : List Mix := [.a, .b]

def State.doorIsOpen (s : State) (m : Mix) : Bool := s.inp.doors[m.ix]

/-! ### The choice (R171) -/

/-- The mixer is free. -/
def State.mixerFree (s : State) (m : Mix) : Bool :=
  let r := s.placeRec m.place
  (s.mixerRec m).state == .idle && !s.doorIsOpen m && r.tin.isNone && r.reserved.isNone && !r.uncertain
    && !s.shows m.place

/-- The free mixer that has been IDLE longer; MIXER A among equals. -/
def State.chosenMixer (s : State) : Option Mix :=
  match s.mixerFree .a, s.mixerFree .b with
  | true, true => if (s.mixerRec .b).idleSince < (s.mixerRec .a).idleSince then some .b else some .a
  | true, false => some .a
  | false, true => some .b
  | false, false => none

/-- The tin RESTING at a place with stage READY_TO_MOVE. -/
def State.restingReady (s : State) (p : Place) : Option Tin :=
  let r := s.placeRec p
  if r.arriving then none
  else
    match r.tin.bind s.tin? with
    | some t => if t.stage = .readyToMove then some t else none
    | none => none

/-- The same at a place that is not UNCERTAIN: the tin can take its next step. -/
def State.readyAt (s : State) (p : Place) : Option Tin :=
  if (s.placeRec p).uncertain then none else s.restingReady p

/-- A mixer is reserved for the tin. -/
def State.mixerReserved (s : State) (id : Nat) : Bool :=
  mixes.any fun m => (s.placeRec m.place).reserved == some id

/-- Reserve the mixer for the tin at Z4; its state becomes LOADING. -/
def State.reserveMixer (s : State) (m : Mix) (id : Nat) : State :=
  (s.setPlace m.place fun r => { r with reserved := some id }).setMixer m fun x =>
    { x with state := .loading, tin := some id }

/-- The Mixers choose for a tin that waits at Z4 with route MIX. -/
def State.mixerChoose (s : State) : State :=
  match s.readyAt .z4 with
  | some t =>
    if t.route = some .mix ∧ ¬s.mixerReserved t.id then
      match s.chosenMixer with
      | some m => s.reserveMixer m t.id
      | none => s
    else s
  | none => s

/-! ### The steps of a mixer (R172, R173) -/

def Mixer.begin (x : Mixer) (g : MixerState) (c : Clamp) (now length : Nat) : Mixer :=
  { x with state := g, clamp := c, since := now, ends := now + length }

/-- The mixer becomes IDLE, idle since now (R174, R179). -/
def Mixer.idle (x : Mixer) (now : Nat) : Mixer :=
  { x with
    state := .idle
    tin := none
    clamp := .opened
    program := none
    elapsed := 0
    interrupted := false
    pending := none
    brakeTo := none
    causes := []
    resumeTaken := false
    idleSince := now }

def State.idleMixer (s : State) (m : Mix) : State := s.setMixer m fun x => x.idle s.now

/-- A stop cause joins the set, and resume taken becomes no. The set keeps its causes in the order they joined, which is
the order CAUSES shows (R184): Assumption 61. -/
def Mixer.addCause (x : Mixer) (c : StopCause) : Mixer :=
  { x with causes := if c ∈ x.causes then x.causes else x.causes ++ [c], resumeTaken := false }

/-- The mixer is STOPPED with a pending step. -/
def Mixer.stopAt (x : Mixer) (p : PendingStep) : Mixer := { x with state := .stopped, pending := some p }

/-- The mix duration of the tin's size for the mix class of its base, in s (R172). -/
def State.programOf (s : State) (t : Tin) : Nat :=
  match t.size.bind (fun z => s.lib.sizes[z]), t.base.bind (fun b => s.lib.bases[b]) with
  | some z, some b => if b.mixClass ≤ 1 then z.mix1 else if b.mixClass = 2 then z.mix2 else z.mix3
  | some z, none => z.mix1
  | none, _ => 0

def mixName : Mix → String
  | .a => "A" | .b => "B"

def MixerState.name : MixerState → String
  | .idle => "IDLE" | .loading => "LOADING" | .clamping => "CLAMPING" | .mixing => "MIXING" | .braking => "BRAKING"
  | .unclamping => "UNCLAMPING" | .holding => "HOLDING" | .stopped => "STOPPED"

/-- MIXER_DOOR, with the state at the opening (R175). mixer= is A or B: Assumption 61. -/
def State.flagDoor (s : State) (m : Mix) (g : MixerState) : State :=
  s.setFlag .mixerDoor [.word "mixer" (mixName m), .word "state" g.name]

/-- The causes that keep a tin handed over now from being clamped, DOOR first (Assumption 61). -/
def State.handoverCauses (s : State) (m : Mix) : List StopCause :=
  (if s.doorIsOpen m then [.door] else []) ++ (if s.stopped then [.stop] else [])

/-- The Mixers take the tin that has arrived (R172). -/
def State.mixerTake (s : State) (m : Mix) (id : Nat) : State :=
  match s.tin? id with
  | none => s
  | some t =>
    let causes := s.handoverCauses m
    let s1 := (s.stageTin id .mixing).setMixer m fun x =>
      let x' := { x with
        tin := some id, program := some (s.programOf t), elapsed := 0, interrupted := false, resumeTaken := false }
      if causes = [] then x'.begin .clamping .moving s.now (3 * Config.sec)
      else { x'.stopAt .clamp with causes := causes }
    if s.doorIsOpen m then s1.flagDoor m .loading else s1

/-- The mixing time left of the program, in µs. -/
def Mixer.left (x : Mixer) : Nat := x.program.getD 0 * Config.sec - x.elapsed

/-- Run a pending step with the stop causes cleared (R177). -/
def Mixer.continue (x : Mixer) (now : Nat) : Mixer :=
  let x' := { x with causes := [], pending := none, resumeTaken := false }
  match x.pending with
  | some .clamp => x'.begin .clamping .moving now (3 * Config.sec)
  | some .mix => x'.begin .mixing .closed now x.left
  | some .unclamp => x'.begin .unclamping .moving now (2 * Config.sec)
  | none => x

/-- The mixer has been in a step since a moment and leaves MIXING now: elapsed takes the time run, and MIX will be pending
when the braking ends. -/
def Mixer.interrupt (x : Mixer) (now : Nat) : Mixer :=
  { x with
    elapsed := min (x.elapsed + (now - x.since)) (x.program.getD 0 * Config.sec)
    interrupted := true
    brakeTo := some .mix }.begin .braking .closed now (3 * Config.sec)

/-- CLAMPING ends: the motor runs for the time the program leaves. -/
def State.clampEnds (s : State) (m : Mix) : State :=
  let x := s.mixerRec m
  if x.state = .clamping then
    (s.reach x.ends).setMixer m fun y => y.begin .mixing .closed (max s.now x.ends) y.left
  else s

/-- MIXING ends: elapsed has reached the program, and the mixer brakes. -/
def State.mixEnds (s : State) (m : Mix) : State :=
  let x := s.mixerRec m
  if x.state = .mixing then
    (s.reach x.ends).setMixer m fun y =>
      { y with elapsed := y.program.getD 0 * Config.sec }.begin .braking .closed (max s.now x.ends) (3 * Config.sec)
  else s

/-- The braking of a mixer that is to stop has ended: it is STOPPED, with MIX pending after an interruption and UNCLAMP
after a completed program (R175). -/
def Mixer.braked (x : Mixer) : Mixer := { x.stopAt (x.brakeTo.getD .unclamp) with brakeTo := none }

/-- BRAKING ends: the clamp opens after a completed program; a braking that stops the mixer ends STOPPED, or goes on
where RESUME has been taken (R173, R175, R177). -/
def State.brakeEnds (s : State) (m : Mix) : State :=
  let x := s.mixerRec m
  if x.state = .braking then
    let now := max s.now x.ends
    (s.reach x.ends).setMixer m fun y =>
      if y.causes = [] then y.begin .unclamping .moving now (2 * Config.sec)
      else if y.resumeTaken then y.braked.continue now
      else y.braked
  else s

/-- The mix result of a finished cycle (R173). -/
def Mixer.result (x : Mixer) (m : Mix) (done : Bool) : MixResult where
  done := done
  mixer := m
  program := x.program.getD 0
  elapsed := x.elapsed
  interrupted := x.interrupted

/-- HOLDING is reached: an ordered tin takes its mix result and is READY_TO_MOVE; a cradle without a record makes the
mixer IDLE; the cradle sensor is compared once (R173, R178). -/
def State.reachHolding (s : State) (m : Mix) : State :=
  let x := s.mixerRec m
  let s1 := s.setMixer m fun y => { y with state := .holding, clamp := .opened }
  match (s1.placeRec m.place).tin with
  | none => (s1.idleMixer m).cradleCompare m
  | some id =>
    let s2 := match s1.tin? id with
      | some t =>
        if t.stage = Stage.orphan then s1
        else (s1.setTin id fun t => { t with mix := some (x.result m true) }).readyTin id
      | none => s1
    s2.cradleCompare m

/-- UNCLAMPING ends. -/
def State.unclampEnds (s : State) (m : Mix) : State :=
  let x := s.mixerRec m
  if x.state = .unclamping then (s.reach x.ends).reachHolding m else s

/-! ### Doors, STOP and RESUME (R175 to R177) -/

/-- The door or the STOP input stops the mixer. -/
def Mixer.stopBy (x : Mixer) (c : StopCause) (now : Nat) : Mixer :=
  match x.state with
  | .idle | .loading | .holding => x
  | .clamping => (x.stopAt .clamp).addCause c
  | .mixing => (x.interrupt now).addCause c
  | .braking => x.addCause c
  | .unclamping => (x.stopAt .unclamp).addCause c
  | .stopped => x.addCause c

/-- The door of a mixer opens (R175). -/
def State.doorOpens (s : State) (m : Mix) : State :=
  let x := s.mixerRec m
  let s1 := s.setMixer m fun y => y.stopBy .door s.now
  match x.state with
  | .idle | .loading | .holding => s1
  | g => s1.flagDoor m g

/-- The STOP input becomes active (R176). -/
def State.mixerStop (s : State) (m : Mix) : State := s.setMixer m fun y => y.stopBy .stop s.now

/-- A mixer that STOPPED or a braking that leads there (R229). A braking counts also where RESUME has been taken for it:
Assumption 63. -/
def Mixer.halting (x : Mixer) : Bool := x.state == .stopped || (x.state == .braking && x.causes != [])

/-- RESUME is taken (R177). -/
def State.mixerResume (s : State) (m : Mix) : State :=
  if s.doorIsOpen m then s
  else
    s.setMixer m fun x =>
      match x.state with
      | .stopped => x.continue s.now
      | .braking => if x.causes = [] then x else { x with resumeTaken := true }
      | _ => x

/-! ### RESTART (R182) -/

/-- A tin that a mixer had taken and not brought to HOLDING gets the mix result ABORTED. A tin a mixer has taken had an
order; an orphan made from a presence has none. -/
def State.abortMix (s : State) (m : Mix) (x : Mixer) : State :=
  match x.tin, x.program with
  | some id, some _ => s.setTin id fun t => if t.order.isSome then { t with mix := some (x.result m false) } else t
  | _, _ => s

/-- The mixer is HOLDING with an orphan; its stop causes and pending step are absent, and the rest stands. -/
def Mixer.keepOrphan (x : Mixer) (id : Nat) : Mixer :=
  { x with state := .holding, tin := some id, clamp := .opened, pending := none, causes := [] }

/-- The mixer stands HOLDING with the orphan at its place, or IDLE where there is none. -/
def State.holdOrIdle (s : State) (m : Mix) : State :=
  match (s.placeRec m.place).tin with
  | some id => s.setMixer m fun x => x.keepOrphan id
  | none => s.idleMixer m

/-- RESTART stops a mixer whose clamp is not OPEN, with the record that now stands in its cradle as its tin. -/
def Mixer.restartWith (x : Mixer) (id : Option Nat) : Mixer := ({ x with tin := id } : Mixer).addCause .restart

/-- RESTART reaches the mixer, once the Tin Track has rebuilt its places (R160, R182). -/
def State.mixerRestart (s : State) (m : Mix) : State :=
  let x := s.mixerRec m
  let id := (s.placeRec m.place).tin
  match x.state with
  | .idle =>
    match (s.placeRec m.place).tin with
    | some id => s.holdOrphan m id
    | none => s
  | .loading | .holding => s.holdOrIdle m
  | .clamping | .unclamping =>
    (s.abortMix m x).setMixer m fun y => { y.stopAt .unclamp with causes := [] }.restartWith id
  | .mixing =>
    let y := { x.interrupt s.now with interrupted := x.interrupted }
    (s.abortMix m y).setMixer m fun _ => { y with brakeTo := none, causes := [] }.restartWith id
  | .braking =>
    (s.abortMix m x).setMixer m fun y => { y with brakeTo := none, causes := [] }.restartWith id
  | .stopped =>
    if x.clamp = .opened then (s.abortMix m x).holdOrIdle m
    else (s.abortMix m x).setMixer m fun y => { y with pending := some .unclamp }.restartWith id

/-! ### MIXERS (R184) -/

def Clamp.name : Clamp → String
  | .opened => "OPEN" | .closed => "CLOSED" | .moving => "MOVING"

def PendingStep.name : PendingStep → String
  | .clamp => "CLAMP" | .mix => "MIX" | .unclamp => "UNCLAMP"

def StopCause.name : StopCause → String
  | .door => "DOOR" | .stop => "STOP" | .power => "POWER" | .restart => "RESTART"

/-- The mixing time run so far: while MIXING, up to this moment. -/
def Mixer.elapsedNow (x : Mixer) (now : Nat) : Nat :=
  if x.state = .mixing then min (x.elapsed + (now - x.since)) (x.program.getD 0 * Config.sec) else x.elapsed

def State.mixerItem (s : State) (m : Mix) : Item :=
  let x := s.mixerRec m
  .parts ("mix" ++ mixName m)
    [ .word x.state.name, .opt x.tin, .word x.clamp.name, .word (openClosed (!s.doorIsOpen m)),
      .num (x.program.getD 0), .num (x.elapsedNow s.now / Config.sec),
      .word ((x.pending.map PendingStep.name).getD "NONE"),
      if x.causes = [] then .word "NONE" else .plus (x.causes.map StopCause.name),
      .num (if x.state = .idle then (s.now - x.idleSince) / Config.sec else 0) ]

/-- MIXERS (R184). -/
def mixersAnswer (fs : Fields) (s : State) : Answer :=
  .check (fs.malformed [] [] []) .syntaxError <| .report (mixes.map s.mixerItem)

end Sys2Proof.Machine
end

