-- ==== Sys2Proof/Machine/Station.lean ====
section
/-! DEFINITION. The Dispense Station: the head cap, the check scale, dosing at Z2, the weight check, calibration runs,
admission, and the requests SCALE, CALRUN, CALTAKE, CALREAD and STATION (chapter 6). -/

namespace Sys2Proof.Machine

def State.setStn (s : State) (f : Station → Station) : State := { s with stn := f s.stn }

/-! ### Claims and the closing delay (R119, R120) -/

/-- An open claim stands: a job tin's or a calibration run's. -/
def Station.claim (t : Station) : Bool := t.tin.isSome || t.cal.isSome

def capMotion : Nat := 2 * Config.sec
def closingTime : Nat := 60 * Config.sec
def settleTime : Nat := 1500 * Config.ms

/-- The last open claim has ended: the closing delay starts where the cap is OPEN. -/
def Station.claimEnds (t : Station) (now : Nat) : Station :=
  if t.cap = .opened then { t with delay := .running (now + closingTime) } else t

/-- The job returns to IDLE: the reservation is dropped, the claim ends, and an admission attempt is owed
(R114, R128). -/
def State.jobIdle (s : State) : State :=
  let id := s.stn.tin
  let s1 := s.setPlace .z2 fun r => if r.reserved = id then { r with reserved := none } else r
  s1.setStn fun t => { t with job := .idle, tin := none, markerAsked := false, attemptOwed := true }.claimEnds s.now

/-- The job tin's record has been removed, in whatever job: the marker clear is asked for if a set was (R118, R151). -/
def State.jobTinRemoved (s : State) : State :=
  (if s.stn.markerAsked then s.askMarkerClear else s).jobIdle

/-- An attempt is owed: an event of R114 has been taken. -/
def State.oweAttempt (s : State) : State := s.setStn fun t => { t with attemptOwed := true }

/-! ### Settles (R122) -/

/-- A settle begins, or waits for RESUME on a stopped machine. -/
def State.beginSettle (s : State) : State :=
  s.setStn fun t => { t with settle := if s.stopped then .held else .running (s.now + settleTime) }

/-- The job tin has arrived: PREPARING, with the tare at once (R118, R123). -/
def State.beginPreparing (s : State) (id : Nat) : State :=
  ((s.stageTin id .preparing).setStn fun t => { t with job := .preparing }).beginSettle

/-! ### Dosing (R124, R125) -/

/-- The entry cannot be run: 0 steps, NOT_RUN, and the tin is noted SHORT_DOSE. -/
def State.notRun (s : State) (id k : Nat) : State :=
  (s.setEntry id k fun e => { e with handing := .ended, run := some .notRun }).noteTin id .shortDose

/-- Hand a dose, judged by its circuit's state now; `compared` says that its lot has been compared. -/
def State.handDose (s : State) (id k : Nat) (e : DoseEntry) (compared : Bool) : State :=
  if (s.circuit e.circuit).inService then
    let s1 := if compared then s else s.compareLot id k e.circuit
    let x := s1.askPump e.circuit ⟨.dose, .tin id k, e.planned⟩
    if x.2 then x.1.setEntry id k fun e => { e with handing := .handed }
    else x.1.setEntry id k fun e => { e with handing := .again true }
  else s.notRun id k

/-- A dose of the tin is in flight on the circuit. -/
def inFlightOn (es : List DoseEntry) (c : Circ) : Bool := es.any fun e => e.circuit == c && e.handing == .handed

/-- Look at one entry of the job tin: it is handed, or handed again once its pump is idle. -/
def State.lookEntry (s : State) (id k : Nat) : State :=
  match (s.tin? id).bind fun t => t.entries[k]?.map fun e => (t, e) with
  | none => s
  | some (t, e) =>
    match e.handing with
    | .notYet => if inFlightOn t.entries e.circuit then s else s.handDose id k e false
    | .again compared =>
      if inFlightOn t.entries e.circuit || (s.pump e.circuit).activity.isSome then s
      else s.handDose id k e compared
    | .handed | .ended => s

/-- The tin's entries in authored order. -/
def State.lookEntries (s : State) (id : Nat) : State :=
  (List.range (((s.tin? id).map fun t => t.entries.length).getD 0)).foldl (fun u k => u.lookEntry id k) s

/-! ### Weighing and the dose check (R126 to R128) -/

/-- The measured mass: the reading minus the tare, absent when either is OVER. -/
def measured (tare : Option Reading) (r : Reading) : Option Int :=
  match tare, r with
  | some (.mg t), .mg n => some ((n : Int) - t)
  | _, _ => none

/-- The weight check lies outside the larger of 200 mg and 2 % of E. -/
def deviates (e : Nat) (m : Int) : Bool := max 10000 e < 50 * (m - e).natAbs

/-- The weight check is decided: the marker clear is asked for, the tin is READY_TO_MOVE, and the job is OUTBOUND. Z2's
sensor is then compared with its record (R128, R150). -/
def State.checkDecided (s : State) (id : Nat) (v : Verdict) : State :=
  let s1 := s.setTin id fun t => { t with weight := { t.weight with verdict := some v } }
  let s2 := if s1.stn.markerAsked then s1.askMarkerClear else s1
  ((s2.readyTin id).setStn fun t => { t with job := .outbound }).zoneCompare .z2

/-- A deviation: the note, the flag and the report to the Order Book (R127). -/
def State.deviation (s : State) (id e : Nat) (m : Int) : State :=
  match (s.tin? id).bind (·.order) with
  | some (n, _) =>
    ((s.noteTin id .weightDeviation).setFlag .weightDeviation
      [.num "tin" id, .num "line" n, .num "expected" e, .int "measured" m]).holdWeight n
  | none => s.noteTin id .weightDeviation

/-- The weighing of the job tin has its reading. -/
def State.weighed (s : State) (id : Nat) (r : Reading) : State :=
  let e := (((s.tin? id).bind fun t => t.weight.expected)).getD 0
  match measured s.stn.tare r with
  | none => s.checkDecided id .uncheckedOverRange
  | some m =>
    let s1 := s.setTin id fun t => { t with weight := { t.weight with measured := some m } }
    if deviates e m then (s1.deviation id e m).checkDecided id .deviation else s1.checkDecided id .pass

/-- The expected mass of a tin (R58). -/
def Tin.expectedMass (t : Tin) : Nat := (t.entries.map (·.mass)).sum

/-- WEIGHING begins: the expected mass is formed, and the check is UNCHECKED or the scale settles (R126). That the cause is
LIGHT where the tare read OVER as well is the model's choice: Assumption 57. -/
def State.beginWeighing (s : State) (t : Tin) : State :=
  let e := t.expectedMass
  let s1 := (s.setTin t.id fun t =>
    { t with stage := .weighing, weight := { t.weight with expected := some e } }).setStn fun x =>
      { x with job := .weighing }
  if e < 500 then s1.checkDecided t.id .uncheckedLight
  else if s.stn.tare = some .over then s1.checkDecided t.id .uncheckedOverRange
  else s1.beginSettle

/-- DOSING ends when every entry has ended (R125). -/
def State.dosingLook (s : State) (id : Nat) : State :=
  let s1 := s.lookEntries id
  match s1.tin? id with
  | some t => if t.entries.all (fun e => e.handing == .ended) then s1.beginWeighing t else s1
  | none => s1

/-! ### Calibration runs (R131) -/

def CalCause.name : CalCause → String
  | .shortRun => "SHORT_RUN" | .lowMass => "LOW_MASS" | .changed => "CHANGED"

def CalStatus.name : CalStatus → String
  | .ok => "OK" | .outOfRange => "OUT_OF_RANGE" | .failed _ => "FAILED"

/-- The fields of CAL_DONE (R131). That the notice of a FAILED result, which has no new trim (R62), carries no trim=, where
CALREAD shows NONE (R134), is the model's choice: Assumption 61. -/
def CalResult.items (r : CalResult) : List Item :=
  [.num "circuit" (circNo r.circuit), .word "status" r.status.name]
    ++ (match r.status with
      | .failed c => [.word "cause" c.name]
      | _ => [])
    ++ (match r.trim with
      | some t => [.signed "trim" t]
      | none => [])
    ++ [.int "mass" r.mass]

/-- The result is formed: the run ends, the job is IDLE, the claim ends, and CAL_DONE is set. -/
def State.calFinished (s : State) (q : CalRun) (m : Int) : State :=
  let r := q.result m
  (State.setStn { s with calResult := some r } fun t =>
    { t with job := .idle, cal := none, attemptOwed := true }.claimEnds s.now).setFlag .calDone r.items

/-- CAL_WEIGHING begins; a run of 0 steps has M = 0 at once. -/
def State.calWeighing (s : State) (q : CalRun) : State :=
  if q.delivered = 0 then s.calFinished q 0
  else (s.setStn fun t => { t with job := .calWeighing }).beginSettle

/-- Hand the CAL activity, or go on with 0 steps where the circuit is in neither READY nor EMPTY. -/
def State.handCal (s : State) (q : CalRun) : State :=
  if (s.circuit q.circuit).inService then
    let x := s.askPump q.circuit ⟨.dose, .cal, q.steps⟩
    x.1.setStn fun t =>
      { t with cal := t.cal.map fun r => { r with handing := if x.2 then .handed else .again true } }
  else s.calWeighing q

/-- CAL_RUNNING: the activity is handed, handed again, or has ended. -/
def State.calRunning (s : State) (q : CalRun) : State :=
  match q.handing with
  | .notYet => s.handCal q
  | .again _ => if (s.pump q.circuit).activity.isSome then s else s.handCal q
  | .handed => s
  | .ended => s.calWeighing q

/-- The tare has ended and the cap is OPEN. -/
def Station.prepared (t : Station) : Bool := t.settle == .off && t.cap == .opened

/-- Both parts of CAL_PREPARING have ended. -/
def State.calPrepared (s : State) (q : CalRun) : State :=
  if s.stn.tare = some .over then s.calWeighing q else (s.setStn fun t => { t with job := .calRunning }).calRunning q

/-! ### The job's progress (R123 to R125, R131) -/

/-- Take the job on as far as it can go now. -/
def State.stationLook (s : State) : State :=
  match s.stn.job, s.stn.tin, s.stn.cal with
  | .preparing, some id, _ =>
    if s.stn.prepared then ((s.stageTin id .dosing).setStn fun t => { t with job := .dosing }).dosingLook id else s
  | .dosing, some id, _ => s.dosingLook id
  | .calPreparing, _, some q => if s.stn.prepared then s.calPrepared q else s
  | .calRunning, _, some q => s.calRunning q
  | _, _, _ => s

/-- A settle ends with a reading: a tare is stored, or a weighing is judged. -/
def State.settleEnds (s : State) (r : Reading) : State :=
  match s.stn.settle with
  | .running e =>
    let s1 := (s.reach e).setStn fun t => { t with settle := .off, reading := some r }
    match s.stn.job, s.stn.tin, s.stn.cal with
    | .preparing, _, _ => s1.setStn fun t => { t with tare := some r }
    | .calPreparing, _, _ => s1.setStn fun t => { t with tare := some r }
    | .weighing, some id, _ => s1.weighed id r
    | .calWeighing, _, some q => s1.calFinished q ((measured s.stn.tare r).getD 0)
    | _, _, _ => s1
  | _ => s

/-! ### The cap (R119 to R121) -/

/-- A close cause stands: a purge due on any circuit, or a prime that waits for the cap. -/
def State.closeCause (s : State) : Bool :=
  s.stn.delay == .expired || allCircuits.any (fun c => (s.circuit c).purgeDue.isSome) || s.primeWaits

/-- The next motion of a cap at rest, on a machine that is not stopped. As the cap leaves closed every purge is
abandoned (R104). That a closing delay still running stops as CLOSING begins, for a purge due or a prime that waits, is the
model's choice: Assumption 71. -/
def State.capDecide (s : State) : State :=
  if s.stopped then s
  else
    match s.stn.cap with
    | .closed =>
      if s.stn.claim then (s.setStn fun t => { t with cap := .opening (s.now + capMotion) }).abandonPurges else s
    | .opened =>
      if !s.stn.claim && s.closeCause then
        s.setStn fun t => { t with cap := .closing (s.now + capMotion), delay := .off }
      else s
    | _ => s

/-- A motion that reaches OPEN with no claim starts the closing delay (R120). -/
def Station.reachOpen (t : Station) (now : Nat) : Station :=
  let t' := { t with cap := .opened }
  if t'.claim then t' else { t' with delay := .running (now + closingTime) }

/-- The closing delay runs out. -/
def State.delayEnds (s : State) : State :=
  match s.stn.delay with
  | .running e => (s.reach e).setStn fun t => { t with delay := .expired }
  | _ => s

/-- STOP reaches the station: a cap motion halts, and a settle is abandoned (R121, R122). -/
def Station.stop (t : Station) : Station :=
  { t with
    cap := match t.cap with
      | .opening _ => .halted .opened
      | .closing _ => .halted .closed
      | c => c
    settle := match t.settle with
      | .running _ => .held
      | x => x }

/-- RESUME reaches the station: a halted motion and an abandoned settle run again in full (R121, R122). -/
def Station.resume (t : Station) (now : Nat) : Station :=
  { t with
    cap := match t.cap with
      | .halted .opened => .opening (now + capMotion)
      | .halted .closed => .closing (now + capMotion)
      | c => c
    settle := match t.settle with
      | .held => .running (now + settleTime)
      | x => x
    attemptOwed := true }

/-! ### Admission (R114 to R117) -/

/-- Z2 can take the tin, by the condition of R115. That R115 is followed where R143 asks of a destination also that its
sensor shows no tin is the model's choice: Assumption 65. The move waits for that sensor in any case. -/
def State.z2Free (s : State) : Bool :=
  let r := s.placeRec .z2
  r.tin.isNone && !r.departing && !r.uncertain && r.reserved.isNone

/-- The tin's line is neither HELD nor CANCELLED. -/
def State.lineGoes (s : State) (n : Nat) : Bool :=
  match s.line? n with
  | some l => l.state != .held && l.state != .cancelled
  | none => false

/-- The conditions that do not depend on the plan and fail now (R115). -/
def State.failedConditions (s : State) (n : Nat) : List WaitReason :=
  (if s.stopped then [.stopped] else []) ++ (if s.z2Free then [] else [.z2])
    ++ (if s.stn.scale = .doseCheck ∧ s.stn.cal = none then [] else [.scale])
    ++ (if s.lineGoes n then [] else [.line])

/-- Admission: the plan is committed, Z2 is reserved, the marker set is asked for, and the cap is claimed (R117). -/
def State.admitTin (s : State) (t : Tin) (l : OrderLine) (plan : List Judged) : State :=
  let es := s.doseEntries l plan
  let s1 := (s.commitPlan l plan).setTin t.id fun t => { t with entries := es }
  let s2 := (planNotes es).foldl (fun u n => u.noteTin t.id n) s1
  let s3 := (s2.readyTin t.id).setPlace .z2 fun r => { r with reserved := some t.id }
  let needed := neededCircuits es
  let s4 := if needed = [] then s3 else s3.askMarkerSet ⟨[t.id], planVolumes es⟩
  s4.setStn fun x =>
    { x with
      job := .inbound
      tin := some t.id
      waiting := []
      delay := .off
      markerAsked := needed != [] }

/-- The attempt judges the plan (R116). -/
def State.judgePlan (s : State) (t : Tin) (l : OrderLine) (plan : List Judged) : State :=
  match holdOf plan with
  | some c => (s.holdCircuit l.number c).setStn fun x => { x with waiting := [.circuit] }
  | none =>
    if (neededCircuits (s.doseEntries l plan)).any fun c => (s.circuit c).purgeDue.isSome then
      s.setStn fun x => { x with waiting := [.purge] }
    else s.admitTin t l plan

/-- An admission attempt (R115, R116). -/
def State.attempt (s : State) : State :=
  match s.waitingTin with
  | none => s
  | some (t, n, k) =>
    match s.failedConditions n, s.line? n with
    | [], some l => s.judgePlan t l (s.plan l (k == l.limit))
    | ws, _ => s.setStn fun x => { x with waiting := ws }

/-- The attempt owed in this step is made. -/
def State.attemptLook (s : State) : State :=
  if s.stn.attemptOwed then (s.setStn fun t => { t with attemptOwed := false }).attempt else s

/-! ### SCALE (R129) -/

def scaleTable : List (String × ScaleMode) := [("DOSE_CHECK", .doseCheck), ("CALIBRATION", .calibration)]

def ScaleMode.name : ScaleMode → String
  | .doseCheck => "DOSE_CHECK" | .calibration => "CALIBRATION"

/-- A calibration run is in flight, or Z2 holds or awaits a tin, or is UNCERTAIN. -/
def State.scaleBusy (s : State) : Bool :=
  let r := s.placeRec .z2
  s.stn.cal.isSome || r.tin.isSome || r.reserved.isSome || r.uncertain

/-- The scale is assigned anew. -/
def State.assignScale (s : State) (m : ScaleMode) : State :=
  let s1 := s.setStn fun t => { t with scale := m, tare := none }
  match m with
  | .doseCheck => (s1.zoneCompare .z2).oweAttempt
  | .calibration => s1

/-- SCALE (R129). That the assignment in force is refused BUSY too while the scale is in use is read from the order of
checks: Assumption 17. -/
def scaleAnswer (fs : Fields) (s : State) : Answer :=
  .check (fs.malformed ["mode"] [] []) .syntaxError <|
  match fs.get "mode" with
  | none => .report [.word "mode" s.stn.scale.name]
  | some v =>
    match named? scaleTable v with
    | none => .refuse .range
    | some m =>
      .check s.scaleBusy .busy <| .accept [] fun u => if u.stn.scale = m then u else u.assignScale m

/-! ### CALRUN (R130) -/

/-- The circuit has a pump activity other than a PURGE or a standalone REFILL. -/
def Pump.calBusy (p : Pump) : Bool :=
  match p.activity with
  | some a => a.kind == .dose || a.kind == .prime
  | none => false

/-- The calibration run begins: the result is absent, and the cap is claimed. -/
def State.beginCal (s : State) (c : Circ) (target n : Nat) : State :=
  let g := (s.circuit c).cfg
  (State.setStn { s with calResult := none } fun t =>
    { t with
      job := .calPreparing
      delay := .off
      cal := some
        { circuit := c, target := target, steps := n, k := g.k, density := g.density, delivered := 0
          changed := false, handing := .notYet } }).beginSettle

/-- CALRUN (R130). -/
def calrunAnswer (fs : Fields) (s : State) : Answer :=
  .check (fs.malformed ["circuit", "vol", "cup"] ["circuit", "vol"] ["circuit", "vol"]) .syntaxError <|
  match circ? (fs.numD "circuit" 0) with
  | none => .refuse .range
  | some c =>
    let v := fs.numD "vol" 0
    .check (!within 1000 50000 v) .range <|
    .check s.stopped .stopped <|
    .check (s.stn.scale != .calibration || fs.get "cup" != some (txt "YES") || (s.circuit c).state != .ready) .state <|
    .check (s.stn.cal.isSome || (s.pump c).calBusy) .busy <|
    let n := calSteps v (s.circuit c).cfg.k
    .check ((s.circuit c).level < (s.circuit c).cfg.reserve + roundHalfUp (n * 1000) (s.circuit c).cfg.k) .empty <|
    .accept [.num "circuit" (circNo c), .num "n" n] fun u => u.beginCal c v n

/-! ### CALTAKE and CALREAD (R133, R134) -/

/-- CALTAKE (R133). -/
def caltakeAnswer (fs : Fields) (s : State) : Answer :=
  .check (fs.malformed [] [] []) .syntaxError <|
  match s.calResult with
  | none => .refuse .notFound
  | some r =>
    match r.trim with
    | none => .refuse .state
    | some t =>
      .check (!s.linkRoom 1) .busy <|
      .accept ([.signed "trim" t, (s.circuit r.circuit).applied]
        ++ if r.status = .outOfRange then [.bare "CLAMPED"] else []) fun u => u.trimEffect r.circuit t

def Job.name : Job → String
  | .idle => "IDLE" | .inbound => "INBOUND" | .preparing => "PREPARING" | .dosing => "DOSING"
  | .weighing => "WEIGHING" | .outbound => "OUTBOUND" | .calPreparing => "CAL_PREPARING"
  | .calRunning => "CAL_RUNNING" | .calWeighing => "CAL_WEIGHING"

/-- The steps the run has delivered so far: its activity's count while it runs. -/
def State.calDelivered (s : State) (q : CalRun) : Nat :=
  match (s.pump q.circuit).activity with
  | some a => if a.owner = .cal then a.delivered else q.delivered
  | none => q.delivered

/-- CALREAD (R134); its field names are Assumption 13. -/
def calreadAnswer (fs : Fields) (s : State) : Answer :=
  .check (fs.malformed [] [] []) .syntaxError <|
  match s.stn.cal, s.calResult with
  | some q, _ =>
    .report
      [ .word "run" "YES", .num "circuit" (circNo q.circuit), .num "vol" q.target, .num "n" q.steps,
        .num "delivered" (s.calDelivered q), .word "job" s.stn.job.name ]
  | none, some r =>
    .report
      [ .num "circuit" (circNo r.circuit), .num "vol" r.target, .num "n" r.steps, .num "delivered" r.delivered,
        .int "mass" r.mass, .parts "trim" [.optInt r.trim], .word "status" r.status.name,
        .word "cause" (match r.status with
          | .failed c => c.name
          | _ => "NONE") ]
  | none, none => .report [.bare "EMPTY"]

/-! ### STATION (R138) -/

def WaitReason.name : WaitReason → String
  | .stopped => "STOPPED" | .z2 => "Z2" | .scale => "SCALE" | .line => "LINE" | .circuit => "CIRCUIT"
  | .purge => "PURGE"

def capAtoms : Cap → List Atom
  | .closed => [.word "CLOSED"]
  | .opening _ => [.word "OPENING"]
  | .opened => [.word "OPEN"]
  | .closing _ => [.word "CLOSING"]
  | .halted .opened => [.word "HALTED", .word "OPEN"]
  | .halted .closed => [.word "HALTED", .word "CLOSED"]

def readingAtom : Option Reading → Atom
  | none => .word "NONE"
  | some .over => .word "OVER"
  | some (.mg n) => .num n

/-- The whole seconds of closing delay left, or OFF; 0 for a delay that has run out and whose closure waits for RESUME:
Assumption 53. -/
def State.delayAtom (s : State) : Atom :=
  match s.stn.delay with
  | .off => .word "OFF"
  | .running e => .num ((e - s.now) / Config.sec)
  | .expired => .num 0

def Verdict.atoms : Verdict → List Atom
  | .pass => [.word "PASS"]
  | .deviation => [.word "DEVIATION"]
  | .uncheckedLight | .uncheckedOverRange => [.word "UNCHECKED"]

/-- The weight fields of a tin in WEIGHING or OUTBOUND; an UNCHECKED tin shows check= without measured=: Assumption 53. -/
def State.weightShown (s : State) : List Item :=
  match (if s.stn.job = .weighing ∨ s.stn.job = .outbound then s.stn.tin.bind s.tin? else none) with
  | none => []
  | some t =>
    [.num "expected" (t.weight.expected.getD 0)]
      ++ (match t.weight.measured with
        | some m => [.int "measured" m]
        | none => [])
      ++ (match t.weight.verdict with
        | some v => [.parts "check" v.atoms]
        | none => [])

/-- STATION (R138). -/
def stationAnswer (fs : Fields) (s : State) : Answer :=
  .check (fs.malformed [] [] []) .syntaxError <|
  .report <|
    [ .word "job" s.stn.job.name, .parts "tin" [.opt s.stn.tin],
      .parts "reserved" [.opt (s.placeRec .z2).reserved], .parts "z1" [.opt (s.placeRec .z1).tin],
      Item.listOrNone "wait" (s.stn.waiting.map fun w => [.word w.name]), .parts "cap" (capAtoms s.stn.cap),
      .parts "delay" [s.delayAtom], .word "scale" s.stn.scale.name, .parts "tare" [readingAtom s.stn.tare],
      .parts "reading" [readingAtom s.stn.reading] ] ++ s.weightShown

/-! ### RESTART (R137) -/

/-- The cap driven toward CLOSED: in motion, or halted on a stopped machine (R136). -/
def State.capDriven (s : State) : Cap := if s.stopped then .halted .closed else .closing (s.now + capMotion)

def State.stationRestart (s : State) : State :=
  (s.setPlace .z2 fun r => { r with reserved := none }).setStn fun t =>
    { t with
      job := .idle
      tin := none
      waiting := []
      scale := .doseCheck
      tare := none
      cap := s.capDriven
      delay := .off
      settle := .off
      cal := none
      markerAsked := false
      attemptOwed := false }

end Sys2Proof.Machine
end

