-- ==== Sys2Proof/Machine/Track.lean ====
section
/-! DEFINITION. The Tin Track: loading, reservations, moves, the arm, arrivals, slips and jams, CONFIRM, CLEAR, the out
lane and the finished list, STOP, RESUME and RESTART, and its reports (chapter 7). -/

namespace Sys2Proof.Machine

def State.setTrack (s : State) (f : Track → Track) : State := { s with track := f s.track }

/-! ### Reservations (R143, R144) -/

/-- A zone or mixer is empty: no record, not departing, and its sensor shows no tin. The lane is empty enough with fewer
than 4 records, none ARRIVING, and OUT 4 clear. -/
def State.emptyPlace (s : State) (p : Place) : Bool :=
  let r := s.placeRec p
  match p with
  | .out => s.track.lane.length < 4 && !r.arriving && !s.inp.lane[3]
  | _ => r.tin.isNone && !r.departing && !s.shows p

/-- The destination can be reserved for a tin. -/
def State.canReserve (s : State) (p : Place) : Bool :=
  let r := s.placeRec p
  s.emptyPlace p && !r.uncertain && r.reserved.isNone

def State.reserve (s : State) (p : Place) (id : Nat) : State := s.setPlace p fun r => { r with reserved := some id }

/-- The Tin Track reserves the next place for the tin that RESTS READY_TO_MOVE at a source. An UNCERTAIN source holds off
the move, and not the reservation (R143, Assumption 50). -/
def State.reserveNext (s : State) (src dst : Place) : State :=
  match s.restingReady src with
  | some t => if s.canReserve dst then s.reserve dst t.id else s
  | none => s

/-- A claimant of Z5: the tin, and the moment it became READY_TO_MOVE (R144). -/
def State.claimants (s : State) : List (Nat × Nat) :=
  let mix (p : Place) := (s.restingReady p).toList.map fun t => (t.id, t.readyAt)
  mix .mixA ++ mix .mixB
    ++ (s.restingReady .z4).toList.filterMap fun t => if t.route = some .bypass then some (t.id, t.readyAt) else none

/-- The earliest entry of a list of ids and moments; the first among equals. -/
def earliest : List (Nat × Nat) → Option (Nat × Nat)
  | [] => none
  | x :: rest =>
    match earliest rest with
    | some y => if y.2 < x.2 then some y else some x
    | none => some x

/-- Z5 is reserved for the claimant that became ready earliest (R144). -/
def State.reserveZ5 (s : State) : State :=
  if s.canReserve .z5 then
    match earliest s.claimants with
    | some x => s.reserve .z5 x.1
    | none => s
  else s

/-- The reservations the Tin Track makes. -/
def State.reservations (s : State) : State :=
  (((s.reserveNext .z2 .z3).reserveNext .z3 .z4).reserveNext .z5 .out).reserveZ5

/-! ### Moves (R145, R146) -/

def moveTime : Nat := 4 * Config.sec

/-- The encoder of a move: the source section's, or the arm's. -/
def encoderOf (src dst : Place) : Fin 6 :=
  if armMove src dst then 5
  else match src with
    | .z1 => 0 | .z2 => 1 | .z3 => 2 | .z4 => 3 | _ => 4

/-- A record stands ARRIVING at a place; in the lane it joins the tail. -/
def State.arriveAt (s : State) (p : Place) (id : Nat) : State :=
  match p with
  | .out => (s.setPlace .out fun r => { r with arriving := true }).setTrack fun t => { t with lane := t.lane ++ [id] }
  | _ => s.setPlace p fun r => { r with tin := some id, arriving := true }

/-- A record has left Z2 by its move: the station's job returns to IDLE where it is the job tin. -/
def State.leftZ2 (s : State) (id : Nat) : State := if s.stn.tin = some id then s.jobIdle else s.oweAttempt

/-- A move begins (R146). -/
def State.beginMove (s : State) (id : Nat) (src dst : Place) : State :=
  let s1 := s.setPlace src fun r => { r with tin := none, departing := true }
  let s2 := (s1.arriveAt dst id).setTrack fun t =>
    { t with
      moves := t.moves ++ [⟨id, src, dst, some (s.now + moveTime)⟩]
      armReady := t.armReady.filter fun x => x.1 != id
      encoders := updAt t.encoders (encoderOf src dst) fun _ => 0 }
  match src with
  | .z2 => s2.leftZ2 id
  | .z3 => s2.lidderLeave id
  | _ => s2

/-- The conditions of a move hold but for the arm's grant: the tin RESTS READY_TO_MOVE at a source that is not
UNCERTAIN, and the destination is reserved for it and empty. -/
def State.moveReady (s : State) (src dst : Place) : Option Nat :=
  match s.readyAt src with
  | some t => if (s.placeRec dst).reserved = some t.id ∧ s.emptyPlace dst then some t.id else none
  | none => none

/-- A conveyor move begins where its conditions hold and the machine is not stopped. -/
def State.conveyorLook (s : State) (src dst : Place) : State :=
  if s.stopped then s
  else
    match s.moveReady src dst with
    | some id => s.beginMove id src dst
    | none => s

/-- The conveyor moves; a tin at Z4 takes the one to Z5 by the bypass, which alone reserves Z5 for it. -/
def State.conveyors (s : State) : State :=
  ((((s.conveyorLook .z5 .out).conveyorLook .z4 .z5).conveyorLook .z3 .z4).conveyorLook .z2 .z3).conveyorLook .z1 .z2

/-- The arm's transfers, unloadings first and MIXER A before MIXER B (R145). -/
def armTransfers : List (Place × Place) := [(.mixA, .z5), (.mixB, .z5), (.z4, .mixA), (.z4, .mixB)]

/-- The transfers that are ready now, in the order that decides among equals. -/
def State.armNow (s : State) : List (Nat × Place × Place) :=
  armTransfers.filterMap fun x => (s.moveReady x.1 x.2).map fun id => (id, x.1, x.2)

/-- Keep the moment at which each ready transfer became ready. -/
def State.armNote (s : State) : State :=
  let ready := s.armNow
  s.setTrack fun t =>
    { t with armReady := ready.map fun x =>
        match t.armReady.find? (fun y => y.1 == x.1) with
        | some y => y
        | none => (x.1, s.now) }

/-- The arm is free: no transfer in flight and no jam that holds it. -/
def State.armFree (s : State) : Bool :=
  !(s.track.moves.any fun m => armMove m.src m.dst) && !(s.track.jams.any fun j => armMove j.src j.dst)

/-- The free arm grants the transfer that became ready earliest (R145). -/
def State.armGrant (s : State) : State :=
  if s.stopped || !s.armFree then s
  else
    match earliest s.track.armReady with
    | none => s
    | some x =>
      match s.armNow.find? (fun y => y.1 == x.1) with
      | some (id, src, dst) => s.beginMove id src dst
      | none => s

/-- The track looks over its reservations and moves. -/
def State.trackLook (s : State) : State := s.reservations.conveyors.armNote.armGrant

/-! ### The end of a move (R147 to R149) -/

/-- The tin is handed over to the block that keeps the destination (R147). -/
def State.handOver (s : State) (id : Nat) (p : Place) : State :=
  match p with
  | .z1 => s
  | .z2 => if s.stn.tin = some id then s.beginPreparing id else s
  | .z3 => s.lidderTake id
  | .z4 | .z5 => s.readyTin id
  | .mixA => s.mixerTake .a id
  | .mixB => s.mixerTake .b id
  | .out => s.stageTin id .out

/-- A reservation made for a move ends; the station's reservation of Z2 stands (R113). -/
def State.endReservation (s : State) (p : Place) : State :=
  if p = .z2 then s else s.setPlace p fun r => { r with reserved := none }

/-- The source has stopped departing: Z2's end of it is an event of R114, and an unloaded mixer is IDLE (R174). -/
def State.sourceFree (s : State) (src : Place) : State :=
  match src with
  | .z2 => s.oweAttempt
  | .mixA => s.idleMixer .a
  | .mixB => s.idleMixer .b
  | _ => s

/-- The moved tin RESTS at its destination, and the move is over. -/
def State.moveOver (s : State) (v : Move) : State :=
  (((s.setTrack fun t => { t with moves := t.moves.filter fun w => w != v }).setPlace v.src fun r =>
    { r with departing := false }).setPlace v.dst fun r => { r with arriving := false }).endReservation v.dst

/-- The mark counts of an arrival (R147). -/
def inTolerance (marks : Nat) : Bool := within 45 51 marks

/-- The destination's sensor reports the tin: ARRIVAL, or SLIP where the marks lie outside 45–51. -/
def State.moveArrives (s : State) (v : Move) (marks : Nat) : State :=
  let s1 := (s.moveOver v).setTrack fun t =>
    { t with encoders := updAt t.encoders (encoderOf v.src v.dst) fun _ => marks }
  let s2 := if inTolerance marks then s1.handOver v.tin v.dst
    else (s1.setPlace v.dst fun r => { r with uncertain := true, owed := true }).setFlag .trackSlip
      [.num "tin" v.tin, .word "from" (placeName v.src), .word "to" (placeName v.dst), .num "marks" marks]
  s2.sourceFree v.src

/-- The move toward a place. -/
def State.moveTo (s : State) (p : Place) : Option Move := s.track.moves.find? fun m => m.dst == p

/-- A destination's sensor reports a tin; with no move toward the place it is compared with the record. -/
def State.arrived (s : State) (p : Place) (marks : Nat) : State :=
  match s.moveTo p with
  | some v => s.moveArrives v marks
  | none => s.placeCompare p

/-- A record leaves a place, or the tail of the lane. -/
def State.unplace (s : State) (p : Place) (id : Nat) : State :=
  match p with
  | .out => (s.setPlace .out fun r => { r with arriving := false }).setTrack fun t =>
      { t with lane := t.lane.filter fun k => k != id }
  | _ => s.setPlace p fun r => if r.tin = some id then { r with tin := none, arriving := false } else r

/-- A move ends in JAM (R149). -/
def State.moveJams (s : State) (v : Move) : State :=
  let s1 := ((s.unplace v.dst v.tin).setPlace v.src fun r => { r with departing := false, uncertain := true }).setPlace
    v.dst fun r => { r with uncertain := true }
  let s2 := (s1.setTrack fun t =>
    { t with
      moves := t.moves.filter fun w => w != v
      jams := t.jams ++ [⟨v.tin, v.src, v.dst⟩] }).setFlag .trackJam
    [.num "tin" v.tin, .word "from" (placeName v.src), .word "to" (placeName v.dst)]
  if v.src = .z2 then s2.oweAttempt else s2

/-- The 4 s of running time of the move toward a place have passed; a halted move's time stands. -/
def State.jammed (s : State) (p : Place) : State :=
  match s.moveTo p with
  | some v =>
    match v.deadline with
    | some d => (s.reach d).moveJams v
    | none => s
  | none => s

/-! ### Finishing and deleting (R154, R156) -/

def Stage.name : Stage → String
  | .loaded => "LOADED" | .readyToMove => "READY_TO_MOVE" | .preparing => "PREPARING" | .dosing => "DOSING"
  | .weighing => "WEIGHING" | .lidding => "LIDDING" | .mixing => "MIXING" | .out => "OUT" | .failed => "FAILED"
  | .orphan => "ORPHAN"

def Note.name : Note → String
  | .offShade => "OFF_SHADE" | .substituted => "SUBSTITUTED" | .shortDose => "SHORT_DOSE"
  | .interrupted => "INTERRUPTED" | .lotSplit => "LOT_SPLIT" | .weightDeviation => "WEIGHT_DEVIATION"
  | .notLidded => "NOT_LIDDED" | .unmixed => "UNMIXED"

def FinishCause.name : FinishCause → String
  | .taken => "TAKEN" | .cleared => "CLEARED" | .lost => "LOST"

/-- notes=: the set in the order in which the notes were given, the model's choice: Assumption 61. -/
def notesItem (ns : List Note) : Item := Item.listOrNone "notes" (ns.map fun n => [.word n.name])

/-- The notice fields of TIN_FINISHED. -/
def finishItems (t : Tin) (cause : FinishCause) (failed : Bool) : List Item :=
  [ .num "tin" t.id, .parts "line" [.opt (t.order.map (·.1))], .parts "index" [.opt (t.order.map (·.2))],
    .word "cause" cause.name, .word "stage" (if failed then "FAILED" else "FINISHED"), notesItem t.notes ]

/-- Take a record off whatever place, lane position or jam pair it stands on, and out of the table. -/
def State.liftTin (s : State) (id : Nat) : State :=
  let s1 := singlePlaces.foldl (fun u p => u.unplace p id) s
  (s1.setTrack fun t =>
    { t with lane := t.lane.filter fun k => k != id, jams := t.jams.filter fun j => j.tin != id }).dropTin id

/-- The blocks that hold the record are told that it is gone. -/
def State.tellRemoved (s : State) (id : Nat) : State :=
  let s1 := if s.stn.tin = some id then s.jobTinRemoved else s
  let s2 := s1.lidderLeave id
  mixes.foldl (fun u m => if (u.mixerRec m).tin = some id then u.idleMixer m else u) s2

/-- An ordered tin finishes; an orphan is deleted. -/
def State.retire (s : State) (id : Nat) (cause : FinishCause) : State :=
  match s.tin? id with
  | none => s
  | some t =>
    let s1 := (s.liftTin id).tellRemoved id
    match t.order with
    | some (n, _) =>
      if t.stage = Stage.orphan then s1
      else
        let failed := cause != .taken
        ((s1.setTrack fun x =>
          { x with finished := (⟨t, cause, failed⟩ :: x.finished).take Config.finishedPlaces }).countFinished n
            failed).setFlag .tinFinished (finishItems t cause failed)
    | none => s1

/-! ### The out lane (R153, R155) -/

/-- The customer has taken the head tin: a RESTING head leaves the list. -/
def State.headTaken (s : State) : State :=
  match s.track.lane with
  | [] => s
  | id :: rest => if rest = [] ∧ (s.placeRec .out).arriving then s else s.retire id .taken

/-- The lane is reconciled with its sensors: the records in excess at the head finish, or orphans are appended. -/
def State.reconcileLane (s : State) : State :=
  let t := s.laneCount
  let k := s.track.lane.length
  if t < k then (s.track.lane.take (k - t)).foldl (fun u id => u.retire id .taken) s
  else (List.range (t - k)).foldl (fun u _ => u.orphanInLane) s

/-- The outcome of the reconciliation. -/
def State.laneOutcome (s : State) : String :=
  let t := s.laneCount
  let k := s.track.lane.length
  if t = k then "PRESENT" else if t < k then "TAKEN" else "ORPHAN"

/-- The slipped tin in the lane that waits to be handed over at its CONFIRM (R148, R155). -/
def State.laneOwed (s : State) : List Nat :=
  if (s.placeRec .out).owed then
    s.track.lane.filter fun id => (s.tin? id).any fun t => t.stage == Stage.readyToMove
  else []

/-- The tins concerned by the reconciliation: those that finish, the orphans appended, or with outcome PRESENT the slipped
tin that is handed over (R151, R155). Several ids stand in one tin=, joined by commas: Assumption 13. -/
def State.laneTins (s : State) : List Item :=
  let k := s.track.lane.length
  let ids :=
    if s.laneCount < k then s.track.lane.take (k - s.laneCount)
    else if k < s.laneCount then s.reconcileLane.track.lane.drop k
    else s.laneOwed
  if ids = [] then [] else [.field "tin" (ids.map fun id => [.num id])]

/-- A slipped tin that waited for the lane's CONFIRM is handed over as at arrival. -/
def State.laneConfirmed (s : State) : State :=
  let owed := (s.placeRec .out).owed
  let s1 := s.reconcileLane.setPlace .out fun r => { r with uncertain := false, owed := false }
  if owed then
    s1.setTrack fun t => { t with
      tins := t.tins.map fun x =>
        if x.id ∈ t.lane ∧ x.stage = Stage.readyToMove then { x with stage := .out } else x }
  else s1

/-! ### LOADED (R142) -/

/-- The record LOADED creates. -/
def newTin (id n k : Nat) (l : OrderLine) : Tin :=
  { Tin.orphan id with order := some (n, k), size := some l.size, base := some l.formula.base, stage := .loaded }

/-- The tin is loaded: its record is made, the book releases it, and an admission attempt is owed. -/
def State.loadTin (s : State) (l : OrderLine) : State :=
  let id := s.newTinId
  (((s.addTin (newTin id l.number (l.released + 1) l)).restAt .z1 id).releaseTin l.number).oweAttempt

/-- LOADED (R142). -/
def loadedAnswer (fs : Fields) (s : State) : Answer :=
  let r := s.placeRec .z1
  .check (fs.malformed [] [] []) .syntaxError <|
  .check (r.tin.isSome || r.departing || r.uncertain) .state <|
  .check (!s.shows .z1) .empty <|
  match s.wantedLine with
  | none => .refuse .state
  | some l =>
    .check (s.inp.height != s.lib.sizes[l.size].map (·.height)) .mismatch <|
    .accept [.num "tin" s.newTinId, .num "line" l.number, .num "index" (l.released + 1)] fun u => u.loadTin l

/-! ### CONFIRM (R151, R155) -/

def placeTable : List (String × Place) :=
  [("Z1", .z1), ("Z2", .z2), ("Z3", .z3), ("Z4", .z4), ("Z5", .z5), ("MIXA", .mixA), ("MIXB", .mixB), ("OUT", .out)]

/-- The place cannot be confirmed now. -/
def State.confirmBusy (s : State) (p : Place) : Bool :=
  s.moving p || s.watchHeld p || (p.isMixer && !(s.placeRec p).uncertain && (s.jamAt p).isNone)

/-- The place's sensor, as the resolution of a jam reads it: the lane shows a tin where more positions are occupied
than it holds records. -/
def State.jamShows (s : State) (p : Place) : Bool :=
  if p = .out then s.track.lane.length < s.laneCount else s.shows p

/-- Both places of a resolved pair stop being UNCERTAIN, and the pair is gone. Z2's end of it is an event of R114. -/
def State.clearPair (s : State) (j : JamPair) : State :=
  let s1 := ((s.setUncertain j.src false).setUncertain j.dst false).setTrack fun t =>
    { t with jams := t.jams.filter fun k => k != j }
  if j.src = .z2 ∨ j.dst = .z2 then s1.oweAttempt else s1

/-- The record of a jam is put at the destination, and handed over as at arrival. -/
def State.jamPlaced (s : State) (j : JamPair) : State :=
  let s1 := (s.clearPair j).endReservation j.dst
  let s2 := match j.dst with
    | .out => s1.setTrack fun t => { t with lane := t.lane ++ [j.tin] }
    | p => s1.restAt p j.tin
  (s2.handOver j.tin j.dst).sourceFree j.src

/-- The answer for a place on a jam pair. RETURNED puts an ordered tin back into Z2 as R151 says also where SCALE has
assigned the scale to CALIBRATION meanwhile: Assumption 58. -/
def State.confirmJam (s : State) (j : JamPair) : Answer :=
  let id : Item := .num "tin" j.tin
  match s.jamShows j.src, s.jamShows j.dst with
  | false, true => .accept [.word "outcome" "PLACED", id] fun u => u.jamPlaced j
  | true, false => .accept [.word "outcome" "RETURNED", id] fun u => (u.clearPair j).restAt j.src j.tin
  | false, false => .accept [.word "outcome" "LOST", id] fun u => (u.clearPair j).retire j.tin .lost
  | true, true => .refuse .mismatch

/-- The place stops being UNCERTAIN; at Z2 that is an event of R114, and at Z3 the Lidder makes the search for a tin in
WAITING_LID that it held off meanwhile (R150, R164, Assumption 48). -/
def State.certain (s : State) (p : Place) : State :=
  let s1 := s.setPlace p fun r => { r with uncertain := false, owed := false }
  if p = .z2 then s1.oweAttempt else if p = .z3 ∧ s1.lid.press = .waitingLid then s1.lidSearch else s1

/-- The answer for a zone or mixer that is UNCERTAIN after a slip or a disagreement. -/
def State.confirmUncertain (s : State) (p : Place) : Answer :=
  match (s.placeRec p).tin with
  | none => .accept [.word "outcome" (if s.shows p then "PRESENT" else "EMPTY")] fun u => u.certain p
  | some id =>
    if s.shows p then
      let owed := (s.placeRec p).owed
      .accept [.word "outcome" "PRESENT", .num "tin" id] fun u =>
        if owed then (u.certain p).handOver id p else u.certain p
    else .accept [.word "outcome" "LOST", .num "tin" id] fun u => (u.retire id .lost).certain p

/-- A tin found gone from a certain place is finished LOST; Z2's loss of its record is an event of R114, whatever the job. -/
def State.lostAt (s : State) (p : Place) (id : Nat) : State :=
  let s1 := s.retire id .lost
  if p = .z2 then s1.oweAttempt else s1

/-- The answer for a zone that is not UNCERTAIN. -/
def State.confirmZone (s : State) (p : Place) : Answer :=
  match s.tinAt p with
  | none =>
    if !s.shows p then .accept [.word "outcome" "EMPTY"] id
    else if p = .z1 then .accept [.word "outcome" "PRESENT"] id
    else .accept [.word "outcome" "ORPHAN", .num "tin" s.newTinId] fun u => u.orphanAt p
  | some t =>
    .check (t.stage == .orphan || t.stage == .failed) .state <|
    if s.shows p then .accept [.word "outcome" "PRESENT", .num "tin" t.id] id
    else .accept [.word "outcome" "LOST", .num "tin" t.id] fun u => u.lostAt p t.id

/-- CONFIRM of a zone or mixer (R151). -/
def State.confirmPlace (s : State) (p : Place) : Answer :=
  .check (s.confirmBusy p) .busy <|
  match s.jamAt p with
  | some j => s.confirmJam j
  | none => if (s.placeRec p).uncertain then s.confirmUncertain p else s.confirmZone p

/-- CONFIRM zone=OUT (R155), or of the jam pair the lane stands on (R151). -/
def State.confirmLane (s : State) : Answer :=
  .check (s.confirmBusy .out) .busy <|
  match s.jamAt .out with
  | some j => s.confirmJam j
  | none => .accept ([.word "outcome" s.laneOutcome] ++ s.laneTins) fun u => u.laneConfirmed

/-- CONFIRM (R151, R155). -/
def confirmAnswer (fs : Fields) (s : State) : Answer :=
  .check (fs.malformed ["zone"] ["zone"] []) .syntaxError <|
  match (fs.get "zone").bind (named? placeTable) with
  | none => .refuse .range
  | some .out => s.confirmLane
  | some p => s.confirmPlace p

/-! ### CLEAR (R157) -/

/-- The Mixers hold the mixer closed on its tin. -/
def State.heldClosed (s : State) (p : Place) : Bool :=
  match p.mixer? with
  | some m => (s.mixerRec m).clamp != .opened
  | none => false

/-- The mixer at a place becomes IDLE where it was HOLDING (R179). -/
def State.idleHolding (s : State) (p : Place) : State :=
  match p.mixer? with
  | some m => if (s.mixerRec m).state = .holding then s.idleMixer m else s
  | none => s

/-- The record is removed; a place that loses it stops being UNCERTAIN, a HOLDING mixer is IDLE, and at Z2 an attempt is
owed. -/
def State.clearPlace (s : State) (p : Place) (id : Nat) : State :=
  let s1 := ((s.retire id .cleared).setUncertain p false).idleHolding p
  if p = .z2 then s1.oweAttempt else s1

/-- CLEAR (R157). -/
def clearAnswer (fs : Fields) (s : State) : Answer :=
  .check (fs.malformed ["zone"] ["zone"] []) .syntaxError <|
  match (fs.get "zone").bind (named? placeTable) with
  | none | some .out => .refuse .range
  | some p =>
    .check (s.moving p || s.heldClosed p) .busy <|
    match s.tinAt p with
    | none => .refuse .empty
    | some t =>
      .check (t.stage != .orphan && t.stage != .failed) .state <|
      .check (s.shows p) .state <|
      .accept [] fun u => u.clearPlace p t.id

/-! ### STOP and RESUME (R158) -/

def Track.stop (t : Track) : Track := { t with moves := t.moves.map fun m => { m with deadline := none } }

def Track.resume (t : Track) (now : Nat) : Track :=
  { t with moves := t.moves.map fun m =>
      match m.deadline with
      | none => { m with deadline := some (now + moveTime) }
      | some _ => m }

/-! ### Power-on and RESTART (R159, R160) -/

/-- An orphan for each tin the sensors show where no record stands, with ids in the order of R159: Z1 to Z5, the mixers, and
the lane. R160 gives no order for the tins left over at RESTART; that they take their ids in the same one is the model's
choice: Assumption 74. -/
def State.findOrphans (s : State) : State :=
  let s1 := singlePlaces.foldl
    (fun u p => if u.shows p && (u.placeRec p).tin.isNone then u.orphanAt p else u) s
  (List.range (s1.laneCount - s1.track.lane.length)).foldl (fun u _ => u.orphanInLane) s1

/-- The records that were on their way when RESTART was taken, with both places: ARRIVING or on a jam pair. -/
def Track.between (t : Track) : List (Nat × Place × Place) :=
  t.moves.map (fun m => (m.tin, m.src, m.dst)) ++ t.jams.map fun j => (j.tin, j.src, j.dst)

/-- The record that stood RESTING at a zone or mixer. -/
def PlaceRecord.resting (r : PlaceRecord) : Option Nat := if r.arriving then none else r.tin

/-- The lane's records that RESTED in it. -/
def State.laneResting (s : State) : List Nat :=
  if (s.placeRec .out).arriving then s.track.lane.dropLast else s.track.lane

/-- The sensors show the tin of a record on its way at its destination (R160). That the lane shows it by more occupied
positions than it has RESTING records, and not by its entry sensor, is the model's choice: Assumption 26. -/
def State.foundAt (s : State) (dst : Place) : Bool :=
  if dst = .out then s.laneResting.length < s.laneCount else s.shows dst

/-- The record RESTART leaves at a zone or mixer. -/
def State.rebuilt (s : State) (p : Place) : Option Nat :=
  if s.shows p then
    match (s.placeRec p).resting with
    | some id => some id
    | none =>
      match s.track.between.find? (fun x => x.2.2 == p) with
      | some x => some x.1
      | none => (s.track.between.find? fun x => x.2.1 == p && !s.foundAt x.2.2).map (·.1)
  else none

/-- The records RESTART leaves in the lane, with those in excess dropped from the head. -/
def State.laneRebuilt (s : State) : List Nat :=
  let came := if s.foundAt .out then (s.track.between.filter fun x => x.2.2 == .out).map (·.1) else []
  let all := s.laneResting ++ came
  all.drop (all.length - s.laneCount)

/-- RESTART reaches the track: moves end, every record is an orphan where its tin is found, the rest are dropped, and
the tins left over get orphan records (R160). -/
def State.trackRestart (s : State) : State :=
  let place (p : Place) : PlaceRecord := { PlaceRecord.reset with tin := s.rebuilt p }
  let lane := s.laneRebuilt
  let kept := singlePlaces.filterMap s.rebuilt ++ lane
  State.findOrphans <| s.setTrack fun t =>
    { t with
      tins := (t.tins.filter fun x => kept.contains x.id).map fun x => { x with stage := .orphan }
      places := #v[place .z1, place .z2, place .z3, place .z4, place .z5, place .mixA, place .mixB, PlaceRecord.reset]
      lane := lane
      moves := []
      jams := []
      armReady := [] }

/-! ### ZONES, TREAD and FLIST (R161, R162) -/

/-- The occupant condition of a zone or mixer. -/
def PlaceRecord.cond (r : PlaceRecord) : String :=
  match r.tin with
  | some _ => if r.arriving then "ARRIVING" else "RESTING"
  | none => if r.departing then "DEPARTING" else "IDLE"

def State.placeItem (s : State) (p : Place) : Item :=
  let r := s.placeRec p
  .parts "place"
    [ .word (placeName p), .opt r.tin, .word r.cond, .opt r.reserved, .word (yesNo r.uncertain),
      .word (if s.shows p then "TIN" else "CLEAR") ]

/-- arm=: IDLE, the transfer in flight, or HELD with the jam it waits for (R161). That a held arm shows its jam as
HELD:TIN:FROM:TO is the model's choice: Assumption 69. -/
def State.armAtoms (s : State) : List Atom :=
  match s.track.moves.find? (fun m => armMove m.src m.dst), s.track.jams.find? (fun j => armMove j.src j.dst) with
  | some m, _ => [.num m.tin, .word (placeName m.src), .word (placeName m.dst)]
  | none, some j => [.word "HELD", .num j.tin, .word (placeName j.src), .word (placeName j.dst)]
  | none, none => [.word "IDLE"]

/-- ZONES (R161). The order of the place= fields, and of the jam= fields, is the model's choice: Assumption 61. So is the
form of lane=, the ids joined by colons or NONE, then a comma and the count, then a comma and YES or NO: Assumption 69. -/
def zonesAnswer (fs : Fields) (s : State) : Answer :=
  .check (fs.malformed [] [] []) .syntaxError <|
  .report <| singlePlaces.map s.placeItem
    ++ [ .field "lane" [if s.track.lane = [] then [.word "NONE"] else s.track.lane.map .num,
           [.num s.laneCount], [.word (yesNo (s.placeRec .out).uncertain)]],
         .parts "arm" s.armAtoms ]
    ++ (s.track.jams.map fun j => .parts "jam" [.num j.tin, .word (placeName j.src), .word (placeName j.dst)])
    ++ [.parts "z1height" [.opt s.inp.height]]

def CutCause.name : CutCause → String
  | .pumpFault => "PUMP_FAULT" | .removed => "REMOVED" | .restart => "RESTART"

/-- OUTCOME of an entry (R162). An entry holds a plan outcome (R56) and a run outcome (R100, R124), and R162 does not say
which is shown: that it is the run outcome once there is one, and else the plan outcome, is the model's choice:
Assumption 68. That a CUT is shown without the cause it carries is Assumption 13. -/
def DoseEntry.outcomeAtom (e : DoseEntry) : Atom :=
  match e.run with
  | some .delivered => .word "DELIVERED"
  | some (.cut _) => .word "CUT"
  | some .notRun => .word "NOT_RUN"
  | none => e.outcome.atom e.adjust

/-- entry=CODE:CIRCUIT:PLANNED:DELIVERED:VOLUME:OUTCOME (R162). That VOLUME is the delivered volume and not the planned one
is the model's choice: Assumption 68. -/
def DoseEntry.item (e : DoseEntry) : Item :=
  .parts "entry"
    [ .text e.code, .num (circNo e.circuit), .num e.planned, .num e.delivered, .num e.deliveredVolume, e.outcomeAtom ]

def Verdict.full : Verdict → List Atom
  | .pass => [.word "PASS"]
  | .deviation => [.word "DEVIATION"]
  | .uncheckedLight => [.word "UNCHECKED", .word "LIGHT"]
  | .uncheckedOverRange => [.word "UNCHECKED", .word "OVER_RANGE"]

def Atom.optMass : Option Int → Atom
  | some m => .int m
  | none => .word "NONE"

/-- The weight check of a record: expected, measured, and the check with its cause; the fields are the model's choice:
Assumption 69. -/
def WeightCheck.items (w : WeightCheck) : List Item :=
  [ .parts "expected" [.opt w.expected], .parts "measured" [.optMass w.measured],
    .parts "check" ((w.verdict.map Verdict.full).getD [.word "NONE"]) ]

def LidStatus.name : LidStatus → String
  | .seated => "SEATED" | .notSeated => "NOT_SEATED" | .notFitted => "NOT_FITTED"

def Route.name : Route → String
  | .mix => "MIX" | .bypass => "BYPASS"

/-- The mix result: status, mixer, program, elapsed in whole seconds, and INTERRUPTED; the form is the model's choice:
Assumption 69. -/
def MixResult.atoms (r : MixResult) : List Atom :=
  [ .word (if r.done then "DONE" else "ABORTED"), .word (mixName r.mixer), .num r.program,
    .num (r.elapsed / Config.sec) ] ++ if r.interrupted then [.word "INTERRUPTED"] else []

/-- The fields of a tin record after place=. -/
def Tin.items (t : Tin) (stage : String) : List Item :=
  [ .parts "line" [.opt (t.order.map (·.1))], .parts "index" [.opt (t.order.map (·.2))],
    .word "size" ((t.size.map sizeName).getD "NONE"), .word "base" ((t.base.map baseName).getD "NONE"),
    .word "stage" stage ]
    ++ t.entries.map DoseEntry.item ++ t.weight.items
    ++ [ .word "lid" ((t.lid.map LidStatus.name).getD "NONE"), .word "route" ((t.route.map Route.name).getD "NONE"),
         .parts "mix" ((t.mix.map MixResult.atoms).getD [.word "NONE"]), notesItem t.notes ]

/-- place=: the place, the lane position, or the jam pair of a live record; the form of the last two is the model's choice:
Assumption 69. -/
def State.standingAtoms (s : State) (id : Nat) : List Atom :=
  match s.standing id with
  | .at p => [.word (placeName p)]
  | .lane k => [.word ("OUT" ++ toString (k + 1))]
  | .jammed j => [.word "JAM", .word (placeName j.src), .word (placeName j.dst)]
  | .nowhere => [.word "NONE"]

def Finished.stage (f : Finished) : String := if f.failed then "FAILED" else "FINISHED"

/-- TREAD (R162). That a finished record shows place=FINISHED:CAUSE is the model's choice: Assumption 69. -/
def treadAnswer (fs : Fields) (s : State) : Answer :=
  .check (fs.malformed ["tin"] ["tin"] ["tin"]) .syntaxError <|
  let n := fs.numD "tin" 0
  .check (!within 1 255 n) .range <|
  match s.tin? n, s.track.finished.find? (fun f => f.tin.id == n) with
  | some t, _ => .report <| [.word "live" "YES", .parts "place" (s.standingAtoms n)] ++ t.items t.stage.name
  | none, some f =>
    .report <| [.word "live" "NO", .parts "place" [.word "FINISHED", .word f.cause.name]] ++ f.tin.items f.stage
  | none, none => .refuse .notFound

def Finished.item (f : Finished) : Item :=
  .parts "fin"
    [.num f.tin.id, .opt (f.tin.order.map (·.1)), .opt (f.tin.order.map (·.2)), .word f.cause.name]

/-- FLIST (R162). count= is the length of the whole list, whatever from= names: Assumption 61. -/
def flistAnswer (fs : Fields) (s : State) : Answer :=
  .check (fs.malformed ["from"] [] ["from"]) .syntaxError <|
  let k := fs.numD "from" 1
  .check (!fieldWithin fs "from" 1 Config.finishedPlaces) .range <|
  .report <| [.num "count" s.track.finished.length] ++ (s.track.finished.drop (k - 1)).map Finished.item

end Sys2Proof.Machine
end

