-- ==== Sys2Proof/Machine/Care.lean ====
section
/-! DEFINITION. The Care Scheduler: boundaries and site time, the look over stirs and purges, its requests, STOP and
RESTART (chapter 10). -/

namespace Sys2Proof.Machine

def State.setCares (s : State) (f : Care → Care) : State := { s with cares := f s.cares }

/-! ### Stirs that come due (R207, R208) -/

/-- The interval boundaries a quarter-hour boundary numbered k is: every one for Q15, each 4th for H1, each 16th for
H4. -/
def StirClass.boundary (k : Nat) : StirClass → Bool
  | .q15 => true
  | .h1 => k % 4 == 0
  | .h4 => k % 16 == 0
  | .off | .daily => false

/-- The moment of the next quarter-hour boundary. -/
def Care.nextBoundary (x : Care) : Nat := x.origin + (x.quarters + 1) * 15 * Config.minute

/-- The next quarter-hour boundary arrives, and stirs of the interval classes come due. -/
def State.stirBoundary (s : State) : State :=
  let k := s.cares.quarters + 1
  let t := s.cares.nextBoundary
  forCircuits (fun c u => if (u.circuit c).cfg.stir.boundary k then u.stirComesDue c t else u)
    ((s.reach t).setCares fun x => { x with quarters := k })

/-- The site time advances by one minute; where it reaches the daily minute, DAILY stirs come due. -/
def State.siteMinute (s : State) : State :=
  match s.cares.siteTime with
  | none => s
  | some m =>
    let m' := (m + 1) % 1440
    let t := s.cares.minuteStart + Config.minute
    let s1 := (s.reach t).setCares fun x => { x with siteTime := some m', minuteStart := t }
    if m' = s.cares.daily then
      forCircuits (fun c u => if (u.circuit c).cfg.stir = .daily then u.stirComesDue c t else u) s1
    else s1

/-! ### Starting stirs (R209, R210) -/

/-- The first condition of R209 that fails for a circuit, but for the stirrer limit. -/
inductive StirWait where
  | ready | state | pump | stopped
  deriving DecidableEq, Repr

def State.stirWait (s : State) (c : Circ) : StirWait :=
  if !(s.circuit c).inService then .state
  else if (s.pump c).activity.isSome then .pump
  else if s.stopped then .stopped
  else .ready

/-- A due stir can start now. -/
def State.canStir (s : State) (c : Circ) : Bool := s.stirWait c == .ready && s.stirring < Config.stirrers

/-- A stir starts: its circuit leaves the due list. -/
def State.startStir (s : State) (x : Circ × Nat) : State :=
  (s.dropDue x.1).setCircuit x.1 fun r => { r with stir := some ⟨s.now + r.cfg.stirDur * Config.sec, x.2⟩ }

/-- The scheduler looks over the due list in order. -/
def State.stirsLook (s : State) : State :=
  s.cares.due.foldl (fun u x => if u.canStir x.1 then u.startStir x else u) s

/-- A stir's end time arrives. -/
def State.stirEnds (s : State) (c : Circ) : State :=
  match (s.circuit c).stir with
  | none => s
  | some st => (s.reach st.ends).endStir c

/-! ### Asking for purges (R213) -/

/-- A PURGE of the circuit is asked for or in flight. -/
def Pump.purging (p : Pump) : Bool :=
  (match p.activity with
    | some a => a.kind == .purge
    | none => false)
    || match p.next with
      | some q => q.kind == .purge
      | none => false

/-- The conditions under which a purge is asked for. -/
def State.purgeAskable (s : State) (c : Circ) : Bool :=
  let r := s.circuit c
  r.purgeDue.isSome && r.inService && s.capClosed && !s.stopped && r.stir.isNone && !(s.pump c).purging

def State.askPurge (s : State) (c : Circ) : State :=
  if s.purgeAskable c then (s.askPump c ⟨.purge, .care, (s.circuit c).cfg.purgeSteps⟩).1 else s

def State.purgesLook (s : State) : State := forCircuits (fun c u => u.askPurge c) s

/-! ### Competition (R119, R209) -/

/-- One free choice is taken. -/
def State.choose (s : State) : State := { s with choices := s.choices + 1 }

/-- Take two looks in the order of the free choice where they compete: `pump` asks for pump activities. -/
def State.race (s : State) (contested : Bool) (pump other : State → State) : State :=
  if contested && !Config.pumpFirst s.choices then pump (other s.choose)
  else if contested then other (pump s.choose)
  else other (pump s)

/-- A purge and the due stir of the same circuit could both be taken now. -/
def State.purgeContested (s : State) : Bool :=
  s.cares.due.any fun x => s.canStir x.1 && s.purgeAskable x.1

/-- The scheduler looks over its stirs and purges. Where none compete, the order of the two makes no difference. -/
def State.careLook (s : State) : State := s.race s.purgeContested State.purgesLook State.stirsLook

/-- A dose or CAL activity that is to be handed again, and the due stir of its circuit, could both be taken now. -/
def State.handContested (s : State) : Bool :=
  let waits (c : Circ) : Bool := s.stirListed c && s.canStir c
  (match s.stn.job, s.stn.tin.bind s.tin? with
    | .dosing, some t => t.entries.any fun e => (e.handing == .again true || e.handing == .notYet) && waits e.circuit
    | _, _ => false)
    || match s.stn.job, s.stn.cal with
      | .calRunning, some q => q.handing == .again true && waits q.circuit
      | _, _ => false

/-- The station's look, which may hand activities, against the stirs of the same circuits (R209). -/
def State.handLook (s : State) : State :=
  if s.handContested then s.race true State.stationLook State.stirsLook else s.stationLook

/-- A cap that has reached CLOSED with an open claim standing: a purge may be asked for before it opens (R119). -/
def State.closedInstant (s : State) : State :=
  if s.stn.claim && allCircuits.any s.purgeAskable then
    if Config.pumpFirst s.choices then s.choose.purgesLook else s.choose
  else s

/-- A cap motion ends at its target (R119, R120). -/
def State.capEnds (s : State) : State :=
  match s.stn.cap with
  | .opening e => (s.reach e).setStn fun t => t.reachOpen (max s.now e)
  | .closing e => ((s.reach e).setStn fun t => { t with cap := .closed }).closedInstant
  | _ => s

/-- The interval of the circuit's purge ends (R212). -/
def State.purgeElapses (s : State) (c : Circ) : State :=
  let r := s.circuit c
  let t := max s.now r.purgeMoment
  if r.purgeFalls t then (s.reach t).purgeTest c else s

/-! ### TIME and STIRDAY (R207) -/

/-- The site time and the phase origin are set. -/
def Care.setTime (x : Care) (m now : Nat) : Care :=
  { x with siteTime := some m, minuteStart := now, origin := now, quarters := 0 }

/-- The minute a request names: absent, outside 0–1,439, or named. -/
def minuteOut (fs : Fields) : Bool := !fieldWithin fs "minute" 0 1439

/-- TIME (R207). -/
def timeAnswer (fs : Fields) (s : State) : Answer :=
  .check (fs.malformed ["minute"] [] ["minute"]) .syntaxError <|
  .check (minuteOut fs) .range <|
  match fs.num "minute" with
  | some m => .accept [] fun u => u.setCares fun x => x.setTime m u.now
  | none => .report [match s.cares.siteTime with
      | some m => .num "minute" m
      | none => .word "minute" "UNSET"]

/-- STIRDAY (R207). -/
def stirdayAnswer (fs : Fields) (s : State) : Answer :=
  .check (fs.malformed ["minute"] [] ["minute"]) .syntaxError <|
  .check (minuteOut fs) .range <|
  match fs.num "minute" with
  | some d =>
    .check (!s.linkRoom 1) .busy <|
    .accept [] fun u => (u.setCares fun x => { x with daily := d }).linkWrite (.daily d)
  | none => .report [.num "minute" s.cares.daily]

/-! ### PURGE and STIR (R214, R215) -/

/-- The checks PURGE and STIR share. -/
def State.careRequest (s : State) (fs : Fields) (next : Circ → Answer) : Answer :=
  .check (fs.malformed ["circuit"] ["circuit"] ["circuit"]) .syntaxError <|
  match circ? (fs.numD "circuit" 0) with
  | none => .refuse .range
  | some c => .check s.stopped .stopped <| .check (!(s.circuit c).inService) .state <| next c

/-- PURGE (R214). -/
def purgeAnswer (fs : Fields) (s : State) : Answer :=
  s.careRequest fs fun c =>
    .accept [.word "due" (if (s.circuit c).purgeDue.isNone then "NEW" else "ALREADY")] fun u =>
      u.purgeBecomesDue c .forced

/-- STIR (R215). -/
def stirAnswer (fs : Fields) (s : State) : Answer :=
  s.careRequest fs fun c =>
    if (s.circuit c).stir.isSome then .accept [.word "stir" "RUNNING"] id
    else if s.stirListed c then .accept [.word "stir" "ALREADY"] id
    else .accept [.word "stir" "DUE"] fun u => u.addDue c u.now

/-! ### CARE (R218) -/

def StirWait.name : StirWait → String
  | .ready => "READY" | .state => "STATE" | .pump => "PUMP" | .stopped => "STOPPED"

/-- CARE (R218). running= and purge= list their circuits by ascending number: Assumption 61. -/
def careAnswer (fs : Fields) (s : State) : Answer :=
  .check (fs.malformed [] [] []) .syntaxError <|
  .report
    [ match s.cares.siteTime with
      | some m => .num "site" m
      | none => .word "site" "UNSET",
      .num "daily" s.cares.daily,
      .num "phase" ((s.now - s.cares.origin) / Config.sec),
      Item.listOrNone "running" (allCircuits.filterMap fun c =>
        (s.circuit c).stir.map fun st => [.num (circNo c), .num ((st.ends - s.now) / Config.sec)]),
      Item.listOrNone "due" (s.cares.due.map fun x => [.num (circNo x.1), .word (s.stirWait x.1).name]),
      Item.listOrNone "purge" (allCircuits.filterMap fun c =>
        (s.circuit c).purgeDue.map fun w => [.num (circNo c), .word w.name, .word (yesNo (s.pump c).purging)]) ]

/-! ### STOP and RESTART (R216, R217) -/

/-- Every running stir is cut and goes back into the due list. -/
def State.careStop (s : State) : State := forCircuits (fun c u => u.cutStir c true) s

/-- Stirs are cut for good, the dues are cleared, and the phase origin and the last-delivery times are now (R217). R211
lets a circuit that goes back to READY or EMPTY after a RESTART start from its kept entry; that no entry is kept, by
R217, is the model's choice: Assumption 67. -/
def State.careRestart (s : State) : State :=
  let s1 := forCircuits (fun c u => (u.cutStir c false).setCircuit c fun r =>
    { r with purgeDue := none, lastDelivery := u.now }) s
  s1.setCares fun x => { x with siteTime := none, origin := s.now, quarters := 0, due := [] }

end Sys2Proof.Machine
end

