-- ==== Sys2Proof/Machine/BusRequests.lean ====
section
/-! DEFINITION. The requests of the Drive Frame and the Tag Bus: SCHEME, PUMP, TAGBUS and TAG (R91, R112, R205,
R206). -/

namespace Sys2Proof.Machine

/-! ### SCHEME and PUMP (R91, R112) -/

def schemeTable : List (String × Scheme) := [("CONTINUOUS", .continuous), ("SPREAD", .spread), ("SPLIT", .split)]

def Scheme.name : Scheme → String
  | .continuous => "CONTINUOUS" | .spread => "SPREAD" | .split => "SPLIT"

/-- A circuit has a pump activity or a request in its next place. -/
def State.anyPumpBusy (s : State) : Bool :=
  allCircuits.any fun c => (s.pump c).activity.isSome || (s.pump c).next.isSome

def State.setScheme (s : State) (m : Scheme) : State :=
  State.linkWrite { s with drive := { s.drive with nextScheme := some m } } (.scheme m)

/-- SCHEME (R91). -/
def schemeAnswer (fs : Fields) (s : State) : Answer :=
  .check (fs.malformed ["mode"] [] []) .syntaxError <|
  match fs.get "mode" with
  | none => .report [.word "mode" s.drive.scheme.name]
  | some v =>
    match named? schemeTable v with
    | none => .refuse .range
    | some m => .check (s.anyPumpBusy || !s.linkRoom 1) .busy <| .accept [] fun u => u.setScheme m

/-- kind= and next= (R112). R94 names the record kind DOSE for a calibration run too; that the reply shows CAL, as R99 and
the values of activity= have it, is the model's choice: Assumption 56. -/
def Kind.name (owner : Owner) : Kind → String
  | .dose => if owner = .cal then "CAL" else "DOSE"
  | .purge => "PURGE"
  | .prime => "PRIME"
  | .refill => "REFILL"

def RunState.name : RunState → String
  | .running => "RUNNING" | .waitingStir => "WAITING_STIR" | .waitingCap => "WAITING_CAP" | .stopped => "STOPPED"

/-- activity=: the kind, shown as REFILL in phase REFILL. -/
def Activity.shown (a : Activity) : String := if a.phase = .refill then "REFILL" else a.kind.name a.owner

def Owner.atom : Owner → Atom
  | .tin id _ => .num id
  | .cal => .word "CAL"
  | .care | .table => .word "NONE"

def pistonAtom : Piston → Atom
  | .known p => .num p
  | .unknown _ => .word "UNKNOWN"

/-- The fields of a pump's activity. -/
def Activity.items (a : Activity) : List Item :=
  [ .word "kind" (a.kind.name a.owner), .word "run" a.run.name, .num "planned" a.planned,
    .num "delivered" a.delivered, .word "stopseen" (yesNo a.stopSeen), .parts "tin" [a.owner.atom] ]

/-- The spare slots lent to the pump in the current frame: the lending stands for the whole frame (R92). -/
def Drive.lentTo (d : Drive) (c : Circ) : Nat := (d.lent.filter fun x => x.2 == c).length

/-- PUMP (R112). -/
def pumpAnswer (fs : Fields) (s : State) : Answer :=
  .check (fs.malformed ["circuit"] ["circuit"] ["circuit"]) .syntaxError <|
  match circ? (fs.numD "circuit" 0) with
  | none => .refuse .range
  | some c =>
    let p := s.pump c
    .report <|
      [ .num "circuit" (circNo c), .num "slot" (ownSlot s.drive.scheme c), .parts "piston" [pistonAtom p.piston],
        .word "activity" ((p.activity.map Activity.shown).getD "IDLE") ]
        ++ ((p.activity.map Activity.items).getD [])
        ++ [ .num "lent" (s.drive.lentTo c),
             .word "next" ((p.next.map fun q => q.kind.name q.owner).getD "NONE") ]

/-! ### TAGBUS and TAG (R205, R206) -/

def JobKind.name : JobKind → String
  | .read => "READ" | .write _ => "WRITE"

def jobAtoms (j : TagJob) : List Atom := [.num (circNo j.circuit), .word j.kind.name]

/-- STEP of the active job: WAIT, READ, PAGEn or POLLn. -/
def ActiveJob.stepName (a : ActiveJob) : String :=
  match a.step, a.point with
  | .wait _, _ => "WAIT"
  | _, .read => "READ"
  | _, .page n => "PAGE" ++ toString (n + 1)
  | _, .poll n => "POLL" ++ toString (n + 1)

/-- TAGBUS (R205). -/
def tagbusAnswer (fs : Fields) (s : State) : Answer :=
  .check (fs.malformed [] [] []) .syntaxError <|
  .report
    [ .word "bus" (if s.tag.bus = .free then "FREE" else "BUSY"),
      .parts "active" (match s.tag.active with
        | some a => jobAtoms a.job ++ [.word a.stepName, .num a.losses, .num a.faults]
        | none => [.word "NONE"]),
      Item.listOrNone "queue" (s.tag.queue.map jobAtoms),
      Item.listOrNone "backlog" (s.tag.backlog.map jobAtoms) ]

/-- The image as TAG shows it (R206): the code without its padding, the lot with it, the bytes as they are:
Assumption 61. -/
def TagImage.items (g : TagImage) : List Item :=
  [ .text "code" g.code, .text "lot" g.lot, .num "fill" g.fill, .num "remaining" g.remaining, .num "day" g.day,
    .num "writes" g.writes ]

def LastResult.atoms : LastResult → List Atom
  | .none => [.word "NONE"]
  | .readOk => [.word "READ_OK"]
  | .writeOk => [.word "WRITE_OK"]
  | .read f => [.word "READ", .word f.name]
  | .write f => [.word "WRITE", .word f.name]

/-- TAG (R206). -/
def tagAnswer (fs : Fields) (s : State) : Answer :=
  .check (fs.malformed ["circuit"] ["circuit"] ["circuit"]) .syntaxError <|
  match circ? (fs.numD "circuit" 0) with
  | none => .refuse .range
  | some c =>
    .report <|
      [Item.num "circuit" (circNo c)]
        ++ ((s.tag.images[c].map TagImage.items).getD [.word "image" "NONE"])
        ++ [.parts "last" s.tag.last[c].atoms]

end Sys2Proof.Machine
end

