-- ==== Sys2Proof/Machine/Power.lean ====
section
/-! DEFINITION. The machine as a whole: what follows within a step, STOP and RESUME, RESTART, power-on and loss of power
(section 11.7; R23, R24, R43, R63, R88, R111, R136, R159, R180, R181, R203, R217). -/

namespace Sys2Proof.Machine

/-! ### What follows within a step -/

/-- One look of every block at what its conditions now allow. -/
def State.look (s : State) : State :=
  s.primesLook.handLook.pressLook.mixerChoose.trackLook.attemptLook.capDecide.careLook

/-- The blocks look until nothing more follows; three rounds reach every chain the rules can make within a step. -/
def State.react (s : State) : State := s.look.look.look

/-- The end of a step that began at `before`: what follows from it, LOAD_WANTED by its two ends (R73), and the store
writer and the Tag Bus taking their next work (R41, R200). A marker clear that RESTART gave is let go first, where nothing
holds it any more (R44). -/
def State.conclude (before s : State) : State := (State.loadWanted before s.react).releaseClear.storeTake.tagBegin

/-- An event's change, with what follows from it. -/
def State.after (change : State → State) (s : State) : State := State.conclude s (change s)

/-! ### STOP and RESUME (R229) -/

/-- The STOP input has become active: the machine is stopped, STOP is set, and every block stops its motion. -/
def State.stopMachine (s : State) : State :=
  let s1 := { s with stopped := true }.setFlag .stop []
  let s2 := (forCircuits (fun c u => u.pumpStop c) s1).careStop
  let s3 := ((s2.setStn Station.stop).setTrack Track.stop).abandonCycle
  mixes.foldl (fun u m => u.mixerStop m) s3

/-- A mixer is STOPPED or braking toward STOPPED. -/
def State.mixerHalting (s : State) : Bool := mixes.any fun m => (s.mixerRec m).halting

/-- The machine goes on: pumps, station, track and mixers; the rest follows within the step. -/
def State.resumeMachine (s : State) : State :=
  let s1 := forCircuits (fun c u => u.pumpResume c) { s with stopped := false }
  let s2 := (s1.setStn fun t => t.resume s.now).setTrack fun t => t.resume s.now
  mixes.foldl (fun u m => u.mixerResume m) s2

/-- RESUME (R229). -/
def resumeAnswer (fs : Fields) (s : State) : Answer :=
  .check (fs.malformed [] [] []) .syntaxError <|
  .check s.inp.stop .state <|
  .check (!s.stopped && !s.mixerHalting) .state <|
  .accept [] State.resumeMachine

/-! ### RESTART (R230) -/

/-- The tag queue is discarded, and the bus is taken as BUSY (R204). -/
def TagBus.restart (t : TagBus) : TagBus :=
  { ({ t with queue := [], backlog := [] } : TagBus).abandonActive with bus := .settling }

/-- A marker clear where the marker is stored set or a set is pending; it waits for the cut runs of the listed circuits
(R44). A set being written counts as stored: Assumption 44. -/
def State.storeRestart (s : State) : State :=
  if s.store.markerDue.isSome then { s with store := { s.store with heldClear := true } } else s

/-- The notice fields of START. -/
def startItems (c : StartCause) : List Item :=
  [.word "cause" (match c with
    | .power => "POWER"
    | .unclean => "UNCLEAN"
    | .restart => "RESTART")]

/-- The Counter Link's part of RESTART. -/
def State.linkRestart (s : State) : State :=
  let l := { s.link.clearFlags (fun _ => true) with
    enabled := Vector.replicate 8 true
    startCause := .restart }
  let s1 := { s with link := l.setFlag .start (startItems .restart) }
  if s.inp.stop then s1.setFlag .stop [] else s1

/-- RESTART reaches every block. -/
def State.restartMachine (s : State) : State :=
  let s1 := (forCircuits (fun c u => u.pumpRestart c) s).bookRestart
  let s2 := s1.stationRestart.trackRestart.lidderRestart
  let s3 := mixes.foldl (fun u m => u.mixerRestart m) s2
  let s4 := { s3 with tag := s3.tag.restart, calResult := none, lib := { s3.lib with cursor := 1 } }
  (((forCircuits (fun c u => u.circuitRestart c) s4).storeRestart).careRestart).linkRestart

/-- RESTART (R230). -/
def restartAnswer (fs : Fields) (_s : State) : Answer :=
  .check (fs.malformed [] [] []) .syntaxError <| .accept [] State.restartMachine

/-! ### Power-on (R232) -/

/-- The records whose check fails are taken as absent; a damaged marker reads as set, with every configured circuit
listed at 0 µL and no tin ids (R43). -/
def NonVolatile.damage (nv : NonVolatile) : RecordName → NonVolatile
  | .circuit c => { nv with circuits := updAt nv.circuits c fun _ => none }
  | .level c => { nv with levels := updAt nv.levels c fun _ => none }
  | .base b => { nv with bases := updAt nv.bases b fun _ => none }
  | .size z => { nv with sizes := updAt nv.sizes z fun _ => none }
  | .slot n => { nv with slots := putSlot n none nv.slots }
  | .scheme => { nv with scheme := none }
  | .lidPolicy => { nv with lidPolicy := none }
  | .lidCode m => { nv with lidCodes := updAt nv.lidCodes m fun _ => none }
  | .daily => { nv with daily := none }
  | .marker => { nv with marker := some ⟨[], []⟩ }

/-- The circuits of a store that hold a colourant code. -/
def NonVolatile.coded (nv : NonVolatile) : List Circ :=
  allCircuits.filter fun c => (nv.circuits[c].bind (·.code)).isSome

/-- The store as it is read at power-on. -/
def NonVolatile.read (nv : NonVolatile) (damaged : List RecordName) : NonVolatile :=
  let nv' := damaged.foldl NonVolatile.damage nv
  if damaged.contains .marker then { nv' with marker := some ⟨[], nv'.coded.map fun c => (c, 0)⟩ } else nv'

/-- The planned volume the marker records for a circuit. -/
def Marker.volume (m : Marker) (c : Circ) : Nat := ((m.vols.find? fun x => x.1 == c).map (·.2)).getD 0

def Marker.lists (m : Marker) (c : Circ) : Bool := m.vols.any fun x => x.1 == c

/-- A circuit record built from the store (R23, R24). A twin field is kept as stored, also where the other circuit does
not name this one back: Assumption 59. -/
def NonVolatile.circuit (nv : NonVolatile) (closed : Bool) (now : Nat) (c : Circ) : Circuit :=
  let g := nv.circuits[c].getD Settings.default
  let stored := min (nv.levels[c].getD 0) g.maxLevel
  let fitted := g.code.isSome
  { cfg := g
    state := if !fitted then .unfitted else if closed then .checking else .service
    reason := none
    trim := g.trim
    nmin := g.nmin
    pendingTrim := none
    pendingNmin := none
    level := stored - (nv.marker.map fun m => m.volume c).getD 0
    lowArmed := true
    lot := none
    checkKind := .powerOn
    origin := .ready
    openBatch := 0
    baseline := closed
    latchOpen := fitted && !closed
    lastDelivery := now
    stir := none
    purgeDue := none }

def NonVolatile.library (nv : NonVolatile) : Library := ⟨nv.bases, nv.sizes, nv.slots, 1⟩

def NonVolatile.lidder (nv : NonVolatile) : Lidder :=
  { Lidder.reset with
    policy := nv.lidPolicy.getD .hold
    mags := Vector.ofFn fun m => ⟨nv.lidCodes[m].getD m, 0⟩ }

/-- The store's work at power-on: the deducted levels are dirty, and a marker read set is to be cleared (R43). -/
def NonVolatile.store (nv : NonVolatile) (lost : Nat) : Store :=
  { Store.reset with
    nv := nv
    pendingClear := nv.marker.isSome
    dirty := Vector.ofFn fun c => (nv.marker.map fun m => m.lists c).getD false
    lost := lost }

/-- The notice fields of UNCLEAN_STOP (R225), in the order of the marker's list: Assumption 61. -/
def Marker.items (m : Marker) : List Item :=
  [ Item.listOrNone "tins" (m.tins.map fun n => [.num n]),
    Item.listOrNone "circuits" (m.vols.map fun x => [.num (circNo x.1), .num x.2]) ]

/-- The Counter Link with nothing set and nothing to send. -/
def Link.off : Link := { Link.reset with sending := none, flags := [] }

/-- START, and then UNCLEAN_STOP and STOP where they are set (R232). -/
def powerLink (marker : Option Marker) (stop : Bool) : Link :=
  let cause : StartCause := if marker.isSome then .unclean else .power
  let l := { Link.off with startCause := cause }.setFlag .start (startItems cause)
  let l1 := match marker with
    | some m => l.setFlag .uncleanStop m.items
    | none => l
  if stop then l1.setFlag .stop [] else l1

/-- A mixer at power-on: IDLE, or STOPPED with an orphan in its cradle (R181). Its clamp, of unknown position, is MOVING:
Assumption 62. -/
def State.mixerPower (s : State) (m : Mix) : State :=
  s.setMixer m fun _ =>
    match (s.placeRec m.place).tin with
    | none => { Mixer.reset with idleSince := s.now }
    | some id =>
      { Mixer.reset with
        state := .stopped, tin := some id, clamp := .moving, pending := some .unclamp, causes := [.power] }

/-- Every block comes up from the store as it is read, before the sensors are read. -/
def State.fromStore (s : State) (nv : NonVolatile) (lost : Nat) : State :=
  { State.reset with
    pending := s.pending
    now := s.now
    choices := s.choices
    stopped := s.inp.stop
    inp := s.inp
    circuits := Vector.ofFn fun c => nv.circuit s.inp.bays[c] s.now c
    lib := nv.library
    store := nv.store lost
    drive := { Drive.reset with scheme := nv.scheme.getD .continuous, frameStart := s.now }
    stn := { Station.reset with cap := if s.inp.stop then .halted .closed else .closing (s.now + capMotion) }
    lid := nv.lidder
    cares := { Care.reset with daily := nv.daily.getD 360, origin := s.now, minuteStart := s.now }
    link := powerLink nv.marker s.inp.stop }

/-- Power is applied (R232): the blocks come up, orphans and mixers are read from the sensors, each closed fitted bay
asks for its POWER_ON read, and LOW is evaluated on every circuit. -/
def State.powerOn (s : State) (damaged : List RecordName) : State :=
  let s1 := (s.fromStore (s.store.nv.read damaged) damaged.eraseDups.length).findOrphans
  let s2 := mixes.foldl (fun u m => u.mixerPower m) s1
  let s3 := forCircuits (fun c u => if (u.circuit c).state = .checking then u.askTag c .read else u) s2
  forCircuits (fun c u => u.lowEvaluate c) s3

/-- Power is lost: a write in progress leaves its record as it was, and every unkept state is gone (R38). -/
def State.powerLost (s : State) : State :=
  { State.reset with
    pending := s.pending
    powered := false
    now := s.now
    choices := s.choices
    inp := s.inp
    store := { Store.reset with nv := s.store.nv }
    link := Link.off }

end Sys2Proof.Machine
end

