-- ==== Sys2Proof/Machine/LinkRequests.lean ====
section
/-! DEFINITION. The requests of the Counter Link: FCLEAR, NOTICE, FLAGS and STATE (R227, R228, R231). -/

namespace Sys2Proof.Machine

/-! ### FCLEAR (R227) -/

/-- The flags of a name: 24 for a circuit flag, one for the others, none for a name not in the table. -/
def flagsNamed (t : Text) : List Flag := Flag.all.filter fun f => txt f.name == t

/-- The classes a class= field names: one, or all eight for ALL. -/
def classesNamed (t : Text) : List FlagClass :=
  if t = txt "ALL" then FlagClass.all else FlagClass.all.filter fun k => txt k.name == t

/-- Clear the flags p holds of; the reply tells how many were set. -/
def State.fclear (s : State) (p : Flag → Bool) : Answer :=
  .accept [.num "cleared" (s.link.flags.filter fun x => p x.1).length] fun u => { u with link := u.link.clearFlags p }

/-- The flags of the name, or the one of circuit c. -/
def flagPicked (all : List Flag) (c : Option Circ) (f : Flag) : Bool :=
  all.contains f && match c with
    | none => true
    | some d => f.circuit? == some d

/-- FCLEAR by flag=. -/
def fclearFlag (fs : Fields) (s : State) (name : Text) : Answer :=
  let all := flagsNamed name
  .check (fs.has "circuit" && all.any fun f => f.circuit?.isNone) .syntaxError <|
  .check (all.isEmpty || (fs.has "circuit" && (circ? (fs.numD "circuit" 0)).isNone)) .range <|
  s.fclear (flagPicked all (if fs.has "circuit" then circ? (fs.numD "circuit" 0) else none))

/-- FCLEAR (R227). -/
def fclearAnswer (fs : Fields) (s : State) : Answer :=
  .check (fs.malformed ["flag", "class", "circuit"] [] ["circuit"]) .syntaxError <|
  match fs.get "flag", fs.get "class" with
  | some name, none => fclearFlag fs s name
  | none, some name =>
    let ks := classesNamed name
    .check (fs.has "circuit") .syntaxError <|
    .check ks.isEmpty .range <| s.fclear fun f => ks.contains f.cls
  | _, _ => .refuse .syntaxError

/-! ### NOTICE and FLAGS (R228) -/

def onOff (b : Bool) : String := if b then "ON" else "OFF"

/-- The enable of one class, or of all classes in the order of the flags' table: Assumption 61. -/
def Link.noticeItems (l : Link) (ks : List FlagClass) : List Item :=
  match ks with
  | [k] => [.word "class" k.name, .word "mode" (onOff (l.isEnabled k))]
  | _ => [.word "class" "ALL", .field "mode" (ks.map fun k => [.word k.name, .word (onOff (l.isEnabled k))])]

def Link.setClasses (l : Link) (ks : List FlagClass) (on : Bool) : Link :=
  ks.foldl (fun m k => if on then m.enableClass k else m.disableClass k) l

/-- NOTICE (R228). -/
def noticeAnswer (fs : Fields) (s : State) : Answer :=
  .check (fs.malformed ["class", "mode"] ["class"] []) .syntaxError <|
  let ks := classesNamed ((fs.get "class").getD [])
  .check (ks.isEmpty || fs.unreadable "mode" (named? onOffTable)) .range <|
  match (fs.get "mode").bind (named? onOffTable) with
  | none => .report (s.link.noticeItems ks)
  | some on => .accept [] fun u => { u with link := u.link.setClasses ks on }

/-- A set flag as NAME, or NAME:c for a circuit flag. -/
def Flag.atoms (f : Flag) : List Atom :=
  .word f.name :: match f.circuit? with
    | some c => [.num (circNo c)]
    | none => []

/-- The notices waiting in the output list. -/
def Link.waiting (l : Link) : Nat := (l.output.filter OutLine.isNotice).length

/-- FLAGS (R228). -/
def flagsAnswer (fs : Fields) (s : State) : Answer :=
  .check (fs.malformed [] [] []) .syntaxError <|
  .report
    [ Item.listOrNone "set" ((Flag.all.filter s.link.isSet).map Flag.atoms),
      .num "waiting" s.link.waiting,
      Item.listOrNone "enabled" ((FlagClass.all.filter s.link.isEnabled).map fun k => [.word k.name]) ]

/-! ### STATE (R231) -/

def StartCause.name : StartCause → String
  | .power => "POWER" | .unclean => "UNCLEAN" | .restart => "RESTART"

def State.countIn (s : State) (p : CircuitState → Bool) : Nat :=
  (allCircuits.filter fun c => p (s.circuit c).state).length

/-- STATE (R231). -/
def stateAnswer (fs : Fields) (s : State) : Answer :=
  .check (fs.malformed [] [] []) .syntaxError <|
  .report
    [ .word "stop" (if s.inp.stop then "ACTIVE" else "INACTIVE"),
      .word "machine" (if s.stopped then "STOPPED" else "RUN"),
      .word "start" s.link.startCause.name,
      .num "lines" s.bk.lines.length,
      s.wantedItem,
      .num "tins" s.track.tins.length,
      .word "job" s.stn.job.name,
      .parts "cap" (capAtoms s.stn.cap),
      .word "scale" s.stn.scale.name,
      .field "circuits"
        [ [.word "READY", .num (s.countIn (· == .ready))],
          [.word "EMPTY", .num (s.countIn (· == .empty))],
          [.word "BLOCKED", .num (s.countIn (· == .blocked))],
          [.word "SERVICE", .num (s.countIn (· == .service))],
          [.word "OTHER", .num (s.countIn fun g =>
            g == .unfitted || g == .checking || g == .priming || g == .releasing)] ],
      .parts "store" [.num s.store.fifo.length, .num s.store.dirtyList.length],
      .num "flags" s.link.flags.length,
      .num "waiting" s.link.waiting,
      .num "overrun" s.link.overrun ]

end Sys2Proof.Machine
end

