-- ==== Sys2Proof/Machine/Reception.lean ====
section
/-! DEFINITION. Taking a request, and the input places of the Counter Link: reception, the form check, overrun and the
transmitter (sections 11.1 to 11.3). -/

namespace Sys2Proof.Machine

/-! ### Taking a request (R223, R224) -/

/-- A request is taken with its answer: the reply joins the output list, and an accepted request makes its change, with
what follows from it in the same step. -/
def State.give (s : State) (place : Bool) : Answer → State
  | .refuse r => s.pushReply place (.no r)
  | .report items => s.pushReply place (.ok items)
  | .accept items effect => State.conclude s (effect (s.pushReply place (.ok items)))

/-- A request row of the table: the request is taken by its owning block. Assumption 5. -/
def request (answer : State → Answer) (s : State) : Host.Outcome State Fault Refusal :=
  whenPowered (fun t => t.give false (answer t)) s

/-! ### The request set (section 11.5) -/

def verbTable : List (String × (Fields → State → Answer)) :=
  [ ("CSET", csetAnswer), ("TRIM", trimAnswer), ("CANOUT", canoutAnswer), ("CREAD", creadAnswer),
    ("BSET", bsetAnswer), ("BREAD", breadAnswer), ("BDEL", bdelAnswer), ("SSET", ssetAnswer), ("SREAD", sreadAnswer),
    ("SDEL", sdelAnswer), ("FSTORE", fstoreAnswer), ("FREAD", freadAnswer), ("FNEXT", fnextAnswer),
    ("FERASE", feraseAnswer) ]
  ++ [ ("NVSTAT", nvstatAnswer), ("PREVIEW", previewAnswer), ("ORDER", orderAnswer), ("HOLD", holdAnswer),
    ("GO", goAnswer), ("CANCEL", cancelAnswer), ("WANTED", wantedAnswer), ("LREAD", lreadAnswer), ("BOOK", bookAnswer),
    ("SCHEME", schemeAnswer), ("PUMP", pumpAnswer), ("SCALE", scaleAnswer), ("CALRUN", calrunAnswer),
    ("CALTAKE", caltakeAnswer), ("CALREAD", calreadAnswer), ("STATION", stationAnswer) ]
  ++ [ ("LOADED", loadedAnswer), ("CONFIRM", confirmAnswer), ("CLEAR", clearAnswer), ("ZONES", zonesAnswer),
    ("TREAD", treadAnswer), ("FLIST", flistAnswer), ("LIDS", lidsAnswer), ("LIDPOL", lidpolAnswer),
    ("LIDDER", lidderAnswer), ("MIXERS", mixersAnswer), ("TAGBUS", tagbusAnswer), ("TAG", tagAnswer),
    ("TIME", timeAnswer), ("STIRDAY", stirdayAnswer), ("PURGE", purgeAnswer), ("STIR", stirAnswer),
    ("CARE", careAnswer) ]
  ++ [ ("FCLEAR", fclearAnswer), ("NOTICE", noticeAnswer), ("FLAGS", flagsAnswer), ("RESUME", resumeAnswer),
    ("RESTART", restartAnswer), ("STATE", stateAnswer) ]

/-! ### The form of a message (R219, R222) -/

/-- The characters of a message; `none` where one of them is not a printable character. -/
def messageText : List RxChar → Option Text
  | [] => some []
  | .framingError :: _ => none
  | .chr c :: rest => if 32 ≤ c.toNat ∧ c.toNat ≤ 126 then (messageText rest).map (c :: ·) else none

/-- Drop a CR that stands directly before the LF. -/
def dropCr (cs : List RxChar) : List RxChar :=
  if cs.getLast? = some (.chr 13) then cs.dropLast else cs

/-- An empty line: no characters, or only spaces (R219). -/
def emptyLine (cs : List RxChar) : Bool := (dropCr cs).all (· == .chr 32)

/-- The words of a line: its runs of characters other than the space. `word` is the word so far. -/
def splitWords (word : Text) : Text → List Text
  | [] => if word = [] then [] else [word]
  | c :: cs =>
    if c = 32 then (if word = [] then splitWords [] cs else word :: splitWords [] cs) else splitWords (word ++ [c]) cs

/-- A character of a key: a small letter or a digit. -/
def keyChar (c : Chr) : Bool := (97 ≤ c.toNat && c.toNat ≤ 122) || (48 ≤ c.toNat && c.toNat ≤ 57)

/-- A word of the form key=value. -/
def field? (w : Text) : Option Field :=
  let key := w.takeWhile (· != 61)
  match w.dropWhile (· != 61) with
  | [] => none
  | _ :: value => if key = [] ∨ value = [] ∨ !key.all keyChar then none else some ⟨key, value⟩

/-- Every word is a field. -/
def fields? : List Text → Option Fields
  | [] => some []
  | w :: ws => (field? w).bind fun f => (fields? ws).map (f :: ·)

/-- line= may be repeated in ORDER and FSTORE alone. -/
def mayRepeatLine (verb : Text) : Bool := verb == txt "ORDER" || verb == txt "FSTORE"

/-- A key is given twice where its rule does not allow it. -/
def repeatedIn (fs : Fields) (verb : Text) : Bool := fs.repeatsKey (mayRepeatLine verb)

/-- The answer to a message: its form is checked, and a good request goes to its owning block (R222). -/
def messageAnswer (chars : List RxChar) (s : State) : Answer :=
  let body := dropCr chars
  if body.length > 200 then .refuse .syntaxError
  else
    match messageText body with
    | none => .refuse .syntaxError
    | some t =>
      match splitWords [] t with
      | [] => .refuse .syntaxError
      | verb :: words =>
        match fields? words with
        | none => .refuse .syntaxError
        | some fs =>
          if repeatedIn fs verb then .refuse .syntaxError
          else
            match verbTable.find? fun x => txt x.1 == verb with
            | none => .refuse .unknown
            | some x => x.2 fs s

/-! ### The input places (R220, R221) -/

def State.setInputs (s : State) (f : List InEntry → List InEntry) : State :=
  { s with link := { s.link with inputs := f s.link.inputs } }

/-- The first entry that is not answered yet, with its place in the list. -/
def firstOpen : List InEntry → Option (Nat × InEntry)
  | [] => none
  | .answered :: rest => (firstOpen rest).map fun x => (x.1 + 1, x.2)
  | e :: _ => some (0, e)

/-- Take the first entry that has not been taken, where it can be taken now. -/
def State.takeEntry (s : State) : State :=
  match firstOpen s.link.inputs with
  | some (k, .received chars) =>
    let t := s.setInputs fun es => es.set k .answered
    t.give true (messageAnswer chars t)
  | some (k, .overrun) => (s.setInputs fun es => es.set k .answered).pushReply true (.no .overrun)
  | _ => s

/-- Take every entry that can be taken; the list has at most 4. -/
def State.takeEntries (s : State) : State := s.takeEntry.takeEntry.takeEntry.takeEntry

/-- The first character of a message takes a free place (R220). -/
def State.firstCharacter (s : State) : State :=
  if s.link.inputs.length < Config.inputPlaces ∧ ¬InEntry.receiving ∈ s.link.inputs then
    s.setInputs fun es => es ++ [.receiving]
  else s

/-- A message that begins while every place is in use is discarded (R221). -/
def State.discarded (s : State) : State :=
  if s.link.inputs.length < Config.inputPlaces then s
  else { s with link := { s.link with overrun := min 255 (s.link.overrun + 1) } }

/-- The LF of the message in reception arrives (R220). An empty line is ignored (R219). So is a message of CRs and spaces alone
with a CR not directly before its LF, which has taken no place: R219 refuses it SYNTAX, R220 gives it no place and so no reply
(Assumption 35). -/
def State.received (s : State) (chars : List RxChar) : State :=
  if InEntry.receiving ∈ s.link.inputs ∧ emptyLine chars = false then
    (s.setInputs fun es => es.map fun e => if e = .receiving then .received chars else e).takeEntries
  else s

/-! ### The transmitter (R224) -/

/-- The place of the reply that has been sent is freed, and an overrun entry takes it where messages were discarded. -/
def Link.freePlace (l : Link) : Link :=
  let l' := { l with inputs := l.inputs.erase .answered }
  if 0 < l'.overrun then { l' with inputs := l'.inputs ++ [.overrun], overrun := l'.overrun - 1 } else l'

/-- The next waiting line begins. -/
def Link.sendNext (l : Link) : Link := { l with sending := l.output.head?, output := l.output.tail }

/-- A line has been sent in full. -/
def State.lineSent (s : State) : State :=
  match s.link.sending with
  | none => s
  | some (.reply true _) => State.takeEntries { s with link := s.link.freePlace.sendNext }
  | some _ => { s with link := s.link.sendNext }

end Sys2Proof.Machine
end

