-- ==== Sys2Proof/Machine/Events.lean ====
section
/-! DEFINITION. The events of the table: what a sensor, a driver, the bus, the serial line or the clock reports, and
what the step it begins does. An event that nothing of the part awaits (a burst with no burst outstanding, a motion's
end with no motion) changes nothing but the input it reports; Assumption 6. -/

namespace Sys2Proof.Machine

/-! ### The shapes of an event -/

/-- An event the part takes, with what follows from it in the same step. -/
def event (change : State → State) (s : State) : Host.Outcome State Fault Refusal :=
  whenPowered (State.after change) s

/-- An event that first changes an input of the line. -/
def inputEvent (setInput : Inputs → Inputs) (change : State → State) (s : State) : Host.Outcome State Fault Refusal :=
  withInput setInput (State.after change) s

/-! ### Power and STOP (R229, R232, R38) -/

/-- POWER_ON (R232). -/
def execPowerOn (damaged : List RecordName) (s : State) : Host.Outcome State Fault Refusal :=
  .next (State.conclude s (s.powerOn damaged))

/-- POWER_LOSS (R38). -/
def execPowerLoss (s : State) : Host.Outcome State Fault Refusal := whenPowered State.powerLost s

/-- STOP_INPUT_ACTIVE (R229). -/
def execStopInputActive (s : State) : Host.Outcome State Fault Refusal :=
  inputEvent (fun i => { i with stop := true }) State.stopMachine s

/-- STOP_INPUT_RELEASED (R229): the input alone changes. -/
def execStopInputReleased (s : State) : Host.Outcome State Fault Refusal :=
  withInput (fun i => { i with stop := false }) id s

/-! ### Circuits, pumps and store (R4, R90 to R99, R105, R38) -/

/-- BAY_SWITCH_CHANGE (R4). -/
def execBaySwitchChange (c : Circ) (closed : Bool) (s : State) : Host.Outcome State Fault Refusal :=
  inputEvent (fun i => { i with bays := updAt i.bays c fun _ => closed }) (fun t => t.bayChanged c) s

/-- A frame of 20 ms begins (R91, R92). -/
def State.beginFrame (s : State) : State :=
  let t := max s.now (s.drive.frameStart + 20 * Config.ms)
  { s with now := t, drive := s.drive.frame t }

/-- FRAME_START (R92). -/
def execFrameStart (s : State) : Host.Outcome State Fault Refusal := whenPowered State.beginFrame s

/-- SLOT (R93). -/
def execSlot (s : State) : Host.Outcome State Fault Refusal := whenPowered State.nextSlot s

/-- BURST_COMPLETE (R96). -/
def execBurstComplete (c : Circ) (s : State) : Host.Outcome State Fault Refusal := event (fun t => t.burstComplete c) s

/-- BURST_STALL (R105). -/
def execBurstStall (c : Circ) (s : State) : Host.Outcome State Fault Refusal := event (fun t => t.burstStall c) s

/-- BURST_TIMEOUT (R105). -/
def execBurstTimeout (c : Circ) (s : State) : Host.Outcome State Fault Refusal := event (fun t => t.burstTimeout c) s

/-- STORE_WRITE_END (R38). -/
def execStoreWriteEnd (s : State) : Host.Outcome State Fault Refusal := whenPowered State.storeWriteEnd s

/-! ### The station (R119, R120, R122) -/

/-- CAP_MOTION_END (R119). -/
def execCapMotionEnd (s : State) : Host.Outcome State Fault Refusal := event State.capEnds s

/-- CLOSING_DELAY_EXPIRY (R120). -/
def execClosingDelayExpiry (s : State) : Host.Outcome State Fault Refusal := event State.delayEnds s

/-- SETTLE_END (R122): the scale shows a reading at the end of a settle. -/
def execSettleEnd (reading : Reading) (s : State) : Host.Outcome State Fault Refusal :=
  inputEvent (fun i => { i with scale := reading }) (fun t => t.settleEnds reading) s

/-! ### The track (R147 to R153) -/

/-- The sensor of a place takes a level. -/
def Inputs.setPlace (i : Inputs) (p : Place) (tin : Bool) : Inputs :=
  { i with places := updAt i.places p.ix fun _ => tin }

/-- ARRIVAL (R147, R148). -/
def execArrival (dest : Place) (marks : Nat) (s : State) : Host.Outcome State Fault Refusal :=
  inputEvent (fun i => i.setPlace dest true) (fun t => t.arrived dest marks) s

/-- JAM (R149). -/
def execJam (dest : Place) (s : State) : Host.Outcome State Fault Refusal := event (fun t => t.jammed dest) s

/-- ZONE_DISAGREEMENT (R150). -/
def execZoneDisagreement (zone : Place) (tin : Bool) (s : State) : Host.Outcome State Fault Refusal :=
  inputEvent (fun i => i.setPlace zone tin) (fun t => t.placeCompare zone) s

/-- CRADLE_DISAGREEMENT (R178). -/
def execCradleDisagreement (m : Mix) (tin : Bool) (s : State) : Host.Outcome State Fault Refusal :=
  inputEvent (fun i => i.setPlace m.place tin) (fun t => t.cradleCompare m) s

/-- A lane position sensor takes a level. -/
def Inputs.setLane (i : Inputs) (k : Fin 4) (tin : Bool) : Inputs := { i with lane := updAt i.lane k fun _ => tin }

/-- HEAD_TAKEN (R153): the OUT 1 sensor clears. -/
def execHeadTaken (s : State) : Host.Outcome State Fault Refusal :=
  inputEvent (fun i => i.setLane 0 false) State.headTaken s

/-- The sensor a PLACE_SENSOR_CHANGE reports takes its level. -/
def Inputs.sense (i : Inputs) : SensorChange → Inputs
  | .place p tin => i.setPlace p tin
  | .lane k tin => i.setLane k tin
  | .height h => { i with height := h }

/-- A sensor change is taken: a place is compared with its record, and a clearing of OUT 1 takes the head (R150, R153).
`was` is the level OUT 1 showed before. -/
def State.sensed (was : Bool) (change : SensorChange) (s : State) : State :=
  match change with
  | .place p _ => s.placeCompare p
  | .lane k tin => if k = 0 ∧ was ∧ tin = false then s.headTaken else s
  | .height _ => s

/-- PLACE_SENSOR_CHANGE (R143). -/
def execPlaceSensorChange (change : SensorChange) (s : State) : Host.Outcome State Fault Refusal :=
  inputEvent (fun i => i.sense change) (State.sensed s.inp.lane[0] change) s

/-! ### The lidder (R164 to R166) -/

/-- PRESS_CYCLE_END (R165). -/
def execPressCycleEnd (seated : Bool) (s : State) : Host.Outcome State Fault Refusal :=
  inputEvent (fun i => { i with seated := seated }) (fun t => t.cycleEnds seated) s

/-- GUARD_OPEN (R166). -/
def execGuardOpen (s : State) : Host.Outcome State Fault Refusal :=
  inputEvent (fun i => { i with guardOpen := true }) State.abandonCycle s

/-- GUARD_CLOSE (R166). -/
def execGuardClose (s : State) : Host.Outcome State Fault Refusal :=
  inputEvent (fun i => { i with guardOpen := false }) id s

/-- LID_SENSOR_CHANGE (R164): a sensor that comes to show lids makes a waiting tin look again. -/
def execLidSensorChange (m : Fin 3) (lids : Bool) (s : State) : Host.Outcome State Fault Refusal :=
  inputEvent (fun i => { i with lids := updAt i.lids m fun _ => lids })
    (fun t => if lids then t.lidSearch else t) s

/-! ### The mixers (R173, R175) -/

def Inputs.setDoor (i : Inputs) (m : Mix) (b : Bool) : Inputs := { i with doors := updAt i.doors m.ix fun _ => b }

/-- DOOR_OPEN (R175). -/
def execDoorOpen (m : Mix) (s : State) : Host.Outcome State Fault Refusal :=
  inputEvent (fun i => i.setDoor m true) (fun t => t.doorOpens m) s

/-- DOOR_CLOSE (R175). -/
def execDoorClose (m : Mix) (s : State) : Host.Outcome State Fault Refusal :=
  inputEvent (fun i => i.setDoor m false) id s

/-- CLAMP_END (R173). -/
def execClampEnd (m : Mix) (s : State) : Host.Outcome State Fault Refusal := event (fun t => t.clampEnds m) s

/-- MIX_END (R173). -/
def execMixEnd (m : Mix) (s : State) : Host.Outcome State Fault Refusal := event (fun t => t.mixEnds m) s

/-- BRAKE_END (R173). -/
def execBrakeEnd (m : Mix) (s : State) : Host.Outcome State Fault Refusal := event (fun t => t.brakeEnds m) s

/-- UNCLAMP_END (R173). -/
def execUnclampEnd (m : Mix) (s : State) : Host.Outcome State Fault Refusal := event (fun t => t.unclampEnds m) s

/-! ### Care (R207 to R212) -/

/-- STIR_END (R210). -/
def execStirEnd (c : Circ) (s : State) : Host.Outcome State Fault Refusal := event (fun t => t.stirEnds c) s

/-- STIR_BOUNDARY (R208). -/
def execStirBoundary (s : State) : Host.Outcome State Fault Refusal := event State.stirBoundary s

/-- SITE_MINUTE (R207). -/
def execSiteMinute (s : State) : Host.Outcome State Fault Refusal := event State.siteMinute s

/-- PURGE_INTERVAL_ELAPSED (R212). -/
def execPurgeIntervalElapsed (c : Circ) (s : State) : Host.Outcome State Fault Refusal :=
  event (fun t => t.purgeElapses c) s

/-! ### The tag bus (R186 to R198) -/

/-- START_CONDITION_SEEN (R186). -/
def execStartConditionSeen (s : State) : Host.Outcome State Fault Refusal := event State.startSeen s

/-- STOP_CONDITION_SEEN (R186). -/
def execStopConditionSeen (s : State) : Host.Outcome State Fault Refusal := event State.stopSeenOnBus s

/-- BUS_LINES_HIGH (R186). -/
def execBusLinesHigh (s : State) : Host.Outcome State Fault Refusal := event State.linesHigh s

/-- TAKEN (R188). -/
def execTaken (s : State) : Host.Outcome State Fault Refusal := event State.startTaken s

/-- ADDR_ACK (R188). -/
def execAddrAck (s : State) : Host.Outcome State Fault Refusal := event State.addressAcked s

/-- ADDR_NAK (R188). -/
def execAddrNak (s : State) : Host.Outcome State Fault Refusal := event State.addressNaked s

/-- BYTE_ACK (R188). -/
def execByteAck (data : BitVec 8) (s : State) : Host.Outcome State Fault Refusal := event (fun t => t.byteAcked data) s

/-- BYTE_NAK (R188). -/
def execByteNak (s : State) : Host.Outcome State Fault Refusal := event State.byteNaked s

/-- LOST (R187). -/
def execLost (s : State) : Host.Outcome State Fault Refusal := event State.arbitrationLost s

/-- LINE_ERROR (R188). -/
def execLineError (s : State) : Host.Outcome State Fault Refusal := event State.lineBroken s

/-- STOP_SENT (R191). -/
def execStopSent (s : State) : Host.Outcome State Fault Refusal := event State.stopEnded s

/-- POLL_INTERVAL (R194). -/
def execPollInterval (s : State) : Host.Outcome State Fault Refusal := event State.pollDue s

/-- TAG_WRITE_TIMEOUT (R194). -/
def execTagWriteTimeout (s : State) : Host.Outcome State Fault Refusal := event State.pollTimeout s

/-- BUS_WAIT (R196). -/
def execBusWait (s : State) : Host.Outcome State Fault Refusal := event State.busWaited s

/-! ### The serial line (R219 to R224) -/

/-- MESSAGE_FIRST_CHARACTER (R220). -/
def execMessageFirstCharacter (s : State) : Host.Outcome State Fault Refusal := whenPowered State.firstCharacter s

/-- MESSAGE_DISCARDED (R221). -/
def execMessageDiscarded (s : State) : Host.Outcome State Fault Refusal := whenPowered State.discarded s

/-- MESSAGE_RECEIVED (R220). -/
def execMessageReceived (chars : List RxChar) (s : State) : Host.Outcome State Fault Refusal :=
  whenPowered (fun t => t.received chars) s

/-- LINE_SENT (R224). -/
def execLineSent (s : State) : Host.Outcome State Fault Refusal := whenPowered State.lineSent s

end Sys2Proof.Machine
end

