-- ==== Sys2Proof/Machine/Requests.lean ====
section
/-! DEFINITION. The request rows of the table: each request as its owning block takes it (section 11.5). A row's own
rule stands at the answer it cites. -/

namespace Sys2Proof.Machine

/-- CSET (R1). -/
def execCset (fs : Fields) (s : State) : Host.Outcome State Fault Refusal := request (csetAnswer fs) s

/-- TRIM (R21). -/
def execTrim (fs : Fields) (s : State) : Host.Outcome State Fault Refusal := request (trimAnswer fs) s

/-- CANOUT (R12). -/
def execCanout (fs : Fields) (s : State) : Host.Outcome State Fault Refusal := request (canoutAnswer fs) s

/-- CREAD (R27). -/
def execCread (fs : Fields) (s : State) : Host.Outcome State Fault Refusal := request (creadAnswer fs) s

/-- BSET (R28). -/
def execBset (fs : Fields) (s : State) : Host.Outcome State Fault Refusal := request (bsetAnswer fs) s

/-- BREAD (R29). -/
def execBread (fs : Fields) (s : State) : Host.Outcome State Fault Refusal := request (breadAnswer fs) s

/-- BDEL (R29). -/
def execBdel (fs : Fields) (s : State) : Host.Outcome State Fault Refusal := request (bdelAnswer fs) s

/-- SSET (R30). -/
def execSset (fs : Fields) (s : State) : Host.Outcome State Fault Refusal := request (ssetAnswer fs) s

/-- SREAD (R31). -/
def execSread (fs : Fields) (s : State) : Host.Outcome State Fault Refusal := request (sreadAnswer fs) s

/-- SDEL (R31). -/
def execSdel (fs : Fields) (s : State) : Host.Outcome State Fault Refusal := request (sdelAnswer fs) s

/-- FSTORE (R34). -/
def execFstore (fs : Fields) (s : State) : Host.Outcome State Fault Refusal := request (fstoreAnswer fs) s

/-- FREAD (R35). -/
def execFread (fs : Fields) (s : State) : Host.Outcome State Fault Refusal := request (freadAnswer fs) s

/-- FNEXT (R36). -/
def execFnext (fs : Fields) (s : State) : Host.Outcome State Fault Refusal := request (fnextAnswer fs) s

/-- FERASE (R37). -/
def execFerase (fs : Fields) (s : State) : Host.Outcome State Fault Refusal := request (feraseAnswer fs) s

/-- NVSTAT (R45). -/
def execNvstat (fs : Fields) (s : State) : Host.Outcome State Fault Refusal := request (nvstatAnswer fs) s

/-- PREVIEW (R59). -/
def execPreview (fs : Fields) (s : State) : Host.Outcome State Fault Refusal := request (previewAnswer fs) s

/-- ORDER (R64). -/
def execOrder (fs : Fields) (s : State) : Host.Outcome State Fault Refusal := request (orderAnswer fs) s

/-- HOLD (R76). -/
def execHold (fs : Fields) (s : State) : Host.Outcome State Fault Refusal := request (holdAnswer fs) s

/-- GO (R79). -/
def execGo (fs : Fields) (s : State) : Host.Outcome State Fault Refusal := request (goAnswer fs) s

/-- CANCEL (R80). -/
def execCancel (fs : Fields) (s : State) : Host.Outcome State Fault Refusal := request (cancelAnswer fs) s

/-- CANCEL_AFTER (R81). -/
def execCancelAfter (fs : Fields) (s : State) : Host.Outcome State Fault Refusal := request (cancelAnswer fs) s

/-- WANTED (R75). -/
def execWanted (fs : Fields) (s : State) : Host.Outcome State Fault Refusal := request (wantedAnswer fs) s

/-- LREAD (R86). -/
def execLread (fs : Fields) (s : State) : Host.Outcome State Fault Refusal := request (lreadAnswer fs) s

/-- BOOK (R87). -/
def execBook (fs : Fields) (s : State) : Host.Outcome State Fault Refusal := request (bookAnswer fs) s

/-- SCHEME (R91). -/
def execScheme (fs : Fields) (s : State) : Host.Outcome State Fault Refusal := request (schemeAnswer fs) s

/-- PUMP (R112). -/
def execPump (fs : Fields) (s : State) : Host.Outcome State Fault Refusal := request (pumpAnswer fs) s

/-- SCALE (R129). -/
def execScale (fs : Fields) (s : State) : Host.Outcome State Fault Refusal := request (scaleAnswer fs) s

/-- CALRUN (R130). -/
def execCalrun (fs : Fields) (s : State) : Host.Outcome State Fault Refusal := request (calrunAnswer fs) s

/-- CALTAKE (R133). -/
def execCaltake (fs : Fields) (s : State) : Host.Outcome State Fault Refusal := request (caltakeAnswer fs) s

/-- CALREAD (R134). -/
def execCalread (fs : Fields) (s : State) : Host.Outcome State Fault Refusal := request (calreadAnswer fs) s

/-- STATION (R138). -/
def execStation (fs : Fields) (s : State) : Host.Outcome State Fault Refusal := request (stationAnswer fs) s

/-- LOADED (R142). -/
def execLoaded (fs : Fields) (s : State) : Host.Outcome State Fault Refusal := request (loadedAnswer fs) s

/-- CONFIRM (R151). -/
def execConfirm (fs : Fields) (s : State) : Host.Outcome State Fault Refusal := request (confirmAnswer fs) s

/-- CONFIRM_OUT (R155). -/
def execConfirmOut (fs : Fields) (s : State) : Host.Outcome State Fault Refusal := request (confirmAnswer fs) s

/-- CLEAR (R157). -/
def execClear (fs : Fields) (s : State) : Host.Outcome State Fault Refusal := request (clearAnswer fs) s

/-- ZONES (R161). -/
def execZones (fs : Fields) (s : State) : Host.Outcome State Fault Refusal := request (zonesAnswer fs) s

/-- TREAD (R162). -/
def execTread (fs : Fields) (s : State) : Host.Outcome State Fault Refusal := request (treadAnswer fs) s

/-- FLIST (R162). -/
def execFlist (fs : Fields) (s : State) : Host.Outcome State Fault Refusal := request (flistAnswer fs) s

/-- LIDS (R168). -/
def execLids (fs : Fields) (s : State) : Host.Outcome State Fault Refusal := request (lidsAnswer fs) s

/-- LIDPOL (R170). -/
def execLidpol (fs : Fields) (s : State) : Host.Outcome State Fault Refusal := request (lidpolAnswer fs) s

/-- LIDDER (R183). -/
def execLidder (fs : Fields) (s : State) : Host.Outcome State Fault Refusal := request (lidderAnswer fs) s

/-- MIXERS (R184). -/
def execMixers (fs : Fields) (s : State) : Host.Outcome State Fault Refusal := request (mixersAnswer fs) s

/-- TAGBUS (R205). -/
def execTagbus (fs : Fields) (s : State) : Host.Outcome State Fault Refusal := request (tagbusAnswer fs) s

/-- TAG (R206). -/
def execTag (fs : Fields) (s : State) : Host.Outcome State Fault Refusal := request (tagAnswer fs) s

/-- TIME (R207). -/
def execTime (fs : Fields) (s : State) : Host.Outcome State Fault Refusal := request (timeAnswer fs) s

/-- STIRDAY (R207). -/
def execStirday (fs : Fields) (s : State) : Host.Outcome State Fault Refusal := request (stirdayAnswer fs) s

/-- PURGE (R214). -/
def execPurge (fs : Fields) (s : State) : Host.Outcome State Fault Refusal := request (purgeAnswer fs) s

/-- STIR (R215). -/
def execStir (fs : Fields) (s : State) : Host.Outcome State Fault Refusal := request (stirAnswer fs) s

/-- CARE (R218). -/
def execCare (fs : Fields) (s : State) : Host.Outcome State Fault Refusal := request (careAnswer fs) s

/-- FCLEAR (R227). -/
def execFclear (fs : Fields) (s : State) : Host.Outcome State Fault Refusal := request (fclearAnswer fs) s

/-- NOTICE (R228). -/
def execNotice (fs : Fields) (s : State) : Host.Outcome State Fault Refusal := request (noticeAnswer fs) s

/-- FLAGS (R228). -/
def execFlags (fs : Fields) (s : State) : Host.Outcome State Fault Refusal := request (flagsAnswer fs) s

/-- RESUME (R229). -/
def execResume (fs : Fields) (s : State) : Host.Outcome State Fault Refusal := request (resumeAnswer fs) s

/-- RESTART (R230). -/
def execRestart (fs : Fields) (s : State) : Host.Outcome State Fault Refusal := request (restartAnswer fs) s

/-- STATE (R231). -/
def execState (fs : Fields) (s : State) : Host.Outcome State Fault Refusal := request (stateAnswer fs) s

end Sys2Proof.Machine
end

