-- ==== Sys2Proof/Machine/Dispatch.lean ====
section
/-! DEFINITION. One arm for each command of the table: a direct call of its meaning. -/

namespace Sys2Proof.Machine

def exec (i : Instr) (s : State) : Host.Outcome State Fault Refusal :=
  match i with
  | .powerOn damaged => Sys2Proof.Machine.execPowerOn damaged s
  | .stopInputActive => Sys2Proof.Machine.execStopInputActive s
  | .stopInputReleased => Sys2Proof.Machine.execStopInputReleased s
  | .baySwitchChange c closed => Sys2Proof.Machine.execBaySwitchChange c closed s
  | .frameStart => Sys2Proof.Machine.execFrameStart s
  | .slot => Sys2Proof.Machine.execSlot s
  | .burstComplete c => Sys2Proof.Machine.execBurstComplete c s
  | .burstStall c => Sys2Proof.Machine.execBurstStall c s
  | .burstTimeout c => Sys2Proof.Machine.execBurstTimeout c s
  | .storeWriteEnd => Sys2Proof.Machine.execStoreWriteEnd s
  | .capMotionEnd => Sys2Proof.Machine.execCapMotionEnd s
  | .closingDelayExpiry => Sys2Proof.Machine.execClosingDelayExpiry s
  | .settleEnd reading => Sys2Proof.Machine.execSettleEnd reading s
  | .arrival dest marks => Sys2Proof.Machine.execArrival dest marks s
  | .jam dest => Sys2Proof.Machine.execJam dest s
  | .zoneDisagreement zone tin => Sys2Proof.Machine.execZoneDisagreement zone tin s
  | .cradleDisagreement m tin => Sys2Proof.Machine.execCradleDisagreement m tin s
  | .headTaken => Sys2Proof.Machine.execHeadTaken s
  | .pressCycleEnd seated => Sys2Proof.Machine.execPressCycleEnd seated s
  | .guardOpen => Sys2Proof.Machine.execGuardOpen s
  | .guardClose => Sys2Proof.Machine.execGuardClose s
  | .lidSensorChange m lids => Sys2Proof.Machine.execLidSensorChange m lids s
  | .doorOpen m => Sys2Proof.Machine.execDoorOpen m s
  | .doorClose m => Sys2Proof.Machine.execDoorClose m s
  | .clampEnd m => Sys2Proof.Machine.execClampEnd m s
  | .mixEnd m => Sys2Proof.Machine.execMixEnd m s
  | .brakeEnd m => Sys2Proof.Machine.execBrakeEnd m s
  | .unclampEnd m => Sys2Proof.Machine.execUnclampEnd m s
  | .stirEnd c => Sys2Proof.Machine.execStirEnd c s
  | .stirBoundary => Sys2Proof.Machine.execStirBoundary s
  | .siteMinute => Sys2Proof.Machine.execSiteMinute s
  | .purgeIntervalElapsed c => Sys2Proof.Machine.execPurgeIntervalElapsed c s
  | .startConditionSeen => Sys2Proof.Machine.execStartConditionSeen s
  | .stopConditionSeen => Sys2Proof.Machine.execStopConditionSeen s
  | .busLinesHigh => Sys2Proof.Machine.execBusLinesHigh s
  | .taken => Sys2Proof.Machine.execTaken s
  | .addrAck => Sys2Proof.Machine.execAddrAck s
  | .addrNak => Sys2Proof.Machine.execAddrNak s
  | .byteAck data => Sys2Proof.Machine.execByteAck data s
  | .byteNak => Sys2Proof.Machine.execByteNak s
  | .lost => Sys2Proof.Machine.execLost s
  | .lineError => Sys2Proof.Machine.execLineError s
  | .stopSent => Sys2Proof.Machine.execStopSent s
  | .pollInterval => Sys2Proof.Machine.execPollInterval s
  | .tagWriteTimeout => Sys2Proof.Machine.execTagWriteTimeout s
  | .busWait => Sys2Proof.Machine.execBusWait s
  | .messageReceived chars => Sys2Proof.Machine.execMessageReceived chars s
  | .messageDiscarded => Sys2Proof.Machine.execMessageDiscarded s
  | .lineSent => Sys2Proof.Machine.execLineSent s
  | .cset fs => Sys2Proof.Machine.execCset fs s
  | .trim fs => Sys2Proof.Machine.execTrim fs s
  | .canout fs => Sys2Proof.Machine.execCanout fs s
  | .cread fs => Sys2Proof.Machine.execCread fs s
  | .bset fs => Sys2Proof.Machine.execBset fs s
  | .bread fs => Sys2Proof.Machine.execBread fs s
  | .bdel fs => Sys2Proof.Machine.execBdel fs s
  | .sset fs => Sys2Proof.Machine.execSset fs s
  | .sread fs => Sys2Proof.Machine.execSread fs s
  | .sdel fs => Sys2Proof.Machine.execSdel fs s
  | .fstore fs => Sys2Proof.Machine.execFstore fs s
  | .fread fs => Sys2Proof.Machine.execFread fs s
  | .fnext fs => Sys2Proof.Machine.execFnext fs s
  | .ferase fs => Sys2Proof.Machine.execFerase fs s
  | .nvstat fs => Sys2Proof.Machine.execNvstat fs s
  | .preview fs => Sys2Proof.Machine.execPreview fs s
  | .order fs => Sys2Proof.Machine.execOrder fs s
  | .hold fs => Sys2Proof.Machine.execHold fs s
  | .go fs => Sys2Proof.Machine.execGo fs s
  | .cancel fs => Sys2Proof.Machine.execCancel fs s
  | .cancelAfter fs => Sys2Proof.Machine.execCancelAfter fs s
  | .wanted fs => Sys2Proof.Machine.execWanted fs s
  | .lread fs => Sys2Proof.Machine.execLread fs s
  | .book fs => Sys2Proof.Machine.execBook fs s
  | .scheme fs => Sys2Proof.Machine.execScheme fs s
  | .pump fs => Sys2Proof.Machine.execPump fs s
  | .scale fs => Sys2Proof.Machine.execScale fs s
  | .calrun fs => Sys2Proof.Machine.execCalrun fs s
  | .caltake fs => Sys2Proof.Machine.execCaltake fs s
  | .calread fs => Sys2Proof.Machine.execCalread fs s
  | .station fs => Sys2Proof.Machine.execStation fs s
  | .loaded fs => Sys2Proof.Machine.execLoaded fs s
  | .confirm fs => Sys2Proof.Machine.execConfirm fs s
  | .confirmOut fs => Sys2Proof.Machine.execConfirmOut fs s
  | .clear fs => Sys2Proof.Machine.execClear fs s
  | .zones fs => Sys2Proof.Machine.execZones fs s
  | .tread fs => Sys2Proof.Machine.execTread fs s
  | .flist fs => Sys2Proof.Machine.execFlist fs s
  | .lids fs => Sys2Proof.Machine.execLids fs s
  | .lidpol fs => Sys2Proof.Machine.execLidpol fs s
  | .lidder fs => Sys2Proof.Machine.execLidder fs s
  | .mixers fs => Sys2Proof.Machine.execMixers fs s
  | .tagbus fs => Sys2Proof.Machine.execTagbus fs s
  | .tag fs => Sys2Proof.Machine.execTag fs s
  | .time fs => Sys2Proof.Machine.execTime fs s
  | .stirday fs => Sys2Proof.Machine.execStirday fs s
  | .purge fs => Sys2Proof.Machine.execPurge fs s
  | .stir fs => Sys2Proof.Machine.execStir fs s
  | .care fs => Sys2Proof.Machine.execCare fs s
  | .fclear fs => Sys2Proof.Machine.execFclear fs s
  | .notice fs => Sys2Proof.Machine.execNotice fs s
  | .flags fs => Sys2Proof.Machine.execFlags fs s
  | .resume fs => Sys2Proof.Machine.execResume fs s
  | .restart fs => Sys2Proof.Machine.execRestart fs s
  | .state fs => Sys2Proof.Machine.execState fs s
  | .powerLoss => Sys2Proof.Machine.execPowerLoss s
  | .messageFirstCharacter => Sys2Proof.Machine.execMessageFirstCharacter s
  | .placeSensorChange change => Sys2Proof.Machine.execPlaceSensorChange change s

end Sys2Proof.Machine
end

