-- ==== Sys2Proof/Safety.lean ====
section
/-! DEFINITION. What the statements about the part speak of: the parts of the state that a command leaves as they were,
and the conditions that every step keeps. -/

namespace Sys2Proof.Machine

/-! ### Frames -/

/-- A part of the state: the block's own record of `State`. -/
inductive Part where
  | now | choices | stopped | inputs | circuits | library | store | calibration | book | drive | station | track
  | lidder | mixers | tagBus | care | link
  deriving DecidableEq, Repr

/-- The part is the same in both states. -/
def Part.same : Part → State → State → Prop
  | .now, s, t => t.now = s.now
  | .choices, s, t => t.choices = s.choices
  | .stopped, s, t => t.stopped = s.stopped
  | .inputs, s, t => t.inp = s.inp
  | .circuits, s, t => t.circuits = s.circuits
  | .library, s, t => t.lib = s.lib
  | .store, s, t => t.store = s.store
  | .calibration, s, t => t.calResult = s.calResult
  | .book, s, t => t.bk = s.bk
  | .drive, s, t => t.drive = s.drive
  | .station, s, t => t.stn = s.stn
  | .track, s, t => t.track = s.track
  | .lidder, s, t => t.lid = s.lid
  | .mixers, s, t => t.mixer = s.mixer
  | .tagBus, s, t => t.tag = s.tag
  | .care, s, t => t.cares = s.cares
  | .link, s, t => t.link = s.link

/-- Between s and t nothing has changed but the parts named. -/
def Unchanged (except : List Part) (s t : State) : Prop :=
  t.pending = s.pending ∧ t.powered = s.powered ∧ ∀ p : Part, p ∉ except → p.same s t

/-- The circuits other than those named have the records they had. -/
def OtherCircuits (cs : List Circ) (s t : State) : Prop := ∀ d : Circ, d ∉ cs → t.circuit d = s.circuit d

/-- The pumps other than that of circuit c have the records they had. -/
def OtherPumps (c : Circ) (s t : State) : Prop := ∀ d : Circ, d ≠ c → t.pump d = s.pump d

/-! ### Families of commands -/

/-- The request rows of the table, each as a function of the fields of its message. -/
def requestRows : List (Fields → Instr) :=
  [ .cset, .trim, .canout, .cread, .bset, .bread, .bdel, .sset, .sread, .sdel, .fstore, .fread, .fnext, .ferase,
    .nvstat, .preview, .order, .hold, .go, .cancel, .cancelAfter, .wanted, .lread, .book, .scheme, .pump, .scale,
    .calrun, .caltake, .calread, .station, .loaded, .confirm, .confirmOut, .clear, .zones, .tread, .flist, .lids,
    .lidpol, .lidder, .mixers, .tagbus, .tag, .time, .stirday, .purge, .stir, .care, .fclear, .notice, .flags,
    .resume, .restart, .state ]

/-- Every key that some request knows (section 11.5). -/
def knownKeys : List String :=
  csetKeys ++ orderKeys ++ sizeKeys
    ++ ["trim", "load", "mix", "after", "mode", "vol", "cup", "zone", "tin", "from", "magazine", "count", "minute", "flag",
        "class"]

/-- The key of a reply field, or the bare word. -/
def Item.key : Item → String
  | .field k _ => k
  | .bare w => w

/-! ### Book order -/

/-- The line x stands in the book at the place that a new line takes: a NORMAL line at the back; a RUSH line directly
behind the last QUEUED RUSH line, where there is none directly in front of the first QUEUED NORMAL line, and where there
is neither at the back (R70). The other lines keep their order. -/
def newLineStands (x : OrderLine) (before after : List OrderLine) : Prop :=
  ∃ front back, before = front ++ back ∧ after = front ++ x :: back
    ∧ (x.rush = false → back = [])
    ∧ (x.rush = true →
        (∀ y ∈ back, y.queuedRush = false)
        ∧ ((∃ y, front.getLast? = some y ∧ y.queuedRush = true)
          ∨ (∀ y ∈ front, y.queuedRush = false ∧ y.queuedNormal = false)
            ∧ (back = [] ∨ ∃ y, back.head? = some y ∧ y.queuedNormal = true)))

/-! ### Finished tins -/

/-- The bindings of the line l end: each circuit's open-batch count falls by the entries bound to it, the pending values are
applied at 0, and nothing else of the circuits changes (R20, R22, R84). -/
def BindingsEnd (l : OrderLine) (s u : State) : Prop := ∀ c : Circ,
  let k := (l.entries.filter fun e => e.bound == some c).length
  let r := { s.circuit c with openBatch := (s.circuit c).openBatch - k }
  u.circuit c = if k = 0 then s.circuit c else if (s.circuit c).openBatch = k then r.applyPending else r

/-- The book counts a finished tin of line n, where the line has a live one: the failed or the completed count rises by 1.
With its last live tin a FINISHING line, and a HELD one with all tins released, is DONE, and it leaves the book as a CANCELLED
one does: its bindings end and LINE_DONE is set (R68, R69). -/
def TinCounted (n : Nat) (failed : Bool) (s u : State) : Prop :=
  (∀ m, m ≠ n → u.line? m = s.line? m)
    ∧ ∀ l, s.line? n = some l → 1 ≤ l.live →
      let done : Prop := l.state = .finishing ∨ (l.state = .held ∧ l.released = l.limit)
      (l.live = 1 → done ∨ l.state = .cancelled →
        u.bk.lines.map (·.number) = (s.bk.lines.map (·.number)).filter (· != n) ∧ BindingsEnd l s u
          ∧ u.link.isSet .lineDone = true)
      ∧ (2 ≤ l.live ∨ l.state = .queued ∨ l.state = .running ∨ (l.state = .held ∧ l.released ≠ l.limit) →
        u.bk.lines.map (·.number) = s.bk.lines.map (·.number) ∧ u.circuits = s.circuits
          ∧ u.line? n = some (if failed then { l with failed := l.failed + 1 }
              else { l with completed := l.completed + 1 }))

/-- The tin's record leaves the table. A tin of a line is the newest of the finished list, with the cause, and FAILED in place
of its stage unless it was TAKEN; its line counts it, and TIN_FINISHED is set. Nothing is reported of an orphan (R154, R156). -/
def TinFinished (t : Tin) (cause : FinishCause) (s u : State) : Prop :=
  u.tin? t.id = none ∧ (∀ m, m ≠ t.id → u.tin? m = s.tin? m)
    ∧ (t.stage = .orphan ∨ t.order = none →
      u.track.finished = s.track.finished ∧ u.bk = s.bk ∧ u.circuits = s.circuits ∧ u.link = s.link)
    ∧ ∀ n k, t.stage ≠ .orphan → t.order = some (n, k) →
      u.track.finished = (⟨t, cause, cause != .taken⟩ :: s.track.finished).take 48
        ∧ TinCounted n (cause != .taken) s u ∧ u.link.isSet .tinFinished = true

/-- The record of tin id is gone, with every reservation for it. The Dispense Station, where that was the job tin, is IDLE, asks
for the marker clear if the tin asked for a set, drops its cap claim, which starts the closing delay of an OPEN cap, and owes an
admission attempt; elsewhere it keeps its job, and the store its work (R114, R118, R120, R151). -/
def JobTinGone (id : Nat) (s u : State) : Prop :=
  (∀ q, (u.placeRec q).reserved ≠ some id)
    ∧ (s.stn.tin = some id →
      u.stn.job = .idle ∧ u.stn.tin = none ∧ u.stn.markerAsked = false ∧ u.stn.attemptOwed = true
        ∧ u.store = (if s.stn.markerAsked then { s.store with pendingClear := true } else s.store)
        ∧ (s.stn.cal = none →
          u.stn.delay = if s.stn.cap = .opened then .running (s.now + 60000000) else s.stn.delay))
    ∧ (s.stn.tin ≠ some id → u.stn = { s.stn with attemptOwed := u.stn.attemptOwed } ∧ u.store = s.store)

/-! ### Ended runs -/

/-- The end of a run of activity a with d delivered steps is reported to circuit c: the level falls by their volume, at trim 0
for a calibration run, the last-delivery time is set unless RESTART cut the run, the level is marked dirty, and LOW is armed or
fires (R15, R17, R217). A standalone REFILL, and a run that delivered nothing, leave them. -/
def RunReported (c : Circ) (a : Activity) (d : Nat) (s u : State) : Prop :=
  let r := s.circuit c
  let x := u.circuit c
  let trim := if a.owner = .cal then 1024 else (1024 + r.trim).toNat
  (a.kind = .refill ∨ d = 0 → x.level = r.level ∧ x.lastDelivery = r.lastDelivery ∧ x.lowArmed = r.lowArmed)
    ∧ (a.kind ≠ .refill → d ≠ 0 →
      x.level = r.level - roundHalfUp (d * 1024000) (r.cfg.k * trim)
        ∧ x.lastDelivery = (if a.restarted then r.lastDelivery else s.now) ∧ u.store.dirty[c] = true
        ∧ (r.cfg.low ≤ x.level → x.lowArmed = true)
        ∧ (x.level < r.cfg.low → x.lowArmed = false ∧ (r.lowArmed = true → u.link.isSet (.low c) = true)))

/-- The end of a tin's dose of activity a with d delivered steps is in the tin's dose entry: the steps, their volume and mass,
and the run outcome; a cut by a pump fault or a removal notes SHORT_DOSE, and a stop that it has seen INTERRUPTED (R58,
R100). -/
def DoseRecorded (c : Circ) (a : Activity) (d : Nat) (out : RunOutcome) (s u : State) : Prop :=
  let g := s.circuit c
  let v := if d = 0 then 0 else roundHalfUp (d * 1024000) (g.cfg.k * (1024 + g.trim).toNat)
  ∀ id k t e, a.owner = .tin id k → s.tin? id = some t → t.entries[k]? = some e →
    (∃ ns, u.tin? id = some
      { t with
        notes := ns
        entries := t.entries.set k { e with
          handing := .ended, delivered := d, deliveredVolume := v, run := some out
          mass := roundHalfUp (v * g.cfg.density) 1000 } }
      ∧ ∀ x, x ∈ ns ↔ x ∈ t.notes ∨ (x = .shortDose ∧ (out = .cut .pumpFault ∨ out = .cut .removed))
          ∨ (x = .interrupted ∧ a.stopSeen = true))
    ∧ ∀ m, m ≠ id → u.tin? m = s.tin? m

/-! ### Conditions that every step keeps -/

/-- The line is a reply that keeps an input place. -/
def OutLine.keepsPlace : OutLine → Bool
  | .reply place _ => place
  | .notice _ _ => false

/-- The replies that keep an input place: waiting, or being sent. -/
def Link.owing (l : Link) : Nat := ((l.sending.toList ++ l.output).filter OutLine.keepsPlace).length

/-- The input list has at most 4 entries, of which at most one is in reception, as many are answered as replies of them
are waiting or being sent, and the overrun count lies within 0–255 (R220, R221, R224). -/
def LinkInv (s : State) : Prop :=
  s.link.inputs.length ≤ 4 ∧ (s.link.inputs.filter (· == .receiving)).length ≤ 1
    ∧ (s.link.inputs.filter (· == .answered)).length = s.link.owing ∧ s.link.overrun ≤ 255

/-- The link-write FIFO uses at most its 8 places (section 2.5, R39). -/
def FifoInv (s : State) : Prop := s.store.fifo.length ≤ 8

/-- A list of used slots rises by slot number, each slot once. -/
def rising (l : List (Nat × Formula)) : Prop := l.Pairwise fun x y => x.1 < y.1

/-- A slot number of the library: 1–400 (section 2.4). -/
def slotOk (n : Nat) : Prop := 1 ≤ n ∧ n ≤ 400

/-- A formula that a store record carries has a slot of the library. -/
def StoreRecord.slotOk : StoreRecord → Prop
  | .slot n (some _) => Machine.slotOk n
  | _ => True

def WriteWork.slotOk : WriteWork → Prop
  | .link r => r.slotOk
  | _ => True

/-- The used slots of the library and of the store stand in rising order, each once, and lie within 1–400, as do those of
the formulas on their way to the store (section 2.4). -/
def SlotsInv (s : State) : Prop :=
  rising s.lib.slots ∧ rising s.store.nv.slots
    ∧ (∀ x ∈ s.lib.slots, slotOk x.1) ∧ (∀ x ∈ s.store.nv.slots, slotOk x.1)
    ∧ (∀ r ∈ s.store.fifo, r.slotOk) ∧ ∀ w e, s.store.writer = some (w, e) → w.slotOk

/-- Every circuit's level lies within 0 and its capacity × 1,000 µL (R15). -/
def LevelInv (s : State) : Prop := ∀ c : Circ, (s.circuit c).level ≤ (s.circuit c).cfg.capacity * 1000

/-- A trim within −63 … +63. -/
def trimOk (t : Int) : Prop := -63 ≤ t ∧ t ≤ 63

/-- The trim a store record carries is in range. -/
def StoreRecord.trimOk : StoreRecord → Prop
  | .circuit _ g => Machine.trimOk g.trim
  | _ => True

def WriteWork.trimOk : WriteWork → Prop
  | .link r => r.trimOk
  | _ => True

/-- Every circuit's active, pending and stored trim lies within −63 … +63, in the record, in the Settings Store and on
its way there, and so does the trim of a held calibration result (R21, R62). -/
def TrimInv (s : State) : Prop :=
  (∀ c : Circ, trimOk (s.circuit c).trim ∧ trimOk (s.circuit c).cfg.trim
      ∧ ∀ t, (s.circuit c).pendingTrim = some t → trimOk t)
    ∧ (∀ (c : Circ) (g : Settings), s.store.nv.circuits[c] = some g → trimOk g.trim)
    ∧ (∀ r ∈ s.store.fifo, r.trimOk)
    ∧ (∀ w e, s.store.writer = some (w, e) → w.trimOk)
    ∧ ∀ q t, s.calResult = some q → q.trim = some t → trimOk t

/-- A minimum dose within 1–64 steps. -/
def nminOk (n : Nat) : Prop := 1 ≤ n ∧ n ≤ 64

/-- The minimum dose a store record carries is in range. -/
def StoreRecord.nminOk : StoreRecord → Prop
  | .circuit _ g => Machine.nminOk g.nmin
  | _ => True

def WriteWork.nminOk : WriteWork → Prop
  | .link r => r.nminOk
  | _ => True

/-- Every circuit's active, pending and stored minimum dose lies within 1–64, in the record, in the Settings Store and on
its way there (R1, R21). -/
def NminInv (s : State) : Prop :=
  (∀ c : Circ, nminOk (s.circuit c).nmin ∧ nminOk (s.circuit c).cfg.nmin
      ∧ ∀ n, (s.circuit c).pendingNmin = some n → nminOk n)
    ∧ (∀ (c : Circ) (g : Settings), s.store.nv.circuits[c] = some g → nminOk g.nmin)
    ∧ (∀ r ∈ s.store.fifo, r.nminOk)
    ∧ ∀ w e, s.store.writer = some (w, e) → w.nminOk

/-- A circuit is UNFITTED exactly where it holds no colourant code, and a latch is open in SERVICE alone (R3, R7,
R12). -/
def TableInv (s : State) : Prop :=
  ∀ c : Circ, ((s.circuit c).state = .unfitted ↔ (s.circuit c).cfg.code = none)
    ∧ ((s.circuit c).latchOpen = true → (s.circuit c).state = .service)

/-- What the counts of an order line keep to: the tins finished are at most those released, released is at most the release
limit, the limit at most the tin count, a QUEUED line has released none, a QUEUED or RUNNING line wants a tin within its
limit, and only a cancelled line can have the limit 0 (R67, R68, R72). -/
def OrderLine.counts (l : OrderLine) : Prop :=
  l.completed + l.failed ≤ l.released ∧ l.released ≤ l.limit ∧ l.limit ≤ l.tins ∧ l.tins ≤ 24
    ∧ (l.state = .queued → l.released = 0)
    ∧ (l.state = .queued ∨ l.state = .running → l.released < l.limit)
    ∧ (l.state ≠ .cancelled → 1 ≤ l.limit)

/-- What the colourant entries of an order line keep to: one entry for each colourant line of the formula, each residue
below 64 steps of D = 1,024,000,000 (R47, R65). -/
def OrderLine.entriesFit (l : OrderLine) : Prop :=
  l.entries.length = l.formula.lines.length ∧ ∀ e ∈ l.entries, ∀ r ∈ e.residue, r < 64 * 1024000000

/-- The live bindings to circuit c: the entries of the book's lines that are bound to it (R20). -/
def State.bindings (s : State) (c : Circ) : Nat :=
  ((s.bk.lines.flatMap (·.entries)).filter fun e => e.bound == some c).length

/-- The book holds at most 32 lines, each number once, with counts and entries in their bounds, and each circuit's open-batch
count is the number of live bindings to it (R20, R47, R64 to R68, R72). -/
def BookInv (s : State) : Prop :=
  s.bk.lines.length ≤ 32 ∧ (s.bk.lines.map (·.number)).Nodup ∧ (∀ l ∈ s.bk.lines, l.counts ∧ l.entriesFit)
    ∧ ∀ c : Circ, (s.circuit c).openBatch = s.bindings c

/-- The residue of a bound colourant entry lies below the active minimum dose of its circuit, times D, the minimum dose with
which the plan formed it (R47, R83). -/
def ResidueInv (s : State) : Prop :=
  ∀ l ∈ s.bk.lines, ∀ e ∈ l.entries, ∀ c ∈ e.bound, ∀ r ∈ e.residue, r < (s.circuit c).nmin * 1024000000

/-- Every RUSH line in state QUEUED stands before every NORMAL line in state QUEUED (R70). -/
def BookOrderInv (s : State) : Prop :=
  s.bk.lines.Pairwise fun x y => ¬(x.rush = false ∧ x.state = .queued ∧ y.rush = true ∧ y.state = .queued)

/-- A piston holds at most the chamber's 25,600 steps. -/
def Piston.inChamber : Piston → Prop
  | .known p => p ≤ 25600
  | .unknown _ => True

/-- What a burst outstanding may move (R96): a refill no more than the chamber has room for, a delivery no more than the
piston holds and the activity has left. -/
def Burst.fits (b : Burst) (a : Activity) : Piston → Prop
  | .known p => if b.refill then p + b.steps ≤ 25600 else b.steps ≤ p ∧ a.delivered + b.steps ≤ a.planned
  | .unknown _ => b.refill = true

/-- The piston position is known. -/
def Piston.isKnown : Piston → Prop
  | .known _ => True
  | .unknown _ => False

/-- A pump keeps to its bounds: the piston to the chamber, an activity's delivered steps to its planned steps, a
delivery to a piston whose position is known, and a burst outstanding to a RUNNING activity that it fits (R94, R96,
R97). -/
def Pump.bounded (p : Pump) : Prop :=
  p.piston.inChamber
    ∧ (∀ a, p.activity = some a → a.delivered ≤ a.planned ∧ (a.phase = .deliver → p.piston.isKnown))
    ∧ ∀ b, p.burst = some b → ∃ a, p.activity = some a ∧ a.run = .running ∧ b.fits a p.piston

def PumpInv (s : State) : Prop := ∀ c : Circ, (s.pump c).bounded

/-- The tag queue uses at most its 8 places, jobs wait in the backlog only while all are in use, and each circuit has at
most one job of each kind that is not active (R199). -/
def TagQueueInv (s : State) : Prop :=
  s.tag.inUse ≤ 8 ∧ (s.tag.backlog ≠ [] → s.tag.inUse = 8)
    ∧ (s.tag.queue ++ s.tag.backlog).Pairwise fun x y => x.like y = false

end Sys2Proof.Machine
end

