-- ==== Sys2Proof/WellFormed.lean ====
section
/-! DEFINITION. When a command is well-formed: its operands are ones that the sensor, the driver, the clock or the serial
line can report, as the rule of the row gives them. The machine does not lean on this: `exec` is total on every command. -/

namespace Sys2Proof

/-- A character of a key: a small letter or a digit (R222). -/
def Chr.isKey (c : Chr) : Bool := (97 ≤ c.toNat && c.toNat ≤ 122) || (48 ≤ c.toNat && c.toNat ≤ 57)

/-- A character of a value: printable, and no space (R219, R222). -/
def Chr.isValue (c : Chr) : Bool := 33 ≤ c.toNat && c.toNat ≤ 126

/-- A field is key=value: a word of small letters and digits, and one or more characters, none a space (R222). -/
def Field.wellFormed (f : Field) : Bool :=
  !f.key.isEmpty && f.key.all Chr.isKey && !f.value.isEmpty && f.value.all Chr.isValue

/-- The fields a message carries: each of the form key=value, and no key given twice but line= (R222). -/
def Fields.wellFormed (fs : Fields) : Bool :=
  List.all fs Field.wellFormed
    && List.all fs fun f => f.key == txt "line" || (List.filter (fun g => g.key == f.key) fs).length == 1

/-- The scale reads 0–25,000,000 mg in steps of 10 mg, or OVER (R122). -/
def Reading.wellFormed : Reading → Bool
  | .mg n => n % 10 == 0 && n ≤ 25000000
  | .over => true

/-- A height-class sensor reads no class, or one of 1–6 (section 2.2). -/
def SensorChange.wellFormed : SensorChange → Bool
  | .height (some n) => 1 ≤ n && n ≤ 6
  | _ => true

/-- A record of the Settings Store: the library slots are 1–400 (section 2.4). -/
def RecordName.wellFormed : RecordName → Bool
  | .slot n => 1 ≤ n && n ≤ 400
  | _ => true

/-- Z1 is fed by the operator: no move ends there (section 7.1). -/
def Place.isDestination (p : Place) : Bool := p != .z1

/-- The zones at rest that the Tin Track watches (R150). -/
def Place.isWatched (p : Place) : Bool := p == .z2 || p == .z3 || p == .z4 || p == .z5

/-- The characters of a message end before its LF (R219). -/
def messageWellFormed (cs : List RxChar) : Bool := cs.all fun c => c != .chr 10

/-- The command is well-formed. -/
def Instr.wellFormed : Instr → Bool
  | .powerOn damaged => damaged.all RecordName.wellFormed && damaged.Nodup
  | .settleEnd r => r.wellFormed
  | .arrival dest _ => dest.isDestination
  | .jam dest => dest.isDestination
  | .zoneDisagreement zone _ => zone.isWatched
  | .messageReceived chars => messageWellFormed chars
  | .placeSensorChange change => change.wellFormed
  | .cset fs | .trim fs | .canout fs | .cread fs | .bset fs | .bread fs | .bdel fs | .sset fs | .sread fs | .sdel fs
  | .fstore fs | .fread fs | .fnext fs | .ferase fs | .nvstat fs | .preview fs | .order fs | .hold fs | .go fs
  | .cancel fs | .cancelAfter fs | .wanted fs | .lread fs | .book fs | .scheme fs | .pump fs | .scale fs
  | .calrun fs | .caltake fs | .calread fs | .station fs | .loaded fs | .confirm fs | .confirmOut fs | .clear fs
  | .zones fs | .tread fs | .flist fs | .lids fs | .lidpol fs | .lidder fs | .mixers fs | .tagbus fs | .tag fs
  | .time fs | .stirday fs | .purge fs | .stir fs | .care fs | .fclear fs | .notice fs | .flags fs | .resume fs
  | .restart fs | .state fs => Fields.wellFormed fs
  | .stopInputActive | .stopInputReleased | .baySwitchChange _ _ | .frameStart | .slot | .burstComplete _
  | .burstStall _ | .burstTimeout _ | .storeWriteEnd | .capMotionEnd | .closingDelayExpiry
  | .cradleDisagreement _ _ | .headTaken | .pressCycleEnd _ | .guardOpen | .guardClose | .lidSensorChange _ _
  | .doorOpen _ | .doorClose _ | .clampEnd _ | .mixEnd _ | .brakeEnd _ | .unclampEnd _ | .stirEnd _
  | .stirBoundary | .siteMinute | .purgeIntervalElapsed _ | .startConditionSeen | .stopConditionSeen
  | .busLinesHigh | .taken | .addrAck | .addrNak | .byteAck _ | .byteNak | .lost | .lineError | .stopSent
  | .pollInterval | .tagWriteTimeout | .busWait | .messageDiscarded | .lineSent | .powerLoss
  | .messageFirstCharacter => true

end Sys2Proof
end

