-- ==== Sys2Proof/Certificates/Slice0/Obligations.lean ====
section
/-! DEFINITION. The statements about the part. Where a command's statement says `.next (State.conclude s u)`, u is the
state with the command's own effect, and `State.conclude` is the end every step has: it lets each block begin what its
conditions now allow. -/

open Sys2Proof Sys2Proof.Machine

/-! ### Steps -/

/-- A step runs the command at the front of the queue, with the queue's rest behind it; with no command waiting, 1 ms of
idle time passes. The tick of the empty queue is the model's choice (Assumption 1). -/
def Obligations.StepRunsFrontCommand : Prop :=
  (∀ (i : Instr) (rest : List Instr) (s : State), s.pending = i :: rest → step s = exec i { s with pending := rest })
    ∧ ∀ s : State, s.pending = [] → step s = .next { s with now := s.now + 1000 }

/-- Every command completes in every state, and leaves the queue of the commands that wait as it is. -/
def Obligations.EveryCommandCompletes : Prop :=
  ∀ (i : Instr) (s : State), ∃ t, exec i s = .next t ∧ t.pending = s.pending

/-- The non-volatile records change at the end of a write and as damaged records are read at power-on, and at no other
command (R38, R43). `State.conclude`, the end of every step, is three rounds in which each block looks at what its
conditions now allow, then LOAD_WANTED by the two ends of the step, the marker clear that RESTART gave, and the next work of
the store's writer and of the Tag Bus; the statements on those blocks say what each look does. It changes no input, no
setting, no record of the store, no count of a line, no reading, and nothing of the frame, the site time or the input
places. The order of the looks and their three rounds are the model's choice (Assumption 9). -/
def Obligations.RecordsChangeAtWriteEnd : Prop :=
  (∀ (i : Instr) (s t : State), i ≠ .storeWriteEnd → (∀ d, i ≠ .powerOn d) → exec i s = .next t →
    t.store.nv = s.store.nv)
  ∧ ∀ before s : State,
    let t := State.conclude before s
    let look (u : State) : State := u.primesLook.handLook.pressLook.mixerChoose.trackLook.attemptLook.capDecide.careLook
    t = (State.loadWanted before (look (look (look s)))).releaseClear.storeTake.tagBegin
      ∧ t.pending = s.pending ∧ t.powered = s.powered ∧ t.now = s.now ∧ t.stopped = s.stopped ∧ t.inp = s.inp ∧ t.lib = s.lib
      ∧ (∀ c, (t.circuit c).cfg = (s.circuit c).cfg) ∧ t.store.nv = s.store.nv ∧ t.store.lost = s.store.lost
      ∧ t.bk.lines.map (fun l => (l.number, l.released, l.completed, l.failed, l.limit))
          = s.bk.lines.map (fun l => (l.number, l.released, l.completed, l.failed, l.limit))
      ∧ t.bk.lastNumber = s.bk.lastNumber ∧ t.drive.scheme = s.drive.scheme ∧ t.drive.nextScheme = s.drive.nextScheme
      ∧ t.drive.slot = s.drive.slot ∧ t.drive.frameStart = s.drive.frameStart ∧ t.drive.lent = s.drive.lent
      ∧ t.stn.scale = s.stn.scale ∧ t.stn.tare = s.stn.tare ∧ t.stn.reading = s.stn.reading
      ∧ t.track.finished = s.track.finished ∧ t.lid.policy = s.lid.policy
      ∧ (∀ m : Fin 3, t.lid.mags[m].code = s.lid.mags[m].code)
      ∧ t.tag.bus = s.tag.bus ∧ t.tag.stopping = s.tag.stopping ∧ t.tag.images = s.tag.images ∧ t.tag.last = s.tag.last
      ∧ t.cares.siteTime = s.cares.siteTime ∧ t.cares.daily = s.cares.daily ∧ t.cares.origin = s.cares.origin
      ∧ t.cares.quarters = s.cares.quarters
      ∧ t.link.inputs = s.link.inputs ∧ t.link.overrun = s.link.overrun ∧ t.link.enabled = s.link.enabled

/-! ### Invariants -/

/-- What reset leaves meets every condition that a step keeps. -/
def Obligations.ResetMeetsInvariants : Prop :=
  LinkInv State.reset ∧ FifoInv State.reset ∧ SlotsInv State.reset ∧ LevelInv State.reset ∧ TrimInv State.reset
    ∧ NminInv State.reset ∧ TableInv State.reset ∧ BookInv State.reset ∧ ResidueInv State.reset ∧ BookOrderInv State.reset
    ∧ PumpInv State.reset ∧ TagQueueInv State.reset

/-- Every step keeps the input list to its 4 places, as many of them answered as replies are owed, one message at most
in reception, and the overrun count to 255 (R220, R221, R224). What the edges of a reception do is Assumption 35. -/
def Obligations.StepKeepsInputPlaces : Prop :=
  ∀ s t : State, LinkInv s → step s = .next t → LinkInv t

/-- Every step keeps the link-write FIFO to its 8 places (R39). -/
def Obligations.StepKeepsLinkWriteFifo : Prop :=
  ∀ s t : State, FifoInv s → step s = .next t → FifoInv t

/-- Every step keeps the used slots of the library, and of the store, in rising order with no slot twice, each within
1–400, as those of the formulas on their way to the store (R34 to R37). -/
def Obligations.StepKeepsSlotOrder : Prop :=
  ∀ s t : State, SlotsInv s → step s = .next t → SlotsInv t

/-- Every step keeps each circuit's level within its capacity (R1, R9, R15, R24). -/
def Obligations.StepKeepsLevels : Prop :=
  ∀ s t : State, LevelInv s → step s = .next t → LevelInv t

/-- Every step keeps each trim within −63 … +63 and each minimum dose within 1–64, wherever it stands: active, pending,
accepted, on its way to the store, stored, or, for a trim, in a calibration result (R1, R21, R61, R62, R133). -/
def Obligations.StepKeepsTrims : Prop :=
  (∀ s t : State, TrimInv s → step s = .next t → TrimInv t)
    ∧ ∀ s t : State, NminInv s → step s = .next t → NminInv t

/-- Every step keeps the circuits without a colourant code, and no others, UNFITTED, and every latch outside SERVICE
locked (R3, R7, R12, R13, R23). -/
def Obligations.StepKeepsCircuitStates : Prop :=
  ∀ s t : State, TableInv s → step s = .next t → TableInv t

/-- Every step keeps the book to 32 lines of different numbers, each line's counts to their bounds, with no more tins
finished than released, each residue below 64 steps, and each circuit's open-batch count at the number of live bindings to
it; the residue of a bound entry below the active minimum dose of its circuit, which is the one it was formed with; and
every RUSH line in QUEUED before every NORMAL line in QUEUED (R20, R21, R47, R64 to R68, R70 to R72, R81, R83, R84). The
bounds of a residue rest on the minimum doses, which the premise NminInv keeps within 1–64; StepKeepsTrims says that steps
keep it. That a line with no live tin counts none as finished is Assumption 37; that a commit counts the bindings it makes
before those it ends is Assumption 73. -/
def Obligations.StepKeepsBook : Prop :=
  ∀ s t : State, BookInv s → NminInv s → step s = .next t →
    BookInv t ∧ (ResidueInv s → ResidueInv t) ∧ (BookOrderInv s → BookOrderInv t)

/-- Every step keeps every piston in its chamber, every activity to its planned steps, and every burst outstanding to
what the piston and the activity allow (R94, R96, R97). -/
def Obligations.StepKeepsPumps : Prop :=
  ∀ s t : State, PumpInv s → step s = .next t → PumpInv t

/-- Every step keeps the tag queue to its 8 places, with a backlog only behind a full queue and no two like jobs waiting
(R199). -/
def Obligations.StepKeepsTagQueue : Prop :=
  ∀ s t : State, TagQueueInv s → step s = .next t → TagQueueInv t

/-! ### Requests -/

/-- A request that carries a field no request knows is refused SYNTAX: its reply joins the output list and nothing else
changes (R222, R223). A request row keeps no input place (Assumption 5). -/
def Obligations.UnknownFieldsAreRefused : Prop :=
  ∀ (s : State) (fs : Fields), s.powered = true → (∃ f ∈ fs, ∀ k ∈ knownKeys, f.key ≠ txt k) →
    ∀ row ∈ requestRows, exec (row fs) s = .next { s with link := s.link.push (.reply false (.no .syntaxError)) }

/-- Each request that takes no field reports: its reply, which starts with the keys its rule gives and holds the facts
named, joins the output list, and nothing else changes. WANTED shows the wanted tin, or EMPTY; CALREAD shows the run in
flight, else the held result, or EMPTY (R45, R75, R87, R134, R138, R161, R183, R184, R205, R218, R228, R231). The field
names that a rule gives in words only are the model's (Assumption 13), and so is the order of the stop causes in MIXERS
(Assumption 61). A request row keeps no input place (Assumption 5). -/
def Obligations.ReportsOfTheWhole : Prop :=
  ∀ s : State, s.powered = true →
    ∀ row ∈ ([ (.nvstat [], ["writer", "marker", "pending", "tins", "circuits", "dirty", "fifo", "lost"],
                [.num "fifo" s.store.fifo.length, .num "lost" s.store.lost]),
              (.wanted [], (match s.wantedLine with
                  | some _ => ["line", "tin", "size", "base", "height", "z1"]
                  | none => ["EMPTY", "z1"]),
                .word "z1" (if (s.placeRec .z1).tin.isSome then "OCCUPIED" else "FREE") :: match s.wantedLine with
                  | some l => [.num "line" l.number, .num "tin" (l.released + 1), .word "size" (sizeName l.size),
                      .word "base" (baseName l.formula.base),
                      .num "height" ((s.lib.sizes[l.size].map (·.height)).getD 0)]
                  | none => []),
              (.book [], ["count"], [.num "count" s.bk.lines.length, s.wantedItem]),
              (.calread [], (match s.stn.cal, s.calResult with
                  | some _, _ => ["run", "circuit", "vol", "n", "delivered", "job"]
                  | none, some _ => ["circuit", "vol", "n", "delivered", "mass", "trim", "status", "cause"]
                  | none, none => ["EMPTY"]),
                match s.stn.cal, s.calResult with
                  | some q, _ => [.word "run" "YES", .num "circuit" (circNo q.circuit), .num "vol" q.target,
                      .num "n" q.steps, .num "delivered" (s.calDelivered q), .word "job" s.stn.job.name]
                  | none, some r => [.num "circuit" (circNo r.circuit), .num "vol" r.target, .num "n" r.steps,
                      .num "delivered" r.delivered, .int "mass" r.mass, .parts "trim" [.optInt r.trim],
                      .word "status" r.status.name,
                      .word "cause" (match r.status with
                        | .failed w => w.name
                        | _ => "NONE")]
                  | none, none => []),
              (.station [], ["job", "tin", "reserved", "z1", "wait", "cap", "delay", "scale", "tare", "reading"],
                [.word "job" s.stn.job.name, .parts "tin" [.opt s.stn.tin], .word "scale" s.stn.scale.name]),
              (.zones [], ["place", "place", "place", "place", "place", "place", "place", "lane", "arm"],
                [.parts "z1height" [.opt s.inp.height]]),
              (.lidder [], ["state", "tin", "code", "attempt", "mag", "guard", "policy", "mag1", "mag2", "mag3"],
                [.word "state" s.lid.press.name, .num "attempt" s.lid.attempt]),
              (.mixers [], ["mixA", "mixB"], [s.mixerItem .a, s.mixerItem .b]),
              (.tagbus [], ["bus", "active", "queue", "backlog"],
                [.word "bus" (if s.tag.bus = .free then "FREE" else "BUSY")]),
              (.care [], ["site", "daily", "phase", "running", "due", "purge"], [.num "daily" s.cares.daily]),
              (.flags [], ["set", "waiting", "enabled"],
                [.num "waiting" (s.link.output.filter OutLine.isNotice).length]),
              (.state [], ["stop", "machine", "start", "lines", "wanted", "tins", "job", "cap", "scale", "circuits", "store",
                  "flags", "waiting", "overrun"],
                [.word "machine" (if s.stopped then "STOPPED" else "RUN"), .num "tins" s.track.tins.length,
                  .num "overrun" s.link.overrun])] : List (Instr × List String × List Item)),
      ∃ items : List Item, exec row.1 s = .next { s with link := s.link.push (.reply false (.ok items)) }
        ∧ row.2.1 <+: items.map Item.key ∧ row.2.2 ⊆ items

/-- A report on one circuit shows, of CREAD, the record's state, level, active trim and minimum dose, of PUMP the
circuit, its slot and its piston, and of TAG the circuit and its last result; a circuit outside 1–24 is refused RANGE.
Nothing else changes (R27, R112, R206). The field names of CREAD, and those of TAG and PUMP that a rule gives in words
only, are the model's (Assumption 13). A request row keeps no input place (Assumption 5). -/
def Obligations.ReportsOfOneCircuit : Prop :=
  ∀ (s : State) (fs : Fields) (n : Nat), s.powered = true → fs.malformed ["circuit"] ["circuit"] ["circuit"] = false →
    fs.num "circuit" = some n →
    ∀ row ∈ ([ (.cread fs, fun c => [.word "state" (s.circuit c).state.name, .num "level" (s.circuit c).level,
                .signed "trim" (s.circuit c).trim, .num "nmin" (s.circuit c).nmin]),
              (.pump fs, fun c => [.num "circuit" (circNo c), .num "slot" (ownSlot s.drive.scheme c),
                .parts "piston" [pistonAtom (s.pump c).piston]]),
              (.tag fs, fun c => [.num "circuit" (circNo c), .parts "last" s.tag.last[c].atoms])] : List (Instr × (Circ → List Item))),
      if h : 1 ≤ n ∧ n ≤ 24 then
        ∃ items : List Item, exec row.1 s = .next { s with link := s.link.push (.reply false (.ok items)) }
          ∧ row.2 ⟨n - 1, by omega⟩ ⊆ items
      else exec row.1 s = .next { s with link := s.link.push (.reply false (.no .range)) }

/-- The reports on a base, a size, a slot, a line, a tin and the finished list change nothing but the output list: the
reply is the record's, or EMPTY for a record that does not exist, or the refusal the rule names. TREAD reports the live
record of the id, or else the newest finished one. PREVIEW plans the line's tin standing at Z1, or else the tin behind
the released ones: its index, whether it is the last, and a dose field for each colourant line in authored order with
the outcome it would receive; it is refused STATE for a CANCELLED line, and for one with neither tin. FLIST begins at
the record from= names (R29, R31, R35, R59, R86, R162). The field names that a rule gives in words only are the model's,
and so is that TREAD shows a CUT without its cause (Assumption 13); that PREVIEW plans a tin of the line at Z1, whether
admitted or not, is Assumption 22; the outcome word of a substituted dose, and the steps and volume of a HOLD, are
Assumption 43; that count= of FLIST is the whole list's length, and the order in notes=, are Assumption 61; that an
entry of TREAD shows its run outcome once it has one, and its delivered volume, is Assumption 68; the forms of place=
and of MIN_ADJUST are Assumption 69. A request row keeps no input place (Assumption 5). -/
def Obligations.ReportsOfOneRecord : Prop :=
  ∀ (s : State) (fs : Fields), s.powered = true →
    (∀ b : Fin 8, fs.malformed ["base"] ["base"] [] = false → base? fs = some b →
      exec (.bread fs) s = .next { s with link := s.link.push (.reply false (.ok (match s.lib.bases[b] with
        | none => [.bare "EMPTY"]
        | some r => [.word "base" (baseName b), .num "load" r.load, .num "mix" r.mixClass,
            .num "refs" (s.bk.lines.filter fun l => l.formula.base == b).length]))) })
    ∧ (∀ z : Fin 12, fs.malformed ["size"] ["size"] [] = false → size? fs = some z →
      exec (.sread fs) s = .next { s with link := s.link.push (.reply false (.ok (match s.lib.sizes[z] with
        | none => [.bare "EMPTY"]
        | some r => [.num "vol" r.vol, .num "height" r.height, .word "lid" (lidName r.lid), .num "mix1" r.mix1,
            .num "mix2" r.mix2, .num "mix3" r.mix3,
            .num "refs" (s.bk.lines.filter fun l => l.size == z).length]))) })
    ∧ (∀ n, fs.malformed ["slot"] ["slot"] ["slot"] = false → fs.num "slot" = some n → n ≤ 400 →
      ∃ items, exec (.fread fs) s = .next { s with link := s.link.push (.reply false (.ok items)) }
        ∧ (s.slot? n = none → items = [.bare "EMPTY", .num "slot" n])
        ∧ ∀ f, s.slot? n = some f → .num "loading" (f.lines.map (·.2)).sum ∈ items ∧ .num "slot" n ∈ items)
    ∧ (∀ n l, fs.malformed ["line"] ["line"] ["line"] = false → fs.num "line" = some n → 1 ≤ n → n ≤ 65535 →
        s.line? n = some l →
      (∃ items, exec (.lread fs) s = .next { s with link := s.link.push (.reply false (.ok items)) }
        ∧ [.num "released" l.released, .num "completed" l.completed, .num "failed" l.failed, .num "limit" l.limit,
            .word "state" l.state.name] ⊆ items)
      -- the next tin of the line, and the plan it would receive
      ∧ (let stands (k : Nat) : Prop := ∃ t, s.tinAt .z1 = some t ∧ t.order = some (n, k) ∧ t.stage ≠ .orphan
        let dose (code : Text) (j : Judged) : Item := .parts "dose" (match j with
          | .served c p sub => [.text code, .num (circNo c), .num p.steps,
              .num (roundHalfUp (p.steps * 1024000) ((s.circuit c).cfg.k * (1024 + (s.circuit c).trim).toNat)),
              if sub then .word "SUBSTITUTED" else match p.outcome with
                | .planned => .word "PLANNED"
                | .deferred => .word "DEFERRED"
                | .minAdjust => .adjusted "MIN_ADJUST" (p.adjust.getD 0)
                | .noneDue => .word "NONE_DUE"
                | .skipped => .word "SKIPPED"]
          | .skipped c _ => [.text code, .num (circNo c), .num 0, .num 0, .word "SKIPPED"]
          | .hold (some c) p => [.text code, .num (circNo c), .num p.steps,
              .num (roundHalfUp (p.steps * 1024000) ((s.circuit c).cfg.k * (1024 + (s.circuit c).trim).toNat)), .word "HOLD"]
          | .hold none _ => [.text code, .num 0, .num 0, .num 0, .word "HOLD"])
        let previews (k : Nat) : Prop := exec (.preview fs) s = .next { s with link := s.link.push (.reply false (.ok
          ([.num "tin" k, .word "last" (yesNo (k == l.limit))] ++ (l.formula.lines.zip l.entries).map fun x =>
            dose x.1.1 (s.judge x.2 x.1 ((s.lib.sizes[l.size].map (·.vol)).getD 0) (k == l.limit))))) }
        (l.state = .cancelled ∨ (l.limit ≤ l.released ∧ ∀ k, ¬stands k) →
          exec (.preview fs) s = .next { s with link := s.link.push (.reply false (.no .state)) })
        ∧ (l.state ≠ .cancelled →
          (∀ k, stands k → previews k) ∧ (l.released < l.limit → (∀ k, ¬stands k) → previews (l.released + 1)))))
    ∧ (∀ n, fs.malformed ["tin"] ["tin"] ["tin"] = false → fs.num "tin" = some n → 1 ≤ n → n ≤ 255 →
      let fields (t : Tin) (stage : String) : List Item :=
        [ .parts "line" [.opt (t.order.map (·.1))], .parts "index" [.opt (t.order.map (·.2))],
          .word "size" ((t.size.map sizeName).getD "NONE"), .word "base" ((t.base.map baseName).getD "NONE"),
          .word "stage" stage, notesItem t.notes ] ++ t.entries.map DoseEntry.item
      (∀ t, s.tin? n = some t → ∃ items, exec (.tread fs) s = .next { s with link := s.link.push (.reply false (.ok items)) }
        ∧ [.word "live" "YES", .parts "place" (s.standingAtoms n)] ++ fields t t.stage.name ⊆ items)
      ∧ (∀ newer f older, s.tin? n = none → s.track.finished = newer ++ f :: older → f.tin.id = n →
          (∀ g ∈ newer, g.tin.id ≠ n) →
        ∃ items, exec (.tread fs) s = .next { s with link := s.link.push (.reply false (.ok items)) }
          ∧ [.word "live" "NO", .parts "place" [.word "FINISHED", .word f.cause.name]]
            ++ fields f.tin (if f.failed then "FAILED" else "FINISHED") ⊆ items)
      ∧ (s.tin? n = none → s.track.finished.all (fun f => f.tin.id != n) = true →
        exec (.tread fs) s = .next { s with link := s.link.push (.reply false (.no .notFound)) }))
    ∧ (let list (k : Nat) : Host.Outcome State Fault Refusal := .next { s with link := s.link.push (.reply false
          (.ok (.num "count" s.track.finished.length :: (s.track.finished.drop (k - 1)).map Finished.item))) }
      (fs = [] → exec (.flist fs) s = list 1)
      ∧ ∀ k, fs.malformed ["from"] [] ["from"] = false → fs.num "from" = some k → 1 ≤ k → k ≤ 48 → exec (.flist fs) s = list k)

/-! ### The Circuit Table -/

/-- A CSET with a circuit or value outside its range, or inconsistent settings (a low threshold or reserve above the
capacity, purge steps below the active or the pending minimum dose), is refused RANGE and changes nothing. Else: a pair
forms where the request names twin=n, circuit n is another circuit of the code that c then holds, n has no twin, and c
takes the code now or has no twin; it dissolves where the request names twin=0 or another code; without a twin, with 0 or
with c's present twin, and with no code that another circuit holds, none forms. Every other naming is refused MISMATCH; a
code or capacity change outside UNFITTED and SERVICE, or a change of K under a binding or pump activity, STATE; too few
free places for the records of c and its partners BUSY. An accepted CSET gives c the named settings and leaves the others;
the dissolved partner's twin is none, the new partner's is c; their records and c's are queued. A minimum dose is active
at once at an open-batch count of 0, else pending; the reply says which. A code moves an UNFITTED circuit to SERVICE
(latch open, baseline OPEN, level 0), a closed watched bay then being an insertion; NONE moves SERVICE to UNFITTED, locked
and cleared. Elsewhere the level is cut to the capacity. A named reserve runs the EMPTY check, low threshold the LOW
evaluation, purge interval the purge test; a watch that comes ON takes a differing switch as one bay event, cutting a run;
a stir class OFF leaves the due list; a held calibration result is dropped by a change of K or density or a code's removal
(R1 to R4, R6 to R8, R16, R17, R21, R39, R62, R208, R212). Naming the present twin, a new partner at a code change,
evaluating a field named at its present value, and the order of link writes are Assumption 15; a code of two circuits
taking no third Assumption 42; that cut replacing a waiting stop or RESTART cut Assumption 55; no input place Assumption
5. -/
def Obligations.CsetChangesSettings : Prop :=
  -- the refusals of values
  (∀ (s : State) (fs : Fields), s.powered = true → fs.malformed csetKeys ["circuit"] csetNumbers = false →
    let refused : Prop := exec (.cset fs) s = .next (s.pushReply false (.no .range))
    ((fs.num "circuit").bind circ? = none → refused)
    ∧ ∀ c : Circ, (fs.num "circuit").bind circ? = some c →
      let r := s.circuit c
      let most := (fs.num "capacity").getD r.cfg.capacity * 1000
      -- the larger of the active and any pending minimum dose, with the request's own
      let least := match fs.num "nmin" with
        | none => max r.nmin (r.pendingNmin.getD 0)
        | some n => if r.openBatch = 0 then n else max r.nmin n
      let unknown {α : Type} (key : String) (read : Text → Option α) : Prop := ∃ v, fs.get key = some v ∧ read v = none
      ((∃ x ∈ [("k", 1000, 16000), ("nmin", 1, 64), ("density", 800, 2500), ("capacity", 500, 5000), ("stirdur", 5, 60),
            ("purgesteps", 1, 3200), ("twin", 0, 24)], ∃ n, fs.num x.1 = some n ∧ (n < x.2.1 ∨ x.2.2 < n)) → refused)
      ∧ (∀ n, fs.num "purgeint" = some n → n ≠ 0 → n < 10 ∨ 240 < n → refused)
      ∧ (unknown "code" colourant? ∨ unknown "stir" (named? stirTable) ∨ unknown "policy" (named? policyTable)
          ∨ unknown "watch" (named? onOffTable) → refused)
      ∧ (most < (fs.num "low").getD r.cfg.low ∨ most < (fs.num "reserve").getD r.cfg.reserve
          ∨ (fs.num "purgesteps").getD r.cfg.purgeSteps < least → refused))
  -- the rest of the checks, and what an accepted request does
  ∧ ∀ (s : State) (fs : Fields) (c : Circ), s.powered = true →
    fs.malformed csetKeys ["circuit"] csetNumbers = false → (fs.num "circuit").bind circ? = some c →
    csetOutside fs = false → ((s.circuit c).csetApplied fs).consistent = true →
    let r := s.circuit c
    let g := r.cfg
    let code := named fs "code" colourant? g.code
    let capacity := (fs.num "capacity").getD g.capacity
    let watch := named fs "watch" (named? onOffTable) g.watch
    let holds (d : Circ) : Prop := code ≠ none ∧ (s.circuit d).cfg.code = code
    -- the twin rules
    let forms (n : Circ) : Prop := fs.num "twin" = some (circNo n) ∧ n ≠ c ∧ holds n ∧ (s.circuit n).cfg.twin = none
      ∧ (code = g.code → g.twin = none) ∧ (code ≠ g.code → ∀ d : Circ, d ≠ c → d ≠ n → ¬holds d)
    let formsNone : Prop := (fs.num "twin" = none ∨ fs.num "twin" = some 0) ∧ (code ≠ g.code → ∀ d : Circ, d ≠ c → ¬holds d)
      ∨ ∃ n : Circ, fs.num "twin" = some (circNo n) ∧ code = g.code ∧ g.twin = some n
    let dissolves : Bool := g.twin.isSome && (code != g.code || fs.num "twin" == some 0)
    -- the bay watch comes ON over a switch that differs from the baseline, and the steps of a run that a removal so
    -- taken cuts at once
    let takesBay : Prop := r.state ≠ .unfitted ∧ code ≠ none ∧ g.watch = false ∧ watch = true ∧ s.inp.bays[c] ≠ r.baseline
    let steps : Nat := match (s.pump c).activity, (s.pump c).burst with
      | some a, none =>
        if takesBay ∧ s.inp.bays[c] = false ∧ r.state ≠ .service ∧ a.kind ≠ .refill then a.delivered else 0
      | _, _ => 0
    let factor : Nat := (1024 + if (s.pump c).activity.any (fun a => a.owner == .cal) then 0 else r.trim).toNat
    let hindered : Prop := r.state ≠ .unfitted ∧ r.state ≠ .service ∧ (code ≠ g.code ∨ capacity ≠ g.capacity)
      ∨ (fs.num "k").getD g.k ≠ g.k ∧ (r.openBatch ≠ 0 ∨ (s.pump c).activity ≠ none)
    (¬formsNone → (∀ n, ¬forms n) → exec (.cset fs) s = .next (s.pushReply false (.no .mismatch)))
    ∧ ∀ new : Option Circ, (new = none → formsNone) → (∀ n, new = some n → forms n) →
      let partners : List Circ := (if dissolves then g.twin.toList else []) ++ new.toList
      (hindered → exec (.cset fs) s = .next (s.pushReply false (.no .state)))
      ∧ (¬hindered → 8 < s.store.fifo.length + 1 + partners.length →
          exec (.cset fs) s = .next (s.pushReply false (.no .busy)))
      ∧ (¬hindered → s.store.fifo.length + 1 + partners.length ≤ 8 → ∃ u, exec (.cset fs) s = .next (State.conclude s u)
        ∧ (u.circuit c).cfg =
            { code := code
              k := (fs.num "k").getD g.k
              trim := g.trim
              nmin := (fs.num "nmin").getD g.nmin
              density := (fs.num "density").getD g.density
              capacity := capacity
              low := (fs.num "low").getD g.low
              reserve := (fs.num "reserve").getD g.reserve
              purgeInt := (fs.num "purgeint").getD g.purgeInt
              purgeSteps := (fs.num "purgesteps").getD g.purgeSteps
              stir := named fs "stir" (named? stirTable) g.stir
              stirDur := (fs.num "stirdur").getD g.stirDur
              twin := if new.isSome then new else if dissolves then none else g.twin
              policy := named fs "policy" (named? policyTable) g.policy
              watch := watch }
        ∧ (∀ d ∈ partners, d ≠ c → u.circuit d =
            { s.circuit d with cfg := { (s.circuit d).cfg with twin := if new = some d then some c else none } })
        ∧ (∀ d, d ≠ c → d ∉ partners → u.circuit d = s.circuit d)
        ∧ u.store.fifo = s.store.fifo
            ++ (.circuit c (u.circuit c).cfg :: partners.map fun d => .circuit d (u.circuit d).cfg)
        -- the staging of the minimum dose
        ∧ (u.circuit c).openBatch = r.openBatch ∧ (u.circuit c).trim = r.trim ∧ (u.circuit c).pendingTrim = r.pendingTrim
        ∧ (fs.num "nmin" = none → (u.circuit c).nmin = r.nmin ∧ (u.circuit c).pendingNmin = r.pendingNmin)
        ∧ (∀ n, fs.num "nmin" = some n →
            (r.openBatch = 0 → (u.circuit c).nmin = n ∧ (u.circuit c).pendingNmin = none)
            ∧ (r.openBatch ≠ 0 → (u.circuit c).nmin = r.nmin ∧ (u.circuit c).pendingNmin = some n))
        ∧ .reply false (.ok (if fs.num "nmin" = none then []
              else [.word "applied" (if r.openBatch = 0 then "NOW" else "PENDING")]))
            ∈ u.link.sending.toList ++ u.link.output
        -- a code given, a code removed, and neither
        ∧ (r.state = .unfitted → code ≠ none →
          (u.circuit c).level = 0 ∧ u.store.dirty[c] = true
          ∧ (¬(watch = true ∧ s.inp.bays[c] = true) →
              (u.circuit c).state = .service ∧ (u.circuit c).latchOpen = true ∧ (u.circuit c).baseline = false
                ∧ u.tag = s.tag)
          ∧ (watch = true → s.inp.bays[c] = true →
              (u.circuit c).state = .checking ∧ (u.circuit c).latchOpen = false ∧ (u.circuit c).baseline = true
                ∧ (u.circuit c).checkKind = .insertion ∧ u.tag = s.tag.ask ⟨c, .read⟩))
        ∧ (r.state = .service → code = none →
          (u.circuit c).state = .unfitted ∧ (u.circuit c).latchOpen = false ∧ (u.circuit c).level = 0
            ∧ u.store.dirty[c] = true ∧ (u.circuit c).lot = none ∧ (u.circuit c).reason = none ∧ u.tag = s.tag)
        ∧ (r.state ≠ .unfitted → code ≠ none →
          let level := min r.level (capacity * 1000)
          let reserve := (fs.num "reserve").getD g.reserve
          -- the EMPTY check of a named reserve
          let settled : CircuitState := if fs.num "reserve" = none then r.state
            else if r.state = .empty ∧ reserve < level then .ready
            else if r.state = .ready ∧ level ≤ reserve then .empty else r.state
          (u.circuit c).level = level - roundHalfUp (steps * 1024000) (g.k * factor)
          ∧ (fs.num "reserve" ≠ none → r.state = .ready → level ≤ reserve → u.link.isSet (.empty c) = true)
          ∧ (¬takesBay → (u.circuit c).lot = r.lot ∧ (u.circuit c).reason = r.reason
            ∧ (u.circuit c).latchOpen = r.latchOpen ∧ (u.circuit c).baseline = r.baseline ∧ u.tag = s.tag
            ∧ (u.circuit c).state = settled)
          -- the bay event
          ∧ (takesBay →
            (s.inp.bays[c] = true → r.state = .service →
              (u.circuit c).state = .checking ∧ (u.circuit c).latchOpen = false ∧ (u.circuit c).baseline = true
                ∧ (u.circuit c).checkKind = .insertion ∧ (u.circuit c).lot = r.lot ∧ u.tag = s.tag.ask ⟨c, .read⟩)
            ∧ (s.inp.bays[c] = true → r.state ≠ .service →
              (u.circuit c).state = settled ∧ (u.circuit c).latchOpen = r.latchOpen ∧ (u.circuit c).baseline = true
                ∧ (u.circuit c).lot = r.lot ∧ u.tag = s.tag)
            ∧ (s.inp.bays[c] = false → r.state = .service →
              (u.circuit c).state = .service ∧ (u.circuit c).latchOpen = r.latchOpen ∧ (u.circuit c).baseline = false
                ∧ (u.circuit c).lot = none ∧ u.tag = s.tag)
            ∧ (s.inp.bays[c] = false → r.state ≠ .service →
              (u.circuit c).state = .service ∧ (u.circuit c).reason = some .levelLost ∧ (u.circuit c).lot = none
                ∧ (u.circuit c).baseline = false ∧ (u.circuit c).latchOpen = r.latchOpen
                ∧ u.link.isSet (.blocked c) = true ∧ u.tag = s.tag.abandonJobs c
                ∧ (u.pump c).next = none ∧ (u.pump c).heldPrime = false
                ∧ ∀ a, (u.pump c).activity = some a → a.atBoundary = some (.cut .removed)))
          -- the purge test of a named interval
          ∧ (¬takesBay → fs.num "reserve" = none → r.state = .ready ∨ r.state = .empty →
            (fs.num "purgeint" = none → (u.circuit c).purgeDue = r.purgeDue)
            ∧ ∀ n, fs.num "purgeint" = some n →
              let runOut : Bool := n != 0 && r.lastDelivery + n * 60000000 ≤ s.now
              (u.circuit c).purgeDue = match r.purgeDue with
                | none => if runOut then some .interval else none
                | some .interval => if runOut then some .interval else none
                | some .forced => some .forced))
        -- the LOW evaluation of a named threshold and of a run cut at once, and a stir class that becomes OFF
        ∧ (fs.num "low" = none → steps = 0 → (u.circuit c).lowArmed = r.lowArmed)
        ∧ (fs.num "low" ≠ none ∨ steps ≠ 0 →
          let low := (u.circuit c).cfg.low
          (low ≤ (u.circuit c).level → (u.circuit c).lowArmed = true)
          ∧ ((u.circuit c).level < low →
            (u.circuit c).lowArmed = false ∧ (r.lowArmed = true → u.link.isSet (.low c) = true)))
        ∧ (g.stir ≠ .off → (u.circuit c).cfg.stir = .off → ∀ x ∈ u.cares.due, x.1 ≠ c)
        -- a held calibration result
        ∧ (s.calResult = none → u.calResult = none)
        ∧ (∀ w, s.calResult = some w → u.calResult =
            if w.circuit = c ∧ ((fs.num "k").getD g.k ≠ g.k ∨ (fs.num "density").getD g.density ≠ g.density
              ∨ (g.code ≠ none ∧ code = none)) then none else some w)
        ∧ Unchanged [.circuits, .drive, .store, .calibration, .station, .track, .tagBus, .care, .link] s u)

/-- TRIM stages a trim, clamped to −63 … +63: it is active at once at an open-batch count of 0 and pending elsewhere,
and the circuit's record is queued for the store; nothing else changes but the reply (R21). A request row keeps no input
place (Assumption 5). -/
def Obligations.TrimIsStaged : Prop :=
  ∀ (s : State) (fs : Fields) (c : Circ) (t : Int), s.powered = true →
    fs.malformed ["circuit", "trim"] ["circuit", "trim"] ["circuit"] = false → (fs.num "circuit").bind circ? = some c →
    (fs.get "trim").bind signed? = some t → (s.circuit c).state ≠ .unfitted → s.store.fifo.length < 8 →
    let v := max (-63) (min 63 t)
    let r := s.circuit c
    let r' := if r.openBatch = 0 then { r with cfg := { r.cfg with trim := v }, trim := v, pendingTrim := none }
      else { r with cfg := { r.cfg with trim := v }, pendingTrim := some v }
    ∃ u, exec (.trim fs) s = .next (State.conclude s u)
      ∧ u.circuit c = r' ∧ OtherCircuits [c] s u
      ∧ u.store = { s.store with fifo := s.store.fifo ++ [.circuit c r'.cfg] }
      ∧ u.link = s.link.push (.reply false (.ok ([.word "applied" (if r.openBatch = 0 then "NOW" else "PENDING")]
          ++ if v = t then [] else [.bare "CLAMPED"])))
      ∧ Unchanged [.circuits, .store, .link] s u

/-- CALTAKE stages the trim of the calibration result on the result's circuit as TRIM does; with no result it is refused
NOT_FOUND, with a result that has no trim STATE, and with no free place in the link-write FIFO BUSY (R133). A request
row keeps no input place (Assumption 5). -/
def Obligations.CaltakeStagesTrim : Prop :=
  ∀ s : State, s.powered = true →
    (s.calResult = none → exec (.caltake []) s = .next (s.pushReply false (.no .notFound)))
    ∧ ∀ q, s.calResult = some q →
      (q.trim = none → exec (.caltake []) s = .next (s.pushReply false (.no .state)))
      ∧ ∀ t, q.trim = some t →
        (8 ≤ s.store.fifo.length → exec (.caltake []) s = .next (s.pushReply false (.no .busy)))
        ∧ (s.store.fifo.length < 8 →
          let r := s.circuit q.circuit
          let r' := if r.openBatch = 0 then { r with cfg := { r.cfg with trim := t }, trim := t, pendingTrim := none }
            else { r with cfg := { r.cfg with trim := t }, pendingTrim := some t }
          ∃ u, exec (.caltake []) s = .next (State.conclude s u)
            ∧ u.circuit q.circuit = r' ∧ OtherCircuits [q.circuit] s u
            ∧ u.store = { s.store with fifo := s.store.fifo ++ [.circuit q.circuit r'.cfg] }
            ∧ u.link = s.link.push (.reply false (.ok ([.signed "trim" t,
                .word "applied" (if r.openBatch = 0 then "NOW" else "PENDING")]
                ++ if q.status = .outOfRange then [.bare "CLAMPED"] else [])))
            ∧ Unchanged [.circuits, .store, .link] s u)

/-- CANOUT on a circuit in SERVICE opens its latch; in READY, EMPTY or BLOCKED with an idle pump it begins a release,
which asks for the write of the tag and marks the level dirty where there are tag facts, and otherwise ends at once in
SERVICE with the latch open; a stir it cuts goes back into the due list with its due time, but for a circuit in SERVICE; in
every other case it is refused (R12, R13, R211). A request row keeps no input place
(Assumption 5). -/
def Obligations.CanoutReleases : Prop :=
  ∀ (s : State) (fs : Fields) (c : Circ), s.powered = true →
    fs.malformed ["circuit"] ["circuit"] ["circuit"] = false → (fs.num "circuit").bind circ? = some c →
    let r := s.circuit c
    let settled : Prop := r.state = .ready ∨ r.state = .empty ∨ r.state = .blocked
    (r.state = .service → ∃ u, exec (.canout fs) s = .next (State.conclude s u)
      ∧ u.circuit c = { r with latchOpen := true } ∧ OtherCircuits [c] s u
      ∧ u.link = s.link.push (.reply false (.ok [])) ∧ Unchanged [.circuits, .link] s u)
    ∧ (settled → (s.pump c).activity = none → ∃ u, exec (.canout fs) s = .next (State.conclude s u)
      ∧ (∀ l, r.lot = some l → (u.circuit c).state = .releasing ∧ (u.circuit c).origin = .of r.state
          ∧ u.tag = s.tag.ask ⟨c, .write (r.level / 100)⟩
          ∧ u.store = { s.store with dirty := s.store.dirty.set c.val true })
      ∧ (r.lot = none → (u.circuit c).state = .service ∧ (u.circuit c).latchOpen = true
          ∧ u.tag = s.tag ∧ u.store = s.store)
      ∧ (r.state ≠ .blocked → (u.circuit c).stir = none ∧ (u.circuit c).purgeDue = none)
      ∧ (∀ x, x ∈ u.cares.due ↔ if r.lot = none then x ∈ s.cares.due ∧ x.1 ≠ c
          else x ∈ s.cares.due ∨ r.state ≠ .blocked ∧ x.1 = c ∧ r.stir.map (·.due) = some x.2)
      ∧ OtherCircuits [c] s u ∧ u.link = s.link.push (.reply false (.ok []))
      ∧ Unchanged [.circuits, .drive, .store, .station, .tagBus, .care, .link] s u)
    ∧ (r.state = .unfitted → exec (.canout fs) s = .next (s.pushReply false (.no .state)))
    ∧ (r.state = .checking ∨ r.state = .priming ∨ r.state = .releasing ∨ (settled ∧ (s.pump c).activity ≠ none) →
        exec (.canout fs) s = .next (s.pushReply false (.no .busy)))

/-- A bay switch change: an UNFITTED circuit's baseline follows the switch; with the watch off, or at the baseline's
level, nothing but the input changes; else the baseline moves, an insertion in SERVICE locks the latch and begins a check
with a READ job, a removal in SERVICE removes the lot, and a removal in any other state moves the circuit to SERVICE with
the reason LEVEL_LOST, sets BLOCKED, leaves the latch as it is, takes the circuit's tag jobs out of the queue, abandons
one in a transaction, ends one that waits, each without a result, takes the circuit out of the due list, refuses the
request in the pump's next place to its block, which asks again, and cuts its activity: with a burst in flight at its
boundary, and otherwise at once, with its delivered steps taken from the level and a tin's dose entered in its record. The
piston keeps its position, and the other circuits and pumps, the book, the library, the Lidder and the Mixers stay as they
were (R4, R6 to R8, R15 to R17, R100, R106, R202, R211). That such a cut takes the place of a stop or of a RESTART cut
that already waits for the boundary is Assumption 55, and that a run which RESTART has cut leaves the last-delivery time
Assumption 51. How an abandoned job in a transaction ends is said in TagSetbacks. -/
def Obligations.BaySwitchMovesCircuit : Prop :=
  ∀ (s : State) (c : Circ) (closed : Bool), s.powered = true →
    let r := s.circuit c
    let s' : State := { s with inp := { s.inp with bays := s.inp.bays.set c.val closed } }
    ∃ u, exec (.baySwitchChange c closed) s = .next (State.conclude s u)
      ∧ (r.state = .unfitted → u = s'.setCircuit c fun r => { r with baseline := closed })
      ∧ (r.state ≠ .unfitted → (r.cfg.watch = false ∨ closed = r.baseline) → u = s')
      ∧ (r.state ≠ .unfitted → r.cfg.watch = true → closed ≠ r.baseline →
          (closed = true → r.state = .service →
            u.circuit c = { r with baseline := true, state := .checking, latchOpen := false, checkKind := .insertion }
              ∧ u.tag = s.tag.ask ⟨c, .read⟩ ∧ OtherCircuits [c] s u ∧ Unchanged [.inputs, .circuits, .tagBus] s u)
          ∧ (closed = true → r.state ≠ .service → u = s'.setCircuit c fun r => { r with baseline := true })
          ∧ (closed = false → r.state = .service →
              u = s'.setCircuit c fun r => { r with baseline := false, lot := none })
          ∧ (closed = false → r.state ≠ .service →
            (u.circuit c).state = .service ∧ (u.circuit c).reason = some .levelLost ∧ (u.circuit c).lot = none
              ∧ (u.circuit c).baseline = false ∧ u.link.isSet (.blocked c) = true
              ∧ (u.circuit c).latchOpen = r.latchOpen
              ∧ u.tag.queue ++ u.tag.backlog = (s.tag.queue ++ s.tag.backlog).filter (fun j => j.circuit ≠ c)
              ∧ (∀ a, s.tag.active = some a → a.job.circuit ≠ c → u.tag.active = some a)
              ∧ (∀ a p, s.tag.active = some a → a.job.circuit = c → a.step = .phase p →
                  u.tag.active = some { a with abandoned := true })
              ∧ (∀ a, s.tag.active = some a → a.job.circuit = c → (∀ p, a.step ≠ .phase p) → u.tag.active = none)
              ∧ u.tag.images = s.tag.images ∧ u.tag.last = s.tag.last ∧ u.tag.bus = s.tag.bus
              ∧ OtherCircuits [c] s u ∧ OtherPumps c s u
              ∧ Unchanged [.inputs, .circuits, .drive, .store, .station, .track, .tagBus, .care, .link] s u
              ∧ (u.circuit c).cfg = r.cfg ∧ (u.circuit c).openBatch = r.openBatch
              ∧ (r.state = .ready ∨ r.state = .empty → (u.circuit c).stir = none ∧ (u.circuit c).purgeDue = none)
              ∧ u.cares = { s.cares with due := s.cares.due.filter fun x => x.1 != c }
              -- the pump
              ∧ u.pump c = { s.pump c with activity := (u.pump c).activity, next := none, heldPrime := false }
              ∧ (∀ a, (u.pump c).activity = some a → a.atBoundary = some (.cut .removed))
              ∧ ((s.pump c).burst = none → (u.pump c).activity = none)
              ∧ (∀ a, (s.pump c).activity = some a → (s.pump c).burst ≠ none → a.run ≠ .waitingStir →
                  (u.pump c).activity = some { a with atBoundary := some (.cut .removed) })
              -- a run that is cut at once
              ∧ (∀ a, (s.pump c).activity = some a → (s.pump c).burst = none →
                RunReported c a a.delivered s u
                ∧ (r.state = .ready → a.kind ≠ .refill → a.delivered ≠ 0 → (u.circuit c).level ≤ r.cfg.reserve →
                    u.link.isSet (.empty c) = true)
                ∧ ((s.pump c).next = none → a.kind ≠ .refill →
                  DoseRecorded c a a.delivered (if a.delivered = a.planned then .delivered else .cut .removed) s u
                  ∧ ∀ q, a.owner = .cal → s.stn.cal = some q → q.circuit = c → q.handing = .handed →
                      u.stn.cal = some { q with delivered := a.delivered, handing := .ended }))
              -- no run ends
              ∧ ((s.pump c).activity = none ∨ (s.pump c).burst ≠ none →
                (u.circuit c).level = r.level ∧ (u.circuit c).lastDelivery = r.lastDelivery
                  ∧ (u.circuit c).lowArmed = r.lowArmed ∧ u.store = s.store ∧ ((s.pump c).next = none → u.track = s.track))
              -- the request in the next place
              ∧ (∀ q, (s.pump c).next = some q → (∀ a, (s.pump c).activity = some a → a.kind = .refill) →
                (∀ id k t e, q.owner = .tin id k → s.tin? id = some t → t.entries[k]? = some e →
                  u.tin? id = some { t with entries := t.entries.set k { e with handing := .again true } })
                ∧ (q.owner = .cal → u.stn.cal = s.stn.cal.map fun x => { x with handing := .again true }))))

/-! ### The library and the store -/

/-- BSET and SSET that name every field write their record; BDEL and SDEL of a record that no line and no formula names
make it absent. The link write carries the record, and nothing else changes but the reply (R28 to R31). A request row
keeps no input place (Assumption 5). -/
def Obligations.BaseAndSizeRecords : Prop :=
  ∀ (s : State) (fs : Fields), s.powered = true → s.store.fifo.length < 8 →
    (∀ (b : Fin 8) (load mix : Nat), fs.malformed ["base", "load", "mix"] ["base"] ["load", "mix"] = false →
      base? fs = some b → fs.num "load" = some load → fs.num "mix" = some mix → 1000 ≤ load → load ≤ 150000 →
      1 ≤ mix → mix ≤ 3 → (∀ l ∈ s.bk.lines, l.formula.base ≠ b) →
      ∃ u, exec (.bset fs) s = .next (State.conclude s u)
        ∧ u.lib = { s.lib with bases := s.lib.bases.set b.val (some ⟨load, mix⟩) }
        ∧ u.store = { s.store with fifo := s.store.fifo ++ [.base b (some ⟨load, mix⟩)] }
        ∧ u.link = s.link.push (.reply false (.ok [])) ∧ Unchanged [.library, .store, .link] s u)
    ∧ (∀ b : Fin 8, fs.malformed ["base"] ["base"] [] = false → base? fs = some b → s.lib.bases[b] ≠ none →
      (∀ l ∈ s.bk.lines, l.formula.base ≠ b) → (∀ x ∈ s.lib.slots, x.2.base ≠ b) →
      ∃ u, exec (.bdel fs) s = .next (State.conclude s u)
        ∧ u.lib = { s.lib with bases := s.lib.bases.set b.val none }
        ∧ u.store = { s.store with fifo := s.store.fifo ++ [.base b none] }
        ∧ u.link = s.link.push (.reply false (.ok [])) ∧ Unchanged [.library, .store, .link] s u)
    ∧ (∀ (z : Fin 12) (r : Size), fs.malformed ("size" :: sizeKeys) ["size"] ["vol", "height", "mix1", "mix2", "mix3"]
        = false → size? fs = some z → fs.num "vol" = some r.vol → fs.num "height" = some r.height →
      (fs.get "lid").bind (code? "L" 3) = some r.lid → fs.num "mix1" = some r.mix1 → fs.num "mix2" = some r.mix2 →
      fs.num "mix3" = some r.mix3 → 250 ≤ r.vol → r.vol ≤ 20000 → 1 ≤ r.height → r.height ≤ 6 →
      (∀ m ∈ [r.mix1, r.mix2, r.mix3], 30 ≤ m ∧ m ≤ 300) → (∀ l ∈ s.bk.lines, l.size ≠ z) →
      ∃ u, exec (.sset fs) s = .next (State.conclude s u)
        ∧ u.lib = { s.lib with sizes := s.lib.sizes.set z.val (some r) }
        ∧ u.store = { s.store with fifo := s.store.fifo ++ [.size z (some r)] }
        ∧ u.link = s.link.push (.reply false (.ok [])) ∧ Unchanged [.library, .store, .link] s u)
    ∧ (∀ z : Fin 12, fs.malformed ["size"] ["size"] [] = false → size? fs = some z → s.lib.sizes[z] ≠ none →
      (∀ l ∈ s.bk.lines, l.size ≠ z) →
      ∃ u, exec (.sdel fs) s = .next (State.conclude s u)
        ∧ u.lib = { s.lib with sizes := s.lib.sizes.set z.val none }
        ∧ u.store = { s.store with fifo := s.store.fifo ++ [.size z none] }
        ∧ u.link = s.link.push (.reply false (.ok [])) ∧ Unchanged [.library, .store, .link] s u)

/-- FSTORE with slot= writes its formula into the slot, and without it into the lowest unused one; FERASE makes a used
slot that no line references unused; FNEXT shows the lowest used slot from its start and moves the cursor behind it, or
to 401. A slot written reads as written, and every other slot as before (R32, R34, R36, R37). The field names of the
slot's report are the model's (Assumption 13). A request row keeps no input place (Assumption 5). -/
def Obligations.LibrarySlots : Prop :=
  ∀ (s : State) (fs : Fields), s.powered = true → SlotsInv s →
    (fs.malformed ["slot", "name", "base", "line"] ["base"] ["slot"] = false → inlineSyntax fs = false →
      inlineRange fs = false → s.formulaRefusal (inlineFormula fs) = none → s.store.fifo.length < 8 →
      ∀ n, (fs.num "slot" = some n ∧ 1 ≤ n ∧ n ≤ 400
          ∨ fs.num "slot" = none ∧ 1 ≤ n ∧ n ≤ 400 ∧ s.slot? n = none
            ∧ ∀ m, 1 ≤ m → m < n → s.slot? m ≠ none) →
        ∃ u, exec (.fstore fs) s = .next (State.conclude s u)
          ∧ u.slot? n = some (inlineFormula fs) ∧ (∀ m, m ≠ n → u.slot? m = s.slot? m)
          ∧ u.lib = { s.lib with slots := u.lib.slots }
          ∧ u.store = { s.store with fifo := s.store.fifo ++ [.slot n (some (inlineFormula fs))] }
          ∧ u.link = s.link.push (.reply false (.ok [.num "slot" n,
              .word "replaced" (if (s.slot? n).isSome then "YES" else "NO")]))
          ∧ Unchanged [.library, .store, .link] s u)
    ∧ (∀ n, fs.malformed ["slot"] ["slot"] ["slot"] = false → fs.num "slot" = some n → 1 ≤ n → n ≤ 400 →
      s.slot? n ≠ none → (∀ l ∈ s.bk.lines, l.slot ≠ some n) → s.store.fifo.length < 8 →
      ∃ u, exec (.ferase fs) s = .next (State.conclude s u)
        ∧ u.slot? n = none ∧ (∀ m, m ≠ n → u.slot? m = s.slot? m)
        ∧ u.lib = { s.lib with slots := u.lib.slots }
        ∧ u.store = { s.store with fifo := s.store.fifo ++ [.slot n none] }
        ∧ u.link = s.link.push (.reply false (.ok [])) ∧ Unchanged [.library, .store, .link] s u)
    ∧ (∀ start, fs.malformed ["from"] [] ["from"] = false →
      (fs.num "from" = none ∧ start = max 1 s.lib.cursor
        ∨ ∃ k, fs.num "from" = some k ∧ k ≤ 400 ∧ start = max 1 k) →
      ∃ u, exec (.fnext fs) s = .next (State.conclude s u)
        ∧ (∀ n f, s.slot? n = some f → start ≤ n → (∀ m, start ≤ m → m < n → s.slot? m = none) →
            u.lib.cursor = n + 1 ∧ ∃ items, u.link = s.link.push (.reply false (.ok items)) ∧ .num "slot" n ∈ items)
        ∧ ((∀ m, start ≤ m → s.slot? m = none) →
            u.lib.cursor = 401 ∧ u.link = s.link.push (.reply false (.ok [.bare "EMPTY"])))
        ∧ u.lib = { s.lib with cursor := u.lib.cursor } ∧ Unchanged [.library, .link] s u)

/-- When a write ends its record is stored whole, the writer is free, and it takes its next work in the order of R41: a
pending marker set, a dirty level in the lowest circuit, a pending marker clear, the front of the link-write FIFO. What it
writes is what stands at that moment, and the write lasts 30 ms. At the end of every step a free writer takes its next
work in this order, and a busy one goes on. The marker clear that RESTART gave is let go once no run that RESTART cut goes
on in a circuit that the marker lists (R38, R41, R44; Assumption 51). The clock's part of the step is Assumption 10. -/
def Obligations.WriteEndStoresAndTakesNext : Prop :=
  (∀ (s : State) (w : WriteWork) (ends : Nat), s.powered = true → s.store.writer = some (w, ends) →
    ∃ t, exec .storeWriteEnd s = .next t ∧ Unchanged [.now, .store] s t ∧ t.now = max s.now ends
      ∧ t.store.lost = s.store.lost
      ∧ (∀ m, w = .marker m → t.store.nv = { s.store.nv with marker := m })
      ∧ (∀ c v, w = .level c v → t.store.nv = { s.store.nv with levels := s.store.nv.levels.set c.val (some v) })
      ∧ (∀ c g, w = .link (.circuit c g) →
          t.store.nv = { s.store.nv with circuits := s.store.nv.circuits.set c.val (some g) })
      ∧ (∀ b v, w = .link (.base b v) → t.store.nv = { s.store.nv with bases := s.store.nv.bases.set b.val v })
      ∧ (∀ z v, w = .link (.size z v) → t.store.nv = { s.store.nv with sizes := s.store.nv.sizes.set z.val v })
      ∧ (∀ n v, w = .link (.slot n v) → t.store.nv = { s.store.nv with slots := putSlot n v s.store.nv.slots })
      ∧ (∀ m, w = .link (.scheme m) → t.store.nv = { s.store.nv with scheme := some m })
      ∧ (∀ p, w = .link (.lidPolicy p) → t.store.nv = { s.store.nv with lidPolicy := some p })
      ∧ (∀ m k, w = .link (.lidCode m k) →
          t.store.nv = { s.store.nv with lidCodes := s.store.nv.lidCodes.set m.val (some k) })
      ∧ (∀ d, w = .link (.daily d) → t.store.nv = { s.store.nv with daily := some d })
      ∧ (∀ m, s.store.pendingSet = some m →
          t.store.writer = some (.marker (some m), t.now + 30000) ∧ t.store.pendingSet = none)
      ∧ (s.store.pendingSet = none →
          (∀ c, s.store.dirty[c] = true → (∀ d : Circ, d < c → s.store.dirty[d] = false) →
            t.store.writer = some (.level c (s.circuit c).level, t.now + 30000)
              ∧ t.store.dirty = s.store.dirty.set c.val false)
          ∧ ((∀ c : Circ, s.store.dirty[c] = false) →
            (s.store.pendingClear = true →
              t.store.writer = some (.marker none, t.now + 30000) ∧ t.store.pendingClear = false)
            ∧ (s.store.pendingClear = false →
              (∀ r rest, s.store.fifo = r :: rest →
                t.store.writer = some (.link r, t.now + 30000) ∧ t.store.fifo = rest)
              ∧ (s.store.fifo = [] → t.store.writer = none)))))
  ∧ ∀ s : State,
    (s.store.writer ≠ none → s.storeTake = s)
    ∧ (s.store.writer = none →
      (∀ m, s.store.pendingSet = some m → s.storeTake =
        { s with store := { s.store with writer := some (.marker (some m), s.now + 30000), pendingSet := none } })
      ∧ (∀ c, s.store.pendingSet = none → s.store.dirty[c] = true → (∀ d : Circ, d < c → s.store.dirty[d] = false) →
        s.storeTake = { s with store := { s.store with
          writer := some (.level c (s.circuit c).level, s.now + 30000), dirty := s.store.dirty.set c.val false } })
      ∧ (s.store.pendingSet = none → (∀ c : Circ, s.store.dirty[c] = false) →
        (s.store.pendingClear = true → s.storeTake =
          { s with store := { s.store with writer := some (.marker none, s.now + 30000), pendingClear := false } })
        ∧ (s.store.pendingClear = false →
          (∀ r rest, s.store.fifo = r :: rest → s.storeTake =
            { s with store := { s.store with writer := some (.link r, s.now + 30000), fifo := rest } })
          ∧ (s.store.fifo = [] → s.storeTake = s))))
    ∧ (s.store.heldClear = false → s.releaseClear = s)
    ∧ (let listed (c : Circ) : Prop := ∃ m v, (s.store.pendingSet.orElse fun _ => s.store.markerStored) = some m ∧ (c, v) ∈ m.vols
      s.store.heldClear = true →
        ((∃ c a, listed c ∧ (s.pump c).activity = some a ∧ a.restarted = true) → s.releaseClear = s)
        ∧ ((∀ c a, listed c → (s.pump c).activity = some a → a.restarted = false) → s.releaseClear =
            { s with store := { s.store with pendingClear := true, heldClear := false } }))

/-! ### The planner -/

/-- The steps of a dose: with n the whole steps of target and residue, n of at least the minimum dose is planned and the
residue keeps what is left; below it a dose is deferred with all of the target in the residue, unless the tin is the last,
where nothing is due at n = 0, n is raised to the minimum dose from half of it on, and dropped below that. Steps times D
and the new residue make up target and old residue, and the residue stays below the minimum dose times D. A colourant line
is judged on its bound circuit, else on the lowest holder of its code (Assumption 42): served, where 0 steps are planned
or the circuit can serve them; else HOLD, SKIPPED, or served by the twin, by the policy. An admission attempt that is owed
judges the LOADED tin at Z1: where stop, Z2, scale or line stand against it, it shows them; a HOLD outcome holds a RUNNING
or FINISHING line; a needed circuit with its purge due shows PURGE; else the tin is admitted: job INBOUND, Z2 reserved,
its dose entries and notes, each entry bound with its residue, the open-batch counts those of the bindings, and the marker
set with the planned volumes (R18, R20, R22, R42, R46 to R50, R52 to R56, R77, R83, R114 to R117). That a colourant line
whose code no circuit holds is HOLD, also where it is bound and at 0 steps, is Assumption 41; that a new marker set takes
away a clear that waits for cut runs is Assumption 51; that Z2 is reserved whatever its sensor shows is Assumption 65;
that a circuit with which a commit ends one binding and makes another keeps its pending values is Assumption 73. -/
def Obligations.PlanKeepsResidue : Prop :=
  (∀ (target r nmin : Nat) (last : Bool), 1 ≤ nmin →
    let n := (target + r) / 1024000000
    let p := planSteps target r nmin last
    (nmin ≤ n → p.steps = n ∧ p.outcome = .planned ∧ p.adjust = none
      ∧ p.residue = if last then none else some ((target + r) % 1024000000))
    ∧ (n < nmin → last = false → p = ⟨0, .deferred, none, some (target + r)⟩)
    ∧ (n < nmin → last = true → p.residue = none
      ∧ (n = 0 → p.steps = 0 ∧ p.outcome = .noneDue ∧ p.adjust = none)
      ∧ (0 < n → nmin ≤ 2 * n → p.steps = nmin ∧ p.outcome = .minAdjust ∧ p.adjust = some ((nmin : Int) - n))
      ∧ (0 < n → 2 * n < nmin → p.steps = 0 ∧ p.outcome = .minAdjust ∧ p.adjust = some (-(n : Int))))
    ∧ ∀ r', p.residue = some r' → p.steps * 1024000000 + r' = target + r ∧ r' < nmin * 1024000000)
  -- the outcome of one colourant line
  ∧ (∀ (s : State) (e : ColourantEntry) (code : Text) (amount vol : Nat) (last : Bool),
    let factor (c : Circ) : Nat := (1024 + (s.circuit c).trim).toNat
    let planOn (c : Circ) (r : Nat) : StepPlan :=
      planSteps (amount * vol * (s.circuit c).cfg.k * factor c) r (s.circuit c).nmin last
    let serves (c : Circ) (p : StepPlan) : Prop :=
      (s.circuit c).state = .ready ∧ (s.circuit c).cfg.code = some code
        ∧ (s.circuit c).cfg.reserve + roundHalfUp (p.steps * 1024000) ((s.circuit c).cfg.k * factor c) ≤ (s.circuit c).level
        ∧ ∀ a, (s.pump c).activity = some a → a.kind = .purge ∨ a.kind = .refill
    ((∀ c : Circ, (s.circuit c).cfg.code ≠ some code) → ∃ p, s.judge e (code, amount) vol last = .hold none p)
    ∧ ∀ c : Circ, (e.bound = some c ∧ ∃ d : Circ, (s.circuit d).cfg.code = some code)
        ∨ (e.bound = none ∧ (s.circuit c).cfg.code = some code ∧ ∀ d : Circ, d < c → (s.circuit d).cfg.code ≠ some code) →
      let p := planOn c (e.residue.getD 512000000)
      (p.steps = 0 ∨ serves c p → s.judge e (code, amount) vol last = .served c p false)
      ∧ (p.steps ≠ 0 → ¬serves c p →
        ((s.circuit c).cfg.policy = .hold → s.judge e (code, amount) vol last = .hold (some c) p)
        ∧ ((s.circuit c).cfg.policy = .skip → s.judge e (code, amount) vol last = .skipped c p)
        ∧ ((s.circuit c).cfg.policy = .twin →
          ((s.circuit c).cfg.twin = none → s.judge e (code, amount) vol last = .hold (some c) p)
          ∧ ∀ d, (s.circuit c).cfg.twin = some d →
            (serves d (planOn d 512000000) →
              s.judge e (code, amount) vol last = .served d (planOn d 512000000) true)
            ∧ (¬serves d (planOn d 512000000) → s.judge e (code, amount) vol last = .hold (some c) p))))
  -- the admission attempt
  ∧ ∀ s : State,
    let idle : State := { s with stn := { s.stn with attemptOwed := false } }
    let waits (ws : List WaitReason) : State := { s with stn := { s.stn with attemptOwed := false, waiting := ws } }
    (s.stn.attemptOwed = false → s.attemptLook = s)
    ∧ (s.stn.attemptOwed = true → (∀ t, s.tinAt .z1 = some t → t.stage ≠ .loaded ∨ t.order = none) → s.attemptLook = idle)
    ∧ ∀ t n k l, s.stn.attemptOwed = true → s.tinAt .z1 = some t → t.stage = .loaded → t.order = some (n, k) →
        s.line? n = some l →
      let z2 : Prop := (s.placeRec .z2).tin = none ∧ (s.placeRec .z2).departing = false ∧ (s.placeRec .z2).uncertain = false
        ∧ (s.placeRec .z2).reserved = none
      let scale : Prop := s.stn.scale = .doseCheck ∧ s.stn.cal = none
      let goes : Prop := l.state ≠ .held ∧ l.state ≠ .cancelled
      let plan := (l.formula.lines.zip l.entries).map fun x =>
        s.judge x.2 x.1 ((s.lib.sizes[l.size].map (·.vol)).getD 0) (k == l.limit)
      let dose (x : (Text × Nat) × Judged) : Option DoseEntry := match x.2 with
        | .served c p sub => some
            { code := x.1.1, circuit := c, planned := p.steps, outcome := p.outcome, adjust := p.adjust, substituted := sub
              volume := roundHalfUp (p.steps * 1024000) ((s.circuit c).cfg.k * (1024 + (s.circuit c).trim).toNat)
              handing := if p.steps = 0 then .ended else .notYet
              delivered := 0, deliveredVolume := 0, run := none, mass := 0 }
        | .skipped c _ => some
            { code := x.1.1, circuit := c, planned := 0, outcome := .skipped, adjust := none, substituted := false, volume := 0
              handing := .ended, delivered := 0, deliveredVolume := 0, run := none, mass := 0 }
        | .hold _ _ => none
      let es := (l.formula.lines.zip plan).filterMap dose
      (¬(s.stopped = false ∧ z2 ∧ scale ∧ goes) → ∃ ws, s.attemptLook = waits ws
        ∧ (.stopped ∈ ws ↔ s.stopped = true) ∧ (.z2 ∈ ws ↔ ¬z2) ∧ (.scale ∈ ws ↔ ¬scale) ∧ (.line ∈ ws ↔ ¬goes)
        ∧ .circuit ∉ ws ∧ .purge ∉ ws)
      ∧ (s.stopped = false → z2 → scale → goes →
        (∀ front c p back, plan = front ++ .hold c p :: back → (∀ j ∈ front, ∀ d q, j ≠ .hold d q) →
          let why : Hold := .circuit ((c.map circNo).getD 0)
          s.attemptLook.stn = { s.stn with attemptOwed := false, waiting := [.circuit] }
            ∧ Unchanged [.book, .station, .link] s s.attemptLook
            ∧ (l.state = .running ∨ l.state = .finishing →
              s.attemptLook.line? n = some { l with state := .held, hold := some why }
                ∧ (∀ m, m ≠ n → s.attemptLook.line? m = s.line? m)
                ∧ s.attemptLook.link = s.link.setFlag .lineHeld
                    [.num "line" n, .word "reason" "CIRCUIT", .num "circuit" ((c.map circNo).getD 0)])
            ∧ (l.state ≠ .running → l.state ≠ .finishing → s.attemptLook = waits [.circuit]))
        ∧ ((∀ j ∈ plan, ∀ d q, j ≠ .hold d q) →
          ((∃ e ∈ es, e.planned ≠ 0 ∧ (s.circuit e.circuit).purgeDue ≠ none) → s.attemptLook = waits [.purge])
          ∧ ((∀ e ∈ es, e.planned ≠ 0 → (s.circuit e.circuit).purgeDue = none) →
            ∃ u l', s.attemptLook = u
              ∧ u.stn = { s.stn with
                  attemptOwed := false, job := .inbound, tin := some t.id, waiting := [], delay := .off
                  markerAsked := es.any fun e => e.planned != 0 }
              ∧ u.placeRec .z2 = { s.placeRec .z2 with reserved := some t.id } ∧ (∀ p, p ≠ .z2 → u.placeRec p = s.placeRec p)
              ∧ u.track = { s.track with places := u.track.places, tins := u.track.tins }
              ∧ (∃ ns, u.tin? t.id = some { t with stage := .readyToMove, readyAt := s.now, entries := es, notes := ns }
                ∧ ∀ x, x ∈ ns ↔ x ∈ t.notes ∨ (x = .offShade ∧ ∃ e ∈ es, e.outcome = .skipped)
                    ∨ (x = .substituted ∧ ∃ e ∈ es, e.substituted = true))
              ∧ (∀ m, m ≠ t.id → u.tin? m = s.tin? m)
              -- the entries of the line, and the counts of the circuits
              ∧ u.line? n = some { l with entries := l' } ∧ (∀ m, m ≠ n → u.line? m = s.line? m)
              ∧ (∀ (i : Nat) (e : ColourantEntry) (j : Judged), l.entries[i]? = some e → plan[i]? = some j →
                ∃ c p, (j = .skipped c p ∨ ∃ b, j = .served c p b)
                  ∧ l'[i]? = some { e with bound := some c, residue := p.residue })
              ∧ (BookInv s → l'.length = l.entries.length ∧ ∀ c : Circ,
                let r := { s.circuit c with openBatch := u.bindings c }
                u.circuit c = if u.bindings c = 0 ∧ s.bindings c ≠ 0 then r.applyPending else r)
              -- the open-tin marker
              ∧ ((∀ e ∈ es, e.planned = 0) → u.store = s.store)
              ∧ ((∃ e ∈ es, e.planned ≠ 0) → ∃ m,
                u.store = { s.store with pendingSet := some m, pendingClear := false, heldClear := false }
                  ∧ t.id ∈ m.tins
                  ∧ ∀ c : Circ, m.volume c = ((s.store.pendingSet.orElse fun _ => s.store.markerStored).map
                      fun b => b.volume c).getD 0
                    + ((es.filter fun e => e.planned != 0 && e.circuit == c).map (·.volume)).sum)
              ∧ Unchanged [.circuits, .store, .book, .station, .track] s u)))

/-! ### The Order Book -/

/-- An accepted ORDER enters a new QUEUED line with the size, tin count, priority, reference and formula of the request,
nothing released and nothing bound, at its place in book order. Its number is one that no line of the book holds, and is
the number after the last assigned (1 after 65,535) where no line holds that (R64, R65, R66, R70). A request row keeps
no input place (Assumption 5). -/
def Obligations.OrderEntersLine : Prop :=
  ∀ (s : State) (fs : Fields) (z : Fin 12) (f : Formula), s.powered = true → orderSyntax fs = false →
    orderRange fs = false → size? fs = some z → s.orderFormula fs = some f → s.lib.sizes[z] ≠ none →
    s.formulaRefusal f = none → s.bk.lines.length < 32 →
    let following := if s.bk.lastNumber ≥ 65535 then 1 else s.bk.lastNumber + 1
    ∃ (n pos : Nat) (u : State), exec (.order fs) s = .next (State.conclude s u)
      ∧ 1 ≤ n ∧ n ≤ 65535 ∧ (∀ l ∈ s.bk.lines, l.number ≠ n)
      ∧ ((∀ l ∈ s.bk.lines, l.number ≠ following) → n = following) ∧ u.bk.lastNumber = n
      ∧ newLineStands
          { number := n, ref := fs.get "ref", formula := f, slot := fs.num "slot", size := z
            tins := (fs.num "tins").getD 0, limit := (fs.num "tins").getD 0
            rush := (fs.get "prio").bind (named? prioTable) == some true, state := .queued, hold := none
            released := 0, completed := 0, failed := 0, entries := f.lines.map fun _ => ⟨none, none, none⟩ }
          s.bk.lines u.bk.lines
      ∧ u.link = s.link.push (.reply false (.ok [.num "line" n, .num "pos" pos]))
      ∧ (u.bk.lines[pos - 1]?).map (·.number) = some n ∧ Unchanged [.book, .link] s u

/-- HOLD makes a QUEUED, RUNNING, FINISHING or otherwise held line HELD with the reason HOST, at its place in the book,
and sets LINE_HELD; a line held with HOST stays as it is, and a CANCELLED one is refused STATE. GO gives a HELD line the
state its counts say and takes the reason away. A line that returns to QUEUED keeps its place, but that a NORMAL line with
a QUEUED RUSH line behind it moves directly behind the last such line, and a RUSH line with a QUEUED NORMAL line in front
of it directly in front of the first; the lines it passes keep their order. Where a tin of the line waits at Z1 the
station owes it another attempt; a line that is not HELD is refused STATE, and a line the book does not hold NOT_FOUND
(R71, R76, R79). GO's field state= is the model's (Assumption 13); a request row keeps no input place (Assumption 5). -/
def Obligations.HoldAndGo : Prop :=
  ∀ (s : State) (fs : Fields) (n : Nat), s.powered = true → BookInv s →
    fs.malformed ["line"] ["line"] ["line"] = false → fs.num "line" = some n → 1 ≤ n → n ≤ 65535 →
    (s.line? n = none → exec (.hold fs) s = .next (s.pushReply false (.no .notFound))
      ∧ exec (.go fs) s = .next (s.pushReply false (.no .notFound)))
    ∧ ∀ l, s.line? n = some l →
      (l.state = .queued ∨ l.state = .running ∨ l.state = .finishing ∨ (l.state = .held ∧ l.hold ≠ some .host) →
        ∃ u, exec (.hold fs) s = .next (State.conclude s u)
          ∧ u.line? n = some { l with state := .held, hold := some .host } ∧ (∀ m, m ≠ n → u.line? m = s.line? m)
          ∧ u.bk.lines.map (·.number) = s.bk.lines.map (·.number)
          ∧ u.link = (s.link.push (.reply false (.ok []))).setFlag .lineHeld [.num "line" n, .word "reason" "HOST"]
          ∧ Unchanged [.book, .link] s u)
      ∧ (l.state = .held ∧ l.hold = some .host →
        exec (.hold fs) s = .next (State.conclude s (s.pushReply false (.ok []))))
      ∧ (l.state = .cancelled → exec (.hold fs) s = .next (s.pushReply false (.no .state)))
      ∧ (l.state ≠ .held → exec (.go fs) s = .next (s.pushReply false (.no .state)))
      ∧ (l.state = .held →
        let g : LineState := if l.released = 0 then .queued else if l.released < l.limit then .running else .finishing
        ∃ u, exec (.go fs) s = .next (State.conclude s u)
          ∧ u.line? n = some { l with state := g, hold := none } ∧ (∀ m, m ≠ n → u.line? m = s.line? m)
          -- its place in the book
          ∧ (g ≠ .queued → u.bk.lines.map (·.number) = s.bk.lines.map (·.number))
          ∧ (g = .queued → ∀ front back, s.bk.lines = front ++ l :: back →
            let x : OrderLine := { l with state := .queued, hold := none }
            (l.rush = false →
              ((∀ y ∈ back, y.queuedRush = false) → u.bk.lines = front ++ x :: back)
              ∧ ∀ mid y rest, back = mid ++ y :: rest → y.queuedRush = true → (∀ z ∈ rest, z.queuedRush = false) →
                u.bk.lines = front ++ mid ++ y :: x :: rest)
            ∧ (l.rush = true →
              ((∀ y ∈ front, y.queuedNormal = false) → u.bk.lines = front ++ x :: back)
              ∧ ∀ pre y mid, front = pre ++ y :: mid → y.queuedNormal = true → (∀ z ∈ pre, z.queuedNormal = false) →
                u.bk.lines = pre ++ x :: y :: mid ++ back))
          ∧ ((∃ t k, s.tinAt .z1 = some t ∧ t.order = some (n, k) ∧ t.stage = .loaded) →
              u.stn = { s.stn with attemptOwed := true })
          ∧ ((∀ t k, s.tinAt .z1 = some t → t.order = some (n, k) → t.stage ≠ .loaded) → u.stn = s.stn)
          ∧ u.link = s.link.push (.reply false (.ok [.word "state" g.name]))
          ∧ Unchanged [.book, .station, .link] s u)

/-- CANCEL of a line that is not cancelled ends its bindings, brings its limit to the tins released, and makes it
CANCELLED; a tin of it that stands LOADED at Z1 is FAILED; with no live tin it leaves the book and LINE_DONE is set. CANCEL
with after=k lowers the release limit to k, changes nothing where the limit is not above k, and is refused STATE below the
tins released; with all tins released a RUNNING line is FINISHING and a HELD one stays HELD, and with no live tin either is
DONE and leaves the book. A line that is cancelled or leaves the book ends its bindings: the open-batch count of a circuit
falls by those it had there, and at 0 the pending values are applied (R22, R69, R80, R81, R84). CANCEL's field limit= is the
model's (Assumption 13); a request row keeps no input place (Assumption 5). -/
def Obligations.CancelEndsLine : Prop :=
  ∀ (s : State) (fs : Fields) (n : Nat) (l : OrderLine), s.powered = true → BookInv s →
    fs.malformed ["line", "after"] ["line"] ["line", "after"] = false → fs.num "line" = some n → 1 ≤ n → n ≤ 65535 →
    s.line? n = some l →
    let stays (u : State) (l' : OrderLine) : Prop :=
      u.line? n = some l' ∧ (∀ m, m ≠ n → u.line? m = s.line? m) ∧ u.bk.lines.map (·.number) = s.bk.lines.map (·.number)
    let leaves (u : State) (g : String) (items : List Item) : Prop :=
      u.bk.lines = s.bk.lines.filter (fun x => x.number != n) ∧ BindingsEnd l s u
        ∧ u.link = (s.link.push (.reply false (.ok items))).setFlag .lineDone
            [.num "line" n, .word "state" g, .num "completed" l.completed, .num "failed" l.failed]
    ∀ row ∈ ([.cancel, .cancelAfter] : List (Fields → Instr)),
      (l.state = .cancelled → (∀ k, fs.num "after" = some k → 1 ≤ k ∧ k ≤ 24) →
        exec (row fs) s = .next (s.pushReply false (.no .state)))
      ∧ (l.state ≠ .cancelled → fs.num "after" = none →
        ∃ u, exec (row fs) s = .next (State.conclude s u)
          ∧ (l.live = 0 → leaves u "CANCELLED" [])
          ∧ (l.live ≠ 0 → BindingsEnd l s u ∧ u.link = s.link.push (.reply false (.ok []))
              ∧ stays u { l with
                  state := .cancelled, limit := l.released, hold := none
                  entries := l.entries.map fun e => { e with bound := none } })
          ∧ (∀ t k, s.tinAt .z1 = some t → t.order = some (n, k) → t.stage = .loaded →
              u.tin? t.id = some { t with stage := .failed } ∧ (∀ m, m ≠ t.id → u.tin? m = s.tin? m)
                ∧ u.track = { s.track with tins := u.track.tins })
          ∧ ((∀ t k, s.tinAt .z1 = some t → t.order = some (n, k) → t.stage ≠ .loaded) → u.track = s.track)
          ∧ Unchanged [.circuits, .book, .track, .link] s u)
      ∧ ∀ k, fs.num "after" = some k → 1 ≤ k → k ≤ 24 → l.state ≠ .cancelled →
        (k < l.released → exec (row fs) s = .next (s.pushReply false (.no .state)))
        ∧ (l.limit ≤ k → l.released ≤ k → exec (row fs) s = .next (State.conclude s (s.pushReply false (.ok []))))
        ∧ (k < l.limit → l.released < k → l.state ≠ .finishing →
          ∃ u, exec (row fs) s = .next (State.conclude s u) ∧ stays u { l with limit := k }
            ∧ u.link = s.link.push (.reply false (.ok [.num "limit" k])) ∧ Unchanged [.book, .link] s u)
        ∧ (k < l.limit → l.released = k → l.state = .running ∨ l.state = .held →
          ∃ u, exec (row fs) s = .next (State.conclude s u)
            ∧ (l.live ≠ 0 →
              stays u { l with limit := k, state := if l.state = .running then .finishing else .held }
                ∧ u.link = s.link.push (.reply false (.ok [.num "limit" k])) ∧ Unchanged [.book, .link] s u)
            ∧ (l.live = 0 → leaves u "DONE" [.num "limit" k])
            ∧ Unchanged [.circuits, .book, .link] s u)

/-- LOADED, with a tin of the wanted height at a Z1 that holds no record, makes a LOADED record for the wanted tin,
RESTING at Z1, under an id no live record holds; the line has one more tin released and is RUNNING or, at its limit,
FINISHING; an admission attempt is owed. Without the tin it is refused EMPTY, with a record STATE. The wanted tin is the
next of the first QUEUED or RUNNING line in book order. Within the end of a step LOAD_WANTED is set where, with Z1 empty,
the wanted tin is another than before the step, or Z1 held a record before it (R67, R72, R73, R114, R140, R142). A request
row uses no input place (Assumption 5). -/
def Obligations.LoadedMakesTin : Prop :=
  (∀ s : State, s.powered = true →
    ((s.placeRec .z1).tin ≠ none → exec (.loaded []) s = .next (s.pushReply false (.no .state)))
    ∧ ((s.placeRec .z1).tin = none → (s.placeRec .z1).departing = false → (s.placeRec .z1).uncertain = false →
      (s.shows .z1 = false → exec (.loaded []) s = .next (s.pushReply false (.no .empty)))
      ∧ ∀ l, s.shows .z1 = true → s.wantedLine = some l → BookInv s → s.track.tins.length < 255 →
        (s.inp.height ≠ s.lib.sizes[l.size].map (·.height) →
          exec (.loaded []) s = .next (s.pushReply false (.no .mismatch)))
        ∧ (s.inp.height = s.lib.sizes[l.size].map (·.height) →
          let k := l.released + 1
          ∃ (id : Nat) (u : State), exec (.loaded []) s = .next (State.conclude s u)
            ∧ 1 ≤ id ∧ id ≤ 255 ∧ s.tin? id = none
            ∧ u.tin? id = some { Tin.orphan id with
                order := some (l.number, k), size := some l.size, base := some l.formula.base, stage := .loaded }
            ∧ (∀ m, m ≠ id → u.tin? m = s.tin? m)
            ∧ (u.placeRec .z1).tin = some id ∧ (u.placeRec .z1).arriving = false
            ∧ u.line? l.number = some { l with
                released := k, state := if k < l.limit then .running else .finishing }
            ∧ (∀ m, m ≠ l.number → u.line? m = s.line? m)
            ∧ u.stn = { s.stn with attemptOwed := true }
            ∧ u.link = s.link.push (.reply false (.ok [.num "tin" id, .num "line" l.number, .num "index" k]))
            ∧ Unchanged [.book, .station, .track, .link] s u)))
    ∧ (∀ (s : State) (l : OrderLine), s.wantedLine = some l ↔ ∃ front back, s.bk.lines = front ++ l :: back
        ∧ (l.state = .queued ∨ l.state = .running) ∧ ∀ x ∈ front, x.state ≠ .queued ∧ x.state ≠ .running)
    ∧ ∀ before s : State,
      let z1 (u : State) : Bool := (u.placeRec .z1).tin.isSome
      let wanted (u : State) : Option (Nat × Nat) := u.wantedLine.map fun l => (l.number, l.released + 1)
      (∀ l, s.wantedLine = some l → z1 s = false → z1 before = true ∨ wanted before ≠ wanted s →
        State.loadWanted before s = s.setFlag .loadWanted [.num "line" l.number, .num "tin" (l.released + 1),
          .word "size" (sizeName l.size), .word "base" (baseName l.formula.base)])
      ∧ (s.wantedLine = none ∨ z1 s = true ∨ (z1 before = false ∧ wanted before = wanted s) →
        State.loadWanted before s = s)

/-- HEAD_TAKEN with a RESTING head takes the head record off the lane: the tin of a line is finished as TAKEN, an orphan
is deleted, and nothing is reported of it; with an empty lane, or with the one record of the lane still ARRIVING, the
sensor alone changes. CONFIRM of the lane, with no move into it in flight and no jam, compares the sensors that show a tin
with the records: as many answers PRESENT, and a slipped tin is handed over and named; fewer answers TAKEN, and the
records in excess at the head are finished as TAKEN or deleted; more answers ORPHAN, and orphans join the tail; a slipped
tin that is left in the lane is then handed over too. The lane is then certain (R68, R69, R151, R153 to R156). That
HEAD_TAKEN with an empty lane changes the sensor alone is Assumption 6; several ids in one tin= are Assumption 13; that a
line with no live tin counts none is Assumption 37; a request row keeps no input place (Assumption 5). -/
def Obligations.LaneHeadAndConfirm : Prop :=
  ∀ s : State, s.powered = true →
    (let s' : State := { s with inp := { s.inp with lane := s.inp.lane.set 0 false } }
    (s.track.lane = [] → exec .headTaken s = .next (State.conclude s s'))
    ∧ (∀ id, s.track.lane = [id] → (s.placeRec .out).arriving = true → exec .headTaken s = .next (State.conclude s s'))
    ∧ ∀ id rest t, s.track.lane = id :: rest → id ∉ rest → rest ≠ [] ∨ (s.placeRec .out).arriving = false →
        s.tin? id = some t → BookInv s →
      ∃ u, exec .headTaken s = .next (State.conclude s u) ∧ u.inp = s'.inp ∧ u.track.lane = rest
        ∧ TinFinished t .taken s' u)
    ∧ ∀ fs, fs.malformed ["zone"] ["zone"] [] = false → (fs.get "zone").bind (named? placeTable) = some .out →
      ∀ row ∈ ([.confirm, .confirmOut] : List (Fields → Instr)),
        let moves : Prop := ∃ v ∈ s.track.moves, v.src = .out ∨ v.dst = .out
        (moves → exec (row fs) s = .next (s.pushReply false (.no .busy)))
        ∧ (¬moves → s.jamAt .out = none → s.track.lane.Nodup →
          let shown := s.laneCount
          let held := s.track.lane.length
          let r : PlaceRecord := { s.placeRec .out with uncertain := false, owed := false }
          -- a record as the CONFIRM leaves it: a slipped tin in the lane is handed over
          let left (lane : List Nat) (x : Tin) : Tin :=
            if (s.placeRec .out).owed = true ∧ x.id ∈ lane ∧ x.stage = .readyToMove then { x with stage := .out } else x
          (shown = held → (s.placeRec .out).owed = false →
            ∃ u, exec (row fs) s = .next (State.conclude s u) ∧ u.placeRec .out = r
              ∧ (∀ p, p ≠ .out → u.placeRec p = s.placeRec p) ∧ u.track = { s.track with places := u.track.places }
              ∧ u.link = s.link.push (.reply false (.ok [.word "outcome" "PRESENT"])) ∧ Unchanged [.track, .link] s u)
          ∧ (∀ id x, shown = held → (s.placeRec .out).owed = true → id ∈ s.track.lane → s.tin? id = some x →
              x.stage = .readyToMove →
              (∀ j y, j ∈ s.track.lane → s.tin? j = some y → y.stage = .readyToMove → j = id) →
            ∃ u, exec (row fs) s = .next (State.conclude s u) ∧ u.placeRec .out = r
              ∧ u.tin? id = some { x with stage := .out } ∧ (∀ m, m ≠ id → u.tin? m = s.tin? m)
              ∧ u.track = { s.track with places := u.track.places, tins := u.track.tins }
              ∧ u.link = s.link.push (.reply false (.ok [.word "outcome" "PRESENT", .num "tin" id]))
              ∧ Unchanged [.track, .link] s u)
          ∧ (shown < held → (∀ id ∈ s.track.lane, s.tin? id ≠ none) → BookInv s →
            let ids := s.track.lane.take (held - shown)
            let reply : Reply := .ok [.word "outcome" "TAKEN", .field "tin" (ids.map fun id => [.num id])]
            let taken := (ids.filterMap s.tin?).filter fun t => t.stage != .orphan && t.order.isSome
            ∃ u, exec (row fs) s = .next (State.conclude s u)
              ∧ u.placeRec .out = { r with reserved := r.reserved.filter fun id => id ∉ ids }
              ∧ u.track.lane = s.track.lane.drop (held - shown)
              ∧ (∀ id, u.tin? id = if id ∈ ids then none
                  else (s.tin? id).map (left (s.track.lane.drop (held - shown))))
              ∧ u.track.finished = (taken.reverse.map (fun t => (⟨t, .taken, false⟩ : Finished)) ++ s.track.finished).take 48
              ∧ .reply false reply ∈ u.link.sending.toList ++ u.link.output
              ∧ (∀ n l, s.line? n = some l →
                let m := (taken.filter fun t => t.order.any fun x => x.1 == n).length
                m < l.live ∨ m = 0 → u.line? n = some { l with completed := l.completed + m })
              ∧ ∀ t, (s.placeRec .out).owed = false → ids.filterMap s.tin? = [t] →
                  TinFinished t .taken (s.pushReply false reply) u)
          ∧ (held < shown → s.track.tins.length + (shown - held) ≤ 255 →
            ∃ u ids, exec (row fs) s = .next (State.conclude s u) ∧ u.placeRec .out = r
              ∧ ids.length = shown - held ∧ ids.Nodup ∧ u.track.lane = s.track.lane ++ ids
              ∧ (∀ id ∈ ids, s.tin? id = none ∧ u.tin? id = some (Tin.orphan id))
              ∧ (∀ id, id ∉ ids → u.tin? id = (s.tin? id).map (left s.track.lane))
              ∧ u.link = s.link.push (.reply false (.ok [.word "outcome" "ORPHAN",
                  .field "tin" (ids.map fun id => [.num id])])) ∧ Unchanged [.track, .link] s u))

/-! ### The Drive Frame -/

/-- At each FRAME_START the Drive Frame lends the spare slots of the scheme then in force for that frame. A circuit's
dose takes part if it is RUNNING in phase DELIVER with no burst outstanding, a calibration run too. The doses are ranked
by their remaining steps, the largest first and of two equal ones the lower circuit first, and the ranked doses take two
slots each in ascending slot number: the dose of rank r takes the places 2r and 2r + 1 of the spare slots, where there
are so many, and every other spare slot is lent to none. SPREAD has nothing to lend, and SPLIT has six slots, for three
doses at most. The lending stands for the whole frame: no command between two frame starts changes it, so a dose that
becomes eligible later takes lent slots from the next frame start on (R92). -/
def Obligations.FrameLendsSpareSlots : Prop :=
  (∀ s : State, s.powered = true →
    ∃ t, exec .frameStart s = .next t
      ∧ (∀ (k : Nat) (c : Circ),
          let r := (allCircuits.filter fun d => (s.pump d).lendable
            && ((s.pump c).remaining < (s.pump d).remaining
              || ((s.pump d).remaining == (s.pump c).remaining && d < c))).length
          (k, c) ∈ t.drive.lent ↔ (s.pump c).lendable = true
            ∧ ((spareSlots t.drive.scheme)[2 * r]? = some k ∨ (spareSlots t.drive.scheme)[2 * r + 1]? = some k))
      ∧ (t.drive.lent.map (·.1)).Nodup
      ∧ (∀ x ∈ t.drive.lent, x.1 ∈ spareSlots t.drive.scheme)
      ∧ (∀ c : Circ, t.drive.lentTo c = 0 ∨ t.drive.lentTo c = 2)
      ∧ ∀ c d : Circ, t.drive.lentTo c = 2 → t.drive.lentTo d = 0 → (s.pump d).lendable = true →
          (s.pump d).remaining < (s.pump c).remaining
            ∨ ((s.pump d).remaining = (s.pump c).remaining ∧ c < d))
    ∧ (∀ p : Pump, p.lendable = true ↔ p.burst = none
        ∧ ∃ a, p.activity = some a ∧ a.kind = .dose ∧ a.run = .running ∧ a.phase = .deliver)
    ∧ (∀ (p : Pump) (a : Activity), p.activity = some a → p.remaining = a.planned - a.delivered)
    ∧ (∀ m : Scheme, (spareSlots m).Pairwise (· < ·)) ∧ spareSlots .spread = [] ∧ (spareSlots .split).length = 6
    ∧ ∀ (i : Instr) (s t : State), i ≠ .frameStart → (∀ damaged, i ≠ .powerOn damaged) → i ≠ .powerLoss → exec i s = .next t →
        t.drive.lent = s.drive.lent

/-- SLOT: where the slot that comes up is a circuit's own slot and its activity runs with no burst outstanding, the
circuit is granted a burst: of a delivery at most 160 steps, no more than the steps to go and the piston's position, of a
refill at most 640 steps, no more than fill the chamber. Where it does not run, or after slot 31, no pump is driven. A
slot that is no circuit's own and is lent to a circuit is granted a delivery burst of its dose, within the same bounds; it
is not used where that circuit has lost its lent slots in this frame, has a burst outstanding, refills, does not run, or
has no dose. A slot that is neither owned nor lent drives no pump. In CONTINUOUS slot k is circuit k's, and 0 and 25–31
are spare; in SPREAD slots 4g + 1, 4g + 2 and 4g + 3 are circuits 3g + 1, 3g + 2 and 3g + 3's, and the slots between are
rest slots; in SPLIT slot k is circuit k's up to 15 and circuit k − 1's from 17 to 25, 26–31 are spare, and 0 and 16 are
rest slots. So no slot is the own slot of two circuits, or both a spare slot and an own slot (R90, R93, R96). The clock's
part of the step is Assumption 10. That a SLOT after slot 31 changes nothing, not even the clock, is Assumption 6. -/
def Obligations.SlotGrantsBurst : Prop :=
  (∀ (m : Scheme) (c d : Circ), ownSlot m c < 32 ∧ ownSlot m c ∉ spareSlots m ∧ (ownSlot m c = ownSlot m d → c = d))
    ∧ (∀ c : Circ, ownSlot .continuous c = circNo c)
    ∧ (∀ (g : Nat) (j : Fin 3) (c : Circ), circNo c = 3 * g + 1 + j.val → ownSlot .spread c = 4 * g + 1 + j.val)
    ∧ (∀ c : Circ, (circNo c ≤ 15 → ownSlot .split c = circNo c) ∧ (16 ≤ circNo c → ownSlot .split c = circNo c + 1))
    ∧ spareSlots .continuous = [0, 25, 26, 27, 28, 29, 30, 31] ∧ spareSlots .spread = []
    ∧ spareSlots .split = [26, 27, 28, 29, 30, 31]
    -- the rest slots
    ∧ (∀ m k, k < 32 → ((∀ c, ownSlot m c ≠ k) ∧ k ∉ spareSlots m ↔ k ∈ (match m with
        | .continuous => []
        | .spread => [0, 4, 8, 12, 16, 20, 24, 28]
        | .split => [0, 16] : List Nat)))
    ∧ ∀ s : State, s.powered = true →
      (32 ≤ s.drive.slot → exec .slot s = .next s)
      ∧ (∀ c : Circ, s.drive.slot = ownSlot s.drive.scheme c →
        ∃ t, exec .slot s = .next t ∧ t.now = max s.now (s.drive.frameStart + 625 * s.drive.slot)
          ∧ t.drive = { s.drive with slot := s.drive.slot + 1, pumps := t.drive.pumps }
          ∧ OtherPumps c s t ∧ Unchanged [.now, .drive] s t
          ∧ (∀ a, (s.pump c).activity = some a → a.run = .running → (s.pump c).burst = none →
              t.pump c = { s.pump c with
                burst := some ⟨a.phase == .refill, (match (s.pump c).piston, a.phase with
                  | .known p, .deliver => min 160 (min (a.planned - a.delivered) p)
                  | .known p, .refill => min 640 (25600 - p)
                  | .unknown stroke, _ => min 640 (25600 - stroke)), t.now⟩ })
          ∧ (((s.pump c).activity = none ∨ (s.pump c).burst ≠ none
              ∨ ∃ a, (s.pump c).activity = some a ∧ a.run ≠ .running) → t.pump c = s.pump c))
      ∧ (s.drive.slot < 32 → (∀ c : Circ, s.drive.slot ≠ ownSlot s.drive.scheme c) →
        ∃ t, exec .slot s = .next t ∧ t.now = max s.now (s.drive.frameStart + 625 * s.drive.slot)
          ∧ t.drive = { s.drive with slot := s.drive.slot + 1, pumps := t.drive.pumps } ∧ Unchanged [.now, .drive] s t
          ∧ ((∀ c, (s.drive.slot, c) ∉ s.drive.lent) → t.drive.pumps = s.drive.pumps)
          ∧ ∀ c, s.drive.lent.find? (fun x => x.1 == s.drive.slot) = some (s.drive.slot, c) →
            OtherPumps c s t
            ∧ (∀ a p, (s.pump c).activity = some a → a.kind = .dose → a.run = .running → a.phase = .deliver →
                (s.pump c).burst = none → s.drive.forfeit[c] = false → (s.pump c).piston = .known p →
                t.pump c = { s.pump c with
                  burst := some ⟨false, min 160 (min (a.planned - a.delivered) p), t.now⟩ })
            ∧ (((s.pump c).activity = none ∨ (s.pump c).burst ≠ none ∨ s.drive.forfeit[c] = true
                ∨ ∃ a, (s.pump c).activity = some a ∧ (a.kind ≠ .dose ∨ a.run ≠ .running ∨ a.phase ≠ .deliver)) →
              t.pump c = s.pump c))

/-- BURST_COMPLETE moves the counts: a delivery adds to the delivered steps and takes from the piston, a refill adds to
the piston, and a full stroke of an UNKNOWN piston makes it 25,600. Then, in this order: what a final cut waits for ends
cut; an activity that has delivered its planned steps, or a standalone REFILL at a full chamber, ends complete; an
abandoned purge or prime ends, but for a purge left refilling, which leaves a standalone REFILL, and one that has
delivered its planned steps ends complete, with no prime held for it; an activity with steps to go refills at an empty
piston and delivers at a full chamber, and where STOP waited for the boundary it is STOPPED, with stop seen. An end leaves
the pump idle and lowers the level by the delivered volume, at trim 0 for a calibration run, with LOW and EMPTY judged
after it; the dose of a tin is written into its dose entry with its notes; a purge is no longer due, a prime makes its
circuit READY or EMPTY and, unless its stir class is OFF, a stir due that is neither due nor running, a calibration run
has its delivered steps. A full standalone REFILL lets the next place's request be created, where its kind may run then.
An activity that ends, enters phase REFILL or stays in it has lost its lent slots for the rest of the frame, and no other
circuit has. With no burst nothing changes (R11, R15 to R17, R57, R58, R93, R95 to R100, R102, R104 to R108, R110, R132,
R208, R212). A waiting stop or abandonment giving way to the planned count, and both to a final cut, is Assumption 19; a
run that RESTART cut leaving the last-delivery time 51; stop seen kept by a cut that replaces a waiting stop and by an end
COMPLETE at its boundary 55; the Circuit Table owning a standalone REFILL 56; its going on with the stroke of an UNKNOWN
piston 60; a purge dropped from the next place 46; a prime beginning in phase REFILL on a full chamber 54. -/
def Obligations.BurstCompleteCounts : Prop :=
  ∀ (s : State) (c : Circ), s.powered = true →
    ((s.pump c).burst = none → exec (.burstComplete c) s = .next (State.conclude s s))
    ∧ ∀ (b : Burst) (a : Activity) (p : Nat), (s.pump c).burst = some b → (s.pump c).activity = some a →
      b.refill = (a.phase == .refill) →
      let r := s.circuit c
      let d := if b.refill then a.delivered else a.delivered + b.steps
      let at' (piston : Piston) (act : Option Activity) (u : State) : Prop :=
        u.pump c = { s.pump c with burst := none, piston := piston, activity := act } ∧ OtherPumps c s u
      let goes (piston : Piston) (a' : Activity) (u : State) : Prop :=
        at' piston (some (if a.atBoundary = some .stop then
          { a' with run := .stopped, stopSeen := true, atBoundary := none } else a')) u ∧ Unchanged [.drive] s u
          ∧ u.drive.forfeit[c] = (s.drive.forfeit[c] || a'.phase == .refill)
      let endsAs (pump : Pump) (u : State) : Prop :=
        u.pump c = pump ∧ u.drive.forfeit[c] = true ∧ OtherPumps c s u ∧ OtherCircuits [c] s u ∧ RunReported c a d s u
          -- the EMPTY check
          ∧ (r.state = .ready → a.kind ≠ .refill → d ≠ 0 → (u.circuit c).level ≤ r.cfg.reserve →
              (u.circuit c).state = .empty ∧ u.link.isSet (.empty c) = true)
          ∧ (r.state = .ready → a.kind = .refill ∨ d = 0 ∨ r.cfg.reserve < (u.circuit c).level →
              (u.circuit c).state = .ready)
          ∧ (r.state ≠ .ready → a.kind ≠ .prime → (u.circuit c).state = r.state)
      -- the stir that a completed prime makes due
      let stirs (u : State) : Prop :=
        let waits : Prop := r.cfg.stir ≠ .off ∧ r.stir = none ∧ ∀ x ∈ s.cares.due, x.1 ≠ c
        u.cares = { s.cares with due := u.cares.due }
          ∧ (¬waits → u.cares.due = s.cares.due) ∧ (waits → ∀ x, x ∈ u.cares.due ↔ x ∈ s.cares.due ∨ x = (c, s.now))
      let ends (piston : Piston) (u : State) : Prop :=
        endsAs { s.pump c with burst := none, piston := piston, activity := none } u
      -- the standalone REFILL that an abandoned purge leaves
      let carries (piston : Piston) (u : State) : Prop :=
        at' piston (some
          { kind := .refill, owner := .table, planned := 0, delivered := 0, phase := .refill
            run := if s.stopped then .stopped else if r.stir.isSome then .waitingStir else .running
            stopSeen := s.stopped, atBoundary := none, restarted := false }) u
        ∧ u.drive.forfeit[c] = true ∧ OtherCircuits [c] s u ∧ RunReported c a d s u
      -- a standalone REFILL at a full chamber serves the next place
      let serves (q : PumpRequest) (u : State) : Prop :=
        let idle := { s.pump c with burst := none, piston := .known 25600, activity := none, next := none }
        OtherPumps c s u ∧ Unchanged [.drive] s u ∧ u.drive.forfeit[c] = true
        ∧ (q.kind = .purge → s.stopped = true ∨ s.stn.cap ≠ .closed → u.pump c = idle)
        ∧ (q.kind = .prime → s.stopped = true → u.pump c = { idle with heldPrime := true })
        ∧ ((q.kind = .purge → s.stopped = false ∧ s.stn.cap = .closed) → (q.kind = .prime → s.stopped = false) →
          u.pump c = { idle with
            heldPrime := if q.kind = .prime then false else idle.heldPrime
            activity := some
              { kind := q.kind, owner := q.owner, planned := q.planned, delivered := 0
                phase := if q.kind = .prime ∨ (q.kind = .purge ∧ 25600 < q.planned) then .refill else .deliver
                run := if s.stopped then .stopped else if r.stir.isSome then .waitingStir else .running
                stopSeen := s.stopped, atBoundary := none, restarted := false } })
      ∃ u, exec (.burstComplete c) s = .next (State.conclude s u)
        ∧ u.drive = { s.drive with pumps := u.drive.pumps, forfeit := u.drive.forfeit }
        ∧ (∀ d : Circ, d ≠ c → u.drive.forfeit[d] = s.drive.forfeit[d])
        -- a known piston: steps to go
        ∧ ((s.pump c).piston = .known p → a.atBoundary = none ∨ a.atBoundary = some .stop →
          (a.phase = .deliver → d ≠ a.planned → a.kind ≠ .refill →
            goes (.known (p - b.steps))
              { a with delivered := d, phase := if p - b.steps = 0 then .refill else .deliver } u)
          ∧ (a.phase = .refill → a.kind ≠ .refill →
            goes (.known (p + b.steps)) { a with phase := if p + b.steps = 25600 then .deliver else .refill } u)
          ∧ (a.phase = .refill → a.kind = .refill → p + b.steps ≠ 25600 → goes (.known (p + b.steps)) a u)
          -- the end of a dose, a purge, a prime, a calibration run, a standalone REFILL
          ∧ ((s.pump c).next = none → a.phase = .refill → a.kind = .refill → p + b.steps = 25600 →
            ends (.known 25600) u ∧ Unchanged [.drive] s u)
          ∧ (∀ q, (s.pump c).next = some q → a.phase = .refill → a.kind = .refill → p + b.steps = 25600 → serves q u)
          ∧ ((s.pump c).next = none → a.phase = .deliver → a.kind ≠ .refill → d = a.planned → 0 < d →
            (∀ id k, a.kind = .dose → a.owner = .tin id k →
                ends (.known (p - b.steps)) u ∧ DoseRecorded c a d .delivered s u)
            ∧ (a.kind = .purge → a.owner = .care →
                ends (.known (p - b.steps)) u ∧ (u.circuit c).purgeDue = none)
            ∧ (a.kind = .prime → a.owner = .table → r.state = .priming →
                ends (.known (p - b.steps)) u ∧ stirs u
                  ∧ (u.circuit c).state = if (u.circuit c).level ≤ r.cfg.reserve then .empty else .ready)
            ∧ ∀ q, a.kind = .dose → a.owner = .cal → s.stn.cal = some q → q.circuit = c → q.handing = .handed →
                ends (.known (p - b.steps)) u ∧ u.stn.cal = some { q with delivered := d, handing := .ended }))
        -- an UNKNOWN piston: a stroke to the refill stop
        ∧ (∀ n, (s.pump c).piston = .unknown n → a.phase = .refill → a.atBoundary = none ∨ a.atBoundary = some .stop →
          (n + b.steps < 25600 → goes (.unknown (n + b.steps)) a u)
          ∧ (25600 ≤ n + b.steps → a.kind ≠ .refill → goes (.known 25600) { a with phase := .deliver } u)
          ∧ (25600 ≤ n + b.steps → a.kind = .refill → (s.pump c).next = none →
            ends (.known 25600) u ∧ Unchanged [.drive] s u)
          ∧ (∀ q, 25600 ≤ n + b.steps → a.kind = .refill → (s.pump c).next = some q → serves q u))
        -- a final cut
        ∧ (∀ w, (s.pump c).piston = .known p → a.atBoundary = some (.cut w) → (s.pump c).next = none →
          (a.phase = .deliver → ends (.known (p - b.steps)) u) ∧ (a.phase = .refill → ends (.known (p + b.steps)) u)
          ∧ (a.kind ≠ .refill → DoseRecorded c a d (if d = a.planned then .delivered else .cut w) s u))
        ∧ (∀ w n, (s.pump c).piston = .unknown n → a.atBoundary = some (.cut w) → (s.pump c).next = none → a.phase = .refill →
            ends (if 25600 ≤ n + b.steps then .known 25600 else .unknown (n + b.steps)) u)
        -- an abandoned purge or prime with steps to go
        ∧ ((s.pump c).piston = .known p → a.atBoundary = some .abandon → (s.pump c).next = none →
            a.kind = .purge ∨ a.kind = .prime →
          (a.phase = .deliver → d ≠ a.planned → p - b.steps ≠ 0 ∨ a.kind = .prime → ends (.known (p - b.steps)) u)
          ∧ (a.phase = .deliver → d ≠ a.planned → p - b.steps = 0 → a.kind = .purge → carries (.known 0) u)
          ∧ (a.phase = .refill → a.kind = .prime ∨ p + b.steps = 25600 → ends (.known (p + b.steps)) u)
          ∧ (a.phase = .refill → a.kind = .purge → p + b.steps ≠ 25600 → carries (.known (p + b.steps)) u))
        ∧ (∀ n, (s.pump c).piston = .unknown n → a.atBoundary = some .abandon → (s.pump c).next = none → a.phase = .refill →
          (25600 ≤ n + b.steps → a.kind = .purge ∨ a.kind = .prime → ends (.known 25600) u)
          ∧ (n + b.steps < 25600 → a.kind = .prime → ends (.unknown (n + b.steps)) u)
          ∧ (n + b.steps < 25600 → a.kind = .purge → carries (.unknown (n + b.steps)) u))
        -- one abandoned that has delivered its planned steps is complete, and no prime is held for it
        ∧ ((s.pump c).piston = .known p → a.atBoundary = some .abandon → (s.pump c).next = none → a.phase = .deliver →
            d = a.planned → 0 < d →
          let pump := { s.pump c with burst := none, piston := .known (p - b.steps), activity := none, heldPrime := false }
          (a.kind = .purge → a.owner = .care → endsAs pump u ∧ (u.circuit c).purgeDue = none)
          ∧ (a.kind = .prime → a.owner = .table → r.state = .priming →
            endsAs pump u ∧ stirs u
              ∧ (u.circuit c).state = if (u.circuit c).level ≤ r.cfg.reserve then .empty else .ready))

/-- A burst outstanding that stalls, or that 60 ms have passed since, counts nothing: the piston is UNKNOWN, the
activity is cut with the steps delivered before, by whose volume the level falls, and the dose of a tin is written into
its dose entry with its notes; the request in the next place is refused to its block, which asks again, and a held prime
is dropped, and a circuit in READY, EMPTY, PRIMING or BLOCKED is BLOCKED with PUMP_FAULT, and BLOCKED is set. With no
burst outstanding nothing changes (R14, R15, R17, R58, R100, R105). The clock's part of BURST_TIMEOUT is Assumption 10;
that a run that RESTART cut leaves the last-delivery time is Assumption 51; that a dose which stalls while a stop waits
for the boundary is not noted INTERRUPTED, and that one which stalls under a final cut ends with PUMP_FAULT, is
Assumption 55. -/
def Obligations.StalledBurstBlocks : Prop :=
  ∀ (s : State) (c : Circ), s.powered = true →
    ∀ row ∈ [Instr.burstStall c, .burstTimeout c],
      ((s.pump c).burst = none → exec row s = .next (State.conclude s s))
      ∧ ∀ b, (s.pump c).burst = some b →
        ∃ u, exec row s = .next (State.conclude s u)
          ∧ u.now = (if row = .burstTimeout c then max s.now (b.granted + 60000) else s.now)
          ∧ u.pump c = { s.pump c with
              piston := .unknown 0, burst := none, activity := none, next := none, heldPrime := false }
          ∧ ((s.circuit c).state = .ready ∨ (s.circuit c).state = .empty ∨ (s.circuit c).state = .priming
              ∨ (s.circuit c).state = .blocked →
            (u.circuit c).state = .blocked ∧ (u.circuit c).reason = some .pumpFault
              ∧ u.link.isSet (.blocked c) = true)
          ∧ (∀ a, (s.pump c).activity = some a →
              RunReported c a a.delivered { s with now := u.now } u
                ∧ (a.kind ≠ .refill → (s.pump c).next = none → DoseRecorded c a a.delivered
                    (if a.delivered = a.planned then .delivered else .cut .pumpFault) s u))
          -- the request in the next place is refused to its block
          ∧ (∀ a q, (s.pump c).activity = some a → a.kind = .refill → (s.pump c).next = some q →
            (∀ id k t e, q.owner = .tin id k → s.tin? id = some t → t.entries[k]? = some e →
              u.tin? id = some { t with entries := t.entries.set k { e with handing := .again true } })
            ∧ (q.owner = .cal → u.stn.cal = s.stn.cal.map fun x => { x with handing := .again true }))
          ∧ OtherPumps c s u ∧ OtherCircuits [c] s u

/-- SCHEME with every pump idle and no request in a next place puts its scheme in wait for the next frame and queues it
for the store; with a pump busy, or the link-write FIFO full, it is refused BUSY. FRAME_START begins the frame: slot 0
comes up next, the scheme in wait is in force and none waits any more, no dose has lost its lent slots, and nothing but
the Drive Frame changes (R91, R93). The clock's part of that step is Assumption 10. A request row keeps no input place
(Assumption 5). -/
def Obligations.SchemeWaitsForFrame : Prop :=
  (∀ (s : State) (fs : Fields) (m : Scheme), s.powered = true → fs.malformed ["mode"] [] [] = false →
    (fs.get "mode").bind (named? schemeTable) = some m →
    ((∃ c : Circ, (s.pump c).activity ≠ none ∨ (s.pump c).next ≠ none) ∨ 8 ≤ s.store.fifo.length →
      exec (.scheme fs) s = .next (s.pushReply false (.no .busy)))
    ∧ ((∀ c : Circ, (s.pump c).activity = none ∧ (s.pump c).next = none) → s.store.fifo.length < 8 →
      exec (.scheme fs) s = .next (State.conclude s
        { s.pushReply false (.ok []) with
          drive := { s.drive with nextScheme := some m }
          store := { s.store with fifo := s.store.fifo ++ [.scheme m] } })))
    ∧ ∀ s : State, s.powered = true →
      ∃ t, exec .frameStart s = .next t ∧ t.now = max s.now (s.drive.frameStart + 20000)
        ∧ t.drive = { s.drive with
            scheme := s.drive.nextScheme.getD s.drive.scheme, nextScheme := none, slot := 0, frameStart := t.now
            lent := t.drive.lent, forfeit := Vector.replicate 24 false }
        ∧ Unchanged [.now, .drive] s t

/-! ### The Dispense Station -/

/-- CAP_MOTION_END: an opening cap is OPEN, and with no open claim the closing delay of 60 s starts; a closing cap is
CLOSED, and stays so with no claim; with one it opens at the end of the step, and a purge that could be asked for in that
instant is asked for first or not, by a free choice; a cap at rest or halted stays. CLOSING_DELAY_EXPIRY ends a running
delay and changes nothing else. The next motion is begun at the end of a step, on a machine that is not stopped: a CLOSED
cap with a claim begins OPENING for 2 s, and every purge is abandoned at its burst boundary; an OPEN cap with no claim
begins CLOSING where the delay has run out, a purge is due or a prime waits for the cap, and the delay is OFF then;
otherwise the cap stays. A prime in phase DELIVER with no burst outstanding waits while the cap is not closed and runs
while it is, and a held prime of a PRIMING circuit is created once its pump is free. A request for a prime is held on a
stopped machine, created on an idle pump, waits in the empty next place of a standalone REFILL, and is refused BUSY
elsewhere (R95, R103, R104, R108, R109, R119 to R121). That a motion end with the cap at rest or halted, and an expiry
with no delay running, change nothing is Assumption 6; the clock's part of each step is Assumption 10; that a prime still
held on a machine that is not stopped is created once the pump is free is Assumption 12; which of a purge and the opening
comes first is free (Assumption 4); that a delay still running stops as CLOSING begins for another cause is Assumption 71. -/
def Obligations.CapMotionAndDelay : Prop :=
  (∀ s : State, s.powered = true →
    (∀ e, s.stn.cap = .opening e → exec .capMotionEnd s = .next (State.conclude s
      { s with
        now := max s.now e
        stn := { s.stn with
          cap := .opened
          delay := if s.stn.tin.isSome || s.stn.cal.isSome then s.stn.delay
            else .running (max s.now e + 60000000) } }))
    ∧ (∀ e, s.stn.cap = .closing e → s.stn.tin = none → s.stn.cal = none → exec .capMotionEnd s = .next
      (State.conclude s { s with now := max s.now e, stn := { s.stn with cap := .closed } }))
    -- CLOSED for an instant
    ∧ (∀ e, s.stn.cap = .closing e → s.stn.tin ≠ none ∨ s.stn.cal ≠ none →
      let v : State := { s with now := max s.now e, stn := { s.stn with cap := .closed } }
      let asks (c : Circ) : Prop := (s.circuit c).purgeDue ≠ none ∧ ((s.circuit c).state = .ready ∨ (s.circuit c).state = .empty)
        ∧ s.stopped = false ∧ (s.circuit c).stir = none
        ∧ (∀ a, (s.pump c).activity = some a → a.kind ≠ .purge) ∧ ∀ q, (s.pump c).next = some q → q.kind ≠ .purge
      ((∀ c, ¬asks c) → exec .capMotionEnd s = .next (State.conclude s v))
      ∧ ((∃ c, asks c) → ∃ u, exec .capMotionEnd s = .next (State.conclude s u) ∧ u.choices = s.choices + 1
          ∧ (u = { v with choices := s.choices + 1 }
            ∨ Unchanged [.choices, .drive] v u ∧ (∀ c, ¬asks c → u.pump c = v.pump c)
              ∧ ∀ c, asks c → (v.pump c).activity = none → ∃ a, (u.pump c).activity = some a ∧ a.kind = .purge
                ∧ a.owner = .care ∧ a.planned = (s.circuit c).cfg.purgeSteps ∧ a.delivered = 0)))
    ∧ (s.stn.cap = .closed ∨ s.stn.cap = .opened ∨ (∃ g, s.stn.cap = .halted g) →
      exec .capMotionEnd s = .next (State.conclude s s))
    ∧ (∀ e, s.stn.delay = .running e → exec .closingDelayExpiry s = .next (State.conclude s
      { s with now := max s.now e, stn := { s.stn with delay := .expired } }))
    ∧ ((∀ e, s.stn.delay ≠ .running e) → exec .closingDelayExpiry s = .next (State.conclude s s)))
    -- the next motion
    ∧ (∀ s : State,
      let claim : Prop := s.stn.tin ≠ none ∨ s.stn.cal ≠ none
      let cause : Prop := s.stn.delay = .expired ∨ (∃ c : Circ, (s.circuit c).purgeDue ≠ none)
        ∨ ∃ (c : Circ) (a : Activity), (s.pump c).activity = some a ∧ a.run = .waitingCap
      (s.stopped = false → s.stn.cap = .closed → claim →
        s.capDecide.stn.cap = .opening (s.now + 2000000)
          ∧ (∀ c, (∀ a, (s.pump c).activity = some a → a.kind ≠ .purge) → s.capDecide.pump c = s.pump c
              ∧ s.capDecide.circuit c = s.circuit c)
          ∧ ∀ c a, (s.pump c).activity = some a → a.kind = .purge → (s.pump c).next = none →
            ((s.pump c).burst = none → a.phase = .deliver → (s.capDecide.pump c).activity = none)
            ∧ ((s.pump c).burst = none → a.phase = .refill →
                ∃ b, (s.capDecide.pump c).activity = some b ∧ b.kind = .refill ∧ b.phase = .refill)
            ∧ ((s.pump c).burst ≠ none → (∀ w, a.atBoundary ≠ some (.cut w)) →
                s.capDecide.pump c = { s.pump c with activity := some { a with atBoundary := some .abandon } }))
      ∧ (s.stopped = false → s.stn.cap = .opened → ¬claim → cause → s.capDecide =
          { s with stn := { s.stn with cap := .closing (s.now + 2000000), delay := .off } })
      ∧ (s.stopped = true ∨ (s.stn.cap = .closed ∧ ¬claim) ∨ (s.stn.cap = .opened ∧ (claim ∨ ¬cause))
          ∨ (s.stn.cap ≠ .closed ∧ s.stn.cap ≠ .opened) → s.capDecide = s))
    -- the primes
    ∧ ∀ (s : State) (c : Circ), Unchanged [.drive] s s.primesLook
      ∧ ((s.pump c).heldPrime = true → (s.pump c).activity = none → (s.circuit c).state = .priming → s.stopped = false →
          (s.primesLook.pump c).heldPrime = false ∧ (s.primesLook.pump c).activity = some
            { kind := .prime, owner := .table, planned := 3200, delivered := 0, phase := .refill
              run := if (s.circuit c).stir.isSome then .waitingStir else .running
              stopSeen := false, atBoundary := none, restarted := false })
      ∧ ((s.pump c).heldPrime = false ∨ (s.circuit c).state ≠ .priming ∨ s.stopped = true → (s.pump c).activity = none →
          s.primesLook.pump c = s.pump c)
      ∧ ∀ a, (s.pump c).activity = some a →
        (a.kind = .prime → a.phase = .deliver → (s.pump c).burst = none →
          (a.run = .running → s.stn.cap ≠ .closed →
            s.primesLook.pump c = { s.pump c with activity := some { a with run := .waitingCap } })
          ∧ (a.run = .waitingCap → s.stn.cap = .closed →
            s.primesLook.pump c = { s.pump c with activity := some { a with run := .running } }))
        ∧ (a.kind ≠ .prime ∨ a.phase = .refill ∨ (s.pump c).burst ≠ none ∨ (a.run = .running ∧ s.stn.cap = .closed)
            ∨ (a.run = .waitingCap ∧ s.stn.cap ≠ .closed) ∨ a.run = .stopped ∨ a.run = .waitingStir →
          s.primesLook.pump c = s.pump c)
      -- a request for a prime
      ∧ (let asked := s.askPump c ⟨.prime, .table, 3200⟩
        (s.stopped = true → asked = (s.setPump c fun p => { p with heldPrime := true }, true))
        ∧ (s.stopped = false → (s.pump c).activity = none → asked.2 = true ∧ Unchanged [.drive] s asked.1
            ∧ OtherPumps c s asked.1 ∧ (asked.1.pump c).heldPrime = false ∧ (asked.1.pump c).activity = some
              { kind := .prime, owner := .table, planned := 3200, delivered := 0, phase := .refill
                run := if (s.circuit c).stir.isSome then .waitingStir else .running
                stopSeen := false, atBoundary := none, restarted := false })
        ∧ (s.stopped = false → ∀ a, (s.pump c).activity = some a →
          (a.kind = .refill → (s.pump c).next = none →
            asked = (s.setPump c fun p => { p with next := some ⟨.prime, .table, 3200⟩ }, true))
          ∧ (a.kind ≠ .refill ∨ (s.pump c).next ≠ none → asked = (s, false))))

/-- SETTLE_END: the reading of a tare is stored; a weighing's reading minus the tare is the measured mass of the job
tin, whose check is PASS where it lies within the larger of 200 mg and 2 % of the expected mass, and DEVIATION outside,
which holds a RUNNING, FINISHING or HELD line with the reason WEIGHT; a reading of OVER leaves it UNCHECKED. The marker
clear is asked for where the tin asked for a set, the tin is READY_TO_MOVE and the job OUTBOUND. A calibration weighing
forms a result with the mass, or with 0 mg for a reading of OVER, and CAL_DONE is set. At the end of a step a PREPARING
job whose tare has ended with the cap OPEN is DOSING; its entries are looked over in order: one whose circuit has no
dose of the tin in flight is handed to an idle pump in READY or EMPTY, the tag lot compared with the line's first, waits
for a pump that is busy, and is NOT_RUN, with SHORT_DOSE, elsewhere; with every entry ended the job is WEIGHING with the
expected mass, and settles, or is UNCHECKED below 500 mg or after a tare of OVER (R78, R85, R95, R97, R122 to R128,
R131). That a settle end with no settle running changes the scale's input alone is Assumption 6; the clock's part of the
step is Assumption 10; a settle begun on a stopped machine waits for RESUME (Assumption 20); that LIGHT goes before
OVER_RANGE is Assumption 57; that the lot is compared when a dose is first handed, which for one that waited for another
of its tin is after that one's end, and not again after a refusal, is Assumption 21. -/
def Obligations.SettleGivesReading : Prop :=
  (∀ (s : State) (r : Reading), s.powered = true →
    -- the marker clear is asked for where the tin asked for a set
    let cleared (u : State) : Prop := u.store = if s.stn.markerAsked then { s.store with pendingClear := true } else s.store
    ((∀ e, s.stn.settle ≠ .running e) → exec (.settleEnd r) s =
      .next (State.conclude s { s with inp := { s.inp with scale := r } }))
    ∧ ∀ e, s.stn.settle = .running e →
      (s.stn.job = .preparing ∨ s.stn.job = .calPreparing → exec (.settleEnd r) s = .next (State.conclude s
        { s with
          inp := { s.inp with scale := r }, now := max s.now e
          stn := { s.stn with settle := .off, reading := some r, tare := some r } }))
      ∧ (∀ id t m0 m ex, s.stn.job = .weighing → s.stn.tin = some id → s.tin? id = some t →
          s.stn.tare = some (.mg m0) → r = .mg m → t.weight.expected = some ex →
        let mass : Int := (m : Int) - m0
        ∃ u t', exec (.settleEnd r) s = .next (State.conclude s u) ∧ u.now = max s.now e
          ∧ u.tin? id = some t' ∧ t'.stage = .readyToMove ∧ t'.readyAt = u.now
          ∧ t'.weight.expected = some ex ∧ t'.weight.measured = some mass
          ∧ ((mass - ex).natAbs ≤ 200 ∨ 50 * (mass - ex).natAbs ≤ ex →
              t'.weight.verdict = some .pass ∧ t'.notes = t.notes)
          ∧ (200 < (mass - ex).natAbs → ex < 50 * (mass - ex).natAbs →
              t'.weight.verdict = some .deviation ∧ .weightDeviation ∈ t'.notes
                ∧ (t.order ≠ none → u.link.isSet .weightDeviation = true)
                -- the line of the tin
                ∧ ∀ n k l, t.order = some (n, k) → s.line? n = some l →
                  (∀ j, j ≠ n → u.line? j = s.line? j)
                  ∧ (l.state = .running ∨ l.state = .finishing ∨ l.state = .held →
                      u.line? n = some { l with state := .held, hold := some .weight } ∧ u.link.isSet .lineHeld = true)
                  ∧ (l.state = .cancelled → u.line? n = some l))
          ∧ ((mass - ex).natAbs ≤ 200 ∨ 50 * (mass - ex).natAbs ≤ ex → u.bk = s.bk)
          ∧ cleared u
          ∧ u.stn.job = .outbound ∧ u.stn.settle = .off ∧ u.stn.reading = some r)
      ∧ (∀ id t, s.stn.job = .weighing → s.stn.tin = some id → s.tin? id = some t →
          (r = .over ∨ s.stn.tare = some .over) →
        ∃ u t', exec (.settleEnd r) s = .next (State.conclude s u) ∧ u.tin? id = some t'
          ∧ t'.weight.verdict = some .uncheckedOverRange ∧ t'.weight.measured = t.weight.measured
          ∧ t'.stage = .readyToMove ∧ u.stn.job = .outbound ∧ u.bk = s.bk ∧ cleared u)
      ∧ (∀ q m0 m, s.stn.job = .calWeighing → s.stn.cal = some q → s.stn.tare = some (.mg m0) → r = .mg m →
        ∃ u, exec (.settleEnd r) s = .next (State.conclude s u) ∧ u.calResult = some (q.result ((m : Int) - m0))
          ∧ u.stn.job = .idle ∧ u.stn.cal = none ∧ u.link.isSet .calDone = true
          ∧ Unchanged [.now, .inputs, .calibration, .station, .link] s u)
      ∧ (∀ q, s.stn.job = .calWeighing → s.stn.cal = some q → r = .over ∨ s.stn.tare = some .over →
        ∃ u, exec (.settleEnd r) s = .next (State.conclude s u) ∧ u.calResult = some (q.result 0)
          ∧ u.stn.job = .idle ∧ u.stn.cal = none ∧ u.link.isSet .calDone = true
          ∧ Unchanged [.now, .inputs, .calibration, .station, .link] s u))
  -- the station's look at its job
  ∧ (∀ (s : State) (id : Nat), s.stn.tin = some id →
    let prepared : Prop := s.stn.settle = .off ∧ s.stn.cap = .opened
    (s.stn.job = .preparing → ¬prepared → s.stationLook = s)
    ∧ (s.stn.job = .preparing → prepared → s.stationLook = State.stationLook { s with
        stn := { s.stn with job := .dosing }
        track := { s.track with tins := s.track.tins.map fun t => if t.id = id then { t with stage := .dosing } else t } })
    ∧ (s.stn.job = .dosing → ∀ t, s.tin? id = some t →
      let u := (List.range t.entries.length).foldl (fun u k => u.lookEntry id k) s
      ∀ t', u.tin? id = some t' →
        ((∀ e ∈ t'.entries, e.handing = .ended) → s.stationLook = u.beginWeighing t')
        ∧ ((∃ e ∈ t'.entries, e.handing ≠ .ended) → s.stationLook = u)))
  -- the look at an entry
  ∧ (∀ (s : State) (id k : Nat) (t : Tin) (e : DoseEntry), s.tin? id = some t → t.entries[k]? = some e →
    let c := e.circuit
    let serves : Prop := (s.circuit c).state = .ready ∨ (s.circuit c).state = .empty
    let inFlight : Prop := ∃ x ∈ t.entries, x.circuit = c ∧ x.handing = .handed
    let turn : Prop := ¬inFlight ∧ (e.handing = .notYet ∨ (∃ b, e.handing = .again b) ∧ (s.pump c).activity = none)
    let fresh : Prop := e.handing = .notYet ∨ e.handing = .again false
    (¬turn → s.lookEntry id k = s)
    ∧ (turn → ¬serves → ∃ u ns, s.lookEntry id k = u ∧ Unchanged [.track] s u ∧ (∀ m, m ≠ id → u.tin? m = s.tin? m)
        ∧ u.tin? id = some { t with
            entries := t.entries.set k { e with handing := .ended, run := some .notRun }, notes := ns }
        ∧ ∀ x, x ∈ ns ↔ x ∈ t.notes ∨ x = .shortDose)
    ∧ (turn → serves → ∃ u ns h, s.lookEntry id k = u ∧ Unchanged [.book, .drive, .track] s u ∧ OtherPumps c s u
        ∧ (∀ m, m ≠ id → u.tin? m = s.tin? m)
        ∧ u.tin? id = some { t with entries := t.entries.set k { e with handing := h }, notes := ns }
        ∧ ((s.pump c).activity = none → h = .handed ∧ u.pump c = { s.pump c with
            piston := match (s.pump c).piston with
              | .unknown _ => .unknown 0
              | .known p => .known p
            activity := some
              { kind := .dose, owner := .tin id k, planned := e.planned, delivered := 0
                phase := match (s.pump c).piston with
                  | .unknown _ => .refill
                  | .known p => if p < min e.planned 25600 then .refill else .deliver
                run := if s.stopped then .stopped else if (s.circuit c).stir.isSome then .waitingStir else .running
                stopSeen := s.stopped, atBoundary := none, restarted := false } })
        ∧ (∀ a, (s.pump c).activity = some a →
          (a.kind = .refill → (s.pump c).next = none →
            h = .handed ∧ u.pump c = { s.pump c with next := some ⟨.dose, .tin id k, e.planned⟩ })
          ∧ (a.kind ≠ .refill ∨ (s.pump c).next ≠ none →
            h = .again true ∧ u.pump c = s.pump c))
        -- the first lot of the line's entry
        ∧ (fresh → ∀ n j l x lot, t.order = some (n, j) → s.line? n = some l → l.entries[k]? = some x →
            (s.circuit c).lot = some lot →
          (∀ m, m ≠ n → u.line? m = s.line? m)
          ∧ (x.lot = none → u.line? n = some { l with entries := l.entries.set k { x with lot := some lot } }
              ∧ ∀ y, y ∈ ns ↔ y ∈ t.notes)
          ∧ ∀ first, x.lot = some first →
              u.line? n = some l ∧ ∀ y, y ∈ ns ↔ y ∈ t.notes ∨ (y = .lotSplit ∧ first ≠ lot))
        ∧ (¬fresh ∨ (s.circuit c).lot = none → u.bk = s.bk ∧ ∀ y, y ∈ ns ↔ y ∈ t.notes)))
  -- the weighing
  ∧ ∀ (s : State) (t : Tin), s.tin? t.id = some t →
    let mass := (t.entries.map (·.mass)).sum
    ∃ u, s.beginWeighing t = u ∧ u.bk = s.bk ∧ u.drive = s.drive ∧ u.circuits = s.circuits
      ∧ (500 ≤ mass → s.stn.tare ≠ some .over →
        u.tin? t.id = some { t with stage := .weighing, weight := { t.weight with expected := some mass } }
          ∧ u.stn = { s.stn with
              job := .weighing, settle := if s.stopped then .held else .running (s.now + 1500000) }
          ∧ Unchanged [.station, .track] s u)
      ∧ (mass < 500 ∨ s.stn.tare = some .over →
        u.tin? t.id = some { t with
            stage := .readyToMove, readyAt := s.now
            weight := { t.weight with
              expected := some mass
              verdict := some (if mass < 500 then .uncheckedLight else .uncheckedOverRange) } }
          ∧ u.stn = { s.stn with job := .outbound }
          ∧ u.store = if s.stn.markerAsked then { s.store with pendingClear := true } else s.store)

/-- The result of a calibration run: FAILED with SHORT_RUN where fewer steps ran than asked, else with LOW_MASS below
1,000 mg, else with CHANGED where K or the density changed, and then no trim; else the trim nearest to 1024 × steps ×
density ÷ (K × mass) − 1024, with the K and density recorded with the run, brought into −63 … +63, with status
OUT_OF_RANGE where that changed it and OK elsewhere. A run counts as changed from an accepted CSET on that changes its
circuit's K or density, and keeps the K, density and steps it began with; a held result is absent after a CSET that
changes K or density of its circuit or removes its code, and stays after every other (R60 to R62). A request row keeps no
input place (Assumption 5). -/
def Obligations.CalibrationResult : Prop :=
  (∀ (q : CalRun) (m : Int),
    let r := q.result m
    r.circuit = q.circuit ∧ r.target = q.target ∧ r.steps = q.steps ∧ r.delivered = q.delivered ∧ r.mass = m
      ∧ (q.delivered < q.steps → r.status = .failed .shortRun ∧ r.trim = none)
      ∧ (q.steps ≤ q.delivered → m < 1000 → r.status = .failed .lowMass ∧ r.trim = none)
      ∧ (q.steps ≤ q.delivered → 1000 ≤ m → q.changed = true → r.status = .failed .changed ∧ r.trim = none)
      ∧ (q.steps ≤ q.delivered → 1000 ≤ m → q.changed = false → 0 < q.k →
        ∃ t : Int, -- the quotient lies within half a unit of t + 1024, a half going up
          (2 * (t + 1024) - 1) * (q.k * m) ≤ 2 * (1024 * q.steps * q.density)
            ∧ 2 * (1024 * q.steps * q.density) < (2 * (t + 1024) + 1) * (q.k * m)
            ∧ r.trim = some (max (-63) (min 63 t))
            ∧ r.status = if -63 ≤ t ∧ t ≤ 63 then .ok else .outOfRange))
  ∧ ∀ (s : State) (fs : Fields) (c : Circ) (tw : TwinChange), s.powered = true →
    fs.malformed csetKeys ["circuit"] csetNumbers = false → (fs.num "circuit").bind circ? = some c →
    csetOutside fs = false → ((s.circuit c).csetApplied fs).consistent = true → s.twinChange c fs = some tw →
    s.csetHindered c fs = false → s.store.fifo.length + (1 + (tw.partners (s.circuit c).cfg).length) ≤ 8 →
    let g := (s.circuit c).cfg
    let measure : Prop := (fs.num "k").getD g.k ≠ g.k ∨ (fs.num "density").getD g.density ≠ g.density
    ∃ u, exec (.cset fs) s = .next (State.conclude s u)
      ∧ (∀ q, s.stn.cal = some q → ∃ q', u.stn.cal = some q'
        ∧ (q'.changed = true ↔ q.changed = true ∨ q.circuit = c ∧ measure)
        ∧ q'.circuit = q.circuit ∧ q'.k = q.k ∧ q'.density = q.density ∧ q'.steps = q.steps)
      ∧ (s.stn.cal = none → u.stn.cal = none)
      ∧ (s.calResult = none → u.calResult = none)
      ∧ ∀ w, s.calResult = some w →
        (w.circuit = c → measure ∨ (g.code ≠ none ∧ fs.get "code" = some (txt "NONE")) → u.calResult = none)
        ∧ (w.circuit ≠ c ∨ (¬measure ∧ (g.code = none ∨ fs.get "code" ≠ some (txt "NONE"))) → u.calResult = some w)

/-- SCALE assigns a free scale anew: the tare is gone, and for DOSE_CHECK an admission attempt is owed; naming the
present assignment changes nothing, and while Z2 or a calibration run needs the scale it is refused BUSY. CALRUN that
meets its conditions takes the run and the cap, makes the result absent, and begins to settle for the tare. At the end
of a step a run whose tare has ended with the cap OPEN is CAL_RUNNING: an idle pump in READY or EMPTY gets its steps as
a dose of CAL, a busy one is waited for, and with its end, or where the circuit is in another state, or after a tare of
OVER, the run goes on to weighing, which gives a result of mass 0 at once where no step was delivered (R60, R95, R97,
R129 to R132). That the present assignment is refused BUSY while the scale is needed is Assumption 17; a settle begun on
a stopped machine waits for RESUME (Assumption 20); a request row keeps no input place (Assumption 5). -/
def Obligations.ScaleAndCalibrationRun : Prop :=
  (∀ (s : State) (fs : Fields), s.powered = true →
    (∀ m, fs.malformed ["mode"] [] [] = false → (fs.get "mode").bind (named? scaleTable) = some m →
      (s.stn.cal ≠ none ∨ (s.placeRec .z2).tin ≠ none ∨ (s.placeRec .z2).reserved ≠ none
          ∨ (s.placeRec .z2).uncertain = true →
        exec (.scale fs) s = .next (s.pushReply false (.no .busy)))
      ∧ (s.stn.cal = none → (s.placeRec .z2).tin = none → (s.placeRec .z2).reserved = none →
          (s.placeRec .z2).uncertain = false →
        (m = s.stn.scale → exec (.scale fs) s = .next (State.conclude s (s.pushReply false (.ok []))))
        ∧ (m = .calibration → s.stn.scale = .doseCheck → exec (.scale fs) s = .next (State.conclude s
            { s.pushReply false (.ok []) with stn := { s.stn with scale := .calibration, tare := none } }))
        ∧ (m = .doseCheck → s.stn.scale = .calibration →
          ∃ u, exec (.scale fs) s = .next (State.conclude s u)
            ∧ u.stn = { s.stn with scale := .doseCheck, tare := none, attemptOwed := true }
            ∧ Unchanged [.station, .track, .link] s u)))
    ∧ ∀ c v, fs.malformed ["circuit", "vol", "cup"] ["circuit", "vol"] ["circuit", "vol"] = false →
      (fs.num "circuit").bind circ? = some c → fs.num "vol" = some v → 1000 ≤ v → v ≤ 50000 →
      s.stopped = false → s.stn.scale = .calibration → fs.get "cup" = some (txt "YES") →
      (s.circuit c).state = .ready → s.stn.cal = none →
      (∀ a, (s.pump c).activity = some a → a.kind = .purge ∨ a.kind = .refill) →
      let g := (s.circuit c).cfg
      let n := roundHalfUp (v * g.k) 1000
      let need := g.reserve + roundHalfUp (n * 1000) g.k
      ((s.circuit c).level < need → exec (.calrun fs) s = .next (s.pushReply false (.no .empty)))
      ∧ (need ≤ (s.circuit c).level → exec (.calrun fs) s = .next (State.conclude s
        { s.pushReply false (.ok [.num "circuit" (circNo c), .num "n" n]) with
          calResult := none
          stn := { s.stn with
            job := .calPreparing
            delay := .off
            settle := .running (s.now + 1500000)
            cal := some ⟨c, v, n, g.k, g.density, 0, false, .notYet⟩ } })))
  -- the station's look at a calibration run
  ∧ ∀ (s : State) (q : CalRun), s.stn.cal = some q →
    let c := q.circuit
    let prepared : Prop := s.stn.settle = .off ∧ s.stn.cap = .opened
    let serves : Prop := (s.circuit c).state = .ready ∨ (s.circuit c).state = .empty
    let turn : Prop := q.handing = .notYet ∨ (∃ b, q.handing = .again b) ∧ (s.pump c).activity = none
    let weighs : Prop := ∃ u, s.stationLook = u
      ∧ (q.delivered ≠ 0 → u = { s with stn := { s.stn with
          job := .calWeighing, settle := if s.stopped then .held else .running (s.now + 1500000) } })
      ∧ (q.delivered = 0 → u.calResult = some (q.result 0) ∧ u.stn.job = .idle ∧ u.stn.cal = none
          ∧ u.link.isSet .calDone = true ∧ Unchanged [.calibration, .station, .link] s u)
    (s.stn.job = .calPreparing →
      (¬prepared → s.stationLook = s)
      ∧ (prepared → s.stn.tare = some .over → weighs)
      ∧ (prepared → s.stn.tare ≠ some .over →
          s.stationLook = State.stationLook { s with stn := { s.stn with job := .calRunning } }))
    ∧ (s.stn.job = .calRunning →
      (q.handing = .ended → weighs)
      ∧ (¬turn → q.handing ≠ .ended → s.stationLook = s)
      ∧ (turn → ¬serves → weighs)
      ∧ (turn → serves → ∃ u h, s.stationLook = u ∧ Unchanged [.drive, .station] s u ∧ OtherPumps c s u
        ∧ u.stn = { s.stn with cal := some { q with handing := h } }
        ∧ ((s.pump c).activity = none → h = .handed ∧ u.pump c = { s.pump c with
            piston := match (s.pump c).piston with
              | .unknown _ => .unknown 0
              | .known p => .known p
            activity := some
              { kind := .dose, owner := .cal, planned := q.steps, delivered := 0
                phase := match (s.pump c).piston with
                  | .unknown _ => .refill
                  | .known p => if p < min q.steps 25600 then .refill else .deliver
                run := if s.stopped then .stopped else if (s.circuit c).stir.isSome then .waitingStir else .running
                stopSeen := s.stopped, atBoundary := none, restarted := false } })
        ∧ ∀ a, (s.pump c).activity = some a →
          (a.kind = .refill → (s.pump c).next = none →
            h = .handed ∧ u.pump c = { s.pump c with next := some ⟨.dose, .cal, q.steps⟩ })
          ∧ (a.kind ≠ .refill ∨ (s.pump c).next ≠ none →
            h = .again true ∧ u.pump c = s.pump c)))

/-! ### The Tin Track -/

/-- ARRIVAL at the end of a move counts its marks and ends the move: the place it left is no longer DEPARTING and the tin
RESTS. Within 45–51 marks the tin is handed over: to the station (PREPARING), the Lidder (LIDDING), the Mixers, or as
READY_TO_MOVE at Z4 and Z5 and OUT in the lane. Outside them the place is UNCERTAIN, the hand-over waits, and TRACK_SLIP
is set. In both cases the reservation ends, but for the station's of Z2, a mixer that the tin has left is IDLE and empty
from that moment on, and a Z2 that it has left owes an admission attempt. At the end of a step the track reserves the next
place for a tin that RESTS READY_TO_MOVE, Z5 for the claimant that became ready first; a conveyor move begins, on a
machine that is not stopped, for a tin ready at a place that is not UNCERTAIN, whose destination is reserved for it and
empty; the free arm begins the transfer that became ready first. At its begin the tin stands ARRIVING at the destination,
the source is DEPARTING, the move has 4 s, its encoder is 0, and the station or the Lidder lets go a tin that leaves Z2 or
Z3 (R113, R114, R118, R120, R143 to R148, R163, R167, R172, R174). A settle begun on a stopped machine waits for RESUME
(Assumption 20); how long a reservation and the arm's readiness last is Assumption 24, and that an UNCERTAIN source holds
off no reservation is Assumption 50. -/
def Obligations.ArrivalEndsMove : Prop :=
  (∀ (s : State) (dest : Place) (marks : Nat) (v : Move) (t : Tin), s.powered = true → s.moveTo dest = some v →
    v.src ≠ dest → s.tin? v.tin = some t → t.stage ≠ .orphan → t.stage ≠ .failed →
    ∃ u, exec (.arrival dest marks) s = .next (State.conclude s u)
      ∧ u.inp = { s.inp with places := s.inp.places.set dest.ix.val true }
      ∧ u.track.moves = s.track.moves.filter (fun w => w != v)
      ∧ u.track.encoders[encoderOf v.src dest] = marks
      ∧ (u.placeRec v.src).departing = false ∧ (u.placeRec dest).arriving = false
      ∧ (u.placeRec dest).reserved = (if dest = .z2 then (s.placeRec .z2).reserved else none)
      ∧ (∀ m : Mix, v.src = m.place → u.mixerRec m = { s.mixerRec m with
          state := .idle, tin := none, clamp := .opened, program := none, elapsed := 0, interrupted := false, pending := none
          brakeTo := none, causes := [], resumeTaken := false, idleSince := s.now })
      ∧ (v.src = .z2 → u.stn.attemptOwed = true)
      ∧ (45 ≤ marks → marks ≤ 51 →
        (u.placeRec dest).uncertain = (s.placeRec dest).uncertain
        ∧ (dest = .z2 → s.stn.tin = some v.tin →
            (u.tin? v.tin).map (·.stage) = some .preparing ∧ u.stn.job = .preparing
              ∧ u.stn.settle = if s.stopped then .held else .running (s.now + 1500000))
        ∧ (dest = .z3 → u.lid.tin = some v.tin ∧ u.lid.attempt = 0 ∧ u.lid.drawn = false
            ∧ (s.lid.policy = .hold ∨ (∃ k : Fin 3, s.inp.lids[k] = true
                  ∧ s.lid.mags[k].code = ((t.size.bind fun z => s.lib.sizes[z]).map (·.lid)).getD 0) →
                (u.tin? v.tin).map (·.stage) = some .lidding))
        ∧ (dest = .z4 ∨ dest = .z5 → u.tin? v.tin = some { t with stage := .readyToMove, readyAt := s.now })
        ∧ (∀ m : Mix, dest = m.place → (u.tin? v.tin).map (·.stage) = some .mixing
            ∧ (v.src ≠ .mixA → v.src ≠ .mixB →
              (u.mixerRec m).tin = some v.tin
              ∧ (s.inp.doors[m.ix] = false → s.stopped = false → (u.mixerRec m).state = .clamping
                  ∧ (u.mixerRec m).ends = s.now + 3000000)
              ∧ (s.inp.doors[m.ix] = true ∨ s.stopped = true → (u.mixerRec m).state = .stopped
                  ∧ (u.mixerRec m).pending = some .clamp)))
        ∧ (dest = .out → u.tin? v.tin = some { t with stage := .out }))
      ∧ (marks < 45 ∨ 51 < marks →
        (u.placeRec dest).uncertain = true ∧ (u.placeRec dest).owed = true ∧ u.tin? v.tin = some t
          ∧ u.link.isSet .trackSlip = true))
    ∧ ∀ s : State,
      let rests (p : Place) (t : Tin) : Prop :=
        (s.placeRec p).arriving = false ∧ s.tinAt p = some t ∧ t.stage = .readyToMove
      let empty (p : Place) : Prop :=
        if p = .out then s.track.lane.length < 4 ∧ (s.placeRec .out).arriving = false ∧ s.inp.lane[3] = false
        else (s.placeRec p).tin = none ∧ (s.placeRec p).departing = false ∧ s.shows p = false
      let free (p : Place) : Prop := empty p ∧ (s.placeRec p).uncertain = false ∧ (s.placeRec p).reserved = none
      let ready (src dst : Place) (t : Tin) : Prop :=
        rests src t ∧ (s.placeRec src).uncertain = false ∧ (s.placeRec dst).reserved = some t.id ∧ empty dst
      let claims (p : Place) (t : Tin) : Prop :=
        p ∈ [Place.mixA, .mixB, .z4] ∧ rests p t ∧ (p = .z4 → t.route = some .bypass)
      let rank (p : Place) : Nat := [Place.mixA, .mixB, .z4].idxOf p
      let begins (u : State) (id : Nat) (src dst : Place) : Prop :=
        u.track.moves = s.track.moves ++ [⟨id, src, dst, some (s.now + 4000000)⟩]
          ∧ (u.placeRec src).tin = none ∧ (u.placeRec src).departing = true
          ∧ (u.placeRec dst).arriving = true ∧ (dst ≠ .out → (u.placeRec dst).tin = some id ∧ u.track.lane = s.track.lane)
          ∧ (dst = .out → u.track.lane = s.track.lane ++ [id])
          ∧ (∀ p, p ≠ src → p ≠ dst → u.placeRec p = s.placeRec p)
          ∧ u.track.encoders[encoderOf src dst] = 0 ∧ u.track.tins = s.track.tins
          ∧ (src = .z2 → u.stn.attemptOwed = true ∧ (s.stn.tin = some id → u.stn.job = .idle ∧ u.stn.tin = none
              ∧ (s.stn.cap = .opened → u.stn.delay = .running (s.now + 60000000))))
          ∧ (src ≠ .z2 → u.stn = s.stn)
          ∧ (src = .z3 → s.lid.tin = some id → u.lid.press = .idle ∧ u.lid.tin = none)
          ∧ (src ≠ .z3 ∨ s.lid.tin ≠ some id → u.lid = s.lid)
          ∧ Unchanged [.station, .track, .lidder] s u
      -- the looks in their order
      s.trackLook = s.reservations.conveyors.armNote.armGrant
      ∧ s.reservations = (((s.reserveNext .z2 .z3).reserveNext .z3 .z4).reserveNext .z5 .out).reserveZ5
      ∧ s.conveyors = ((((s.conveyorLook .z5 .out).conveyorLook .z4 .z5).conveyorLook .z3 .z4).conveyorLook .z2
          .z3).conveyorLook .z1 .z2
      -- reservations
      ∧ (∀ src dst,
        (∀ t, rests src t → free dst →
          s.reserveNext src dst = s.setPlace dst fun r => { r with reserved := some t.id })
        ∧ ((∀ t, ¬rests src t) ∨ ¬free dst → s.reserveNext src dst = s))
      ∧ (∀ p t, claims p t → free .z5 →
          (∀ q t', claims q t' → t.readyAt < t'.readyAt ∨ (t.readyAt = t'.readyAt ∧ rank p ≤ rank q)) →
        s.reserveZ5 = s.setPlace .z5 fun r => { r with reserved := some t.id })
      ∧ ((∀ p t, ¬claims p t) ∨ ¬free .z5 → s.reserveZ5 = s)
      -- moves
      ∧ (∀ src dst, src ≠ dst →
        (∀ t, s.stopped = false → ready src dst t → begins (s.conveyorLook src dst) t.id src dst)
        ∧ (s.stopped = true ∨ (∀ t, ¬ready src dst t) → s.conveyorLook src dst = s))
      -- the arm
      ∧ Unchanged [.track] s s.armNote
      ∧ s.armNote.track = { s.track with armReady := s.armNote.track.armReady }
      ∧ (∀ x ∈ s.armNote.track.armReady, (∃ y ∈ armTransfers, ∃ t, ready y.1 y.2 t ∧ t.id = x.1)
        ∧ (x ∈ s.track.armReady ∨ x.2 = s.now ∧ ∀ y ∈ s.track.armReady, y.1 ≠ x.1))
      ∧ (∀ y ∈ armTransfers, ∀ t, ready y.1 y.2 t → ∃ m, (t.id, m) ∈ s.armNote.track.armReady)
      ∧ (∀ front x back src dst t, s.stopped = false → s.armFree = true → s.track.armReady = front ++ x :: back →
          (∀ y ∈ front, x.2 < y.2) → (∀ y ∈ back, x.2 ≤ y.2) → (src, dst) ∈ armTransfers → ready src dst t → t.id = x.1 →
          (∀ y ∈ armTransfers, ∀ t', ready y.1 y.2 t' → t'.id = x.1 → y = (src, dst)) →
        begins s.armGrant x.1 src dst)
      ∧ (s.stopped = true ∨ s.armFree = false ∨ s.track.armReady = [] → s.armGrant = s)
      ∧ (s.armFree = true ↔ (∀ m ∈ s.track.moves, m.src.isMixer = false ∧ m.dst.isMixer = false)
          ∧ ∀ j ∈ s.track.jams, j.src.isMixer = false ∧ j.dst.isMixer = false)
      ∧ armTransfers = [(.mixA, .z5), (.mixB, .z5), (.z4, .mixA), (.z4, .mixB)]

/-- JAM of a move whose time runs ends it: both its places are UNCERTAIN, the tin stands on the pair, and TRACK_JAM is
set. Of a halted move, and where no move goes to the place, nothing changes (R149, R158). That JAM of a halted move
changes nothing is Assumption 33, and where no move goes to the place Assumption 6; the clock's part of the step is
Assumption 10. -/
def Obligations.JamMakesPair : Prop :=
  ∀ (s : State) (dest : Place), s.powered = true →
    (s.moveTo dest = none → exec (.jam dest) s = .next (State.conclude s s))
    ∧ ∀ v, s.moveTo dest = some v →
      (v.deadline = none → exec (.jam dest) s = .next (State.conclude s s))
      ∧ ∀ d, v.deadline = some d →
        ∃ u, exec (.jam dest) s = .next (State.conclude s u) ∧ u.now = max s.now d
          ∧ u.track.moves = s.track.moves.filter (fun w => w != v)
          ∧ u.track.jams = s.track.jams ++ [⟨v.tin, v.src, v.dst⟩] ∧ u.track.tins = s.track.tins
          ∧ (u.placeRec v.src).uncertain = true ∧ (u.placeRec v.dst).uncertain = true
          ∧ (u.placeRec v.src).departing = false ∧ u.link.isSet .trackJam = true
          ∧ Unchanged [.now, .station, .track, .link] s u

/-- A sensor that comes to disagree with its place: at a watched zone or cradle at rest, a tin that appears where no
record stands becomes an orphan and TRACK_SLIP is set, and a mixer holds it, its reservation ended; a sensor that clears
under a live tin makes the place UNCERTAIN and sets TRACK_SLIP; where they agree, under an orphan or a FAILED record,
and where the place is not watched, the input alone changes, and so does it for Z1's sensor, the height class, and the
lane's sensors but for a clearing of OUT 1, which takes the head as HEAD_TAKEN does (R142, R143, R150, R153, R156,
R178). The fields of TRACK_SLIP for a tin that vanished are Assumption 30; that a sensor change at a place with a move
in flight is no arrival is Assumption 27. -/
def Obligations.DisagreementsAreSeen : Prop :=
  ∀ s : State, s.powered = true →
    (∀ (p : Place) (tin : Bool) (row : Instr),
      (p ∈ [Place.z2, .z3, .z4, .z5] ∧ (row = .zoneDisagreement p tin ∨ row = .placeSensorChange (.place p tin)))
        ∨ (∃ m : Mix, p = m.place ∧ (row = .cradleDisagreement m tin ∨ row = .placeSensorChange (.place p tin))) →
      let s' := { s with inp := { s.inp with places := s.inp.places.set p.ix.val tin } }
      let watched : Prop := s.moving p = false ∧ (s.placeRec p).uncertain = false ∧ s.watchHeld p = false
        ∧ ∀ m : Mix, p = m.place → (s.mixerRec m).state ∈ [MixerState.idle, .holding, .loading]
      (¬watched → exec row s = .next (State.conclude s s'))
      ∧ (watched →
        ((s.placeRec p).tin = none → tin = false → exec row s = .next (State.conclude s s'))
        ∧ ((s.placeRec p).tin = none → tin = true → s.track.tins.length < 255 →
          ∃ u id, exec row s = .next (State.conclude s u) ∧ s.tin? id = none ∧ (u.placeRec p).tin = some id
            ∧ (u.tin? id).map (·.stage) = some .orphan ∧ u.link.isSet .trackSlip = true
            -- in a mixer: a reservation ends, and the mixer holds the orphan
            ∧ ∀ m : Mix, p = m.place → (u.placeRec p).reserved = none ∧ (u.tin? id).bind (·.lid) = some .seated
                ∧ (u.mixerRec m).state = .holding ∧ (u.mixerRec m).tin = some id)
        ∧ (∀ id t, (s.placeRec p).tin = some id → s.tin? id = some t →
            tin = true ∨ t.stage = .orphan ∨ (p.isMixer = false ∧ t.stage = .failed) →
          exec row s = .next (State.conclude s s'))
        ∧ ∀ id t, (s.placeRec p).tin = some id → s.tin? id = some t → tin = false → t.stage ≠ .orphan →
            t.stage ≠ .failed ∨ p.isMixer = true → (∀ m : Mix, p = m.place → (s.mixerRec m).state = .holding) →
          ∃ u, exec row s = .next (State.conclude s u) ∧ u.placeRec p = { s.placeRec p with uncertain := true }
            ∧ u.track.tins = s.track.tins ∧ u.link = s.link.setFlag .trackSlip
                [.num "tin" id, .word "to" (placeName p)] ∧ Unchanged [.inputs, .track, .link] s u))
    ∧ (∀ tin, exec (.placeSensorChange (.place .z1 tin)) s = .next (State.conclude s
        { s with inp := { s.inp with places := s.inp.places.set 0 tin } }))
    ∧ (∀ (k : Fin 4) tin, k ≠ 0 ∨ tin = true ∨ s.inp.lane[0] = false →
        exec (.placeSensorChange (.lane k tin)) s = .next (State.conclude s
          { s with inp := { s.inp with lane := s.inp.lane.set k.val tin } }))
    ∧ (s.inp.lane[0] = true → exec (.placeSensorChange (.lane 0 false)) s = exec .headTaken s)
    ∧ ∀ h, exec (.placeSensorChange (.height h)) s = .next (State.conclude s
        { s with inp := { s.inp with height := h } })

/-- CONFIRM of a zone or mixer is refused BUSY while a move into or out of it is in flight, while the station or the scale
works at Z2 or the press at Z3, and at a mixer that is certain and on no jam pair. Of a jam pair the two sensors say
PLACED, and the tin is handed over at the destination, RETURNED, LOST, or MISMATCH; both places are then certain. At an
UNCERTAIN place the tin is PRESENT, and a slipped one is handed over, or LOST; the place is then certain, and a tin that
waits for a lid at Z3 looks for one again. An UNCERTAIN place without a record answers PRESENT or EMPTY and is certain. At
a certain zone where sensor and record agree it answers EMPTY or PRESENT; a tin without a record is an orphan, but at Z1;
a tin of a line that is gone is LOST; an orphan or FAILED record is refused STATE. CLEAR removes an orphan or FAILED
record whose tin is gone, and is refused BUSY during a move or at a mixer that is not open, EMPTY where no record stands,
and STATE for another record and while the sensor shows the tin. A LOST or CLEARED tin has no reservation left; where it
was the job tin, the station is IDLE, asks for the marker clear if the tin asked for a set, and drops its cap claim, and
where it was that or at Z2, an admission attempt is owed (R68, R69, R114, R118, R120, R147, R151, R154, R156, R157, R164,
R179). That a line with no live tin counts none is Assumption 37; that RETURNED puts a tin back at Z2 also while the scale
is in CALIBRATION is Assumption 58; the outcome at an UNCERTAIN place without a record is Assumption 28; a settle begun on
a stopped machine waits for RESUME (Assumption 20); what the Lidder does with a tin that waits for a lid while Z3 becomes
certain is Assumption 48; a request row keeps no input place (Assumption 5). -/
def Obligations.ConfirmAndClear : Prop :=
  ∀ (s : State) (fs : Fields) (p : Place), s.powered = true → fs.malformed ["zone"] ["zone"] [] = false →
    (fs.get "zone").bind (named? placeTable) = some p → p ≠ .out →
    let moves : Prop := ∃ v ∈ s.track.moves, v.src = p ∨ v.dst = p
    let busy : Prop := moves
      ∨ p = .z2 ∧ (s.stn.scale = .calibration ∨ s.stn.job = .preparing ∨ s.stn.job = .dosing ∨ s.stn.job = .weighing)
      ∨ p = .z3 ∧ s.lid.press = .pressing
      ∨ p.isMixer = true ∧ (s.placeRec p).uncertain = false ∧ s.jamAt p = none
    let ok (items : List Item) : State := s.pushReply false (.ok items)
    let resting (u : State) (q : Place) (id : Nat) : Prop :=
      if q = .out then u.track.lane = s.track.lane ++ [id]
      else (u.placeRec q).tin = some id ∧ (u.placeRec q).arriving = false
    -- the hand-over of a tin at a place, as at arrival
    let handed (u : State) (q : Place) (t : Tin) : Prop :=
      (q = .z2 → s.stn.tin = some t.id → u.tin? t.id = some { t with stage := .preparing } ∧ u.stn.job = .preparing
          ∧ u.stn.settle = if s.stopped then .held else .running (s.now + 1500000))
      ∧ (q = .z3 → u.lid.tin = some t.id ∧ u.lid.attempt = 0 ∧ u.lid.drawn = false)
      ∧ (q = .z4 ∨ q = .z5 → u.tin? t.id = some { t with stage := .readyToMove, readyAt := s.now })
      ∧ (∀ m : Mix, q = m.place → (u.tin? t.id).map (·.stage) = some .mixing ∧ (u.mixerRec m).tin = some t.id)
      ∧ (q = .out → u.tin? t.id = some { t with stage := .out })
    (busy → exec (.confirm fs) s = .next (s.pushReply false (.no .busy)))
    ∧ (¬busy →
      -- a jam pair
      (∀ j t, s.jamAt p = some j → j.src ≠ j.dst → s.tin? j.tin = some t →
        let shows (q : Place) : Bool := if q = .out then s.track.lane.length < s.laneCount else s.shows q
        let solved (u : State) : Prop := (u.placeRec j.src).uncertain = false ∧ (u.placeRec j.dst).uncertain = false
          ∧ j ∉ u.track.jams ∧ ∀ k ∈ s.track.jams, k.tin ≠ j.tin → k ∈ u.track.jams
        (shows j.src = false → shows j.dst = true → t.stage ≠ .orphan → t.stage ≠ .failed → j.src.isMixer = false ∨
            j.dst.isMixer = false →
          ∃ u, exec (.confirm fs) s = .next (State.conclude s u) ∧ solved u ∧ resting u j.dst j.tin ∧ handed u j.dst t
            ∧ .reply false (.ok [.word "outcome" "PLACED", .num "tin" j.tin]) ∈ u.link.sending.toList ++ u.link.output)
        ∧ (shows j.src = true → shows j.dst = false → j.src ≠ .out →
          ∃ u, exec (.confirm fs) s = .next (State.conclude s u) ∧ solved u ∧ resting u j.src j.tin
            ∧ u.track.tins = s.track.tins ∧ (∀ q, (u.placeRec q).reserved = (s.placeRec q).reserved)
            ∧ u.link = (ok [.word "outcome" "RETURNED", .num "tin" j.tin]).link ∧ Unchanged [.station, .track, .link] s u)
        ∧ (shows j.src = false → shows j.dst = false → BookInv s →
          ∃ u, exec (.confirm fs) s = .next (State.conclude s u) ∧ solved u
            ∧ TinFinished t .lost (ok [.word "outcome" "LOST", .num "tin" j.tin]) u ∧ JobTinGone t.id s u
            ∧ (j.src = .z2 ∨ j.dst = .z2 → u.stn.attemptOwed = true))
        ∧ (shows j.src = true → shows j.dst = true →
          exec (.confirm fs) s = .next (s.pushReply false (.no .mismatch))))
      -- an UNCERTAIN place
      ∧ (∀ t, s.jamAt p = none → (s.placeRec p).uncertain = true → s.tinAt p = some t →
          (p = .z3 → s.lid.press ≠ .waitingLid) →
        (s.shows p = true → (s.placeRec p).owed = false →
          ∃ u, exec (.confirm fs) s = .next (State.conclude s u)
            ∧ u.placeRec p = { s.placeRec p with uncertain := false }
            ∧ u.track = { s.track with places := u.track.places }
            ∧ u.link = (ok [.word "outcome" "PRESENT", .num "tin" t.id]).link ∧ Unchanged [.station, .track, .link] s u)
        ∧ (s.shows p = true → (s.placeRec p).owed = true → t.stage ≠ .orphan → t.stage ≠ .failed →
          ∃ u, exec (.confirm fs) s = .next (State.conclude s u)
            ∧ u.placeRec p = { s.placeRec p with uncertain := false, owed := false } ∧ handed u p t
            ∧ .reply false (.ok [.word "outcome" "PRESENT", .num "tin" t.id]) ∈ u.link.sending.toList ++ u.link.output)
        ∧ (s.shows p = false → BookInv s →
          ∃ u, exec (.confirm fs) s = .next (State.conclude s u) ∧ (u.placeRec p).tin = none
            ∧ (u.placeRec p).uncertain = false ∧ (p = .z2 → u.stn.attemptOwed = true)
            ∧ TinFinished t .lost (ok [.word "outcome" "LOST", .num "tin" t.id]) u ∧ JobTinGone t.id s u))
      -- a tin that waits for a lid at an UNCERTAIN Z3
      ∧ (∀ t code, s.jamAt p = none → (s.placeRec p).uncertain = true → s.tinAt p = some t → p = .z3 →
          s.lid.press = .waitingLid → s.lid.tin = some t.id → s.lid.code = some code → s.lid.drawn = false →
        (s.shows p = true → (s.placeRec p).owed = false →
          let fits (m : Fin 3) : Prop := s.lid.mags[m].code = code ∧ s.inp.lids[m] = true
          ∃ u, exec (.confirm fs) s = .next (State.conclude s u)
            ∧ u.placeRec p = { s.placeRec p with uncertain := false }
            ∧ u.link = (ok [.word "outcome" "PRESENT", .num "tin" t.id]).link ∧ Unchanged [.track, .lidder, .link] s u
            ∧ (∀ m, fits m → (∀ k, k < m → ¬fits k) →
                u.lid = { s.lid with mag := some m, press := .waiting } ∧ u.track.tins = s.track.tins)
            ∧ ((∀ m, ¬fits m) →
              (s.lid.policy = .hold → u.lid = { s.lid with mag := none } ∧ u.track.tins = s.track.tins)
              ∧ (s.lid.policy = .pass → u.lid = { s.lid with mag := none, press := .lidded }
                ∧ ∃ ns, u.tin? t.id = some { t with
                    lid := some .notFitted, route := some .bypass, stage := .readyToMove, readyAt := s.now, notes := ns }
                  ∧ .notLidded ∈ ns ∧ .unmixed ∈ ns)))
        ∧ (s.shows p = false → BookInv s →
          ∃ u, exec (.confirm fs) s = .next (State.conclude s u) ∧ (u.placeRec p).tin = none
            ∧ (u.placeRec p).uncertain = false ∧ u.lid.tin = none
            ∧ TinFinished t .lost (ok [.word "outcome" "LOST", .num "tin" t.id]) u ∧ JobTinGone t.id s u))
      -- an UNCERTAIN place without a record
      ∧ (s.jamAt p = none → (s.placeRec p).uncertain = true → (s.placeRec p).tin = none →
          (p = .z3 → s.lid.press ≠ .waitingLid) →
        ∃ u, exec (.confirm fs) s = .next (State.conclude s u)
          ∧ u.placeRec p = { s.placeRec p with uncertain := false, owed := false }
          ∧ (∀ q, q ≠ p → u.placeRec q = s.placeRec q) ∧ u.track = { s.track with places := u.track.places }
          ∧ u.stn = (if p = .z2 then { s.stn with attemptOwed := true } else s.stn)
          ∧ u.link = (ok [.word "outcome" (if s.shows p then "PRESENT" else "EMPTY")]).link
          ∧ Unchanged [.station, .track, .link] s u)
      -- a zone that is certain
      ∧ (s.jamAt p = none → (s.placeRec p).uncertain = false →
        (s.tinAt p = none → s.shows p = false →
          exec (.confirm fs) s = .next (State.conclude s (ok [.word "outcome" "EMPTY"])))
        ∧ (s.tinAt p = none → s.shows p = true → p = .z1 →
          exec (.confirm fs) s = .next (State.conclude s (ok [.word "outcome" "PRESENT"])))
        ∧ (s.tinAt p = none → s.shows p = true → p ≠ .z1 → s.track.tins.length < 255 →
          ∃ u id, exec (.confirm fs) s = .next (State.conclude s u) ∧ s.tin? id = none
            ∧ (u.placeRec p).tin = some id ∧ u.tin? id = some (Tin.orphan id)
            ∧ u.link = (ok [.word "outcome" "ORPHAN", .num "tin" id]).link ∧ Unchanged [.track, .link] s u)
        ∧ ∀ t, s.tinAt p = some t →
          (t.stage = .orphan ∨ t.stage = .failed → exec (.confirm fs) s = .next (s.pushReply false (.no .state)))
          ∧ (t.stage ≠ .orphan → t.stage ≠ .failed →
            (s.shows p = true → exec (.confirm fs) s = .next (State.conclude s
              (ok [.word "outcome" "PRESENT", .num "tin" t.id])))
            ∧ (s.shows p = false → BookInv s →
              ∃ u, exec (.confirm fs) s = .next (State.conclude s u) ∧ (u.placeRec p).tin = none
                ∧ (p = .z2 → u.stn.attemptOwed = true)
                ∧ TinFinished t .lost (ok [.word "outcome" "LOST", .num "tin" t.id]) u ∧ JobTinGone t.id s u))))
    -- CLEAR
    ∧ (let held : Prop := ∃ m : Mix, p = m.place ∧ (s.mixerRec m).clamp ≠ .opened
      (moves ∨ held → exec (.clear fs) s = .next (s.pushReply false (.no .busy)))
      ∧ (¬moves → ¬held →
        (s.tinAt p = none → exec (.clear fs) s = .next (s.pushReply false (.no .empty)))
        ∧ ∀ t, s.tinAt p = some t →
          (s.shows p = true ∨ (t.stage ≠ .orphan ∧ t.stage ≠ .failed) →
            exec (.clear fs) s = .next (s.pushReply false (.no .state)))
          ∧ (s.shows p = false → t.stage = .orphan ∨ t.stage = .failed → BookInv s →
            ∃ u, exec (.clear fs) s = .next (State.conclude s u)
              ∧ (u.placeRec p).tin = none ∧ (u.placeRec p).uncertain = false ∧ TinFinished t .cleared (ok []) u
              ∧ JobTinGone t.id s u
              ∧ (p = .z2 → u.stn.attemptOwed = true)
              ∧ ∀ m : Mix, p = m.place → (s.mixerRec m).state = .holding → (u.mixerRec m).state = .idle)))

/-! ### The Lidder and the Mixers -/

/-- PRESS_CYCLE_END: a seated lid sends the tin to the mixers; after a first attempt the press tries once more with no new
lid; after a second the tin passes the mixers as NOT_SEATED, NOT_LIDDED and UNMIXED. With no cycle in flight the seat
input alone changes. An opening guard abandons a cycle in flight, and a closing guard changes the input alone. The search
of a tin that waits finds the lowest magazine of its code that shows lids; where there is none, LID_EMPTY is set unless
the tin waits for a lid already, and by the policy the tin waits, or passes the mixers as NOT_FITTED. A press cycle of 2.5
s begins at the end of a step where the tin waits for the press, the guard is closed, the machine is not stopped and Z3 is
certain; a lid is drawn first where none is, with LID_LOW at a count of 5 or fewer, and where the magazine found shows no
lid any more the search is made anew (R164 to R166, R169). That a cycle end with no cycle in flight changes the seat input
alone is Assumption 6, that the search is held off while Z3 is UNCERTAIN Assumption 48; the clock's part of the step is
Assumption 10. -/
def Obligations.PressCycleJudgesLid : Prop :=
  (∀ (s : State), s.powered = true →
    (∀ seated, s.lid.cycleEnd = none → exec (.pressCycleEnd seated) s =
      .next (State.conclude s { s with inp := { s.inp with seated := seated } }))
    ∧ (∀ e id t, s.lid.cycleEnd = some e → s.lid.tin = some id → s.tin? id = some t →
      (∃ u t', exec (.pressCycleEnd true) s = .next (State.conclude s u) ∧ u.now = max s.now e
        ∧ u.tin? id = some t'
        ∧ t' = { t with lid := some .seated, route := some .mix, stage := .readyToMove, readyAt := u.now }
        ∧ u.lid = { s.lid with press := .lidded, cycleEnd := none })
      ∧ (s.lid.attempt ≤ 1 →
        ∃ u, exec (.pressCycleEnd false) s = .next (State.conclude s u) ∧ u.now = max s.now e
          ∧ u.tin? id = some t ∧ u.lid = { s.lid with press := .waiting, attempt := 2, cycleEnd := none })
      ∧ (1 < s.lid.attempt →
        ∃ u t', exec (.pressCycleEnd false) s = .next (State.conclude s u) ∧ u.now = max s.now e
          ∧ u.tin? id = some t' ∧ t'.lid = some .notSeated ∧ t'.route = some .bypass ∧ t'.stage = .readyToMove
          ∧ .notLidded ∈ t'.notes ∧ .unmixed ∈ t'.notes
          ∧ u.lid = { s.lid with press := .lidded, cycleEnd := none }))
    ∧ (∀ e, s.lid.cycleEnd = some e → ∃ u, exec .guardOpen s = .next (State.conclude s u)
      ∧ u.inp = { s.inp with guardOpen := true } ∧ u.lid = { s.lid with press := .waiting, cycleEnd := none }
      ∧ Unchanged [.inputs, .lidder, .track, .link] s u)
    ∧ (s.lid.cycleEnd = none → exec .guardOpen s =
      .next (State.conclude s { s with inp := { s.inp with guardOpen := true } }))
    ∧ exec .guardClose s = .next (State.conclude s { s with inp := { s.inp with guardOpen := false } }))
    -- the search
    ∧ (∀ (s : State) (id : Nat) (k : Fin 3), s.lid.tin = some id → s.lid.code = some k → s.lid.drawn = false →
        s.lid.press = .waiting ∨ s.lid.press = .waitingLid → (s.placeRec .z3).uncertain = false →
      let holds (m : Fin 3) : Prop := s.lid.mags[m].code = k ∧ s.inp.lids[m] = true
      (∀ m, holds m → (∀ m', m' < m → ¬holds m') →
        s.lidSearch = { s with lid := { s.lid with mag := some m, press := .waiting } })
      ∧ ((∀ m, ¬holds m) →
        let link := if s.lid.press = .waitingLid then s.link
          else s.link.setFlag .lidEmpty [.num "tin" id, .word "code" (lidName k)]
        (s.lid.policy = .hold →
          s.lidSearch = { s with link := link, lid := { s.lid with mag := none, press := .waitingLid } })
        ∧ (s.lid.policy = .pass → ∃ u, s.lidSearch = u ∧ u.link = link
          ∧ u.lid = { s.lid with mag := none, press := .lidded } ∧ (∀ j, j ≠ id → u.tin? j = s.tin? j)
          ∧ (∀ t, s.tin? id = some t → ∃ t', u.tin? id = some t' ∧ t'.lid = some .notFitted ∧ t'.route = some .bypass
            ∧ t'.stage = .readyToMove ∧ t'.readyAt = s.now ∧ .notLidded ∈ t'.notes ∧ .unmixed ∈ t'.notes)
          ∧ Unchanged [.track, .lidder, .link] s u)))
    ∧ (∀ s : State, s.lid.tin = none ∨ s.lid.code = none ∨ s.lid.drawn = true
        ∨ (s.lid.press ≠ .waiting ∧ s.lid.press ≠ .waitingLid) ∨ (s.placeRec .z3).uncertain = true → s.lidSearch = s)
    -- the press
    ∧ ∀ s : State,
      let free : Prop := s.lid.press = .waiting ∧ s.inp.guardOpen = false ∧ s.stopped = false
        ∧ (s.placeRec .z3).uncertain = false
      let cycle (l : Lidder) : Lidder :=
        { l with press := .pressing, attempt := max 1 l.attempt, cycleEnd := some (s.now + 2500000) }
      (¬free ∨ (s.lid.drawn = false ∧ s.lid.mag = none) → s.pressLook = s)
      ∧ (free → s.lid.drawn = true → s.pressLook = { s with lid := cycle s.lid })
      ∧ ∀ m : Fin 3, free → s.lid.drawn = false → s.lid.mag = some m →
        let x : Magazine := ⟨s.lid.mags[m].code, s.lid.mags[m].count - 1⟩
        (s.lid.code = some s.lid.mags[m].code → s.inp.lids[m] = true → s.pressLook = { s with
            lid := cycle { s.lid with drawn := true, mags := s.lid.mags.set m.val x }
            link := if x.count ≤ 5 then s.link.setFlag .lidLow
                [.num "magazine" (m.val + 1), .word "code" (lidName x.code), .num "count" x.count] else s.link })
        ∧ (s.lid.code ≠ some s.lid.mags[m].code ∨ s.inp.lids[m] = false →
          s.pressLook = State.lidSearch { s with lid := { s.lid with mag := none } })

/-- LIDS sets a magazine's code, its count, clamped to 80, or both, queues a code that is new for the store, and answers
with the magazine's fields; with a code and a full link-write FIFO it is refused BUSY, and with neither field it reports
and changes nothing. LIDPOL sets another policy and queues it. After a new code and after another policy a tin that waits
looks for a magazine again, as the search of PressCycleJudgesLid says: a tin in WAITING_LID waits for the press where one
is found, and where none is, waits on under HOLD and passes the mixers as NOT_FITTED under PASS, with LID_EMPTY not set
again. A magazine sensor that comes to show lids makes a tin that waits for a lid of the magazine's code wait for the
press; where no tin is with the Lidder, where Z3 is UNCERTAIN, and where the sensor clears, the input alone changes (R150,
R164, R168, R170). The names of the fields of LIDS are the model's (Assumption 13). That a sensor changes the input alone
while Z3 is UNCERTAIN, the search held off, is Assumption 48; that LIDPOL is refused BUSY with a full FIFO also where it
names the policy in force is Assumption 70; a request row keeps no input place (Assumption 5). -/
def Obligations.LidMagazines : Prop :=
  ∀ (s : State), s.powered = true →
    -- the tin that waits for a lid
    let waits (id : Nat) (x : Fin 3) : Prop := s.lid.press = .waitingLid ∧ s.lid.tin = some id ∧ s.lid.code = some x
      ∧ s.lid.drawn = false ∧ (s.placeRec .z3).uncertain = false
    let fits (mags : Vector Magazine 3) (x j : Fin 3) : Prop := mags[j].code = x ∧ s.inp.lids[j] = true
    let passed (id : Nat) (u : State) : Prop := ∀ t, s.tin? id = some t → ∃ t', u.tin? id = some t' ∧ t'.lid = some .notFitted
      ∧ t'.route = some .bypass ∧ t'.stage = .readyToMove ∧ .notLidded ∈ t'.notes ∧ .unmixed ∈ t'.notes
    (∀ (fs : Fields) (m : Fin 3), fs.malformed ["magazine", "code", "count"] ["magazine"] ["magazine"] = false →
      (fs.num "magazine").bind magazine? = some m →
      (fs.has "code" = false → fs.has "count" = false →
        exec (.lids fs) s = .next (s.pushReply false (.ok (s.magazineItems m))))
      ∧ ∀ (k : Option (Fin 3)) (n : Option Nat), (fs.has "code" = true → k ≠ none) → (fs.has "count" = true → n ≠ none) →
        (fs.get "code").bind (code? "L" 3) = k → (fs.get "count").bind whole? = n → k ≠ none ∨ n ≠ none →
        (k ≠ none → 8 ≤ s.store.fifo.length → exec (.lids fs) s = .next (s.pushReply false (.no .busy)))
        ∧ (k = none ∨ s.store.fifo.length < 8 →
          let x : Magazine := ⟨k.getD s.lid.mags[m].code, (n.map (min 80)).getD s.lid.mags[m].count⟩
          let mags := s.lid.mags.set m.val x
          let isNew : Prop := x.code ≠ s.lid.mags[m].code
          let items : List Item := [.word "code" (lidName x.code), .num "count" x.count,
            .word "sensor" (if s.inp.lids[m] then "LIDS" else "EMPTY")]
              ++ if n.any (fun n => 80 < n) then [.bare "CLAMPED"] else []
          let v : State := { s.pushReply false (.ok items) with
            lid := { s.lid with mags := mags }
            store := { s.store with fifo := s.store.fifo ++ if x.code ≠ s.lid.mags[m].code then [.lidCode m x.code] else [] } }
          (¬isNew → exec (.lids fs) s = .next (State.conclude s v))
          ∧ (isNew → exec (.lids fs) s = .next (State.conclude s v.lidSearch)
            ∧ (s.lid.tin = none → v.lidSearch = v)
            ∧ ∀ id c, waits id c →
              (∀ j, fits mags c j → (∀ i, i < j → ¬fits mags c i) →
                v.lidSearch = { v with lid := { v.lid with press := .waiting, mag := some j } })
              ∧ ((∀ j, ¬fits mags c j) →
                (s.lid.policy = .hold → v.lidSearch = { v with lid := { v.lid with mag := none } })
                ∧ (s.lid.policy = .pass → v.lidSearch.lid = { v.lid with press := .lidded, mag := none }
                    ∧ passed id v.lidSearch ∧ Unchanged [.track, .lidder] v v.lidSearch)))))
    ∧ (∀ (fs : Fields) (p : LidPolicy), fs.malformed ["mode"] [] [] = false →
      (fs.get "mode").bind (named? lidPolicyTable) = some p →
      (8 ≤ s.store.fifo.length → exec (.lidpol fs) s = .next (s.pushReply false (.no .busy)))
      ∧ (s.store.fifo.length < 8 →
        let v : State := { s.pushReply false (.ok []) with
          lid := { s.lid with policy := p }
          store := { s.store with fifo := s.store.fifo ++ [.lidPolicy p] } }
        (p = s.lid.policy → exec (.lidpol fs) s = .next (State.conclude s (s.pushReply false (.ok []))))
        ∧ (p ≠ s.lid.policy → exec (.lidpol fs) s = .next (State.conclude s v.lidSearch)
          ∧ (s.lid.tin = none → v.lidSearch = v)
          ∧ ∀ id c, waits id c →
            (∀ j, fits s.lid.mags c j → (∀ i, i < j → ¬fits s.lid.mags c i) →
              v.lidSearch = { v with lid := { v.lid with press := .waiting, mag := some j } })
            ∧ ((∀ j, ¬fits s.lid.mags c j) →
              (p = .hold → v.lidSearch = { v with lid := { v.lid with mag := none } })
              ∧ (p = .pass → v.lidSearch.lid = { v.lid with press := .lidded, mag := none }
                  ∧ passed id v.lidSearch ∧ Unchanged [.track, .lidder] v v.lidSearch)))))
    ∧ ∀ m : Fin 3,
      exec (.lidSensorChange m false) s = .next (State.conclude s
        { s with inp := { s.inp with lids := s.inp.lids.set m.val false } })
      ∧ (s.lid.tin = none → exec (.lidSensorChange m true) s = .next (State.conclude s
        { s with inp := { s.inp with lids := s.inp.lids.set m.val true } }))
      ∧ ((s.placeRec .z3).uncertain = true → exec (.lidSensorChange m true) s = .next (State.conclude s
        { s with inp := { s.inp with lids := s.inp.lids.set m.val true } }))
      ∧ (∀ id, s.lid.press = .waitingLid → s.lid.tin = some id → s.lid.drawn = false →
          s.lid.code = some s.lid.mags[m].code → (s.placeRec .z3).uncertain = false →
        ∃ u k, exec (.lidSensorChange m true) s = .next (State.conclude s u) ∧ s.lid.mags[k].code = s.lid.mags[m].code
          ∧ u.inp.lids[k] = true ∧ k ≤ m ∧ u.lid = { s.lid with press := .waiting, mag := some k }
          ∧ Unchanged [.inputs, .lidder] s u)

/-- The four ends of a mixer's steps: CLAMPING is followed by MIXING for the time the program leaves, MIXING by BRAKING
for 3 s with the program elapsed, BRAKING without a stop cause by UNCLAMPING for 2 s, with one by STOPPED, with MIX
pending after an interruption and UNCLAMP after a completed program, or, where RESUME has been taken during the braking,
by that step at once, with the stop causes cleared, and UNCLAMPING by HOLDING, where an ordered tin gets the mix result
DONE and is READY_TO_MOVE. At the end of a step a mixer is chosen for a tin that waits READY_TO_MOVE at Z4 with route
MIX and has none: of the free mixers the one that has been IDLE longer, MIXER A among equals; it is reserved for the tin
and LOADING. A mixer is free when it is IDLE with its door closed, without a record, a reservation or a tin shown, and
certain (R171 to R173, R175, R177). That an end of a step the mixer is not in changes nothing is Assumption 6; the
clock's part of each step is Assumption 10; that no mixer is chosen for a tin at an UNCERTAIN Z4 is Assumption 50. -/
def Obligations.MixerStepsFollow : Prop :=
  (∀ (s : State) (m : Mix), s.powered = true →
    let x := s.mixerRec m
    let now := max s.now x.ends
    let program := x.program.getD 0 * 1000000
    (x.state = .clamping → exec (.clampEnd m) s = .next (State.conclude s
      ({ s with now := now }.setMixer m fun x => { x with
        state := .mixing, clamp := .closed, since := now, ends := now + (program - x.elapsed) })))
    ∧ (x.state = .mixing → exec (.mixEnd m) s = .next (State.conclude s
      ({ s with now := now }.setMixer m fun x => { x with
        state := .braking, clamp := .closed, elapsed := program, since := now, ends := now + 3000000 })))
    ∧ (x.state = .braking → x.causes = [] → exec (.brakeEnd m) s = .next (State.conclude s
      ({ s with now := now }.setMixer m fun x => { x with
        state := .unclamping, clamp := .moving, since := now, ends := now + 2000000 })))
    ∧ (x.state = .braking → x.causes ≠ [] → x.resumeTaken = false → exec (.brakeEnd m) s = .next (State.conclude s
      ({ s with now := now }.setMixer m fun x => { x with
        state := .stopped, pending := some (x.brakeTo.getD .unclamp), brakeTo := none })))
    ∧ (x.state = .braking → x.causes ≠ [] → x.resumeTaken = true →
      let begun (g : MixerState) (k : Clamp) (length : Nat) : State :=
        State.conclude s ({ s with now := now }.setMixer m fun x => { x with
          state := g, clamp := k, since := now, ends := now + length, pending := none, brakeTo := none, causes := []
          resumeTaken := false })
      (x.brakeTo = some .mix → exec (.brakeEnd m) s = .next (begun .mixing .closed (program - x.elapsed)))
      ∧ (x.brakeTo = none ∨ x.brakeTo = some .unclamp →
          exec (.brakeEnd m) s = .next (begun .unclamping .moving 2000000)))
    ∧ (∀ id t, x.state = .unclamping → (s.placeRec m.place).tin = some id → s.tin? id = some t → t.stage ≠ .orphan →
      ∃ u, exec (.unclampEnd m) s = .next (State.conclude s u) ∧ u.now = now
        ∧ (u.mixerRec m).state = .holding ∧ (u.mixerRec m).clamp = .opened
        ∧ u.tin? id = some { t with
            stage := .readyToMove, readyAt := now
            mix := some ⟨true, m, x.program.getD 0, x.elapsed, x.interrupted⟩ })
    ∧ (x.state ≠ .clamping → exec (.clampEnd m) s = .next (State.conclude s s))
    ∧ (x.state ≠ .mixing → exec (.mixEnd m) s = .next (State.conclude s s))
    ∧ (x.state ≠ .braking → exec (.brakeEnd m) s = .next (State.conclude s s))
    ∧ (x.state ≠ .unclamping → exec (.unclampEnd m) s = .next (State.conclude s s)))
    -- the choice
    ∧ ∀ s : State,
      let free (m : Mix) : Prop := (s.mixerRec m).state = .idle ∧ s.inp.doors[m.ix] = false ∧ (s.placeRec m.place).tin = none
        ∧ (s.placeRec m.place).reserved = none ∧ (s.placeRec m.place).uncertain = false ∧ s.shows m.place = false
      let waits (t : Tin) : Prop := s.tinAt .z4 = some t ∧ (s.placeRec .z4).arriving = false
        ∧ (s.placeRec .z4).uncertain = false ∧ t.stage = .readyToMove ∧ t.route = some .mix
        ∧ (s.placeRec .mixA).reserved ≠ some t.id ∧ (s.placeRec .mixB).reserved ≠ some t.id
      let takes (m : Mix) (t : Tin) : Prop := s.mixerChoose =
        (s.setPlace m.place fun r => { r with reserved := some t.id }).setMixer m fun x =>
          { x with state := .loading, tin := some t.id }
      (∀ t, waits t →
        (free .a → ¬free .b ∨ (s.mixerRec .a).idleSince ≤ (s.mixerRec .b).idleSince → takes .a t)
        ∧ (free .b → ¬free .a ∨ (s.mixerRec .b).idleSince < (s.mixerRec .a).idleSince → takes .b t)
        ∧ (¬free .a → ¬free .b → s.mixerChoose = s))
      ∧ ((∀ t, ¬waits t) → s.mixerChoose = s)

/-- DOOR_OPEN at a mixer that is IDLE, LOADING or HOLDING changes the input alone. It stops the motor of a MIXING mixer,
which brakes with the time run kept, for MIX to be pending when it is STOPPED, and stops a mixer that clamps or unclamps
in its step; a mixer that brakes goes on braking, with nothing pending before it is STOPPED. DOOR joins the stop causes
and MIXER_DOOR is set. DOOR_CLOSE changes the input alone (R175). That mixer= of the notice is A or B is Assumption 61. -/
def Obligations.DoorStopsMixer : Prop :=
  ∀ (s : State) (m : Mix), s.powered = true →
    let x := s.mixerRec m
    let s' (b : Bool) : State := { s with inp := { s.inp with doors := s.inp.doors.set m.ix.val b } }
    exec (.doorClose m) s = .next (State.conclude s (s' false))
    ∧ (x.state = .idle ∨ x.state = .loading ∨ x.state = .holding →
        exec (.doorOpen m) s = .next (State.conclude s (s' true)))
    ∧ (x.state ≠ .idle → x.state ≠ .loading → x.state ≠ .holding →
      ∃ u, exec (.doorOpen m) s = .next (State.conclude s u) ∧ u.inp = (s' true).inp
        ∧ .door ∈ (u.mixerRec m).causes ∧ (u.mixerRec m).resumeTaken = false
        ∧ u.link = s.link.setFlag .mixerDoor [.word "mixer" (mixName m), .word "state" x.state.name]
        ∧ (x.state = .clamping → (u.mixerRec m).state = .stopped ∧ (u.mixerRec m).pending = some .clamp)
        ∧ (x.state = .unclamping → (u.mixerRec m).state = .stopped ∧ (u.mixerRec m).pending = some .unclamp)
        ∧ (x.state = .mixing → (u.mixerRec m).state = .braking ∧ (u.mixerRec m).pending = x.pending
            ∧ (u.mixerRec m).brakeTo = some .mix
            ∧ (u.mixerRec m).ends = s.now + 3000000 ∧ (u.mixerRec m).interrupted = true
            ∧ (u.mixerRec m).elapsed = min (x.elapsed + (s.now - x.since)) (x.program.getD 0 * 1000000))
        ∧ (x.state = .braking → (u.mixerRec m).state = .braking ∧ (u.mixerRec m).pending = x.pending
            ∧ (u.mixerRec m).brakeTo = x.brakeTo)
        ∧ (x.state = .stopped → (u.mixerRec m).state = .stopped ∧ (u.mixerRec m).pending = x.pending)
        ∧ Unchanged [.inputs, .mixers, .link] s u)

/-! ### The Tag Bus -/

/-- A start condition makes a FREE bus BUSY, a stop condition a BUSY bus FREE, and both lines high for 100 µs end the wait
after power-on, RESTART or a line error; a job whose start is not sent yet waits when a start condition is seen, or, where
it was abandoned, ends unreported, with no stop: its circuit, its image and its last result stay as they were, and the
jobs that wait keep their order. At the end of a step the head of the queue becomes active where no job is, with no loss
and no fault counted, a WRITE with the record of its image, the job's remaining volume and a write count one higher, up to
65,535; and a job that waits for the bus begins its transaction where the bus is FREE (R186, R193, R196, R200, R202). That
an abandoned job ends so is Assumption 72. That BUS_LINES_HIGH frees the bus only where it is BUSY for want of it, that a
stop condition leaves such a bus BUSY, and that no transaction begins while the controller still sends a stop, is
Assumption 31. -/
def Obligations.BusConditions : Prop :=
  (∀ s : State, s.powered = true →
    ((∀ a, s.tag.active = some a → a.step ≠ .phase .start) → exec .startConditionSeen s = .next (State.conclude s
        { s with tag := { s.tag with bus := if s.tag.bus = .free then .busy else s.tag.bus } }))
    ∧ (∀ a, s.tag.active = some a → a.step = .phase .start → a.abandoned = false →
        exec .startConditionSeen s = .next (State.conclude s
        { s with tag := { s.tag with
            bus := if s.tag.bus = .free then .busy else s.tag.bus, active := some { a with step := .wait s.now } } }))
    ∧ (∀ a, s.tag.active = some a → a.step = .phase .start → a.abandoned = true →
        ∃ u, exec .startConditionSeen s = .next (State.conclude s u) ∧ u.tag.active = none
          ∧ u.tag.bus = (if s.tag.bus = .free then .busy else s.tag.bus) ∧ u.tag.stopping = s.tag.stopping
          ∧ u.tag.images = s.tag.images ∧ u.tag.last = s.tag.last
          ∧ u.tag.queue ++ u.tag.backlog = s.tag.queue ++ s.tag.backlog ∧ Unchanged [.tagBus] s u)
    ∧ exec .stopConditionSeen s = .next (State.conclude s
        { s with tag := { s.tag with bus := if s.tag.bus = .busy then .free else s.tag.bus } })
    ∧ exec .busLinesHigh s = .next (State.conclude s
        { s with tag := { s.tag with bus := if s.tag.bus = .settling then .free else s.tag.bus } }))
  -- the next job and the next transaction
  ∧ ∀ s : State,
    let clear : Prop := s.tag.bus = .free ∧ s.tag.stopping = false
    let begins (a : ActiveJob) (rest : List TagJob) : Prop :=
      (clear → s.tagBegin = { s with tag := { s.tag with active := some { a with step := .phase .start }, queue := rest } })
      ∧ (¬clear → s.tagBegin = { s with tag := { s.tag with active := some a, queue := rest } })
    (∀ j rest, s.tag.active = none → s.tag.queue = j :: rest →
      (j.kind = .read → begins
        { job := j, point := .read, step := .wait s.now, losses := 0, faults := 0, record := [], buffer := [], pollLimit := 0
          abandoned := false } rest)
      ∧ ∀ remaining g, j.kind = .write remaining → s.tag.images[j.circuit] = some g → begins
        { job := j, point := .page 0, step := .wait s.now, losses := 0, faults := 0
          record := TagImage.bytes { g with remaining := remaining, writes := min 65535 (g.writes + 1) }
          buffer := [], pollLimit := 0, abandoned := false } rest)
    ∧ (∀ a since, s.tag.active = some a → a.step = .wait since → begins a s.tag.queue)
    ∧ ((s.tag.active = none ∧ s.tag.queue = [] ∨ ∃ a, s.tag.active = some a ∧ ∀ since, a.step ≠ .wait since) →
        s.tagBegin = s)

/-- How a transaction of a job that is not abandoned goes on: its start is followed by the address byte, the address byte
by the pointer byte, the pointer byte by the repeated start of a read or the eight bytes of a page, the repeated start by
the read address, and that by the 32 bytes read; a stop ends them. An acknowledged poll stores the page and goes on to the
next, and of the fourth page it ends the write in success: the record written is the circuit's image, its last result is
WRITE_OK, a stop is sent, and a RELEASING circuit is in SERVICE with its latch open. A refused poll is followed by a stop
and a wait for the next poll. What a phase sends: the address byte of the circuit's tag, 0x20 plus the circuit number in
its upper seven bits and 1 in its lowest bit for reading alone; the pointer byte 0 of a read, or 8 times the pages before
of a page; the record's eight bytes from there; an acknowledge of the bytes read but for the 32nd (R13, R185, R188, R191,
R193, R194, R201, R206). That events of the bus that fit no phase change nothing is Assumption 6, that LOST and LINE_ERROR
change nothing also where the job waits or stands in a gap while the controller still sends a stop Assumption 66, and that
the next page waits while the stop is sent Assumption 31. -/
def Obligations.TagPhasesFollow : Prop :=
  ∀ (s : State) (a : ActiveJob), s.powered = true → s.tag.active = some a → a.abandoned = false →
    let goes (p : BusPhase) : State := { s with tag := { s.tag with active := some { a with step := .phase p } } }
    (a.step = .phase .start → exec .taken s = .next (State.conclude s
        { s with tag := { s.tag with
            bus := if s.tag.bus = .free then .busy else s.tag.bus
            active := some { a with step := .phase .address } } }))
    ∧ (a.step = .phase .restart → exec .taken s = .next (State.conclude s (goes .readAddress)))
    ∧ (a.step = .phase .address → (∀ n, a.point ≠ .poll n) →
        exec .addrAck s = .next (State.conclude s (goes .pointer)))
    ∧ (∀ n, a.step = .phase .address → a.point = .poll n → n < 3 → exec .addrAck s = .next (State.conclude s
        { s with tag := { s.tag with
            stopping := true, active := some { a with point := .page (n + 1), step := .wait s.now } } }))
    ∧ (∀ n remaining, a.step = .phase .address → a.point = .poll n → 3 ≤ n → a.job.kind = .write remaining →
      let c := a.job.circuit
      ∃ u, exec .addrAck s = .next (State.conclude s u) ∧ u.tag.active = none ∧ u.tag.stopping = true
        ∧ u.tag.images[c] = some (TagImage.ofBytes a.record) ∧ u.tag.last[c] = .writeOk
        ∧ (∀ d : Circ, d ≠ c → u.tag.images[d] = s.tag.images[d] ∧ u.tag.last[d] = s.tag.last[d])
        ∧ u.tag.queue ++ u.tag.backlog = s.tag.queue ++ s.tag.backlog ∧ u.tag.bus = s.tag.bus
        ∧ ((s.circuit c).state = .releasing → (u.circuit c).state = .service ∧ (u.circuit c).latchOpen = true
            ∧ (u.circuit c).level = (s.circuit c).level ∧ (u.circuit c).lot = (s.circuit c).lot
            ∧ (u.circuit c).reason = (s.circuit c).reason ∧ OtherCircuits [c] s u ∧ Unchanged [.circuits, .tagBus, .care] s u)
        ∧ ((s.circuit c).state ≠ .releasing → Unchanged [.tagBus] s u))
    ∧ (∀ n, a.step = .phase .address → a.point = .poll n →
        exec .addrNak s = .next (State.conclude s (goes .stop)))
    ∧ (a.step = .phase .readAddress → exec .addrAck s = .next (State.conclude s
        { s with tag := { s.tag with active := some { a with step := .phase (.read 0), buffer := [] } } }))
    ∧ (∀ d, a.step = .phase .pointer →
        exec (.byteAck d) s = .next (State.conclude s (goes (if a.point = .read then .restart else .write 0))))
    ∧ (∀ d i, a.step = .phase (.write i) →
        exec (.byteAck d) s = .next (State.conclude s (goes (if i < 7 then .write (i + 1) else .stop))))
    ∧ (∀ d i, a.step = .phase (.read i) → exec (.byteAck d) s = .next (State.conclude s
        { s with tag := { s.tag with active := some { a with
            step := .phase (if i < 31 then .read (i + 1) else .stop), buffer := a.buffer ++ [d] } } }))
    ∧ (∀ row ∈ [Instr.taken, .addrAck, .addrNak, .byteAck 0, .byteNak, .lost, .lineError],
        (a.step = .gap ∨ (∃ since, a.step = .wait since)) → exec row s = .next (State.conclude s s))
    ∧ (s.tag.stopping = true → s.tagDrives = some .stop)
    ∧ (s.tag.stopping = false →
      let address (reading : Bool) : BusDrive :=
        .send (BitVec.ofNat 7 (0x20 + circNo a.job.circuit) ++ BitVec.ofBool reading)
      (a.step = .phase .start → s.tagDrives = some .start)
      ∧ (a.step = .phase .restart → s.tagDrives = some .repeatedStart)
      ∧ (a.step = .phase .stop → s.tagDrives = some .stop)
      ∧ (a.step = .phase .address → s.tagDrives = some (address false))
      ∧ (a.step = .phase .readAddress → s.tagDrives = some (address true))
      ∧ (a.step = .phase .pointer → a.point = .read → s.tagDrives = some (.send 0x00))
      ∧ (∀ n, a.step = .phase .pointer → a.point = .page n → s.tagDrives = some (.send (BitVec.ofNat 8 (8 * n))))
      ∧ (∀ n i x, a.step = .phase (.write i) → a.point = .page n → a.record[8 * n + i]? = some x →
          s.tagDrives = some (.send x))
      ∧ (∀ i, a.step = .phase (.read i) → s.tagDrives = some (.answer (i < 31)))
      ∧ ((a.step = .gap ∨ ∃ since, a.step = .wait since) → s.tagDrives = none))

/-- What a setback costs a job that is not abandoned: arbitration lost, or 50 ms of waiting for a bus that is not FREE,
counts a loss, and the third ends the job LINE_CONTENDED; a byte refused, a page's address byte refused behind page 1, or
a line error counts a fault, and the second ends it BUS_FAULT; below those counts the job waits for the bus. An address
byte refused in a read, or at page 1, ends it TAG_ABSENT, and 10 ms of polling TAG_WRITE_TIMEOUT. An ended job has its
result as its circuit's last one. A READ that ends so blocks a CHECKING circuit, with the reason TAG_ABSENT or, of any
other failure, LEVEL_LOST, and sets BLOCKED, and leaves any other circuit as it was; a WRITE sets TAG_FAULT, and a
RELEASING circuit is in SERVICE with its latch open, while any other stays. The controller sends a stop after a byte or an
address refused, and none after arbitration lost or a line error; a FREE bus that is lost is BUSY, and after a line error
the bus is BUSY until the lines have stood high. An abandoned job in a transaction ends unreported, its image and its last
result as they were, at the end of its byte, with a stop; where arbitration is lost or the line breaks it ends with none,
and where its own stop is on the lines, at the end of that (R10, R13, R186 to R188, R192, R194 to R198, R201, R202, R204,
R206). That a failure is reported at the refusing result, before its stop, is Assumption 31; that BUS_WAIT on a FREE bus
and a timeout without a poll change nothing is Assumption 6. That the end of the 10 ms ends the job at once, also with a
byte of the poll on the lines, with a stop but for a poll still in its start, is Assumption 64. That an abandoned job
completes its start or repeated start and then ends with a stop, and that its 10 ms no longer run, is Assumption 72; the
clock's part of BUS_WAIT is Assumption 10. -/
def Obligations.TagSetbacks : Prop :=
  (∀ (s : State) (a : ActiveJob), s.powered = true → s.tag.active = some a → a.abandoned = false →
    let afterLoss : BusState := if s.tag.bus = .free then .busy else s.tag.bus
    let ended (row : Instr) (f : TagFailure) (bus : BusState) (stop : Bool) : Prop :=
      ∃ u, exec row s = .next (State.conclude s u) ∧ u.tag.active = none
        ∧ u.tag.bus = bus ∧ u.tag.stopping = stop
        ∧ u.tag.queue ++ u.tag.backlog = s.tag.queue ++ s.tag.backlog
        ∧ u.tag.last[a.job.circuit] = (match a.job.kind with
          | .read => .read f
          | .write _ => .write f)
        ∧ u.tag.images = s.tag.images
        ∧ (∀ d : Circ, d ≠ a.job.circuit → u.tag.last[d] = s.tag.last[d])
        ∧ OtherCircuits [a.job.circuit] s u
        ∧ (a.job.kind = .read → (s.circuit a.job.circuit).state = .checking → f ≠ .tagInvalid →
            (u.circuit a.job.circuit).state = .blocked
              ∧ (u.circuit a.job.circuit).reason = some (if f = .tagAbsent then .tagAbsent else .levelLost)
              ∧ (u.circuit a.job.circuit).level = (s.circuit a.job.circuit).level
              ∧ (u.circuit a.job.circuit).lot = (s.circuit a.job.circuit).lot
              ∧ u.link.isSet (.blocked a.job.circuit) = true)
        ∧ (a.job.kind = .read → (s.circuit a.job.circuit).state ≠ .checking → u.circuits = s.circuits ∧ u.link = s.link)
        ∧ (a.job.kind ≠ .read → u.link.isSet (.tagFault a.job.circuit) = true
          ∧ ((s.circuit a.job.circuit).state = .releasing → (u.circuit a.job.circuit).state = .service
              ∧ (u.circuit a.job.circuit).latchOpen = true
              ∧ (u.circuit a.job.circuit).level = (s.circuit a.job.circuit).level
              ∧ (u.circuit a.job.circuit).lot = (s.circuit a.job.circuit).lot
              ∧ (u.circuit a.job.circuit).reason = (s.circuit a.job.circuit).reason)
          ∧ ((s.circuit a.job.circuit).state ≠ .releasing → u.circuits = s.circuits))
    let lossAt (row : Instr) (bus : BusState) (now : Nat) : Prop :=
      (2 ≤ a.losses → ended row .lineContended bus s.tag.stopping)
      ∧ (a.losses < 2 → exec row s = .next (State.conclude s
          { s with
            now := now
            tag := { s.tag with bus := bus, active := some { a with losses := a.losses + 1, step := .wait now } } }))
    let faultAt (row : Instr) (bus : BusState) (stop : Bool) : Prop :=
      (1 ≤ a.faults → ended row .busFault bus stop)
      ∧ (a.faults = 0 → exec row s = .next (State.conclude s
          { s with tag := { s.tag with
              bus := bus, stopping := stop, active := some { a with faults := 1, step := .wait s.now } } }))
    (∀ p, a.step = .phase p → lossAt .lost afterLoss s.now ∧ (p ≠ .start → faultAt .lineError .settling s.tag.stopping))
    ∧ (∀ since, a.step = .wait since → s.tag.bus ≠ .free → lossAt .busWait s.tag.bus (max s.now (since + 50000)))
    ∧ (∀ since, a.step = .wait since → s.tag.bus = .free → exec .busWait s = .next (State.conclude s s))
    ∧ (a.step = .phase .pointer ∨ (∃ i, a.step = .phase (.write i)) → faultAt .byteNak s.tag.bus true)
    ∧ (a.step = .phase .address → (∃ n, a.point = .page (n + 1)) → faultAt .addrNak s.tag.bus true)
    ∧ (a.step = .phase .address → (a.point = .read ∨ a.point = .page 0) → ended .addrNak .tagAbsent s.tag.bus true)
    ∧ (a.step = .phase .readAddress → ended .addrNak .tagAbsent s.tag.bus true)
    ∧ (∀ n, a.point = .poll n →
      ((∀ p, a.step = .phase p → p = .start) → ended .tagWriteTimeout .writeTimeout s.tag.bus s.tag.stopping)
      ∧ (∀ p, a.step = .phase p → p ≠ .start → ended .tagWriteTimeout .writeTimeout s.tag.bus true))
    ∧ ((∀ n, a.point ≠ .poll n) → exec .tagWriteTimeout s = .next (State.conclude s s)))
  -- an abandoned job
  ∧ ∀ (s : State) (a : ActiveJob) (p : BusPhase), s.powered = true → s.tag.active = some a → a.abandoned = true →
    a.step = .phase p →
    let afterLoss : BusState := if s.tag.bus = .free then .busy else s.tag.bus
    let afterStop : BusState := if s.tag.bus = .busy then .free else s.tag.bus
    let ends (row : Instr) (bus : BusState) (stop : Bool) : Prop :=
      ∃ u, exec row s = .next (State.conclude s u) ∧ u.tag.active = none ∧ u.tag.bus = bus ∧ u.tag.stopping = stop
        ∧ u.tag.images = s.tag.images ∧ u.tag.last = s.tag.last
        ∧ u.tag.queue ++ u.tag.backlog = s.tag.queue ++ s.tag.backlog ∧ Unchanged [.tagBus] s u
    (p = .start → ends .taken afterLoss true)
    ∧ (p = .restart → ends .taken s.tag.bus true)
    ∧ (p = .address ∨ p = .readAddress → ends .addrAck s.tag.bus true ∧ ends .addrNak s.tag.bus true)
    ∧ (p = .pointer ∨ (∃ i, p = .write i) → ends .byteNak s.tag.bus true ∧ ∀ d, ends (.byteAck d) s.tag.bus true)
    ∧ (∀ i, p = .read i → ∀ d, ends (.byteAck d) s.tag.bus true)
    ∧ (p = .stop → s.tag.stopping = false → ends .stopSent afterStop false)
    ∧ (s.tag.stopping = true →
        exec .stopSent s = .next (State.conclude s { s with tag := { s.tag with bus := afterStop, stopping := false } }))
    ∧ ends .lost afterLoss s.tag.stopping
    ∧ (p ≠ .start → ends .lineError .settling s.tag.stopping)
    ∧ exec .tagWriteTimeout s = .next (State.conclude s s)

/-- STOP_SENT: the stop of a transaction the job has gone on from changes the bus alone; the stop of a page begins its
polling, with 10 ms for it; the stop of a refused poll begins the wait for the next, which POLL_INTERVAL ends; the stop
of a read judges its 32 bytes: a record whose sum is 0 modulo 256 and whose format is 2 becomes the circuit's image, and
a CHECKING circuit of the same colourant code takes its lot and moves on to PRIMING, or is BLOCKED with WRONG_COLOURANT;
any other record ends the job TAG_INVALID (R9, R10, R190 to R194). That the stop of a transaction the job has gone on
from changes the bus alone is Assumption 31, and that POLL_INTERVAL outside the wait changes nothing Assumption 6. -/
def Obligations.TagStopsAndPolls : Prop :=
  ∀ (s : State) (a : ActiveJob), s.powered = true → s.tag.active = some a → a.abandoned = false →
    let bus : BusState := if s.tag.bus = .busy then .free else s.tag.bus
    let c := a.job.circuit
    let stopping := a.step = .phase .stop ∧ s.tag.stopping = false
    (∀ bs : List (BitVec 8), recordValid bs = true ↔ (bs.map BitVec.toNat).sum % 256 = 0 ∧ bs[0]? = some 0x02#8)
    ∧ (s.tag.stopping = true → exec .stopSent s = .next (State.conclude s
        { s with tag := { s.tag with bus := bus, stopping := false } }))
    ∧ (∀ n, stopping → a.point = .page n → exec .stopSent s = .next (State.conclude s
        { s with tag := { s.tag with
            bus := bus
            active := some { a with point := .poll n, step := .wait s.now, pollLimit := s.now + 10000 } } }))
    ∧ (∀ n, stopping → a.point = .poll n → exec .stopSent s = .next (State.conclude s
        { s with tag := { s.tag with bus := bus, active := some { a with step := .gap } } }))
    ∧ (a.step = .gap → exec .pollInterval s = .next (State.conclude s
        { s with tag := { s.tag with active := some { a with step := .wait s.now } } }))
    ∧ (a.step ≠ .gap → exec .pollInterval s = .next (State.conclude s s))
    ∧ (stopping → a.point = .read → recordValid a.buffer = true →
      let g := TagImage.ofBytes a.buffer
      ∃ u, exec .stopSent s = .next (State.conclude s u) ∧ u.tag.active = none
        ∧ u.tag.images[c] = some g ∧ u.tag.last[c] = .readOk
        ∧ ((s.circuit c).state = .checking → (s.circuit c).cfg.code = some g.code →
            (u.circuit c).state = .priming ∧ (u.circuit c).lot = some g.lot ∧ (u.circuit c).reason = none
              ∧ (u.circuit c).level = (if (s.circuit c).checkKind = .insertion
                  then min (g.remaining * 100) ((s.circuit c).cfg.capacity * 1000) else (s.circuit c).level))
        ∧ ((s.circuit c).state = .checking → (s.circuit c).cfg.code ≠ some g.code →
            (u.circuit c).state = .blocked ∧ (u.circuit c).reason = some .wrongColourant)
        ∧ ((s.circuit c).state ≠ .checking → u.circuits = s.circuits))
    ∧ (stopping → a.point = .read → a.job.kind = .read → recordValid a.buffer = false →
      ∃ u, exec .stopSent s = .next (State.conclude s u) ∧ u.tag.active = none
        ∧ u.tag.images = s.tag.images ∧ u.tag.last[c] = .read .tagInvalid
        ∧ ((s.circuit c).state = .checking →
            (u.circuit c).state = .blocked ∧ (u.circuit c).reason = some .tagInvalid))

/-- The record of a tag. An image whose texts and numbers fit the fields is written as 32 bytes, which stand at the
tag's byte addresses 0 to 31: the format 0x02, the code padded with spaces to 4 characters, the 8 characters of the lot,
the fill volume, the remaining volume, the fill day and the write count in two bytes each, the high byte first, ten
zeros, and the check byte that makes the sum of all 32 bytes 0 modulo 256. The bytes pass the tests of a read and read
back as the same image. They are written in four pages of 8 bytes: page n, counted from 0, is sent behind the pointer
byte 8n, and its byte i is byte 8n + i of the record (R189). -/
def Obligations.TagRecordRoundTrip : Prop :=
  ∀ g : TagImage, g.code.length ≤ 4 → g.code.getLast? ≠ some 0x20#8 → g.lot.length = 8 → g.fill < 65536 →
    g.remaining < 65536 → g.day < 65536 → g.writes < 65536 →
    g.bytes.length = 32 ∧ g.bytes[0]? = some 0x02#8
    ∧ (g.bytes.drop 1).take 4 = g.code ++ List.replicate (4 - g.code.length) 0x20#8
    ∧ (g.bytes.drop 5).take 8 = g.lot
    ∧ (∀ x ∈ [(13, g.fill), (15, g.remaining), (17, g.day), (19, g.writes)],
        256 * (g.bytes.getD x.1 0).toNat + (g.bytes.getD (x.1 + 1) 0).toNat = x.2)
    ∧ (g.bytes.drop 21).take 10 = List.replicate 10 0x00#8
    ∧ (g.bytes.map BitVec.toNat).sum % 256 = 0
    ∧ recordValid g.bytes = true ∧ TagImage.ofBytes g.bytes = g
    ∧ ∀ (s : State) (a : ActiveJob) (n : Nat), s.tag.active = some a → s.tag.stopping = false → a.point = .page n →
        a.record = g.bytes → n < 4 →
        (a.step = .phase .pointer → s.tagDrives = some (.send (BitVec.ofNat 8 (8 * n))))
        ∧ ∀ i, i < 8 → a.step = .phase (.write i) → s.tagDrives = (g.bytes[8 * n + i]?).map BusDrive.send

/-! ### Care -/

/-- STIR_END stops the circuit's stirrer, and an activity that waited for it runs. STIR_BOUNDARY makes a stir due on every
circuit whose class the boundary belongs to: each quarter of an hour for Q15, each fourth for H1, each sixteenth for H4,
unless one is due or running; SITE_MINUTE advances a set site time and makes DAILY stirs due at the daily minute.
PURGE_INTERVAL_ELAPSED makes a purge due where the interval has run out on a circuit in service. At the end of a step the
due list is looked over in its order, and a stir begins on a circuit in READY or EMPTY whose pump is idle, on a machine
that is not stopped, while fewer than four run; a purge that is due is asked for in READY or EMPTY with the cap closed,
the machine not stopped, no stir running and none asked for, and stands in the next place of a standalone REFILL where
that is empty, also of one that ends at its burst boundary (R95, R101, R207 to R213). Which of a purge and a stir of one
circuit comes first is free (Assumption 4). That boundaries are counted in quarters of an hour is Assumption 38, that
circuits in SERVICE and UNFITTED are added too Assumption 23, that an end nothing awaits changes nothing Assumption 6, and
the clock's part of each step Assumption 10. -/
def Obligations.CareEvents : Prop :=
  (∀ s : State, s.powered = true →
    (∀ c, (s.circuit c).stir = none → exec (.stirEnd c) s = .next (State.conclude s s))
    ∧ (∀ c st, (s.circuit c).stir = some st →
      ∃ u, exec (.stirEnd c) s = .next (State.conclude s u) ∧ u.now = max s.now st.ends
        ∧ u.circuit c = { s.circuit c with stir := none } ∧ OtherCircuits [c] s u ∧ OtherPumps c s u
        ∧ u.pump c = { s.pump c with activity := (s.pump c).activity.map fun a =>
            if a.run = .waitingStir then { a with run := .running } else a }
        ∧ Unchanged [.now, .circuits, .drive] s u)
    ∧ (∃ u, exec .stirBoundary s = .next (State.conclude s u)
        ∧ let q := s.cares.quarters + 1
          let t := s.cares.origin + q * 900000000
          u.now = max s.now t ∧ u.cares = { s.cares with quarters := q, due := u.cares.due }
          ∧ (∀ x, x ∈ u.cares.due ↔ x ∈ s.cares.due ∨ (x.2 = t ∧ (s.circuit x.1).stir = none
              ∧ (∀ y ∈ s.cares.due, y.1 ≠ x.1) ∧ ((s.circuit x.1).cfg.stir = .q15
                ∨ ((s.circuit x.1).cfg.stir = .h1 ∧ 4 ∣ q) ∨ ((s.circuit x.1).cfg.stir = .h4 ∧ 16 ∣ q))))
          ∧ Unchanged [.now, .care] s u)
    ∧ (s.cares.siteTime = none → exec .siteMinute s = .next (State.conclude s s))
    ∧ (∀ m, s.cares.siteTime = some m →
      let m' := (m + 1) % 1440
      let t := s.cares.minuteStart + 60000000
      ∃ u, exec .siteMinute s = .next (State.conclude s u) ∧ u.now = max s.now t
        ∧ u.cares = { s.cares with siteTime := some m', minuteStart := t, due := u.cares.due }
        ∧ (∀ x, x ∈ u.cares.due ↔ x ∈ s.cares.due ∨ (m' = s.cares.daily ∧ x.2 = t ∧ (s.circuit x.1).stir = none
            ∧ (∀ y ∈ s.cares.due, y.1 ≠ x.1) ∧ (s.circuit x.1).cfg.stir = .daily))
        ∧ Unchanged [.now, .care] s u)
    ∧ ∀ c, let r := s.circuit c
        let t := max s.now (r.lastDelivery + r.cfg.purgeInt * 60000000)
        (r.cfg.purgeInt ≠ 0 → r.state = .ready ∨ r.state = .empty → r.purgeDue = none →
          exec (.purgeIntervalElapsed c) s = .next (State.conclude s
            ({ s with now := t }.setCircuit c fun r => { r with purgeDue := some .interval })))
        ∧ (r.cfg.purgeInt = 0 ∨ (r.state ≠ .ready ∧ r.state ≠ .empty) ∨ r.purgeDue ≠ none →
          exec (.purgeIntervalElapsed c) s = .next (State.conclude s s)))
    -- stirs and purges that begin
    ∧ ∀ s : State,
      let inService (u : State) (c : Circ) : Prop := (u.circuit c).state = .ready ∨ (u.circuit c).state = .empty
      let canStir (u : State) (c : Circ) : Prop := inService u c ∧ (u.pump c).activity = none ∧ u.stopped = false
        ∧ (allCircuits.filter fun d => (u.circuit d).stir.isSome).length < 4
      let canPurge (c : Circ) : Prop := inService s c ∧ (s.circuit c).purgeDue ≠ none ∧ s.stn.cap = .closed
        ∧ s.stopped = false ∧ (s.circuit c).stir = none ∧ (∀ a, (s.pump c).activity = some a → a.kind ≠ .purge)
        ∧ ∀ q, (s.pump c).next = some q → q.kind ≠ .purge
      (∀ x rest, s.cares.due = x :: rest →
        let begun : State := { s with
          cares := { s.cares with due := s.cares.due.filter fun y => y.1 != x.1 }
          circuits := s.circuits.set x.1.val { s.circuit x.1 with
            stir := some ⟨s.now + (s.circuit x.1).cfg.stirDur * 1000000, x.2⟩ } }
        (canStir s x.1 → s.stirsLook = rest.foldl (fun u y => if u.canStir y.1 then u.startStir y else u) begun)
        ∧ (¬canStir s x.1 → s.stirsLook = rest.foldl (fun u y => if u.canStir y.1 then u.startStir y else u) s))
      ∧ (∀ c, s.canStir c = true ↔ canStir s c)
      ∧ (s.cares.due = [] → s.stirsLook = s)
      ∧ (∀ c, let n := (s.circuit c).cfg.purgeSteps
        (¬canPurge c → s.askPurge c = s)
        ∧ (canPurge c → (s.pump c).activity = none → Unchanged [.drive] s (s.askPurge c) ∧ OtherPumps c s (s.askPurge c)
          ∧ ((s.askPurge c).pump c).activity = some
            { kind := .purge, owner := .care, planned := n, delivered := 0
              phase := match (s.pump c).piston with
                | .known p => if p < n then .refill else .deliver
                | .unknown _ => .refill
              run := .running, stopSeen := false, atBoundary := none, restarted := false })
        ∧ (∀ a, canPurge c → (s.pump c).activity = some a →
          (a.kind = .refill → (s.pump c).next = none →
            s.askPurge c = s.setPump c fun p => { p with next := some ⟨.purge, .care, n⟩ })
          ∧ (a.kind ≠ .refill ∨ (s.pump c).next ≠ none → s.askPurge c = s)))
      ∧ s.purgesLook = allCircuits.foldl (fun u c => u.askPurge c) s
      ∧ ((∃ x ∈ s.cares.due, canStir s x.1 ∧ canPurge x.1) →
        let u : State := { s with choices := s.choices + 1 }
        s.careLook = if Config.pumpFirst s.choices = true then u.purgesLook.stirsLook else u.stirsLook.purgesLook)
      ∧ ((∀ x ∈ s.cares.due, ¬(canStir s x.1 ∧ canPurge x.1)) → s.careLook = s.purgesLook.stirsLook)

/-- TIME with a minute sets the site time and the phase origin, STIRDAY with a minute the daily minute, which is queued
for the store; without one they report. PURGE makes a forced purge due and tells whether one was due, STIR a stir unless
one is due or running; both are refused STOPPED while the machine is stopped, and STATE outside READY and EMPTY (R207,
R214, R215). The field minute= of the reports is the model's (Assumption 13). A request row keeps no input place
(Assumption 5). -/
def Obligations.CareRequests : Prop :=
  ∀ (s : State) (fs : Fields), s.powered = true →
    (fs.malformed ["minute"] [] ["minute"] = false →
      (fs.num "minute" = none → exec (.stirday fs) s =
        .next (s.pushReply false (.ok [.num "minute" s.cares.daily])))
      ∧ (∀ m, fs.num "minute" = none → s.cares.siteTime = some m →
        exec (.time fs) s = .next (s.pushReply false (.ok [.num "minute" m])))
      ∧ ∀ m, fs.num "minute" = some m →
        (1440 ≤ m → ∀ row ∈ [Instr.time fs, .stirday fs], exec row s = .next (s.pushReply false (.no .range)))
        ∧ (m < 1440 → exec (.time fs) s = .next (State.conclude s
          { s.pushReply false (.ok []) with
            cares := { s.cares with siteTime := some m, minuteStart := s.now, origin := s.now, quarters := 0 } }))
        ∧ (m < 1440 → s.store.fifo.length < 8 → exec (.stirday fs) s = .next (State.conclude s
          { s.pushReply false (.ok []) with
            cares := { s.cares with daily := m }
            store := { s.store with fifo := s.store.fifo ++ [.daily m] } })))
    ∧ ∀ c, fs.malformed ["circuit"] ["circuit"] ["circuit"] = false → (fs.num "circuit").bind circ? = some c →
      let r := s.circuit c
      (s.stopped = true → ∀ row ∈ [Instr.purge fs, .stir fs], exec row s = .next (s.pushReply false (.no .stopped)))
      ∧ (s.stopped = false → r.state ≠ .ready → r.state ≠ .empty →
        ∀ row ∈ [Instr.purge fs, .stir fs], exec row s = .next (s.pushReply false (.no .state)))
      ∧ (s.stopped = false → r.state = .ready ∨ r.state = .empty →
        exec (.purge fs) s = .next (State.conclude s
          ((s.pushReply false (.ok [.word "due" (if r.purgeDue = none then "NEW" else "ALREADY")])).setCircuit c
            fun r => { r with purgeDue := some .forced }))
        ∧ (r.stir ≠ none → exec (.stir fs) s =
          .next (State.conclude s (s.pushReply false (.ok [.word "stir" "RUNNING"]))))
        ∧ (r.stir = none → (∃ x ∈ s.cares.due, x.1 = c) → exec (.stir fs) s =
          .next (State.conclude s (s.pushReply false (.ok [.word "stir" "ALREADY"]))))
        ∧ (r.stir = none → (∀ x ∈ s.cares.due, x.1 ≠ c) →
          ∃ u, exec (.stir fs) s = .next (State.conclude s u) ∧ u.cares = { s.cares with due := u.cares.due }
            ∧ (∀ x, x ∈ u.cares.due ↔ x ∈ s.cares.due ∨ x = (c, s.now))
            ∧ u.link = s.link.push (.reply false (.ok [.word "stir" "DUE"])) ∧ Unchanged [.care, .link] s u))

/-! ### The Counter Link -/

/-- The first character of a message takes a free place, unless a message is in reception or all four are in use; a
message discarded with all four in use counts an overrun, up to 255. At its LF the message in reception is taken once
every entry in front is answered: its reply, which keeps the place, joins the output list; an OVERRUN entry behind a
message in reception waits for it, and is answered after it. An empty line is ignored. A message that is no request is
answered SYNTAX, an unknown verb UNKNOWN. At LINE_SENT the next waiting line begins; a reply that kept a place frees it,
and where messages were discarded an OVERRUN entry takes the place and one is counted off (R219 to R224). That an LF
with no message in reception, a first character during a reception, and a discard with a place free change nothing is
Assumption 35. That LINE_SENT with nothing being sent changes nothing is Assumption 6. -/
def Obligations.MessagesTakeAndFreePlaces : Prop :=
  ∀ s : State, s.powered = true →
    exec .messageFirstCharacter s = .next
        (if s.link.inputs.length < 4 ∧ .receiving ∉ s.link.inputs then
          { s with link := { s.link with inputs := s.link.inputs ++ [.receiving] } } else s)
    ∧ exec .messageDiscarded s = .next
        (if s.link.inputs.length < 4 then s
          else { s with link := { s.link with overrun := min 255 (s.link.overrun + 1) } })
    ∧ (∀ chars, .receiving ∉ s.link.inputs ∨ emptyLine chars = true → exec (.messageReceived chars) s = .next s)
    ∧ (∀ chars rest, emptyLine chars = false →
      s.link.inputs = rest ++ [.receiving] → (∀ e ∈ rest, e = .answered) → rest.length < 4 →
      let taken : State := { s with link := { s.link with inputs := rest ++ [.answered] } }
      exec (.messageReceived chars) s = .next (taken.give true (messageAnswer chars taken))
      ∧ ((dropCr chars).length > 200 ∨ messageText (dropCr chars) = none →
        exec (.messageReceived chars) s = .next (taken.pushReply true (.no .syntaxError)))
      ∧ ∀ verb, chars = verb.map .chr → verb.length ≤ 200 → verb ≠ [] → (∀ ch ∈ verb, 33 ≤ ch.toNat ∧ ch.toNat ≤ 126) →
        (∀ x ∈ verbTable, txt x.1 ≠ verb) →
        exec (.messageReceived chars) s = .next (taken.pushReply true (.no .unknown)))
    ∧ (∀ chars rest, emptyLine chars = false →
      s.link.inputs = rest ++ [.receiving, .overrun] → (∀ e ∈ rest, e = .answered) → rest.length < 3 →
      let taken : State := { s with link := { s.link with inputs := rest ++ [.answered, .overrun] } }
      let t := taken.give true (messageAnswer chars taken)
      exec (.messageReceived chars) s = .next (State.pushReply
        { t with link := { t.link with inputs := rest ++ [.answered, .answered] } } true (.no .overrun)))
    ∧ (s.link.sending = none → exec .lineSent s = .next s)
    ∧ (∀ x, s.link.sending = some x → x.keepsPlace = false → exec .lineSent s = .next
      { s with link := { s.link with sending := s.link.output.head?, output := s.link.output.tail } })
    ∧ ∀ r, s.link.sending = some (.reply true r) → (∀ e ∈ s.link.inputs, e = .answered ∨ e = .receiving) →
      (s.link.overrun = 0 → exec .lineSent s = .next
        { s with link := { s.link with
            inputs := s.link.inputs.erase .answered, sending := s.link.output.head?, output := s.link.output.tail } })
      ∧ (0 < s.link.overrun → .receiving ∈ s.link.inputs → exec .lineSent s = .next
        { s with link := { s.link with
            inputs := s.link.inputs.erase .answered ++ [.overrun], overrun := s.link.overrun - 1
            sending := s.link.output.head?, output := s.link.output.tail } })
      ∧ (0 < s.link.overrun → .receiving ∉ s.link.inputs →
        ∃ t, exec .lineSent s = .next t ∧ t.link.inputs = s.link.inputs.erase .answered ++ [.answered]
          ∧ t.link.overrun = s.link.overrun - 1
          ∧ t.link.sending.toList ++ t.link.output = s.link.output ++ [.reply true (.no .overrun)]
          ∧ Unchanged [.link] s t)

/-- FCLEAR clears the flags of class=ALL, of one class, of a flag name, or of a circuit flag name and a circuit,
withdraws their waiting notices, and tells how many were set; with neither flag= nor class= it is refused SYNTAX. NOTICE
with mode= sets the enable of a class, or of all eight: a class turned OFF has its waiting notices withdrawn, while
every other waiting line and the flags stay; a class turned ON from OFF has each set flag of it that has no waiting
notice join the output list, in table order; a class that is so already stays, and nothing changes but the reply (R225
to R228). The fields of the reply to NOTICE without mode= are the model's (Assumption 13). A request row keeps no input
place (Assumption 5). -/
def Obligations.FlagsAndNotices : Prop :=
  ∀ (s : State) (fs : Fields), s.powered = true →
    let cleared (p : Flag → Bool) : State :=
      let l := s.link.push (.reply false (.ok [.num "cleared" (s.link.flags.filter fun x => p x.1).length]))
      { s with link := { l with
          flags := s.link.flags.filter fun x => !p x.1
          output := l.output.filter fun x => match x with
            | .notice f _ => !p f
            | .reply _ _ => true } }
    let done : Link := s.link.push (.reply false (.ok []))
    let kept (off : FlagClass → Bool) : List OutLine := done.output.filter fun x => match x with
      | .notice f _ => !off f.cls
      | .reply _ _ => true
    let wake (on : FlagClass → Bool) : List OutLine := Flag.all.filterMap fun f =>
      if on f.cls && !s.link.noticeWaits f then
        (s.link.flags.find? fun x => x.1 == f).map fun x => .notice f x.2
      else none
    (fs.malformed ["flag", "class", "circuit"] [] ["circuit"] = false →
      (fs.get "flag" = none → fs.get "class" = none → exec (.fclear fs) s = .next (s.pushReply false (.no .syntaxError)))
      ∧ (fs.get "flag" = none → fs.has "circuit" = false →
        (fs.get "class" = some (txt "ALL") → exec (.fclear fs) s = .next (State.conclude s (cleared fun _ => true)))
        ∧ ∀ k : FlagClass, fs.get "class" = some (txt k.name) →
          exec (.fclear fs) s = .next (State.conclude s (cleared fun f => f.cls == k)))
      ∧ ∀ g : Flag, fs.get "flag" = some (txt g.name) → fs.get "class" = none →
        (fs.has "circuit" = false →
          exec (.fclear fs) s = .next (State.conclude s (cleared fun f => f.name == g.name)))
        ∧ ∀ c, g.circuit? = some c → fs.num "circuit" = some (circNo c) →
          exec (.fclear fs) s = .next (State.conclude s (cleared fun f => f == g)))
    ∧ (fs.malformed ["class", "mode"] ["class"] [] = false →
      (∀ k : FlagClass, fs.get "class" = some (txt k.name) →
        (fs.get "mode" = none → exec (.notice fs) s = .next (s.pushReply false (.ok
          [.word "class" k.name, .word "mode" (if s.link.isEnabled k then "ON" else "OFF")])))
        ∧ ∀ on : Bool, fs.get "mode" = some (txt (if on then "ON" else "OFF")) →
          (s.link.isEnabled k = on → exec (.notice fs) s = .next (State.conclude s { s with link := done }))
          ∧ (s.link.isEnabled k ≠ on → exec (.notice fs) s = .next (State.conclude s
            { s with link := { done with
                enabled := s.link.enabled.set k.ix.val on
                output := if on then done.output ++ wake (· == k) else kept (· == k) } })))
      ∧ (fs.get "class" = some (txt "ALL") → ∀ on : Bool, fs.get "mode" = some (txt (if on then "ON" else "OFF")) →
        exec (.notice fs) s = .next (State.conclude s
          { s with link := { done with
              enabled := Vector.replicate 8 on
              output := if on then done.output ++ wake (fun k => !s.link.isEnabled k) else kept s.link.isEnabled } })))

/-! ### The machine as a whole -/

/-- STOP_INPUT_ACTIVE stops the machine and sets STOP: every dose or refill with no burst in flight is STOPPED, one with a
burst in flight stops at its boundary; a purge or prime is abandoned, at once or at its boundary, with its delivered steps
reported, a purge in phase REFILL leaving a STOPPED standalone REFILL and a prime being held; a moving cap halts, a
running settle is abandoned, every move halts, every stirrer stops, no press cycle is left in flight, and a mixer that
clamps, mixes or unclamps is stopped as by its door. Every stir that ran goes back into the due list with the due time it
had when it first came due, in the list's order. STOP_INPUT_RELEASED changes the input alone. RESUME is refused STATE
while the input is active, and while nothing is stopped; else the machine runs again: halted motions and settles begin
anew, a STOPPED dose or refill runs, judged again for a refill, a held prime of a PRIMING circuit is created from the
start, and a STOPPED mixer with its door closed runs its pending step, while one that brakes has its RESUME taken, and
goes on at the end of its braking (MixerStepsFollow; R15, R17, R97, R107, R109, R121, R122, R158, R166, R176, R177, R211,
R216, R229). That the prime is created at RESUME ahead of a due stir of its circuit, and RUNNING unless a stir runs
already, is Assumption 39, against R216, which lets the two compete; that a RESUME before the boundary lifts the pending
stop is Assumption 47; the owner of the standalone REFILL is Assumption 56; that a stroke of an UNKNOWN piston begins anew
at RESUME is Assumption 60; that a mixer whose RESUME is taken still counts as braking toward STOPPED is Assumption 63; a
request row keeps no input place (Assumption 5). -/
def Obligations.StopHaltsMachine : Prop :=
  ∀ s : State, s.powered = true →
    (∃ u, exec .stopInputActive s = .next (State.conclude s u) ∧ u.stopped = true ∧ u.inp = { s.inp with stop := true }
      ∧ u.link.isSet .stop = true
      ∧ (∀ c a, (s.pump c).activity = some a → a.kind = .dose ∨ a.kind = .refill →
          ((s.pump c).burst = none → ∃ b, (u.pump c).activity = some b ∧ b.run = .stopped ∧ b.stopSeen = true
            ∧ b.delivered = a.delivered ∧ b.planned = a.planned)
          ∧ ((s.pump c).burst ≠ none → a.atBoundary = none → ∃ b, (u.pump c).activity = some b
            ∧ b.atBoundary = some .stop ∧ (u.pump c).burst = (s.pump c).burst))
      -- purges and primes
      ∧ (∀ c a, (s.pump c).activity = some a → a.kind = .purge ∨ a.kind = .prime →
          (a.kind = .prime → (u.pump c).heldPrime = true)
          ∧ ((s.pump c).burst = none → (s.pump c).next = none →
            RunReported c a a.delivered s u
            ∧ (a.kind = .prime ∨ a.phase = .deliver → (u.pump c).activity = none)
            ∧ (a.kind = .purge → a.phase = .refill → (u.pump c).activity = some
                { kind := .refill, owner := .table, planned := 0, delivered := 0, phase := .refill, run := .stopped
                  stopSeen := true, atBoundary := none, restarted := false }))
          ∧ ((s.pump c).burst ≠ none → (∀ w, a.atBoundary ≠ some (.cut w)) → ∃ b, (u.pump c).activity = some b
              ∧ b.atBoundary = some .abandon ∧ b.kind = a.kind ∧ b.delivered = a.delivered
              ∧ (u.pump c).burst = (s.pump c).burst))
      ∧ (∀ e, s.stn.cap = .opening e → u.stn.cap = .halted .opened)
      ∧ (∀ e, s.stn.cap = .closing e → u.stn.cap = .halted .closed)
      ∧ (∀ e, s.stn.settle = .running e → u.stn.settle = .held)
      ∧ (∀ v ∈ u.track.moves, v.deadline = none) ∧ (∀ c, (u.circuit c).stir = none)
      ∧ u.cares = { s.cares with due := u.cares.due }
      ∧ (∀ x, x ∈ u.cares.due ↔ x ∈ s.cares.due ∨ (s.circuit x.1).stir.map (·.due) = some x.2)
      ∧ ((s.cares.due.Pairwise fun x y => dueBefore y x = false) → u.cares.due.Pairwise fun x y => dueBefore y x = false)
      ∧ u.lid.cycleEnd = none
      ∧ (∀ m, (u.mixerRec m).state ≠ .clamping ∧ (u.mixerRec m).state ≠ .mixing ∧ (u.mixerRec m).state ≠ .unclamping)
      ∧ ∀ m, let x := s.mixerRec m
        let y := u.mixerRec m
        (x.state = .idle ∨ x.state = .loading ∨ x.state = .holding → y = x)
        ∧ (x.state ≠ .idle → x.state ≠ .loading → x.state ≠ .holding → .stop ∈ y.causes ∧ y.resumeTaken = false)
        ∧ (x.state = .clamping → y.state = .stopped ∧ y.pending = some .clamp)
        ∧ (x.state = .unclamping → y.state = .stopped ∧ y.pending = some .unclamp)
        ∧ (x.state = .mixing → y.state = .braking ∧ y.brakeTo = some .mix ∧ y.ends = s.now + 3000000
            ∧ y.interrupted = true ∧ y.elapsed = min (x.elapsed + (s.now - x.since)) (x.program.getD 0 * 1000000))
        ∧ (x.state = .braking → y.state = .braking ∧ y.brakeTo = x.brakeTo ∧ y.ends = x.ends)
        ∧ (x.state = .stopped → y.state = .stopped ∧ y.pending = x.pending))
    ∧ exec .stopInputReleased s = .next { s with inp := { s.inp with stop := false } }
    ∧ (s.inp.stop = true → exec (.resume []) s = .next (s.pushReply false (.no .state)))
    ∧ (s.inp.stop = false → s.stopped = false → s.mixerHalting = false →
        exec (.resume []) s = .next (s.pushReply false (.no .state)))
    ∧ (s.inp.stop = false → s.stopped = true ∨ s.mixerHalting = true →
      ∃ u, exec (.resume []) s = .next (State.conclude s u) ∧ u.stopped = false ∧ u.cares = s.cares
        ∧ (s.stn.cap = .halted .opened → u.stn.cap = .opening (s.now + 2000000))
        ∧ (s.stn.cap = .halted .closed → u.stn.cap = .closing (s.now + 2000000))
        ∧ (s.stn.settle = .held → u.stn.settle = .running (s.now + 1500000))
        ∧ (∀ v ∈ u.track.moves, v.deadline ≠ none)
        -- the pumps
        ∧ (∀ c a, (s.pump c).activity = some a → (s.pump c).heldPrime = false →
          let run : RunState := if (s.circuit c).stir.isSome then .waitingStir else .running
          (a.run = .stopped → a.kind = .dose → (u.pump c).activity = some
              { a with
                run := run
                phase := match (s.pump c).piston with
                  | .unknown _ => .refill
                  | .known p => if p < (if a.planned ≤ 25600 then a.planned - a.delivered else 25600) then .refill
                      else .deliver })
          ∧ (a.run = .stopped → a.kind = .refill →
            ((∀ p, (s.pump c).piston = .known p → p < 25600) →
              (u.pump c).activity = some { a with run := run, phase := .refill })
            ∧ (∀ p, (s.pump c).piston = .known p → 25600 ≤ p → (s.pump c).next = none → (u.pump c).activity = none))
          ∧ (a.run ≠ .stopped → a.atBoundary = some .stop →
              (u.pump c).activity = some { a with atBoundary := none, stopSeen := true })
          ∧ (a.run ≠ .stopped → a.atBoundary ≠ some .stop → u.pump c = s.pump c))
        ∧ (∀ c, (s.pump c).heldPrime = true → (s.pump c).activity = none →
          ((s.circuit c).state = .priming → (u.pump c).heldPrime = false ∧ (u.pump c).activity = some
            { kind := .prime, owner := .table, planned := 3200, delivered := 0, phase := .refill
              run := if (s.circuit c).stir.isSome then .waitingStir else .running
              stopSeen := false, atBoundary := none, restarted := false })
          ∧ ((s.circuit c).state ≠ .priming → u.pump c = { s.pump c with heldPrime := false }))
        -- the mixers
        ∧ (∀ m, let x := s.mixerRec m
          let begun (g : MixerState) (k : Clamp) (length : Nat) : Mixer :=
            { x with
              state := g, clamp := k, since := s.now, ends := s.now + length, causes := [], pending := none
              resumeTaken := false }
          (s.inp.doors[m.ix] = true → u.mixerRec m = x)
          ∧ (s.inp.doors[m.ix] = false → x.state = .stopped →
            (x.pending = some .clamp → u.mixerRec m = begun .clamping .moving 3000000)
            ∧ (x.pending = some .mix → u.mixerRec m = begun .mixing .closed (x.program.getD 0 * 1000000 - x.elapsed))
            ∧ (x.pending = some .unclamp → u.mixerRec m = begun .unclamping .moving 2000000))
          ∧ (s.inp.doors[m.ix] = false → x.state = .braking → x.causes ≠ [] →
              u.mixerRec m = { x with resumeTaken := true })
          ∧ (x.state ≠ .stopped → x.state ≠ .braking ∨ x.causes = [] → u.mixerRec m = x))
        ∧ u.link = s.link.push (.reply false (.ok [])))

/-- RESTART empties the book, the finished work in hand and the queues of the machine: no line and no binding, no move, no
jam, no claim on the cap, the scale back to DOSE_CHECK, every reservation gone, every record left an orphan, no tag job
but a READ for each circuit in CHECKING, no calibration result, no purge and no stir due. Every pump activity is cut, at
once with its delivered steps reduced, or at its burst boundary, and the primes of PRIMING circuits are asked for again
once their cut run has ended, into the next place behind a standalone REFILL that ends at its burst boundary, and held on
a stopped machine; a RELEASING circuit is READY, EMPTY or BLOCKED again, and every other state stays but that a READY
circuit may be EMPTY after its run; a marker that is stored set or to be set is to be cleared once the cut runs have
ended; a mixer whose clamp is not open ends STOPPED with UNCLAMP pending, one that has mixed or braked after its braking,
and an open one holds the orphan or is IDLE; the active tag job ends unreported. What stands in the store, the library,
the circuits' settings and the levels of idle pumps, and the finished list stay. START is the only flag but STOP, and all
classes are enabled (R15, R20, R22, R25, R44, R63, R88, R95, R108, R110, R137, R160, R180, R182, R202, R204, R217, R230).
That a tin between two places is kept where a sensor shows it, the out lane by its count, is Assumption 26; that no stir
is left due is Assumption 67; a prime held until the cut run has ended is Assumption 12, a set being written counts as
stored Assumption 44, the runs that hold the clear Assumption 51, that an open mixer is IDLE or HOLDING by the record the
track left it Assumption 25, that the cut by RESTART takes the place of an earlier one that waits Assumption 55; a request
row keeps no input place (Assumption 5). -/
def Obligations.RestartClearsWork : Prop :=
  ∀ s : State, s.powered = true →
    ∃ u, exec (.restart []) s = .next (State.conclude s u)
      ∧ u.bk.lines = [] ∧ u.bk.lastNumber = 0 ∧ u.calResult = none ∧ u.lib = { s.lib with cursor := 1 }
      ∧ u.track.moves = [] ∧ u.track.jams = [] ∧ (∀ t ∈ u.track.tins, t.stage = .orphan)
      ∧ (∀ p, (u.placeRec p).reserved = none ∧ (u.placeRec p).uncertain = false)
      ∧ u.track.finished = s.track.finished
      ∧ u.stn.job = .idle ∧ u.stn.tin = none ∧ u.stn.cal = none ∧ u.stn.scale = .doseCheck ∧ u.stn.tare = none
      ∧ u.stn.cap = (if s.stopped then .halted .closed else .closing (s.now + 2000000))
      ∧ u.lid.tin = none ∧ u.lid.press = .idle ∧ u.lid.mags = s.lid.mags ∧ u.lid.policy = s.lid.policy
      ∧ u.tag.bus = .settling ∧ u.tag.images = s.tag.images
      ∧ (∀ j, j ∈ u.tag.queue ++ u.tag.backlog ↔ (s.circuit j.circuit).state = .checking ∧ j.kind = .read)
      ∧ u.cares.due = [] ∧ u.cares.siteTime = none ∧ u.cares.daily = s.cares.daily
      ∧ (∀ c, (u.circuit c).purgeDue = none ∧ (u.circuit c).stir = none ∧ (u.circuit c).cfg = (s.circuit c).cfg)
      ∧ (∀ c, (s.pump c).activity = none → (u.circuit c).level = (s.circuit c).level)
      ∧ u.store.nv = s.store.nv ∧ u.store.fifo = s.store.fifo
      ∧ u.link.flags.map (·.1) = (if s.inp.stop then [.start, .stop] else [.start])
      ∧ u.link.enabled = Vector.replicate 8 true ∧ u.link.startCause = .restart
      ∧ u.stopped = s.stopped ∧ u.inp = s.inp
      -- the pumps
      ∧ (∀ c, (u.pump c).burst = (s.pump c).burst
        ∧ ((s.pump c).activity = none ∨ (s.pump c).burst = none ∨ (s.circuit c).state ≠ .priming ∨ s.stopped = true →
            (u.pump c).next = none)
        ∧ (∀ a, (s.pump c).activity = some a → (s.pump c).burst ≠ none →
            ((s.circuit c).state = .priming → s.stopped = true → (u.pump c).heldPrime = true)
            ∧ ((s.circuit c).state = .priming → s.stopped = false →
              (a.kind = .refill → (u.pump c).heldPrime = false
                ∧ (u.pump c).next = some { kind := .prime, owner := .table, planned := 3200 })
              ∧ (a.kind ≠ .refill → (u.pump c).heldPrime = true ∧ (u.pump c).next = none))
            ∧ ((s.circuit c).state ≠ .priming → (u.pump c).heldPrime = false))
        ∧ (∀ a, (s.pump c).activity = some a → (s.pump c).burst ≠ none →
            (u.pump c).piston = (s.pump c).piston ∧ (∃ b, (u.pump c).activity = some b ∧ b.kind = a.kind ∧ b.owner = a.owner
              ∧ b.delivered = a.delivered ∧ b.restarted = true ∧ b.atBoundary = some (.cut .restart))
            ∧ (u.circuit c).level = (s.circuit c).level)
        ∧ (∀ a, (s.pump c).activity = some a → (s.pump c).burst = none → a.kind ≠ .refill → a.delivered ≠ 0 →
            let trim := if a.owner = .cal then 1024 else (1024 + (s.circuit c).trim).toNat
            (u.circuit c).level = (s.circuit c).level
                - roundHalfUp (a.delivered * 1024000) ((s.circuit c).cfg.k * trim)
              ∧ u.store.dirty[c] = true)
        ∧ ((s.pump c).activity = none ∨ (s.pump c).burst = none →
          ((s.circuit c).state ≠ .priming → (u.pump c).activity = none ∧ (u.pump c).heldPrime = false
            ∧ (u.pump c).piston = (s.pump c).piston)
          ∧ ((s.circuit c).state = .priming → s.stopped = true → (u.pump c).activity = none ∧ (u.pump c).heldPrime = true)
          ∧ ((s.circuit c).state = .priming → s.stopped = false → (u.pump c).heldPrime = false
            ∧ (u.pump c).activity = some
              { kind := .prime, owner := .table, planned := 3200, delivered := 0, phase := .refill, run := .running
                stopSeen := false, atBoundary := none, restarted := false })))
      -- the circuits
      ∧ (∀ c, let r := s.circuit c
        let x := u.circuit c
        (x.lot, x.reason, x.latchOpen, x.baseline, x.checkKind) = (r.lot, r.reason, r.latchOpen, r.baseline, r.checkKind)
        ∧ x.lastDelivery = s.now
        ∧ (r.state ≠ .releasing → r.state ≠ .ready → x.state = r.state)
        ∧ (r.state = .ready → (s.pump c).activity = none ∨ (s.pump c).burst ≠ none ∨ r.cfg.reserve < x.level →
            x.state = .ready)
        ∧ (r.state = .ready → x.level ≤ r.cfg.reserve → ∀ a, (s.pump c).activity = some a → (s.pump c).burst = none →
            a.kind ≠ .refill → a.delivered ≠ 0 → x.state = .empty)
        ∧ (r.state = .releasing → x.state = if r.origin = .blocked then .blocked
            else if x.level ≤ r.cfg.reserve then .empty else .ready)
        ∧ (BookInv s → x.openBatch = 0
          ∧ (r.openBatch ≠ 0 → x.trim = r.pendingTrim.getD r.trim ∧ x.nmin = r.pendingNmin.getD r.nmin
              ∧ x.pendingTrim = none ∧ x.pendingNmin = none)))
      -- the marker
      ∧ u.store.pendingSet = s.store.pendingSet ∧ u.store.pendingClear = s.store.pendingClear
      ∧ u.store.writer = s.store.writer
      ∧ ((s.store.pendingSet.orElse fun _ => s.store.markerStored) ≠ none → u.store.heldClear = true)
      ∧ ((s.store.pendingSet.orElse fun _ => s.store.markerStored) = none → u.store.heldClear = s.store.heldClear)
      -- the mixers
      ∧ (∀ m : Mix, let x := s.mixerRec m
        let y := u.mixerRec m
        let tin := (u.placeRec m.place).tin
        (x.state = .idle → tin = none → y = x)
        ∧ (x.state = .loading ∨ x.state = .holding ∨ (x.state = .stopped ∧ x.clamp = .opened) →
          (tin = none → y.state = .idle ∧ y.tin = none ∧ y.idleSince = s.now)
          ∧ ∀ id, tin = some id → y.state = .holding ∧ y.tin = some id ∧ y.pending = none ∧ y.causes = [])
        ∧ (x.state = .clamping ∨ x.state = .unclamping →
            y.state = .stopped ∧ y.pending = some .unclamp ∧ y.causes = [.restart] ∧ y.tin = tin)
        ∧ (x.state = .mixing ∨ x.state = .braking →
          y.state = .braking ∧ y.brakeTo = none ∧ y.causes = [.restart] ∧ y.resumeTaken = false ∧ y.tin = tin
            ∧ y.ends = if x.state = .mixing then s.now + 3000000 else x.ends)
        ∧ (x.state = .stopped → x.clamp ≠ .opened →
            y.state = .stopped ∧ y.pending = some .unclamp ∧ .restart ∈ y.causes ∧ (∀ k ∈ x.causes, k ∈ y.causes)
              ∧ y.tin = tin))
      -- the active tag job
      ∧ (s.tag.active = none → u.tag.active = none)
      ∧ (∀ a p, s.tag.active = some a → a.step = .phase p → u.tag.active = some { a with abandoned := true })
      ∧ (∀ a, s.tag.active = some a → (∀ p, a.step ≠ .phase p) → u.tag.active = none)
      ∧ u.tag.last = s.tag.last

/-- POWER_LOSS leaves the stored records and the inputs, and the part unpowered with nothing else in hand. POWER_ON builds
the circuits, the library, the lid settings, the scheme and the daily minute from the records that are good, drives the
cap toward CLOSED, makes an orphan record, with ids from 1 upward, of each tin the sensors show at Z1 to Z5, in MIXER A,
in MIXER B, and in the lane from its head, with no move, no jam pair, nothing finished and nothing reserved; a mixer with
a tin in its cradle is STOPPED with the cause POWER, UNCLAMP pending and its clamp not OPEN, its orphan's lid SEATED, and
one with none is IDLE from this moment with its clamp OPEN; it reads every closed bay of a coded circuit, and sets START,
with the cause UNCLEAN and the flag UNCLEAN_STOP where the marker is stored set, whose circuits' levels are reduced by its
volumes (R23, R24, R38, R43, R136, R156, R159, R170, R181, R203, R207, R232). What POWER_LOSS leaves is Assumption 34,
that POWER_ON on a powered part does the same Assumption 3, that a stored level is brought to the capacity before the
deduction Assumption 18, that damaged records stay absent and are counted in lost= Assumption 32, and that a twin field
stays as it is stored Assumption 59. -/
def Obligations.PowerCycle : Prop :=
  ∀ s : State,
    (s.powered = true → ∃ t, exec .powerLoss s = .next t ∧ t.powered = false ∧ t.store.nv = s.store.nv ∧ t.inp = s.inp
      ∧ t.store.fifo = [] ∧ t.store.writer = none ∧ t.bk.lines = [] ∧ t.track.tins = [] ∧ t.link.output = []
      ∧ t.link.sending = none ∧ t.pending = s.pending)
    ∧ ∀ damaged, ∃ u, exec (.powerOn damaged) s = .next (State.conclude s u)
      ∧ let nv := s.store.nv.read damaged
        u.powered = true ∧ u.store.nv = nv ∧ u.store.lost = damaged.eraseDups.length
        ∧ u.stopped = s.inp.stop ∧ u.inp = s.inp ∧ u.pending = s.pending
        ∧ u.bk.lines = [] ∧ u.bk.lastNumber = 0 ∧ u.calResult = none
        ∧ u.lib = ⟨nv.bases, nv.sizes, nv.slots, 1⟩
        ∧ (∀ m : Fin 3, u.lid.mags[m] = ⟨nv.lidCodes[m].getD m, 0⟩)
        ∧ u.lid.policy = nv.lidPolicy.getD .hold ∧ u.drive.scheme = nv.scheme.getD .continuous
        ∧ u.cares.daily = nv.daily.getD 360 ∧ u.cares.siteTime = none
        ∧ u.stn.cap = (if s.inp.stop then .halted .closed else .closing (s.now + 2000000))
        ∧ u.stn.job = .idle ∧ u.stn.scale = .doseCheck
        ∧ (∀ c : Circ, u.pump c = ⟨.unknown 0, none, none, none, false⟩)
        ∧ (∀ c : Circ, let r := u.circuit c
            let g := nv.circuits[c].getD Settings.default
            r.cfg = g ∧ r.trim = g.trim ∧ r.nmin = g.nmin ∧ r.openBatch = 0 ∧ r.lot = none
            ∧ r.baseline = s.inp.bays[c]
            ∧ r.state = (if g.code = none then .unfitted else if s.inp.bays[c] then .checking else .service)
            ∧ r.level = min (nv.levels[c].getD 0) (g.capacity * 1000)
                - (nv.marker.map fun m => m.volume c).getD 0)
        ∧ (∀ c : Circ, ((u.tag.queue ++ u.tag.backlog).any fun j => j.circuit == c) = true
            ↔ (u.circuit c).state = .checking)
        -- the tins the sensors show, and the mixers
        ∧ (let shown := [Place.z1, .z2, .z3, .z4, .z5, .mixA, .mixB].filter fun p => s.shows p
          let laid := (List.range s.laneCount).map fun k => shown.length + k + 1
          u.track.lane = laid ∧ u.track.lastId = shown.length + s.laneCount
          ∧ u.track.tins.length = shown.length + s.laneCount
          ∧ u.track.moves = [] ∧ u.track.jams = [] ∧ u.track.finished = []
          ∧ (∀ k p, shown[k]? = some p → u.placeRec p = { PlaceRecord.reset with tin := some (k + 1) }
              ∧ u.tin? (k + 1) = some { Tin.orphan (k + 1) with lid := if p.isMixer then some .seated else none })
          ∧ (∀ p, p = .out ∨ s.shows p = false → u.placeRec p = PlaceRecord.reset)
          ∧ (∀ id ∈ laid, u.tin? id = some (Tin.orphan id)))
        ∧ (∀ m : Mix, let y := u.mixerRec m
            (s.shows m.place = false → y.state = .idle ∧ y.clamp = .opened ∧ y.tin = none ∧ y.idleSince = s.now)
            ∧ (s.shows m.place = true → y.state = .stopped ∧ y.causes = [.power] ∧ y.pending = some .unclamp
                ∧ y.clamp ≠ .opened ∧ y.resumeTaken = false ∧ y.tin ≠ none ∧ y.tin = (u.placeRec m.place).tin))
        ∧ u.store.pendingClear = nv.marker.isSome
        ∧ u.link.isSet .start = true ∧ u.link.isSet .uncleanStop = nv.marker.isSome
        ∧ u.link.isSet .stop = s.inp.stop
        ∧ u.link.startCause = (if nv.marker.isSome then .unclean else .power)
end

