-- ==== Sys2Proof/Laws/State.lean ====
section
/-! SUPPORT. One lemma for each field of `State` under each of its updates: the field an update changes, and the fields
it leaves. All are true by `rfl`; no proof needs to unfold a record update. -/

namespace Sys2Proof.Machine

variable (s : State)

/-! ### State.reach -/

@[simp] theorem State.reach_pending (t : Nat) : (s.reach t).pending = s.pending := rfl
@[simp] theorem State.reach_powered (t : Nat) : (s.reach t).powered = s.powered := rfl
@[simp] theorem State.reach_now (t : Nat) : (s.reach t).now = max s.now t := rfl
@[simp] theorem State.reach_choices (t : Nat) : (s.reach t).choices = s.choices := rfl
@[simp] theorem State.reach_stopped (t : Nat) : (s.reach t).stopped = s.stopped := rfl
@[simp] theorem State.reach_inp (t : Nat) : (s.reach t).inp = s.inp := rfl
@[simp] theorem State.reach_circuits (t : Nat) : (s.reach t).circuits = s.circuits := rfl
@[simp] theorem State.reach_lib (t : Nat) : (s.reach t).lib = s.lib := rfl
@[simp] theorem State.reach_store (t : Nat) : (s.reach t).store = s.store := rfl
@[simp] theorem State.reach_calResult (t : Nat) : (s.reach t).calResult = s.calResult := rfl
@[simp] theorem State.reach_bk (t : Nat) : (s.reach t).bk = s.bk := rfl
@[simp] theorem State.reach_drive (t : Nat) : (s.reach t).drive = s.drive := rfl
@[simp] theorem State.reach_stn (t : Nat) : (s.reach t).stn = s.stn := rfl
@[simp] theorem State.reach_track (t : Nat) : (s.reach t).track = s.track := rfl
@[simp] theorem State.reach_lid (t : Nat) : (s.reach t).lid = s.lid := rfl
@[simp] theorem State.reach_mixer (t : Nat) : (s.reach t).mixer = s.mixer := rfl
@[simp] theorem State.reach_tag (t : Nat) : (s.reach t).tag = s.tag := rfl
@[simp] theorem State.reach_cares (t : Nat) : (s.reach t).cares = s.cares := rfl
@[simp] theorem State.reach_link (t : Nat) : (s.reach t).link = s.link := rfl

/-! ### State.setCircuit -/

@[simp] theorem State.setCircuit_pending (c : Circ) (f : Circuit → Circuit) :
    (s.setCircuit c f).pending = s.pending := rfl
@[simp] theorem State.setCircuit_powered (c : Circ) (f : Circuit → Circuit) :
    (s.setCircuit c f).powered = s.powered := rfl
@[simp] theorem State.setCircuit_now (c : Circ) (f : Circuit → Circuit) : (s.setCircuit c f).now = s.now := rfl
@[simp] theorem State.setCircuit_choices (c : Circ) (f : Circuit → Circuit) :
    (s.setCircuit c f).choices = s.choices := rfl
@[simp] theorem State.setCircuit_stopped (c : Circ) (f : Circuit → Circuit) :
    (s.setCircuit c f).stopped = s.stopped := rfl
@[simp] theorem State.setCircuit_inp (c : Circ) (f : Circuit → Circuit) : (s.setCircuit c f).inp = s.inp := rfl
@[simp] theorem State.setCircuit_circuits (c : Circ) (f : Circuit → Circuit) :
    (s.setCircuit c f).circuits = updAt s.circuits c f := rfl
@[simp] theorem State.setCircuit_lib (c : Circ) (f : Circuit → Circuit) : (s.setCircuit c f).lib = s.lib := rfl
@[simp] theorem State.setCircuit_store (c : Circ) (f : Circuit → Circuit) : (s.setCircuit c f).store = s.store := rfl
@[simp] theorem State.setCircuit_calResult (c : Circ) (f : Circuit → Circuit) :
    (s.setCircuit c f).calResult = s.calResult := rfl
@[simp] theorem State.setCircuit_bk (c : Circ) (f : Circuit → Circuit) : (s.setCircuit c f).bk = s.bk := rfl
@[simp] theorem State.setCircuit_drive (c : Circ) (f : Circuit → Circuit) : (s.setCircuit c f).drive = s.drive := rfl
@[simp] theorem State.setCircuit_stn (c : Circ) (f : Circuit → Circuit) : (s.setCircuit c f).stn = s.stn := rfl
@[simp] theorem State.setCircuit_track (c : Circ) (f : Circuit → Circuit) : (s.setCircuit c f).track = s.track := rfl
@[simp] theorem State.setCircuit_lid (c : Circ) (f : Circuit → Circuit) : (s.setCircuit c f).lid = s.lid := rfl
@[simp] theorem State.setCircuit_mixer (c : Circ) (f : Circuit → Circuit) : (s.setCircuit c f).mixer = s.mixer := rfl
@[simp] theorem State.setCircuit_tag (c : Circ) (f : Circuit → Circuit) : (s.setCircuit c f).tag = s.tag := rfl
@[simp] theorem State.setCircuit_cares (c : Circ) (f : Circuit → Circuit) : (s.setCircuit c f).cares = s.cares := rfl
@[simp] theorem State.setCircuit_link (c : Circ) (f : Circuit → Circuit) : (s.setCircuit c f).link = s.link := rfl

/-! ### State.setPump -/

@[simp] theorem State.setPump_pending (c : Circ) (f : Pump → Pump) : (s.setPump c f).pending = s.pending := rfl
@[simp] theorem State.setPump_powered (c : Circ) (f : Pump → Pump) : (s.setPump c f).powered = s.powered := rfl
@[simp] theorem State.setPump_now (c : Circ) (f : Pump → Pump) : (s.setPump c f).now = s.now := rfl
@[simp] theorem State.setPump_choices (c : Circ) (f : Pump → Pump) : (s.setPump c f).choices = s.choices := rfl
@[simp] theorem State.setPump_stopped (c : Circ) (f : Pump → Pump) : (s.setPump c f).stopped = s.stopped := rfl
@[simp] theorem State.setPump_inp (c : Circ) (f : Pump → Pump) : (s.setPump c f).inp = s.inp := rfl
@[simp] theorem State.setPump_circuits (c : Circ) (f : Pump → Pump) : (s.setPump c f).circuits = s.circuits := rfl
@[simp] theorem State.setPump_lib (c : Circ) (f : Pump → Pump) : (s.setPump c f).lib = s.lib := rfl
@[simp] theorem State.setPump_store (c : Circ) (f : Pump → Pump) : (s.setPump c f).store = s.store := rfl
@[simp] theorem State.setPump_calResult (c : Circ) (f : Pump → Pump) : (s.setPump c f).calResult = s.calResult := rfl
@[simp] theorem State.setPump_bk (c : Circ) (f : Pump → Pump) : (s.setPump c f).bk = s.bk := rfl
@[simp] theorem State.setPump_drive (c : Circ) (f : Pump → Pump) :
    (s.setPump c f).drive = { s.drive with pumps := updAt s.drive.pumps c f } := rfl
@[simp] theorem State.setPump_stn (c : Circ) (f : Pump → Pump) : (s.setPump c f).stn = s.stn := rfl
@[simp] theorem State.setPump_track (c : Circ) (f : Pump → Pump) : (s.setPump c f).track = s.track := rfl
@[simp] theorem State.setPump_lid (c : Circ) (f : Pump → Pump) : (s.setPump c f).lid = s.lid := rfl
@[simp] theorem State.setPump_mixer (c : Circ) (f : Pump → Pump) : (s.setPump c f).mixer = s.mixer := rfl
@[simp] theorem State.setPump_tag (c : Circ) (f : Pump → Pump) : (s.setPump c f).tag = s.tag := rfl
@[simp] theorem State.setPump_cares (c : Circ) (f : Pump → Pump) : (s.setPump c f).cares = s.cares := rfl
@[simp] theorem State.setPump_link (c : Circ) (f : Pump → Pump) : (s.setPump c f).link = s.link := rfl

/-! ### State.setActivity -/

@[simp] theorem State.setActivity_pending (c : Circ) (f : Activity → Activity) :
    (s.setActivity c f).pending = s.pending := rfl
@[simp] theorem State.setActivity_powered (c : Circ) (f : Activity → Activity) :
    (s.setActivity c f).powered = s.powered := rfl
@[simp] theorem State.setActivity_now (c : Circ) (f : Activity → Activity) : (s.setActivity c f).now = s.now := rfl
@[simp] theorem State.setActivity_choices (c : Circ) (f : Activity → Activity) :
    (s.setActivity c f).choices = s.choices := rfl
@[simp] theorem State.setActivity_stopped (c : Circ) (f : Activity → Activity) :
    (s.setActivity c f).stopped = s.stopped := rfl
@[simp] theorem State.setActivity_inp (c : Circ) (f : Activity → Activity) : (s.setActivity c f).inp = s.inp := rfl
@[simp] theorem State.setActivity_circuits (c : Circ) (f : Activity → Activity) :
    (s.setActivity c f).circuits = s.circuits := rfl
@[simp] theorem State.setActivity_lib (c : Circ) (f : Activity → Activity) : (s.setActivity c f).lib = s.lib := rfl
@[simp] theorem State.setActivity_store (c : Circ) (f : Activity → Activity) :
    (s.setActivity c f).store = s.store := rfl
@[simp] theorem State.setActivity_calResult (c : Circ) (f : Activity → Activity) :
    (s.setActivity c f).calResult = s.calResult := rfl
@[simp] theorem State.setActivity_bk (c : Circ) (f : Activity → Activity) : (s.setActivity c f).bk = s.bk := rfl
@[simp] theorem State.setActivity_drive (c : Circ) (f : Activity → Activity) :
    (s.setActivity c f).drive = 
      { s.drive with pumps := updAt s.drive.pumps c fun p => { p with activity := p.activity.map f } } := rfl
@[simp] theorem State.setActivity_stn (c : Circ) (f : Activity → Activity) : (s.setActivity c f).stn = s.stn := rfl
@[simp] theorem State.setActivity_track (c : Circ) (f : Activity → Activity) :
    (s.setActivity c f).track = s.track := rfl
@[simp] theorem State.setActivity_lid (c : Circ) (f : Activity → Activity) : (s.setActivity c f).lid = s.lid := rfl
@[simp] theorem State.setActivity_mixer (c : Circ) (f : Activity → Activity) :
    (s.setActivity c f).mixer = s.mixer := rfl
@[simp] theorem State.setActivity_tag (c : Circ) (f : Activity → Activity) : (s.setActivity c f).tag = s.tag := rfl
@[simp] theorem State.setActivity_cares (c : Circ) (f : Activity → Activity) :
    (s.setActivity c f).cares = s.cares := rfl
@[simp] theorem State.setActivity_link (c : Circ) (f : Activity → Activity) : (s.setActivity c f).link = s.link := rfl

/-! ### State.forfeitSlots -/

@[simp] theorem State.forfeitSlots_pending (c : Circ) : (s.forfeitSlots c).pending = s.pending := rfl
@[simp] theorem State.forfeitSlots_powered (c : Circ) : (s.forfeitSlots c).powered = s.powered := rfl
@[simp] theorem State.forfeitSlots_now (c : Circ) : (s.forfeitSlots c).now = s.now := rfl
@[simp] theorem State.forfeitSlots_choices (c : Circ) : (s.forfeitSlots c).choices = s.choices := rfl
@[simp] theorem State.forfeitSlots_stopped (c : Circ) : (s.forfeitSlots c).stopped = s.stopped := rfl
@[simp] theorem State.forfeitSlots_inp (c : Circ) : (s.forfeitSlots c).inp = s.inp := rfl
@[simp] theorem State.forfeitSlots_circuits (c : Circ) : (s.forfeitSlots c).circuits = s.circuits := rfl
@[simp] theorem State.forfeitSlots_lib (c : Circ) : (s.forfeitSlots c).lib = s.lib := rfl
@[simp] theorem State.forfeitSlots_store (c : Circ) : (s.forfeitSlots c).store = s.store := rfl
@[simp] theorem State.forfeitSlots_calResult (c : Circ) : (s.forfeitSlots c).calResult = s.calResult := rfl
@[simp] theorem State.forfeitSlots_bk (c : Circ) : (s.forfeitSlots c).bk = s.bk := rfl
@[simp] theorem State.forfeitSlots_drive (c : Circ) :
    (s.forfeitSlots c).drive = { s.drive with forfeit := updAt s.drive.forfeit c fun _ => true } := rfl
@[simp] theorem State.forfeitSlots_stn (c : Circ) : (s.forfeitSlots c).stn = s.stn := rfl
@[simp] theorem State.forfeitSlots_track (c : Circ) : (s.forfeitSlots c).track = s.track := rfl
@[simp] theorem State.forfeitSlots_lid (c : Circ) : (s.forfeitSlots c).lid = s.lid := rfl
@[simp] theorem State.forfeitSlots_mixer (c : Circ) : (s.forfeitSlots c).mixer = s.mixer := rfl
@[simp] theorem State.forfeitSlots_tag (c : Circ) : (s.forfeitSlots c).tag = s.tag := rfl
@[simp] theorem State.forfeitSlots_cares (c : Circ) : (s.forfeitSlots c).cares = s.cares := rfl
@[simp] theorem State.forfeitSlots_link (c : Circ) : (s.forfeitSlots c).link = s.link := rfl

/-! ### State.setPlace -/

@[simp] theorem State.setPlace_pending (p : Place) (f : PlaceRecord → PlaceRecord) :
    (s.setPlace p f).pending = s.pending := rfl
@[simp] theorem State.setPlace_powered (p : Place) (f : PlaceRecord → PlaceRecord) :
    (s.setPlace p f).powered = s.powered := rfl
@[simp] theorem State.setPlace_now (p : Place) (f : PlaceRecord → PlaceRecord) : (s.setPlace p f).now = s.now := rfl
@[simp] theorem State.setPlace_choices (p : Place) (f : PlaceRecord → PlaceRecord) :
    (s.setPlace p f).choices = s.choices := rfl
@[simp] theorem State.setPlace_stopped (p : Place) (f : PlaceRecord → PlaceRecord) :
    (s.setPlace p f).stopped = s.stopped := rfl
@[simp] theorem State.setPlace_inp (p : Place) (f : PlaceRecord → PlaceRecord) : (s.setPlace p f).inp = s.inp := rfl
@[simp] theorem State.setPlace_circuits (p : Place) (f : PlaceRecord → PlaceRecord) :
    (s.setPlace p f).circuits = s.circuits := rfl
@[simp] theorem State.setPlace_lib (p : Place) (f : PlaceRecord → PlaceRecord) : (s.setPlace p f).lib = s.lib := rfl
@[simp] theorem State.setPlace_store (p : Place) (f : PlaceRecord → PlaceRecord) :
    (s.setPlace p f).store = s.store := rfl
@[simp] theorem State.setPlace_calResult (p : Place) (f : PlaceRecord → PlaceRecord) :
    (s.setPlace p f).calResult = s.calResult := rfl
@[simp] theorem State.setPlace_bk (p : Place) (f : PlaceRecord → PlaceRecord) : (s.setPlace p f).bk = s.bk := rfl
@[simp] theorem State.setPlace_drive (p : Place) (f : PlaceRecord → PlaceRecord) :
    (s.setPlace p f).drive = s.drive := rfl
@[simp] theorem State.setPlace_stn (p : Place) (f : PlaceRecord → PlaceRecord) : (s.setPlace p f).stn = s.stn := rfl
@[simp] theorem State.setPlace_track (p : Place) (f : PlaceRecord → PlaceRecord) :
    (s.setPlace p f).track = { s.track with places := updAt s.track.places p.ix f } := rfl
@[simp] theorem State.setPlace_lid (p : Place) (f : PlaceRecord → PlaceRecord) : (s.setPlace p f).lid = s.lid := rfl
@[simp] theorem State.setPlace_mixer (p : Place) (f : PlaceRecord → PlaceRecord) :
    (s.setPlace p f).mixer = s.mixer := rfl
@[simp] theorem State.setPlace_tag (p : Place) (f : PlaceRecord → PlaceRecord) : (s.setPlace p f).tag = s.tag := rfl
@[simp] theorem State.setPlace_cares (p : Place) (f : PlaceRecord → PlaceRecord) :
    (s.setPlace p f).cares = s.cares := rfl
@[simp] theorem State.setPlace_link (p : Place) (f : PlaceRecord → PlaceRecord) :
    (s.setPlace p f).link = s.link := rfl

/-! ### State.setMixer -/

@[simp] theorem State.setMixer_pending (m : Mix) (f : Mixer → Mixer) : (s.setMixer m f).pending = s.pending := rfl
@[simp] theorem State.setMixer_powered (m : Mix) (f : Mixer → Mixer) : (s.setMixer m f).powered = s.powered := rfl
@[simp] theorem State.setMixer_now (m : Mix) (f : Mixer → Mixer) : (s.setMixer m f).now = s.now := rfl
@[simp] theorem State.setMixer_choices (m : Mix) (f : Mixer → Mixer) : (s.setMixer m f).choices = s.choices := rfl
@[simp] theorem State.setMixer_stopped (m : Mix) (f : Mixer → Mixer) : (s.setMixer m f).stopped = s.stopped := rfl
@[simp] theorem State.setMixer_inp (m : Mix) (f : Mixer → Mixer) : (s.setMixer m f).inp = s.inp := rfl
@[simp] theorem State.setMixer_circuits (m : Mix) (f : Mixer → Mixer) : (s.setMixer m f).circuits = s.circuits := rfl
@[simp] theorem State.setMixer_lib (m : Mix) (f : Mixer → Mixer) : (s.setMixer m f).lib = s.lib := rfl
@[simp] theorem State.setMixer_store (m : Mix) (f : Mixer → Mixer) : (s.setMixer m f).store = s.store := rfl
@[simp] theorem State.setMixer_calResult (m : Mix) (f : Mixer → Mixer) :
    (s.setMixer m f).calResult = s.calResult := rfl
@[simp] theorem State.setMixer_bk (m : Mix) (f : Mixer → Mixer) : (s.setMixer m f).bk = s.bk := rfl
@[simp] theorem State.setMixer_drive (m : Mix) (f : Mixer → Mixer) : (s.setMixer m f).drive = s.drive := rfl
@[simp] theorem State.setMixer_stn (m : Mix) (f : Mixer → Mixer) : (s.setMixer m f).stn = s.stn := rfl
@[simp] theorem State.setMixer_track (m : Mix) (f : Mixer → Mixer) : (s.setMixer m f).track = s.track := rfl
@[simp] theorem State.setMixer_lid (m : Mix) (f : Mixer → Mixer) : (s.setMixer m f).lid = s.lid := rfl
@[simp] theorem State.setMixer_mixer (m : Mix) (f : Mixer → Mixer) :
    (s.setMixer m f).mixer = updAt s.mixer m.ix f := rfl
@[simp] theorem State.setMixer_tag (m : Mix) (f : Mixer → Mixer) : (s.setMixer m f).tag = s.tag := rfl
@[simp] theorem State.setMixer_cares (m : Mix) (f : Mixer → Mixer) : (s.setMixer m f).cares = s.cares := rfl
@[simp] theorem State.setMixer_link (m : Mix) (f : Mixer → Mixer) : (s.setMixer m f).link = s.link := rfl

/-! ### State.setTin -/

@[simp] theorem State.setTin_pending (id : Nat) (f : Tin → Tin) : (s.setTin id f).pending = s.pending := rfl
@[simp] theorem State.setTin_powered (id : Nat) (f : Tin → Tin) : (s.setTin id f).powered = s.powered := rfl
@[simp] theorem State.setTin_now (id : Nat) (f : Tin → Tin) : (s.setTin id f).now = s.now := rfl
@[simp] theorem State.setTin_choices (id : Nat) (f : Tin → Tin) : (s.setTin id f).choices = s.choices := rfl
@[simp] theorem State.setTin_stopped (id : Nat) (f : Tin → Tin) : (s.setTin id f).stopped = s.stopped := rfl
@[simp] theorem State.setTin_inp (id : Nat) (f : Tin → Tin) : (s.setTin id f).inp = s.inp := rfl
@[simp] theorem State.setTin_circuits (id : Nat) (f : Tin → Tin) : (s.setTin id f).circuits = s.circuits := rfl
@[simp] theorem State.setTin_lib (id : Nat) (f : Tin → Tin) : (s.setTin id f).lib = s.lib := rfl
@[simp] theorem State.setTin_store (id : Nat) (f : Tin → Tin) : (s.setTin id f).store = s.store := rfl
@[simp] theorem State.setTin_calResult (id : Nat) (f : Tin → Tin) : (s.setTin id f).calResult = s.calResult := rfl
@[simp] theorem State.setTin_bk (id : Nat) (f : Tin → Tin) : (s.setTin id f).bk = s.bk := rfl
@[simp] theorem State.setTin_drive (id : Nat) (f : Tin → Tin) : (s.setTin id f).drive = s.drive := rfl
@[simp] theorem State.setTin_stn (id : Nat) (f : Tin → Tin) : (s.setTin id f).stn = s.stn := rfl
@[simp] theorem State.setTin_track (id : Nat) (f : Tin → Tin) :
    (s.setTin id f).track = { s.track with tins := s.track.tins.map fun t => if t.id = id then f t else t } := rfl
@[simp] theorem State.setTin_lid (id : Nat) (f : Tin → Tin) : (s.setTin id f).lid = s.lid := rfl
@[simp] theorem State.setTin_mixer (id : Nat) (f : Tin → Tin) : (s.setTin id f).mixer = s.mixer := rfl
@[simp] theorem State.setTin_tag (id : Nat) (f : Tin → Tin) : (s.setTin id f).tag = s.tag := rfl
@[simp] theorem State.setTin_cares (id : Nat) (f : Tin → Tin) : (s.setTin id f).cares = s.cares := rfl
@[simp] theorem State.setTin_link (id : Nat) (f : Tin → Tin) : (s.setTin id f).link = s.link := rfl

/-! ### State.addTin -/

@[simp] theorem State.addTin_pending (t : Tin) : (s.addTin t).pending = s.pending := rfl
@[simp] theorem State.addTin_powered (t : Tin) : (s.addTin t).powered = s.powered := rfl
@[simp] theorem State.addTin_now (t : Tin) : (s.addTin t).now = s.now := rfl
@[simp] theorem State.addTin_choices (t : Tin) : (s.addTin t).choices = s.choices := rfl
@[simp] theorem State.addTin_stopped (t : Tin) : (s.addTin t).stopped = s.stopped := rfl
@[simp] theorem State.addTin_inp (t : Tin) : (s.addTin t).inp = s.inp := rfl
@[simp] theorem State.addTin_circuits (t : Tin) : (s.addTin t).circuits = s.circuits := rfl
@[simp] theorem State.addTin_lib (t : Tin) : (s.addTin t).lib = s.lib := rfl
@[simp] theorem State.addTin_store (t : Tin) : (s.addTin t).store = s.store := rfl
@[simp] theorem State.addTin_calResult (t : Tin) : (s.addTin t).calResult = s.calResult := rfl
@[simp] theorem State.addTin_bk (t : Tin) : (s.addTin t).bk = s.bk := rfl
@[simp] theorem State.addTin_drive (t : Tin) : (s.addTin t).drive = s.drive := rfl
@[simp] theorem State.addTin_stn (t : Tin) : (s.addTin t).stn = s.stn := rfl
@[simp] theorem State.addTin_track (t : Tin) :
    (s.addTin t).track = { s.track with tins := s.track.tins ++ [t], lastId := t.id } := rfl
@[simp] theorem State.addTin_lid (t : Tin) : (s.addTin t).lid = s.lid := rfl
@[simp] theorem State.addTin_mixer (t : Tin) : (s.addTin t).mixer = s.mixer := rfl
@[simp] theorem State.addTin_tag (t : Tin) : (s.addTin t).tag = s.tag := rfl
@[simp] theorem State.addTin_cares (t : Tin) : (s.addTin t).cares = s.cares := rfl
@[simp] theorem State.addTin_link (t : Tin) : (s.addTin t).link = s.link := rfl

/-! ### State.setTrack -/

@[simp] theorem State.setTrack_pending (f : Track → Track) : (s.setTrack f).pending = s.pending := rfl
@[simp] theorem State.setTrack_powered (f : Track → Track) : (s.setTrack f).powered = s.powered := rfl
@[simp] theorem State.setTrack_now (f : Track → Track) : (s.setTrack f).now = s.now := rfl
@[simp] theorem State.setTrack_choices (f : Track → Track) : (s.setTrack f).choices = s.choices := rfl
@[simp] theorem State.setTrack_stopped (f : Track → Track) : (s.setTrack f).stopped = s.stopped := rfl
@[simp] theorem State.setTrack_inp (f : Track → Track) : (s.setTrack f).inp = s.inp := rfl
@[simp] theorem State.setTrack_circuits (f : Track → Track) : (s.setTrack f).circuits = s.circuits := rfl
@[simp] theorem State.setTrack_lib (f : Track → Track) : (s.setTrack f).lib = s.lib := rfl
@[simp] theorem State.setTrack_store (f : Track → Track) : (s.setTrack f).store = s.store := rfl
@[simp] theorem State.setTrack_calResult (f : Track → Track) : (s.setTrack f).calResult = s.calResult := rfl
@[simp] theorem State.setTrack_bk (f : Track → Track) : (s.setTrack f).bk = s.bk := rfl
@[simp] theorem State.setTrack_drive (f : Track → Track) : (s.setTrack f).drive = s.drive := rfl
@[simp] theorem State.setTrack_stn (f : Track → Track) : (s.setTrack f).stn = s.stn := rfl
@[simp] theorem State.setTrack_track (f : Track → Track) : (s.setTrack f).track = f s.track := rfl
@[simp] theorem State.setTrack_lid (f : Track → Track) : (s.setTrack f).lid = s.lid := rfl
@[simp] theorem State.setTrack_mixer (f : Track → Track) : (s.setTrack f).mixer = s.mixer := rfl
@[simp] theorem State.setTrack_tag (f : Track → Track) : (s.setTrack f).tag = s.tag := rfl
@[simp] theorem State.setTrack_cares (f : Track → Track) : (s.setTrack f).cares = s.cares := rfl
@[simp] theorem State.setTrack_link (f : Track → Track) : (s.setTrack f).link = s.link := rfl

/-! ### State.setLine -/

@[simp] theorem State.setLine_pending (n : Nat) (f : OrderLine → OrderLine) :
    (s.setLine n f).pending = s.pending := rfl
@[simp] theorem State.setLine_powered (n : Nat) (f : OrderLine → OrderLine) :
    (s.setLine n f).powered = s.powered := rfl
@[simp] theorem State.setLine_now (n : Nat) (f : OrderLine → OrderLine) : (s.setLine n f).now = s.now := rfl
@[simp] theorem State.setLine_choices (n : Nat) (f : OrderLine → OrderLine) :
    (s.setLine n f).choices = s.choices := rfl
@[simp] theorem State.setLine_stopped (n : Nat) (f : OrderLine → OrderLine) :
    (s.setLine n f).stopped = s.stopped := rfl
@[simp] theorem State.setLine_inp (n : Nat) (f : OrderLine → OrderLine) : (s.setLine n f).inp = s.inp := rfl
@[simp] theorem State.setLine_circuits (n : Nat) (f : OrderLine → OrderLine) :
    (s.setLine n f).circuits = s.circuits := rfl
@[simp] theorem State.setLine_lib (n : Nat) (f : OrderLine → OrderLine) : (s.setLine n f).lib = s.lib := rfl
@[simp] theorem State.setLine_store (n : Nat) (f : OrderLine → OrderLine) : (s.setLine n f).store = s.store := rfl
@[simp] theorem State.setLine_calResult (n : Nat) (f : OrderLine → OrderLine) :
    (s.setLine n f).calResult = s.calResult := rfl
@[simp] theorem State.setLine_bk (n : Nat) (f : OrderLine → OrderLine) :
    (s.setLine n f).bk = { s.bk with lines := s.bk.lines.map fun l => if l.number = n then f l else l } := rfl
@[simp] theorem State.setLine_drive (n : Nat) (f : OrderLine → OrderLine) : (s.setLine n f).drive = s.drive := rfl
@[simp] theorem State.setLine_stn (n : Nat) (f : OrderLine → OrderLine) : (s.setLine n f).stn = s.stn := rfl
@[simp] theorem State.setLine_track (n : Nat) (f : OrderLine → OrderLine) : (s.setLine n f).track = s.track := rfl
@[simp] theorem State.setLine_lid (n : Nat) (f : OrderLine → OrderLine) : (s.setLine n f).lid = s.lid := rfl
@[simp] theorem State.setLine_mixer (n : Nat) (f : OrderLine → OrderLine) : (s.setLine n f).mixer = s.mixer := rfl
@[simp] theorem State.setLine_tag (n : Nat) (f : OrderLine → OrderLine) : (s.setLine n f).tag = s.tag := rfl
@[simp] theorem State.setLine_cares (n : Nat) (f : OrderLine → OrderLine) : (s.setLine n f).cares = s.cares := rfl
@[simp] theorem State.setLine_link (n : Nat) (f : OrderLine → OrderLine) : (s.setLine n f).link = s.link := rfl

/-! ### State.setStn -/

@[simp] theorem State.setStn_pending (f : Station → Station) : (s.setStn f).pending = s.pending := rfl
@[simp] theorem State.setStn_powered (f : Station → Station) : (s.setStn f).powered = s.powered := rfl
@[simp] theorem State.setStn_now (f : Station → Station) : (s.setStn f).now = s.now := rfl
@[simp] theorem State.setStn_choices (f : Station → Station) : (s.setStn f).choices = s.choices := rfl
@[simp] theorem State.setStn_stopped (f : Station → Station) : (s.setStn f).stopped = s.stopped := rfl
@[simp] theorem State.setStn_inp (f : Station → Station) : (s.setStn f).inp = s.inp := rfl
@[simp] theorem State.setStn_circuits (f : Station → Station) : (s.setStn f).circuits = s.circuits := rfl
@[simp] theorem State.setStn_lib (f : Station → Station) : (s.setStn f).lib = s.lib := rfl
@[simp] theorem State.setStn_store (f : Station → Station) : (s.setStn f).store = s.store := rfl
@[simp] theorem State.setStn_calResult (f : Station → Station) : (s.setStn f).calResult = s.calResult := rfl
@[simp] theorem State.setStn_bk (f : Station → Station) : (s.setStn f).bk = s.bk := rfl
@[simp] theorem State.setStn_drive (f : Station → Station) : (s.setStn f).drive = s.drive := rfl
@[simp] theorem State.setStn_stn (f : Station → Station) : (s.setStn f).stn = f s.stn := rfl
@[simp] theorem State.setStn_track (f : Station → Station) : (s.setStn f).track = s.track := rfl
@[simp] theorem State.setStn_lid (f : Station → Station) : (s.setStn f).lid = s.lid := rfl
@[simp] theorem State.setStn_mixer (f : Station → Station) : (s.setStn f).mixer = s.mixer := rfl
@[simp] theorem State.setStn_tag (f : Station → Station) : (s.setStn f).tag = s.tag := rfl
@[simp] theorem State.setStn_cares (f : Station → Station) : (s.setStn f).cares = s.cares := rfl
@[simp] theorem State.setStn_link (f : Station → Station) : (s.setStn f).link = s.link := rfl

/-! ### State.setLid -/

@[simp] theorem State.setLid_pending (f : Lidder → Lidder) : (s.setLid f).pending = s.pending := rfl
@[simp] theorem State.setLid_powered (f : Lidder → Lidder) : (s.setLid f).powered = s.powered := rfl
@[simp] theorem State.setLid_now (f : Lidder → Lidder) : (s.setLid f).now = s.now := rfl
@[simp] theorem State.setLid_choices (f : Lidder → Lidder) : (s.setLid f).choices = s.choices := rfl
@[simp] theorem State.setLid_stopped (f : Lidder → Lidder) : (s.setLid f).stopped = s.stopped := rfl
@[simp] theorem State.setLid_inp (f : Lidder → Lidder) : (s.setLid f).inp = s.inp := rfl
@[simp] theorem State.setLid_circuits (f : Lidder → Lidder) : (s.setLid f).circuits = s.circuits := rfl
@[simp] theorem State.setLid_lib (f : Lidder → Lidder) : (s.setLid f).lib = s.lib := rfl
@[simp] theorem State.setLid_store (f : Lidder → Lidder) : (s.setLid f).store = s.store := rfl
@[simp] theorem State.setLid_calResult (f : Lidder → Lidder) : (s.setLid f).calResult = s.calResult := rfl
@[simp] theorem State.setLid_bk (f : Lidder → Lidder) : (s.setLid f).bk = s.bk := rfl
@[simp] theorem State.setLid_drive (f : Lidder → Lidder) : (s.setLid f).drive = s.drive := rfl
@[simp] theorem State.setLid_stn (f : Lidder → Lidder) : (s.setLid f).stn = s.stn := rfl
@[simp] theorem State.setLid_track (f : Lidder → Lidder) : (s.setLid f).track = s.track := rfl
@[simp] theorem State.setLid_lid (f : Lidder → Lidder) : (s.setLid f).lid = f s.lid := rfl
@[simp] theorem State.setLid_mixer (f : Lidder → Lidder) : (s.setLid f).mixer = s.mixer := rfl
@[simp] theorem State.setLid_tag (f : Lidder → Lidder) : (s.setLid f).tag = s.tag := rfl
@[simp] theorem State.setLid_cares (f : Lidder → Lidder) : (s.setLid f).cares = s.cares := rfl
@[simp] theorem State.setLid_link (f : Lidder → Lidder) : (s.setLid f).link = s.link := rfl

/-! ### State.setCares -/

@[simp] theorem State.setCares_pending (f : Care → Care) : (s.setCares f).pending = s.pending := rfl
@[simp] theorem State.setCares_powered (f : Care → Care) : (s.setCares f).powered = s.powered := rfl
@[simp] theorem State.setCares_now (f : Care → Care) : (s.setCares f).now = s.now := rfl
@[simp] theorem State.setCares_choices (f : Care → Care) : (s.setCares f).choices = s.choices := rfl
@[simp] theorem State.setCares_stopped (f : Care → Care) : (s.setCares f).stopped = s.stopped := rfl
@[simp] theorem State.setCares_inp (f : Care → Care) : (s.setCares f).inp = s.inp := rfl
@[simp] theorem State.setCares_circuits (f : Care → Care) : (s.setCares f).circuits = s.circuits := rfl
@[simp] theorem State.setCares_lib (f : Care → Care) : (s.setCares f).lib = s.lib := rfl
@[simp] theorem State.setCares_store (f : Care → Care) : (s.setCares f).store = s.store := rfl
@[simp] theorem State.setCares_calResult (f : Care → Care) : (s.setCares f).calResult = s.calResult := rfl
@[simp] theorem State.setCares_bk (f : Care → Care) : (s.setCares f).bk = s.bk := rfl
@[simp] theorem State.setCares_drive (f : Care → Care) : (s.setCares f).drive = s.drive := rfl
@[simp] theorem State.setCares_stn (f : Care → Care) : (s.setCares f).stn = s.stn := rfl
@[simp] theorem State.setCares_track (f : Care → Care) : (s.setCares f).track = s.track := rfl
@[simp] theorem State.setCares_lid (f : Care → Care) : (s.setCares f).lid = s.lid := rfl
@[simp] theorem State.setCares_mixer (f : Care → Care) : (s.setCares f).mixer = s.mixer := rfl
@[simp] theorem State.setCares_tag (f : Care → Care) : (s.setCares f).tag = s.tag := rfl
@[simp] theorem State.setCares_cares (f : Care → Care) : (s.setCares f).cares = f s.cares := rfl
@[simp] theorem State.setCares_link (f : Care → Care) : (s.setCares f).link = s.link := rfl

/-! ### State.addDue -/

@[simp] theorem State.addDue_pending (c : Circ) (t : Nat) : (s.addDue c t).pending = s.pending := rfl
@[simp] theorem State.addDue_powered (c : Circ) (t : Nat) : (s.addDue c t).powered = s.powered := rfl
@[simp] theorem State.addDue_now (c : Circ) (t : Nat) : (s.addDue c t).now = s.now := rfl
@[simp] theorem State.addDue_choices (c : Circ) (t : Nat) : (s.addDue c t).choices = s.choices := rfl
@[simp] theorem State.addDue_stopped (c : Circ) (t : Nat) : (s.addDue c t).stopped = s.stopped := rfl
@[simp] theorem State.addDue_inp (c : Circ) (t : Nat) : (s.addDue c t).inp = s.inp := rfl
@[simp] theorem State.addDue_circuits (c : Circ) (t : Nat) : (s.addDue c t).circuits = s.circuits := rfl
@[simp] theorem State.addDue_lib (c : Circ) (t : Nat) : (s.addDue c t).lib = s.lib := rfl
@[simp] theorem State.addDue_store (c : Circ) (t : Nat) : (s.addDue c t).store = s.store := rfl
@[simp] theorem State.addDue_calResult (c : Circ) (t : Nat) : (s.addDue c t).calResult = s.calResult := rfl
@[simp] theorem State.addDue_bk (c : Circ) (t : Nat) : (s.addDue c t).bk = s.bk := rfl
@[simp] theorem State.addDue_drive (c : Circ) (t : Nat) : (s.addDue c t).drive = s.drive := rfl
@[simp] theorem State.addDue_stn (c : Circ) (t : Nat) : (s.addDue c t).stn = s.stn := rfl
@[simp] theorem State.addDue_track (c : Circ) (t : Nat) : (s.addDue c t).track = s.track := rfl
@[simp] theorem State.addDue_lid (c : Circ) (t : Nat) : (s.addDue c t).lid = s.lid := rfl
@[simp] theorem State.addDue_mixer (c : Circ) (t : Nat) : (s.addDue c t).mixer = s.mixer := rfl
@[simp] theorem State.addDue_tag (c : Circ) (t : Nat) : (s.addDue c t).tag = s.tag := rfl
@[simp] theorem State.addDue_cares (c : Circ) (t : Nat) :
    (s.addDue c t).cares = { s.cares with due := insertDue (c, t) s.cares.due } := rfl
@[simp] theorem State.addDue_link (c : Circ) (t : Nat) : (s.addDue c t).link = s.link := rfl

/-! ### State.dropDue -/

@[simp] theorem State.dropDue_pending (c : Circ) : (s.dropDue c).pending = s.pending := rfl
@[simp] theorem State.dropDue_powered (c : Circ) : (s.dropDue c).powered = s.powered := rfl
@[simp] theorem State.dropDue_now (c : Circ) : (s.dropDue c).now = s.now := rfl
@[simp] theorem State.dropDue_choices (c : Circ) : (s.dropDue c).choices = s.choices := rfl
@[simp] theorem State.dropDue_stopped (c : Circ) : (s.dropDue c).stopped = s.stopped := rfl
@[simp] theorem State.dropDue_inp (c : Circ) : (s.dropDue c).inp = s.inp := rfl
@[simp] theorem State.dropDue_circuits (c : Circ) : (s.dropDue c).circuits = s.circuits := rfl
@[simp] theorem State.dropDue_lib (c : Circ) : (s.dropDue c).lib = s.lib := rfl
@[simp] theorem State.dropDue_store (c : Circ) : (s.dropDue c).store = s.store := rfl
@[simp] theorem State.dropDue_calResult (c : Circ) : (s.dropDue c).calResult = s.calResult := rfl
@[simp] theorem State.dropDue_bk (c : Circ) : (s.dropDue c).bk = s.bk := rfl
@[simp] theorem State.dropDue_drive (c : Circ) : (s.dropDue c).drive = s.drive := rfl
@[simp] theorem State.dropDue_stn (c : Circ) : (s.dropDue c).stn = s.stn := rfl
@[simp] theorem State.dropDue_track (c : Circ) : (s.dropDue c).track = s.track := rfl
@[simp] theorem State.dropDue_lid (c : Circ) : (s.dropDue c).lid = s.lid := rfl
@[simp] theorem State.dropDue_mixer (c : Circ) : (s.dropDue c).mixer = s.mixer := rfl
@[simp] theorem State.dropDue_tag (c : Circ) : (s.dropDue c).tag = s.tag := rfl
@[simp] theorem State.dropDue_cares (c : Circ) :
    (s.dropDue c).cares = { s.cares with due := s.cares.due.filter fun x => x.1 != c } := rfl
@[simp] theorem State.dropDue_link (c : Circ) : (s.dropDue c).link = s.link := rfl

/-! ### State.linkWrite -/

@[simp] theorem State.linkWrite_pending (r : StoreRecord) : (s.linkWrite r).pending = s.pending := rfl
@[simp] theorem State.linkWrite_powered (r : StoreRecord) : (s.linkWrite r).powered = s.powered := rfl
@[simp] theorem State.linkWrite_now (r : StoreRecord) : (s.linkWrite r).now = s.now := rfl
@[simp] theorem State.linkWrite_choices (r : StoreRecord) : (s.linkWrite r).choices = s.choices := rfl
@[simp] theorem State.linkWrite_stopped (r : StoreRecord) : (s.linkWrite r).stopped = s.stopped := rfl
@[simp] theorem State.linkWrite_inp (r : StoreRecord) : (s.linkWrite r).inp = s.inp := rfl
@[simp] theorem State.linkWrite_circuits (r : StoreRecord) : (s.linkWrite r).circuits = s.circuits := rfl
@[simp] theorem State.linkWrite_lib (r : StoreRecord) : (s.linkWrite r).lib = s.lib := rfl
@[simp] theorem State.linkWrite_store (r : StoreRecord) :
    (s.linkWrite r).store = { s.store with fifo := s.store.fifo ++ [r] } := rfl
@[simp] theorem State.linkWrite_calResult (r : StoreRecord) : (s.linkWrite r).calResult = s.calResult := rfl
@[simp] theorem State.linkWrite_bk (r : StoreRecord) : (s.linkWrite r).bk = s.bk := rfl
@[simp] theorem State.linkWrite_drive (r : StoreRecord) : (s.linkWrite r).drive = s.drive := rfl
@[simp] theorem State.linkWrite_stn (r : StoreRecord) : (s.linkWrite r).stn = s.stn := rfl
@[simp] theorem State.linkWrite_track (r : StoreRecord) : (s.linkWrite r).track = s.track := rfl
@[simp] theorem State.linkWrite_lid (r : StoreRecord) : (s.linkWrite r).lid = s.lid := rfl
@[simp] theorem State.linkWrite_mixer (r : StoreRecord) : (s.linkWrite r).mixer = s.mixer := rfl
@[simp] theorem State.linkWrite_tag (r : StoreRecord) : (s.linkWrite r).tag = s.tag := rfl
@[simp] theorem State.linkWrite_cares (r : StoreRecord) : (s.linkWrite r).cares = s.cares := rfl
@[simp] theorem State.linkWrite_link (r : StoreRecord) : (s.linkWrite r).link = s.link := rfl

/-! ### State.markDirty -/

@[simp] theorem State.markDirty_pending (c : Circ) : (s.markDirty c).pending = s.pending := rfl
@[simp] theorem State.markDirty_powered (c : Circ) : (s.markDirty c).powered = s.powered := rfl
@[simp] theorem State.markDirty_now (c : Circ) : (s.markDirty c).now = s.now := rfl
@[simp] theorem State.markDirty_choices (c : Circ) : (s.markDirty c).choices = s.choices := rfl
@[simp] theorem State.markDirty_stopped (c : Circ) : (s.markDirty c).stopped = s.stopped := rfl
@[simp] theorem State.markDirty_inp (c : Circ) : (s.markDirty c).inp = s.inp := rfl
@[simp] theorem State.markDirty_circuits (c : Circ) : (s.markDirty c).circuits = s.circuits := rfl
@[simp] theorem State.markDirty_lib (c : Circ) : (s.markDirty c).lib = s.lib := rfl
@[simp] theorem State.markDirty_store (c : Circ) :
    (s.markDirty c).store = { s.store with dirty := updAt s.store.dirty c fun _ => true } := rfl
@[simp] theorem State.markDirty_calResult (c : Circ) : (s.markDirty c).calResult = s.calResult := rfl
@[simp] theorem State.markDirty_bk (c : Circ) : (s.markDirty c).bk = s.bk := rfl
@[simp] theorem State.markDirty_drive (c : Circ) : (s.markDirty c).drive = s.drive := rfl
@[simp] theorem State.markDirty_stn (c : Circ) : (s.markDirty c).stn = s.stn := rfl
@[simp] theorem State.markDirty_track (c : Circ) : (s.markDirty c).track = s.track := rfl
@[simp] theorem State.markDirty_lid (c : Circ) : (s.markDirty c).lid = s.lid := rfl
@[simp] theorem State.markDirty_mixer (c : Circ) : (s.markDirty c).mixer = s.mixer := rfl
@[simp] theorem State.markDirty_tag (c : Circ) : (s.markDirty c).tag = s.tag := rfl
@[simp] theorem State.markDirty_cares (c : Circ) : (s.markDirty c).cares = s.cares := rfl
@[simp] theorem State.markDirty_link (c : Circ) : (s.markDirty c).link = s.link := rfl

/-! ### State.askMarkerSet -/

@[simp] theorem State.askMarkerSet_pending (m : Marker) : (s.askMarkerSet m).pending = s.pending := rfl
@[simp] theorem State.askMarkerSet_powered (m : Marker) : (s.askMarkerSet m).powered = s.powered := rfl
@[simp] theorem State.askMarkerSet_now (m : Marker) : (s.askMarkerSet m).now = s.now := rfl
@[simp] theorem State.askMarkerSet_choices (m : Marker) : (s.askMarkerSet m).choices = s.choices := rfl
@[simp] theorem State.askMarkerSet_stopped (m : Marker) : (s.askMarkerSet m).stopped = s.stopped := rfl
@[simp] theorem State.askMarkerSet_inp (m : Marker) : (s.askMarkerSet m).inp = s.inp := rfl
@[simp] theorem State.askMarkerSet_circuits (m : Marker) : (s.askMarkerSet m).circuits = s.circuits := rfl
@[simp] theorem State.askMarkerSet_lib (m : Marker) : (s.askMarkerSet m).lib = s.lib := rfl
@[simp] theorem State.askMarkerSet_store (m : Marker) : (s.askMarkerSet m).store = s.store.askMarkerSet m := rfl
@[simp] theorem State.askMarkerSet_calResult (m : Marker) : (s.askMarkerSet m).calResult = s.calResult := rfl
@[simp] theorem State.askMarkerSet_bk (m : Marker) : (s.askMarkerSet m).bk = s.bk := rfl
@[simp] theorem State.askMarkerSet_drive (m : Marker) : (s.askMarkerSet m).drive = s.drive := rfl
@[simp] theorem State.askMarkerSet_stn (m : Marker) : (s.askMarkerSet m).stn = s.stn := rfl
@[simp] theorem State.askMarkerSet_track (m : Marker) : (s.askMarkerSet m).track = s.track := rfl
@[simp] theorem State.askMarkerSet_lid (m : Marker) : (s.askMarkerSet m).lid = s.lid := rfl
@[simp] theorem State.askMarkerSet_mixer (m : Marker) : (s.askMarkerSet m).mixer = s.mixer := rfl
@[simp] theorem State.askMarkerSet_tag (m : Marker) : (s.askMarkerSet m).tag = s.tag := rfl
@[simp] theorem State.askMarkerSet_cares (m : Marker) : (s.askMarkerSet m).cares = s.cares := rfl
@[simp] theorem State.askMarkerSet_link (m : Marker) : (s.askMarkerSet m).link = s.link := rfl

/-! ### State.askMarkerClear -/

@[simp] theorem State.askMarkerClear_pending : (s.askMarkerClear).pending = s.pending := rfl
@[simp] theorem State.askMarkerClear_powered : (s.askMarkerClear).powered = s.powered := rfl
@[simp] theorem State.askMarkerClear_now : (s.askMarkerClear).now = s.now := rfl
@[simp] theorem State.askMarkerClear_choices : (s.askMarkerClear).choices = s.choices := rfl
@[simp] theorem State.askMarkerClear_stopped : (s.askMarkerClear).stopped = s.stopped := rfl
@[simp] theorem State.askMarkerClear_inp : (s.askMarkerClear).inp = s.inp := rfl
@[simp] theorem State.askMarkerClear_circuits : (s.askMarkerClear).circuits = s.circuits := rfl
@[simp] theorem State.askMarkerClear_lib : (s.askMarkerClear).lib = s.lib := rfl
@[simp] theorem State.askMarkerClear_store : (s.askMarkerClear).store = { s.store with pendingClear := true } := rfl
@[simp] theorem State.askMarkerClear_calResult : (s.askMarkerClear).calResult = s.calResult := rfl
@[simp] theorem State.askMarkerClear_bk : (s.askMarkerClear).bk = s.bk := rfl
@[simp] theorem State.askMarkerClear_drive : (s.askMarkerClear).drive = s.drive := rfl
@[simp] theorem State.askMarkerClear_stn : (s.askMarkerClear).stn = s.stn := rfl
@[simp] theorem State.askMarkerClear_track : (s.askMarkerClear).track = s.track := rfl
@[simp] theorem State.askMarkerClear_lid : (s.askMarkerClear).lid = s.lid := rfl
@[simp] theorem State.askMarkerClear_mixer : (s.askMarkerClear).mixer = s.mixer := rfl
@[simp] theorem State.askMarkerClear_tag : (s.askMarkerClear).tag = s.tag := rfl
@[simp] theorem State.askMarkerClear_cares : (s.askMarkerClear).cares = s.cares := rfl
@[simp] theorem State.askMarkerClear_link : (s.askMarkerClear).link = s.link := rfl

/-! ### State.setFlag -/

@[simp] theorem State.setFlag_pending (f : Flag) (items : List Item) : (s.setFlag f items).pending = s.pending := rfl
@[simp] theorem State.setFlag_powered (f : Flag) (items : List Item) : (s.setFlag f items).powered = s.powered := rfl
@[simp] theorem State.setFlag_now (f : Flag) (items : List Item) : (s.setFlag f items).now = s.now := rfl
@[simp] theorem State.setFlag_choices (f : Flag) (items : List Item) : (s.setFlag f items).choices = s.choices := rfl
@[simp] theorem State.setFlag_stopped (f : Flag) (items : List Item) : (s.setFlag f items).stopped = s.stopped := rfl
@[simp] theorem State.setFlag_inp (f : Flag) (items : List Item) : (s.setFlag f items).inp = s.inp := rfl
@[simp] theorem State.setFlag_circuits (f : Flag) (items : List Item) :
    (s.setFlag f items).circuits = s.circuits := rfl
@[simp] theorem State.setFlag_lib (f : Flag) (items : List Item) : (s.setFlag f items).lib = s.lib := rfl
@[simp] theorem State.setFlag_store (f : Flag) (items : List Item) : (s.setFlag f items).store = s.store := rfl
@[simp] theorem State.setFlag_calResult (f : Flag) (items : List Item) :
    (s.setFlag f items).calResult = s.calResult := rfl
@[simp] theorem State.setFlag_bk (f : Flag) (items : List Item) : (s.setFlag f items).bk = s.bk := rfl
@[simp] theorem State.setFlag_drive (f : Flag) (items : List Item) : (s.setFlag f items).drive = s.drive := rfl
@[simp] theorem State.setFlag_stn (f : Flag) (items : List Item) : (s.setFlag f items).stn = s.stn := rfl
@[simp] theorem State.setFlag_track (f : Flag) (items : List Item) : (s.setFlag f items).track = s.track := rfl
@[simp] theorem State.setFlag_lid (f : Flag) (items : List Item) : (s.setFlag f items).lid = s.lid := rfl
@[simp] theorem State.setFlag_mixer (f : Flag) (items : List Item) : (s.setFlag f items).mixer = s.mixer := rfl
@[simp] theorem State.setFlag_tag (f : Flag) (items : List Item) : (s.setFlag f items).tag = s.tag := rfl
@[simp] theorem State.setFlag_cares (f : Flag) (items : List Item) : (s.setFlag f items).cares = s.cares := rfl
@[simp] theorem State.setFlag_link (f : Flag) (items : List Item) :
    (s.setFlag f items).link = s.link.setFlag f items := rfl

/-! ### State.pushReply -/

@[simp] theorem State.pushReply_pending (place : Bool) (r : Reply) : (s.pushReply place r).pending = s.pending := rfl
@[simp] theorem State.pushReply_powered (place : Bool) (r : Reply) : (s.pushReply place r).powered = s.powered := rfl
@[simp] theorem State.pushReply_now (place : Bool) (r : Reply) : (s.pushReply place r).now = s.now := rfl
@[simp] theorem State.pushReply_choices (place : Bool) (r : Reply) : (s.pushReply place r).choices = s.choices := rfl
@[simp] theorem State.pushReply_stopped (place : Bool) (r : Reply) : (s.pushReply place r).stopped = s.stopped := rfl
@[simp] theorem State.pushReply_inp (place : Bool) (r : Reply) : (s.pushReply place r).inp = s.inp := rfl
@[simp] theorem State.pushReply_circuits (place : Bool) (r : Reply) :
    (s.pushReply place r).circuits = s.circuits := rfl
@[simp] theorem State.pushReply_lib (place : Bool) (r : Reply) : (s.pushReply place r).lib = s.lib := rfl
@[simp] theorem State.pushReply_store (place : Bool) (r : Reply) : (s.pushReply place r).store = s.store := rfl
@[simp] theorem State.pushReply_calResult (place : Bool) (r : Reply) :
    (s.pushReply place r).calResult = s.calResult := rfl
@[simp] theorem State.pushReply_bk (place : Bool) (r : Reply) : (s.pushReply place r).bk = s.bk := rfl
@[simp] theorem State.pushReply_drive (place : Bool) (r : Reply) : (s.pushReply place r).drive = s.drive := rfl
@[simp] theorem State.pushReply_stn (place : Bool) (r : Reply) : (s.pushReply place r).stn = s.stn := rfl
@[simp] theorem State.pushReply_track (place : Bool) (r : Reply) : (s.pushReply place r).track = s.track := rfl
@[simp] theorem State.pushReply_lid (place : Bool) (r : Reply) : (s.pushReply place r).lid = s.lid := rfl
@[simp] theorem State.pushReply_mixer (place : Bool) (r : Reply) : (s.pushReply place r).mixer = s.mixer := rfl
@[simp] theorem State.pushReply_tag (place : Bool) (r : Reply) : (s.pushReply place r).tag = s.tag := rfl
@[simp] theorem State.pushReply_cares (place : Bool) (r : Reply) : (s.pushReply place r).cares = s.cares := rfl
@[simp] theorem State.pushReply_link (place : Bool) (r : Reply) :
    (s.pushReply place r).link = s.link.push (.reply place r) := rfl

/-! ### State.setInputs -/

@[simp] theorem State.setInputs_pending (f : List InEntry → List InEntry) : (s.setInputs f).pending = s.pending := rfl
@[simp] theorem State.setInputs_powered (f : List InEntry → List InEntry) : (s.setInputs f).powered = s.powered := rfl
@[simp] theorem State.setInputs_now (f : List InEntry → List InEntry) : (s.setInputs f).now = s.now := rfl
@[simp] theorem State.setInputs_choices (f : List InEntry → List InEntry) : (s.setInputs f).choices = s.choices := rfl
@[simp] theorem State.setInputs_stopped (f : List InEntry → List InEntry) : (s.setInputs f).stopped = s.stopped := rfl
@[simp] theorem State.setInputs_inp (f : List InEntry → List InEntry) : (s.setInputs f).inp = s.inp := rfl
@[simp] theorem State.setInputs_circuits (f : List InEntry → List InEntry) :
    (s.setInputs f).circuits = s.circuits := rfl
@[simp] theorem State.setInputs_lib (f : List InEntry → List InEntry) : (s.setInputs f).lib = s.lib := rfl
@[simp] theorem State.setInputs_store (f : List InEntry → List InEntry) : (s.setInputs f).store = s.store := rfl
@[simp] theorem State.setInputs_calResult (f : List InEntry → List InEntry) :
    (s.setInputs f).calResult = s.calResult := rfl
@[simp] theorem State.setInputs_bk (f : List InEntry → List InEntry) : (s.setInputs f).bk = s.bk := rfl
@[simp] theorem State.setInputs_drive (f : List InEntry → List InEntry) : (s.setInputs f).drive = s.drive := rfl
@[simp] theorem State.setInputs_stn (f : List InEntry → List InEntry) : (s.setInputs f).stn = s.stn := rfl
@[simp] theorem State.setInputs_track (f : List InEntry → List InEntry) : (s.setInputs f).track = s.track := rfl
@[simp] theorem State.setInputs_lid (f : List InEntry → List InEntry) : (s.setInputs f).lid = s.lid := rfl
@[simp] theorem State.setInputs_mixer (f : List InEntry → List InEntry) : (s.setInputs f).mixer = s.mixer := rfl
@[simp] theorem State.setInputs_tag (f : List InEntry → List InEntry) : (s.setInputs f).tag = s.tag := rfl
@[simp] theorem State.setInputs_cares (f : List InEntry → List InEntry) : (s.setInputs f).cares = s.cares := rfl
@[simp] theorem State.setInputs_link (f : List InEntry → List InEntry) :
    (s.setInputs f).link = { s.link with inputs := f s.link.inputs } := rfl

/-! ### State.askTag -/

@[simp] theorem State.askTag_pending (c : Circ) (k : JobKind) : (s.askTag c k).pending = s.pending := rfl
@[simp] theorem State.askTag_powered (c : Circ) (k : JobKind) : (s.askTag c k).powered = s.powered := rfl
@[simp] theorem State.askTag_now (c : Circ) (k : JobKind) : (s.askTag c k).now = s.now := rfl
@[simp] theorem State.askTag_choices (c : Circ) (k : JobKind) : (s.askTag c k).choices = s.choices := rfl
@[simp] theorem State.askTag_stopped (c : Circ) (k : JobKind) : (s.askTag c k).stopped = s.stopped := rfl
@[simp] theorem State.askTag_inp (c : Circ) (k : JobKind) : (s.askTag c k).inp = s.inp := rfl
@[simp] theorem State.askTag_circuits (c : Circ) (k : JobKind) : (s.askTag c k).circuits = s.circuits := rfl
@[simp] theorem State.askTag_lib (c : Circ) (k : JobKind) : (s.askTag c k).lib = s.lib := rfl
@[simp] theorem State.askTag_store (c : Circ) (k : JobKind) : (s.askTag c k).store = s.store := rfl
@[simp] theorem State.askTag_calResult (c : Circ) (k : JobKind) : (s.askTag c k).calResult = s.calResult := rfl
@[simp] theorem State.askTag_bk (c : Circ) (k : JobKind) : (s.askTag c k).bk = s.bk := rfl
@[simp] theorem State.askTag_drive (c : Circ) (k : JobKind) : (s.askTag c k).drive = s.drive := rfl
@[simp] theorem State.askTag_stn (c : Circ) (k : JobKind) : (s.askTag c k).stn = s.stn := rfl
@[simp] theorem State.askTag_track (c : Circ) (k : JobKind) : (s.askTag c k).track = s.track := rfl
@[simp] theorem State.askTag_lid (c : Circ) (k : JobKind) : (s.askTag c k).lid = s.lid := rfl
@[simp] theorem State.askTag_mixer (c : Circ) (k : JobKind) : (s.askTag c k).mixer = s.mixer := rfl
@[simp] theorem State.askTag_tag (c : Circ) (k : JobKind) : (s.askTag c k).tag = s.tag.ask ⟨c, k⟩ := rfl
@[simp] theorem State.askTag_cares (c : Circ) (k : JobKind) : (s.askTag c k).cares = s.cares := rfl
@[simp] theorem State.askTag_link (c : Circ) (k : JobKind) : (s.askTag c k).link = s.link := rfl

/-! ### State.dropJob -/

@[simp] theorem State.dropJob_pending : (s.dropJob).pending = s.pending := rfl
@[simp] theorem State.dropJob_powered : (s.dropJob).powered = s.powered := rfl
@[simp] theorem State.dropJob_now : (s.dropJob).now = s.now := rfl
@[simp] theorem State.dropJob_choices : (s.dropJob).choices = s.choices := rfl
@[simp] theorem State.dropJob_stopped : (s.dropJob).stopped = s.stopped := rfl
@[simp] theorem State.dropJob_inp : (s.dropJob).inp = s.inp := rfl
@[simp] theorem State.dropJob_circuits : (s.dropJob).circuits = s.circuits := rfl
@[simp] theorem State.dropJob_lib : (s.dropJob).lib = s.lib := rfl
@[simp] theorem State.dropJob_store : (s.dropJob).store = s.store := rfl
@[simp] theorem State.dropJob_calResult : (s.dropJob).calResult = s.calResult := rfl
@[simp] theorem State.dropJob_bk : (s.dropJob).bk = s.bk := rfl
@[simp] theorem State.dropJob_drive : (s.dropJob).drive = s.drive := rfl
@[simp] theorem State.dropJob_stn : (s.dropJob).stn = s.stn := rfl
@[simp] theorem State.dropJob_track : (s.dropJob).track = s.track := rfl
@[simp] theorem State.dropJob_lid : (s.dropJob).lid = s.lid := rfl
@[simp] theorem State.dropJob_mixer : (s.dropJob).mixer = s.mixer := rfl
@[simp] theorem State.dropJob_tag : (s.dropJob).tag = s.tag.drop := rfl
@[simp] theorem State.dropJob_cares : (s.dropJob).cares = s.cares := rfl
@[simp] theorem State.dropJob_link : (s.dropJob).link = s.link := rfl

/-! ### State.setBus -/

@[simp] theorem State.setBus_pending (b : BusState) : (s.setBus b).pending = s.pending := rfl
@[simp] theorem State.setBus_powered (b : BusState) : (s.setBus b).powered = s.powered := rfl
@[simp] theorem State.setBus_now (b : BusState) : (s.setBus b).now = s.now := rfl
@[simp] theorem State.setBus_choices (b : BusState) : (s.setBus b).choices = s.choices := rfl
@[simp] theorem State.setBus_stopped (b : BusState) : (s.setBus b).stopped = s.stopped := rfl
@[simp] theorem State.setBus_inp (b : BusState) : (s.setBus b).inp = s.inp := rfl
@[simp] theorem State.setBus_circuits (b : BusState) : (s.setBus b).circuits = s.circuits := rfl
@[simp] theorem State.setBus_lib (b : BusState) : (s.setBus b).lib = s.lib := rfl
@[simp] theorem State.setBus_store (b : BusState) : (s.setBus b).store = s.store := rfl
@[simp] theorem State.setBus_calResult (b : BusState) : (s.setBus b).calResult = s.calResult := rfl
@[simp] theorem State.setBus_bk (b : BusState) : (s.setBus b).bk = s.bk := rfl
@[simp] theorem State.setBus_drive (b : BusState) : (s.setBus b).drive = s.drive := rfl
@[simp] theorem State.setBus_stn (b : BusState) : (s.setBus b).stn = s.stn := rfl
@[simp] theorem State.setBus_track (b : BusState) : (s.setBus b).track = s.track := rfl
@[simp] theorem State.setBus_lid (b : BusState) : (s.setBus b).lid = s.lid := rfl
@[simp] theorem State.setBus_mixer (b : BusState) : (s.setBus b).mixer = s.mixer := rfl
@[simp] theorem State.setBus_tag (b : BusState) : (s.setBus b).tag = { s.tag with bus := b } := rfl
@[simp] theorem State.setBus_cares (b : BusState) : (s.setBus b).cares = s.cares := rfl
@[simp] theorem State.setBus_link (b : BusState) : (s.setBus b).link = s.link := rfl

/-! ### State.setActiveJob -/

@[simp] theorem State.setActiveJob_pending (a : ActiveJob) : (s.setActiveJob a).pending = s.pending := rfl
@[simp] theorem State.setActiveJob_powered (a : ActiveJob) : (s.setActiveJob a).powered = s.powered := rfl
@[simp] theorem State.setActiveJob_now (a : ActiveJob) : (s.setActiveJob a).now = s.now := rfl
@[simp] theorem State.setActiveJob_choices (a : ActiveJob) : (s.setActiveJob a).choices = s.choices := rfl
@[simp] theorem State.setActiveJob_stopped (a : ActiveJob) : (s.setActiveJob a).stopped = s.stopped := rfl
@[simp] theorem State.setActiveJob_inp (a : ActiveJob) : (s.setActiveJob a).inp = s.inp := rfl
@[simp] theorem State.setActiveJob_circuits (a : ActiveJob) : (s.setActiveJob a).circuits = s.circuits := rfl
@[simp] theorem State.setActiveJob_lib (a : ActiveJob) : (s.setActiveJob a).lib = s.lib := rfl
@[simp] theorem State.setActiveJob_store (a : ActiveJob) : (s.setActiveJob a).store = s.store := rfl
@[simp] theorem State.setActiveJob_calResult (a : ActiveJob) : (s.setActiveJob a).calResult = s.calResult := rfl
@[simp] theorem State.setActiveJob_bk (a : ActiveJob) : (s.setActiveJob a).bk = s.bk := rfl
@[simp] theorem State.setActiveJob_drive (a : ActiveJob) : (s.setActiveJob a).drive = s.drive := rfl
@[simp] theorem State.setActiveJob_stn (a : ActiveJob) : (s.setActiveJob a).stn = s.stn := rfl
@[simp] theorem State.setActiveJob_track (a : ActiveJob) : (s.setActiveJob a).track = s.track := rfl
@[simp] theorem State.setActiveJob_lid (a : ActiveJob) : (s.setActiveJob a).lid = s.lid := rfl
@[simp] theorem State.setActiveJob_mixer (a : ActiveJob) : (s.setActiveJob a).mixer = s.mixer := rfl
@[simp] theorem State.setActiveJob_tag (a : ActiveJob) :
    (s.setActiveJob a).tag = { s.tag with active := some a } := rfl
@[simp] theorem State.setActiveJob_cares (a : ActiveJob) : (s.setActiveJob a).cares = s.cares := rfl
@[simp] theorem State.setActiveJob_link (a : ActiveJob) : (s.setActiveJob a).link = s.link := rfl

/-! ### State.sendStop -/

@[simp] theorem State.sendStop_pending : (s.sendStop).pending = s.pending := rfl
@[simp] theorem State.sendStop_powered : (s.sendStop).powered = s.powered := rfl
@[simp] theorem State.sendStop_now : (s.sendStop).now = s.now := rfl
@[simp] theorem State.sendStop_choices : (s.sendStop).choices = s.choices := rfl
@[simp] theorem State.sendStop_stopped : (s.sendStop).stopped = s.stopped := rfl
@[simp] theorem State.sendStop_inp : (s.sendStop).inp = s.inp := rfl
@[simp] theorem State.sendStop_circuits : (s.sendStop).circuits = s.circuits := rfl
@[simp] theorem State.sendStop_lib : (s.sendStop).lib = s.lib := rfl
@[simp] theorem State.sendStop_store : (s.sendStop).store = s.store := rfl
@[simp] theorem State.sendStop_calResult : (s.sendStop).calResult = s.calResult := rfl
@[simp] theorem State.sendStop_bk : (s.sendStop).bk = s.bk := rfl
@[simp] theorem State.sendStop_drive : (s.sendStop).drive = s.drive := rfl
@[simp] theorem State.sendStop_stn : (s.sendStop).stn = s.stn := rfl
@[simp] theorem State.sendStop_track : (s.sendStop).track = s.track := rfl
@[simp] theorem State.sendStop_lid : (s.sendStop).lid = s.lid := rfl
@[simp] theorem State.sendStop_mixer : (s.sendStop).mixer = s.mixer := rfl
@[simp] theorem State.sendStop_tag : (s.sendStop).tag = { s.tag with stopping := true } := rfl
@[simp] theorem State.sendStop_cares : (s.sendStop).cares = s.cares := rfl
@[simp] theorem State.sendStop_link : (s.sendStop).link = s.link := rfl

/-! ### State.setCursor -/

@[simp] theorem State.setCursor_pending (n : Nat) : (s.setCursor n).pending = s.pending := rfl
@[simp] theorem State.setCursor_powered (n : Nat) : (s.setCursor n).powered = s.powered := rfl
@[simp] theorem State.setCursor_now (n : Nat) : (s.setCursor n).now = s.now := rfl
@[simp] theorem State.setCursor_choices (n : Nat) : (s.setCursor n).choices = s.choices := rfl
@[simp] theorem State.setCursor_stopped (n : Nat) : (s.setCursor n).stopped = s.stopped := rfl
@[simp] theorem State.setCursor_inp (n : Nat) : (s.setCursor n).inp = s.inp := rfl
@[simp] theorem State.setCursor_circuits (n : Nat) : (s.setCursor n).circuits = s.circuits := rfl
@[simp] theorem State.setCursor_lib (n : Nat) : (s.setCursor n).lib = { s.lib with cursor := n } := rfl
@[simp] theorem State.setCursor_store (n : Nat) : (s.setCursor n).store = s.store := rfl
@[simp] theorem State.setCursor_calResult (n : Nat) : (s.setCursor n).calResult = s.calResult := rfl
@[simp] theorem State.setCursor_bk (n : Nat) : (s.setCursor n).bk = s.bk := rfl
@[simp] theorem State.setCursor_drive (n : Nat) : (s.setCursor n).drive = s.drive := rfl
@[simp] theorem State.setCursor_stn (n : Nat) : (s.setCursor n).stn = s.stn := rfl
@[simp] theorem State.setCursor_track (n : Nat) : (s.setCursor n).track = s.track := rfl
@[simp] theorem State.setCursor_lid (n : Nat) : (s.setCursor n).lid = s.lid := rfl
@[simp] theorem State.setCursor_mixer (n : Nat) : (s.setCursor n).mixer = s.mixer := rfl
@[simp] theorem State.setCursor_tag (n : Nat) : (s.setCursor n).tag = s.tag := rfl
@[simp] theorem State.setCursor_cares (n : Nat) : (s.setCursor n).cares = s.cares := rfl
@[simp] theorem State.setCursor_link (n : Nat) : (s.setCursor n).link = s.link := rfl

end Sys2Proof.Machine
end

