-- ==== Sys2Proof/Laws/Ops.lean ====
section
/-! SUPPORT. The laws of the shared operations over tables, where a read after a write of the same entry gives what was
written and a write leaves every other entry, and of the counts of an order line. -/

namespace Sys2Proof.Machine

/-! ### Tables -/

@[simp] theorem updAt_get {α : Type} {n : Nat} (v : Vector α n) (i : Fin n) (f : α → α) :
    (updAt v i f)[i.val] = f v[i.val] := by
  simp [updAt]

theorem updAt_get_ne {α : Type} {n : Nat} (v : Vector α n) {i j : Fin n} (f : α → α) (h : j ≠ i) :
    (updAt v i f)[j] = v[j] := by
  have : i.val ≠ j.val := fun e => h (Fin.ext e.symm)
  simp [updAt, Vector.getElem_set_ne, this]

theorem updAt_get_eq {α : Type} {n : Nat} (v : Vector α n) (i j : Fin n) (f : α → α) :
    (updAt v i f)[j] = if j = i then f v[i] else v[j] := by
  by_cases h : j = i
  · subst h; simp [-Fin.getElem_fin, show (updAt v j f)[j] = f v[j] from updAt_get v j f]
  · simp [h, updAt_get_ne v f h]

/-! ### Circuits and pumps -/

@[simp] theorem setCircuit_circuit (s : State) (c : Circ) (f : Circuit → Circuit) :
    (s.setCircuit c f).circuit c = f (s.circuit c) := by
  simp [State.circuit]

theorem setCircuit_circuit_ne (s : State) {c d : Circ} (f : Circuit → Circuit) (h : d ≠ c) :
    (s.setCircuit c f).circuit d = s.circuit d := by
  simp [State.circuit, updAt_get_ne _ _ h]

theorem setCircuit_circuit_eq (s : State) (c d : Circ) (f : Circuit → Circuit) :
    (s.setCircuit c f).circuit d = if d = c then f (s.circuit c) else s.circuit d := by
  by_cases h : d = c
  · subst h; simp
  · simp [h, setCircuit_circuit_ne s f h]

@[simp] theorem setPump_pump (s : State) (c : Circ) (f : Pump → Pump) : (s.setPump c f).pump c = f (s.pump c) := by
  simp [State.pump]

theorem setPump_pump_ne (s : State) {c d : Circ} (f : Pump → Pump) (h : d ≠ c) :
    (s.setPump c f).pump d = s.pump d := by
  simp [State.pump, updAt_get_ne _ _ h]

theorem setPump_pump_eq (s : State) (c d : Circ) (f : Pump → Pump) :
    (s.setPump c f).pump d = if d = c then f (s.pump c) else s.pump d := by
  by_cases h : d = c
  · subst h; simp
  · simp [h, setPump_pump_ne s f h]

@[simp] theorem setPump_circuit (s : State) (c d : Circ) (f : Pump → Pump) :
    (s.setPump c f).circuit d = s.circuit d := rfl

@[simp] theorem setActivity_circuit (s : State) (c d : Circ) (f : Activity → Activity) :
    (s.setActivity c f).circuit d = s.circuit d := rfl

@[simp] theorem setCircuit_pump (s : State) (c d : Circ) (f : Circuit → Circuit) :
    (s.setCircuit c f).pump d = s.pump d := rfl

/-- A circuit record is read from the table of circuits alone. -/
theorem circuit_congr {s t : State} (h : t.circuits = s.circuits) (c : Circ) : t.circuit c = s.circuit c := by
  simp [State.circuit, h]

/-- A pump record is read from the Drive Frame alone. -/
theorem pump_congr {s t : State} (h : t.drive = s.drive) (c : Circ) : t.pump c = s.pump c := by
  simp [State.pump, h]

/-! ### Places and mixers -/

theorem Place.ix_inj {p q : Place} (h : p.ix = q.ix) : p = q := by
  cases p <;> cases q <;> first | rfl | exact absurd h (by decide)

@[simp] theorem setPlace_placeRec (s : State) (p : Place) (f : PlaceRecord → PlaceRecord) :
    (s.setPlace p f).placeRec p = f (s.placeRec p) := by
  simp [State.placeRec]

theorem setPlace_placeRec_ne (s : State) {p q : Place} (f : PlaceRecord → PlaceRecord) (h : q ≠ p) :
    (s.setPlace p f).placeRec q = s.placeRec q := by
  simp [State.placeRec, updAt_get_ne _ _ (fun e => h (Place.ix_inj e))]

@[simp] theorem setMixer_mixerRec (s : State) (m : Mix) (f : Mixer → Mixer) :
    (s.setMixer m f).mixerRec m = f (s.mixerRec m) := by
  simp [State.mixerRec]

/-! ### The library's slots -/

theorem putSlot_cons (n : Nat) (v : Option Formula) (m : Nat) (g : Formula) (rest : List (Nat × Formula)) :
    putSlot n v ((m, g) :: rest) =
      if n < m then (v.map fun f => (n, f)).toList ++ (m, g) :: rest
      else if n = m then (v.map fun f => (n, f)).toList ++ rest
      else (m, g) :: putSlot n v rest := by
  cases v <;> simp [putSlot]

/-- The entries of a list after a write were there before, or are the one written. -/
theorem putSlot_mem {n : Nat} {v : Option Formula} {l : List (Nat × Formula)} {x : Nat × Formula}
    (h : x ∈ putSlot n v l) : x ∈ l ∨ x.1 = n := by
  induction l with
  | nil => cases v <;> simp_all [putSlot]
  | cons y rest ih =>
    obtain ⟨m, g⟩ := y
    rw [putSlot_cons] at h
    cases v <;> split at h <;> (try split at h) <;> simp at h <;> rcases h with h | h <;> simp_all <;> tauto

/-- Every write of a slot keeps the list of used slots rising by slot number. -/
theorem putSlot_rising (n : Nat) (v : Option Formula) (l : List (Nat × Formula))
    (h : l.Pairwise fun x y => x.1 < y.1) : (putSlot n v l).Pairwise fun x y => x.1 < y.1 := by
  induction l with
  | nil => cases v <;> simp [putSlot]
  | cons y rest ih =>
    obtain ⟨m, g⟩ := y
    have hr := h
    rw [List.pairwise_cons] at h
    rw [putSlot_cons]
    split
    · rename_i hlt
      cases v
      · exact hr
      · refine List.pairwise_cons.mpr ⟨fun x hx => ?_, hr⟩
        rcases List.mem_cons.mp hx with rfl | hx
        · exact hlt
        · exact lt_trans hlt (h.1 x hx)
    · split
      · rename_i heq
        subst heq
        cases v
        · exact h.2
        · exact List.pairwise_cons.mpr h
      · refine List.pairwise_cons.mpr ⟨fun x hx => ?_, ih h.2⟩
        rcases putSlot_mem hx with hx | hx
        · exact h.1 x hx
        · simp only; omega

/-- A slot reads as it was last written, and every other slot as before. -/
theorem putSlot_find (n k : Nat) (v : Option Formula) (l : List (Nat × Formula))
    (h : l.Pairwise fun x y => x.1 < y.1) :
    ((putSlot n v l).find? fun x => x.1 == k).map (·.2)
      = if k = n then v else (l.find? fun x => x.1 == k).map (·.2) := by
  have none_above {l : List (Nat × Formula)} {b : Nat} (hl : ∀ x ∈ l, b < x.1) (hk : k ≤ b) :
      l.find? (fun x => x.1 == k) = none := by
    rw [List.find?_eq_none]
    intro x hx
    have := hl x hx
    simp; omega
  induction l with
  | nil =>
    by_cases hk : k = n
    · subst hk; cases v <;> simp [putSlot]
    · have hn : (n == k) = false := by simp; omega
      cases v <;> simp [putSlot, hk, hn]
  | cons y rest ih =>
    obtain ⟨m, g⟩ := y
    rw [List.pairwise_cons] at h
    rw [putSlot_cons]
    by_cases hk : k = n
    · subst hk
      split
      · rename_i hlt
        have hm : (m == k) = false := by simp; omega
        cases v <;> simp [hm, none_above h.1 (by omega)]
      · split
        · rename_i heq
          subst heq
          cases v <;> simp [none_above h.1 (le_refl k)]
        · have hm : (m == k) = false := by simp; omega
          simpa [List.find?_cons, hm] using ih h.2
    · have hn : (n == k) = false := by simp; omega
      rw [if_neg hk]
      split
      · cases v <;> simp [List.find?_cons, hn]
      · split
        · rename_i heq
          subst heq
          cases v <;> simp [hn]
        · by_cases hm : m = k
          · simp [hm]
          · have hb : (m == k) = false := by simp [hm]
            simpa [List.find?_cons, hb, hk] using ih h.2

/-! ### The counts of an order line -/

@[simp] theorem OrderLine.tinFinishes_number (l : OrderLine) (b : Bool) : (l.tinFinishes b).number = l.number := by
  unfold OrderLine.tinFinishes; split <;> (try split) <;> rfl
@[simp] theorem OrderLine.tinFinishes_released (l : OrderLine) (b : Bool) : (l.tinFinishes b).released = l.released := by
  unfold OrderLine.tinFinishes; split <;> (try split) <;> rfl
@[simp] theorem OrderLine.tinFinishes_limit (l : OrderLine) (b : Bool) : (l.tinFinishes b).limit = l.limit := by
  unfold OrderLine.tinFinishes; split <;> (try split) <;> rfl
@[simp] theorem OrderLine.tinFinishes_state (l : OrderLine) (b : Bool) : (l.tinFinishes b).state = l.state := by
  unfold OrderLine.tinFinishes; split <;> (try split) <;> rfl
@[simp] theorem OrderLine.tinFinishes_entries (l : OrderLine) (b : Bool) : (l.tinFinishes b).entries = l.entries := by
  unfold OrderLine.tinFinishes; split <;> (try split) <;> rfl

/-- A finished tin is one live tin fewer, and no count of a line without live tins changes (R68, Assumption 37). -/
theorem OrderLine.tinFinishes_live (l : OrderLine) (b : Bool) : (l.tinFinishes b).live = l.live - 1 := by
  unfold OrderLine.tinFinishes OrderLine.live
  split
  · omega
  · split <;> simp only [] <;> omega

/-- The counts of a line keep to their bound as its tins finish (R67, R68). -/
theorem OrderLine.tinFinishes_counted (l : OrderLine) (b : Bool) (h : l.completed + l.failed ≤ l.released) :
    (l.tinFinishes b).completed + (l.tinFinishes b).failed ≤ l.released := by
  unfold OrderLine.tinFinishes OrderLine.live
  split
  · exact h
  · split <;> simp only [] <;> omega

/-- Who is named in tin= of a CONFIRM of the lane whose sensors and records agree: the slipped tins that wait for it (R151). -/
theorem laneTins_agree {s : State} (h : s.laneCount = s.track.lane.length) :
    s.laneTins = if s.laneOwed = [] then [] else [.field "tin" (s.laneOwed.map fun id => [.num id])] := by
  simp [State.laneTins, h]

end Sys2Proof.Machine
end

