-- ==== Sys2Proof/Laws/Frames.lean ====
section
/-! SUPPORT. What the shared operations leave as it is, and with them what may follow a command within its step: one
lemma for each operation, from the updates of one record up to `State.conclude`. -/

namespace Sys2Proof.Machine

/-- The counts of an order line, with its number. -/
@[simp] def OrderLine.tally (l : OrderLine) : Nat × Nat × Nat × Nat × Nat :=
  (l.number, l.released, l.completed, l.failed, l.limit)

/-- What nothing that follows a command changes: the queue, power, the clock, the STOP condition, the inputs, the
library, the circuits' settings, the records of the store and the writes lost, the counts of the order lines, the frame,
the scale's assignment and readings, the finished list, the lid policy and the magazine codes, the Tag Bus results, the
site time, and the Counter Link's inputs and enables. -/
def State.settled (s : State) :=
  ((s.pending, s.powered, s.now, s.stopped, s.inp, s.lib),
   (fun c => (s.circuit c).cfg),
   (s.store.nv, s.store.lost),
   (s.bk.lines.map OrderLine.tally, s.bk.lastNumber),
   (s.drive.scheme, s.drive.nextScheme, s.drive.slot, s.drive.frameStart, s.drive.lent),
   (s.stn.scale, s.stn.tare, s.stn.reading),
   (s.track.finished, s.lid.policy, s.lid.mags.toList.map Magazine.code),
   (s.tag.bus, s.tag.stopping, s.tag.backlog, s.tag.images, s.tag.last),
   (s.cares.siteTime, s.cares.minuteStart, s.cares.daily, s.cares.origin, s.cares.quarters),
   (s.link.inputs, s.link.overrun, s.link.enabled, s.link.startCause))

/-! ### Updates -/

@[simp] theorem settled_setCircuit (s : State) (c : Circ) (f : Circuit → Circuit) (h : ∀ r, (f r).cfg = r.cfg) :
    (s.setCircuit c f).settled = s.settled := by
  have : (fun d => ((s.setCircuit c f).circuit d).cfg) = fun d => (s.circuit d).cfg := by
    funext d
    rw [setCircuit_circuit_eq]
    split
    · rename_i e; rw [e, h]
    · rfl
  simp [State.settled, this]

@[simp] theorem settled_setPump (s : State) (c : Circ) (f : Pump → Pump) : (s.setPump c f).settled = s.settled := rfl

@[simp] theorem settled_setActivity (s : State) (c : Circ) (f : Activity → Activity) :
    (s.setActivity c f).settled = s.settled := rfl

@[simp] theorem settled_forfeitSlots (s : State) (c : Circ) : (s.forfeitSlots c).settled = s.settled := rfl

@[simp] theorem settled_setPlace (s : State) (p : Place) (f : PlaceRecord → PlaceRecord) :
    (s.setPlace p f).settled = s.settled := rfl

@[simp] theorem settled_setMixer (s : State) (m : Mix) (f : Mixer → Mixer) : (s.setMixer m f).settled = s.settled := rfl

@[simp] theorem settled_setTin (s : State) (id : Nat) (f : Tin → Tin) : (s.setTin id f).settled = s.settled := rfl

@[simp] theorem settled_addTin (s : State) (t : Tin) : (s.addTin t).settled = s.settled := rfl

@[simp] theorem settled_setTrack (s : State) (f : Track → Track) (h : ∀ t, (f t).finished = t.finished) :
    (s.setTrack f).settled = s.settled := by
  simp [State.settled, h, State.circuit]

@[simp] theorem settled_setLine (s : State) (n : Nat) (f : OrderLine → OrderLine) (h : ∀ l, (f l).tally = l.tally) :
    (s.setLine n f).settled = s.settled := by
  have : OrderLine.tally ∘ (fun l => if l.number = n then f l else l) = OrderLine.tally := by
    funext l
    simp only [Function.comp]
    split
    · exact h l
    · rfl
  have e : (s.bk.lines.map fun l => if l.number = n then f l else l).map OrderLine.tally
      = s.bk.lines.map OrderLine.tally := by rw [List.map_map, this]
  simp [-OrderLine.tally, -List.map_map, State.settled, e, State.circuit]

@[simp] theorem settled_setStn (s : State) (f : Station → Station)
    (h : ∀ t, (f t).scale = t.scale ∧ (f t).tare = t.tare ∧ (f t).reading = t.reading) :
    (s.setStn f).settled = s.settled := by
  simp [State.settled, h, State.circuit]

@[simp] theorem settled_setLid (s : State) (f : Lidder → Lidder)
    (h : ∀ l, (f l).policy = l.policy ∧ (f l).mags.toList.map Magazine.code = l.mags.toList.map Magazine.code) :
    (s.setLid f).settled = s.settled := by
  simp [State.settled, h, State.circuit]

/-- The end of a claim changes the closing delay alone. -/
@[simp] theorem Station.claimEnds_frame (t : Station) (n : Nat) :
    (t.claimEnds n).scale = t.scale ∧ (t.claimEnds n).tare = t.tare ∧ (t.claimEnds n).reading = t.reading := by
  unfold Station.claimEnds; split <;> simp

@[simp] theorem settled_addDue (s : State) (c : Circ) (t : Nat) : (s.addDue c t).settled = s.settled := rfl
@[simp] theorem settled_dropDue (s : State) (c : Circ) : (s.dropDue c).settled = s.settled := rfl
@[simp] theorem settled_linkWrite (s : State) (r : StoreRecord) : (s.linkWrite r).settled = s.settled := rfl
@[simp] theorem settled_markDirty (s : State) (c : Circ) : (s.markDirty c).settled = s.settled := rfl
@[simp] theorem settled_askMarkerSet (s : State) (m : Marker) : (s.askMarkerSet m).settled = s.settled := rfl
@[simp] theorem settled_askMarkerClear (s : State) : s.askMarkerClear.settled = s.settled := rfl
@[simp] theorem settled_choose (s : State) : s.choose.settled = s.settled := rfl

/-- What a new line for the transmitter leaves. -/
theorem Link.push_frame (l : Link) (x : OutLine) :
    (l.push x).inputs = l.inputs ∧ (l.push x).overrun = l.overrun ∧ (l.push x).enabled = l.enabled
      ∧ (l.push x).startCause = l.startCause ∧ (l.push x).flags = l.flags := by
  unfold Link.push; split <;> simp

/-- What setting a flag leaves. -/
theorem Link.setFlag_frame (l : Link) (f : Flag) (items : List Item) :
    (l.setFlag f items).inputs = l.inputs ∧ (l.setFlag f items).overrun = l.overrun
      ∧ (l.setFlag f items).enabled = l.enabled ∧ (l.setFlag f items).startCause = l.startCause := by
  unfold Link.setFlag
  split
  · simp
  · dsimp only
    split
    · have h := Link.push_frame { l with flags := l.flags ++ [(f, items)] } (.notice f items)
      exact ⟨h.1, h.2.1, h.2.2.1, h.2.2.2.1⟩
    · simp

@[simp] theorem settled_setFlag (s : State) (f : Flag) (items : List Item) : (s.setFlag f items).settled = s.settled := by
  have h := Link.setFlag_frame s.link f items
  simp [State.settled, h, State.circuit]

@[simp] theorem settled_pushReply (s : State) (p : Bool) (r : Reply) : (s.pushReply p r).settled = s.settled := by
  have h := Link.push_frame s.link (.reply p r)
  simp [State.settled, h, State.circuit]

theorem settled_race (s : State) (b : Bool) (f g : State → State) (hf : ∀ t, (f t).settled = t.settled)
    (hg : ∀ t, (g t).settled = t.settled) : (s.race b f g).settled = s.settled := by
  unfold State.race
  split
  · simp [hf, hg]
  · split <;> simp [hf, hg]

/-- A fold of operations that settle leaves what they leave. -/
theorem settled_foldl {α : Type} (f : State → α → State) (h : ∀ s x, (f s x).settled = s.settled) (l : List α)
    (s : State) : (l.foldl f s).settled = s.settled := by
  induction l generalizing s with
  | nil => rfl
  | cons x xs ih => simp [ih, h]

theorem settled_forCircuits (f : Circ → State → State) (h : ∀ c s, (f c s).settled = s.settled) (s : State) :
    (forCircuits f s).settled = s.settled := settled_foldl _ (fun s c => h c s) _ _

/-! ### Circuits and dues -/

@[simp] theorem settled_purgeBecomesDue (s : State) (c : Circ) (w : PurgeCause) :
    (s.purgeBecomesDue c w).settled = s.settled := by
  unfold State.purgeBecomesDue
  simp

@[simp] theorem settled_clearPurgeDue (s : State) (c : Circ) : (s.clearPurgeDue c).settled = s.settled := by
  unfold State.clearPurgeDue
  split
  · rfl
  · exact settled_setCircuit s c (fun r => { r with purgeDue := none }) fun _ => rfl

@[simp] theorem settled_purgeTest (s : State) (c : Circ) : (s.purgeTest c).settled = s.settled := by
  unfold State.purgeTest
  repeat' split
  all_goals simp

@[simp] theorem settled_clearIntervalDue (s : State) (c : Circ) : (s.clearIntervalDue c).settled = s.settled := by
  unfold State.clearIntervalDue
  repeat' split
  all_goals simp

@[simp] theorem settled_endStir (s : State) (c : Circ) : (s.endStir c).settled = s.settled := by
  unfold State.endStir
  simp

@[simp] theorem settled_cutStir (s : State) (c : Circ) (b : Bool) : (s.cutStir c b).settled = s.settled := by
  unfold State.cutStir
  repeat' split
  all_goals simp

@[simp] theorem settled_stirComesDue (s : State) (c : Circ) (t : Nat) : (s.stirComesDue c t).settled = s.settled := by
  unfold State.stirComesDue
  repeat' split
  all_goals simp

@[simp] theorem settled_moveCircuit (s : State) (c : Circ) (g : CircuitState) :
    (s.moveCircuit c g).settled = s.settled := by
  unfold State.moveCircuit
  dsimp only
  repeat' split
  all_goals simp

@[simp] theorem settled_lowEvaluate (s : State) (c : Circ) : (s.lowEvaluate c).settled = s.settled := by
  unfold State.lowEvaluate
  dsimp only
  repeat' split
  all_goals simp

@[simp] theorem settled_enterEmpty (s : State) (c : Circ) : (s.enterEmpty c).settled = s.settled := by
  unfold State.enterEmpty
  simp

@[simp] theorem settled_emptyCheck (s : State) (c : Circ) : (s.emptyCheck c).settled = s.settled := by
  unfold State.emptyCheck
  dsimp only
  repeat' split
  all_goals simp

@[simp] theorem settled_reduceLevel (s : State) (c : Circ) (n : Nat) (t : Int) :
    (s.reduceLevel c n t).settled = s.settled := by
  unfold State.reduceLevel
  dsimp only
  repeat' split
  all_goals simp

/-! ### Pumps -/

@[simp] theorem settled_createActivity (s : State) (c : Circ) (q : PumpRequest) :
    (s.createActivity c q).settled = s.settled := by
  unfold State.createActivity
  repeat' split
  all_goals simp

@[simp] theorem settled_askPump (s : State) (c : Circ) (q : PumpRequest) :
    ((s.askPump c q).1).settled = s.settled := by
  unfold State.askPump
  repeat' split
  all_goals simp

@[simp] theorem settled_askPrime (s : State) (c : Circ) : (s.askPrime c).settled = s.settled := by
  unfold State.askPrime
  simp

@[simp] theorem settled_askPrimeAgain (s : State) (c : Circ) : (s.askPrimeAgain c).settled = s.settled := by
  unfold State.askPrimeAgain
  repeat' split
  all_goals simp

@[simp] theorem settled_setEntry (s : State) (id k : Nat) (f : DoseEntry → DoseEntry) :
    (s.setEntry id k f).settled = s.settled := by
  unfold State.setEntry
  simp

@[simp] theorem settled_noteTin (s : State) (id : Nat) (n : Note) : (s.noteTin id n).settled = s.settled := by
  unfold State.noteTin
  simp

@[simp] theorem settled_readyTin (s : State) (id : Nat) : (s.readyTin id).settled = s.settled := by
  unfold State.readyTin
  simp

@[simp] theorem settled_stageTin (s : State) (id : Nat) (g : Stage) : (s.stageTin id g).settled = s.settled := by
  unfold State.stageTin
  simp

@[simp] theorem settled_doseEnded (s : State) (c : Circ) (id k : Nat) (a : Activity) (v : Nat) (w : EndCause) :
    (s.doseEnded c id k a v w).settled = s.settled := by
  unfold State.doseEnded
  dsimp only
  repeat' split
  all_goals simp

@[simp] theorem settled_primeEnded (s : State) (c : Circ) : (s.primeEnded c).settled = s.settled := by
  unfold State.primeEnded
  dsimp only
  repeat' split
  all_goals simp

@[simp] theorem settled_tellOwner (s : State) (c : Circ) (a : Activity) (v : Nat) (w : EndCause) :
    (s.tellOwner c a v w).settled = s.settled := by
  unfold State.tellOwner
  dsimp only
  have h (f : Option CalRun → Option CalRun) (s : State) :
      ({ s with stn := { s.stn with cal := f s.stn.cal } } : State).settled = s.settled := rfl
  repeat' split
  all_goals simp [h]

/-- The report of a run that RESTART cut leaves the last-delivery time and nothing else of the circuit (R217). -/
theorem keepDelivery_circuit (s : State) (c : Circ) (a : Activity) (b : Circuit) :
    (s.keepDelivery c a b).circuit c =
      if a.restarted then { s.circuit c with lastDelivery := b.lastDelivery } else s.circuit c := by
  unfold State.keepDelivery
  split <;> simp

@[simp] theorem settled_keepDelivery (s : State) (c : Circ) (a : Activity) (b : Circuit) :
    (s.keepDelivery c a b).settled = s.settled := by
  unfold State.keepDelivery
  split
  all_goals simp

@[simp] theorem settled_releaseNext (s : State) (c : Circ) : (s.releaseNext c).settled = s.settled := by
  unfold State.releaseNext
  repeat' split
  all_goals simp

@[simp] theorem settled_endActivity (s : State) (c : Circ) (w : EndCause) :
    (s.endActivity c w).settled = s.settled := by
  unfold State.endActivity
  dsimp only
  repeat' split
  all_goals simp

@[simp] theorem settled_abandonNow (s : State) (c : Circ) : (s.abandonNow c).settled = s.settled := by
  unfold State.abandonNow
  dsimp only
  repeat' split
  all_goals simp

@[simp] theorem settled_abandon (s : State) (c : Circ) : (s.abandon c).settled = s.settled := by
  unfold State.abandon
  repeat' split
  all_goals simp

@[simp] theorem settled_abandonPurges (s : State) : s.abandonPurges.settled = s.settled := by
  unfold State.abandonPurges
  refine settled_forCircuits _ (fun c s => ?_) _
  repeat' split
  all_goals simp

@[simp] theorem settled_createHeldPrime (s : State) (c : Circ) : (s.createHeldPrime c).settled = s.settled := by
  unfold State.createHeldPrime
  repeat' split
  all_goals simp

@[simp] theorem settled_primeCap (s : State) (c : Circ) : (s.primeCap c).settled = s.settled := by
  unfold State.primeCap
  repeat' split
  all_goals simp

@[simp] theorem settled_primesLook (s : State) : s.primesLook.settled = s.settled := by
  unfold State.primesLook
  refine settled_forCircuits _ (fun c s => ?_) _
  all_goals simp

/-! ### Tins and places -/

@[simp] theorem settled_setUncertain (s : State) (p : Place) (b : Bool) :
    (s.setUncertain p b).settled = s.settled := by
  unfold State.setUncertain
  simp

@[simp] theorem settled_restAt (s : State) (p : Place) (id : Nat) : (s.restAt p id).settled = s.settled := by
  unfold State.restAt
  simp

@[simp] theorem settled_orphanAt (s : State) (p : Place) : (s.orphanAt p).settled = s.settled := by
  unfold State.orphanAt
  dsimp only
  repeat' split
  all_goals simp

@[simp] theorem settled_slipSeen (s : State) (p : Place) (id : Nat) : (s.slipSeen p id).settled = s.settled := by
  unfold State.slipSeen
  simp

@[simp] theorem settled_appeared (s : State) (p : Place) : (s.appeared p).settled = s.settled := by
  unfold State.appeared
  dsimp only
  simp

@[simp] theorem settled_vanished (s : State) (p : Place) (id : Nat) : (s.vanished p id).settled = s.settled := by
  unfold State.vanished
  simp

@[simp] theorem settled_zoneCompare (s : State) (p : Place) : (s.zoneCompare p).settled = s.settled := by
  unfold State.zoneCompare
  repeat' split
  all_goals simp

/-! ### The station -/

@[simp] theorem settled_oweAttempt (s : State) : s.oweAttempt.settled = s.settled := by
  unfold State.oweAttempt
  simp

@[simp] theorem settled_jobIdle (s : State) : s.jobIdle.settled = s.settled := by
  unfold State.jobIdle
  dsimp only
  simp

@[simp] theorem settled_beginSettle (s : State) : s.beginSettle.settled = s.settled := by
  unfold State.beginSettle
  repeat' split
  all_goals simp

@[simp] theorem settled_notRun (s : State) (id k : Nat) : (s.notRun id k).settled = s.settled := by
  unfold State.notRun
  simp

@[simp] theorem settled_compareLot (s : State) (id k : Nat) (c : Circ) :
    (s.compareLot id k c).settled = s.settled := by
  unfold State.compareLot
  repeat' split
  all_goals first
    | rfl
    | simp
    | exact settled_setLine _ _ _ fun _ => rfl

@[simp] theorem settled_handDose (s : State) (id k : Nat) (e : DoseEntry) (b : Bool) :
    (s.handDose id k e b).settled = s.settled := by
  unfold State.handDose
  dsimp only
  repeat' split
  all_goals simp

@[simp] theorem settled_lookEntry (s : State) (id k : Nat) : (s.lookEntry id k).settled = s.settled := by
  unfold State.lookEntry
  repeat' split
  all_goals simp

@[simp] theorem settled_lookEntries (s : State) (id : Nat) : (s.lookEntries id).settled = s.settled := by
  unfold State.lookEntries
  refine settled_foldl _ (fun s x => ?_) _ _
  all_goals simp

@[simp] theorem settled_checkDecided (s : State) (id : Nat) (v : Verdict) :
    (s.checkDecided id v).settled = s.settled := by
  unfold State.checkDecided
  dsimp only
  repeat' split
  all_goals simp

@[simp] theorem settled_beginWeighing (s : State) (t : Tin) : (s.beginWeighing t).settled = s.settled := by
  unfold State.beginWeighing
  dsimp only
  repeat' split
  all_goals simp

@[simp] theorem settled_dosingLook (s : State) (id : Nat) : (s.dosingLook id).settled = s.settled := by
  unfold State.dosingLook
  dsimp only
  repeat' split
  all_goals simp

@[simp] theorem settled_calFinished (s : State) (q : CalRun) (m : Int) : (s.calFinished q m).settled = s.settled := by
  unfold State.calFinished
  have h (s : State) (r : Option CalResult) : ({ s with calResult := r } : State).settled = s.settled := rfl
  simp [h]

@[simp] theorem settled_calWeighing (s : State) (q : CalRun) : (s.calWeighing q).settled = s.settled := by
  unfold State.calWeighing
  repeat' split
  all_goals simp

@[simp] theorem settled_handCal (s : State) (q : CalRun) : (s.handCal q).settled = s.settled := by
  unfold State.handCal
  dsimp only
  repeat' split
  all_goals simp

@[simp] theorem settled_calRunning (s : State) (q : CalRun) : (s.calRunning q).settled = s.settled := by
  unfold State.calRunning
  repeat' split
  all_goals simp

@[simp] theorem settled_calPrepared (s : State) (q : CalRun) : (s.calPrepared q).settled = s.settled := by
  unfold State.calPrepared
  repeat' split
  all_goals simp

@[simp] theorem settled_stationLook (s : State) : s.stationLook.settled = s.settled := by
  unfold State.stationLook
  repeat' split
  all_goals simp

@[simp] theorem settled_capDecide (s : State) : s.capDecide.settled = s.settled := by
  unfold State.capDecide
  repeat' split
  all_goals simp

/-! ### Admission -/

@[simp] theorem settled_bindingMade (s : State) (c : Circ) : (s.bindingMade c).settled = s.settled := by
  unfold State.bindingMade
  simp

@[simp] theorem settled_bindingEnded (s : State) (c : Circ) : (s.bindingEnded c).settled = s.settled := by
  unfold State.bindingEnded
  refine settled_setCircuit _ _ _ fun r => ?_
  dsimp only
  split <;> rfl

@[simp] theorem settled_commitMade (s : State) (e : ColourantEntry) (j : Judged) :
    (s.commitMade e j).settled = s.settled := by
  unfold State.commitMade
  repeat' split
  all_goals simp

@[simp] theorem settled_commitEnded (s : State) (e : ColourantEntry) (j : Judged) :
    (s.commitEnded e j).settled = s.settled := by
  unfold State.commitEnded
  repeat' split
  all_goals simp

@[simp] theorem settled_commitPlan (s : State) (l : OrderLine) (p : List Judged) :
    (s.commitPlan l p).settled = s.settled := by
  unfold State.commitPlan
  dsimp only
  rw [settled_setLine _ _ (fun l => { l with entries := (p.zip l.entries).map fun x => commitEntry x.1 x.2 })
    (fun _ => rfl)]
  rw [settled_foldl _ (fun s x => by simp), settled_foldl _ (fun s x => by simp)]

@[simp] theorem settled_holdLine (s : State) (n : Nat) (h : Hold) : (s.holdLine n h).settled = s.settled := by
  unfold State.holdLine
  rw [settled_setFlag, settled_setLine _ _ (fun l => { l with state := .held, hold := some h }) fun _ => rfl]

@[simp] theorem settled_holdCircuit (s : State) (n c : Nat) : (s.holdCircuit n c).settled = s.settled := by
  unfold State.holdCircuit
  repeat' split
  all_goals simp

@[simp] theorem settled_admitTin (s : State) (t : Tin) (l : OrderLine) (p : List Judged) :
    (s.admitTin t l p).settled = s.settled := by
  unfold State.admitTin
  have h (ns : List Note) (id : Nat) (s : State) : (ns.foldl (fun u n => u.noteTin id n) s).settled = s.settled :=
    settled_foldl _ (fun s x => by simp) _ _
  dsimp only
  split <;> simp [h]

@[simp] theorem settled_judgePlan (s : State) (t : Tin) (l : OrderLine) (p : List Judged) :
    (s.judgePlan t l p).settled = s.settled := by
  unfold State.judgePlan
  repeat' split
  all_goals simp

@[simp] theorem settled_attempt (s : State) : s.attempt.settled = s.settled := by
  unfold State.attempt
  repeat' split
  all_goals simp

@[simp] theorem settled_attemptLook (s : State) : s.attemptLook.settled = s.settled := by
  unfold State.attemptLook
  repeat' split
  all_goals simp

/-! ### The Lidder and the Mixers -/

@[simp] theorem settled_lidEmpty (s : State) (id : Nat) (k : Fin 3) : (s.lidEmpty id k).settled = s.settled := by
  unfold State.lidEmpty
  simp

@[simp] theorem settled_bypassTin (s : State) (id : Nat) (g : LidStatus) :
    (s.bypassTin id g).settled = s.settled := by
  unfold State.bypassTin
  simp

@[simp] theorem settled_noLid (s : State) (id : Nat) (k : Fin 3) : (s.noLid id k).settled = s.settled := by
  unfold State.noLid
  dsimp only
  repeat' split
  all_goals simp

@[simp] theorem settled_lidSearch (s : State) : s.lidSearch.settled = s.settled := by
  unfold State.lidSearch
  repeat' split
  all_goals simp

@[simp] theorem settled_drawLid (s : State) (m : Fin 3) : (s.drawLid m).settled = s.settled := by
  unfold State.drawLid
  have h : (s.setLid fun l =>
      { l with drawn := true, mags := updAt l.mags m fun x => { x with count := x.count - 1 } }).settled = s.settled := by
    refine settled_setLid _ _ fun l => ⟨rfl, ?_⟩
    simp only [updAt, Vector.toList_set, List.map_set]
    apply List.ext_getElem <;> simp
    intro i h1
    by_cases e : m.val = i
    · subst e; simp
    · simp [e]
  dsimp only
  split <;> simp [h]

@[simp] theorem settled_startCycle (s : State) : s.startCycle.settled = s.settled := by
  unfold State.startCycle
  simp

@[simp] theorem settled_pressLook (s : State) : s.pressLook.settled = s.settled := by
  unfold State.pressLook
  repeat' split
  all_goals simp

@[simp] theorem settled_reserveMixer (s : State) (m : Mix) (id : Nat) :
    (s.reserveMixer m id).settled = s.settled := by
  unfold State.reserveMixer
  simp

@[simp] theorem settled_mixerChoose (s : State) : s.mixerChoose.settled = s.settled := by
  unfold State.mixerChoose
  repeat' split
  all_goals simp

@[simp] theorem settled_lidderLeave (s : State) (id : Nat) : (s.lidderLeave id).settled = s.settled := by
  unfold State.lidderLeave
  split
  · exact settled_setLid _ _ fun _ => ⟨rfl, rfl⟩
  · rfl

/-! ### The track -/

@[simp] theorem settled_reserve (s : State) (p : Place) (id : Nat) : (s.reserve p id).settled = s.settled := by
  unfold State.reserve
  simp

@[simp] theorem settled_reserveNext (s : State) (p q : Place) : (s.reserveNext p q).settled = s.settled := by
  unfold State.reserveNext
  repeat' split
  all_goals simp

@[simp] theorem settled_reserveZ5 (s : State) : s.reserveZ5.settled = s.settled := by
  unfold State.reserveZ5
  repeat' split
  all_goals simp

@[simp] theorem settled_reservations (s : State) : s.reservations.settled = s.settled := by
  unfold State.reservations
  simp

@[simp] theorem settled_arriveAt (s : State) (p : Place) (id : Nat) : (s.arriveAt p id).settled = s.settled := by
  unfold State.arriveAt
  repeat' split
  all_goals simp

@[simp] theorem settled_leftZ2 (s : State) (id : Nat) : (s.leftZ2 id).settled = s.settled := by
  unfold State.leftZ2
  repeat' split
  all_goals simp

@[simp] theorem settled_beginMove (s : State) (id : Nat) (p q : Place) :
    (s.beginMove id p q).settled = s.settled := by
  unfold State.beginMove
  dsimp only
  repeat' split
  all_goals simp

@[simp] theorem settled_conveyorLook (s : State) (p q : Place) : (s.conveyorLook p q).settled = s.settled := by
  unfold State.conveyorLook
  repeat' split
  all_goals simp

@[simp] theorem settled_conveyors (s : State) : s.conveyors.settled = s.settled := by
  unfold State.conveyors
  simp

@[simp] theorem settled_armNote (s : State) : s.armNote.settled = s.settled := by
  unfold State.armNote
  dsimp only
  simp

@[simp] theorem settled_armGrant (s : State) : s.armGrant.settled = s.settled := by
  unfold State.armGrant
  repeat' split
  all_goals simp

@[simp] theorem settled_trackLook (s : State) : s.trackLook.settled = s.settled := by
  unfold State.trackLook
  simp

/-! ### Care -/

@[simp] theorem settled_startStir (s : State) (x : Circ × Nat) : (s.startStir x).settled = s.settled := by
  unfold State.startStir
  simp

@[simp] theorem settled_stirsLook (s : State) : s.stirsLook.settled = s.settled := by
  unfold State.stirsLook
  refine settled_foldl _ (fun s x => ?_) _ _
  repeat' split
  all_goals simp

@[simp] theorem settled_askPurge (s : State) (c : Circ) : (s.askPurge c).settled = s.settled := by
  unfold State.askPurge
  repeat' split
  all_goals simp

@[simp] theorem settled_purgesLook (s : State) : s.purgesLook.settled = s.settled := by
  unfold State.purgesLook
  refine settled_forCircuits _ (fun c s => ?_) _
  all_goals simp

@[simp] theorem settled_careLook (s : State) : s.careLook.settled = s.settled := by
  unfold State.careLook
  exact settled_race _ _ _ _ (fun t => by simp) (fun t => by simp)

@[simp] theorem settled_handLook (s : State) : s.handLook.settled = s.settled := by
  unfold State.handLook
  split
  · exact settled_race _ _ _ _ (fun t => by simp) (fun t => by simp)
  · simp

/-! ### What follows within a step -/

@[simp] theorem settled_look (s : State) : s.look.settled = s.settled := by
  unfold State.look
  simp

@[simp] theorem settled_react (s : State) : s.react.settled = s.settled := by
  unfold State.react
  simp

@[simp] theorem settled_loadWanted (s : State) (b : State) : (State.loadWanted b s).settled = s.settled := by
  unfold State.loadWanted
  repeat' split
  all_goals simp

/-- A clear that RESTART gave is let go, or still waits for a cut run of a listed circuit (R44). -/
theorem releaseClear_cases (s : State) :
    (s.store.heldClear = true ∧ s.cutRunsOn = false
      ∧ s.releaseClear = { s with store := { s.store with pendingClear := true, heldClear := false } })
    ∨ ((s.store.heldClear = false ∨ s.cutRunsOn = true) ∧ s.releaseClear = s) := by
  unfold State.releaseClear
  cases h : s.store.heldClear <;> cases k : s.cutRunsOn <;> simp

@[simp] theorem settled_releaseClear (s : State) : s.releaseClear.settled = s.settled := by
  unfold State.releaseClear
  split
  all_goals rfl

@[simp] theorem settled_storeTake (s : State) : s.storeTake.settled = s.settled := by
  unfold State.storeTake
  dsimp only
  repeat' split
  all_goals rfl

@[simp] theorem settled_tagBegin (s : State) : s.tagBegin.settled = s.settled := by
  have h1 (a : Option ActiveJob) (q : List TagJob) (s : State) :
      ({ s with tag := { s.tag with active := a, queue := q } } : State).settled = s.settled := rfl
  have h2 (a : ActiveJob) (s : State) : (s.setActiveJob a).settled = s.settled := rfl
  unfold State.tagBegin State.goPhase
  dsimp only
  repeat' split
  all_goals simp [h1, h2]

/-- Nothing that follows a command in its step changes what `State.settled` names. -/
@[simp] theorem settled_conclude (b s : State) : (State.conclude b s).settled = s.settled := by
  simp [State.conclude]

end Sys2Proof.Machine
end

