-- ==== Sys2Proof/Laws/Requests.lean ====
section
/-! SUPPORT. What each shape of a command comes to: a refused, a reporting and an accepted request, and an event, with
and without a change of an input. -/

namespace Sys2Proof.Machine

@[simp] theorem Answer.check_true (r : Reason) (a : Answer) : Answer.check true r a = .refuse r := rfl
@[simp] theorem Answer.check_false (r : Reason) (a : Answer) : Answer.check false r a = a := rfl
@[simp] theorem Answer.unless_some (r : Reason) (a : Answer) : Answer.unless (some r) a = .refuse r := rfl
@[simp] theorem Answer.unless_none (a : Answer) : Answer.unless none a = a := rfl

theorem whenPowered_on {s : State} (f : State → State) (h : s.powered = true) : whenPowered f s = .next (f s) := by
  simp [whenPowered, h]

theorem whenPowered_off {s : State} (f : State → State) (h : s.powered = false) : whenPowered f s = .next s := by
  simp [whenPowered, h]

/-- A refused request changes nothing but the output list. -/
theorem request_refused {answer : State → Answer} {s : State} {r : Reason} (hp : s.powered = true)
    (h : answer s = .refuse r) : request answer s = .next (s.pushReply false (.no r)) := by
  simp [request, whenPowered, hp, h, State.give]

/-- A report changes nothing but the output list. -/
theorem request_reports {answer : State → Answer} {s : State} {items : List Item} (hp : s.powered = true)
    (h : answer s = .report items) : request answer s = .next (s.pushReply false (.ok items)) := by
  simp [request, whenPowered, hp, h, State.give]

/-- An accepted request makes its change behind its reply, and ends its step. -/
theorem request_accepted {answer : State → Answer} {s : State} {items : List Item} {effect : State → State}
    (hp : s.powered = true) (h : answer s = .accept items effect) :
    request answer s = .next (State.conclude s (effect (s.pushReply false (.ok items)))) := by
  simp [request, whenPowered, hp, h, State.give]

/-- An event makes its change and ends its step. -/
theorem event_taken {change : State → State} {s : State} (hp : s.powered = true) :
    event change s = .next (State.conclude s (change s)) := by
  simp [event, whenPowered, hp, State.after]

/-- An event that reports an input sets it, makes its change and ends its step. -/
theorem inputEvent_taken {setInput : Inputs → Inputs} {change : State → State} {s : State} (hp : s.powered = true) :
    inputEvent setInput change s
      = .next (State.conclude { s with inp := setInput s.inp } (change { s with inp := setInput s.inp })) := by
  simp [inputEvent, withInput, hp, State.after]

end Sys2Proof.Machine
end

