-- ==== Sys2Proof/Tests/Slice0.lean ====
section
/-! SUPPORT. Tests: ill-formed commands, the worked examples of the spec, single steps, and for each obligation with
hypotheses states and operands that meet them, clause by clause. -/

namespace Sys2Proof.Tests

open Sys2Proof Sys2Proof.Machine

set_option Elab.async false

/-! ### Helpers -/

/-- The fields of a request from their texts. -/
def fields (l : List (String × String)) : Fields := l.map fun x => ⟨txt x.1, txt x.2⟩

/-- Some property holds of the next state. -/
def nextHas (o : Host.Outcome State Fault Refusal) (p : State → Bool) : Bool :=
  match o with
  | .next t => p t
  | _ => false

/-- Circuit c with a code, in a state. -/
def fitted (c : Circ) (g : CircuitState) (s : State := State.reset) : State :=
  s.setCircuit c fun r => { r with state := g, cfg := { r.cfg with code := some (txt "OX1") } }

/-- A store with n link writes queued. -/
def queued (n : Nat) (s : State := State.reset) : State :=
  { s with store := { s.store with fifo := List.replicate n (.daily 0) } }

theorem queued_fifo {p : StoreRecord → Prop} (h : p (.daily 0)) (n : Nat) (s : State) : ∀ r ∈ (queued n s).store.fifo, p r := by
  intro r hr
  obtain ⟨-, rfl⟩ := List.mem_replicate.mp hr
  exact h

/-- A formula of one colourant line on base B2. -/
def plain : Formula := ⟨none, 1, [(txt "OX1", 100)]⟩

/-- A line of 24 tins in a state with its counts. -/
def orderLine (n : Nat) (g : LineState) (released limit : Nat) : OrderLine where
  number := n
  ref := none
  formula := plain
  slot := none
  size := 2
  tins := 24
  limit := limit
  rush := false
  state := g
  hold := if g = .held then some .weight else none
  released := released
  completed := 0
  failed := 0
  entries := [⟨none, none, none⟩]

def withLines (ls : List OrderLine) (s : State := State.reset) : State := { s with bk := ⟨ls, 0⟩ }

/-- A tin of an order line in a stage. -/
def tinOf (id : Nat) (g : Stage) : Tin := { Tin.orphan id with order := some (7, 1), size := some 2, stage := g }

/-- Tins of the track. -/
def withTins (ts : List Tin) (s : State := State.reset) : State := { s with track := { s.track with tins := ts } }

/-- A tin that rests at a place, with the place's sensor as given. -/
def atPlace (p : Place) (t : Tin) (shown : Bool) (s : State := State.reset) : State :=
  let u := (withTins [t] s).setPlace p fun r => { r with tin := some t.id }
  { u with inp := u.inp.setPlace p shown }

/-- A pump with an activity. -/
def driving (c : Circ) (a : Activity) (b : Option Burst) (p : Piston := .known 25600) (s : State := State.reset) : State :=
  s.setPump c fun x => { x with activity := some a, burst := b, piston := p }

def dose (planned delivered : Nat) (ph : Phase := .deliver) : Activity :=
  ⟨.dose, .tin 1 0, planned, delivered, ph, .running, false, none, false⟩

/-- A tag job in a step. -/
def tagJob (k : JobKind) (pt : JobPoint) (st : JobStep) (losses faults : Nat) (bs : List (BitVec 8) := [])
    (s : State := State.reset) : State :=
  { s with tag := { s.tag with active := some ⟨⟨2, k⟩, pt, st, losses, faults, [], bs, 0, false⟩ } }

/-- A standalone REFILL. -/
def refillRun (b : Option AtBoundary := none) : Activity := ⟨.refill, .table, 0, 0, .refill, .running, false, b, false⟩

def pairOx : Settings := { Settings.default with code := some (txt "OX1") }

def station (f : Station → Station) (s : State := State.reset) : State := { s with stn := f s.stn }

/-- A tin on its way from one place to another. -/
def onWay (src dst : Place) (t : Tin) (deadline : Option Nat := some 4000000) : State :=
  let s := withTins [t]
  let s1 := (s.setPlace src fun r => { r with departing := true }).setPlace dst fun r =>
    if dst = .out then r else { r with tin := some t.id, arriving := true }
  { s1 with
    track := { s1.track with moves := [⟨t.id, src, dst, deadline⟩], lane := if dst = .out then [t.id] else [] }
    stn := { s1.stn with job := .inbound, tin := some t.id } }

/-! ### Well-formed commands: one ill-formed term for each check -/

theorem test_wf_record : (Instr.powerOn [.slot 401]).wellFormed = false := by decide
theorem test_wf_records_once : (Instr.powerOn [.marker, .marker]).wellFormed = false := by decide
theorem test_wf_reading : (Instr.settleEnd (.mg 15)).wellFormed = false := by decide
theorem test_wf_reading_over : (Instr.settleEnd (.mg 25000010)).wellFormed = false := by decide
theorem test_wf_arrival : (Instr.arrival .z1 48).wellFormed = false := by decide
theorem test_wf_jam : (Instr.jam .z1).wellFormed = false := by decide
theorem test_wf_zone : (Instr.zoneDisagreement .mixA true).wellFormed = false := by decide
theorem test_wf_message : (Instr.messageReceived [.chr 10]).wellFormed = false := by decide
theorem test_wf_height : (Instr.placeSensorChange (.height (some 7))).wellFormed = false := by decide
theorem test_wf_key : (Instr.cset (fields [("Circuit", "1")])).wellFormed = false := by decide
theorem test_wf_empty_key : (Instr.cset (fields [("", "1")])).wellFormed = false := by decide
theorem test_wf_value : (Instr.cset (fields [("circuit", "1 2")])).wellFormed = false := by decide
theorem test_wf_empty_value : (Instr.cset (fields [("circuit", "")])).wellFormed = false := by decide
theorem test_wf_twice : (Instr.cset (fields [("circuit", "1"), ("circuit", "1")])).wellFormed = false := by decide
theorem test_wf_lines : (Instr.order (fields [("line", "OX1:1"), ("line", "YE2:2")])).wellFormed = true := by decide

/-! ### The table gives no word bits -/

theorem test_no_word (nbits w : Nat) : decodeTableWord nbits w = none := rfl

theorem test_fetch_word (nbits w : Nat) : State.reset.withFetchWord nbits w = State.reset := rfl

/-! ### Power-on of a store that has never been written leads to reset (R43, R232) -/

theorem test_power_on_is_reset :
    nextHas (exec (.powerOn []) { State.reset with powered := false }) (· == State.reset) = true := by decide +kernel

/-! ### Worked examples -/

/-- The three tins of section 3.2: a = 18,750 on 2,500 mL, K = 4,000, trim +12. -/
theorem test_plan_first : planSteps (targetNumerator 18750 2500 4000 12) 512000000 24 false
    = ⟨189697, .planned, none, some 784000000⟩ := by decide

theorem test_plan_second : planSteps (targetNumerator 18750 2500 4000 12) 784000000 24 false
    = ⟨189698, .planned, none, some 32000000⟩ := by decide

theorem test_plan_last : planSteps (targetNumerator 18750 2500 4000 12) 32000000 24 true
    = ⟨189697, .planned, none, none⟩ := by decide

/-- Below the minimum dose: 8.5 D is deferred, 16.5 D on the last tin is raised, 8.5 D on the last tin is dropped. -/
theorem test_plan_deferred : planSteps 8192000000 512000000 24 false = ⟨0, .deferred, none, some 8704000000⟩ := by decide
theorem test_plan_raised : planSteps 8192000000 8704000000 24 true = ⟨24, .minAdjust, some 8, none⟩ := by decide
theorem test_plan_dropped : planSteps 8192000000 512000000 24 true = ⟨0, .minAdjust, some (-8), none⟩ := by decide

/-- Tin 5 of the five-tin example. -/
theorem test_plan_settled : planSteps 10649600000 11366400000 24 true = ⟨24, .minAdjust, some 3, none⟩ := by decide

/-- The volumes of section 3.4: 186,035 steps at K = 2,500 and trim −8, and one step at K = 16,000 and trim +63. -/
theorem test_volume : stepsVolume 186035 2500 (-8) = 75000 := by decide
theorem test_volume_none : stepsVolume 1 16000 63 = 0 := by decide

/-- The calibrations A to D of section 3.5. -/
theorem test_cal_a : ((⟨2, 10000, 40000, 4000, 1250, 40000, false, .ended⟩ : CalRun).result 12310).trim = some 16 := by
  decide
theorem test_cal_b :
    ((⟨2, 10000, 40000, 4000, 1250, 40000, false, .ended⟩ : CalRun).result 11000).status = .outOfRange := by decide
theorem test_cal_c :
    ((⟨2, 10000, 40000, 4000, 1250, 40000, false, .ended⟩ : CalRun).result 950).status = .failed .lowMass := by decide
theorem test_cal_d : ((⟨2, 2345, 14422, 6150, 1100, 14422, false, .ended⟩ : CalRun).result 2640).trim = some (-23) := by
  decide

/-- The record of the canister in section 9.3. -/
theorem test_tag_bytes :
    ((⟨txt "OX1", txt "24K07A19", 40000, 5460, 1234, 3⟩ : TagImage).bytes.drop 13).take 8
      = [0x9C, 0x40, 0x15, 0x54, 0x04, 0xD2, 0x00, 0x03] := by decide

theorem test_tag_check : (⟨txt "OX1", txt "24K07A19", 40000, 5460, 1234, 3⟩ : TagImage).bytes.getLast? = some 0x25 := by
  decide

theorem test_tag_written :
    ((⟨txt "OX1", txt "24K07A19", 40000, 5460, 1234, 3⟩ : TagImage).written 4045).bytes.getLast? = some 0xB1 := by decide

theorem test_slots : (ownSlot .spread 0, ownSlot .spread 23, ownSlot .split 15, ownSlot .split 23) = (1, 31, 17, 25) := by
  decide

/-! ### What meets the hypotheses of the statements: steps and invariants -/

theorem meets_StepRunsFrontCommand : { State.reset with pending := [.slot, .taken] }.pending = .slot :: [.taken]
    ∧ State.reset.pending = [] := by decide

theorem meets_RecordsChangeAtWriteEnd :
    Instr.slot ≠ .storeWriteEnd ∧ (∀ d, Instr.slot ≠ .powerOn d) ∧ ∃ t, exec .slot State.reset = .next t :=
  ⟨by decide, nofun, _, rfl⟩

/-- A step always answers a next state; here, of an idle part. -/
theorem steps (s : State) (h : s.pending = []) : ∃ t, step s = .next t := ⟨s.idleTick, by simp [step, h]⟩

def fullLink : State := { State.reset with link := { State.reset.link with
  inputs := [.answered, .overrun, .received [], .receiving], output := [.reply true (.no .full)], overrun := 255 } }

theorem meets_StepKeepsInputPlaces : LinkInv fullLink ∧ ∃ t, step fullLink = .next t :=
  ⟨by unfold LinkInv; decide, steps _ rfl⟩

theorem meets_StepKeepsLinkWriteFifo : FifoInv (queued 8) ∧ ∃ t, step (queued 8) = .next t :=
  ⟨by unfold FifoInv; decide, steps _ rfl⟩

def twoSlots : State := { State.reset with lib := { Library.reset with slots := [(1, plain), (400, plain)] } }

theorem meets_StepKeepsSlotOrder : SlotsInv twoSlots ∧ ∃ t, step twoSlots = .next t := by
  refine ⟨⟨by unfold rising; decide, by unfold rising; decide, by unfold slotOk; decide, by unfold slotOk; decide, ?_, ?_⟩,
    steps _ rfl⟩
  · intro r h; cases h
  · intro w e h; cases h

def brimful : State := State.reset.setCircuit 0 fun r => { r with level := 4000000 }

theorem meets_StepKeepsLevels : LevelInv brimful ∧ ∃ t, step brimful = .next t :=
  ⟨by unfold LevelInv; decide, steps _ rfl⟩

def trimmedHigh : State := State.reset.setCircuit 0 fun r =>
  { r with cfg := { r.cfg with trim := 63 }, trim := -63, pendingTrim := some 63, openBatch := 1 }

theorem holds_of_all {α : Type} {p : α → Prop} [DecidablePred p] {o : Option α} (h : o.all (fun x => decide (p x)) = true) :
    ∀ x, o = some x → p x := by
  rintro x rfl; simpa using h

theorem meets_StepKeepsTrims : TrimInv trimmedHigh ∧ ∃ t, step trimmedHigh = .next t := by
  refine ⟨⟨fun c => ⟨by unfold trimOk; revert c; decide, by unfold trimOk; revert c; decide, ?_⟩, ?_, ?_, ?_, ?_⟩,
    steps _ rfl⟩
  · unfold trimOk; exact holds_of_all (by revert c; decide)
  · intro c g h
    have absent : ∀ d : Circ, trimmedHigh.store.nv.circuits[d] = none := by decide
    rw [absent c] at h; cases h
  · intro r h; cases h
  · intro w e h; cases h
  · intro q t h; cases h

theorem meets_StepKeepsTrims_nmin : NminInv trimmedHigh ∧ ∃ t, step trimmedHigh = .next t := by
  refine ⟨⟨fun c => ⟨by unfold nminOk; revert c; decide, by unfold nminOk; revert c; decide, ?_⟩, ?_, ?_, ?_⟩, steps _ rfl⟩
  · unfold nminOk; exact holds_of_all (by revert c; decide)
  · intro c g h
    have absent : ∀ d : Circ, trimmedHigh.store.nv.circuits[d] = none := by decide
    rw [absent c] at h; cases h
  · intro r h; cases h
  · intro w e h; cases h

def tableMix : State := (fitted 23 .service).setCircuit 23 fun r => { r with latchOpen := true }

theorem meets_StepKeepsCircuitStates : TableInv tableMix ∧ ∃ t, step tableMix = .next t :=
  ⟨by unfold TableInv; decide, steps _ rfl⟩

def threeLines : State := withLines
  [orderLine 65535 .running 23 24, orderLine 1 .queued 0 1, orderLine 7 .cancelled 0 0, orderLine 8 .finishing 24 24]

/-- Line 7 with its one entry bound to circuit 1. -/
def boundLine (g : LineState) (released limit : Nat) : OrderLine :=
  { orderLine 7 g released limit with entries := [⟨some 0, some 65535999999, none⟩] }

def oneBinding (l : OrderLine) (s : State := State.reset) : State :=
  (withLines [l] s).setCircuit 0 fun r => { r with openBatch := 1, pendingNmin := some 64 }

theorem meets_StepKeepsBook : BookInv threeLines ∧ BookInv (oneBinding (boundLine .running 1 24))
    ∧ ∃ t, step threeLines = .next t :=
  ⟨by unfold BookInv OrderLine.counts OrderLine.entriesFit; decide +kernel,
    by unfold BookInv OrderLine.counts OrderLine.entriesFit; decide +kernel, steps _ rfl⟩

/-- A residue just below 64 steps on a minimum dose of 64, and RUSH lines in QUEUED before and between. -/
theorem meets_StepKeepsBook_parts :
    ResidueInv ((oneBinding (boundLine .running 1 24)).setCircuit 0 fun r => { r with nmin := 64 })
    ∧ BookOrderInv (withLines [orderLine 1 .running 1 24, { orderLine 2 .queued 0 24 with rush := true },
        orderLine 3 .queued 0 24, { orderLine 4 .held 1 24 with rush := true }]) := by
  unfold ResidueInv BookOrderInv; decide +kernel

theorem meets_StepKeepsBook_nmin : NminInv threeLines := by
  refine ⟨fun c => ⟨by unfold nminOk; revert c; decide, by unfold nminOk; revert c; decide, ?_⟩, ?_, ?_, ?_⟩
  · unfold nminOk; exact holds_of_all (by revert c; decide)
  · intro c g h
    have absent : ∀ d : Circ, threeLines.store.nv.circuits[d] = none := by decide
    rw [absent c] at h; cases h
  · intro r h; cases h
  · intro w e h; cases h

def lastBurst : State := driving 0 (dose 160 0) (some ⟨false, 160, 0⟩)

theorem meets_StepKeepsPumps : PumpInv lastBurst ∧ ∃ t, step lastBurst = .next t := by
  refine ⟨fun c => ?_, steps _ rfl⟩
  by_cases h : c = 0
  · subst h
    refine ⟨by show 25600 ≤ 25600; decide, ?_, ?_⟩
    · intro a ha
      obtain rfl : dose 160 0 = a := Option.some.inj ha
      exact ⟨by decide, fun _ => trivial⟩
    · intro b hb
      obtain rfl : (⟨false, 160, 0⟩ : Burst) = b := Option.some.inj hb
      exact ⟨dose 160 0, rfl, rfl, by show 160 ≤ 25600 ∧ 0 + 160 ≤ 160; decide⟩
  · have hp : lastBurst.pump c = Pump.reset := by revert c; decide
    rw [hp]
    exact ⟨trivial, nofun, nofun⟩

def crowdedBus : State := { State.reset with tag := { TagBus.reset with
  queue := (List.finRange 8).map fun i => ⟨⟨i.val, by omega⟩, .read⟩, backlog := [⟨0, .write 5⟩] } }

theorem meets_StepKeepsTagQueue : TagQueueInv crowdedBus ∧ ∃ t, step crowdedBus = .next t :=
  ⟨by unfold TagQueueInv; decide, steps _ rfl⟩

/-! ### Requests and reports -/

theorem meets_UnknownFieldsAreRefused : State.reset.powered = true
    ∧ (∃ f ∈ fields [("colour", "1")], ∀ k ∈ knownKeys, f.key ≠ txt k) ∧ Instr.cset ∈ requestRows :=
  ⟨rfl, by decide +kernel, by simp [requestRows]⟩

/-- Reset with a calibration run in flight, or with a held result. -/
def calibrating (q : Option CalRun) (r : Option CalResult) : State :=
  { State.reset with stn := { State.reset.stn with cal := q }, calResult := r }

theorem meets_ReportsOfTheWhole : State.reset.powered = true ∧ State.reset.wantedLine = none
    ∧ threeLines.wantedLine ≠ none ∧ (calibrating none none).calResult = none
    ∧ (calibrating (some ⟨0, 1000, 4000, 4000, 1000, 4000, false, .ended⟩) none).stn.cal ≠ none
    ∧ (calibrating none (some (CalRun.result ⟨0, 1000, 4000, 4000, 1000, 4000, false, .ended⟩ 1000))).calResult ≠ none := by
  decide +kernel

/-- While a marker is cleared the store still holds it (R38, R45). -/
theorem test_marker_as_stored : .word "marker" "SET" ∈ ({ Store.reset with
    nv := { NonVolatile.blank with marker := some ⟨[1], []⟩ }, writer := some (.marker none, 30000) } : Store).statusItems := by
  decide +kernel

theorem meets_ReportsOfOneCircuit :
    ∀ x ∈ [("1", 1), ("24", 24), ("0", 0), ("25", 25)],
      (fields [("circuit", x.1)]).malformed ["circuit"] ["circuit"] ["circuit"] = false
        ∧ (fields [("circuit", x.1)]).num "circuit" = some x.2 := by decide +kernel

def oneBase : State := { State.reset with lib := { Library.reset with
  bases := Library.reset.bases.set 7 (some ⟨150000, 3⟩), sizes := Library.reset.sizes.set 11 (some ⟨20000, 6, 2, 30, 90, 300⟩)
  slots := [(400, plain)] } }

theorem meets_ReportsOfOneRecord_library :
    (∀ x ∈ [("B1", 0), ("B8", 7)], (fields [("base", x.1)]).malformed ["base"] ["base"] [] = false
      ∧ base? (fields [("base", x.1)]) = some x.2)
    ∧ (∀ x ∈ [("S1", 0), ("S12", 11)], (fields [("size", x.1)]).malformed ["size"] ["size"] [] = false
      ∧ size? (fields [("size", x.1)]) = some x.2)
    ∧ oneBase.lib.bases[7] ≠ none ∧ oneBase.lib.bases[0] = none ∧ oneBase.lib.sizes[11] ≠ none
    ∧ (∀ x ∈ [("0", 0), ("400", 400), ("1", 1)], (fields [("slot", x.1)]).malformed ["slot"] ["slot"] ["slot"] = false
      ∧ (fields [("slot", x.1)]).num "slot" = some x.2)
    ∧ oneBase.slot? 400 = some plain ∧ oneBase.slot? 1 = none := by decide +kernel

theorem meets_ReportsOfOneRecord_lines :
    (∀ x ∈ [("1", 1), ("65535", 65535)], (fields [("line", x.1)]).malformed ["line"] ["line"] ["line"] = false
      ∧ (fields [("line", x.1)]).num "line" = some x.2)
    ∧ threeLines.line? 1 = some (orderLine 1 .queued 0 1)
    ∧ threeLines.line? 65535 = some (orderLine 65535 .running 23 24) ∧ threeLines.indexAtZ1 1 = none
    ∧ threeLines.indexAtZ1 65535 = none
    ∧ (∀ x ∈ [("1", 1), ("255", 255)], (fields [("tin", x.1)]).malformed ["tin"] ["tin"] ["tin"] = false
      ∧ (fields [("tin", x.1)]).num "tin" = some x.2)
    ∧ (withTins [tinOf 255 .out]).tin? 255 = some (tinOf 255 .out) ∧ State.reset.tin? 1 = none := by decide +kernel

/-- Tin 1 finished twice, the newest record first, and a live tin of line 7 at Z1 as it was loaded, admitted, or left an
orphan. -/
def finishedTwice : State :=
  { State.reset with track := { State.reset.track with
      finished := [⟨tinOf 1 .failed, .lost, true⟩, ⟨tinOf 1 .out, .taken, false⟩] } }

theorem meets_ReportsOfOneRecord_finished :
    finishedTwice.tin? 1 = none ∧ finishedTwice.track.finished = [] ++ ⟨tinOf 1 .failed, .lost, true⟩ :: [⟨tinOf 1 .out, .taken, false⟩]
    ∧ (∀ x ∈ [("1", 1), ("2", 2), ("48", 48)], (fields [("from", x.1)]).malformed ["from"] [] ["from"] = false
        ∧ (fields [("from", x.1)]).num "from" = some x.2)
    ∧ (∀ g ∈ [Stage.loaded, .readyToMove, .orphan], (atPlace .z1 (tinOf 1 g) true).tinAt .z1 = some (tinOf 1 g)
        ∧ (tinOf 1 g).order = some (7, 1) ∧ (tinOf 1 g).stage = g)
    ∧ (withLines [boundLine .running 23 24]).line? 7 = some (boundLine .running 23 24)
    ∧ (withLines [boundLine .finishing 24 24]).line? 7 = some (boundLine .finishing 24 24)
    ∧ (boundLine .cancelled 0 0).state = .cancelled := by decide +kernel

/-- PREVIEW plans the line's tin standing at Z1, and TREAD shows the newest finished record (R59, R162). -/
theorem test_preview_and_tread :
    nextHas (exec (.preview (fields [("line", "7")])) (atPlace .z1 (tinOf 1 .loaded) true (withLines [boundLine .running 23 24])))
      (fun t => t.link.output.contains (.reply false (.ok [.num "tin" 1, .word "last" "NO",
        .parts "dose" [.text (txt "OX1"), .num 0, .num 0, .num 0, .word "HOLD"]]))) = true
    ∧ nextHas (exec (.tread (fields [("tin", "1")])) finishedTwice) (fun t => t.link.output.any fun x => match x with
        | .reply _ (.ok items) => items.contains (.parts "place" [.word "FINISHED", .word "LOST"])
        | _ => false) = true := by decide +kernel

/-! ### The Circuit Table -/

def csetPlain : Fields := fields [("circuit", "1"), ("code", "OX1"), ("k", "1000"), ("nmin", "64"), ("low", "4000000")]
def csetPair : Fields := fields [("circuit", "24"), ("code", "OX1"), ("twin", "1")]
def csetAlone : Fields := fields [("circuit", "24"), ("twin", "0")]

/-- Circuits 1 and 24 are twins. -/
def twins : State :=
  ((fitted 23 .service (fitted 0 .service)).setCircuit 0 fun r => { r with cfg := { r.cfg with twin := some 23 } }).setCircuit
    23 fun r => { r with cfg := { r.cfg with twin := some 0 } }

theorem meets_CsetChangesSettings :
    ∀ x ∈ [(State.reset, csetPlain, (0 : Circ)), (fitted 0 .service, csetPair, 23), (twins, csetAlone, 23),
           (twins, fields [("circuit", "24"), ("twin", "1")], 23),
           (fitted 0 .service, fields [("circuit", "1"), ("code", "NONE")], 0),
           (fitted 0 .ready, fields [("circuit", "1"), ("capacity", "500")], 0)],
      x.1.powered = true ∧ x.2.1.malformed csetKeys ["circuit"] csetNumbers = false
        ∧ (x.2.1.num "circuit").bind circ? = some x.2.2 ∧ csetOutside x.2.1 = false
        ∧ ((x.1.circuit x.2.2).csetApplied x.2.1).consistent = true := by decide +kernel

/-- A pair forms, with a code that one other circuit holds and with the code held before; none forms with a code nobody
holds, with twin=0, and with the present twin; and neither is possible with a code held elsewhere and no twin. -/
theorem meets_CsetChangesSettings_twins :
    named csetPlain "code" colourant? none = some (txt "OX1") ∧ csetPlain.num "twin" = none
    ∧ (∀ d : Circ, d ≠ 0 → (State.reset.circuit d).cfg.code ≠ some (txt "OX1"))
    ∧ csetPair.num "twin" = some (circNo 0) ∧ named csetPair "code" colourant? none = some (txt "OX1")
    ∧ ((fitted 0 .service).circuit 0).cfg.code = some (txt "OX1") ∧ ((fitted 0 .service).circuit 0).cfg.twin = none
    ∧ (∀ d : Circ, d ≠ 23 → d ≠ 0 → ((fitted 0 .service).circuit d).cfg.code ≠ some (txt "OX1"))
    ∧ csetAlone.num "twin" = some 0 ∧ (twins.circuit 23).cfg.twin = some 0
    ∧ (fields [("circuit", "24"), ("twin", "1")]).num "twin" = some (circNo 0)
    ∧ (fields [("circuit", "24"), ("code", "OX1")]).num "twin" = none
    ∧ (let two := fitted 23 .service (fitted 0 .service)
       (two.circuit 23).cfg.code = (two.circuit 0).cfg.code ∧ (two.circuit 23).cfg.twin = none) := by decide +kernel

/-- The hindrances, the free places, the staging, and the moves between UNFITTED and SERVICE. -/
theorem meets_CsetChangesSettings_rest :
    ((fitted 0 .ready).circuit 0).state ≠ .unfitted ∧ ((fitted 0 .ready).circuit 0).state ≠ .service
    ∧ (fields [("circuit", "1"), ("capacity", "500")]).num "capacity" = some 500
    ∧ (fields [("circuit", "1"), ("k", "1000")]).num "k" = some 1000
    ∧ ((oneBinding (boundLine .running 1 24)).circuit 0).openBatch ≠ 0 ∧ (lastBurst.pump 0).activity ≠ none
    ∧ (queued 7).store.fifo.length + 1 + 0 ≤ 8 ∧ 8 < (queued 8).store.fifo.length + 1 + 0
    ∧ (queued 6 twins).store.fifo.length + 1 + 1 ≤ 8 ∧ 8 < (queued 7 twins).store.fifo.length + 1 + 1
    ∧ csetPlain.num "nmin" = some 64 ∧ csetPair.num "nmin" = none
    ∧ (State.reset.circuit 0).state = .unfitted ∧ ((fitted 0 .service).circuit 0).state = .service
    ∧ (∀ b ∈ [true, false],
        { State.reset with inp := { State.reset.inp with bays := Vector.replicate 24 b } }.inp.bays[(0 : Circ)] = b)
    ∧ named (fields [("circuit", "1"), ("code", "NONE")]) "code" colourant? (some (txt "OX1")) = none := by decide +kernel

/-- Circuit 1 in a state with the watch OFF, its baseline at one level and its switch at the other or the same. -/
def unwatched (g : CircuitState) (baseline closed : Bool) : State :=
  let s := (fitted 0 g).setCircuit 0 fun r => { r with
    baseline := baseline, level := 100000, cfg := { r.cfg with watch := false, purgeInt := 10, stir := .q15 } }
  { s with inp := { s.inp with bays := Vector.replicate 24 closed }, now := 600000000 }

theorem meets_CsetChangesSettings_looks :
    (∀ g ∈ [CircuitState.service, .ready, .empty, .checking], ∀ b ∈ [true, false], ∀ k ∈ [true, false],
        ((unwatched g b k).circuit 0).state = g ∧ ((unwatched g b k).circuit 0).baseline = b
          ∧ (unwatched g b k).inp.bays[(0 : Circ)] = k ∧ ((unwatched g b k).circuit 0).cfg.watch = false)
    ∧ named (fields [("watch", "ON")]) "watch" (named? onOffTable) false = true
    ∧ (∀ x ∈ [("99999", 99999), ("100000", 100000)], (fields [("reserve", x.1), ("low", x.1)]).num "reserve" = some x.2
        ∧ (fields [("reserve", x.1), ("low", x.1)]).num "low" = some x.2)
    ∧ (∀ x ∈ [("0", 0), ("10", 10), ("11", 11)], (fields [("purgeint", x.1)]).num "purgeint" = some x.2)
    ∧ (∀ d ∈ [none, some PurgeCause.interval, some .forced],
        (((unwatched .ready true true).setCircuit 0 fun r => { r with purgeDue := d }).circuit 0).purgeDue = d)
    ∧ (fields [("stir", "OFF")]).get "stir" ≠ none := by decide +kernel

/-- Values next to each range, a circuit next to its range, words that no table knows, and settings that are inconsistent. -/
theorem meets_CsetChangesSettings_ranges :
    (∀ x ∈ [("k", "999", 999), ("k", "16001", 16001), ("nmin", "0", 0), ("nmin", "65", 65), ("density", "799", 799),
          ("density", "2501", 2501), ("capacity", "499", 499), ("capacity", "5001", 5001), ("stirdur", "4", 4),
          ("stirdur", "61", 61), ("purgesteps", "0", 0), ("purgesteps", "3201", 3201), ("twin", "25", 25), ("purgeint", "9", 9),
          ("purgeint", "241", 241), ("low", "4000001", 4000001), ("reserve", "4000001", 4000001), ("purgesteps", "23", 23)],
        let fs := fields [("circuit", "1"), (x.1, x.2.1)]
        fs.malformed csetKeys ["circuit"] csetNumbers = false ∧ fs.num x.1 = some x.2.2
          ∧ (fs.num "circuit").bind circ? = some 0)
    ∧ (∀ x ∈ ["0", "25"], ((fields [("circuit", x)]).num "circuit").bind circ? = none)
    ∧ (fields [("code", "ABCDE")]).get "code" = some (txt "ABCDE") ∧ colourant? (txt "ABCDE") = none
    ∧ named? stirTable (txt "Q30") = none ∧ named? policyTable (txt "WAIT") = none ∧ named? onOffTable (txt "YES") = none
    ∧ (State.reset.circuit 0).cfg.capacity * 1000 = 4000000 ∧ (State.reset.circuit 0).nmin = 24 := by decide +kernel

/-- A low threshold above the capacity is refused RANGE (R1). -/
theorem test_cset_range : nextHas (exec (.cset (fields [("circuit", "1"), ("low", "4000001")])) State.reset)
    (· == State.reset.pushReply false (.no .range)) = true := by decide +kernel

/-- The removal of `unwatched .ready true false` cuts a run of 4,000 steps at once: 1,000 µL at K = 4,000 (R15, R106). -/
theorem test_cset_cuts_run :
    nextHas (exec (.cset (fields [("circuit", "1"), ("watch", "ON")]))
        (driving 0 (dose 26000 4000) none (.known 900) (unwatched .ready true false)))
      (fun t => (t.circuit 0).level == 99000 && (t.pump 0).activity == none) = true := by
  decide +kernel

/-- A watch that comes ON over an open bay is a removal, forced in READY (R4, R8); a reserve at the level makes a READY circuit
EMPTY (R16), and a low threshold above it sets LOW (R17). -/
theorem test_cset_looks :
    nextHas (exec (.cset (fields [("circuit", "1"), ("watch", "ON")])) (unwatched .ready true false))
      (fun t => (t.circuit 0).state == .service && (t.circuit 0).reason == some .levelLost) = true
    ∧ nextHas (exec (.cset (fields [("circuit", "1"), ("reserve", "100000"), ("low", "100001")])) (unwatched .ready true true))
      (fun t => (t.circuit 0).state == .empty && t.link.isSet (.empty 0) && t.link.isSet (.low 0)) = true := by decide +kernel

/-- A dissolved pair leaves no side with a twin (R2), and a code given at a closed bay is an insertion (R4). -/
theorem test_cset_twins_and_insertion :
    nextHas (exec (.cset csetAlone) twins) (fun t => (t.circuit 0).cfg.twin == none && (t.circuit 23).cfg.twin == none) = true
    ∧ nextHas (exec (.cset csetPlain) { State.reset with inp := { State.reset.inp with bays := Vector.replicate 24 true } })
      (fun t => (t.circuit 0).state == .checking && t.tag.active.map (·.job) == some ⟨0, .read⟩) = true := by decide +kernel

theorem meets_TrimIsStaged :
    ∀ x ∈ [("+63", (63 : Int)), ("-63", -63), ("64", 64), ("-1000000000", -1000000000)],
      let fs := fields [("circuit", "24"), ("trim", x.1)]
      fs.malformed ["circuit", "trim"] ["circuit", "trim"] ["circuit"] = false ∧ (fs.num "circuit").bind circ? = some 23
        ∧ (fs.get "trim").bind signed? = some x.2 ∧ ((fitted 23 .ready).circuit 23).state ≠ .unfitted
        ∧ (queued 7 (fitted 23 .ready)).store.fifo.length < 8 := by decide +kernel

def withResult (q : CalResult) (s : State := State.reset) : State := { s with calResult := some q }

theorem meets_CaltakeStagesTrim : State.reset.calResult = none
    ∧ (withResult ⟨0, 0, 1, 0, 0, none, .failed .shortRun⟩).calResult = some ⟨0, 0, 1, 0, 0, none, .failed .shortRun⟩
    ∧ (withResult ⟨0, 0, 1, 1, 5, some (-63), .outOfRange⟩ (queued 8)).calResult
        = some ⟨0, 0, 1, 1, 5, some (-63), .outOfRange⟩
    ∧ 8 ≤ (withResult ⟨0, 0, 1, 1, 5, some (-63), .outOfRange⟩ (queued 8)).store.fifo.length
    ∧ (withResult ⟨0, 0, 1, 1, 5, some 63, .ok⟩ (queued 7)).store.fifo.length < 8 := by decide +kernel

/-- Circuit 1 in a state, with tag facts. -/
def lotted (g : CircuitState) : State := (fitted 0 g).setCircuit 0 fun r => { r with lot := some (txt "24K07A19") }

theorem meets_CanoutReleases :
    (fields [("circuit", "1")]).malformed ["circuit"] ["circuit"] ["circuit"] = false
    ∧ ((fields [("circuit", "1")]).num "circuit").bind circ? = some 0
    ∧ ((fitted 0 .service).circuit 0).state = .service
    ∧ (∀ g ∈ [CircuitState.ready, .empty, .blocked], ((lotted g).circuit 0).state = g
        ∧ ((lotted g).circuit 0).lot = some (txt "24K07A19") ∧ ((fitted 0 g).circuit 0).lot = none
        ∧ ((lotted g).pump 0).activity = none
        ∧ ((driving 0 (dose 1 0) none (.known 1) (lotted g)).pump 0).activity ≠ none)
    ∧ (State.reset.circuit 0).state = .unfitted
    ∧ ∀ g ∈ [CircuitState.checking, .priming, .releasing], ((fitted 0 g).circuit 0).state = g := by decide +kernel

/-- A stir that runs on the circuit, and one due on another (R211). -/
theorem meets_CanoutReleases_stir :
    ∀ g ∈ [CircuitState.ready, .empty],
      let s := ((lotted g).setCircuit 0 fun r => { r with stir := some ⟨9, 5⟩ }).addDue 23 5
      (s.circuit 0).stir.map (·.due) = some 5 ∧ (s.circuit 0).lot ≠ none ∧ s.cares.due = [(23, 5)] := by decide +kernel

/-- Circuit 1 with its bay closed. -/
def inserted (g : CircuitState) : State := (fitted 0 g).setCircuit 0 fun r => { r with baseline := true }

theorem meets_BaySwitchMovesCircuit :
    (State.reset.circuit 0).state = .unfitted
    ∧ (((fitted 0 .service).setCircuit 0 fun r => { r with cfg := { r.cfg with watch := false } }).circuit 0).cfg.watch = false
    ∧ ((fitted 0 .service).circuit 0).cfg.watch = true ∧ ((fitted 0 .service).circuit 0).baseline = false
    ∧ ((fitted 0 .ready).circuit 0).state ≠ .service ∧ ((fitted 0 .ready).circuit 0).baseline = false
    ∧ ((inserted .service).circuit 0).baseline = true ∧ ((inserted .service).circuit 0).state = .service
    ∧ ((inserted .ready).circuit 0).baseline = true ∧ ((inserted .ready).circuit 0).state = .ready := by decide +kernel

/-- Circuit 3 with its bay closed, its READ in a transaction or waiting, and a WRITE queued behind it. -/
def checkedBay (st : JobStep) : State :=
  let s := tagJob .read .read st 0 0 [] ((fitted 2 .checking).setCircuit 2 fun r => { r with baseline := true })
  { s with tag := { s.tag with queue := [⟨2, .write 5⟩, ⟨0, .read⟩] } }

theorem meets_BaySwitchMovesCircuit_tag :
    ∀ st ∈ [JobStep.phase .pointer, .wait 0],
      ((checkedBay st).circuit 2).state ≠ .service ∧ ((checkedBay st).circuit 2).cfg.watch = true
        ∧ ((checkedBay st).circuit 2).baseline = true ∧ ((checkedBay st).circuit 0).baseline = false
        ∧ (checkedBay st).tag.active.map (fun a => (a.job.circuit, a.step)) = some (2, st) := by decide +kernel

/-- Circuit 1 in READY with its bay closed, the dose of tin 1 on it delivered in part, and tin 2's dose in the next place. -/
def removable (a : Activity) (b : Option Burst) (q : Option PumpRequest) : State :=
  let e : DoseEntry := ⟨txt "OX1", 0, 320, 80, .planned, none, false, .handed, 0, 0, none, 0⟩
  let s := withTins [{ tinOf 1 .dosing with entries := [e] }, { tinOf 2 .dosing with entries := [e] }]
    ((driving 0 a b (.known 160) (inserted .ready)).setPump 0 fun p => { p with next := q })
  (s.setCircuit 0 fun r => { r with level := 140, cfg := { r.cfg with low := 100, reserve := 100 } }).addDue 0 5

def calDosing : CalRun := ⟨0, 1000, 4000, 4000, 1000, 0, false, .handed⟩

/-- A removal of a run with and without a burst in flight, of a run of a calibration, and with a request in the next place. -/
theorem meets_BaySwitchMovesCircuit_run :
    (∀ x ∈ ([(dose 320 160, none), (dose 320 160, some ⟨false, 160, 0⟩),
          ({ dose 320 160 with atBoundary := some (.cut .restart), restarted := true }, some ⟨false, 160, 0⟩),
          (dose 320 320, none), (⟨.dose, .cal, 4000, 160, .deliver, .running, false, none, false⟩, none)] :
          List (Activity × Option Burst)),
        let s := removable x.1 x.2 none
        (s.pump 0).activity = some x.1 ∧ (s.pump 0).burst = x.2 ∧ x.1.run ≠ .waitingStir ∧ (s.pump 0).next = none
          ∧ x.1.kind ≠ .refill ∧ x.1.delivered ≠ 0 ∧ (s.circuit 0).state = .ready ∧ (s.circuit 0).baseline = true
          ∧ (s.circuit 0).cfg.watch = true ∧ ((s.tin? 1).bind fun t => t.entries[0]?).isSome = true)
    ∧ (station (fun t => { t with cal := some calDosing })).stn.cal = some calDosing
    ∧ calDosing.circuit = 0 ∧ calDosing.handing = .handed
    ∧ (∀ q ∈ [(⟨.dose, .tin 2 0, 320⟩ : PumpRequest), ⟨.dose, .cal, 4000⟩],
        let s := removable refillRun none (some q)
        (s.pump 0).next = some q ∧ (s.pump 0).activity = some refillRun ∧ refillRun.kind = .refill
          ∧ ((s.tin? 2).bind fun t => t.entries[0]?).isSome = true) := by decide +kernel

/-- A removal takes the 160 steps delivered, 40 µL at K = 4,000, off the level at once and notes the tin SHORT_DOSE (R15, R58,
R100, R106). -/
theorem test_removal_cuts : nextHas (exec (.baySwitchChange 0 false) (removable (dose 320 160) none none))
    (fun t => (t.circuit 0).level == 100 && (t.circuit 0).state == .service && t.cares.due == []
      && (t.tin? 1).map (fun x => (x.notes, x.entries.map fun e => (e.delivered, e.deliveredVolume, e.run)))
        == some ([.shortDose], [(160, 40, some (.cut .removed))])) = true := by decide +kernel

/-- The removal takes the circuit's jobs out of the queue and leaves another's (R8, R202). -/
theorem test_removal_withdraws : nextHas (exec (.baySwitchChange 2 false) (checkedBay (.phase .pointer)))
    (fun t => t.tag.queue == [⟨0, .read⟩] && t.tag.active.map (·.abandoned) == some true && !(t.circuit 2).latchOpen)
      = true := by decide +kernel

/-- SREAD holds the six fields of R30 and refs=, and no more (R31). -/
theorem test_sread_six_fields :
    nextHas (exec (.sread (fields [("size", "S12")])) oneBase) (fun t => t.link.output.contains (.reply false (.ok
      [.num "vol" 20000, .num "height" 6, .word "lid" "L3", .num "mix1" 30, .num "mix2" 90, .num "mix3" 300,
        .num "refs" 0]))) = true := by decide +kernel

/-! ### The library and the store -/

def ssetLow : Fields := fields
  [("size", "S1"), ("vol", "250"), ("height", "1"), ("lid", "L1"), ("mix1", "30"), ("mix2", "30"), ("mix3", "300")]
def ssetHigh : Fields := fields
  [("size", "S12"), ("vol", "20000"), ("height", "6"), ("lid", "L3"), ("mix1", "300"), ("mix2", "30"), ("mix3", "300")]

theorem meets_BaseAndSizeRecords :
    (queued 7).store.fifo.length < 8 ∧ (∀ l ∈ (queued 7).bk.lines, l.formula.base ≠ 0)
    ∧ (∀ x ∈ [("B1", (0 : Fin 8), "1000", 1000, "1", 1), ("B8", 7, "150000", 150000, "3", 3)],
        let fs := fields [("base", x.1), ("load", x.2.2.1), ("mix", x.2.2.2.2.1)]
        fs.malformed ["base", "load", "mix"] ["base"] ["load", "mix"] = false ∧ base? fs = some x.2.1
          ∧ fs.num "load" = some x.2.2.2.1 ∧ fs.num "mix" = some x.2.2.2.2.2)
    ∧ ((fields [("base", "B8")]).malformed ["base"] ["base"] [] = false ∧ base? (fields [("base", "B8")]) = some 7
        ∧ oneBase.lib.bases[7] ≠ none ∧ (∀ l ∈ oneBase.bk.lines, l.formula.base ≠ 7)
        ∧ ∀ x ∈ oneBase.lib.slots, x.2.base ≠ 7)
    ∧ (∀ x ∈ [(ssetLow, (0 : Fin 12), (⟨250, 1, 0, 30, 30, 300⟩ : Size)), (ssetHigh, 11, ⟨20000, 6, 2, 300, 30, 300⟩)],
        x.1.malformed ("size" :: sizeKeys) ["size"] ["vol", "height", "mix1", "mix2", "mix3"] = false
          ∧ size? x.1 = some x.2.1 ∧ x.1.num "vol" = some x.2.2.vol ∧ x.1.num "height" = some x.2.2.height
          ∧ (x.1.get "lid").bind (code? "L" 3) = some x.2.2.lid ∧ x.1.num "mix1" = some x.2.2.mix1
          ∧ x.1.num "mix2" = some x.2.2.mix2 ∧ x.1.num "mix3" = some x.2.2.mix3
          ∧ ∀ m ∈ [x.2.2.mix1, x.2.2.mix2, x.2.2.mix3], 30 ≤ m ∧ m ≤ 300)
    ∧ ((fields [("size", "S12")]).malformed ["size"] ["size"] [] = false ∧ size? (fields [("size", "S12")]) = some 11
        ∧ oneBase.lib.sizes[11] ≠ none ∧ ∀ l ∈ oneBase.bk.lines, l.size ≠ 11) := by decide +kernel

/-- A library that can take a formula on base B2, with slots 1 and 400 used. -/
def stocked : State := fitted 0 .ready
  { State.reset with lib := { Library.reset with
      bases := Library.reset.bases.set 1 (some ⟨150000, 3⟩), sizes := Library.reset.sizes.set 2 (some ⟨2500, 3, 1, 30, 90, 300⟩)
      slots := [(1, plain), (400, plain)] } }

theorem stocked_rises : SlotsInv (queued 7 stocked) := by
  refine ⟨by unfold rising; decide, by unfold rising; decide, by unfold slotOk; decide, by unfold slotOk; decide,
    queued_fifo trivial 7 _, ?_⟩
  intro w e h; cases h

def inlineOx : List (String × String) := [("base", "B2"), ("line", "OX1:150000")]

theorem meets_LibrarySlots_store :
    (∀ x ∈ [(fields (("slot", "400") :: inlineOx), 400), (fields (("slot", "1") :: inlineOx), 1), (fields inlineOx, 2)],
        x.1.malformed ["slot", "name", "base", "line"] ["base"] ["slot"] = false ∧ inlineSyntax x.1 = false
          ∧ inlineRange x.1 = false ∧ (queued 7 stocked).formulaRefusal (inlineFormula x.1) = none
          ∧ (x.1.num "slot" = some x.2 ∨ x.1.num "slot" = none ∧ x.2 = 2))
    ∧ (queued 7 stocked).store.fifo.length < 8 ∧ stocked.slot? 2 = none ∧ stocked.slot? 1 ≠ none := by decide +kernel

theorem meets_LibrarySlots_walk :
    (∀ x ∈ [("1", 1), ("400", 400)], (fields [("slot", x.1)]).malformed ["slot"] ["slot"] ["slot"] = false
        ∧ (fields [("slot", x.1)]).num "slot" = some x.2 ∧ stocked.slot? x.2 ≠ none
        ∧ ∀ l ∈ stocked.bk.lines, l.slot ≠ some x.2)
    ∧ (∀ x ∈ [("0", 0), ("400", 400)], (fields [("from", x.1)]).malformed ["from"] [] ["from"] = false
        ∧ (fields [("from", x.1)]).num "from" = some x.2)
    ∧ (fields []).malformed ["from"] [] ["from"] = false ∧ (fields []).num "from" = none
    ∧ stocked.slot? 400 = some plain := by decide +kernel

/-- A write in progress, with the next work as given. -/
def writing (w : WriteWork) (f : Store → Store) : State :=
  { State.reset with store := f { Store.reset with writer := some (w, 30000) } }

theorem meets_WriteEndStoresAndTakesNext :
    (∀ w ∈ [WriteWork.marker none, .level 23 5, .link (.circuit 23 pairOx), .link (.base 7 none), .link (.size 11 none),
            .link (.slot 400 (some plain)), .link (.scheme .split), .link (.lidPolicy .pass), .link (.lidCode 2 0),
            .link (.daily 1439)],
        (writing w id).store.writer = some (w, 30000))
    ∧ (writing (.link (.daily 0)) fun t => { t with pendingSet := some ⟨[1], []⟩ }).store.pendingSet = some ⟨[1], []⟩
    ∧ (let s := writing (.link (.daily 0)) fun t => { t with dirty := t.dirty.set 23 true }
       s.store.pendingSet = none ∧ s.store.dirty[23] = true ∧ ∀ d : Circ, d < 23 → s.store.dirty[d] = false)
    ∧ (let s := writing (.link (.daily 0)) fun t => { t with pendingClear := true }
       s.store.pendingSet = none ∧ s.store.pendingClear = true ∧ ∀ c : Circ, s.store.dirty[c] = false)
    ∧ (writing (.link (.daily 0)) fun t => { t with fifo := [.daily 5] }).store.fifo = .daily 5 :: []
    ∧ (writing (.link (.daily 0)) id).store.fifo = [] := by decide +kernel

/-- A store whose writer is free. -/
def resting (f : Store → Store) (s : State := State.reset) : State := { s with store := f { Store.reset with writer := none } }

theorem meets_WriteEndStoresAndTakesNext_take :
    (resting fun t => { t with pendingSet := some ⟨[1], []⟩ }).store.pendingSet = some ⟨[1], []⟩
    ∧ (let s := resting fun t => { t with dirty := t.dirty.set 23 true }
       s.store.writer = none ∧ s.store.pendingSet = none ∧ s.store.dirty[23] = true
         ∧ ∀ d : Circ, d < 23 → s.store.dirty[d] = false)
    ∧ (let s := resting fun t => { t with pendingClear := true }
       s.store.pendingSet = none ∧ s.store.pendingClear = true ∧ ∀ c : Circ, s.store.dirty[c] = false)
    ∧ (resting fun t => { t with fifo := [.daily 5] }).store.fifo = .daily 5 :: [] ∧ (resting id).store.fifo = []
    ∧ (writing (.marker none) id).store.writer ≠ none := by decide +kernel

/-- The clear that RESTART gave, with a cut run of a listed circuit and with another run. -/
theorem meets_WriteEndStoresAndTakesNext_clear :
    ∀ b ∈ [true, false],
      let s := resting (fun t => { t with heldClear := true, pendingSet := some ⟨[1], [(0, 5)]⟩ })
        (driving 0 { dose 160 0 with restarted := b } (some ⟨false, 160, 0⟩))
      s.store.heldClear = true ∧ s.store.pendingSet = some ⟨[1], [(0, 5)]⟩ ∧ (s.pump 0).activity.map (·.restarted) = some b
        ∧ ∀ c : Circ, c ≠ 0 → (s.pump c).activity = none := by decide +kernel

theorem test_held_clear :
    let s (b : Bool) : State := resting (fun t => { t with heldClear := true, pendingSet := some ⟨[1], [(0, 5)]⟩ })
      (driving 0 { dose 160 0 with restarted := b } (some ⟨false, 160, 0⟩))
    (s true).releaseClear.store.heldClear = true ∧ (s false).releaseClear.store.pendingClear = true := by decide +kernel

/-! ### The planner and the Order Book -/

/-- n at the minimum dose, just below it, at half of it, just below half, and 0, with Nmin = 24. -/
theorem meets_PlanKeepsResidue :
    ∀ x ∈ [(24, true), (23, true), (12, true), (11, false), (0, true)],
      let n := (x.1 * 1024000000 + 512000000) / 1024000000
      n = x.1 ∧ (n < 24 ∨ 24 ≤ n) ∧ (2 * n < 24 ∨ 24 ≤ 2 * n) := by decide

/-- A book of 31 lines, of which the lines 1 to 31 hold the number after the last assigned. -/
def busyBook : State :=
  { stocked with bk := ⟨(List.range 31).map fun k => orderLine (k + 1) .queued 0 24, 65535⟩ }

theorem meets_OrderEntersLine :
    ∀ x ∈ [("1", "RUSH", stocked), ("24", "NORMAL", busyBook)],
      let fs := fields ([("size", "S3"), ("tins", x.1), ("prio", x.2.1)] ++ inlineOx)
      let f : Formula := ⟨none, 1, [(txt "OX1", 150000)]⟩
      orderSyntax fs = false ∧ orderRange fs = false ∧ size? fs = some 2 ∧ x.2.2.orderFormula fs = some f
        ∧ x.2.2.lib.sizes[2] ≠ none ∧ x.2.2.formulaRefusal f = none ∧ x.2.2.bk.lines.length < 32 := by decide +kernel

def lineSeven (g : LineState) (released limit : Nat) (h : Option Hold := none) : State :=
  withLines [{ orderLine 7 g released limit with hold := h }]

/-- Circuits 1 and 2 hold OX1, each the other's twin, with a policy and levels in µL. -/
def colourants (pol : Policy) (first second : Nat) : State :=
  ((fitted 1 .ready stocked).setCircuit 0 fun r =>
    { r with level := first, cfg := { r.cfg with policy := pol, twin := some 1 } }).setCircuit 1 fun r =>
    { r with level := second, cfg := { r.cfg with twin := some 0 } }

theorem meets_PlanKeepsResidue_judge :
    (∀ c : Circ, (State.reset.circuit c).cfg.code ≠ some (txt "OX1"))
    ∧ (∀ d : Circ, d < 0 → ((colourants .hold 0 0).circuit d).cfg.code ≠ some (txt "OX1"))
    ∧ ((colourants .hold 0 0).circuit 0).cfg.code = some (txt "OX1") ∧ ((colourants .twin 0 0).circuit 0).cfg.twin = some 1
    ∧ ((stocked.circuit 0).cfg.twin = none)
    ∧ (∀ c ∈ [(0 : Circ), 1], ((colourants .hold 250 250).circuit c).state = .ready
        ∧ roundHalfUp (1000 * 1024000) (4000 * 1024) = 250 ∧ ((colourants .hold 250 250).pump c).activity = none)
    ∧ ∀ pol ∈ [Policy.hold, .skip, .twin], ((colourants pol 249 0).circuit 0).cfg.policy = pol := by decide +kernel

/-- Each outcome of a colourant line, at the level that just serves 1,000 steps and just below it (R52 to R56). -/
theorem test_judge :
    let e : ColourantEntry := ⟨none, none, none⟩
    let p : StepPlan := ⟨1000, .planned, none, some 512000000⟩
    (colourants .hold 250 0).judge e (txt "OX1", 100) 2500 false = .served 0 p false
    ∧ (colourants .hold 249 250).judge e (txt "OX1", 100) 2500 false = .hold (some 0) p
    ∧ (colourants .skip 249 250).judge e (txt "OX1", 100) 2500 false = .skipped 0 p
    ∧ (colourants .twin 249 250).judge e (txt "OX1", 100) 2500 false = .served 1 p true
    ∧ (colourants .twin 249 249).judge e (txt "OX1", 100) 2500 false = .hold (some 0) p := by decide +kernel

/-- A tin of line 7 waits LOADED at Z1, with an attempt owed. -/
def attempting (g : LineState) (s : State) : State :=
  station (fun t => { t with attemptOwed := true }) (atPlace .z1 (tinOf 1 .loaded) true (withLines [orderLine 7 g 1 24] s))

theorem meets_PlanKeepsResidue_attempt :
    State.reset.stn.attemptOwed = false ∧ (station (fun t => { t with attemptOwed := true })).tinAt .z1 = none
    ∧ (∀ g ∈ [LineState.running, .finishing, .held, .cancelled],
        let s := attempting g (colourants .hold 250 0)
        s.stn.attemptOwed = true ∧ s.tinAt .z1 = some (tinOf 1 .loaded) ∧ (tinOf 1 .loaded).order = some (7, 1)
          ∧ s.line? 7 = some (orderLine 7 g 1 24) ∧ s.stopped = false ∧ (s.placeRec .z2).tin = none
          ∧ (s.placeRec .z2).departing = false ∧ (s.placeRec .z2).uncertain = false ∧ (s.placeRec .z2).reserved = none
          ∧ s.stn.scale = .doseCheck ∧ s.stn.cal = none ∧ (orderLine 7 g 1 24).state = g)
    ∧ ((attempting .running (colourants .hold 249 0)).judge ⟨none, none, none⟩ (txt "OX1", 100) 2500 false
        = .hold (some 0) ⟨1000, .planned, none, some 512000000⟩)
    ∧ (((attempting .running (colourants .hold 250 0)).setCircuit 0 fun r =>
        { r with purgeDue := some .forced }).circuit 0).purgeDue ≠ none := by decide +kernel

theorem meets_PlanKeepsResidue_book : BookInv (attempting .running (colourants .hold 250 0)) := by
  unfold BookInv OrderLine.counts OrderLine.entriesFit; decide +kernel

/-- An admission binds the entry and sets the marker; a HOLD outcome holds the line (R20, R42, R77, R117). -/
theorem test_admission :
    (let u := (attempting .running (colourants .hold 250 0)).attemptLook
     (u.line? 7).map (·.entries) = some [⟨some 0, some 512000000, none⟩] ∧ (u.circuit 0).openBatch = 1
       ∧ u.store.pendingSet = some ⟨[1], [(0, 250)]⟩ ∧ u.stn.job = .inbound ∧ (u.placeRec .z2).reserved = some 1)
    ∧ (let u := (attempting .running (colourants .hold 249 0)).attemptLook
       (u.line? 7).map (·.hold) = some (some (.circuit 1)) ∧ u.stn.waiting = [.circuit]) := by decide +kernel

theorem meets_HoldAndGo :
    (fields [("line", "7")]).malformed ["line"] ["line"] ["line"] = false ∧ (fields [("line", "7")]).num "line" = some 7
    ∧ State.reset.line? 7 = none
    ∧ (∀ x ∈ [(LineState.queued, 0, 24), (.running, 1, 24), (.finishing, 24, 24), (.held, 0, 24), (.held, 23, 24),
            (.held, 24, 24), (.cancelled, 3, 3)],
        ((lineSeven x.1 x.2.1 x.2.2).line? 7).map (·.state) = some x.1)
    ∧ ((lineSeven .held 3 24 (some .host)).line? 7).map (·.hold) = some (some .host)
    ∧ ((lineSeven .held 3 24 (some .weight)).line? 7).map (·.hold) = some (some .weight)
    ∧ (atPlace .z1 (tinOf 1 .loaded) true (lineSeven .held 3 24)).tinAt .z1 = some (tinOf 1 .loaded)
    ∧ (lineSeven .held 3 24).tinAt .z1 = none ∧ (tinOf 1 .loaded).order = some (7, 1) := by decide +kernel

theorem meets_HoldAndGo_book : BookInv (lineSeven .held 24 24) ∧ BookInv (lineSeven .queued 0 24)
    ∧ BookInv (lineSeven .cancelled 0 0) := by unfold BookInv OrderLine.counts OrderLine.entriesFit; decide +kernel

/-- A held NORMAL line in front of a QUEUED RUSH line, and a held RUSH line behind a QUEUED NORMAL one. -/
def placing (rush : Bool) : State :=
  let x := { orderLine 7 .held 0 24 with rush := rush }
  let y := { orderLine 8 .queued 0 24 with rush := !rush }
  withLines (if rush then [y, x] else [x, y])

theorem meets_HoldAndGo_place :
    (placing false).bk.lines
        = [] ++ { orderLine 7 .held 0 24 with rush := false } :: [{ orderLine 8 .queued 0 24 with rush := true }]
    ∧ ({ orderLine 8 .queued 0 24 with rush := true } : OrderLine).queuedRush = true
    ∧ (placing true).bk.lines
        = [{ orderLine 8 .queued 0 24 with rush := false }] ++ { orderLine 7 .held 0 24 with rush := true } :: []
    ∧ ({ orderLine 8 .queued 0 24 with rush := false } : OrderLine).queuedNormal = true := by decide +kernel

theorem meets_HoldAndGo_place_book : ∀ b : Bool, BookInv (placing b) := by
  unfold BookInv OrderLine.counts OrderLine.entriesFit; decide +kernel

/-- GO moves the NORMAL line behind the RUSH line, and the RUSH line in front of the NORMAL one (R71). -/
theorem test_go_places :
    nextHas (exec (.go (fields [("line", "7")])) (placing false)) (fun t => t.bk.lines.map (·.number) == [8, 7]) = true
    ∧ nextHas (exec (.go (fields [("line", "7")])) (placing true)) (fun t => t.bk.lines.map (·.number) == [7, 8]) = true := by
  decide +kernel

theorem meets_CancelEndsLine :
    (∀ x ∈ [("1", 1), ("24", 24)],
        let fs := fields [("line", "7"), ("after", x.1)]
        fs.malformed ["line", "after"] ["line"] ["line", "after"] = false ∧ fs.num "line" = some 7
          ∧ fs.num "after" = some x.2)
    ∧ (fields [("line", "7")]).malformed ["line", "after"] ["line"] ["line", "after"] = false
    ∧ (fields [("line", "7")]).num "after" = none
    ∧ (lineSeven .cancelled 3 3).line? 7 = some (orderLine 7 .cancelled 3 3)
    ∧ (orderLine 7 .queued 0 24).live = 0 ∧ (orderLine 7 .running 1 24).live ≠ 0
    ∧ (lineSeven .running 2 24).line? 7 = some (orderLine 7 .running 2 24)
    ∧ (lineSeven .running 1 24).line? 7 = some (orderLine 7 .running 1 24)
    ∧ ({ orderLine 7 .running 1 24 with completed := 1 } : OrderLine).live = 0 := by decide +kernel

/-- A line of bound entries: with a live tin, with none, held with its limit at the tins released, and with a LOADED tin. -/
theorem meets_CancelEndsLine_bindings :
    (boundLine .running 1 24).live ≠ 0 ∧ { boundLine .held 1 24 with completed := 1 }.live = 0
    ∧ (boundLine .held 2 24).released = 2
    ∧ (atPlace .z1 (tinOf 1 .loaded) true (oneBinding (boundLine .running 1 24))).tinAt .z1 = some (tinOf 1 .loaded)
    ∧ (tinOf 1 .loaded).order = some (7, 1) ∧ (oneBinding (boundLine .running 1 24)).tinAt .z1 = none := by decide +kernel

theorem meets_CancelEndsLine_book : BookInv (oneBinding (boundLine .running 1 24))
    ∧ BookInv (oneBinding { boundLine .held 1 24 with completed := 1 }) ∧ BookInv (oneBinding (boundLine .held 2 24)) := by
  unfold BookInv OrderLine.counts OrderLine.entriesFit; decide +kernel

/-- CANCEL applies the pending minimum dose, and fails the tin at Z1; after= at the tins released of a HELD line with no live
tin ends it (R22, R80, R81, R84). -/
theorem test_cancel :
    nextHas (exec (.cancel (fields [("line", "7")])) (atPlace .z1 (tinOf 1 .loaded) true (oneBinding (boundLine .running 1 24))))
      (fun t => (t.circuit 0).openBatch == 0 && (t.circuit 0).nmin == 64 && (t.tin? 1).map (·.stage) == some .failed) = true
    ∧ nextHas (exec (.cancelAfter (fields [("line", "7"), ("after", "1")]))
        (oneBinding { boundLine .held 1 24 with completed := 1 }))
      (fun t => t.bk.lines == [] && t.link.isSet .lineDone && (t.circuit 0).openBatch == 0) = true := by decide +kernel

/-- A tin of height class 3 stands at Z1, where line 7 wants a tin. -/
def offered (h : Option Nat) (released limit : Nat) : State :=
  let s := withLines [orderLine 7 (if released = 0 then .queued else .running) released limit] stocked
  { s with inp := { s.inp with places := s.inp.places.set 0 true, height := h } }

theorem meets_LoadedMakesTin :
    ((atPlace .z1 (tinOf 1 .loaded) true).placeRec .z1).tin ≠ none ∧ (State.reset.placeRec .z1).tin = none
    ∧ (State.reset.placeRec .z1).departing = false ∧ (State.reset.placeRec .z1).uncertain = false
    ∧ State.reset.shows .z1 = false ∧ (offered (some 3) 0 24).shows .z1 = true
    ∧ (offered (some 3) 0 24).wantedLine = some (orderLine 7 .queued 0 24)
    ∧ (offered (some 3) 23 24).wantedLine = some (orderLine 7 .running 23 24)
    ∧ (offered (some 3) 0 24).inp.height = (offered (some 3) 0 24).lib.sizes[2].map (·.height)
    ∧ (offered none 0 24).inp.height ≠ (offered none 0 24).lib.sizes[2].map (·.height)
    ∧ (offered (some 3) 0 24).track.tins.length < 255 := by decide +kernel

theorem meets_LoadedMakesTin_book : BookInv (offered (some 3) 0 24) ∧ BookInv (offered (some 3) 23 24) := by
  unfold BookInv OrderLine.counts OrderLine.entriesFit; decide +kernel

/-- LOAD_WANTED: a line newly wanted, a Z1 newly empty, nothing new, and nothing wanted (R73). -/
theorem meets_LoadedMakesTin_notice :
    (offered none 0 24).wantedLine = some (orderLine 7 .queued 0 24) ∧ ((offered none 0 24).placeRec .z1).tin = none
    ∧ State.reset.wantedLine = none
    ∧ ((atPlace .z1 (tinOf 1 .loaded) true (offered none 0 24)).placeRec .z1).tin.isSome = true := by decide +kernel

/-- Two tins in the lane, the head one of line 7. -/
def laneOfTwo : State :=
  let s := withTins [tinOf 1 .out, tinOf 2 .out] (lineSeven .finishing 24 24)
  { s with
    track := { s.track with lane := [1, 2] }
    inp := { s.inp with lane := (s.inp.lane.set 0 true).set 1 true } }

theorem meets_LaneHeadAndConfirm :
    State.reset.track.lane = [] ∧ laneOfTwo.track.lane = 1 :: [2] ∧ 1 ∉ [2] ∧ laneOfTwo.tin? 1 = some (tinOf 1 .out)
    ∧ (tinOf 1 .out).order = some (7, 1) ∧ laneOfTwo.line? 7 = some (orderLine 7 .finishing 24 24)
    ∧ 2 ≤ (orderLine 7 .finishing 24 24).live
    ∧ (fields [("zone", "OUT")]).malformed ["zone"] ["zone"] [] = false
    ∧ ((fields [("zone", "OUT")]).get "zone").bind (named? placeTable) = some .out
    ∧ laneOfTwo.confirmBusy .out = false ∧ laneOfTwo.jamAt .out = none ∧ laneOfTwo.laneCount = laneOfTwo.track.lane.length
    ∧ (laneOfTwo.placeRec .out).owed = false := by decide +kernel

theorem meets_LaneHeadAndConfirm_book : BookInv laneOfTwo := by
  unfold BookInv OrderLine.counts OrderLine.entriesFit; decide +kernel

/-- A lane of some tins, the sensors showing some, with the facts of its place. -/
def laneOf (ts : List Tin) (shown : Nat) (f : PlaceRecord → PlaceRecord) (l : OrderLine) : State :=
  let s := (withTins ts (oneBinding l)).setPlace .out f
  { s with
    track := { s.track with lane := ts.map Tin.id }
    inp := { s.inp with lane := Vector.ofFn fun i => decide (i.val < shown) } }

/-- Line 7 with its last live tin. -/
def lastTin : OrderLine := { boundLine .finishing 24 24 with completed := 22, failed := 1 }

theorem meets_LaneHeadAndConfirm_ends :
    (laneOf [tinOf 1 .out] 1 id lastTin).track.lane = 1 :: [] ∧ lastTin.live = 1 ∧ lastTin.state = .finishing
    ∧ ((laneOf [tinOf 1 .out] 1 id lastTin).placeRec .out).arriving = false
    ∧ (laneOf [tinOf 1 .orphan] 1 id lastTin).tin? 1 = some (tinOf 1 .orphan)
    ∧ ((laneOf [tinOf 1 .out] 1 (fun r => { r with arriving := true }) lastTin).placeRec .out).arriving = true
    ∧ (∀ x ∈ [(2, 1), (2, 2), (2, 3)],
        let s := laneOf [tinOf 1 .out, tinOf 2 .orphan] x.2 id lastTin
        s.track.lane.length = x.1 ∧ s.laneCount = x.2 ∧ s.track.lane.Nodup ∧ s.jamAt .out = none ∧ s.track.moves = []
          ∧ (s.placeRec .out).owed = false ∧ (∀ id ∈ s.track.lane, s.tin? id ≠ none) ∧ s.track.tins.length + 1 ≤ 255)
    ∧ (let s := laneOf [tinOf 1 .out, tinOf 2 .readyToMove] 2 (fun r => { r with uncertain := true, owed := true }) lastTin
       s.laneCount = s.track.lane.length ∧ (s.placeRec .out).owed = true ∧ s.tin? 2 = some (tinOf 2 .readyToMove)
         ∧ s.tin? 1 = some (tinOf 1 .out) ∧ s.track.lane.Nodup)
    ∧ (onWay .z5 .out (tinOf 1 .readyToMove)).track.moves = [⟨1, .z5, .out, some 4000000⟩] := by decide +kernel

/-- A slipped tin is owed at the tail while the lane shows fewer tins, or more. -/
theorem meets_LaneHeadAndConfirm_owed :
    ∀ k ∈ [1, 3],
      let s := laneOf [tinOf 1 .out, tinOf 2 .readyToMove] k (fun r => { r with uncertain := true, owed := true }) lastTin
      s.laneCount = k ∧ s.track.lane.length = 2 ∧ (s.placeRec .out).owed = true ∧ s.track.lane.Nodup ∧ s.jamAt .out = none
        ∧ (∀ id ∈ s.track.lane, s.tin? id ≠ none) ∧ s.tin? 2 = some (tinOf 2 .readyToMove)
        ∧ (s.track.lane.take 1).filterMap s.tin? = [tinOf 1 .out] := by decide +kernel

/-- The head is taken, and the slipped tin behind it is handed over (R151, R155). -/
theorem test_lane_owed : nextHas (exec (.confirm (fields [("zone", "OUT")]))
      (laneOf [tinOf 1 .out, tinOf 2 .readyToMove] 1 (fun r => { r with uncertain := true, owed := true }) lastTin))
    (fun t => t.track.lane == [2] && (t.tin? 2).map (·.stage) == some .out && t.tin? 1 == none) = true := by decide +kernel

theorem meets_LaneHeadAndConfirm_ends_book :
    BookInv (laneOf [tinOf 1 .out] 1 id lastTin) ∧ BookInv (laneOf [tinOf 1 .out, tinOf 2 .orphan] 1 id lastTin) := by
  unfold BookInv OrderLine.counts OrderLine.entriesFit; decide +kernel

/-- The head is the last live tin of its line (R68, R69); a slipped tin is handed over and named (R151). -/
theorem test_lane :
    nextHas (exec .headTaken (laneOf [tinOf 1 .out] 1 id lastTin))
      (fun t => t.bk.lines == [] && t.link.isSet .lineDone && (t.circuit 0).openBatch == 0) = true
    ∧ (laneOf [tinOf 1 .out, tinOf 2 .readyToMove] 2 (fun r => { r with uncertain := true, owed := true }) lastTin).laneTins
      = [.field "tin" [[.num 2]]] := by decide +kernel

/-! ### The Drive Frame -/

/-- Doses of circuits 1, 2, 3 and 4 with 300, 300, 200 and 100 steps to go: more than the spare slots of SPLIT serve. -/
def fourDoses : State :=
  let s := driving 3 (dose 100 0) none (.known 100)
    (driving 2 (dose 200 0) none (.known 200) (driving 1 (dose 300 0) none (.known 300) (driving 0 (dose 300 0) none)))
  { s with drive := { s.drive with nextScheme := some .split } }

theorem test_frame_lends :
    nextHas (exec .frameStart fourDoses) (fun t => t.drive.lent == [(26, 0), (27, 0), (28, 1), (29, 1), (30, 2), (31, 2)])
      = true := by decide +kernel

theorem meets_FrameLendsSpareSlots : fourDoses.powered = true ∧ (fourDoses.pump 0).lendable = true
    ∧ (fourDoses.pump 3).lendable = true ∧ (fourDoses.pump 4).lendable = false := by decide +kernel

/-- A slot leaves the lending of the frame as it is (R92). -/
theorem test_lending_stands :
    nextHas (exec .slot { fourDoses with drive := { fourDoses.drive with slot := 3, lent := [(26, 3)] } })
      (fun t => t.drive.lent == [(26, 3)]) = true := by decide +kernel

/-- The own slot of circuit 1 under CONTINUOUS has come up. -/
def slotOne (a : Activity) (b : Option Burst) (p : Piston) : State :=
  let s := driving 0 a b p
  { s with drive := { s.drive with slot := 1 } }

theorem meets_SlotGrantsBurst :
    32 ≤ State.reset.drive.slot
    ∧ (∀ x ∈ [(dose 160 0, Piston.known 25600), (dose 25600 25599, .known 1), (dose 25600 0 .refill, .known 25599),
            (dose 25600 0 .refill, .unknown 25599)],
        (slotOne x.1 none x.2).drive.slot = ownSlot (slotOne x.1 none x.2).drive.scheme 0
          ∧ ((slotOne x.1 none x.2).pump 0).activity = some x.1 ∧ x.1.run = .running
          ∧ ((slotOne x.1 none x.2).pump 0).burst = none)
    ∧ (State.reset.pump 0).activity = none
    ∧ ((slotOne (dose 160 0) (some ⟨false, 160, 0⟩) (.known 160)).pump 0).burst ≠ none
    ∧ { dose 160 0 with run := .stopped }.run ≠ .running := by decide +kernel

/-- Slot 31 under CONTINUOUS, lent to circuit 1 or to none. -/
def slotLast (lent forfeited : Bool) (a : Activity) (b : Option Burst := none) : State :=
  let s := driving 0 a b (.known 1)
  { s with drive := { s.drive with
      slot := 31, lent := if lent then [(31, 0)] else [], forfeit := s.drive.forfeit.set 0 forfeited } }

/-- Own slots at the ends of each scheme's runs (R90). -/
theorem meets_SlotGrantsBurst_places :
    circNo 0 = 3 * 0 + 1 + (0 : Fin 3).val ∧ circNo 23 = 3 * 7 + 1 + (2 : Fin 3).val ∧ circNo 14 ≤ 15 ∧ 16 ≤ circNo 15
    ∧ [ownSlot .spread 0, ownSlot .spread 23, ownSlot .split 14, ownSlot .split 15] = [1, 31, 15, 17] := by decide

theorem meets_SlotGrantsBurst_lent :
    (∀ x ∈ [(true, false, dose 160 0), (true, true, dose 160 0), (true, false, dose 160 0 .refill),
            (true, false, { dose 160 0 with run := .stopped }), (true, false, { dose 160 0 with kind := .purge })],
        let s := slotLast x.1 x.2.1 x.2.2
        s.drive.slot = 31 ∧ (∀ c : Circ, s.drive.slot ≠ ownSlot s.drive.scheme c)
          ∧ s.drive.lent.find? (fun y => y.1 == s.drive.slot) = some (s.drive.slot, 0)
          ∧ (s.pump 0).activity = some x.2.2 ∧ (s.pump 0).burst = none ∧ (s.pump 0).piston = .known 1
          ∧ s.drive.forfeit[(0 : Circ)] = x.2.1)
    ∧ ((slotLast true false (dose 160 0) (some ⟨false, 1, 0⟩)).pump 0).burst ≠ none
    ∧ ∀ c : Circ, (31, c) ∉ (slotLast false false (dose 160 0)).drive.lent := by decide +kernel

theorem test_lent_slot : nextHas (exec .slot (slotLast true false (dose 160 0)))
    (fun t => (t.pump 0).burst == some ⟨false, 1, 19375⟩) = true := by decide +kernel

theorem test_slot_grants : nextHas (exec .slot (slotOne (dose 25600 25599) none (.known 160)))
    (fun t => (t.pump 0).burst == some ⟨false, 1, 625⟩) = true := by decide +kernel

theorem meets_BurstCompleteCounts :
    (State.reset.pump 0).burst = none
    ∧ ∀ x ∈ [(dose 320 0, (⟨false, 160, 0⟩ : Burst), 25600), (dose 320 0, ⟨false, 160, 0⟩, 160),
            (dose 320 0 .refill, ⟨true, 640, 0⟩, 24960), (dose 320 0 .refill, ⟨true, 640, 0⟩, 0),
            (dose 320 160, ⟨false, 160, 0⟩, 160)],
        let s := driving 0 x.1 (some x.2.1) (.known x.2.2)
        (s.pump 0).burst = some x.2.1 ∧ (s.pump 0).activity = some x.1 ∧ (s.pump 0).piston = .known x.2.2
          ∧ x.1.atBoundary = none ∧ x.2.1.refill = (x.1.phase == .refill) ∧ x.1.kind ≠ .refill ∧ (s.pump 0).next = none
          ∧ x.1.owner = .tin 1 0 ∧ 0 < x.1.planned := by decide +kernel

/-- Circuit 1's dose of tin 1, of which one burst is outstanding, with a level just above the reserve of 60 µL. -/
def lastOfDose (a : Activity := dose 320 160) : State :=
  let e : DoseEntry := ⟨txt "OX1", 0, 320, 80, .planned, none, false, .handed, 0, 0, none, 0⟩
  withTins [{ tinOf 1 .dosing with entries := [e] }]
    ((driving 0 a (some ⟨false, 160, 0⟩) (.known 160) (fitted 0 .ready)).setCircuit 0 fun r =>
      { r with level := 140, cfg := { r.cfg with low := 100, reserve := 60 } })

theorem meets_BurstCompleteCounts_report :
    (∀ x ∈ [dose 320 160, { dose 320 160 with stopSeen := true }, { dose 320 160 with atBoundary := some (.cut .removed) }],
        ((lastOfDose x).pump 0).activity = some x ∧ x.owner = .tin 1 0
          ∧ (((lastOfDose x).tin? 1).bind fun t => t.entries[0]?).isSome = true)
    ∧ (lastOfDose.circuit 0).lowArmed = true ∧ (lastOfDose.circuit 0).state = .ready
    ∧ ((lastOfDose.setCircuit 0 fun r => { r with state := .blocked }).circuit 0).state ≠ .ready := by decide +kernel

/-- 320 steps at K = 4,000 are 80 µL: the level falls to the reserve, LOW and EMPTY are set, and the entry holds the volume
(R15 to R17, R58, R100). -/
theorem test_dose_reported :
    nextHas (exec (.burstComplete 0) lastOfDose) (fun t => (t.circuit 0).level == 60 && t.link.isSet (.low 0)
      && t.link.isSet (.empty 0) && (t.circuit 0).state == .empty
      && (t.tin? 1).map (fun x => x.entries.map fun e => (e.delivered, e.deliveredVolume, e.run))
        == some [(320, 80, some .delivered)]) = true
    ∧ nextHas (exec (.burstStall 0) lastOfDose) (fun t => (t.circuit 0).level == 100
      && (t.tin? 1).map (·.notes) == some [.shortDose]) = true := by decide +kernel

/-- Circuit 1 in a state, with an activity whose burst of some steps is outstanding. -/
def bursting (a : Activity) (steps : Nat) (p : Piston) (g : CircuitState := .ready) : State :=
  driving 0 a (some ⟨a.phase == .refill, steps, 0⟩) p (fitted 0 g)

/-- Circuit 1's purge, prime and calibration run. -/
def purgeRun (delivered : Nat) (ph : Phase) (b : Option AtBoundary := none) : Activity :=
  ⟨.purge, .care, 320, delivered, ph, .running, false, b, false⟩
def primeRun (delivered : Nat) (ph : Phase) (b : Option AtBoundary := none) : Activity :=
  ⟨.prime, .table, 3200, delivered, ph, .running, false, b, false⟩
def calDose (delivered : Nat) : Activity := ⟨.dose, .cal, 4000, delivered, .deliver, .running, false, none, false⟩

/-- The ends, an UNKNOWN piston at and below a full stroke, and a boundary with a stop, a cut and an abandonment. -/
theorem meets_BurstCompleteCounts_ends :
    (∀ x ∈ [(dose 320 160, 160, Piston.known 160), (purgeRun 160 .deliver, 160, .known 160),
            (primeRun 3040 .deliver, 160, .known 160), (calDose 3840, 160, .known 160),
            (refillRun, 640, .known 24960), (refillRun, 640, .known 0),
            (dose 320 0 .refill, 640, .unknown 24959), (dose 320 0 .refill, 640, .unknown 24960),
            (refillRun, 640, .unknown 24960), (refillRun, 640, .unknown 0),
            ({ dose 320 0 with atBoundary := some .stop }, 160, .known 160),
            ({ dose 320 0 .refill with atBoundary := some .stop }, 640, .known 24960),
            ({ dose 320 0 with atBoundary := some (.cut .removed) }, 160, .known 160),
            ({ dose 320 0 .refill with atBoundary := some (.cut .restart), restarted := true }, 640, .known 0),
            (purgeRun 0 .deliver (some .abandon), 160, .known 161), (purgeRun 0 .refill (some .abandon), 640, .known 24959),
            (primeRun 0 .refill (some .abandon), 640, .known 24960)],
        let s := bursting x.1 x.2.1 x.2.2
        (s.pump 0).burst = some ⟨x.1.phase == .refill, x.2.1, 0⟩ ∧ (s.pump 0).activity = some x.1
          ∧ (s.pump 0).piston = x.2.2 ∧ (s.pump 0).next = none)
    ∧ ((bursting (primeRun 3040 .deliver) 160 (.known 160) .priming).circuit 0).state = .priming
    ∧ (⟨0, 1000, 4000, 4000, 1000, 3840, false, .handed⟩ : CalRun).handing = .handed := by decide +kernel

/-- Circuit 1's pump with a request in the next place of its standalone REFILL. -/
def besideRefill (q : PumpRequest) (p : Piston) (s : State := State.reset) : State :=
  (driving 0 refillRun (some ⟨true, 640, 0⟩) p s).setPump 0 fun x => { x with next := some q }

/-- A request in the next place, and an abandoned run that empties or fills the piston, or has delivered its steps. -/
theorem meets_BurstCompleteCounts_next :
    (∀ q ∈ [(⟨.dose, .tin 1 0, 26000⟩ : PumpRequest), ⟨.dose, .cal, 4000⟩, ⟨.purge, .care, 320⟩, ⟨.prime, .table, 3200⟩],
      ∀ p ∈ [Piston.known 24960, .unknown 24960], ∀ k ∈ [Cap.closed, .opened], ∀ b ∈ [true, false],
        let s := besideRefill q p { station (fun t => { t with cap := k }) with stopped := b }
        (s.pump 0).next = some q ∧ (s.pump 0).activity = some refillRun ∧ (s.pump 0).piston = p ∧ s.stn.cap = k
          ∧ s.stopped = b)
    ∧ (∀ x ∈ [(purgeRun 0 .deliver (some .abandon), 160, Piston.known 160), (primeRun 0 .deliver (some .abandon), 160, .known 160),
            (purgeRun 0 .refill (some .abandon), 640, .known 24960), (purgeRun 0 .refill (some .abandon), 640, .unknown 24960),
            (purgeRun 0 .refill (some .abandon), 640, .unknown 24959), (primeRun 0 .refill (some .abandon), 640, .unknown 24959),
            (purgeRun 160 .deliver (some .abandon), 160, .known 160), (primeRun 3040 .deliver (some .abandon), 160, .known 160),
            ({ dose 320 0 .refill with atBoundary := some (.cut .removed) }, 640, .unknown 24960)],
        let s := bursting x.1 x.2.1 x.2.2
        (s.pump 0).burst = some ⟨x.1.phase == .refill, x.2.1, 0⟩ ∧ (s.pump 0).activity = some x.1
          ∧ (s.pump 0).piston = x.2.2 ∧ (s.pump 0).next = none) := by decide +kernel

/-- A prime ends on a circuit that stirs: a stir is neither due nor running, is due, and runs (R208). -/
theorem meets_BurstCompleteCounts_stir :
    let s := (bursting (primeRun 3040 .deliver) 160 (.known 160) .priming).setCircuit 0 fun r =>
      { r with cfg := { r.cfg with stir := .q15 } }
    (s.circuit 0).cfg.stir ≠ .off ∧ (s.circuit 0).stir = none ∧ s.cares.due = []
      ∧ (s.addDue 0 5).cares.due = [(0, 5)]
      ∧ ((s.setCircuit 0 fun r => { r with stir := some ⟨9, 5⟩ }).circuit 0).stir ≠ none
      ∧ nextHas (exec (.burstComplete 0) { s with stopped := true }) (fun t => t.cares.due == [(0, 0)]
          && t.drive.forfeit[(0 : Circ)] && !t.drive.forfeit[(1 : Circ)]) = true := by decide +kernel

/-- A full standalone REFILL starts the request in the next place (R95, R99). -/
theorem test_next_place :
    nextHas (exec (.burstComplete 0) (besideRefill ⟨.dose, .tin 1 0, 26000⟩ (.known 24960)))
      (fun t => ((t.pump 0).activity.map fun a => (a.kind, a.planned, a.phase)) == some (.dose, 26000, .deliver)
        && (t.pump 0).next == none) = true
    ∧ nextHas (exec (.burstComplete 0) (bursting (purgeRun 160 .deliver (some .abandon)) 160 (.known 160)))
      (fun t => (t.pump 0).activity == none) = true := by decide +kernel

/-- A purge ends complete, a purge that refills is abandoned, and a dose is stopped at its boundary (R99, R104, R107). -/
theorem test_burst_ends :
    nextHas (exec (.burstComplete 0) ((bursting (purgeRun 160 .deliver) 160 (.known 160)).setCircuit 0 fun r =>
        { r with level := 900000, purgeDue := some .forced }))
      (fun t => (t.pump 0).activity == none && (t.circuit 0).purgeDue == none && (t.circuit 0).level == 900000 - 80) = true
    ∧ nextHas (exec (.burstComplete 0) (bursting (purgeRun 0 .refill (some .abandon)) 640 (.known 0)))
      (fun t => ((t.pump 0).activity.map (·.kind)) == some .refill) = true
    ∧ nextHas (exec (.burstComplete 0) (bursting { dose 320 0 with atBoundary := some .stop } 160 (.known 160)))
      (fun t => ((t.pump 0).activity.map fun a => (a.run, a.phase, a.delivered)) == some (.stopped, .refill, 160)) = true := by
  decide +kernel

theorem meets_StalledBurstBlocks :
    (State.reset.pump 23).burst = none
    ∧ ∀ g ∈ [CircuitState.ready, .empty, .priming, .blocked],
        let s := driving 23 (dose 160 0) (some ⟨false, 160, 0⟩) (.known 160) (fitted 23 g)
        (s.pump 23).burst = some ⟨false, 160, 0⟩ ∧ (s.circuit 23).state = g := by decide +kernel

theorem meets_StalledBurstBlocks_next :
    let e : DoseEntry := ⟨txt "OX1", 0, 320, 80, .planned, none, false, .handed, 0, 0, none, 0⟩
    let s := besideRefill ⟨.dose, .tin 1 0, 320⟩ (.known 24960) (withTins [{ tinOf 1 .dosing with entries := [e] }])
    (s.pump 0).next = some ⟨.dose, .tin 1 0, 320⟩ ∧ (s.pump 0).activity = some refillRun ∧ (refillRun).kind = .refill
      ∧ s.tin? 1 = some { tinOf 1 .dosing with entries := [e] }
      ∧ ((besideRefill ⟨.dose, .cal, 4000⟩ (.known 0)).pump 0).next = some ⟨.dose, .cal, 4000⟩ := by decide +kernel

theorem test_timeout_blocks : nextHas
    (exec (.burstTimeout 23) (driving 23 (dose 160 0) (some ⟨false, 160, 0⟩) (.known 160) (fitted 23 .ready)))
    (fun t => t.now == 60000 && (t.circuit 23).reason == some .pumpFault) = true := by decide +kernel

theorem meets_SchemeWaitsForFrame :
    (∀ x ∈ [("CONTINUOUS", Scheme.continuous), ("SPREAD", .spread), ("SPLIT", .split)],
        (fields [("mode", x.1)]).malformed ["mode"] [] [] = false
          ∧ ((fields [("mode", x.1)]).get "mode").bind (named? schemeTable) = some x.2)
    ∧ (lastBurst.pump 0).activity ≠ none ∧ 8 ≤ (queued 8).store.fifo.length
    ∧ ((queued 7).store.fifo.length < 8
        ∧ ∀ c : Circ, ((queued 7).pump c).activity = none ∧ ((queued 7).pump c).next = none) := by decide +kernel

/-! ### The Dispense Station -/

def calRun : CalRun := ⟨0, 1000, 4000, 4000, 1000, 4000, false, .ended⟩

theorem meets_CapMotionAndDelay :
    (station fun t => { t with cap := .opening 5 }).stn.cap = .opening 5
    ∧ State.reset.stn.cap = .closing 2000000 ∧ State.reset.stn.tin = none ∧ State.reset.stn.cal = none
    ∧ (∀ x ∈ [Cap.closed, .opened, .halted .closed], (station fun t => { t with cap := x }).stn.cap = x)
    ∧ (station fun t => { t with cap := .opened, delay := .running 60 }).stn.delay = .running 60
    ∧ State.reset.stn.delay = .off := by decide +kernel

/-- The cap's next motion, by claim and cause, with circuit 1's purge in each phase. -/
def capped (k : Cap) (tin : Option Nat) (s : State := State.reset) : State :=
  station (fun t => { t with cap := k, tin := tin, delay := .expired }) s

theorem meets_CapMotionAndDelay_next :
    (∀ k ∈ [Cap.closed, .opened, .halted .closed], (capped k (some 1)).stn.cap = k ∧ (capped k (some 1)).stn.tin ≠ none
        ∧ (capped k none).stn.tin = none ∧ (capped k none).stn.cal = none ∧ (capped k none).stn.delay = .expired
        ∧ (capped k none).stopped = false)
    ∧ ∀ ph ∈ [Phase.deliver, .refill], ∀ b ∈ [none, some (⟨ph == .refill, 100, 0⟩ : Burst)],
        let s := capped .closed (some 1) (driving 0 (purgeRun 0 ph) b (.known 500))
        (s.pump 0).activity = some (purgeRun 0 ph) ∧ (s.pump 0).burst = b ∧ (s.pump 0).next = none := by decide +kernel

/-- The cap reaches CLOSED with a claim standing: a purge could be asked for, none is due, and one is in flight (R119). -/
theorem meets_CapMotionAndDelay_instant :
    (∀ d ∈ [none, some PurgeCause.forced],
        let s := capped (.closing 5) (some 1) ((fitted 0 .ready).setCircuit 0 fun r => { r with purgeDue := d })
        s.stn.cap = .closing 5 ∧ s.stn.tin ≠ none ∧ s.stopped = false ∧ (s.circuit 0).purgeDue = d
          ∧ (s.circuit 0).state = .ready ∧ (s.circuit 0).stir = none ∧ (s.pump 0).activity = none
          ∧ (s.pump 0).next = none ∧ ∀ c : Circ, c ≠ 0 → (s.circuit c).purgeDue = none)
    ∧ (purgeRun 0 .deliver).kind = .purge := by decide +kernel

/-- A prime held, one that delivers, and one that waits for the cap. -/
theorem meets_CapMotionAndDelay_primes :
    (let s := (fitted 0 .priming).setPump 0 fun p => { p with heldPrime := true }
     (s.pump 0).heldPrime = true ∧ (s.pump 0).activity = none ∧ (s.circuit 0).state = .priming ∧ s.stopped = false)
    ∧ (∀ x ∈ [(primeRun 0 .deliver, Cap.opened), ({ primeRun 0 .deliver with run := .waitingCap }, .closed),
          (primeRun 0 .refill, .opened), ({ primeRun 0 .deliver with run := .stopped }, .opened)],
        let s := capped x.2 none (driving 0 x.1 none (.known 3200) (fitted 0 .priming))
        (s.pump 0).activity = some x.1 ∧ (s.pump 0).burst = none ∧ s.stn.cap = x.2)
    ∧ (State.reset.pump 0).heldPrime = false ∧ (State.reset.pump 0).activity = none := by decide +kernel

/-- A request for a prime meets a dose, a REFILL with a free or a full next place, a stopped machine, an idle pump. -/
theorem meets_CapMotionAndDelay_request :
    ((driving 0 (dose 320 0) none).pump 0).activity = some (dose 320 0)
    ∧ (∀ q ∈ [none, some primeRequest],
        let s := (driving 0 refillRun none).setPump 0 fun p => { p with next := q }
        (s.pump 0).activity = some refillRun ∧ (s.pump 0).next = q ∧ s.stopped = false)
    ∧ State.reset.stopped = false ∧ { State.reset with stopped := true }.stopped = true := by decide +kernel

/-- A prime that meets a dose still ending is refused BUSY and not held (R95). -/
theorem test_prime_refused :
    let s := driving 0 { dose 320 0 with atBoundary := some (.cut .removed) } (some ⟨false, 160, 0⟩) (.known 25600)
      (fitted 0 .priming)
    s.askPump 0 primeRequest = (s, false) := by decide +kernel

/-- A prime that RESTART asks for after a run it cut in its burst is created as that run ends (R110), and so is one whose burst
outlasts STOP and RESUME (R26, R107). -/
theorem test_prime_follows :
    nextHas (exec (.restart []) (driving 0 (dose 320 0) (some ⟨false, 160, 0⟩) (.known 25600) (fitted 0 .priming)))
      (fun t => nextHas (exec (.burstComplete 0) t) (fun u => (u.pump 0).activity.map (·.kind) == some .prime)) = true
    ∧ nextHas (exec .stopInputActive (driving 0 (primeRun 0 .deliver) (some ⟨false, 160, 0⟩) (.known 3200) (fitted 0 .priming)))
      (fun t => nextHas (exec .stopInputReleased t) (fun t => nextHas (exec (.resume []) t) (fun t =>
        (t.pump 0).heldPrime && nextHas (exec (.burstComplete 0) t) (fun u =>
          (u.pump 0).activity.map (fun a => (a.kind, a.delivered)) == some (.prime, 0))))) = true := by decide +kernel

/-- A prime in DELIVER waits while the cap is not closed (R108), and a claim abandons a purge (R104). -/
theorem test_cap_looks :
    ((capped .opened none (driving 0 (primeRun 0 .deliver) none (.known 3200) (fitted 0 .priming))).primesLook.pump 0).activity
        = some { primeRun 0 .deliver with run := .waitingCap }
    ∧ (let u := (capped .closed (some 1) (driving 0 (purgeRun 0 .deliver) none (.known 500))).capDecide
       u.stn.cap = .opening 2000000 ∧ (u.pump 0).activity = none) := by decide +kernel

/-- A tin of line 7 at Z2 being weighed, with an expected mass of 178,594 mg and a tare of 1,000 mg. -/
def weighing (tare : Reading) (ex : Option Nat) : State :=
  station (fun t => { t with job := .weighing, tin := some 1, tare := some tare, settle := .running 1500000, cap := .opened })
    (atPlace .z2 { tinOf 1 .weighing with weight := ⟨ex, none, none⟩ } true)

/-- The larger of 200 mg and 2 %: 200 mg of 10,000, and 3,571 mg of 178,594. -/
theorem meets_SettleGivesReading :
    State.reset.stn.settle = .off
    ∧ (∀ j ∈ [Job.preparing, .calPreparing],
        (station fun t => { t with job := j, settle := .running 7 }).stn.settle = .running 7
          ∧ (station fun t => { t with job := j, settle := .running 7 }).stn.job = j)
    ∧ (∀ ex ∈ [10000, 178594],
        let s := weighing (.mg 1000) (some ex)
        s.stn.settle = .running 1500000 ∧ s.stn.job = .weighing ∧ s.stn.tin = some 1 ∧ s.stn.tare = some (.mg 1000)
          ∧ (s.tin? 1).map (·.weight.expected) = some (some ex) ∧ (s.tin? 1).map (·.order) = some (some (7, 1)))
    ∧ (((11200 : Int) - 1000 - 10000).natAbs ≤ 200 ∧ 200 < ((11201 : Int) - 1000 - 10000).natAbs
        ∧ 10000 < 50 * ((11201 : Int) - 1000 - 10000).natAbs)
    ∧ (50 * ((183165 : Int) - 1000 - 178594).natAbs ≤ 178594 ∧ 178594 < 50 * ((183166 : Int) - 1000 - 178594).natAbs
        ∧ 200 < ((183166 : Int) - 1000 - 178594).natAbs)
    ∧ (weighing .over (some 5)).stn.tare = some .over
    ∧ (let s := station fun t =>
          { t with job := .calWeighing, cal := some calRun, tare := some (.mg 0), settle := .running 9, cap := .opened }
       s.stn.settle = .running 9 ∧ s.stn.job = .calWeighing ∧ s.stn.cal = some calRun
         ∧ s.stn.tare = some (.mg 0)) := by decide +kernel

/-- A calibration weighing that reads OVER forms a result with 0 mg (R131). -/
theorem test_calibration_over : nextHas (exec (.settleEnd .over) (station fun t =>
      { t with job := .calWeighing, cal := some calRun, tare := some (.mg 0), settle := .running 9, cap := .opened }))
    (fun t => t.calResult == some (calRun.result 0) && t.link.isSet .calDone) = true := by decide +kernel

/-- The tin of a line in each state, with the marker asked for. -/
theorem meets_SettleGivesReading_line :
    ∀ g ∈ [LineState.running, .finishing, .held, .cancelled],
      let s := station (fun t => { t with markerAsked := true })
        { weighing (.mg 1000) (some 10000) with bk := ⟨[orderLine 7 g 1 24], 7⟩ }
      s.line? 7 = some (orderLine 7 g 1 24) ∧ (orderLine 7 g 1 24).state = g ∧ s.stn.markerAsked = true
        ∧ (s.tin? 1).map (·.order) = some (some (7, 1)) := by decide +kernel

/-- A dose entry of circuit 1. -/
def entryOf (h : Handing) (mass : Nat := 0) : DoseEntry := ⟨txt "OX1", 0, 320, 80, .planned, none, false, h, 0, 0, none, mass⟩

/-- The job of tin 1 in a stage, with its entries, circuit 1 in a state with a lot. -/
def jobOf (j : Job) (es : List DoseEntry) (g : CircuitState := .ready) (first : Option Text := none)
    (s : State := State.reset) : State :=
  let line := { orderLine 7 .running 1 24 with entries := [⟨some 0, none, first⟩] }
  station (fun t => { t with job := j, tin := some 1, cap := .opened, settle := .off, tare := some (.mg 1000) })
    (atPlace .z2 { tinOf 1 .dosing with entries := es } true
      (withLines [line] ((fitted 0 g s).setCircuit 0 fun r => { r with lot := some (txt "24K07A19") })))

theorem meets_SettleGivesReading_look :
    (jobOf .preparing []).stn.tin = some 1 ∧ (jobOf .preparing []).stn.settle = .off ∧ (jobOf .preparing []).stn.cap = .opened
    ∧ State.reset.stn.cap ≠ .opened
    ∧ (∀ h ∈ [Handing.notYet, .again true, .again false, .handed, .ended], ∀ g ∈ [CircuitState.ready, .empty, .blocked],
        let s := jobOf .dosing [entryOf h] g
        (s.tin? 1).map (·.entries) = some [entryOf h] ∧ (entryOf h).handing = h ∧ (s.circuit 0).state = g
          ∧ (s.pump 0).activity = none ∧ (s.circuit 0).lot = some (txt "24K07A19"))
    ∧ (∀ a ∈ [refillRun, purgeRun 0 .deliver, refillRun (some (.cut .removed))],
        let s := jobOf .dosing [entryOf .notYet] .ready none (driving 0 a none)
        (s.pump 0).activity = some a ∧ (s.pump 0).next = none)
    ∧ (∀ f ∈ [none, some (txt "24K07A19"), some (txt "24K07A20")],
        ((jobOf .dosing [entryOf .notYet] .ready f).line? 7).bind (fun l => l.entries[0]?) = some ⟨some 0, none, f⟩)
    ∧ (∀ m ∈ [499, 500], ((jobOf .dosing [entryOf .ended m]).tin? 1).map (fun t => (t.entries.map (·.mass)).sum) = some m) := by
  decide +kernel

/-- The lot is compared with the line's first (R85), and an entry of a BLOCKED circuit is NOT_RUN (R97). -/
theorem test_look_entry :
    (((jobOf .dosing [entryOf .notYet] .ready (some (txt "24K07A20"))).lookEntry 1 0).tin? 1).map (·.notes) = some [.lotSplit]
    ∧ (((jobOf .dosing [entryOf .notYet] .blocked).lookEntry 1 0).tin? 1).map (fun t => (t.notes, t.entries.map (·.run)))
        = some ([.shortDose], [some .notRun])
    ∧ ((jobOf .dosing [entryOf .ended 499]).stationLook.tin? 1).map (·.weight.verdict) = some (some .uncheckedLight)
    ∧ ((jobOf .dosing [entryOf .ended 500]).stationLook.stn.job = .weighing) := by decide +kernel

theorem test_settle_passes : nextHas (exec (.settleEnd (.mg 183160)) (weighing (.mg 1000) (some 178594)))
    (fun t => (t.tin? 1).map (·.weight.verdict) == some (some .pass)) = true := by decide +kernel

theorem meets_CalibrationResult :
    { calRun with delivered := 3999 }.delivered < { calRun with delivered := 3999 }.steps
    ∧ calRun.steps ≤ calRun.delivered ∧ (999 : Int) < 1000 ∧ (1000 : Int) ≤ 1000
    ∧ { calRun with changed := true }.changed = true ∧ calRun.changed = false ∧ 0 < calRun.k := by decide

/-- A CSET of the circuit of a calibration run, and of another circuit. -/
theorem meets_CalibrationResult_change :
    ∀ x ∈ [(fields [("circuit", "1"), ("density", "1001")], (0 : Circ)), (fields [("circuit", "24"), ("k", "1001")], 23)],
      let s := station (fun t => { t with cal := some calRun }) (fitted 0 .ready)
      s.stn.cal = some calRun ∧ x.1.malformed csetKeys ["circuit"] csetNumbers = false
        ∧ (x.1.num "circuit").bind circ? = some x.2 ∧ csetOutside x.1 = false
        ∧ ((s.circuit x.2).csetApplied x.1).consistent = true ∧ s.twinChange x.2 x.1 = some ⟨false, none⟩
        ∧ s.csetHindered x.2 x.1 = false
        ∧ s.store.fifo.length + (1 + ((⟨false, none⟩ : TwinChange).partners (s.circuit x.2).cfg).length) ≤ 8 := by
  decide +kernel

/-- A held result of the circuit that a CSET changes or takes the code from, and of another one (R62). -/
theorem meets_CalibrationResult_held :
    let q : CalResult := ⟨0, 1000, 4000, 4000, 1000, some 0, .ok⟩
    let removed := fields [("circuit", "1"), ("code", "NONE")]
    (∀ x ∈ [(fields [("circuit", "1"), ("density", "1001")], CircuitState.ready, (0 : Circ)),
        (fields [("circuit", "1"), ("low", "5")], .ready, 0), (removed, .service, 0),
        (fields [("circuit", "24"), ("k", "1001")], .ready, 23)],
      let s := withResult q (fitted 0 x.2.1)
      s.calResult = some q ∧ s.stn.cal = none ∧ ((s.circuit 0).cfg.code ≠ none)
        ∧ x.1.malformed csetKeys ["circuit"] csetNumbers = false ∧ (x.1.num "circuit").bind circ? = some x.2.2
        ∧ csetOutside x.1 = false ∧ ((s.circuit x.2.2).csetApplied x.1).consistent = true
        ∧ s.twinChange x.2.2 x.1 = some ⟨false, none⟩ ∧ s.csetHindered x.2.2 x.1 = false)
    ∧ removed.get "code" = some (txt "NONE")
    ∧ nextHas (exec (.cset removed) (withResult q (fitted 0 .service))) (fun t => t.calResult == none) = true := by
  decide +kernel

/-- The scale is assigned to CALIBRATION, with circuit 1 in READY at a level. -/
def calScale (level : Nat) : State :=
  station (fun t => { t with scale := .calibration })
    ((fitted 0 .ready).setCircuit 0 fun r => { r with level := level, cfg := { r.cfg with reserve := 500 } })

theorem meets_ScaleAndCalibrationRun :
    (∀ x ∈ [("DOSE_CHECK", ScaleMode.doseCheck), ("CALIBRATION", .calibration)],
        (fields [("mode", x.1)]).malformed ["mode"] [] [] = false
          ∧ ((fields [("mode", x.1)]).get "mode").bind (named? scaleTable) = some x.2)
    ∧ (station fun t => { t with cal := some calRun }).stn.cal ≠ none
    ∧ State.reset.stn.cal = none ∧ (State.reset.placeRec .z2).tin = none ∧ (State.reset.placeRec .z2).reserved = none
    ∧ (State.reset.placeRec .z2).uncertain = false ∧ State.reset.stn.scale = .doseCheck
    ∧ (calScale 0).stn.scale = .calibration
    ∧ ∀ x ∈ [("1000", 1000), ("50000", 50000)],
        let fs := fields [("circuit", "1"), ("vol", x.1), ("cup", "YES")]
        let n := roundHalfUp (x.2 * 4000) 1000
        fs.malformed ["circuit", "vol", "cup"] ["circuit", "vol"] ["circuit", "vol"] = false
          ∧ (fs.num "circuit").bind circ? = some 0 ∧ fs.num "vol" = some x.2 ∧ fs.get "cup" = some (txt "YES")
          ∧ (calScale (500 + x.2)).stopped = false ∧ ((calScale (500 + x.2)).circuit 0).state = .ready
          ∧ ((calScale (500 + x.2)).pump 0).activity = none ∧ ((calScale 0).circuit 0).cfg.k = 4000
          ∧ 500 + roundHalfUp (n * 1000) 4000 = 500 + x.2 ∧ ((calScale (499 + x.2)).circuit 0).level < 500 + x.2
          ∧ 500 + x.2 ≤ ((calScale (500 + x.2)).circuit 0).level := by decide +kernel

/-- A calibration run of circuit 1 in a job. -/
def calJob (j : Job) (h : Handing) (delivered : Nat) (tare : Reading := .mg 0) (g : CircuitState := .ready)
    (s : State := State.reset) : State :=
  station (fun t => { t with
    job := j, cap := .opened, settle := .off, tare := some tare, cal := some ⟨0, 1000, 4000, 4000, 1000, delivered, false, h⟩ })
    (fitted 0 g s)

theorem meets_ScaleAndCalibrationRun_look :
    (∀ j ∈ [Job.calPreparing, .calRunning], ∀ h ∈ [Handing.notYet, .again true, .handed, .ended], ∀ d ∈ [0, 4000],
        (calJob j h d).stn.job = j ∧ (calJob j h d).stn.cal = some ⟨0, 1000, 4000, 4000, 1000, d, false, h⟩
          ∧ (calJob j h d).stn.settle = .off ∧ (calJob j h d).stn.cap = .opened ∧ ((calJob j h d).pump 0).activity = none)
    ∧ (calJob .calPreparing .notYet 0 .over).stn.tare = some .over
    ∧ (∀ g ∈ [CircuitState.ready, .empty, .blocked], ((calJob .calRunning .notYet 0 (.mg 0) g).circuit 0).state = g)
    ∧ (∀ a ∈ [refillRun, purgeRun 0 .deliver],
        ((calJob .calRunning .notYet 0 (.mg 0) .ready (driving 0 a none)).pump 0).activity = some a) := by decide +kernel

/-- The run is handed to an idle pump; with no step delivered it ends in a result of mass 0 (R95, R97, R131). -/
theorem test_cal_look :
    ((calJob .calPreparing .notYet 0).stationLook.pump 0).activity.map (fun a => (a.owner, a.planned)) = some (.cal, 4000)
    ∧ (calJob .calRunning .ended 0).stationLook.calResult.map (·.mass) = some 0 := by decide +kernel

theorem test_calrun_takes_run : nextHas
    (exec (.calrun (fields [("circuit", "1"), ("vol", "1000"), ("cup", "YES")])) (calScale 1500))
    (fun t => t.stn.job == .calPreparing && t.stn.settle == .running 1500000) = true := by decide +kernel

/-! ### The Tin Track -/

theorem meets_ArrivalEndsMove :
    ∀ x ∈ [(Place.z1, Place.z2), (.z2, .z3), (.z3, .z4), (.z4, .mixA), (.z4, .mixB), (.mixA, .z5), (.mixB, .z5), (.z4, .z5), (.z5, .out)],
      let s := onWay x.1 x.2 (tinOf 1 .readyToMove)
      s.moveTo x.2 = some ⟨1, x.1, x.2, some 4000000⟩ ∧ x.1 ≠ x.2 ∧ s.tin? 1 = some (tinOf 1 .readyToMove)
        ∧ s.stn.tin = some 1 := by decide +kernel

/-- The lower and the upper end of the marks, and one mark outside each. -/
theorem test_arrival_marks :
    (∀ k ∈ [45, 51], nextHas (exec (.arrival .z2 k) (onWay .z1 .z2 (tinOf 1 .readyToMove)))
        (fun t => t.stn.job == .preparing && !(t.placeRec .z2).uncertain) = true)
    ∧ ∀ k ∈ [44, 52], nextHas (exec (.arrival .z2 k) (onWay .z1 .z2 (tinOf 1 .readyToMove)))
        (fun t => t.link.isSet .trackSlip && (t.placeRec .z2).uncertain) = true := by decide +kernel

/-- Tin 1 READY_TO_MOVE at a place, with a route, the next place reserved for it or not. -/
def readyAt (src : Place) (dst : Place) (res : Bool) (rt : Option Route := none) (s : State := State.reset) : State :=
  (atPlace src { tinOf 1 .readyToMove with route := rt } true s).setPlace dst fun r =>
    { r with reserved := if res then some 1 else none }

theorem meets_ArrivalEndsMove_reserve :
    (∀ x ∈ [(Place.z2, Place.z3), (.z3, .z4), (.z5, .out), (.mixA, .z5), (.mixB, .z5), (.z4, .z5)],
        let s := readyAt x.1 x.2 false (some .bypass)
        (s.placeRec x.1).arriving = false ∧ s.tinAt x.1 = some { tinOf 1 .readyToMove with route := some .bypass }
          ∧ (s.placeRec x.2).uncertain = false ∧ (s.placeRec x.2).reserved = none
          ∧ (x.2 = .out → s.track.lane.length < 4 ∧ (s.placeRec .out).arriving = false ∧ s.inp.lane[3] = false)
          ∧ (x.2 ≠ .out → (s.placeRec x.2).tin = none ∧ (s.placeRec x.2).departing = false ∧ s.shows x.2 = false))
    ∧ (∀ x ∈ [(Place.z1, Place.z2), (.z2, .z3), (.z3, .z4), (.z4, .z5), (.z5, .out), (.mixA, .z5), (.z4, .mixB)],
        let s := readyAt x.1 x.2 true
        (s.placeRec x.1).uncertain = false ∧ (s.placeRec x.2).reserved = some 1 ∧ s.stopped = false ∧ x.1 ≠ x.2)
    ∧ State.reset.tinAt .z2 = none := by decide +kernel

/-- The arm, free with one transfer noted, and not free. -/
def armed (s : State) : State := { s with track := { s.track with armReady := [(1, 0)] } }

theorem meets_ArrivalEndsMove_arm :
    (armed (readyAt .mixA .z5 true)).armFree = true ∧ (armed (readyAt .mixA .z5 true)).track.armReady = [] ++ (1, 0) :: []
    ∧ (Place.mixA, Place.z5) ∈ armTransfers ∧ (onWay .z4 .mixA (tinOf 1 .readyToMove)).armFree = false
    ∧ State.reset.track.armReady = [] := by decide +kernel

/-- Of MIXER A and Z4 the tin that became ready first gets Z5 (R144); the arm begins its transfer (R145, R146). -/
theorem test_track_looks :
    (let s := readyAt .mixA .z5 false
     let t : Tin := { tinOf 2 .readyToMove with route := some .bypass, readyAt := 0 }
     let late : State := { s with track := { s.track with tins := [{ tinOf 1 .readyToMove with readyAt := 5 }, t] } }
     ((late.setPlace .z4 fun r => { r with tin := some 2 }).reserveZ5.placeRec .z5).reserved = some 2)
    ∧ (armed (readyAt .mixA .z5 true)).armGrant.track.moves = [⟨1, .mixA, .z5, some 4000000⟩] := by decide +kernel

theorem meets_JamMakesPair :
    State.reset.moveTo .z2 = none
    ∧ (onWay .z1 .z2 (tinOf 1 .readyToMove) none).moveTo .z2 = some ⟨1, .z1, .z2, none⟩
    ∧ (onWay .z1 .z2 (tinOf 1 .readyToMove)).moveTo .z2 = some ⟨1, .z1, .z2, some 4000000⟩ := by decide +kernel

theorem meets_DisagreementsAreSeen :
    (∀ p ∈ [Place.z2, .z3, .z4, .z5], State.reset.watchHeld p = false ∧ State.reset.moving p = false
        ∧ (State.reset.placeRec p).uncertain = false ∧ (State.reset.placeRec p).tin = none
        ∧ State.reset.track.tins.length < 255
        ∧ (let s := atPlace p (tinOf 255 .readyToMove) true
           s.watchHeld p = false ∧ s.moving p = false ∧ (s.placeRec p).tin = some 255
             ∧ s.tin? 255 = some (tinOf 255 .readyToMove)))
    ∧ (∀ m ∈ [Mix.a, .b], (State.reset.mixerRec m).state = .idle ∧ (State.reset.placeRec m.place).tin = none
        ∧ (let s := (atPlace m.place (tinOf 1 .readyToMove) true).setMixer m fun x => { x with state := .holding }
           (s.mixerRec m).state = .holding ∧ s.moving m.place = false ∧ (s.placeRec m.place).tin = some 1
             ∧ s.tin? 1 = some (tinOf 1 .readyToMove))) := by decide +kernel

/-- An orphan or FAILED record at a zone, an orphan in a mixer, a LOADING mixer, a place that is not watched, and OUT 1. -/
theorem meets_DisagreementsAreSeen_rest :
    (∀ g ∈ [Stage.orphan, .failed], (atPlace .z5 (tinOf 1 g) true).tin? 1 = some (tinOf 1 g) ∧ (tinOf 1 g).stage = g
        ∧ (atPlace .mixA (tinOf 1 g) true).tin? 1 = some (tinOf 1 g))
    ∧ (let s := State.reset.setMixer .b fun x => { x with state := .loading, tin := some 9 }
       (s.mixerRec .b).state = .loading ∧ s.moving .mixB = false ∧ (s.placeRec .mixB).tin = none)
    ∧ (State.reset.setPlace .z4 fun r => { r with uncertain := true }).atRest .z4 = false
    ∧ (station fun t => { t with job := .dosing }).watchHeld .z2 = true
    ∧ { State.reset with inp := { Inputs.reset with lane := Vector.replicate 4 true } }.inp.lane[0] = true
    ∧ State.reset.inp.lane[0] = false := by decide +kernel

/-- A tin found in the cradle of a LOADING mixer is held there, and the reservation ends (R178); a sensor that clears under an
orphan is no disagreement (R150). -/
theorem test_disagreements :
    nextHas (exec (.cradleDisagreement .b true)
        ((State.reset.setMixer .b fun x => { x with state := .loading, tin := some 9 }).setPlace .mixB fun r =>
          { r with reserved := some 9 }))
      (fun t => (t.mixerRec .b).state == .holding && (t.placeRec .mixB).reserved == none) = true
    ∧ nextHas (exec (.zoneDisagreement .z5 false) (atPlace .z5 (tinOf 1 .orphan) true))
      (fun t => !(t.placeRec .z5).uncertain && !t.link.isSet .trackSlip) = true := by decide +kernel

theorem meets_ConfirmAndClear :
    (∀ x ∈ [("Z1", Place.z1), ("Z5", .z5)],
        let fs := fields [("zone", x.1)]
        let shown := atPlace x.2 (tinOf 1 .readyToMove) true
        let gone := { atPlace x.2 (tinOf 1 .readyToMove) false with bk := ⟨[orderLine 7 .finishing 24 24], 7⟩ }
        fs.malformed ["zone"] ["zone"] [] = false ∧ (fs.get "zone").bind (named? placeTable) = some x.2
          ∧ x.2.isMixer = false ∧ State.reset.confirmBusy x.2 = false ∧ State.reset.jamAt x.2 = none
          ∧ (State.reset.placeRec x.2).uncertain = false ∧ State.reset.tinAt x.2 = none ∧ State.reset.shows x.2 = false
          ∧ shown.tinAt x.2 = some (tinOf 1 .readyToMove) ∧ shown.shows x.2 = true ∧ shown.confirmBusy x.2 = false
          ∧ gone.tinAt x.2 = some (tinOf 1 .readyToMove) ∧ gone.shows x.2 = false
          ∧ gone.line? 7 = some (orderLine 7 .finishing 24 24) ∧ shown.moving x.2 = false
          ∧ (∀ g ∈ [Stage.orphan, .failed], (atPlace x.2 (tinOf 1 g) false).tinAt x.2 = some (tinOf 1 g)
              ∧ (atPlace x.2 (tinOf 1 g) false).shows x.2 = false))
    ∧ (onWay .z1 .z2 (tinOf 1 .readyToMove)).confirmBusy .z2 = true
    ∧ (let s := { State.reset with inp := State.reset.inp.setPlace .z5 true }
       s.tinAt .z5 = none ∧ s.shows .z5 = true ∧ s.track.tins.length < 255)
    ∧ (let s := (atPlace .z5 (tinOf 1 .readyToMove) true).setPlace .z5 fun r => { r with uncertain := true }
       s.confirmBusy .z5 = false ∧ s.jamAt .z5 = none ∧ (s.placeRec .z5).uncertain = true
         ∧ (s.placeRec .z5).owed = false ∧ (s.placeRec .z5).tin ≠ none ∧ s.shows .z5 = true) := by decide +kernel

/-- A jam of tin 1 between two places, with their sensors. -/
def jammed (src dst : Place) (a b : Bool) (s : State := State.reset) : State :=
  let u := (withTins [tinOf 1 .readyToMove] { s with bk := ⟨[orderLine 7 .finishing 24 24], 7⟩ }).setPlace src fun r =>
    { r with uncertain := true }
  let v := u.setPlace dst fun r => { r with tin := some 1, uncertain := true }
  { v with track := { v.track with jams := [⟨1, src, dst⟩] }, inp := (v.inp.setPlace src a).setPlace dst b }

theorem meets_ConfirmAndClear_jam :
    (∀ x ∈ [(Place.z1, Place.z2), (.z2, .z3), (.z3, .z4), (.z4, .mixA), (.mixB, .z5), (.z4, .z5)],
        ∀ y ∈ [(false, true), (true, false), (false, false), (true, true)],
        let s := jammed x.1 x.2 y.1 y.2
        s.jamAt x.1 = some ⟨1, x.1, x.2⟩ ∧ s.jamAt x.2 = some ⟨1, x.1, x.2⟩ ∧ s.tin? 1 = some (tinOf 1 .readyToMove)
          ∧ s.shows x.1 = y.1 ∧ s.shows x.2 = y.2 ∧ s.track.moves = [] ∧ s.confirmBusy x.1 = false
          ∧ s.confirmBusy x.2 = false)
    ∧ (∀ x ∈ [("Z2", Place.z2), ("MIXA", .mixA), ("MIXB", .mixB)],
        ((fields [("zone", x.1)]).get "zone").bind (named? placeTable) = some x.2) := by decide +kernel

theorem meets_ConfirmAndClear_book : BookInv (jammed .z1 .z2 false false)
    ∧ BookInv { atPlace .z5 (tinOf 1 .readyToMove) false with bk := ⟨[orderLine 7 .finishing 24 24], 7⟩ } := by
  unfold BookInv OrderLine.counts OrderLine.entriesFit; decide +kernel

/-- An UNCERTAIN place whose tin is gone, or slipped and shown, and a mixer that is open or clamped with an orphan. -/
theorem meets_ConfirmAndClear_uncertain :
    (∀ b ∈ [true, false], ∀ p ∈ [Place.z2, .z5, .mixA],
        let s := (atPlace p (tinOf 1 .readyToMove) b).setPlace p fun r => { r with uncertain := true, owed := b }
        s.jamAt p = none ∧ (s.placeRec p).uncertain = true ∧ (s.placeRec p).owed = b ∧ s.shows p = b
          ∧ s.tinAt p = some (tinOf 1 .readyToMove) ∧ s.confirmBusy p = false ∧ s.lid.press ≠ .waitingLid)
    ∧ (∀ k ∈ [Clamp.opened, .moving, .closed],
        let s := (atPlace .mixA (tinOf 1 .orphan) false).setMixer .a fun x => { x with state := .holding, clamp := k }
        (s.mixerRec .a).clamp = k ∧ s.tinAt .mixA = some (tinOf 1 .orphan) ∧ s.shows .mixA = false
          ∧ (s.mixerRec .a).state = .holding)
    ∧ State.reset.confirmBusy .mixA = true := by decide +kernel

/-- Tin 1 waits for a lid at an UNCERTAIN Z3. -/
def lidlessAtZ3 (shown lids : Bool) (policy : LidPolicy) : State :=
  let s := (atPlace .z3 (tinOf 1 .lidding) shown).setPlace .z3 fun r => { r with uncertain := true }
  { s with
    lid := { s.lid with press := .waitingLid, tin := some 1, code := some 1, policy := policy }
    inp := { s.inp with lids := Vector.replicate 3 lids } }

theorem meets_ConfirmAndClear_waiting :
    (∀ b ∈ [true, false], ∀ k ∈ [true, false], ∀ p ∈ [LidPolicy.hold, .pass],
        let s := lidlessAtZ3 b k p
        s.jamAt .z3 = none ∧ (s.placeRec .z3).uncertain = true ∧ s.tinAt .z3 = some (tinOf 1 .lidding)
          ∧ s.lid.press = .waitingLid ∧ s.lid.tin = some 1 ∧ s.lid.code = some 1 ∧ s.lid.drawn = false ∧ s.shows .z3 = b
          ∧ s.lid.policy = p ∧ s.inp.lids[(1 : Fin 3)] = k ∧ s.lid.mags[(1 : Fin 3)].code = 1 ∧ s.confirmBusy .z3 = false)
    ∧ (∀ b ∈ [true, false], ∀ p ∈ [Place.z1, .z2, .z3, .mixB],
        let u := State.reset.setPlace p fun r => { r with uncertain := true }
        let s := { u with inp := u.inp.setPlace p b }
        s.jamAt p = none ∧ (s.placeRec p).uncertain = true ∧ (s.placeRec p).tin = none ∧ s.shows p = b
          ∧ s.confirmBusy p = false ∧ s.lid.press ≠ .waitingLid) := by decide +kernel

/-- The job tin is in a jam before Z2, or at a Z2 that does not show it; it has asked for a marker set. -/
def jobTinGone (jam : Bool) : State :=
  station (fun t => { t with job := .inbound, tin := some 1, markerAsked := true, cap := .opened })
    (if jam then jammed .z1 .z2 false false
      else { atPlace .z2 (tinOf 1 .readyToMove) false with bk := ⟨[orderLine 7 .finishing 24 24], 7⟩ })

theorem meets_ConfirmAndClear_station :
    ∀ b ∈ [true, false],
      let s := jobTinGone b
      s.stn.tin = some 1 ∧ s.stn.cal = none ∧ s.stn.cap = .opened ∧ s.stn.markerAsked = true ∧ s.confirmBusy .z2 = false
        ∧ (s.jamAt .z2).isSome = b ∧ s.shows .z2 = false ∧ (s.placeRec .z2).tin = some 1 := by decide +kernel

/-- A job tin found LOST leaves the station IDLE with its marker clear asked for (R118, R151), and Z2's loss of a tin that is
not the job tin owes an attempt (R114). -/
theorem test_confirm_lost_job :
    (∀ b ∈ [true, false], nextHas (exec (.confirm (fields [("zone", "Z2")])) (jobTinGone b))
      (fun t => t.stn.job == .idle && t.stn.tin == none && t.stn.delay == .running 60000000
        && (t.store.pendingClear || t.store.writer == some (.marker none, 30000))) = true)
    ∧ ((atPlace .z2 (tinOf 1 .readyToMove) false).lostAt .z2 1).stn.attemptOwed = true := by decide +kernel

/-- CONFIRM makes the search for a lid that was held off (R150, R164). -/
theorem test_confirm_searches : nextHas (exec (.confirm (fields [("zone", "Z3")])) (lidlessAtZ3 true true .hold))
    (fun t => !(t.placeRec .z3).uncertain && t.lid.mag == some 1) = true := by decide +kernel

/-- PLACED and LOST of a jam pair, and a slipped tin handed over (R148, R151). -/
theorem test_confirm_jam :
    nextHas (exec (.confirm (fields [("zone", "Z4")])) (jammed .z3 .z4 false true))
      (fun t => (t.placeRec .z4).tin == some 1 && t.track.jams == [] && !(t.placeRec .z3).uncertain) = true
    ∧ nextHas (exec (.confirm (fields [("zone", "Z3")])) (jammed .z3 .z4 false false))
      (fun t => t.tin? 1 == none && (t.line? 7).map (·.failed) == some 1 && t.link.isSet .tinFinished) = true := by
  decide +kernel

/-! ### The Lidder and the Mixers -/

/-- A tin under the press. -/
def pressing (attempt : Nat) : State :=
  let s := atPlace .z3 (tinOf 1 .lidding) true
  { s with lid := { s.lid with
      press := .pressing, tin := some 1, code := some 1, drawn := true, mag := some 1, attempt := attempt
      cycleEnd := some 2500000 } }

theorem meets_PressCycleJudgesLid :
    State.reset.lid.cycleEnd = none
    ∧ ∀ k ∈ [1, 2], (pressing k).lid.cycleEnd = some 2500000 ∧ (pressing k).lid.tin = some 1
        ∧ (pressing k).tin? 1 = some (tinOf 1 .lidding) ∧ (pressing k).lid.attempt = k := by decide +kernel

/-- A tin of lid code L2 that waits at Z3, magazine 2 holding L2. -/
def waitingLid (drawn : Bool) (mag : Option (Fin 3)) (g : PressState) (policy : LidPolicy) (lids : Bool) (count : Nat := 6) :
    State :=
  let s := atPlace .z3 (tinOf 1 .lidding) true
  { s with
    lid := { s.lid with
      press := g, tin := some 1, code := some 1, drawn := drawn, mag := mag, policy := policy
      mags := Vector.ofFn fun i => ⟨i, count⟩ }
    inp := { s.inp with lids := Vector.replicate 3 lids, guardOpen := false } }

theorem meets_PressCycleJudgesLid_search :
    ∀ g ∈ [PressState.waiting, .waitingLid], ∀ pol ∈ [LidPolicy.hold, .pass], ∀ b ∈ [true, false],
      let s := waitingLid false none g pol b
      s.lid.tin = some 1 ∧ s.lid.code = some 1 ∧ s.lid.drawn = false ∧ s.lid.press = g ∧ s.lid.policy = pol
        ∧ (s.placeRec .z3).uncertain = false ∧ s.lid.mags[(1 : Fin 3)].code = 1 ∧ s.lid.mags[(0 : Fin 3)].code ≠ 1
        ∧ s.inp.lids[(1 : Fin 3)] = b ∧ s.tin? 1 = some (tinOf 1 .lidding) := by decide +kernel

theorem meets_PressCycleJudgesLid_press :
    ∀ d ∈ [true, false], ∀ b ∈ [true, false],
      let s := waitingLid d (some 1) .waiting .hold b
      s.lid.press = .waiting ∧ s.inp.guardOpen = false ∧ s.stopped = false ∧ (s.placeRec .z3).uncertain = false
        ∧ s.lid.drawn = d ∧ s.lid.mag = some 1 ∧ s.inp.lids[(1 : Fin 3)] = b := by decide +kernel

/-- The draw that leaves 5 sets LID_LOW and the one that leaves 6 does not (R164, R165). -/
theorem test_draw :
    (waitingLid false (some 1) .waiting .hold true 6).pressLook.link.isSet .lidLow = true
    ∧ (waitingLid false (some 1) .waiting .hold true 7).pressLook.link.isSet .lidLow = false
    ∧ ((waitingLid false none .waiting .pass false).lidSearch.tin? 1).map (·.notes) = some [.notLidded, .unmixed] := by
  decide +kernel

theorem test_second_attempt_fails : nextHas (exec (.pressCycleEnd false) (pressing 2))
    (fun t => (t.tin? 1).map (·.notes) == some [.notLidded, .unmixed]) = true := by decide +kernel

/-- A tin that waits for a lid of code L2, which magazine 2 holds. -/
def lidless : State :=
  let s := atPlace .z3 (tinOf 1 .lidding) true
  { s with
    lid := { s.lid with press := .waitingLid, tin := some 1, code := some 1, attempt := 0 }
    inp := { s.inp with lids := Vector.replicate 3 false } }

theorem meets_LidMagazines :
    (∀ x ∈ [("1", (0 : Fin 3)), ("3", 2)],
        let plainly := fields [("magazine", x.1)]
        let counted := fields [("magazine", x.1), ("count", "81")]
        let coded := fields [("magazine", x.1), ("code", "L2")]
        (∀ fs ∈ [plainly, counted, coded], fs.malformed ["magazine", "code", "count"] ["magazine"] ["magazine"] = false
          ∧ (fs.num "magazine").bind magazine? = some x.2 ∧ fs.unreadable "code" (code? "L" 3) = false)
        ∧ plainly.has "code" = false ∧ plainly.has "count" = false ∧ counted.has "code" = false
        ∧ (counted.get "count").bind whole? = some 81 ∧ (coded.get "code").bind (code? "L" 3) = some 1
        ∧ coded.has "count" = false ∧ (queued 7).lid.tin = none ∧ 1 ≠ (queued 7).lid.mags[x.2].code)
    ∧ (∀ x ∈ [("HOLD", LidPolicy.hold), ("PASS", .pass)],
        (fields [("mode", x.1)]).malformed ["mode"] [] [] = false
          ∧ ((fields [("mode", x.1)]).get "mode").bind (named? lidPolicyTable) = some x.2)
    ∧ (queued 7).lid.policy = .hold ∧ (queued 7).store.fifo.length < 8
    ∧ lidless.lid.press = .waitingLid ∧ lidless.lid.tin = some 1 ∧ lidless.lid.drawn = false
    ∧ lidless.lid.code = some lidless.lid.mags[(1 : Fin 3)].code ∧ (lidless.placeRec .z3).uncertain = false
    ∧ ((lidless.setPlace .z3 fun r => { r with uncertain := true }).placeRec .z3).uncertain = true := by decide +kernel

/-- LIDS with code and count for a tin that waits: a magazine of its code is found, or none; and with a full FIFO. LIDPOL for it
(R150, R164, R168, R170). -/
theorem meets_LidMagazines_waiting :
    let both := fields [("magazine", "1"), ("code", "L2"), ("count", "81")]
    (both.get "code").bind (code? "L" 3) = some 1 ∧ (both.get "count").bind whole? = some 81
    ∧ both.malformed ["magazine", "code", "count"] ["magazine"] ["magazine"] = false ∧ 8 ≤ (queued 8).store.fifo.length
    ∧ (∀ pol ∈ [LidPolicy.hold, .pass], ∀ b ∈ [true, false],
        let s := waitingLid false none .waitingLid pol b
        s.lid.press = .waitingLid ∧ s.lid.tin = some 1 ∧ s.lid.code = some 1 ∧ s.lid.drawn = false
          ∧ (s.placeRec .z3).uncertain = false ∧ s.lid.policy = pol ∧ s.lid.mags[(0 : Fin 3)].code ≠ 1
          ∧ (∀ j : Fin 3, s.inp.lids[j] = b) ∧ s.store.fifo.length < 8 ∧ s.tin? 1 = some (tinOf 1 .lidding))
    ∧ nextHas (exec (.lids both) (waitingLid false none .waitingLid .hold true))
        (fun t => t.lid.press == .pressing && t.lid.mags[(0 : Fin 3)] == ⟨1, 79⟩) = true
    ∧ nextHas (exec (.lidpol (fields [("mode", "PASS")])) (waitingLid false none .waitingLid .hold false))
        (fun t => (t.tin? 1).map (·.route) == some (some .bypass)) = true := by decide +kernel

/-- The search for a lid is held off at an UNCERTAIN Z3 (R150). -/
theorem test_uncertain_lid : nextHas (exec (.lidSensorChange 1 true)
      (lidless.setPlace .z3 fun r => { r with uncertain := true }))
    (fun t => t.lid.press == .waitingLid) = true := by decide +kernel

/-- A mixer in a state with the tin 1. -/
def mixing (m : Mix) (g : MixerState) (causes : List StopCause := []) (pending : Option PendingStep := none) : State :=
  (atPlace m.place (tinOf 1 .mixing) true).setMixer m fun x =>
    { x with state := g, tin := some 1, program := some 300, ends := 300000000, causes := causes, pending := pending }

theorem meets_MixerStepsFollow :
    ∀ m ∈ [Mix.a, .b],
      (∀ g ∈ [MixerState.clamping, .mixing, .braking, .unclamping], ((mixing m g).mixerRec m).state = g
        ∧ ((mixing m g).mixerRec m).causes = [])
      ∧ ((mixing m .braking [.stop]).mixerRec m).causes ≠ [] ∧ ((mixing m .braking [.stop]).mixerRec m).resumeTaken = false
      ∧ ((mixing m .unclamping).placeRec m.place).tin = some 1 ∧ (mixing m .unclamping).tin? 1 = some (tinOf 1 .mixing)
      ∧ (State.reset.mixerRec m).state = .idle := by decide +kernel

/-- Mixer m brakes to a step, and RESUME has been taken. -/
def resumed (m : Mix) (next : Option PendingStep) : State :=
  (mixing m .braking [.door]).setMixer m fun x => { x with brakeTo := next, elapsed := 62400000, resumeTaken := true }

theorem meets_MixerStepsFollow_resumed :
    ∀ m ∈ [Mix.a, .b], ∀ g ∈ [none, some PendingStep.mix, some .unclamp],
      ((resumed m g).mixerRec m).state = .braking ∧ ((resumed m g).mixerRec m).causes ≠ []
        ∧ ((resumed m g).mixerRec m).resumeTaken = true ∧ ((resumed m g).mixerRec m).brakeTo = g := by decide +kernel

/-- The mixer goes on at the end of the braking, with the 237.6 s its program of 300 s leaves (R177). -/
theorem test_resumed : nextHas (exec (.brakeEnd .a) (resumed .a (some .mix)))
    (fun t => (t.mixerRec .a).state == .mixing && (t.mixerRec .a).ends == t.now + 237600000) = true := by decide +kernel

/-- A tin for the mixers at Z4, the mixers idle since two moments. -/
def forMixers (sinceA sinceB : Nat) : State :=
  (readyAt .z4 .z5 false (some .mix)).setMixer .a (fun x => { x with idleSince := sinceA }) |>.setMixer .b fun x =>
    { x with idleSince := sinceB }

theorem meets_MixerStepsFollow_choice :
    (forMixers 5 4).tinAt .z4 = some { tinOf 1 .readyToMove with route := some .mix }
    ∧ ((forMixers 5 4).placeRec .z4).arriving = false ∧ ((forMixers 5 4).placeRec .z4).uncertain = false
    ∧ (∀ m ∈ [Mix.a, .b], ((forMixers 5 4).mixerRec m).state = .idle ∧ (forMixers 5 4).inp.doors[m.ix] = false
        ∧ ((forMixers 5 4).placeRec m.place).tin = none ∧ ((forMixers 5 4).placeRec m.place).reserved = none
        ∧ ((forMixers 5 4).placeRec m.place).uncertain = false ∧ (forMixers 5 4).shows m.place = false)
    ∧ State.reset.tinAt .z4 = none := by decide +kernel

/-- The mixer idle longer is chosen, MIXER A among equals (R171). -/
theorem test_choice : ((forMixers 5 4).mixerChoose.mixerRec .b).tin = some 1
    ∧ ((forMixers 4 4).mixerChoose.mixerRec .a).tin = some 1 := by
  decide +kernel

/-- The pending step comes with STOPPED, 3 s after the door opened (R175). -/
theorem test_door_brakes :
    nextHas (exec (.doorOpen .a) (mixing .a .mixing)) (fun t => (t.mixerRec .a).pending == none) = true
    ∧ nextHas (exec (.brakeEnd .a) ((mixing .a .braking [.door]).setMixer .a fun x => { x with brakeTo := some .mix }))
      (fun t => (t.mixerRec .a).state == .stopped && (t.mixerRec .a).pending == some .mix) = true := by decide +kernel

theorem meets_DoorStopsMixer :
    ∀ m ∈ [Mix.a, .b], ∀ g ∈ [MixerState.idle, .loading, .holding, .clamping, .mixing, .braking, .unclamping, .stopped],
      ((mixing m g).mixerRec m).state = g ∧ ((mixing m g).mixerRec m).pending = none := by decide +kernel

/-! ### The Tag Bus -/

/-- The record of a full canister (section 9.3). -/
def fullRecord : List (BitVec 8) := (⟨txt "OX1", txt "24K07A19", 40000, 5460, 1234, 3⟩ : TagImage).bytes

def abandonedStart : ActiveJob := ⟨⟨2, .read⟩, .read, .phase .start, 0, 0, [], [], 0, true⟩

theorem meets_BusConditions : State.reset.tag.active = none
    ∧ ({ State.reset with tag := { State.reset.tag with active := some abandonedStart } } : State).tag.active =
        some abandonedStart ∧ abandonedStart.step = .phase .start ∧ abandonedStart.abandoned = true
    ∧ (tagJob .read .read (.phase .start) 0 0).tag.active = some ⟨⟨2, .read⟩, .read, .phase .start, 0, 0, [], [], 0, false⟩ :=
  by decide +kernel

/-- The Tag Bus with a queue, and with the bus FREE or not. -/
def queuedJobs (q : List TagJob) (b : BusState) (stopping : Bool := false) : State :=
  { State.reset with tag := { TagBus.reset with
      queue := q, bus := b, stopping := stopping
      images := TagBus.reset.images.set 2 (some ⟨txt "OX1", txt "24K07A19", 40000, 5460, 1234, 65535⟩) } }

theorem meets_BusConditions_begin :
    (∀ k ∈ [JobKind.read, .write 5], ∀ b ∈ [BusState.free, .busy],
        (queuedJobs [⟨2, k⟩] b).tag.active = none ∧ (queuedJobs [⟨2, k⟩] b).tag.queue = ⟨2, k⟩ :: []
          ∧ (queuedJobs [⟨2, k⟩] b).tag.bus = b ∧ (queuedJobs [⟨2, k⟩] b).tag.stopping = false
          ∧ (queuedJobs [⟨2, k⟩] b).tag.images[(2 : Circ)] ≠ none)
    ∧ (tagJob .read .read (.wait 0) 0 0).tag.active.map (·.step) = some (.wait 0)
    ∧ (tagJob .read .read .gap 0 0).tag.active.map (·.step) = some .gap := by decide +kernel

/-- The write count stays at 65,535 (R193). -/
theorem test_write_count :
    (queuedJobs [⟨2, .write 5⟩] .free).tagBegin.tag.active.map (fun a => (TagImage.ofBytes a.record).writes) = some 65535 := by
  decide +kernel

theorem meets_TagPhasesFollow :
    ∀ x ∈ [(JobPoint.read, JobStep.phase .start), (.read, .phase .restart), (.read, .phase .address), (.page 3, .phase .address),
          (.poll 0, .phase .address), (.poll 2, .phase .address), (.read, .phase .readAddress), (.read, .phase .pointer),
          (.page 0, .phase .pointer), (.page 0, .phase (.write 0)), (.page 0, .phase (.write 7)), (.read, .phase (.read 0)),
          (.read, .phase (.read 31)), (.poll 0, .gap), (.read, .wait 0)],
      ((tagJob .read x.1 x.2 0 0).tag.active.map fun a => (a.point, a.step, a.abandoned)) = some (x.1, x.2, false) := by
  decide +kernel

/-- The fourth poll of a WRITE, its circuit RELEASING or not (R13, R194). -/
theorem meets_TagPhasesFollow_success :
    ∀ g ∈ [CircuitState.releasing, .ready],
      let s := tagJob (.write 5) (.poll 3) (.phase .address) 0 0 [] (fitted 2 g)
      s.tag.active.map (fun a => (a.step, a.point, a.job.kind)) = some (.phase .address, .poll 3, .write 5)
        ∧ (s.circuit 2).state = g := by decide +kernel

theorem test_write_succeeds : nextHas (exec .addrAck (tagJob (.write 5) (.poll 3) (.phase .address) 0 0 [] (fitted 2 .releasing)))
    (fun t => (t.circuit 2).state == .service && (t.circuit 2).latchOpen && t.tag.last[(2 : Circ)] == .writeOk) = true := by
  decide +kernel

theorem meets_TagPhasesFollow_sends :
    (tagJob .read .read (.phase .start) 0 0).tag.stopping = false
    ∧ ({ State.reset with tag := { State.reset.tag with stopping := true } } : State).tag.stopping = true
    ∧ (fullRecord[8 * 0 + 0]? = some 2 ∧ fullRecord[8 * 3 + 7]? = some 0x25) := by decide +kernel

/-- The controller still sends a stop while a job waits, stands between polls, or has ended (R188, R191). -/
def stopSending (s : State) : State := { s with tag := { s.tag with stopping := true } }

theorem meets_TagPhasesFollow_stopping :
    ∀ st ∈ [JobStep.gap, .wait 0],
      (stopSending (tagJob (.write 5) (.poll 0) st 0 0)).tag.active.map (fun a => (a.step, a.abandoned)) = some (st, false)
        ∧ (stopSending (tagJob (.write 5) (.poll 0) st 0 0)).tag.stopping = true := by decide +kernel

/-- The tag of bay 1 answers at 0x21 and that of bay 24 at 0x38 (R185). -/
theorem test_tag_address :
    [addressByte 0 false, addressByte 0 true, addressByte 23 false, addressByte 23 true] = [0x42, 0x43, 0x70, 0x71] := by
  decide

theorem meets_TagSetbacks :
    (∀ x ∈ [(0, 0), (1, 0), (2, 1)],
        ((tagJob (.write 5) (.page 0) (.phase (.write 7)) x.1 x.2).tag.active.map fun a => (a.losses, a.faults, a.abandoned))
          = some (x.1, x.2, false))
    ∧ (∀ x ∈ [(JobPoint.page 1, JobStep.phase .address), (.page 0, .phase .address), (.read, .phase .address),
            (.read, .phase .readAddress), (.read, .phase .pointer), (.poll 3, .wait 0), (.read, .wait 0)],
        ((tagJob .read x.1 x.2 0 0).tag.active.map fun a => (a.point, a.step)) = some (x.1, x.2))
    ∧ State.reset.tag.bus ≠ .free := by decide +kernel

/-- The circuits of ended jobs: CHECKING with a READ, RELEASING with a WRITE, and neither (R10, R13). -/
theorem meets_TagSetbacks_circuit :
    ∀ x ∈ [(JobKind.read, CircuitState.checking), (.read, .ready), (.write 5, .releasing), (.write 5, .ready)],
      ((tagJob x.1 .read (.phase .address) 2 1 [] (fitted 2 x.2)).circuit 2).state = x.2
        ∧ (tagJob x.1 .read (.phase .address) 2 1 [] (fitted 2 x.2)).tag.active.map (·.job.kind) = some x.1 := by decide +kernel

/-- A job of circuit 3 that a removal has abandoned in a phase. -/
def leaving (p : BusPhase) : State :=
  let s := tagJob (.write 5) (.page 0) (.phase p) 0 0
  { s with tag := { s.tag with bus := .busy, active := s.tag.active.map fun a => { a with abandoned := true } } }

theorem meets_TagSetbacks_abandoned :
    ∀ p ∈ [BusPhase.start, .address, .pointer, .write 0, .write 7, .restart, .readAddress, .read 0, .read 31, .stop],
      (leaving p).tag.active.map (fun a => (a.step, a.abandoned)) = some (.phase p, true) ∧ (leaving p).tag.stopping = false
        ∧ (stopSending (leaving p)).tag.stopping = true ∧ (leaving p).powered = true := by decide +kernel

/-- The byte in progress ends and a stop is sent; a loss sends none, and another's stop frees the bus (R187, R202). -/
theorem test_abandoned_ends :
    nextHas (exec (.byteAck 0) (leaving (.write 3)))
      (fun t => t.tag.active == none && t.tag.stopping && t.tag.last[(2 : Circ)] == .none) = true
    ∧ nextHas (exec .lost (leaving (.write 3))) (fun t => t.tag.active == none && !t.tag.stopping) = true
    ∧ nextHas (exec .byteNak (tagJob .read .read (.phase .pointer) 0 0))
      (fun t => t.tag.stopping && t.tag.active.map (·.faults) == some 1) = true
    ∧ nextHas (exec .lineError (tagJob .read .read (.phase .pointer) 0 0))
      (fun t => !t.tag.stopping && t.tag.bus == .settling) = true := by decide +kernel

theorem test_absent_blocks :
    nextHas (exec .addrNak (tagJob .read .read (.phase .address) 0 0 [] (fitted 2 .checking)))
      (fun t => (t.circuit 2).state == .blocked && (t.circuit 2).reason == some .tagAbsent) = true
    ∧ nextHas (exec .lost (tagJob (.write 5) (.page 0) (.phase .pointer) 2 0 [] (fitted 2 .releasing)))
      (fun t => (t.circuit 2).state == .service && t.link.isSet (.tagFault 2)) = true := by decide +kernel

theorem meets_TagStopsAndPolls :
    (∀ x ∈ [(JobPoint.page 0, JobStep.phase .stop), (.page 3, .phase .stop), (.poll 0, .phase .stop), (.poll 3, .gap)],
        ((tagJob (.write 5) x.1 x.2 0 0).tag.active.map fun a => (a.point, a.step)) = some (x.1, x.2)
          ∧ (tagJob (.write 5) x.1 x.2 0 0).tag.stopping = false)
    ∧ recordValid fullRecord = true ∧ recordValid [1] = false
    ∧ (∀ g ∈ [CircuitState.checking, .ready],
        ((tagJob .read .read (.phase .stop) 0 0 fullRecord (fitted 2 g)).circuit 2).state = g)
    ∧ ((fitted 2 .checking).circuit 2).cfg.code = some (TagImage.ofBytes fullRecord).code := by decide +kernel

/-- The stop of a transaction that the job has gone on from (R191). -/
theorem meets_TagStopsAndPolls_stopping :
    (stopSending (tagJob (.write 5) (.page 1) (.wait 0) 0 0)).tag.stopping = true
    ∧ (stopSending (tagJob (.write 5) (.page 1) (.wait 0) 0 0)).tag.active.map (·.abandoned) = some false := by decide +kernel

theorem test_read_primes : nextHas (exec .stopSent (tagJob .read .read (.phase .stop) 0 0 fullRecord (fitted 2 .checking)))
    (fun t => (t.circuit 2).state == .priming && (t.circuit 2).lot == some (txt "24K07A19")) = true := by decide +kernel

theorem meets_TagRecordRoundTrip :
    let g : TagImage := ⟨txt "OX1", txt "24K07A19", 65535, 0, 65535, 65535⟩
    g.code.length ≤ 4 ∧ g.code.getLast? ≠ some 0x20#8 ∧ g.lot.length = 8 ∧ g.fill < 65536 ∧ g.writes < 65536 := by
  decide +kernel

/-- Page 4 of the record of the full canister is being written. -/
def pageFour (st : JobStep) : State :=
  let s := tagJob (.write 5) (.page 3) st 0 0
  { s with tag := { s.tag with active := s.tag.active.map fun a => { a with record := fullRecord } } }

theorem meets_TagRecordRoundTrip_pages :
    ((pageFour (.phase (.write 7))).tag.active.map fun a => (a.point, a.step, a.record))
        = some (.page 3, .phase (.write 7), fullRecord)
    ∧ ((pageFour (.phase .pointer)).tag.active.map fun a => (a.point, a.step)) = some (.page 3, .phase .pointer)
    ∧ (pageFour (.phase .pointer)).tag.stopping = false := by decide +kernel

/-- The check byte of the record of the full canister is 0x25, the last byte of page 4 (section 9.3). -/
theorem test_check_byte : (pageFour (.phase (.write 7))).tagDrives = some (.send 0x25)
    ∧ (pageFour (.phase .pointer)).tagDrives = some (.send 24) := by decide +kernel

/-! ### Care -/

theorem meets_CareEvents :
    (State.reset.circuit 0).stir = none
    ∧ ((State.reset.setCircuit 23 fun r => { r with stir := some ⟨10000000, 0⟩ }).circuit 23).stir = some ⟨10000000, 0⟩
    ∧ State.reset.cares.siteTime = none
    ∧ (∀ m ∈ [359, 1439], { State.reset with cares := { Care.reset with siteTime := some m } }.cares.siteTime = some m)
    ∧ (∀ g ∈ [CircuitState.ready, .empty],
        let r := ((fitted 0 g).setCircuit 0 fun r => { r with cfg := { r.cfg with purgeInt := 10 } }).circuit 0
        r.cfg.purgeInt ≠ 0 ∧ r.state = g ∧ r.purgeDue = none)
    ∧ (State.reset.circuit 0).cfg.purgeInt = 0 := by decide +kernel

/-- Circuit 1 in READY with a purge due and a stir due, at a closed cap. -/
def careFor (s : State := State.reset) : State :=
  let u := capped .closed none ((fitted 0 .ready s).setCircuit 0 fun r => { r with purgeDue := some .interval })
  { u with cares := { u.cares with due := [(0, 5)] } }

theorem meets_CareEvents_look :
    careFor.cares.due = (0, 5) :: [] ∧ (careFor.circuit 0).state = .ready ∧ (careFor.circuit 0).purgeDue ≠ none
    ∧ (careFor.circuit 0).stir = none ∧ (careFor.pump 0).activity = none ∧ (careFor.pump 0).next = none
    ∧ careFor.stn.cap = .closed ∧ careFor.stopped = false
    ∧ (allCircuits.filter fun d => (careFor.circuit d).stir.isSome).length < 4
    ∧ (∀ a ∈ [refillRun, dose 320 0, refillRun (some (.cut .removed))],
        ((careFor (driving 0 a none)).pump 0).activity = some a ∧ a.kind ≠ .purge)
    ∧ State.reset.cares.due = [] := by decide +kernel

/-- A stir begins with its due time kept, and a purge is asked for at the pump (R209, R213). -/
theorem test_care_looks :
    (careFor.stirsLook.circuit 0).stir = some ⟨10000000, 5⟩ ∧ careFor.stirsLook.cares.due = []
    ∧ ((careFor.askPurge 0).pump 0).activity.map (fun a => (a.kind, a.planned, a.phase)) = some (.purge, 3200, .refill) := by
  decide +kernel

/-- A purge waits in the next place behind a standalone REFILL that RESTART ends at its burst boundary (R95). -/
theorem test_purge_waits_behind_refill :
    let s := careFor (driving 0 (refillRun (some (.cut .restart))) (some ⟨true, 640, 0⟩))
    s.purgeAskable 0 = true ∧ ((s.askPurge 0).pump 0).next = some ⟨.purge, .care, 3200⟩ := by decide +kernel

/-- The boundaries 1, 4 and 16 of the classes. -/
theorem test_boundaries : ∀ x ∈ [(0, [(0, 900000000)]), (3, [(0, 3600000000), (1, 3600000000)]),
      (15, [(0, 14400000000), (1, 14400000000), (2, 14400000000)])],
    let s := ((fitted 2 .service (fitted 1 .service (fitted 0 .service))).setCircuit 0 fun r =>
      { r with cfg := { r.cfg with stir := .q15 } }).setCircuit 1 fun r => { r with cfg := { r.cfg with stir := .h1 } }
    let u := s.setCircuit 2 fun r => { r with cfg := { r.cfg with stir := .h4 } }
    nextHas (exec .stirBoundary { u with cares := { u.cares with quarters := x.1 } }) (fun t => t.cares.due == x.2) = true := by
  decide +kernel

theorem meets_CareRequests :
    (∀ x ∈ [("0", 0), ("1439", 1439), ("1440", 1440)], (fields [("minute", x.1)]).malformed ["minute"] [] ["minute"] = false
        ∧ (fields [("minute", x.1)]).num "minute" = some x.2)
    ∧ (fields []).malformed ["minute"] [] ["minute"] = false ∧ (fields []).num "minute" = none
    ∧ (queued 7).store.fifo.length < 8
    ∧ { State.reset with cares := { Care.reset with siteTime := some 0 } }.cares.siteTime = some 0
    ∧ (fields [("circuit", "24")]).malformed ["circuit"] ["circuit"] ["circuit"] = false
    ∧ ((fields [("circuit", "24")]).num "circuit").bind circ? = some 23
    ∧ { State.reset with stopped := true }.stopped = true ∧ ((fitted 23 .priming).circuit 23).state = .priming
    ∧ (∀ g ∈ [CircuitState.ready, .empty], ((fitted 23 g).circuit 23).state = g ∧ (fitted 23 g).stopped = false
        ∧ ((fitted 23 g).circuit 23).stir = none ∧ (fitted 23 g).cares.due = [])
    ∧ ((fitted 23 .ready).addDue 23 5).cares.due = [(23, 5)] := by decide +kernel

/-! ### The Counter Link and the machine as a whole -/

def listed (es : List InEntry) (o : Nat) (sending : Option OutLine) : State :=
  { State.reset with link := { State.reset.link with inputs := es, overrun := o, sending := sending } }

theorem meets_MessagesTakeAndFreePlaces :
    .receiving ∉ State.reset.link.inputs
    ∧ emptyLine [.chr 32, .chr 13] = true ∧ emptyLine [] = true
    ∧ emptyLine (List.replicate 201 (.chr 65)) = false ∧ emptyLine [.framingError, .chr 13] = false
    ∧ emptyLine ((txt "TINT").map .chr) = false
    ∧ (let s := listed [.answered, .answered, .answered, .receiving] 0 none
       s.link.inputs = [.answered, .answered, .answered] ++ [.receiving]
         ∧ ∀ e ∈ [InEntry.answered, .answered, .answered], e = .answered)
    ∧ (dropCr (List.replicate 201 (.chr 65))).length > 200
    ∧ messageText (dropCr [.framingError, .chr 13]) = none
    ∧ ((txt "TINT").length ≤ 200 ∧ txt "TINT" ≠ [] ∧ (∀ ch ∈ txt "TINT", 33 ≤ ch.toNat ∧ ch.toNat ≤ 126)
        ∧ ∀ v ∈ verbTable.map (·.1), txt v ≠ txt "TINT")
    ∧ (listed [] 0 none).link.sending = none
    ∧ State.reset.link.sending = some (.notice .start startPower) ∧ (OutLine.notice .start startPower).keepsPlace = false
    ∧ (∀ o ∈ [0, 1, 255],
        let s := listed [.answered, .answered, .answered, .answered] o (some (.reply true (.no .full)))
        s.link.sending = some (.reply true (.no .full)) ∧ (∀ e ∈ s.link.inputs, e = .answered ∨ e = .receiving)
          ∧ s.link.overrun = o ∧ .receiving ∉ s.link.inputs) := by decide +kernel

/-- An OVERRUN entry behind the message in reception (R222, R224). -/
theorem meets_MessagesTakeAndFreePlaces_behind :
    (listed [.answered, .answered, .receiving, .overrun] 0 none).link.inputs = [.answered, .answered] ++ [.receiving, .overrun]
    ∧ (let s := listed [.answered, .answered, .answered, .receiving] 2 (some (.reply true (.no .full)))
       0 < s.link.overrun ∧ .receiving ∈ s.link.inputs ∧ ∀ e ∈ s.link.inputs, e = .answered ∨ e = .receiving) := by
  decide +kernel

theorem meets_FlagsAndNotices_clear :
    (fields []).malformed ["flag", "class", "circuit"] [] ["circuit"] = false ∧ (fields []).get "flag" = none
    ∧ (∀ k ∈ "ALL" :: FlagClass.all.map FlagClass.name,
        let fs := fields [("class", k)]
        fs.malformed ["flag", "class", "circuit"] [] ["circuit"] = false ∧ fs.get "flag" = none
          ∧ fs.has "circuit" = false ∧ fs.get "class" = some (txt k))
    ∧ (∀ x ∈ [("1", Flag.low 0), ("24", .tagFault 23)],
        let fs := fields [("flag", x.2.name), ("circuit", x.1)]
        fs.malformed ["flag", "class", "circuit"] [] ["circuit"] = false ∧ fs.get "flag" = some (txt x.2.name)
          ∧ fs.get "class" = none ∧ fs.num "circuit" = x.2.circuit?.map circNo)
    ∧ (fields [("flag", "START")]).has "circuit" = false
    ∧ (fields [("flag", "START")]).get "flag" = some (txt Flag.start.name) := by decide +kernel

theorem meets_FlagsAndNotices_notice :
    (∀ k ∈ "ALL" :: FlagClass.all.map FlagClass.name, ∀ on ∈ [true, false],
        let fs := fields [("class", k), ("mode", if on then "ON" else "OFF")]
        fs.malformed ["class", "mode"] ["class"] [] = false ∧ fs.get "class" = some (txt k)
          ∧ fs.get "mode" = some (txt (if on then "ON" else "OFF")))
    ∧ (fields [("class", "TIN")]).malformed ["class", "mode"] ["class"] [] = false
    ∧ (fields [("class", "TIN")]).get "mode" = none
    ∧ (∀ k ∈ FlagClass.all, { Link.reset with enabled := Vector.replicate 8 false }.isEnabled k = false
        ∧ State.reset.link.isEnabled k = true)
    ∧ (.start, startPower) ∈ State.reset.link.flags ∧ Flag.start.cls = .machine := by decide +kernel

/-- A class turned ON gives its set flag a notice again (R228). -/
theorem test_notice_on :
    let silent : State := { State.reset with link := { State.reset.link with enabled := Vector.replicate 8 false } }
    nextHas (exec (.notice (fields [("class", "MACHINE"), ("mode", "ON")])) silent)
      (fun t => t.link.output == [.reply false (.ok []), .notice .start startPower]) = true := by decide +kernel

def stopInput (b stopped : Bool) : State := { State.reset with inp := { Inputs.reset with stop := b }, stopped := stopped }

theorem meets_StopHaltsMachine :
    (lastBurst.pump 0).activity = some (dose 160 0) ∧ (lastBurst.pump 0).burst ≠ none
    ∧ ((driving 0 (dose 160 0) none).pump 0).burst = none
    ∧ (∀ g ∈ [Cap.opening 5, .closing 5, .halted .opened, .halted .closed], (station fun t => { t with cap := g }).stn.cap = g)
    ∧ (∀ g ∈ [Settle.running 5, .held], (station fun t => { t with settle := g }).stn.settle = g)
    ∧ (stopInput true true).inp.stop = true ∧ (stopInput false false).inp.stop = false
    ∧ (stopInput false false).mixerHalting = false ∧ (stopInput false true).stopped = true
    ∧ (mixing .a .stopped).mixerHalting = true ∧ (mixing .a .stopped).inp.stop = false := by decide +kernel

/-- Purges and primes at STOP, and what RESUME lets go on (R107, R109, R177). -/
theorem meets_StopHaltsMachine_runs :
    (∀ a ∈ [purgeRun 0 .deliver, purgeRun 0 .refill, primeRun 0 .deliver, primeRun 0 .refill],
        ((driving 0 a none).pump 0).activity = some a ∧ ((driving 0 a none).pump 0).next = none
          ∧ ((driving 0 a (some ⟨a.phase == .refill, 100, 0⟩)).pump 0).burst ≠ none)
    ∧ (∀ x ∈ [({ dose 320 160 with run := .stopped }, Piston.known 160), ({ dose 320 160 with run := .stopped }, .known 159),
          ({ refillRun with run := .stopped }, .known 25600), ({ refillRun with run := .stopped }, .known 0),
          ({ dose 320 160 with atBoundary := some .stop }, .known 160)],
        let s := driving 0 x.1 none x.2 (stopInput false true)
        (s.pump 0).activity = some x.1 ∧ (s.pump 0).piston = x.2 ∧ (s.pump 0).heldPrime = false ∧ s.stopped = true)
    ∧ (∀ g ∈ [CircuitState.priming, .blocked],
        let s := (fitted 0 g (stopInput false true)).setPump 0 fun p => { p with heldPrime := true }
        (s.pump 0).heldPrime = true ∧ (s.pump 0).activity = none ∧ (s.circuit 0).state = g)
    ∧ (∀ m ∈ [Mix.a, .b], ∀ k ∈ [PendingStep.clamp, .mix, .unclamp],
        let s := mixing m .stopped [.stop] (some k)
        (s.mixerRec m).pending = some k ∧ s.inp.doors[m.ix] = false ∧ (s.mixerRec m).state = .stopped)
    ∧ ((mixing .a .braking [.stop]).mixerRec .a).causes ≠ [] := by decide +kernel

/-- A stir that runs at STOP goes back ahead of one that came due later (R209, R211, R216). -/
theorem meets_StopHaltsMachine_stir :
    let s := ((fitted 0 .ready).setCircuit 0 fun r => { r with stir := some ⟨9, 5⟩ }).addDue 23 7
    (s.circuit 0).stir.map (·.due) = some 5 ∧ s.cares.due = [(23, 7)]
      ∧ (s.cares.due.Pairwise fun x y => dueBefore y x = false)
      ∧ nextHas (exec .stopInputActive s) (fun t => t.cares.due == [(0, 5), (23, 7)]) = true := by decide +kernel

/-- A purge that refills leaves a STOPPED standalone REFILL, and RESUME runs a mixer's pending step (R107, R177). -/
theorem test_stop_and_resume :
    nextHas (exec .stopInputActive (driving 0 (purgeRun 0 .refill) none))
      (fun t => (t.pump 0).activity.map (fun a => (a.kind, a.run)) == some (.refill, .stopped)) = true
    ∧ nextHas (exec (.resume []) { mixing .a .stopped [.stop] (some .mix) with stopped := true })
      (fun t => (t.mixerRec .a).state == .mixing && (t.mixerRec .a).causes == []) = true := by decide +kernel

theorem meets_RestartClearsWork : State.reset.powered = true ∧ (State.reset.pump 0).activity = none
    ∧ ((fitted 23 .checking).circuit 23).state = .checking := by decide +kernel

/-- RESTART at pump activities, circuit states, a marker, mixers and an active tag job (R25, R44, R110, R182, R204). -/
theorem meets_RestartClearsWork_parts :
    (∀ b ∈ [none, some (⟨false, 160, 0⟩ : Burst)],
        let s := (driving 0 (dose 320 160) b (.known 200) (fitted 0 .ready)).setCircuit 0 fun r =>
          { r with level := 140, cfg := { r.cfg with reserve := 100 } }
        (s.pump 0).activity = some (dose 320 160) ∧ (s.pump 0).burst = b ∧ (s.circuit 0).state = .ready)
    ∧ (∀ g ∈ [CircuitState.priming, .releasing, .blocked], ((fitted 0 g).circuit 0).state = g)
    ∧ (resting fun t => { t with pendingSet := some ⟨[1], []⟩ }).store.pendingSet ≠ none
    ∧ (State.reset.store.pendingSet.orElse fun _ => State.reset.store.markerStored) = none
    ∧ (∀ g ∈ [MixerState.clamping, .unclamping, .mixing, .braking, .holding], ((mixing .a g).mixerRec .a).state = g)
    ∧ (let s := (mixing .a .stopped [.door]).setMixer .a fun x => { x with clamp := .closed }
       (s.mixerRec .a).state = .stopped ∧ (s.mixerRec .a).clamp ≠ .opened)
    ∧ (∀ st ∈ [JobStep.phase .pointer, .wait 0], (tagJob .read .read st 0 0).tag.active.map (·.step) = some st)
    ∧ State.reset.tag.active = none := by decide +kernel

/-- A PRIMING circuit whose activity ends at its burst boundary. -/
theorem meets_RestartClearsWork_prime :
    ∀ a ∈ [refillRun, refillRun (some .stop), primeRun 0 .refill, dose 320 0 .refill], ∀ b ∈ [true, false],
      let s := { driving 0 a (some ⟨true, 640, 0⟩) (.known 0) (fitted 0 .priming) with stopped := b }
      (s.pump 0).activity = some a ∧ (s.pump 0).burst ≠ none ∧ (s.circuit 0).state = .priming ∧ s.stopped = b := by
  decide +kernel

/-- The prime asked for at RESTART waits in the next place behind the standalone REFILL that is being cut, and runs once the
REFILL has ended (R25, R95, R110). -/
theorem test_prime_waits_behind_refill :
    nextHas (exec (.restart []) (driving 0 refillRun (some ⟨true, 640, 0⟩) (.known 0) (fitted 0 .priming)))
      (fun t => (t.pump 0).next == some primeRequest && !(t.pump 0).heldPrime
        && nextHas (exec (.burstComplete 0) t) (fun u => ((u.pump 0).activity.map (·.kind)) == some .prime
          && (u.pump 0).next == none && (u.pump 0).piston == .known 640)) = true := by decide +kernel

theorem meets_RestartClearsWork_book : BookInv (oneBinding (boundLine .running 1 24)) := meets_CancelEndsLine_book.1

/-- A run in no burst is reported at once and may leave EMPTY; a pending value is applied; a mixing mixer brakes (R22, R25,
R110, R182). -/
theorem test_restart_parts :
    nextHas (exec (.restart []) ((driving 0 (dose 320 160) none (.known 200) (fitted 0 .ready)).setCircuit 0 fun r =>
        { r with level := 140, cfg := { r.cfg with reserve := 100 } }))
      (fun t => (t.circuit 0).level == 100 && (t.circuit 0).state == .empty && (t.pump 0).activity == none) = true
    ∧ nextHas (exec (.restart []) (oneBinding (boundLine .running 1 24))) (fun t => (t.circuit 0).nmin == 64) = true
    ∧ nextHas (exec (.restart []) (mixing .a .mixing))
      (fun t => (t.mixerRec .a).state == .braking && (t.mixerRec .a).causes == [.restart]) = true := by decide +kernel

theorem test_restart_reads : nextHas (exec (.restart []) (fitted 23 .checking))
    (fun t => t.tag.active.map (·.job) == some ⟨23, .read⟩ && t.tag.bus == .settling) = true := by decide +kernel

theorem meets_PowerCycle : State.reset.powered = true
    ∧ (NonVolatile.blank.read [.marker]).marker = some ⟨[], []⟩ := by decide +kernel

/-- Tins stand at Z1 and in MIXER B, and two in the lane. -/
def foundTins : State := { State.reset with inp := { State.reset.inp with
  places := (State.reset.inp.places.set 0 true).set 6 true, lane := (State.reset.inp.lane.set 0 true).set 3 true } }

theorem meets_PowerCycle_tins :
    foundTins.shows .z1 = true ∧ foundTins.shows .mixB = true ∧ foundTins.shows .mixA = false ∧ foundTins.laneCount = 2 := by
  decide +kernel

/-- Orphans with ids from 1 up in the order Z1 to Z5, the mixers, the lane; MIXER B is STOPPED (R159, R181). -/
theorem test_power_on_finds : nextHas (exec (.powerOn []) foundTins)
    (fun t => (t.placeRec .z1).tin == some 1 && (t.placeRec .mixB).tin == some 2 && t.track.lane == [3, 4]
      && (t.tin? 2).map (fun x => (x.stage, x.lid)) == some (.orphan, some .seated)
      && (t.mixerRec .b).state == .stopped && (t.mixerRec .a).state == .idle) = true := by decide +kernel

end Sys2Proof.Tests
end

