-- ==== Sys2Proof/Proofs/Records.lean ====
section
/-! PROOF SUPPORT. What the invariants of the Circuit Table and the Settings Store speak of, and one lemma for each operation
that leaves all of it as it is. -/

namespace Sys2Proof.Machine

set_option Elab.async false

/-- What a condition on a circuit record may speak of: its settings, its state and latch, its level, and its active and
pending trim and minimum dose. -/
structure CircuitCore where
  cfg : Settings
  state : CircuitState
  latchOpen : Bool
  level : Nat
  trim : Int
  nmin : Nat
  pendingTrim : Option Int
  pendingNmin : Option Nat

def Circuit.core (r : Circuit) : CircuitCore :=
  ⟨r.cfg, r.state, r.latchOpen, r.level, r.trim, r.nmin, r.pendingTrim, r.pendingNmin⟩

@[simp] theorem Circuit.core_eq_iff (r x : Circuit) :
    x.core = r.core ↔ x.cfg = r.cfg ∧ x.state = r.state ∧ x.latchOpen = r.latchOpen ∧ x.level = r.level
      ∧ x.trim = r.trim ∧ x.nmin = r.nmin ∧ x.pendingTrim = r.pendingTrim ∧ x.pendingNmin = r.pendingNmin := by
  simp [Circuit.core]

/-- What the conditions on settings speak of: the circuits, the settings stored and on their way to the store, and the
calibration result. -/
def State.records (s : State) :=
  ((fun c => (s.circuit c).core), s.store.nv.circuits, s.store.fifo, s.store.writer, s.calResult)

/-- States with the same records have their circuits in the same states. -/
theorem state_of_records {s t : State} (e : t.records = s.records) (c : Circ) :
    (t.circuit c).state = (s.circuit c).state := by
  simp only [State.records, Prod.mk.injEq] at e
  have h := congrFun e.1 c
  exact ((Circuit.core_eq_iff _ _).mp h).2.1

/-! ### Updates of other parts -/


@[simp] theorem records_reach (s : State) (t : Nat) : (s.reach t).records = s.records := rfl
@[simp] theorem records_setPump (s : State) (c : Circ) (f : Pump → Pump) : (s.setPump c f).records = s.records := rfl
@[simp] theorem records_setActivity (s : State) (c : Circ) (f : Activity → Activity) :
    (s.setActivity c f).records = s.records := rfl
@[simp] theorem records_forfeitSlots (s : State) (c : Circ) : (s.forfeitSlots c).records = s.records := rfl
@[simp] theorem records_setPlace (s : State) (p : Place) (f : PlaceRecord → PlaceRecord) :
    (s.setPlace p f).records = s.records := rfl
@[simp] theorem records_setMixer (s : State) (m : Mix) (f : Mixer → Mixer) :
    (s.setMixer m f).records = s.records := rfl
@[simp] theorem records_setTin (s : State) (id : Nat) (f : Tin → Tin) : (s.setTin id f).records = s.records := rfl
@[simp] theorem records_addTin (s : State) (t : Tin) : (s.addTin t).records = s.records := rfl
@[simp] theorem records_dropTin (s : State) (id : Nat) : (s.dropTin id).records = s.records := rfl
@[simp] theorem records_setTrack (s : State) (f : Track → Track) : (s.setTrack f).records = s.records := rfl
@[simp] theorem records_setLine (s : State) (n : Nat) (f : OrderLine → OrderLine) :
    (s.setLine n f).records = s.records := rfl
@[simp] theorem records_setStn (s : State) (f : Station → Station) : (s.setStn f).records = s.records := rfl
@[simp] theorem records_setLid (s : State) (f : Lidder → Lidder) : (s.setLid f).records = s.records := rfl
@[simp] theorem records_setCares (s : State) (f : Care → Care) : (s.setCares f).records = s.records := rfl
@[simp] theorem records_addDue (s : State) (c : Circ) (t : Nat) : (s.addDue c t).records = s.records := rfl
@[simp] theorem records_dropDue (s : State) (c : Circ) : (s.dropDue c).records = s.records := rfl
@[simp] theorem records_markDirty (s : State) (c : Circ) : (s.markDirty c).records = s.records := rfl
@[simp] theorem records_askMarkerSet (s : State) (m : Marker) : (s.askMarkerSet m).records = s.records := rfl
@[simp] theorem records_askMarkerClear (s : State) : (s.askMarkerClear).records = s.records := rfl
@[simp] theorem records_setFlag (s : State) (f : Flag) (items : List Item) :
    (s.setFlag f items).records = s.records := rfl
@[simp] theorem records_pushReply (s : State) (p : Bool) (r : Reply) : (s.pushReply p r).records = s.records := rfl
@[simp] theorem records_setInputs (s : State) (f : List InEntry → List InEntry) :
    (s.setInputs f).records = s.records := rfl
@[simp] theorem records_askTag (s : State) (c : Circ) (k : JobKind) : (s.askTag c k).records = s.records := rfl
@[simp] theorem records_setLast (s : State) (c : Circ) (r : LastResult) : (s.setLast c r).records = s.records := rfl
@[simp] theorem records_setImage (s : State) (c : Circ) (g : TagImage) : (s.setImage c g).records = s.records := rfl
@[simp] theorem records_dropJob (s : State) : (s.dropJob).records = s.records := rfl
@[simp] theorem records_setBus (s : State) (b : BusState) : (s.setBus b).records = s.records := rfl
@[simp] theorem records_setActiveJob (s : State) (a : ActiveJob) : (s.setActiveJob a).records = s.records := rfl
@[simp] theorem records_goPhase (s : State) (a : ActiveJob) (p : BusPhase) :
    (s.goPhase a p).records = s.records := rfl
@[simp] theorem records_waitBus (s : State) (a : ActiveJob) : (s.waitBus a).records = s.records := rfl
@[simp] theorem records_sendStop (s : State) : (s.sendStop).records = s.records := rfl
@[simp] theorem records_setCursor (s : State) (n : Nat) : (s.setCursor n).records = s.records := rfl
@[simp] theorem records_choose (s : State) : (s.choose).records = s.records := rfl
@[simp] theorem records_enterLine (s : State) (l : OrderLine) : (s.enterLine l).records = s.records := rfl
@[simp] theorem records_beginFrame (s : State) : (s.beginFrame).records = s.records := rfl

@[simp] theorem records_setCircuit (s : State) (c : Circ) (f : Circuit → Circuit) (h : ∀ r, (f r).core = r.core) :
    (s.setCircuit c f).records = s.records := by
  have : (fun d => ((s.setCircuit c f).circuit d).core) = fun d => (s.circuit d).core := by
    funext d
    rw [setCircuit_circuit_eq]
    split
    · rename_i e; rw [e, h]
    · rfl
  simp only [State.records, this, State.setCircuit_store, State.setCircuit_calResult]

/-- A fold of operations that leave the records leaves them. -/
theorem records_foldl {α : Type} (f : State → α → State) (h : ∀ s x, (f s x).records = s.records) (l : List α) (s : State) :
    (l.foldl f s).records = s.records := by
  induction l generalizing s with
  | nil => rfl
  | cons x xs ih => rw [List.foldl_cons, ih, h]

theorem records_forCircuits (f : Circ → State → State) (h : ∀ c s, (f c s).records = s.records) (s : State) :
    (forCircuits f s).records = s.records := records_foldl _ (fun s c => h c s) _ _

theorem records_race (s : State) (b : Bool) (f g : State → State) (hf : ∀ t, (f t).records = t.records)
    (hg : ∀ t, (g t).records = t.records) : (s.race b f g).records = s.records := by
  unfold State.race
  split
  · simp [hf, hg]
  · split <;> simp [hf, hg]

/-! ### Dues and levels -/

@[simp] theorem records_endStir (s : State) (c : Circ) : (s.endStir c).records = s.records := by
  simp [State.endStir]

@[simp] theorem records_cutStir (s : State) (c : Circ) (b : Bool) : (s.cutStir c b).records = s.records := by
  unfold State.cutStir
  repeat' split
  all_goals simp

@[simp] theorem records_stirComesDue (s : State) (c : Circ) (t : Nat) : (s.stirComesDue c t).records = s.records := by
  unfold State.stirComesDue
  split <;> simp

@[simp] theorem records_purgeBecomesDue (s : State) (c : Circ) (w : PurgeCause) :
    (s.purgeBecomesDue c w).records = s.records := by
  simp [State.purgeBecomesDue]

@[simp] theorem records_clearPurgeDue (s : State) (c : Circ) : (s.clearPurgeDue c).records = s.records := by
  unfold State.clearPurgeDue
  split
  · rfl
  · exact records_setCircuit s c (fun r => { r with purgeDue := none }) fun _ => rfl

@[simp] theorem records_purgeTest (s : State) (c : Circ) : (s.purgeTest c).records = s.records := by
  unfold State.purgeTest
  split <;> simp

@[simp] theorem records_clearIntervalDue (s : State) (c : Circ) : (s.clearIntervalDue c).records = s.records := by
  unfold State.clearIntervalDue
  split <;> simp

@[simp] theorem records_lowEvaluate (s : State) (c : Circ) : (s.lowEvaluate c).records = s.records := by
  unfold State.lowEvaluate
  dsimp only
  repeat' split
  all_goals simp

@[simp] theorem records_bindingMade (s : State) (c : Circ) : (s.bindingMade c).records = s.records := by
  simp [State.bindingMade]

@[simp] theorem records_flagBlocked (s : State) (c : Circ) (w : BlockReason) :
    (s.flagBlocked c w).records = s.records := by
  simp [State.flagBlocked]

/-- A move changes the state of the record, and nothing else that a condition speaks of. -/
@[simp] theorem records_moveCircuit (s : State) (c : Circ) (g : CircuitState) :
    (s.moveCircuit c g).records = (s.setCircuit c fun r => { r with state := g }).records := by
  unfold State.moveCircuit
  dsimp only
  repeat' split
  all_goals simp

/-! ### Pumps -/

@[simp] theorem records_createActivity (s : State) (c : Circ) (q : PumpRequest) :
    (s.createActivity c q).records = s.records := by
  simp [State.createActivity]

@[simp] theorem records_askPump (s : State) (c : Circ) (q : PumpRequest) : (s.askPump c q).1.records = s.records := by
  unfold State.askPump
  repeat' split
  all_goals simp

@[simp] theorem records_askPrime (s : State) (c : Circ) : (s.askPrime c).records = s.records := by
  simp [State.askPrime]

@[simp] theorem records_askPrimeAgain (s : State) (c : Circ) : (s.askPrimeAgain c).records = s.records := by
  unfold State.askPrimeAgain
  repeat' split
  all_goals simp

@[simp] theorem records_setEntry (s : State) (id k : Nat) (f : DoseEntry → DoseEntry) :
    (s.setEntry id k f).records = s.records := by
  simp [State.setEntry]

@[simp] theorem records_noteTin (s : State) (id : Nat) (n : Note) : (s.noteTin id n).records = s.records := by
  simp [State.noteTin]

@[simp] theorem records_readyTin (s : State) (id : Nat) : (s.readyTin id).records = s.records := by
  simp [State.readyTin]

@[simp] theorem records_stageTin (s : State) (id : Nat) (g : Stage) : (s.stageTin id g).records = s.records := by
  simp [State.stageTin]

@[simp] theorem records_doseEnded (s : State) (c : Circ) (id k : Nat) (a : Activity) (v : Nat) (w : EndCause) :
    (s.doseEnded c id k a v w).records = s.records := by
  unfold State.doseEnded
  dsimp only
  repeat' split
  all_goals simp

@[simp] theorem records_keepDelivery (s : State) (c : Circ) (a : Activity) (b : Circuit) :
    (s.keepDelivery c a b).records = s.records := by
  unfold State.keepDelivery
  split <;> simp

@[simp] theorem records_releaseNext (s : State) (c : Circ) : (s.releaseNext c).records = s.records := by
  unfold State.releaseNext
  split <;> simp

@[simp] theorem records_refuseNext (s : State) (c : Circ) : (s.refuseNext c).records = s.records := by
  unfold State.refuseNext
  split
  · rfl
  · dsimp only
    split
    · simp
    · rfl
    · simp

@[simp] theorem records_createHeldPrime (s : State) (c : Circ) : (s.createHeldPrime c).records = s.records := by
  unfold State.createHeldPrime
  split <;> simp

@[simp] theorem records_primeCap (s : State) (c : Circ) : (s.primeCap c).records = s.records := by
  unfold State.primeCap
  repeat' split
  all_goals simp

@[simp] theorem records_primesLook (s : State) : (s.primesLook).records = s.records := by
  exact records_forCircuits _ (fun c s => by simp) _

@[simp] theorem records_resumePrime (s : State) (c : Circ) : (s.resumePrime c).records = s.records := by
  unfold State.resumePrime
  dsimp only
  repeat' split
  all_goals simp

@[simp] theorem records_grant (s : State) (c : Circ) (a : Activity) : (s.grant c a).records = s.records := by
  simp [State.grant]

@[simp] theorem records_serveSlot (s : State) (k : Nat) : (s.serveSlot k).records = s.records := by
  unfold State.serveSlot
  repeat' split
  all_goals simp

@[simp] theorem records_nextSlot (s : State) : (s.nextSlot).records = s.records := by
  unfold State.nextSlot
  dsimp only
  split
  · rw [records_serveSlot]; rfl
  · rfl

@[simp] theorem records_advancePhase (s : State) (c : Circ) : (s.advancePhase c).records = s.records := by
  unfold State.advancePhase
  dsimp only
  repeat' split
  all_goals simp

/-! ### The Tag Bus -/

@[simp] theorem records_endAbandoned (s : State) : (s.endAbandoned).records = s.records := by
  simp [State.endAbandoned]

@[simp] theorem records_startSeen (s : State) : (s.startSeen).records = s.records := by
  unfold State.startSeen
  dsimp only
  repeat' split
  all_goals simp

@[simp] theorem records_stopSeenOnBus (s : State) : (s.stopSeenOnBus).records = s.records := by
  unfold State.stopSeenOnBus
  split <;> simp

@[simp] theorem records_linesHigh (s : State) : (s.linesHigh).records = s.records := by
  unfold State.linesHigh
  split <;> simp

@[simp] theorem records_busTaken (s : State) : (s.busTaken).records = s.records := by
  unfold State.busTaken
  split <;> simp

@[simp] theorem records_startTaken (s : State) : (s.startTaken).records = s.records := by
  unfold State.startTaken
  repeat' split
  all_goals simp

@[simp] theorem records_byteAcked (s : State) (d : BitVec 8) : (s.byteAcked d).records = s.records := by
  unfold State.byteAcked
  repeat' split
  all_goals simp

@[simp] theorem records_busReleased (s : State) : (s.busReleased).records = s.records := by
  exact records_stopSeenOnBus s

@[simp] theorem records_pollDue (s : State) : (s.pollDue).records = s.records := by
  unfold State.pollDue
  repeat' split
  all_goals simp

/-! ### Lines and the book -/

@[simp] theorem records_loadWanted (s : State) (b : State) : (State.loadWanted b s).records = s.records := by
  unfold State.loadWanted
  repeat' split
  all_goals simp

@[simp] theorem records_releaseTin (s : State) (n : Nat) : (s.releaseTin n).records = s.records := by
  simp [State.releaseTin]

@[simp] theorem records_holdLine (s : State) (n : Nat) (h : Hold) : (s.holdLine n h).records = s.records := by
  simp [State.holdLine]

@[simp] theorem records_holdWeight (s : State) (n : Nat) : (s.holdWeight n).records = s.records := by
  unfold State.holdWeight
  repeat' split
  all_goals simp

@[simp] theorem records_holdCircuit (s : State) (n c : Nat) : (s.holdCircuit n c).records = s.records := by
  unfold State.holdCircuit
  repeat' split
  all_goals simp

@[simp] theorem records_compareLot (s : State) (id k : Nat) (c : Circ) :
    (s.compareLot id k c).records = s.records := by
  unfold State.compareLot
  repeat' split
  all_goals simp

@[simp] theorem records_commitMade (s : State) (e : ColourantEntry) (j : Judged) :
    (s.commitMade e j).records = s.records := by
  unfold State.commitMade
  repeat' split
  all_goals simp

@[simp] theorem records_goLine (s : State) (n : Nat) (g : LineState) : (s.goLine n g).records = s.records := by
  unfold State.goLine
  dsimp only
  repeat' split
  all_goals rfl

@[simp] theorem records_failAtZ1 (s : State) (n : Nat) : (s.failAtZ1 n).records = s.records := by
  unfold State.failAtZ1
  repeat' split
  all_goals simp

/-! ### Places, the Lidder and the Mixers -/

@[simp] theorem records_setUncertain (s : State) (p : Place) (b : Bool) :
    (s.setUncertain p b).records = s.records := by
  simp [State.setUncertain]

@[simp] theorem records_restAt (s : State) (p : Place) (id : Nat) : (s.restAt p id).records = s.records := by
  simp [State.restAt]

@[simp] theorem records_orphanAt (s : State) (p : Place) : (s.orphanAt p).records = s.records := by
  unfold State.orphanAt
  dsimp only
  repeat' split
  all_goals simp

@[simp] theorem records_orphanInLane (s : State) : (s.orphanInLane).records = s.records := by
  rfl

@[simp] theorem records_slipSeen (s : State) (p : Place) (id : Nat) : (s.slipSeen p id).records = s.records := by
  simp [State.slipSeen]

@[simp] theorem records_appeared (s : State) (p : Place) : (s.appeared p).records = s.records := by
  simp [State.appeared]

@[simp] theorem records_vanished (s : State) (p : Place) (id : Nat) : (s.vanished p id).records = s.records := by
  simp [State.vanished]

@[simp] theorem records_zoneCompare (s : State) (p : Place) : (s.zoneCompare p).records = s.records := by
  unfold State.zoneCompare
  repeat' split
  all_goals simp

@[simp] theorem records_holdOrphan (s : State) (m : Mix) (id : Nat) : (s.holdOrphan m id).records = s.records := by
  simp [State.holdOrphan]

@[simp] theorem records_cradleCompare (s : State) (m : Mix) : (s.cradleCompare m).records = s.records := by
  unfold State.cradleCompare
  dsimp only
  repeat' split
  all_goals simp

@[simp] theorem records_placeCompare (s : State) (p : Place) : (s.placeCompare p).records = s.records := by
  unfold State.placeCompare
  split <;> simp

@[simp] theorem records_bypassTin (s : State) (id : Nat) (g : LidStatus) :
    (s.bypassTin id g).records = s.records := by
  simp [State.bypassTin]

@[simp] theorem records_lidEmpty (s : State) (id : Nat) (k : Fin 3) : (s.lidEmpty id k).records = s.records := by
  simp [State.lidEmpty]

@[simp] theorem records_noLid (s : State) (id : Nat) (k : Fin 3) : (s.noLid id k).records = s.records := by
  unfold State.noLid
  dsimp only
  repeat' split
  all_goals simp

@[simp] theorem records_lidSearch (s : State) : (s.lidSearch).records = s.records := by
  unfold State.lidSearch
  repeat' split
  all_goals simp

@[simp] theorem records_lidderTake (s : State) (id : Nat) : (s.lidderTake id).records = s.records := by
  unfold State.lidderTake
  repeat' split
  all_goals simp

@[simp] theorem records_lidderLeave (s : State) (id : Nat) : (s.lidderLeave id).records = s.records := by
  unfold State.lidderLeave
  split <;> simp

@[simp] theorem records_drawLid (s : State) (m : Fin 3) : (s.drawLid m).records = s.records := by
  unfold State.drawLid
  dsimp only
  repeat' split
  all_goals simp

@[simp] theorem records_startCycle (s : State) : (s.startCycle).records = s.records := by
  simp [State.startCycle]

@[simp] theorem records_pressLook (s : State) : (s.pressLook).records = s.records := by
  unfold State.pressLook
  repeat' split
  all_goals simp

@[simp] theorem records_judgeSeat (s : State) (b : Bool) : (s.judgeSeat b).records = s.records := by
  unfold State.judgeSeat
  repeat' split
  all_goals simp

@[simp] theorem records_cycleEnds (s : State) (b : Bool) : (s.cycleEnds b).records = s.records := by
  unfold State.cycleEnds
  split <;> simp

@[simp] theorem records_abandonCycle (s : State) : (s.abandonCycle).records = s.records := by
  unfold State.abandonCycle
  split <;> simp

@[simp] theorem records_putMagazine (s : State) (m : Fin 3) (k : Option (Fin 3)) (n : Option Nat) :
    (s.putMagazine m k n).records = s.records := by
  simp [State.putMagazine]

@[simp] theorem records_lidderRestart (s : State) : (s.lidderRestart).records = s.records := by
  simp [State.lidderRestart]

@[simp] theorem records_reserveMixer (s : State) (m : Mix) (id : Nat) :
    (s.reserveMixer m id).records = s.records := by
  simp [State.reserveMixer]

@[simp] theorem records_mixerChoose (s : State) : (s.mixerChoose).records = s.records := by
  unfold State.mixerChoose
  repeat' split
  all_goals simp

@[simp] theorem records_idleMixer (s : State) (m : Mix) : (s.idleMixer m).records = s.records := by
  simp [State.idleMixer]

@[simp] theorem records_flagDoor (s : State) (m : Mix) (g : MixerState) : (s.flagDoor m g).records = s.records := by
  simp [State.flagDoor]

@[simp] theorem records_mixerTake (s : State) (m : Mix) (id : Nat) : (s.mixerTake m id).records = s.records := by
  unfold State.mixerTake
  dsimp only
  repeat' split
  all_goals simp

@[simp] theorem records_clampEnds (s : State) (m : Mix) : (s.clampEnds m).records = s.records := by
  unfold State.clampEnds
  dsimp only
  repeat' split
  all_goals simp

@[simp] theorem records_mixEnds (s : State) (m : Mix) : (s.mixEnds m).records = s.records := by
  unfold State.mixEnds
  dsimp only
  repeat' split
  all_goals simp

@[simp] theorem records_brakeEnds (s : State) (m : Mix) : (s.brakeEnds m).records = s.records := by
  unfold State.brakeEnds
  dsimp only
  repeat' split
  all_goals simp

@[simp] theorem records_reachHolding (s : State) (m : Mix) : (s.reachHolding m).records = s.records := by
  unfold State.reachHolding
  dsimp only
  repeat' split
  all_goals simp

@[simp] theorem records_unclampEnds (s : State) (m : Mix) : (s.unclampEnds m).records = s.records := by
  unfold State.unclampEnds
  dsimp only
  repeat' split
  all_goals simp

@[simp] theorem records_doorOpens (s : State) (m : Mix) : (s.doorOpens m).records = s.records := by
  unfold State.doorOpens
  dsimp only
  repeat' split
  all_goals simp

@[simp] theorem records_mixerStop (s : State) (m : Mix) : (s.mixerStop m).records = s.records := by
  simp [State.mixerStop]

@[simp] theorem records_mixerResume (s : State) (m : Mix) : (s.mixerResume m).records = s.records := by
  unfold State.mixerResume
  split <;> simp

@[simp] theorem records_abortMix (s : State) (m : Mix) (x : Mixer) : (s.abortMix m x).records = s.records := by
  unfold State.abortMix
  repeat' split
  all_goals simp

@[simp] theorem records_holdOrIdle (s : State) (m : Mix) : (s.holdOrIdle m).records = s.records := by
  unfold State.holdOrIdle
  repeat' split
  all_goals simp

@[simp] theorem records_mixerRestart (s : State) (m : Mix) : (s.mixerRestart m).records = s.records := by
  unfold State.mixerRestart
  dsimp only
  repeat' split
  all_goals simp

@[simp] theorem records_mixerPower (s : State) (m : Mix) : (s.mixerPower m).records = s.records := by
  simp [State.mixerPower]

/-! ### The station -/

@[simp] theorem records_jobIdle (s : State) : (s.jobIdle).records = s.records := by
  simp [State.jobIdle]

@[simp] theorem records_jobTinRemoved (s : State) : (s.jobTinRemoved).records = s.records := by
  unfold State.jobTinRemoved
  repeat' split
  all_goals simp

@[simp] theorem records_oweAttempt (s : State) : (s.oweAttempt).records = s.records := by
  simp [State.oweAttempt]

@[simp] theorem records_beginSettle (s : State) : (s.beginSettle).records = s.records := by
  simp [State.beginSettle]

@[simp] theorem records_beginPreparing (s : State) (id : Nat) : (s.beginPreparing id).records = s.records := by
  simp [State.beginPreparing]

@[simp] theorem records_notRun (s : State) (id k : Nat) : (s.notRun id k).records = s.records := by
  simp [State.notRun]

@[simp] theorem records_handDose (s : State) (id k : Nat) (e : DoseEntry) (b : Bool) :
    (s.handDose id k e b).records = s.records := by
  unfold State.handDose
  dsimp only
  repeat' split
  all_goals simp

@[simp] theorem records_lookEntry (s : State) (id k : Nat) : (s.lookEntry id k).records = s.records := by
  unfold State.lookEntry
  repeat' split
  all_goals simp

@[simp] theorem records_lookEntries (s : State) (id : Nat) : (s.lookEntries id).records = s.records := by
  exact records_foldl _ (fun s x => by simp) _ _

@[simp] theorem records_checkDecided (s : State) (id : Nat) (v : Verdict) :
    (s.checkDecided id v).records = s.records := by
  unfold State.checkDecided
  dsimp only
  repeat' split
  all_goals simp

@[simp] theorem records_deviation (s : State) (id e : Nat) (m : Int) : (s.deviation id e m).records = s.records := by
  unfold State.deviation
  repeat' split
  all_goals simp

@[simp] theorem records_weighed (s : State) (id : Nat) (r : Reading) : (s.weighed id r).records = s.records := by
  unfold State.weighed
  dsimp only
  repeat' split
  all_goals simp

@[simp] theorem records_beginWeighing (s : State) (t : Tin) : (s.beginWeighing t).records = s.records := by
  unfold State.beginWeighing
  dsimp only
  repeat' split
  all_goals simp

@[simp] theorem records_dosingLook (s : State) (id : Nat) : (s.dosingLook id).records = s.records := by
  unfold State.dosingLook
  dsimp only
  repeat' split
  all_goals simp

@[simp] theorem records_delayEnds (s : State) : (s.delayEnds).records = s.records := by
  unfold State.delayEnds
  repeat' split
  all_goals simp

@[simp] theorem records_assignScale (s : State) (m : ScaleMode) : (s.assignScale m).records = s.records := by
  unfold State.assignScale
  dsimp only
  repeat' split
  all_goals simp

@[simp] theorem records_stationRestart (s : State) : (s.stationRestart).records = s.records := by
  simp [State.stationRestart]

/-! ### The track -/

@[simp] theorem records_reserve (s : State) (p : Place) (id : Nat) : (s.reserve p id).records = s.records := by
  simp [State.reserve]

@[simp] theorem records_reserveNext (s : State) (p q : Place) : (s.reserveNext p q).records = s.records := by
  unfold State.reserveNext
  repeat' split
  all_goals simp

@[simp] theorem records_reserveZ5 (s : State) : (s.reserveZ5).records = s.records := by
  unfold State.reserveZ5
  repeat' split
  all_goals simp

@[simp] theorem records_reservations (s : State) : (s.reservations).records = s.records := by
  simp [State.reservations]

@[simp] theorem records_arriveAt (s : State) (p : Place) (id : Nat) : (s.arriveAt p id).records = s.records := by
  unfold State.arriveAt
  repeat' split
  all_goals simp

@[simp] theorem records_leftZ2 (s : State) (id : Nat) : (s.leftZ2 id).records = s.records := by
  unfold State.leftZ2
  repeat' split
  all_goals simp

@[simp] theorem records_beginMove (s : State) (id : Nat) (p q : Place) :
    (s.beginMove id p q).records = s.records := by
  unfold State.beginMove
  dsimp only
  repeat' split
  all_goals simp

@[simp] theorem records_conveyorLook (s : State) (p q : Place) : (s.conveyorLook p q).records = s.records := by
  unfold State.conveyorLook
  repeat' split
  all_goals simp

@[simp] theorem records_conveyors (s : State) : (s.conveyors).records = s.records := by
  simp [State.conveyors]

@[simp] theorem records_armNote (s : State) : (s.armNote).records = s.records := by
  simp [State.armNote]

@[simp] theorem records_armGrant (s : State) : (s.armGrant).records = s.records := by
  unfold State.armGrant
  repeat' split
  all_goals simp

@[simp] theorem records_trackLook (s : State) : (s.trackLook).records = s.records := by
  simp [State.trackLook]

@[simp] theorem records_handOver (s : State) (id : Nat) (p : Place) : (s.handOver id p).records = s.records := by
  unfold State.handOver
  repeat' split
  all_goals simp

@[simp] theorem records_endReservation (s : State) (p : Place) : (s.endReservation p).records = s.records := by
  unfold State.endReservation
  repeat' split
  all_goals simp

@[simp] theorem records_sourceFree (s : State) (p : Place) : (s.sourceFree p).records = s.records := by
  unfold State.sourceFree
  repeat' split
  all_goals simp

@[simp] theorem records_moveOver (s : State) (v : Move) : (s.moveOver v).records = s.records := by
  simp [State.moveOver]

@[simp] theorem records_moveArrives (s : State) (v : Move) (k : Nat) : (s.moveArrives v k).records = s.records := by
  unfold State.moveArrives
  dsimp only
  repeat' split
  all_goals simp

@[simp] theorem records_arrived (s : State) (p : Place) (k : Nat) : (s.arrived p k).records = s.records := by
  unfold State.arrived
  repeat' split
  all_goals simp

@[simp] theorem records_unplace (s : State) (p : Place) (id : Nat) : (s.unplace p id).records = s.records := by
  unfold State.unplace
  repeat' split
  all_goals simp

@[simp] theorem records_moveJams (s : State) (v : Move) : (s.moveJams v).records = s.records := by
  unfold State.moveJams
  dsimp only
  repeat' split
  all_goals simp

@[simp] theorem records_jammed (s : State) (p : Place) : (s.jammed p).records = s.records := by
  unfold State.jammed
  repeat' split
  all_goals simp

@[simp] theorem records_liftTin (s : State) (id : Nat) : (s.liftTin id).records = s.records := by
  simp [State.liftTin, records_foldl]

@[simp] theorem records_tellRemoved (s : State) (id : Nat) : (s.tellRemoved id).records = s.records := by
  have h (t : State) :
      (mixes.foldl (fun u m => if (u.mixerRec m).tin = some id then u.idleMixer m else u) t).records = t.records :=
    records_foldl _ (fun s m => by split <;> simp) _ _
  unfold State.tellRemoved
  dsimp only
  rw [h]
  split <;> simp

@[simp] theorem records_loadTin (s : State) (l : OrderLine) : (s.loadTin l).records = s.records := by
  simp [State.loadTin]

@[simp] theorem records_clearPair (s : State) (j : JamPair) : (s.clearPair j).records = s.records := by
  unfold State.clearPair
  dsimp only
  repeat' split
  all_goals simp

@[simp] theorem records_jamPlaced (s : State) (j : JamPair) : (s.jamPlaced j).records = s.records := by
  unfold State.jamPlaced
  dsimp only
  repeat' split
  all_goals simp

@[simp] theorem records_certain (s : State) (p : Place) : (s.certain p).records = s.records := by
  unfold State.certain
  dsimp only
  repeat' split
  all_goals simp

@[simp] theorem records_idleHolding (s : State) (p : Place) : (s.idleHolding p).records = s.records := by
  unfold State.idleHolding
  repeat' split
  all_goals simp

@[simp] theorem records_findOrphans (s : State) : (s.findOrphans).records = s.records := by
  unfold State.findOrphans
  dsimp only
  rw [records_foldl _ (fun s _ => by simp), records_foldl _ (fun s p => by split <;> simp)]

@[simp] theorem records_trackRestart (s : State) : (s.trackRestart).records = s.records := by
  simp [State.trackRestart]

/-! ### Care -/

@[simp] theorem records_stirBoundary (s : State) : (s.stirBoundary).records = s.records := by
  unfold State.stirBoundary
  dsimp only
  rw [records_forCircuits _ (fun c s => by split <;> simp)]
  simp

@[simp] theorem records_siteMinute (s : State) : (s.siteMinute).records = s.records := by
  unfold State.siteMinute
  split
  · rfl
  · dsimp only
    split
    · rw [records_forCircuits _ (fun c s => by split <;> simp)]
      simp
    · simp

@[simp] theorem records_startStir (s : State) (x : Circ × Nat) : (s.startStir x).records = s.records := by
  simp [State.startStir]

@[simp] theorem records_stirsLook (s : State) : (s.stirsLook).records = s.records := by
  exact records_foldl _ (fun s x => by split <;> simp) _ _

@[simp] theorem records_stirEnds (s : State) (c : Circ) : (s.stirEnds c).records = s.records := by
  unfold State.stirEnds
  repeat' split
  all_goals simp

@[simp] theorem records_askPurge (s : State) (c : Circ) : (s.askPurge c).records = s.records := by
  unfold State.askPurge
  repeat' split
  all_goals simp

@[simp] theorem records_purgesLook (s : State) : (s.purgesLook).records = s.records := by
  exact records_forCircuits _ (fun c s => by simp) _

@[simp] theorem records_careLook (s : State) : (s.careLook).records = s.records := by
  exact records_race _ _ _ _ (fun t => by simp) (fun t => by simp)

@[simp] theorem records_closedInstant (s : State) : (s.closedInstant).records = s.records := by
  unfold State.closedInstant
  repeat' split
  all_goals simp

@[simp] theorem records_capEnds (s : State) : (s.capEnds).records = s.records := by
  unfold State.capEnds
  repeat' split
  all_goals simp

@[simp] theorem records_purgeElapses (s : State) (c : Circ) : (s.purgeElapses c).records = s.records := by
  unfold State.purgeElapses
  dsimp only
  repeat' split
  all_goals simp

@[simp] theorem records_careStop (s : State) : (s.careStop).records = s.records := by
  exact records_forCircuits _ (fun c s => by simp) _

@[simp] theorem records_careRestart (s : State) : (s.careRestart).records = s.records := by
  unfold State.careRestart
  dsimp only
  rw [records_setCares, records_forCircuits _ (fun c s => by simp)]

/-! ### The machine as a whole -/

@[simp] theorem records_storeRestart (s : State) : (s.storeRestart).records = s.records := by
  unfold State.storeRestart
  split <;> rfl

@[simp] theorem records_releaseClear (s : State) : (s.releaseClear).records = s.records := by
  unfold State.releaseClear
  split <;> rfl

@[simp] theorem records_linkRestart (s : State) : (s.linkRestart).records = s.records := by
  unfold State.linkRestart
  dsimp only
  split <;> rfl

@[simp] theorem records_tagBegin (s : State) : (s.tagBegin).records = s.records := by
  unfold State.tagBegin
  dsimp only
  repeat' split
  all_goals rfl

@[simp] theorem records_firstCharacter (s : State) : (s.firstCharacter).records = s.records := by
  unfold State.firstCharacter
  split <;> simp

@[simp] theorem records_discarded (s : State) : (s.discarded).records = s.records := by
  unfold State.discarded
  split <;> rfl

end Sys2Proof.Machine
end

