-- ==== Sys2Proof/Proofs/RecordLaws.lean ====
section
/-! PROOF SUPPORT. A law on records: a condition on each circuit record, on the settings stored and on their way to the store,
and on the calibration trim, together with what a condition must withstand for every operation of the model to keep it. The
invariants on levels, trims, minimum doses and circuit states are four such laws. -/

namespace Sys2Proof.Machine

set_option Elab.async false

/-- The circuit is fitted and not in SERVICE: the states the model itself moves circuits between (section 1.3). -/
def CircuitState.inUse (g : CircuitState) : Prop := g ≠ .unfitted ∧ g ≠ .service

/-- What a change of code or capacity makes of the level, the state and the latch of a record: a code brings an UNFITTED
circuit to SERVICE, no code brings any other to UNFITTED, and elsewhere the level is cut to the capacity (R1, R3). -/
def Circuit.refit (r : Circuit) : Circuit :=
  if r.state = .unfitted ∧ r.cfg.code.isSome then { r with state := .service, latchOpen := true, level := 0 }
  else if r.state ≠ .unfitted ∧ r.cfg.code = none then { r with state := .unfitted, latchOpen := false, level := 0 }
  else { r with level := min r.level r.cfg.maxLevel }

/-- The record with another twin. -/
def Circuit.withTwin (r : Circuit) (n : Option Circ) : Circuit := { r with cfg := { r.cfg with twin := n } }

/-- A law on records. The proofs in it say what the law withstands. -/
structure RecordLaw where
  circ : Circuit → Prop
  stored : Settings → Prop
  cal : Int → Prop
  calm {r x : Circuit} : x.core = r.core → circ r → circ x
  settings {r : Circuit} : circ r → stored r.cfg
  moves {r : Circuit} {g : CircuitState} : circ r → r.state.inUse → g ≠ .unfitted → circ { r with state := g }
  inserts {r : Circuit} : circ r → r.state = .service → circ { r with state := .checking, latchOpen := false }
  opens {r : Circuit} : circ r → r.state = .service → circ { r with latchOpen := true }
  levels {r : Circuit} {v : Nat} : circ r → v ≤ r.level ∨ v ≤ r.cfg.maxLevel → circ { r with level := v }
  stages {r : Circuit} {t : Int} : circ r → cal t → circ (r.stageTrim t)
  applies {r : Circuit} : circ r → circ r.applyPending
  twins {r : Circuit} {n : Option Circ} : circ r → circ (r.withTwin n)
  configures {r : Circuit} {fs : Fields} {n : Option Circ} : circ r → fieldWithin fs "nmin" 1 64 = true →
    stored ((r.csetApplied fs).withTwin n).cfg ∧ circ ((r.csetApplied fs).withTwin n).refit
  clamped (t : Int) : cal (trimLimit t)
  unset : circ Circuit.reset
  boots {nv : NonVolatile} {c : Circ} (closed : Bool) (now : Nat) :
    (∀ g, nv.circuits[c] = some g → stored g) → circ (nv.circuit closed now c)

namespace RecordLaw

variable (L : RecordLaw)

/-- The law on the settings a store record carries. -/
def record : StoreRecord → Prop
  | .circuit _ g => L.stored g
  | _ => True

/-- The law on what the writer writes. -/
def work : WriteWork → Prop
  | .link r => L.record r
  | _ => True

/-- The law on the settings in a store. -/
structure Stores (t : Store) : Prop where
  nv : ∀ (c : Circ) (g : Settings), t.nv.circuits[c] = some g → L.stored g
  fifo : ∀ r ∈ t.fifo, L.record r
  writer : ∀ w e, t.writer = some (w, e) → L.work w

/-- The law on a state. -/
structure Holds (s : State) : Prop where
  circuits : ∀ c : Circ, L.circ (s.circuit c)
  stores : L.Stores s.store
  result : ∀ q t, s.calResult = some q → q.trim = some t → L.cal t

variable {L : RecordLaw} {s t : State}

/-! ### States with the same records -/

/-- A state with the same records keeps the law. -/
theorem Holds.of (h : L.Holds s) (e : t.records = s.records := by simp) : L.Holds t := by
  simp only [State.records, Prod.mk.injEq] at e
  obtain ⟨hc, hn, hf, hw, hq⟩ := e
  exact ⟨fun c => L.calm (congrFun hc c) (h.circuits c),
    ⟨hn ▸ h.stores.nv, hf ▸ h.stores.fifo, hw ▸ h.stores.writer⟩, hq ▸ h.result⟩

theorem Holds.foldl {α : Type} {f : State → α → State} (hf : ∀ u x, L.Holds u → L.Holds (f u x)) (l : List α)
    (h : L.Holds s) : L.Holds (l.foldl f s) := by
  induction l generalizing s with
  | nil => exact h
  | cons x xs ih => exact ih (hf s x h)

theorem Holds.forCircuits {f : Circ → State → State} (hf : ∀ c u, L.Holds u → L.Holds (f c u)) (h : L.Holds s) :
    L.Holds (forCircuits f s) := h.foldl (fun u c => hf c u) _

/-! ### Changes of one record -/

theorem Holds.setCircuit {c : Circ} {f : Circuit → Circuit} (h : L.Holds s) (hf : L.circ (f (s.circuit c))) :
    L.Holds (s.setCircuit c f) := by
  refine ⟨fun d => ?_, h.stores, h.result⟩
  rw [setCircuit_circuit_eq]
  split
  · exact hf
  · exact h.circuits d

theorem Holds.linkWrite {r : StoreRecord} (h : L.Holds s) (hr : L.record r) : L.Holds (s.linkWrite r) :=
  ⟨h.circuits, ⟨h.stores.nv, fun x hx => (List.mem_append.mp hx).elim (h.stores.fifo x)
    fun e => List.mem_singleton.mp e ▸ hr, h.stores.writer⟩, h.result⟩

end RecordLaw
end Sys2Proof.Machine
end

