-- ==== Sys2Proof/Proofs/RecordSteps.lean ====
section
/-! PROOF SUPPORT. The operations that change a record, one lemma for each: every law on records is kept. -/

namespace Sys2Proof.Machine.RecordLaw

set_option Elab.async false

variable {L : RecordLaw} {s t : State}

/-! ### Operations that leave the records -/

theorem Holds.setFlag (h : L.Holds s) (f : Flag) (items : List Item) : L.Holds (s.setFlag f items) := h.of
theorem Holds.pushReply (h : L.Holds s) (p : Bool) (r : Reply) : L.Holds (s.pushReply p r) := h.of
theorem Holds.reach (h : L.Holds s) (n : Nat) : L.Holds (s.reach n) := h.of
theorem Holds.setTrack (h : L.Holds s) (f : Track → Track) : L.Holds (s.setTrack f) := h.of
theorem Holds.setStn (h : L.Holds s) (f : Station → Station) : L.Holds (s.setStn f) := h.of
theorem Holds.setLine (h : L.Holds s) (n : Nat) (f : OrderLine → OrderLine) : L.Holds (s.setLine n f) := h.of
theorem Holds.setTin (h : L.Holds s) (id : Nat) (f : Tin → Tin) : L.Holds (s.setTin id f) := h.of
theorem Holds.markDirty (h : L.Holds s) (c : Circ) : L.Holds (s.markDirty c) := h.of
theorem Holds.dropDue (h : L.Holds s) (c : Circ) : L.Holds (s.dropDue c) := h.of
theorem Holds.askPrime (h : L.Holds s) (c : Circ) : L.Holds (s.askPrime c) := h.of
theorem Holds.askTag (h : L.Holds s) (c : Circ) (k : JobKind) : L.Holds (s.askTag c k) := h.of
theorem Holds.flagBlocked (h : L.Holds s) (c : Circ) (w : BlockReason) : L.Holds (s.flagBlocked c w) := h.of
theorem Holds.keepDelivery (h : L.Holds s) (c : Circ) (a : Activity) (b : Circuit) : L.Holds (s.keepDelivery c a b) := h.of
theorem Holds.clearIntervalDue (h : L.Holds s) (c : Circ) : L.Holds (s.clearIntervalDue c) := h.of
theorem Holds.releaseNext (h : L.Holds s) (c : Circ) : L.Holds (s.releaseNext c) := h.of
theorem Holds.lowEvaluate (h : L.Holds s) (c : Circ) : L.Holds (s.lowEvaluate c) := h.of
theorem Holds.setLast (h : L.Holds s) (c : Circ) (r : LastResult) : L.Holds (s.setLast c r) := h.of
theorem Holds.setImage (h : L.Holds s) (c : Circ) (g : TagImage) : L.Holds (s.setImage c g) := h.of
theorem Holds.setBus (h : L.Holds s) (b : BusState) : L.Holds (s.setBus b) := h.of
theorem Holds.dropJob (h : L.Holds s) : L.Holds s.dropJob := h.of
theorem Holds.sendStop (h : L.Holds s) : L.Holds s.sendStop := h.of
theorem Holds.goPhase (h : L.Holds s) (a : ActiveJob) (p : BusPhase) : L.Holds (s.goPhase a p) := h.of
theorem Holds.waitBus (h : L.Holds s) (a : ActiveJob) : L.Holds (s.waitBus a) := h.of
theorem Holds.endAbandoned (h : L.Holds s) : L.Holds s.endAbandoned := h.of
theorem Holds.busTaken (h : L.Holds s) : L.Holds s.busTaken := h.of
theorem Holds.oweAttempt (h : L.Holds s) : L.Holds s.oweAttempt := h.of
theorem Holds.beginSettle (h : L.Holds s) : L.Holds s.beginSettle := h.of
theorem Holds.tellRemoved (h : L.Holds s) (id : Nat) : L.Holds (s.tellRemoved id) := h.of

/-! ### Circuits -/

theorem Holds.move {c : Circ} {g : CircuitState} (h : L.Holds s) (hs : (s.circuit c).state.inUse)
    (hg : g ≠ .unfitted := by decide) : L.Holds (s.moveCircuit c g) :=
  Holds.of (h.setCircuit (c := c) (f := fun r => { r with state := g }) (L.moves (h.circuits c) hs hg))

theorem Holds.enterEmpty {c : Circ} (h : L.Holds s) (hs : (s.circuit c).state.inUse) : L.Holds (s.enterEmpty c) :=
  Holds.of (h.move (g := .empty) hs) (by simp [State.enterEmpty])

theorem Holds.emptyCheck (h : L.Holds s) (c : Circ) : L.Holds (s.emptyCheck c) := by
  unfold State.emptyCheck
  dsimp only
  split
  · rename_i e; exact h.enterEmpty (by simp [e.1, CircuitState.inUse])
  · exact h

theorem Holds.emptyCheckReserve (h : L.Holds s) (c : Circ) : L.Holds (s.emptyCheckReserve c) := by
  unfold State.emptyCheckReserve
  dsimp only
  split
  · rename_i e; exact h.move (by simp [e.1, CircuitState.inUse])
  · exact h.emptyCheck c

theorem Holds.reduceLevel (h : L.Holds s) (c : Circ) (n : Nat) (t : Int) : L.Holds (s.reduceLevel c n t) := by
  unfold State.reduceLevel
  split
  · exact h
  · have hl := L.levels (h.circuits c) (.inl (Nat.sub_le _ (stepsVolume n (s.circuit c).cfg.k t)))
    refine Holds.emptyCheck (Holds.of (h.setCircuit (c := c) (f := fun r =>
      { r with level := r.level - stepsVolume n (s.circuit c).cfg.k t, lastDelivery := s.now }) ?_)) c
    exact L.calm (by simp) hl

theorem Holds.bindingEnded (h : L.Holds s) (c : Circ) : L.Holds (s.bindingEnded c) := by
  have hr : L.circ { s.circuit c with openBatch := (s.circuit c).openBatch - 1 } := L.calm (by simp) (h.circuits c)
  refine h.setCircuit ?_
  dsimp only
  split
  · exact L.applies hr
  · exact hr

theorem Holds.block {c : Circ} {w : BlockReason} (h : L.Holds s) (hs : (s.circuit c).state.inUse) :
    L.Holds (s.block c w) := Holds.of (h.move (g := .blocked) hs) (by simp [State.block])

theorem Holds.pumpFault (h : L.Holds s) (c : Circ) : L.Holds (s.pumpFault c) := by
  unfold State.pumpFault
  split <;> first | exact h | (rename_i e; exact h.block (by simp [e, CircuitState.inUse]))

/-! ### Pumps -/

theorem Holds.primeEnded (h : L.Holds s) (c : Circ) : L.Holds (s.primeEnded c) := by
  unfold State.primeEnded
  split
  · rename_i e
    have hu : (s.circuit c).state.inUse := by simp [e, CircuitState.inUse]
    have hm : L.Holds (if (s.circuit c).level ≤ (s.circuit c).cfg.reserve then s.enterEmpty c else s.moveCircuit c .ready) := by
      split
      · exact h.enterEmpty hu
      · exact h.move hu
    dsimp only
    split
    · exact hm
    · exact hm.of
  · exact h

theorem Holds.tellOwner (h : L.Holds s) (c : Circ) (a : Activity) (v : Nat) (w : EndCause) :
    L.Holds (s.tellOwner c a v w) := by
  unfold State.tellOwner
  split
  · dsimp only; split <;> exact h.of
  · have hc (f : Option CalRun → Option CalRun) : L.Holds { s with stn := { s.stn with cal := f s.stn.cal } } := h.of rfl
    dsimp only
    split
    · exact hc _
    · exact (hc _).clearIntervalDue c
  · split
    · exact h.of
    · exact h
  · split
    · exact h.primeEnded c
    · exact h

theorem Holds.endActivity (h : L.Holds s) (c : Circ) (w : EndCause) : L.Holds (s.endActivity c w) := by
  unfold State.endActivity
  split
  · exact h
  · dsimp only
    refine Holds.releaseNext ?_ c
    split
    · exact h.of
    · exact ((h.of.reduceLevel c _ _).keepDelivery c _ _).tellOwner c _ _ _

theorem Holds.cutFinally (h : L.Holds s) (c : Circ) (w : CutCause) : L.Holds (s.cutFinally c w) := by
  unfold State.cutFinally
  split
  · exact h.of
  · exact h.endActivity c _
  · exact h

theorem Holds.pumpRemoved (h : L.Holds s) (c : Circ) : L.Holds (s.pumpRemoved c) := h.of.cutFinally c _

theorem Holds.pumpRestart (h : L.Holds s) (c : Circ) : L.Holds (s.pumpRestart c) := h.of.cutFinally c _

theorem Holds.abandonNow (h : L.Holds s) (c : Circ) : L.Holds (s.abandonNow c) := by
  unfold State.abandonNow
  split
  · exact h
  · dsimp only
    split
    · exact (h.endActivity c .abandoned).of
    · exact h.endActivity c _

theorem Holds.abandon (h : L.Holds s) (c : Circ) : L.Holds (s.abandon c) := by
  unfold State.abandon
  split
  · exact h.of
  · exact h.abandonNow c

theorem Holds.abandonPurges (h : L.Holds s) : L.Holds s.abandonPurges := by
  refine h.forCircuits fun c u hu => ?_
  split
  · split
    · exact hu.abandon c
    · exact hu
  · exact hu

theorem Holds.pumpStop (h : L.Holds s) (c : Circ) : L.Holds (s.pumpStop c) := by
  unfold State.pumpStop
  split
  · exact h
  · split
    · split <;> exact h.of
    · split <;> exact h.of
    · exact h.abandon c
    · exact h.of.abandon c

theorem Holds.resumeActivity (h : L.Holds s) (c : Circ) : L.Holds (s.resumeActivity c) := by
  unfold State.resumeActivity
  split
  · exact h
  · split
    · split
      · exact h.endActivity c _
      · exact h.of
    · split
      · exact h.of
      · exact h

theorem Holds.pumpResume (h : L.Holds s) (c : Circ) : L.Holds (s.pumpResume c) := (h.resumeActivity c).of (by simp [State.pumpResume])

theorem Holds.atBoundary (h : L.Holds s) (c : Circ) : L.Holds (s.atBoundary c) := by
  unfold State.atBoundary
  split
  · exact h
  · split
    · exact h.endActivity c _
    · split
      · exact h.endActivity c _
      · exact h.of
    · split
      · exact h.of.endActivity c _
      · exact h.of.abandonNow c
    · split
      · exact h.endActivity c _
      · exact h.of

theorem Holds.burstComplete (h : L.Holds s) (c : Circ) : L.Holds (s.burstComplete c) := by
  unfold State.burstComplete
  split
  · exact h
  · exact h.of.atBoundary c

theorem Holds.burstStall (h : L.Holds s) (c : Circ) : L.Holds (s.burstStall c) := by
  unfold State.burstStall
  split
  · exact h
  · exact (h.of.pumpFault c).endActivity c _

theorem Holds.burstTimeout (h : L.Holds s) (c : Circ) : L.Holds (s.burstTimeout c) := by
  unfold State.burstTimeout
  split
  · exact h
  · exact h.of.burstStall c

/-! ### The Tag Bus -/

/-- The tag's facts and its level are taken into the record (R9). -/
theorem Holds.tagAccepted (h : L.Holds s) (c : Circ) (g : TagImage) : L.Holds (s.setCircuit c fun r => r.tagAccepted g) := by
  refine h.setCircuit ?_
  unfold Circuit.tagAccepted
  split
  · exact L.calm (by simp) (L.levels (h.circuits c) (.inr (Nat.min_le_right (g.remaining * 100) _)))
  · exact L.calm (by simp) (h.circuits c)

theorem Holds.readSucceeded (h : L.Holds s) (c : Circ) (g : TagImage) : L.Holds (s.readSucceeded c g) := by
  unfold State.readSucceeded
  dsimp only
  split
  · rename_i e
    split
    · have e1 : ((s.setCircuit c fun r => r.tagAccepted g).circuit c).state = .checking := by
        rw [setCircuit_circuit, Circuit.tagAccepted]
        split <;> exact e
      have hs2 (u : State) (hu : u.records = (s.setCircuit c fun r => r.tagAccepted g).records) :
          L.Holds (((u.lowEvaluate c).moveCircuit c .priming).askPrime c) := by
        have hl : (u.lowEvaluate c).records = (s.setCircuit c fun r => r.tagAccepted g).records := by simp [hu]
        have hc : ((u.lowEvaluate c).circuit c).state.inUse := by
          rw [state_of_records hl, e1]
          simp [CircuitState.inUse]
        exact (((h.tagAccepted c g).of hl).move hc).askPrime c
      refine hs2 _ ?_
      split <;> simp
    · exact h.block (by simp [e, CircuitState.inUse])
  · exact h

theorem Holds.readFailed (h : L.Holds s) (c : Circ) (f : TagFailure) : L.Holds (s.readFailed c f) := by
  unfold State.readFailed
  split
  · rename_i e; exact h.block (by simp [e, CircuitState.inUse])
  · exact h

theorem Holds.openLatch {c : Circ} (h : L.Holds s) (hs : (s.circuit c).state = .service) :
    L.Holds (s.setCircuit c fun r => { r with latchOpen := true }) := h.setCircuit (L.opens (h.circuits c) hs)

theorem Holds.releaseEnds {c : Circ} (h : L.Holds s) (hs : (s.circuit c).state.inUse) : L.Holds (s.releaseEnds c) := by
  refine (h.move hs).openLatch ?_
  rw [state_of_records (records_moveCircuit s c .service), setCircuit_circuit]

theorem Holds.writeEnded (h : L.Holds s) (c : Circ) (f : Option TagFailure) : L.Holds (s.writeEnded c f) := by
  have h1 : L.Holds (if (s.circuit c).state = .releasing then s.releaseEnds c else s) := by
    split
    · rename_i e; exact h.releaseEnds (by simp [e, CircuitState.inUse])
    · exact h
  unfold State.writeEnded
  cases f with
  | some f => exact h1.setFlag _ _
  | none => exact h1

theorem Holds.failJob (h : L.Holds s) (a : ActiveJob) (f : TagFailure) : L.Holds (s.failJob a f) := by
  unfold State.failJob
  split
  · exact ((h.setLast _ _).readFailed _ _).dropJob
  · exact ((h.setLast _ _).writeEnded _ _).dropJob

theorem Holds.judgeRead (h : L.Holds s) (a : ActiveJob) : L.Holds (s.judgeRead a) := by
  unfold State.judgeRead
  dsimp only
  split
  · exact (((h.setImage _ _).setLast _ _).readSucceeded _ _).dropJob
  · exact h.failJob a _

theorem Holds.writeDone (h : L.Holds s) (a : ActiveJob) : L.Holds (s.writeDone a) :=
  (((h.setImage _ _).setLast _ _).writeEnded _ _).dropJob

theorem Holds.countLoss (h : L.Holds s) (a : ActiveJob) : L.Holds (s.countLoss a) := by
  unfold State.countLoss
  split
  · exact h.failJob _ _
  · exact h.waitBus _

theorem Holds.countFault (h : L.Holds s) (a : ActiveJob) : L.Holds (s.countFault a) := by
  unfold State.countFault
  split
  · exact h.failJob _ _
  · exact h.waitBus _

theorem Holds.pageStored (h : L.Holds s) (a : ActiveJob) (n : Nat) : L.Holds (s.pageStored a n) := by
  unfold State.pageStored
  split
  · exact (h.waitBus _).sendStop
  · exact (h.writeDone a).sendStop

theorem Holds.addressAcked (h : L.Holds s) : L.Holds s.addressAcked := by
  unfold State.addressAcked
  split
  · split
    · exact h.endAbandoned
    · split
      · exact h.pageStored _ _
      · exact h.goPhase _ _
  · split
    · exact h.endAbandoned
    · exact h.goPhase _ _
  · exact h

theorem Holds.addressNaked (h : L.Holds s) : L.Holds s.addressNaked := by
  unfold State.addressNaked
  split
  · split
    · exact h.endAbandoned
    · split
      · exact (h.failJob _ _).sendStop
      · exact (h.failJob _ _).sendStop
      · exact (h.countFault _).sendStop
      · exact h.goPhase _ _
  · split
    · exact h.endAbandoned
    · exact (h.failJob _ _).sendStop
  · exact h

theorem Holds.byteNaked (h : L.Holds s) : L.Holds s.byteNaked := by
  unfold State.byteNaked
  split
  · split
    · exact h.endAbandoned
    · exact (h.countFault _).sendStop
  · split
    · exact h.endAbandoned
    · exact (h.countFault _).sendStop
  · exact h

theorem Holds.arbitrationLost (h : L.Holds s) : L.Holds s.arbitrationLost := by
  unfold State.arbitrationLost
  split
  · split
    · exact h.busTaken.dropJob
    · exact h.busTaken.countLoss _
  · exact h

theorem Holds.lineBroken (h : L.Holds s) : L.Holds s.lineBroken := by
  unfold State.lineBroken
  split
  · exact h
  · dsimp only
    split
    · exact (h.setBus _).dropJob
    · exact (h.setBus _).countFault _
  · exact h

theorem Holds.stopEnded (h : L.Holds s) : L.Holds s.stopEnded := by
  have h1 : L.Holds s.busReleased := h.of
  unfold State.stopEnded
  dsimp only
  split
  · exact h1
  · split
    · split
      · exact h1.dropJob
      · split
        · exact h1.judgeRead _
        · exact h1.waitBus _
        · exact h1.of
    · exact h1

theorem Holds.pollTimeout (h : L.Holds s) : L.Holds s.pollTimeout := by
  unfold State.pollTimeout
  split
  · split
    · split
      · exact h
      · dsimp only
        split
        · exact (h.reach _).failJob _ _
        · exact ((h.reach _).failJob _ _).sendStop
        · exact (h.reach _).failJob _ _
    · exact h
  · exact h

theorem Holds.busWaited (h : L.Holds s) : L.Holds s.busWaited := by
  unfold State.busWaited
  split
  · split
    · split
      · exact h
      · exact (h.reach _).countLoss _
    · exact h
  · exact h

end Sys2Proof.Machine.RecordLaw
end

