-- ==== Sys2Proof/Proofs/RecordCommands.lean ====
section
/-! PROOF SUPPORT. The commands of the blocks over the record laws: bay events and CSET, the book, the station, the track,
power, and the end of a step. -/

namespace Sys2Proof.Machine

set_option Elab.async false

/-! ### A run's end leaves a circuit in use -/

theorem inUse_of_records {s t : State} {c : Circ} (h : (s.circuit c).state.inUse) (e : t.records = s.records) :
    (t.circuit c).state.inUse := by
  rwa [state_of_records e]

theorem inUse_moveCircuit (s : State) (c : Circ) {g : CircuitState} (hg : g.inUse) :
    ((s.moveCircuit c g).circuit c).state.inUse := by
  rw [state_of_records (records_moveCircuit s c g), setCircuit_circuit]
  exact hg

theorem inUse_enterEmpty (s : State) (c : Circ) : ((s.enterEmpty c).circuit c).state.inUse :=
  inUse_of_records (inUse_moveCircuit s c (g := .empty) (by simp [CircuitState.inUse])) (by simp [State.enterEmpty])

theorem inUse_reduceLevel {s : State} {c : Circ} (h : (s.circuit c).state.inUse) (n : Nat) (t : Int) :
    ((s.reduceLevel c n t).circuit c).state.inUse := by
  unfold State.reduceLevel
  split
  · exact h
  · dsimp only
    unfold State.emptyCheck
    dsimp only
    split
    · exact inUse_enterEmpty _ c
    · rw [state_of_records (records_lowEvaluate _ c), state_of_records (records_markDirty _ c), setCircuit_circuit]
      exact h

theorem inUse_primeEnded {s : State} {c : Circ} (h : (s.circuit c).state.inUse) :
    ((s.primeEnded c).circuit c).state.inUse := by
  have hm : ((if (s.circuit c).level ≤ (s.circuit c).cfg.reserve then s.enterEmpty c
      else s.moveCircuit c .ready).circuit c).state.inUse := by
    split
    · exact inUse_enterEmpty s c
    · exact inUse_moveCircuit s c (by simp [CircuitState.inUse])
  unfold State.primeEnded
  split
  · dsimp only
    split
    · exact hm
    · exact inUse_of_records hm (by simp)
  · exact h

theorem inUse_tellOwner {s : State} {c : Circ} (h : (s.circuit c).state.inUse) (a : Activity) (v : Nat) (w : EndCause) :
    ((s.tellOwner c a v w).circuit c).state.inUse := by
  unfold State.tellOwner
  split
  · dsimp only; split <;> exact inUse_of_records h (by simp)
  · have hc (f : Option CalRun → Option CalRun) :
        (({ s with stn := { s.stn with cal := f s.stn.cal } } : State).circuit c).state.inUse := h
    dsimp only
    split
    · exact hc _
    · exact inUse_of_records (hc _) (records_clearIntervalDue _ c)
  · split
    · exact inUse_of_records h (by simp)
    · exact h
  · split
    · exact inUse_primeEnded h
    · exact h

theorem inUse_endActivity {s : State} {c : Circ} (h : (s.circuit c).state.inUse) (w : EndCause) :
    ((s.endActivity c w).circuit c).state.inUse := by
  unfold State.endActivity
  split
  · exact h
  · dsimp only
    refine inUse_of_records ?_ (records_releaseNext _ c)
    split
    · exact h
    · exact inUse_tellOwner (inUse_of_records (inUse_reduceLevel (inUse_of_records h (by simp)) _ _)
        (records_keepDelivery _ c _ _)) _ _ _

theorem inUse_pumpRemoved {s : State} {c : Circ} (h : (s.circuit c).state.inUse) :
    ((s.pumpRemoved c).circuit c).state.inUse := by
  have h1 : (((s.refuseNext c).setPump c fun p => { p with heldPrime := false }).circuit c).state.inUse :=
    inUse_of_records h (by simp)
  unfold State.pumpRemoved State.cutFinally
  split
  · exact inUse_of_records h1 (by simp)
  · exact inUse_endActivity h1 _
  · exact h1

/-! ### The records after a CSET's level and state changes -/

/-- A change of one record over states that differ in that record: only what the change makes of it matters. -/
theorem records_setCircuit_after {s t : State} {c : Circ} {f g k : Circuit → Circuit}
    (e : t.records = (s.setCircuit c f).records)
    (h : ∀ x : Circuit, x.core = (f (s.circuit c)).core → (g x).core = (k (s.circuit c)).core) :
    (t.setCircuit c g).records = (s.setCircuit c k).records := by
  simp only [State.records, Prod.mk.injEq] at e ⊢
  obtain ⟨hc, hr⟩ := e
  refine ⟨funext fun d => ?_, hr⟩
  have hd := congrFun hc d
  simp only [setCircuit_circuit_eq] at hd ⊢
  split
  · rename_i e; subst e; rw [if_pos rfl] at hd; exact h _ hd
  · rename_i e; rw [if_neg e] at hd; exact hd

theorem records_setCircuit_congr {s : State} {c : Circ} {g k : Circuit → Circuit}
    (h : (g (s.circuit c)).core = (k (s.circuit c)).core) : (s.setCircuit c g).records = (s.setCircuit c k).records := by
  simp only [State.records, Prod.mk.injEq]
  refine ⟨funext fun d => ?_, rfl, rfl, rfl, rfl⟩
  simp only [setCircuit_circuit_eq]
  split
  · exact h
  · rfl

theorem records_setCircuit_same {s : State} {c : Circ} {k : Circuit → Circuit}
    (h : (k (s.circuit c)).core = (s.circuit c).core) : s.records = (s.setCircuit c k).records :=
  (records_setCircuit s c id fun _ => rfl).symm.trans (records_setCircuit_congr h.symm)

/-- The level is cut to the capacity. -/
theorem records_clampLevel (s : State) (c : Circ) :
    (s.clampLevel c).records = (s.setCircuit c fun r => { r with level := min r.level r.cfg.maxLevel }).records := by
  unfold State.clampLevel
  dsimp only
  split
  · rename_i h
    rw [records_markDirty]
    exact records_setCircuit_congr (by simp [Nat.le_of_lt h])
  · rename_i h
    exact records_setCircuit_same (by simp [Nat.le_of_not_lt h])

/-- What the capacity and the code make of circuit c is the refit of its record. -/
theorem records_refit (s : State) (c : Circ) :
    ((s.clampLevel c).codeMoves c).records = (s.setCircuit c Circuit.refit).records := by
  have e := records_clampLevel s c
  have hcfg : ((s.clampLevel c).circuit c).cfg = (s.circuit c).cfg ∧ ((s.clampLevel c).circuit c).state = (s.circuit c).state := by
    have e' := e
    simp only [State.records, Prod.mk.injEq] at e'
    have ec := congrFun e'.1 c
    simp only [setCircuit_circuit, Circuit.core_eq_iff] at ec
    exact ⟨ec.1, ec.2.1⟩
  unfold State.codeMoves
  dsimp only
  rw [hcfg.1, hcfg.2]
  split
  · rename_i h
    rw [records_markDirty, records_setCircuit_after (records_moveCircuit _ c .service)
      (k := fun r => { r with state := .service, latchOpen := true, level := 0 }) (fun x hx => by
        simp only [Circuit.core_eq_iff] at hx; simp [hx])]
    exact records_setCircuit_after e fun x hx => by
      simp only [Circuit.core_eq_iff] at hx
      simp [Circuit.refit, h, hx]
  · rename_i h1
    split
    · rename_i h
      rw [records_markDirty, records_setCircuit_after (records_moveCircuit _ c .unfitted)
        (k := fun r => { r with state := .unfitted, latchOpen := false, level := 0 }) (fun x hx => by
          simp only [Circuit.core_eq_iff] at hx; simp [hx])]
      exact records_setCircuit_after e fun x hx => by
        simp only [Circuit.core_eq_iff] at hx
        simp [Circuit.refit, h, hx]
    · rename_i h2
      rw [e]
      exact records_setCircuit_congr (by rw [Circuit.refit, if_neg h1, if_neg h2])

namespace RecordLaw

variable {L : RecordLaw} {s t : State}

/-! ### Bay events -/

theorem Holds.insertion {c : Circ} (h : L.Holds s) (hs : (s.circuit c).state = .service) : L.Holds (s.insertion c) :=
  Holds.of (h.setCircuit (c := c) (f := fun r => { r with state := .checking, latchOpen := false })
    (L.inserts (h.circuits c) hs))
    ((records_askTag _ _ _).trans (records_setCircuit_after (records_moveCircuit s c .checking) fun x hx => by
      simp_all [Circuit.core]))

theorem Holds.forcedRemoval {c : Circ} (h : L.Holds s) (hs : (s.circuit c).state.inUse) : L.Holds (s.forcedRemoval c) := by
  have h1 : L.Holds (s.pumpRemoved c) := h.pumpRemoved c
  have h2 : L.Holds { s.pumpRemoved c with tag := (s.pumpRemoved c).tag.abandonJobs c } := h1.of rfl
  have h3 := h2.move (c := c) (g := .service) (inUse_pumpRemoved hs)
  exact h3.of (by simp [State.forcedRemoval])

theorem Holds.bayEvent (h : L.Holds s) (c : Circ) : L.Holds (s.bayEvent c) := by
  have h1 : L.Holds (s.setCircuit c fun r => { r with baseline := s.bayClosed c }) := h.of
  have e1 : ((s.setCircuit c fun r => { r with baseline := s.bayClosed c }).circuit c).state = (s.circuit c).state := by
    rw [setCircuit_circuit]
  unfold State.bayEvent
  dsimp only
  split
  · exact h1
  · rename_i e
    split
    · exact h1.insertion (e1.trans e)
    · exact h1.of
  · rename_i hu hv
    split
    · exact h1
    · exact h1.forcedRemoval (by rw [e1]; exact ⟨hu, hv⟩)

theorem Holds.bayCompare (h : L.Holds s) (c : Circ) : L.Holds (s.bayCompare c) := by
  unfold State.bayCompare
  split
  · exact h
  · exact h.bayEvent c

theorem Holds.bayChanged (h : L.Holds s) (c : Circ) : L.Holds (s.bayChanged c) := by
  unfold State.bayChanged
  dsimp only
  split
  · exact h.of
  · split
    · exact h.bayCompare c
    · exact h

end RecordLaw
end Sys2Proof.Machine
end

