-- ==== Sys2Proof/Proofs/CsetRecords.lean ====
section
/-! PROOF SUPPORT. What a CSET makes of the twins and queues for the store, and that it keeps every law on records. -/

namespace Sys2Proof.Machine

set_option Elab.async false

/-- The twin of circuit d after a change of the twins of circuit c (R2). -/
def State.twinAfter (s : State) (c : Circ) (t : TwinChange) (d : Circ) : Option Circ :=
  if d = c then if t.pair.isSome then t.pair else if t.dissolve then none else (s.circuit c).cfg.twin
  else if t.pair = some d then some c
  else if t.dissolve ∧ (s.circuit c).cfg.twin = some d then none
  else (s.circuit d).cfg.twin

@[simp] theorem Circuit.withTwin_twin (r : Circuit) (n : Option Circ) : (r.withTwin n).cfg.twin = n := rfl
@[simp] theorem Circuit.withTwin_withTwin (r : Circuit) (m n : Option Circ) : (r.withTwin m).withTwin n = r.withTwin n := rfl
@[simp] theorem Circuit.withTwin_self (r : Circuit) : r.withTwin r.cfg.twin = r := rfl

/-- The twins of two circuits are written, that of circuit c last. -/
theorem writeTwins_circuit (s : State) (n c d : Circ) (x y : Option Circ) :
    ((s.setCircuit n fun r => r.withTwin x).setCircuit c fun r => r.withTwin y).circuit d
      = (s.circuit d).withTwin (if d = c then y else if d = n then x else (s.circuit d).cfg.twin) := by
  by_cases hc : d = c
  · subst hc
    by_cases hn : d = n
    · subst hn; simp
    · simp [setCircuit_circuit_ne _ _ hn]
  · rw [setCircuit_circuit_ne _ _ hc]
    by_cases hn : d = n
    · subst hn; simp [hc]
    · simp [setCircuit_circuit_ne _ _ hn, hc, hn]

/-- The pair of circuit c dissolves, where it is to and there is one (R2). -/
def State.dissolveTwin (s : State) (c : Circ) (dissolve : Bool) : State :=
  if dissolve then
    match (s.circuit c).cfg.twin with
    | some n => (s.setCircuit n fun r => r.withTwin none).setCircuit c fun r => r.withTwin none
    | none => s
  else s

theorem changeTwins_none (s : State) (c : Circ) (b : Bool) : s.changeTwins c ⟨b, none⟩ = s.dissolveTwin c b := rfl

theorem changeTwins_some (s : State) (c n : Circ) (b : Bool) : s.changeTwins c ⟨b, some n⟩
    = ((s.dissolveTwin c b).setCircuit n fun r => r.withTwin (some c)).setCircuit c fun r => r.withTwin (some n) := rfl

theorem dissolveTwin_circuit (s : State) (c : Circ) (b : Bool) (d : Circ) :
    (s.dissolveTwin c b).circuit d = (s.circuit d).withTwin (s.twinAfter c ⟨b, none⟩ d) := by
  unfold State.dissolveTwin
  split
  · rename_i hb
    split
    · rename_i n ht
      simp only [writeTwins_circuit, State.twinAfter, ht, hb]
      by_cases hc : d = c <;> by_cases hn : d = n <;> simp [hc, hn, eq_comm]
    · rename_i ht
      have e : s.twinAfter c ⟨b, none⟩ d = (s.circuit d).cfg.twin := by
        by_cases hc : d = c
        · subst hc; simp [State.twinAfter, hb, ht]
        · simp [State.twinAfter, hc, ht]
      rw [e, Circuit.withTwin_self]
  · rename_i hb
    by_cases hc : d = c
    · subst hc; simp [State.twinAfter, hb]
    · simp [State.twinAfter, hc, hb]

/-- A change of the twins writes the twin of each circuit, and nothing else of it. -/
theorem changeTwins_circuit (s : State) (c : Circ) (t : TwinChange) (d : Circ) :
    (s.changeTwins c t).circuit d = (s.circuit d).withTwin (s.twinAfter c t d) := by
  obtain ⟨b, _ | n⟩ := t
  · rw [changeTwins_none, dissolveTwin_circuit]
  · rw [changeTwins_some, writeTwins_circuit, dissolveTwin_circuit, Circuit.withTwin_withTwin]
    by_cases hc : d = c <;> by_cases hn : d = n <;> simp [State.twinAfter, hc, hn, eq_comm]

/-- A change of the twins changes circuits alone. -/
theorem changeTwins_frame (s : State) (c : Circ) (t : TwinChange) :
    s.changeTwins c t = { s with circuits := (s.changeTwins c t).circuits } := by
  unfold State.changeTwins
  dsimp only
  repeat' split
  all_goals rfl

/-- The settings of the circuits listed join the link-write FIFO in their order. -/
theorem foldl_linkWrite (ds : List Circ) (s : State) :
    ds.foldl (fun u d => u.linkWrite (.circuit d (u.circuit d).cfg)) s
      = { s with store := { s.store with fifo := s.store.fifo ++ ds.map fun d => .circuit d (s.circuit d).cfg } } := by
  induction ds generalizing s with
  | nil => simp
  | cons d ds ih =>
    rw [List.foldl_cons, ih]
    simp [State.linkWrite, State.circuit]

/-- The state of a CSET once its settings, twins and link writes stand, and before what follows from them. -/
def State.csetWritten (s : State) (c : Circ) (fs : Fields) (t : TwinChange) : State :=
  let s1 := (s.setCircuit c fun r => r.csetApplied fs).changeTwins c t
  { s1 with store := { s1.store with fifo := s.store.fifo
    ++ (c :: t.partners (s.circuit c).cfg).map fun d => .circuit d (s1.circuit d).cfg } }

theorem csetWritten_eq (s : State) (c : Circ) (fs : Fields) (t : TwinChange) :
    (t.partners (s.circuit c).cfg).foldl (fun u d => u.linkWrite (.circuit d (u.circuit d).cfg))
        (((s.setCircuit c fun r => r.csetApplied fs).changeTwins c t).linkWrite
          (.circuit c (((s.setCircuit c fun r => r.csetApplied fs).changeTwins c t).circuit c).cfg))
      = s.csetWritten c fs t := by
  rw [foldl_linkWrite, State.csetWritten, changeTwins_frame]
  simp [State.linkWrite, State.circuit]

namespace RecordLaw

variable {L : RecordLaw} {s t : State}

/-- With its settings, twins and link writes in place, a CSET keeps the law on every circuit once circuit c is refitted. -/
theorem Holds.csetWritten {c : Circ} {fs : Fields} {t : TwinChange} (h : L.Holds s)
    (hn : fieldWithin fs "nmin" 1 64 = true) : L.Holds ((s.csetWritten c fs t).setCircuit c Circuit.refit) := by
  have hw (d : Circ) : (s.csetWritten c fs t).circuit d = ((s.setCircuit c fun r => r.csetApplied fs).circuit d).withTwin
      ((s.setCircuit c fun r => r.csetApplied fs).twinAfter c t d) := changeTwins_circuit _ c t d
  have hstored (d : Circ) : L.stored ((s.csetWritten c fs t).circuit d).cfg := by
    rw [hw]
    by_cases hd : d = c
    · subst hd; rw [setCircuit_circuit]; exact (L.configures (h.circuits d) hn).1
    · rw [setCircuit_circuit_ne _ _ hd]; exact L.settings (L.twins (h.circuits d))
  have hstore : (s.csetWritten c fs t).store = { s.store with fifo := (s.csetWritten c fs t).store.fifo } := by
    rw [State.csetWritten, changeTwins_frame]; rfl
  have hresult : (s.csetWritten c fs t).calResult = s.calResult := by
    rw [State.csetWritten, changeTwins_frame]; rfl
  refine ⟨fun d => ?_, ⟨?_, fun r hr => ?_, ?_⟩, ?_⟩
  · rw [setCircuit_circuit_eq, hw, hw]
    split
    · rw [setCircuit_circuit]; exact (L.configures (h.circuits c) hn).2
    · rename_i hd; rw [setCircuit_circuit_ne _ _ hd]; exact L.twins (h.circuits d)
  · rw [State.setCircuit_store, hstore]; exact h.stores.nv
  · rcases List.mem_append.mp hr with hr | hr
    · exact h.stores.fifo r hr
    · obtain ⟨d, -, rfl⟩ := List.mem_map.mp hr; exact hstored d
  · rw [State.setCircuit_store, hstore]; exact h.stores.writer
  · rw [State.setCircuit_calResult, hresult]; exact h.result

theorem Holds.calibrationChanged (h : L.Holds s) (c : Circ) (old new : Settings) :
    L.Holds (s.calibrationChanged c old new) :=
  ⟨h.circuits, h.stores, fun q t hq => h.result q t (Option.filter_eq_some_iff.mp hq).1⟩

theorem Holds.purgeIntervalSet (h : L.Holds s) (c : Circ) : L.Holds (s.purgeIntervalSet c) := by
  unfold State.purgeIntervalSet
  dsimp only
  split <;> exact h.of

/-- A change that is made under a condition. -/
theorem Holds.when {p : Prop} [Decidable p] (h : L.Holds s) (ht : L.Holds t) : L.Holds (if p then t else s) := by
  split
  · exact ht
  · exact h

theorem Holds.csetEffect {c : Circ} {fs : Fields} {t : TwinChange} (h : L.Holds s)
    (hn : fieldWithin fs "nmin" 1 64 = true) : L.Holds (s.csetEffect c fs t) := by
  have h3 : L.Holds (((s.csetWritten c fs t).clampLevel c).codeMoves c) := (h.csetWritten hn).of (records_refit _ c)
  unfold State.csetEffect
  dsimp only
  rw [csetWritten_eq]
  generalize ((s.csetWritten c fs t).clampLevel c).codeMoves c = s3 at h3 ⊢
  have h4 := h3.when (p := fs.has "low") (h3.lowEvaluate c)
  have h5 := h4.when (p := fs.has "reserve") (h4.emptyCheckReserve c)
  generalize (if fs.has "reserve" = true then _ else _ : State) = s5 at h5 ⊢
  have h6 := h5.calibrationChanged c (s.circuit c).cfg (s5.circuit c).cfg
  have h7 := h6.when (p := fs.has "purgeint") (h6.purgeIntervalSet c)
  generalize (if fs.has "purgeint" = true then _ else _ : State) = s7 at h7 ⊢
  have h8 := h7.when (p := ((s.circuit c).cfg.stir != .off && (s7.circuit c).cfg.stir == .off) = true) (h7.dropDue c)
  exact h8.when (h8.bayCompare c)

end RecordLaw
end Sys2Proof.Machine
end

