-- ==== Sys2Proof/Proofs/RecordBlocks.lean ====
section
/-! PROOF SUPPORT. The other operations of the blocks, and the end of a step, over the record laws. -/

namespace Sys2Proof.Machine.RecordLaw

set_option Elab.async false

variable {L : RecordLaw} {s t : State}

/-! ### The Circuit Table's requests -/

theorem Holds.trimEffect {v : Int} (h : L.Holds s) (c : Circ) (hv : L.cal v) : L.Holds (s.trimEffect c v) := by
  have hr : L.circ ((s.circuit c).stageTrim v) := L.stages (h.circuits c) hv
  refine (h.setCircuit hr).linkWrite ?_
  rw [setCircuit_circuit]
  exact L.settings hr

theorem Holds.release {c : Circ} (h : L.Holds s) (hs : (s.circuit c).state.inUse) : L.Holds (s.release c) := by
  have h0 : L.Holds (s.setCircuit c fun r => { r with origin := .of r.state }) := h.of
  have h1 : L.Holds ((s.setCircuit c fun r => { r with origin := .of r.state }).moveCircuit c .releasing) :=
    h0.move (by rw [setCircuit_circuit]; exact hs)
  unfold State.release
  dsimp only
  split
  · exact (h1.markDirty c).askTag c _
  · exact h1.releaseEnds (inUse_moveCircuit _ c (by simp [CircuitState.inUse]))

theorem Holds.circuitRestart (h : L.Holds s) (c : Circ) : L.Holds (s.circuitRestart c) := by
  unfold State.circuitRestart
  split
  · exact h.askTag c _
  · exact h.of
  · rename_i e
    have hu : (s.circuit c).state.inUse := by simp [e, CircuitState.inUse]
    split
    · exact h.move hu
    · exact (h.move hu).emptyCheck c
  · exact h

/-! ### The book -/

theorem Holds.endBindings (h : L.Holds s) (n : Nat) : L.Holds (s.endBindings n) := by
  unfold State.endBindings
  split
  · exact h
  · refine Holds.setLine (h.foldl (fun u e hu => ?_) _) n _
    split
    · exact hu.bindingEnded _
    · exact hu

theorem Holds.leaveBook (h : L.Holds s) (n : Nat) (g : LineState) : L.Holds (s.leaveBook n g) := by
  unfold State.leaveBook
  dsimp only
  split
  · exact h.endBindings n
  · exact (h.endBindings n).of rfl

theorem Holds.settleLine (h : L.Holds s) (n : Nat) : L.Holds (s.settleLine n) := by
  unfold State.settleLine
  split
  · exact h
  · split
    · split
      · exact h.leaveBook n _
      · exact h.when (h.leaveBook n _)
      · exact h.leaveBook n _
      · exact h
    · exact h

theorem Holds.countFinished (h : L.Holds s) (n : Nat) (b : Bool) : L.Holds (s.countFinished n b) :=
  (h.setLine n _).settleLine n

theorem Holds.cancelLine (h : L.Holds s) (n : Nat) : L.Holds (s.cancelLine n) := by
  have h1 : L.Holds (s.failAtZ1 n) := h.of
  exact ((h1.setLine n _).endBindings n).settleLine n

theorem Holds.cutLine (h : L.Holds s) (n k : Nat) : L.Holds (s.cutLine n k) := (h.setLine n _).settleLine n

theorem Holds.bookRestart (h : L.Holds s) : L.Holds s.bookRestart :=
  Holds.of (h.foldl (fun _ l hu => hu.endBindings l.number) s.bk.lines) rfl

/-! ### The station -/

theorem Holds.commitPlan (h : L.Holds s) (l : OrderLine) (p : List Judged) : L.Holds (s.commitPlan l p) := by
  refine Holds.setLine (Holds.foldl (fun u x hu => ?_) _ (h.foldl (fun u x hu => hu.of) _)) _ _
  unfold State.commitEnded
  split
  · exact (hu.bindingEnded _).when hu
  · exact hu

theorem Holds.admitTin (h : L.Holds s) (t : Tin) (l : OrderLine) (p : List Judged) : L.Holds (s.admitTin t l p) := by
  have hn (ns : List Note) (u : State) : (ns.foldl (fun u n => u.noteTin t.id n) u).records = u.records :=
    records_foldl _ (fun u n => by simp) _ _
  refine (h.commitPlan l p).of ?_
  unfold State.admitTin
  dsimp only
  split <;> simp [hn]

theorem Holds.judgePlan (h : L.Holds s) (t : Tin) (l : OrderLine) (p : List Judged) : L.Holds (s.judgePlan t l p) := by
  unfold State.judgePlan
  split
  · exact h.of
  · split
    · exact h.setStn _
    · exact h.admitTin t l p

theorem Holds.attempt (h : L.Holds s) : L.Holds s.attempt := by
  unfold State.attempt
  split
  · exact h
  · split
    · exact h.judgePlan _ _ _
    · exact h.setStn _

theorem Holds.attemptLook (h : L.Holds s) : L.Holds s.attemptLook := by
  unfold State.attemptLook
  split
  · exact (h.setStn _).attempt
  · exact h

/-- The trim of a calibration result is clamped (R61). -/
theorem result_trim {q : CalRun} {m t : Int} (h : (q.result m).trim = some t) : ∃ v, t = trimLimit v := by
  unfold CalRun.result at h
  dsimp only at h
  split at h
  · cases h
  · split at h
    · cases h
    · split at h
      · cases h
      · exact ⟨_, (Option.some.inj h).symm⟩

theorem Holds.calFinished (h : L.Holds s) (q : CalRun) (m : Int) : L.Holds (s.calFinished q m) := by
  have h1 : L.Holds { s with calResult := some (q.result m) } := by
    refine ⟨h.circuits, h.stores, fun r t hr ht => ?_⟩
    obtain rfl := Option.some.inj hr
    obtain ⟨v, rfl⟩ := result_trim ht
    exact L.clamped v
  exact (h1.setStn _).setFlag _ _

theorem Holds.calWeighing (h : L.Holds s) (q : CalRun) : L.Holds (s.calWeighing q) := by
  unfold State.calWeighing
  split
  · exact h.calFinished q 0
  · exact (h.setStn _).beginSettle

theorem Holds.handCal (h : L.Holds s) (q : CalRun) : L.Holds (s.handCal q) := by
  unfold State.handCal
  split
  · exact h.of
  · exact h.calWeighing q

theorem Holds.calRunning (h : L.Holds s) (q : CalRun) : L.Holds (s.calRunning q) := by
  unfold State.calRunning
  split
  · exact h.handCal q
  · exact (h.handCal q).when h
  · exact h
  · exact h.calWeighing q

theorem Holds.calPrepared (h : L.Holds s) (q : CalRun) : L.Holds (s.calPrepared q) := by
  unfold State.calPrepared
  split
  · exact h.calWeighing q
  · exact (h.setStn _).calRunning q

theorem Holds.stationLook (h : L.Holds s) : L.Holds s.stationLook := by
  unfold State.stationLook
  split
  · exact h.when h.of
  · exact h.of
  · exact h.when (h.calPrepared _)
  · exact h.calRunning _
  · exact h

theorem Holds.settleEnds (h : L.Holds s) (r : Reading) : L.Holds (s.settleEnds r) := by
  unfold State.settleEnds
  split
  · rename_i e _
    have h1 : L.Holds ((s.reach e).setStn fun t => { t with settle := .off, reading := some r }) := (h.reach e).setStn _
    dsimp only
    split
    · exact h1.setStn _
    · exact h1.setStn _
    · exact h1.of
    · exact h1.calFinished _ _
    · exact h1
  · exact h

theorem Holds.capDecide (h : L.Holds s) : L.Holds s.capDecide := by
  unfold State.capDecide
  split
  · exact h
  · split
    · exact h.when (h.setStn _).abandonPurges
    · exact h.when (h.setStn _)
    · exact h

theorem Holds.beginCal (h : L.Holds s) (c : Circ) (v n : Nat) : L.Holds (s.beginCal c v n) := by
  have h1 : L.Holds { s with calResult := none } := ⟨h.circuits, h.stores, fun _ _ hq => by cases hq⟩
  exact (h1.setStn _).beginSettle

/-! ### The track -/

theorem Holds.retire (h : L.Holds s) (id : Nat) (w : FinishCause) : L.Holds (s.retire id w) := by
  unfold State.retire
  split
  · exact h
  · have h1 : L.Holds (s.liftTin id) := h.of
    dsimp only
    split
    · split
      · exact h1.tellRemoved id
      · exact (((h1.tellRemoved id).setTrack _).countFinished _ _).setFlag _ _
    · exact h1.tellRemoved id

theorem Holds.headTaken (h : L.Holds s) : L.Holds s.headTaken := by
  unfold State.headTaken
  split
  · exact h
  · exact (h.retire _ _).when h

theorem Holds.laneConfirmed (h : L.Holds s) : L.Holds s.laneConfirmed := by
  have h1 : L.Holds s.reconcileLane := by
    unfold State.reconcileLane
    dsimp only
    split
    · exact h.foldl (fun _ id hu => hu.retire id _) _
    · exact h.foldl (fun _ _ hu => hu.of) _
  unfold State.laneConfirmed
  dsimp only
  split
  · exact Holds.setTrack h1.of _
  · exact h1.of

theorem Holds.lostAt (h : L.Holds s) (p : Place) (id : Nat) : L.Holds (s.lostAt p id) := by
  unfold State.lostAt
  exact (h.retire id _).when (h.retire id _).oweAttempt

theorem Holds.clearPlace (h : L.Holds s) (p : Place) (id : Nat) : L.Holds (s.clearPlace p id) := by
  have h1 : L.Holds (((s.retire id .cleared).setUncertain p false).idleHolding p) := (h.retire id .cleared).of
  unfold State.clearPlace
  exact h1.when h1.oweAttempt

/-! ### The store -/

/-- The store takes new work, under a law on it, and keeps its records. -/
theorem Holds.takeWork (h : L.Holds s) {f : List StoreRecord} {w : WriteWork} {e : Nat} {t : Store} (ht : t.nv = s.store.nv)
    (hf : t.fifo = f) (hw : t.writer = some (w, e)) (hs : ∀ r ∈ f, r ∈ s.store.fifo) (hl : L.work w) :
    L.Holds { s with store := t } := by
  refine ⟨h.circuits, ⟨ht ▸ h.stores.nv, hf ▸ fun r hr => h.stores.fifo r (hs r hr), fun v d hv => ?_⟩, h.result⟩
  have := hw.symm.trans hv
  simp only [Option.some.injEq, Prod.mk.injEq] at this
  exact this.1 ▸ hl

theorem Holds.storeTake (h : L.Holds s) : L.Holds s.storeTake := by
  unfold State.storeTake
  split
  · exact h
  · dsimp only
    split
    · exact h.takeWork rfl rfl rfl (fun _ hr => hr) trivial
    · split
      · exact h.takeWork rfl rfl rfl (fun _ hr => hr) trivial
      · split
        · exact h.takeWork rfl rfl rfl (fun _ hr => hr) trivial
        · split
          · rename_i r rest e
            refine h.takeWork rfl rfl rfl (fun x hx => ?_) (h.stores.fifo r ?_) <;> rw [e]
            · exact List.mem_cons_of_mem _ hx
            · exact List.mem_cons_self
          · exact h

theorem Holds.storeWriteEnd (h : L.Holds s) : L.Holds s.storeWriteEnd := by
  unfold State.storeWriteEnd
  split
  · exact h
  · rename_i w e hw
    have hl := h.stores.writer w e hw
    refine Holds.storeTake ⟨h.circuits, ⟨fun c g hg => ?_, h.stores.fifo, fun _ _ hn => by cases hn⟩, h.result⟩
    match w, hl, hg with
    | .link (.circuit d v), hl, hg =>
      simp only [NonVolatile.write, updAt_get_eq] at hg
      split at hg
      · exact Option.some.inj hg ▸ hl
      · exact h.stores.nv c g hg
    | .marker _, _, hg => exact h.stores.nv c g hg
    | .level _ _, _, hg => exact h.stores.nv c g hg
    | .link (.base _ _), _, hg => exact h.stores.nv c g hg
    | .link (.size _ _), _, hg => exact h.stores.nv c g hg
    | .link (.slot _ _), _, hg => exact h.stores.nv c g hg
    | .link (.scheme _), _, hg => exact h.stores.nv c g hg
    | .link (.lidPolicy _), _, hg => exact h.stores.nv c g hg
    | .link (.lidCode _ _), _, hg => exact h.stores.nv c g hg
    | .link (.daily _), _, hg => exact h.stores.nv c g hg

/-! ### The end of a step -/

theorem Holds.handLook (h : L.Holds s) : L.Holds s.handLook := by
  unfold State.handLook
  split
  · unfold State.race
    split
    · exact Holds.stationLook (h.of)
    · split
      · exact Holds.of (Holds.stationLook (s := s.choose) h.of)
      · exact Holds.of h.stationLook
  · exact h.stationLook

theorem Holds.look (h : L.Holds s) : L.Holds s.look := by
  have h1 : L.Holds s.primesLook.handLook := Holds.handLook h.of
  have h2 : L.Holds s.primesLook.handLook.pressLook.mixerChoose.trackLook.attemptLook.capDecide :=
    (Holds.attemptLook h1.of).capDecide
  exact h2.of (by simp [State.look])

theorem Holds.conclude (h : L.Holds s) (b : State) : L.Holds (State.conclude b s) := by
  have h1 : L.Holds (State.loadWanted b s.react).releaseClear := Holds.of h.look.look.look (by simp [State.react])
  exact h1.storeTake.of (by simp [State.conclude])

/-! ### STOP, RESUME and RESTART -/

theorem Holds.stopMachine (h : L.Holds s) : L.Holds s.stopMachine := by
  have hm (u : State) : (mixes.foldl (fun u m => u.mixerStop m) u).records = u.records :=
    records_foldl _ (fun u m => by simp) _ _
  have h1 : L.Holds ({ s with stopped := true }.setFlag .stop []) := h.of rfl
  have h2 : L.Holds (Machine.forCircuits (fun c u => u.pumpStop c) ({ s with stopped := true }.setFlag .stop [])) :=
    h1.forCircuits fun c u hu => hu.pumpStop c
  exact h2.of (by simp [State.stopMachine, hm])

theorem Holds.resumeMachine (h : L.Holds s) : L.Holds s.resumeMachine := by
  have hm (u : State) : (mixes.foldl (fun u m => u.mixerResume m) u).records = u.records :=
    records_foldl _ (fun u m => by simp) _ _
  have h1 : L.Holds { s with stopped := false } := h.of rfl
  have h2 := h1.forCircuits fun c u hu => hu.pumpResume c
  exact h2.of (by simp [State.resumeMachine, hm])

theorem Holds.restartMachine (h : L.Holds s) : L.Holds s.restartMachine := by
  have hm (u : State) : (mixes.foldl (fun u m => u.mixerRestart m) u).records = u.records :=
    records_foldl _ (fun u m => by simp) _ _
  have h1 : L.Holds (Machine.forCircuits (fun c u => u.pumpRestart c) s).bookRestart :=
    (h.forCircuits fun c u hu => hu.pumpRestart c).bookRestart
  have h3 := h1.of (t := mixes.foldl (fun u m => u.mixerRestart m)
    (Machine.forCircuits (fun c u => u.pumpRestart c) s).bookRestart.stationRestart.trackRestart.lidderRestart) (by simp [hm])
  unfold State.restartMachine
  dsimp only
  generalize mixes.foldl _ _ = s3 at h3 ⊢
  have h4 : L.Holds { s3 with tag := s3.tag.restart, calResult := none, lib := { s3.lib with cursor := 1 } } :=
    ⟨h3.circuits, h3.stores, nofun⟩
  exact (h4.forCircuits fun c u hu => hu.circuitRestart c).of

/-! ### Power -/

/-- A damaged record is absent; no record takes settings that it did not have. -/
theorem damage_circuits (nv : NonVolatile) (n : RecordName) (c : Circ) :
    (nv.damage n).circuits[c] = none ∨ (nv.damage n).circuits[c] = nv.circuits[c] := by
  cases n with
  | circuit d =>
    simp only [NonVolatile.damage, updAt_get_eq]
    split
    · exact .inl rfl
    · exact .inr rfl
  | _ => exact .inr rfl

/-- The store as power-on reads it keeps the law on its settings (R43). -/
theorem read_stored {nv : NonVolatile} (h : ∀ (c : Circ) (g : Settings), nv.circuits[c] = some g → L.stored g)
    (damaged : List RecordName) (c : Circ) (g : Settings) (hg : (nv.read damaged).circuits[c] = some g) : L.stored g := by
  have hd : ∀ g, (damaged.foldl NonVolatile.damage nv).circuits[c] = some g → L.stored g := by
    clear hg
    induction damaged generalizing nv with
    | nil => exact h c
    | cons n ns ih =>
      refine ih fun d x hx => ?_
      rcases damage_circuits nv n d with e | e
      · rw [e] at hx; cases hx
      · rw [e] at hx; exact h d x hx
  unfold NonVolatile.read at hg
  dsimp only at hg
  split at hg <;> exact hd g hg

theorem Holds.powerOn (h : L.Holds s) (damaged : List RecordName) : L.Holds (s.powerOn damaged) := by
  have hnv := read_stored h.stores.nv damaged
  have h0 : L.Holds (s.fromStore (s.store.nv.read damaged) damaged.eraseDups.length) := by
    refine ⟨fun c => ?_, ⟨hnv, nofun, nofun⟩, nofun⟩
    have e : (s.fromStore (s.store.nv.read damaged) damaged.eraseDups.length).circuit c
        = (s.store.nv.read damaged).circuit s.inp.bays[c] s.now c := by
      simp [State.circuit, State.fromStore]
    rw [e]
    exact L.boots _ _ (hnv c)
  have hm (u : State) : (mixes.foldl (fun u m => u.mixerPower m) u).records = u.records :=
    records_foldl _ (fun u m => by simp) _ _
  refine h0.of ?_
  unfold State.powerOn
  dsimp only
  rw [records_forCircuits _ (fun c u => by simp), records_forCircuits _ (fun c u => by split <;> simp), hm]
  simp

theorem Holds.powerLost (h : L.Holds s) : L.Holds s.powerLost := by
  refine ⟨fun c => ?_, ⟨h.stores.nv, nofun, nofun⟩, nofun⟩
  have e : s.powerLost.circuit c = Circuit.reset := by simp [State.circuit, State.powerLost, State.reset]
  rw [e]
  exact L.unset

end Sys2Proof.Machine.RecordLaw
end

