-- ==== Sys2Proof/Proofs/RecordRequests.lean ====
section
/-! PROOF SUPPORT. The requests, the events and the step over the record laws. -/

namespace Sys2Proof.Machine

set_option Elab.async false

/-- A law on records outlives an answer that is given in state s: its change keeps the law in every state with the records
of s. -/
def Answer.Keeps (L : RecordLaw) (s : State) : Answer → Prop
  | .accept _ f => ∀ u : State, u.records = s.records → L.Holds u → L.Holds (f u)
  | _ => True

variable {L : RecordLaw} {s t : State} {fs : Fields}

/-! ### The checks of a request -/

@[simp] theorem Answer.keeps_refuse (r : Reason) : (Answer.refuse r).Keeps L s := trivial
@[simp] theorem Answer.keeps_report (items : List Item) : (Answer.report items).Keeps L s := trivial

@[simp] theorem Answer.keeps_accept (items : List Item) (f : State → State) : (Answer.accept items f).Keeps L s ↔
    ∀ u : State, u.records = s.records → L.Holds u → L.Holds (f u) := Iff.rfl

@[simp] theorem Answer.keeps_check (b : Bool) (r : Reason) (a : Answer) :
    (Answer.check b r a).Keeps L s ↔ (b = false → a.Keeps L s) := by
  cases b <;> simp

@[simp] theorem Answer.keeps_unless (r : Option Reason) (a : Answer) :
    (Answer.unless r a).Keeps L s ↔ (r = none → a.Keeps L s) := by
  cases r <;> simp

/-- A change that leaves the records. -/
theorem Answer.keeps_of_records (items : List Item) {f : State → State} (h : ∀ u, (f u).records = u.records) :
    (Answer.accept items f).Keeps L s := fun u _ hu => hu.of (h u)

/-- A change that keeps the law in every state. -/
theorem Answer.keeps_of_holds (items : List Item) {f : State → State} (h : ∀ u, L.Holds u → L.Holds (f u)) :
    (Answer.accept items f).Keeps L s := fun u _ => h u

theorem Answer.keeps_withLine {allowed numeric : List String} {next : Nat → OrderLine → Answer}
    (h : ∀ n l, (next n l).Keeps L s) : (s.withLine fs allowed numeric next).Keeps L s := by
  simp only [State.withLine, Answer.keeps_check]
  intro _ _
  split
  · trivial
  · exact h _ _

theorem Answer.keeps_careRequest {next : Circ → Answer} (h : ∀ c, (next c).Keeps L s) :
    (s.careRequest fs next).Keeps L s := by
  simp only [State.careRequest, Answer.keeps_check]
  intro _
  split
  · trivial
  · simp [h]

/-! ### The Circuit Table -/

theorem keeps_cset (fs : Fields) (s : State) : (csetAnswer fs s).Keeps L s := by
  simp only [csetAnswer, Answer.keeps_check]
  intro _
  split
  · trivial
  · simp only [Answer.keeps_check, Bool.or_eq_false_iff]
    intro ho
    split
    · trivial
    · have hn : fieldWithin fs "nmin" 1 64 = true := by
        have := ho.1
        simp only [csetOutside, Bool.or_eq_false_iff, Bool.not_eq_false'] at this
        simp only [this]
      simp only [Answer.keeps_check]
      exact fun _ _ => Answer.keeps_of_holds _ fun u hu => hu.csetEffect hn

theorem keeps_trim (fs : Fields) (s : State) : (trimAnswer fs s).Keeps L s := by
  simp only [trimAnswer, Answer.keeps_check]
  intro _
  split
  · trivial
  · split
    · trivial
    · simp only [Answer.keeps_check]
      exact fun _ _ => Answer.keeps_of_holds _ fun u hu => hu.trimEffect _ (L.clamped _)

theorem keeps_canout (fs : Fields) (s : State) : (canoutAnswer fs s).Keeps L s := by
  have hr {c : Circ} (hc : (s.circuit c).state.inUse) :
      (Answer.check (s.pump c).activity.isSome .busy (.accept [] fun u => u.release c)).Keeps L s :=
    (Answer.keeps_check _ _ _).mpr fun _ u e hu => hu.release (inUse_of_records hc e)
  simp only [canoutAnswer, Answer.keeps_check]
  intro _
  split
  · trivial
  · split
    · trivial
    · trivial
    · trivial
    · trivial
    · rename_i e
      exact fun u eu hu => hu.openLatch (by rw [state_of_records eu, e])
    all_goals
      rename_i e
      exact hr (by simp [e, CircuitState.inUse])

theorem keeps_caltake (h : L.Holds s) (fs : Fields) : (caltakeAnswer fs s).Keeps L s := by
  simp only [caltakeAnswer, Answer.keeps_check]
  intro _
  split
  · trivial
  · rename_i q hq
    split
    · trivial
    · rename_i t ht
      simp only [Answer.keeps_check]
      exact fun _ => Answer.keeps_of_holds _ fun u hu => hu.trimEffect _ (h.result q t hq ht)

/-! ### The library, the Lidder and the settings of the line -/

/-- A change outside the records, with a link write that carries no circuit's settings. -/
theorem RecordLaw.Holds.writes {r : StoreRecord} (h : L.Holds s) (e : t.records = s.records) (hr : L.record r := by trivial) :
    L.Holds (t.linkWrite r) := (h.of e).linkWrite hr

theorem keeps_bset (fs : Fields) (s : State) : (bsetAnswer fs s).Keeps L s := by
  simp only [bsetAnswer, Answer.keeps_check]
  intro _
  split
  · trivial
  · simp only [Answer.keeps_check]
    exact fun _ _ _ _ => Answer.keeps_of_holds _ fun u hu => hu.writes rfl

theorem keeps_bdel (fs : Fields) (s : State) : (bdelAnswer fs s).Keeps L s := by
  simp only [bdelAnswer, Answer.keeps_check]
  intro _
  split
  · trivial
  · split
    · trivial
    · simp only [Answer.keeps_check]
      exact fun _ _ => Answer.keeps_of_holds _ fun u hu => hu.writes rfl

theorem keeps_sset (fs : Fields) (s : State) : (ssetAnswer fs s).Keeps L s := by
  simp only [ssetAnswer, Answer.keeps_check]
  intro _
  split
  · trivial
  · simp only [Answer.keeps_check]
    exact fun _ _ _ _ => Answer.keeps_of_holds _ fun u hu => hu.writes rfl

theorem keeps_sdel (fs : Fields) (s : State) : (sdelAnswer fs s).Keeps L s := by
  simp only [sdelAnswer, Answer.keeps_check]
  intro _
  split
  · trivial
  · split
    · trivial
    · simp only [Answer.keeps_check]
      exact fun _ _ => Answer.keeps_of_holds _ fun u hu => hu.writes rfl

theorem keeps_fstore (fs : Fields) (s : State) : (fstoreAnswer fs s).Keeps L s := by
  simp only [fstoreAnswer, Answer.keeps_check, Answer.keeps_unless]
  exact fun _ _ _ _ _ => Answer.keeps_of_holds _ fun u hu => hu.writes rfl

theorem keeps_ferase (fs : Fields) (s : State) : (feraseAnswer fs s).Keeps L s := by
  simp only [feraseAnswer, Answer.keeps_check]
  exact fun _ _ _ _ _ => Answer.keeps_of_holds _ fun u hu => hu.writes rfl

theorem keeps_fnext (fs : Fields) (s : State) : (fnextAnswer fs s).Keeps L s := by
  simp only [fnextAnswer, Answer.keeps_check]
  intro _ _
  split <;> exact Answer.keeps_of_records _ fun u => by simp

theorem RecordLaw.Holds.lidsEffect (h : L.Holds s) (m : Fin 3) (code : Option (Fin 3)) (count : Option Nat) :
    L.Holds (s.lidsEffect m code count) := by
  have h1 : L.Holds (s.putMagazine m code count) := h.of
  unfold State.lidsEffect
  split
  · rename_i k
    split
    · exact h1
    · have h2 : L.Holds ((s.putMagazine m (some k) count).linkWrite (.lidCode m k)) := h1.linkWrite trivial
      exact h2.of
  · exact h1

theorem keeps_lids (fs : Fields) (s : State) : (lidsAnswer fs s).Keeps L s := by
  simp only [lidsAnswer, Answer.keeps_check]
  intro _
  split
  · trivial
  · simp only [Answer.keeps_check]
    intro _ _
    split
    · trivial
    · exact Answer.keeps_of_holds _ fun u hu => hu.lidsEffect _ _ _

theorem RecordLaw.Holds.setPolicy (h : L.Holds s) (p : LidPolicy) : L.Holds (s.setPolicy p) := by
  have h1 : L.Holds ((s.setLid fun l => { l with policy := p }).linkWrite (.lidPolicy p)) := h.writes (by simp)
  exact h1.of (records_lidSearch _)

theorem keeps_lidpol (fs : Fields) (s : State) : (lidpolAnswer fs s).Keeps L s := by
  simp only [lidpolAnswer, Answer.keeps_check]
  intro _
  split
  · trivial
  · split
    · trivial
    · simp only [Answer.keeps_check]
      refine fun _ => Answer.keeps_of_holds _ fun u hu => ?_
      split
      · exact hu
      · exact hu.setPolicy _

theorem keeps_scheme (fs : Fields) (s : State) : (schemeAnswer fs s).Keeps L s := by
  simp only [schemeAnswer, Answer.keeps_check]
  intro _
  split
  · trivial
  · split
    · trivial
    · simp only [Answer.keeps_check]
      exact fun _ => Answer.keeps_of_holds _ fun u hu => hu.writes rfl

theorem keeps_time (fs : Fields) (s : State) : (timeAnswer fs s).Keeps L s := by
  simp only [timeAnswer, Answer.keeps_check]
  intro _ _
  split
  · exact Answer.keeps_of_records _ fun u => by simp
  · trivial

theorem keeps_stirday (fs : Fields) (s : State) : (stirdayAnswer fs s).Keeps L s := by
  simp only [stirdayAnswer, Answer.keeps_check]
  intro _ _
  split
  · simp only [Answer.keeps_check]
    exact fun _ => Answer.keeps_of_holds _ fun u hu => hu.writes (by simp)
  · trivial

theorem keeps_purge (fs : Fields) (s : State) : (purgeAnswer fs s).Keeps L s :=
  Answer.keeps_careRequest fun c => Answer.keeps_of_records _ fun u => by simp

theorem keeps_stir (fs : Fields) (s : State) : (stirAnswer fs s).Keeps L s := by
  refine Answer.keeps_careRequest fun c => ?_
  split
  · exact Answer.keeps_of_records _ fun u => rfl
  · split
    · exact Answer.keeps_of_records _ fun u => rfl
    · exact Answer.keeps_of_records _ fun u => by simp

/-! ### The book -/

theorem keeps_order (fs : Fields) (s : State) : (orderAnswer fs s).Keeps L s := by
  simp only [orderAnswer, Answer.keeps_check]
  intro _ _
  split
  · simp only [Answer.keeps_check, Answer.keeps_unless]
    exact fun _ _ _ => Answer.keeps_of_records _ fun u => by simp
  · trivial

theorem keeps_hold (fs : Fields) (s : State) : (holdAnswer fs s).Keeps L s := by
  refine Answer.keeps_withLine fun n l => ?_
  split
  · exact Answer.keeps_of_records _ fun u => by simp
  · exact Answer.keeps_of_records _ fun u => by simp
  · exact Answer.keeps_of_records _ fun u => by simp
  · exact Answer.keeps_of_records _ fun u => by split <;> simp
  · trivial
  · trivial

theorem keeps_go (fs : Fields) (s : State) : (goAnswer fs s).Keeps L s :=
  Answer.keeps_withLine fun n l => (Answer.keeps_check _ _ _).mpr fun _ =>
    Answer.keeps_of_records _ fun u => by simp

theorem keeps_cancel (fs : Fields) (s : State) : (cancelAnswer fs s).Keeps L s := by
  refine (Answer.keeps_check _ _ _).mpr fun _ => Answer.keeps_withLine fun n l => ?_
  split
  · simp only [cancelAfterTaken, Answer.keeps_check]
    intro _ _
    split
    · exact Answer.keeps_of_records _ fun u => rfl
    · exact Answer.keeps_of_holds _ fun u hu => hu.cutLine n _
  · simp only [cancelTaken, Answer.keeps_check]
    exact fun _ => Answer.keeps_of_holds _ fun u hu => hu.cancelLine n

/-! ### The station -/

theorem keeps_scale (fs : Fields) (s : State) : (scaleAnswer fs s).Keeps L s := by
  simp only [scaleAnswer, Answer.keeps_check]
  intro _
  split
  · trivial
  · split
    · trivial
    · simp only [Answer.keeps_check]
      exact fun _ => Answer.keeps_of_records _ fun u => by split <;> simp

theorem keeps_calrun (fs : Fields) (s : State) : (calrunAnswer fs s).Keeps L s := by
  simp only [calrunAnswer, Answer.keeps_check]
  intro _
  split
  · trivial
  · simp only [Answer.keeps_check]
    exact fun _ _ _ _ _ => Answer.keeps_of_holds _ fun u hu => hu.beginCal _ _ _

/-! ### The track -/

theorem keeps_loaded (fs : Fields) (s : State) : (loadedAnswer fs s).Keeps L s := by
  simp only [loadedAnswer, Answer.keeps_check]
  intro _ _ _
  split
  · trivial
  · simp only [Answer.keeps_check]
    exact fun _ => Answer.keeps_of_records _ fun u => by simp

theorem keeps_confirmJam (s : State) (j : JamPair) : (s.confirmJam j).Keeps L s := by
  unfold State.confirmJam
  dsimp only
  split
  · exact Answer.keeps_of_records _ fun u => by simp
  · exact Answer.keeps_of_records _ fun u => by simp
  · exact Answer.keeps_of_holds _ fun u hu => RecordLaw.Holds.retire (hu.of) _ _
  · trivial

theorem keeps_confirmUncertain (s : State) (p : Place) : (s.confirmUncertain p).Keeps L s := by
  unfold State.confirmUncertain
  split
  · exact Answer.keeps_of_records _ fun u => by simp
  · split
    · exact Answer.keeps_of_records _ fun u => by split <;> simp
    · exact Answer.keeps_of_holds _ fun u hu => (hu.retire _ .lost).of (records_certain _ p)

theorem keeps_confirmZone (s : State) (p : Place) : (s.confirmZone p).Keeps L s := by
  unfold State.confirmZone
  split
  · split
    · exact Answer.keeps_of_records _ fun u => rfl
    · split
      · exact Answer.keeps_of_records _ fun u => rfl
      · exact Answer.keeps_of_records _ fun u => by simp
  · simp only [Answer.keeps_check]
    intro _
    split
    · exact Answer.keeps_of_records _ fun u => rfl
    · exact Answer.keeps_of_holds _ fun u hu => hu.lostAt _ _

theorem keeps_confirmPlace (s : State) (p : Place) : (s.confirmPlace p).Keeps L s := by
  simp only [State.confirmPlace, Answer.keeps_check]
  intro _
  split
  · exact keeps_confirmJam s _
  · split
    · exact keeps_confirmUncertain s p
    · exact keeps_confirmZone s p

theorem keeps_confirmLane (s : State) : s.confirmLane.Keeps L s := by
  simp only [State.confirmLane, Answer.keeps_check]
  intro _
  split
  · exact keeps_confirmJam s _
  · exact Answer.keeps_of_holds _ fun u hu => hu.laneConfirmed

theorem keeps_confirm (fs : Fields) (s : State) : (confirmAnswer fs s).Keeps L s := by
  simp only [confirmAnswer, Answer.keeps_check]
  intro _
  split
  · trivial
  · exact keeps_confirmLane s
  · exact keeps_confirmPlace s _

theorem keeps_clear (fs : Fields) (s : State) : (clearAnswer fs s).Keeps L s := by
  simp only [clearAnswer, Answer.keeps_check]
  intro _
  split
  · trivial
  · trivial
  · simp only [Answer.keeps_check]
    intro _
    split
    · trivial
    · simp only [Answer.keeps_check]
      exact fun _ _ => Answer.keeps_of_holds _ fun u hu => hu.clearPlace _ _

/-! ### The Counter Link, and the requests that report -/

theorem keeps_fclear (fs : Fields) (s : State) : (fclearAnswer fs s).Keeps L s := by
  have hc (p : Flag → Bool) : (s.fclear p).Keeps L s := Answer.keeps_of_records _ fun u => rfl
  simp only [fclearAnswer, Answer.keeps_check]
  intro _
  split
  · simp only [fclearFlag, Answer.keeps_check]
    exact fun _ _ => hc _
  · simp only [Answer.keeps_check]
    exact fun _ _ => hc _
  · trivial

theorem keeps_notice (fs : Fields) (s : State) : (noticeAnswer fs s).Keeps L s := by
  simp only [noticeAnswer, Answer.keeps_check]
  intro _ _
  split
  · trivial
  · exact Answer.keeps_of_records _ fun u => rfl

theorem keeps_resume (fs : Fields) (s : State) : (resumeAnswer fs s).Keeps L s := by
  simp only [resumeAnswer, Answer.keeps_check]
  exact fun _ _ _ => Answer.keeps_of_holds _ fun u hu => hu.resumeMachine

theorem keeps_restart (fs : Fields) (s : State) : (restartAnswer fs s).Keeps L s := by
  simp only [restartAnswer, Answer.keeps_check]
  exact fun _ => Answer.keeps_of_holds _ fun u hu => hu.restartMachine

/-- The answer changes nothing. -/
def Answer.Reports : Answer → Prop
  | .accept _ _ => False
  | _ => True

@[simp] theorem Answer.reports_refuse (r : Reason) : (Answer.refuse r).Reports := trivial
@[simp] theorem Answer.reports_report (items : List Item) : (Answer.report items).Reports := trivial

@[simp] theorem Answer.reports_check (b : Bool) (r : Reason) (a : Answer) :
    (Answer.check b r a).Reports ↔ (b = false → a.Reports) := by
  cases b <;> simp

theorem Answer.Reports.keeps {a : Answer} (h : a.Reports) : a.Keeps L s := by
  cases a with
  | accept => exact h.elim
  | _ => trivial

/-- The answers of the requests that only report. -/
def reportAnswers : List (Fields → State → Answer) :=
  [creadAnswer, breadAnswer, sreadAnswer, freadAnswer, nvstatAnswer, previewAnswer, wantedAnswer, lreadAnswer, bookAnswer,
    pumpAnswer, calreadAnswer, stationAnswer, zonesAnswer, treadAnswer, flistAnswer, lidderAnswer, mixersAnswer,
    tagbusAnswer, tagAnswer, careAnswer, flagsAnswer, stateAnswer]

theorem reports_of_mem : ∀ a ∈ reportAnswers, ∀ fs s, (a fs s).Reports := by
  simp only [reportAnswers, List.forall_mem_cons, List.not_mem_nil, false_imp_iff, implies_true, and_true]
  refine ⟨?_, ?_, ?_, ?_, ?_, ?_, ?_, ?_, ?_, ?_, ?_, ?_, ?_, ?_, ?_, ?_, ?_, ?_, ?_, ?_, ?_, ?_⟩
  all_goals
    intro fs s
    simp only [creadAnswer, breadAnswer, sreadAnswer, freadAnswer, nvstatAnswer, previewAnswer, wantedAnswer, lreadAnswer,
      bookAnswer, pumpAnswer, calreadAnswer, stationAnswer, zonesAnswer, treadAnswer, flistAnswer, lidderAnswer,
      mixersAnswer, tagbusAnswer, tagAnswer, careAnswer, flagsAnswer, stateAnswer, State.withLine, Answer.reports_check]
    intros
    repeat' split
    all_goals simp only [Answer.reports_refuse, Answer.reports_report, Answer.reports_check, implies_true]

theorem keeps_report {a : Fields → State → Answer} (fs : Fields) (s : State) (h : a ∈ reportAnswers := by simp [reportAnswers]) :
    (a fs s).Keeps L s := (reports_of_mem a h fs s).keeps

/-! ### Taking a request -/

/-- Every request keeps the law. -/
theorem keeps_verb (h : L.Holds s) (fs : Fields) : ∀ x ∈ verbTable, (x.2 fs s).Keeps L s := by
  simp only [verbTable, List.forall_mem_append, List.forall_mem_cons, List.not_mem_nil, false_imp_iff, implies_true,
    and_true]
  refine ⟨⟨⟨⟨keeps_cset _ _, keeps_trim _ _, keeps_canout _ _, ?_, keeps_bset _ _, ?_, keeps_bdel _ _, keeps_sset _ _, ?_,
      keeps_sdel _ _, keeps_fstore _ _, ?_, keeps_fnext _ _, keeps_ferase _ _⟩,
    ?_, ?_, keeps_order _ _, keeps_hold _ _, keeps_go _ _, keeps_cancel _ _, ?_, ?_, ?_, keeps_scheme _ _, ?_,
      keeps_scale _ _, keeps_calrun _ _, keeps_caltake h _, ?_, ?_⟩,
    keeps_loaded _ _, keeps_confirm _ _, keeps_clear _ _, ?_, ?_, ?_, keeps_lids _ _, keeps_lidpol _ _, ?_, ?_, ?_, ?_,
      keeps_time _ _, keeps_stirday _ _, keeps_purge _ _, keeps_stir _ _, ?_⟩,
    keeps_fclear _ _, keeps_notice _ _, ?_, keeps_resume _ _, keeps_restart _ _, ?_⟩
  all_goals exact keeps_report fs s

theorem keeps_message (h : L.Holds s) (chars : List RxChar) : (messageAnswer chars s).Keeps L s := by
  unfold messageAnswer
  dsimp only
  split
  · trivial
  · split
    · trivial
    · split
      · trivial
      · split
        · trivial
        · split
          · trivial
          · split
            · trivial
            · rename_i e
              exact keeps_verb h _ _ (List.mem_of_find?_eq_some e)

namespace RecordLaw

theorem Holds.give {a : Answer} (h : L.Holds s) (p : Bool) (ha : a.Keeps L s) : L.Holds (s.give p a) := by
  cases a with
  | refuse r => exact h.pushReply p _
  | report items => exact h.pushReply p _
  | accept items f => exact (ha _ (by simp) (h.pushReply p _)).conclude s

theorem Holds.takeEntry (h : L.Holds s) : L.Holds s.takeEntry := by
  unfold State.takeEntry
  split
  · rename_i k chars _
    have h1 : L.Holds (s.setInputs fun es => es.set k .answered) := h.of
    exact h1.give true (keeps_message h1 _)
  · exact h.of
  · exact h

theorem Holds.takeEntries (h : L.Holds s) : L.Holds s.takeEntries := h.takeEntry.takeEntry.takeEntry.takeEntry

theorem Holds.received (h : L.Holds s) (chars : List RxChar) : L.Holds (s.received chars) := by
  unfold State.received
  split
  · exact Holds.takeEntries h.of
  · exact h

theorem Holds.lineSent (h : L.Holds s) : L.Holds s.lineSent := by
  unfold State.lineSent
  split
  · exact h
  · exact Holds.takeEntries (h.of rfl)
  · exact h.of rfl

/-! ### The commands -/

/-- What a command leaves keeps the law. -/
def Outlives (L : RecordLaw) (o : Host.Outcome State Fault Refusal) : Prop := ∀ t, o = .next t → L.Holds t

theorem outlives_next (h : L.Holds t) : L.Outlives (.next t) := by
  rintro u ⟨⟩
  exact h

theorem Holds.powered {f : State → State} (h : L.Holds s) (hf : L.Holds (f s)) : L.Outlives (whenPowered f s) :=
  outlives_next (h.when hf)

theorem Holds.event {f : State → State} (h : L.Holds s) (hf : L.Holds (f s)) : L.Outlives (event f s) :=
  h.powered (hf.conclude s)

theorem Holds.quietEvent {f : State → State} (h : L.Holds s) (hf : (f s).records = s.records := by simp) :
    L.Outlives (Machine.event f s) := h.event (h.of hf)

theorem Holds.inputEvent {f : State → State} {g : Inputs → Inputs} (h : L.Holds s)
    (hf : L.Holds { s with inp := g s.inp } → L.Holds (f { s with inp := g s.inp })) : L.Outlives (inputEvent g f s) := by
  have h1 : L.Holds { s with inp := g s.inp } := h.of rfl
  exact outlives_next (h1.when ((hf h1).conclude _))

theorem Holds.quietInput {f : State → State} {g : Inputs → Inputs} (h : L.Holds s)
    (hf : ∀ u, (f u).records = u.records := by simp) : L.Outlives (Machine.inputEvent g f s) :=
  h.inputEvent fun h1 => h1.of (hf _)

theorem Holds.request {a : State → Answer} (h : L.Holds s) (ha : (a s).Keeps L s) : L.Outlives (request a s) :=
  h.powered (h.give false ha)

theorem Holds.sensed (h : L.Holds s) (was : Bool) (x : SensorChange) : L.Holds (State.sensed was x s) := by
  unfold State.sensed
  split
  · exact h.of
  · exact h.when h.headTaken
  · exact h

/-- Every command keeps the law. -/
theorem Holds.exec (h : L.Holds s) (i : Instr) : L.Outlives (exec i s) := by
  cases i with
  | powerOn d => exact show L.Outlives (execPowerOn d s) from outlives_next ((h.powerOn d).conclude s)
  | powerLoss => exact show L.Outlives (execPowerLoss s) from h.powered (f := State.powerLost) h.powerLost
  | stopInputActive => exact show L.Outlives (execStopInputActive s) from h.inputEvent fun h1 => h1.stopMachine
  | stopInputReleased => exact show L.Outlives (execStopInputReleased s) from outlives_next (by dsimp only [id]; rw [ite_self]; exact h.of rfl)
  | baySwitchChange c closed => exact show L.Outlives (execBaySwitchChange c closed s) from h.inputEvent fun h1 => h1.bayChanged c
  | frameStart => exact show L.Outlives (execFrameStart s) from h.powered h.of
  | slot => exact show L.Outlives (execSlot s) from h.powered h.of
  | burstComplete c => exact show L.Outlives (execBurstComplete c s) from h.event (h.burstComplete c)
  | burstStall c => exact show L.Outlives (execBurstStall c s) from h.event (h.burstStall c)
  | burstTimeout c => exact show L.Outlives (execBurstTimeout c s) from h.event (h.burstTimeout c)
  | storeWriteEnd => exact show L.Outlives (execStoreWriteEnd s) from h.powered h.storeWriteEnd
  | capMotionEnd => exact show L.Outlives (execCapMotionEnd s) from h.quietEvent
  | closingDelayExpiry => exact show L.Outlives (execClosingDelayExpiry s) from h.quietEvent
  | settleEnd reading => exact show L.Outlives (execSettleEnd reading s) from h.inputEvent fun h1 => h1.settleEnds reading
  | arrival dest marks => exact show L.Outlives (execArrival dest marks s) from h.quietInput
  | jam dest => exact show L.Outlives (execJam dest s) from h.quietEvent
  | zoneDisagreement zone tin => exact show L.Outlives (execZoneDisagreement zone tin s) from h.quietInput
  | cradleDisagreement m tin => exact show L.Outlives (execCradleDisagreement m tin s) from h.quietInput
  | headTaken => exact show L.Outlives (execHeadTaken s) from h.inputEvent fun h1 => h1.headTaken
  | placeSensorChange x => exact show L.Outlives (execPlaceSensorChange x s) from h.inputEvent fun h1 => h1.sensed _ x
  | pressCycleEnd seated => exact show L.Outlives (execPressCycleEnd seated s) from h.quietInput
  | guardOpen => exact show L.Outlives (execGuardOpen s) from h.quietInput
  | guardClose => exact show L.Outlives (execGuardClose s) from h.quietInput
  | lidSensorChange m lids => exact show L.Outlives (execLidSensorChange m lids s) from h.quietInput fun u => by split <;> simp
  | doorOpen m => exact show L.Outlives (execDoorOpen m s) from h.quietInput
  | doorClose m => exact show L.Outlives (execDoorClose m s) from h.quietInput
  | clampEnd m => exact show L.Outlives (execClampEnd m s) from h.quietEvent
  | mixEnd m => exact show L.Outlives (execMixEnd m s) from h.quietEvent
  | brakeEnd m => exact show L.Outlives (execBrakeEnd m s) from h.quietEvent
  | unclampEnd m => exact show L.Outlives (execUnclampEnd m s) from h.quietEvent
  | stirEnd c => exact show L.Outlives (execStirEnd c s) from h.quietEvent
  | stirBoundary => exact show L.Outlives (execStirBoundary s) from h.quietEvent
  | siteMinute => exact show L.Outlives (execSiteMinute s) from h.quietEvent
  | purgeIntervalElapsed c => exact show L.Outlives (execPurgeIntervalElapsed c s) from h.quietEvent
  | startConditionSeen => exact show L.Outlives (execStartConditionSeen s) from h.quietEvent
  | stopConditionSeen => exact show L.Outlives (execStopConditionSeen s) from h.quietEvent
  | busLinesHigh => exact show L.Outlives (execBusLinesHigh s) from h.quietEvent
  | taken => exact show L.Outlives (execTaken s) from h.quietEvent
  | addrAck => exact show L.Outlives (execAddrAck s) from h.event h.addressAcked
  | addrNak => exact show L.Outlives (execAddrNak s) from h.event h.addressNaked
  | byteAck data => exact show L.Outlives (execByteAck data s) from h.quietEvent
  | byteNak => exact show L.Outlives (execByteNak s) from h.event h.byteNaked
  | lost => exact show L.Outlives (execLost s) from h.event h.arbitrationLost
  | lineError => exact show L.Outlives (execLineError s) from h.event h.lineBroken
  | stopSent => exact show L.Outlives (execStopSent s) from h.event h.stopEnded
  | pollInterval => exact show L.Outlives (execPollInterval s) from h.quietEvent
  | tagWriteTimeout => exact show L.Outlives (execTagWriteTimeout s) from h.event h.pollTimeout
  | busWait => exact show L.Outlives (execBusWait s) from h.event h.busWaited
  | messageFirstCharacter => exact show L.Outlives (execMessageFirstCharacter s) from h.powered h.of
  | messageDiscarded => exact show L.Outlives (execMessageDiscarded s) from h.powered h.of
  | messageReceived chars => exact show L.Outlives (execMessageReceived chars s) from h.powered (h.received chars)
  | lineSent => exact show L.Outlives (execLineSent s) from h.powered h.lineSent
  | cset fs => exact show L.Outlives (execCset fs s) from h.request (keeps_cset fs s)
  | trim fs => exact show L.Outlives (execTrim fs s) from h.request (keeps_trim fs s)
  | canout fs => exact show L.Outlives (execCanout fs s) from h.request (keeps_canout fs s)
  | cread fs => exact show L.Outlives (execCread fs s) from h.request (keeps_report fs s)
  | bset fs => exact show L.Outlives (execBset fs s) from h.request (keeps_bset fs s)
  | bread fs => exact show L.Outlives (execBread fs s) from h.request (keeps_report fs s)
  | bdel fs => exact show L.Outlives (execBdel fs s) from h.request (keeps_bdel fs s)
  | sset fs => exact show L.Outlives (execSset fs s) from h.request (keeps_sset fs s)
  | sread fs => exact show L.Outlives (execSread fs s) from h.request (keeps_report fs s)
  | sdel fs => exact show L.Outlives (execSdel fs s) from h.request (keeps_sdel fs s)
  | fstore fs => exact show L.Outlives (execFstore fs s) from h.request (keeps_fstore fs s)
  | fread fs => exact show L.Outlives (execFread fs s) from h.request (keeps_report fs s)
  | fnext fs => exact show L.Outlives (execFnext fs s) from h.request (keeps_fnext fs s)
  | ferase fs => exact show L.Outlives (execFerase fs s) from h.request (keeps_ferase fs s)
  | nvstat fs => exact show L.Outlives (execNvstat fs s) from h.request (keeps_report fs s)
  | preview fs => exact show L.Outlives (execPreview fs s) from h.request (keeps_report fs s)
  | order fs => exact show L.Outlives (execOrder fs s) from h.request (keeps_order fs s)
  | hold fs => exact show L.Outlives (execHold fs s) from h.request (keeps_hold fs s)
  | go fs => exact show L.Outlives (execGo fs s) from h.request (keeps_go fs s)
  | cancel fs => exact show L.Outlives (execCancel fs s) from h.request (keeps_cancel fs s)
  | cancelAfter fs => exact show L.Outlives (execCancelAfter fs s) from h.request (keeps_cancel fs s)
  | wanted fs => exact show L.Outlives (execWanted fs s) from h.request (keeps_report fs s)
  | lread fs => exact show L.Outlives (execLread fs s) from h.request (keeps_report fs s)
  | book fs => exact show L.Outlives (execBook fs s) from h.request (keeps_report fs s)
  | scheme fs => exact show L.Outlives (execScheme fs s) from h.request (keeps_scheme fs s)
  | pump fs => exact show L.Outlives (execPump fs s) from h.request (keeps_report fs s)
  | scale fs => exact show L.Outlives (execScale fs s) from h.request (keeps_scale fs s)
  | calrun fs => exact show L.Outlives (execCalrun fs s) from h.request (keeps_calrun fs s)
  | caltake fs => exact show L.Outlives (execCaltake fs s) from h.request (keeps_caltake h fs)
  | calread fs => exact show L.Outlives (execCalread fs s) from h.request (keeps_report fs s)
  | station fs => exact show L.Outlives (execStation fs s) from h.request (keeps_report fs s)
  | loaded fs => exact show L.Outlives (execLoaded fs s) from h.request (keeps_loaded fs s)
  | confirm fs => exact show L.Outlives (execConfirm fs s) from h.request (keeps_confirm fs s)
  | confirmOut fs => exact show L.Outlives (execConfirmOut fs s) from h.request (keeps_confirm fs s)
  | clear fs => exact show L.Outlives (execClear fs s) from h.request (keeps_clear fs s)
  | zones fs => exact show L.Outlives (execZones fs s) from h.request (keeps_report fs s)
  | tread fs => exact show L.Outlives (execTread fs s) from h.request (keeps_report fs s)
  | flist fs => exact show L.Outlives (execFlist fs s) from h.request (keeps_report fs s)
  | lids fs => exact show L.Outlives (execLids fs s) from h.request (keeps_lids fs s)
  | lidpol fs => exact show L.Outlives (execLidpol fs s) from h.request (keeps_lidpol fs s)
  | lidder fs => exact show L.Outlives (execLidder fs s) from h.request (keeps_report fs s)
  | mixers fs => exact show L.Outlives (execMixers fs s) from h.request (keeps_report fs s)
  | tagbus fs => exact show L.Outlives (execTagbus fs s) from h.request (keeps_report fs s)
  | tag fs => exact show L.Outlives (execTag fs s) from h.request (keeps_report fs s)
  | time fs => exact show L.Outlives (execTime fs s) from h.request (keeps_time fs s)
  | stirday fs => exact show L.Outlives (execStirday fs s) from h.request (keeps_stirday fs s)
  | purge fs => exact show L.Outlives (execPurge fs s) from h.request (keeps_purge fs s)
  | stir fs => exact show L.Outlives (execStir fs s) from h.request (keeps_stir fs s)
  | care fs => exact show L.Outlives (execCare fs s) from h.request (keeps_report fs s)
  | fclear fs => exact show L.Outlives (execFclear fs s) from h.request (keeps_fclear fs s)
  | notice fs => exact show L.Outlives (execNotice fs s) from h.request (keeps_notice fs s)
  | flags fs => exact show L.Outlives (execFlags fs s) from h.request (keeps_report fs s)
  | resume fs => exact show L.Outlives (execResume fs s) from h.request (keeps_resume fs s)
  | restart fs => exact show L.Outlives (execRestart fs s) from h.request (keeps_restart fs s)
  | state fs => exact show L.Outlives (execState fs s) from h.request (keeps_report fs s)

/-- Every step keeps the law. -/
theorem Holds.step (h : L.Holds s) (e : step s = .next t) : L.Holds t := by
  unfold Machine.step at e
  split at e
  · have h1 : L.Holds s.idleTick := h.of rfl
    exact outlives_next h1 t e
  · rename_i i rest _
    have h1 : L.Holds { s with pending := rest } := h.of rfl
    exact h1.exec i t e

end RecordLaw
end Sys2Proof.Machine
end

