-- ==== Sys2Proof/Proofs/TableInvariants.lean ====
section
/-! PROOF SUPPORT. The invariants of the Circuit Table as laws on records, and that every step keeps them. -/

namespace Sys2Proof.Machine

set_option Elab.async false

/-! ### What a CSET makes of a record -/

theorem csetApplied_cases (r : Circuit) (fs : Fields) :
    (fs.num "nmin" = none ∧ r.csetApplied fs = { r with cfg := r.cfg.overlay fs })
      ∨ ∃ n, fs.num "nmin" = some n ∧ r.csetApplied fs = { r with cfg := r.cfg.overlay fs }.stageNmin n := by
  unfold Circuit.csetApplied
  cases h : fs.num "nmin" with
  | none => exact .inl ⟨rfl, rfl⟩
  | some n => exact .inr ⟨n, rfl, rfl⟩

/-- A CSET leaves the state, the latch, the level and the trims of a record. -/
theorem csetApplied_keeps (r : Circuit) (fs : Fields) :
    (r.csetApplied fs).state = r.state ∧ (r.csetApplied fs).latchOpen = r.latchOpen ∧ (r.csetApplied fs).level = r.level
      ∧ (r.csetApplied fs).trim = r.trim ∧ (r.csetApplied fs).cfg.trim = r.cfg.trim
      ∧ (r.csetApplied fs).pendingTrim = r.pendingTrim := by
  rcases csetApplied_cases r fs with ⟨-, e⟩ | ⟨n, -, e⟩
  · rw [e]; exact ⟨rfl, rfl, rfl, rfl, rfl, rfl⟩
  · rw [e, Circuit.stageNmin]
    split <;> exact ⟨rfl, rfl, rfl, rfl, rfl, rfl⟩

theorem refit_trims (r : Circuit) :
    r.refit.cfg = r.cfg ∧ r.refit.trim = r.trim ∧ r.refit.pendingTrim = r.pendingTrim ∧ r.refit.nmin = r.nmin
      ∧ r.refit.pendingNmin = r.pendingNmin := by
  unfold Circuit.refit
  split
  · exact ⟨rfl, rfl, rfl, rfl, rfl⟩
  · split <;> exact ⟨rfl, rfl, rfl, rfl, rfl⟩

theorem refit_level (r : Circuit) : r.refit.level ≤ r.cfg.maxLevel := by
  unfold Circuit.refit
  split
  · exact Nat.zero_le _
  · split
    · exact Nat.zero_le _
    · exact Nat.min_le_right _ _

/-! ### Levels -/

/-- The level lies within the capacity. -/
def levelLaw : RecordLaw where
  circ r := r.level ≤ r.cfg.maxLevel
  stored _ := True
  cal _ := True
  calm e h := by simp only [Circuit.core_eq_iff] at e; simpa only [e] using h
  settings _ := trivial
  moves h _ _ := h
  inserts h _ := h
  opens h _ := h
  levels h hv := hv.elim (le_trans · h) id
  stages {r t} h _ := by unfold Circuit.stageTrim; split <;> exact h
  applies h := h
  twins h := h
  configures {r fs n} _ _ := by
    obtain ⟨hc, -⟩ := refit_trims ((r.csetApplied fs).withTwin n)
    exact ⟨trivial, hc ▸ refit_level _⟩
  clamped _ := trivial
  unset := Nat.zero_le _
  boots _ _ _ := (Nat.sub_le _ _).trans (Nat.min_le_right _ _)

theorem levelInv_iff (s : State) : LevelInv s ↔ levelLaw.Holds s := by
  constructor
  · exact fun h => ⟨h, ⟨fun _ _ _ => trivial, fun r _ => by cases r <;> trivial, fun w _ _ => by
      cases w with
      | link r => cases r <;> trivial
      | _ => trivial⟩, fun _ _ _ _ => trivial⟩
  · exact fun h => h.circuits

/-- Settles O8: the bound on levels is a law on records, and every step keeps such a law. -/
theorem stepKeepsLevels : Obligations.StepKeepsLevels := by
  intro s t h e
  rw [levelInv_iff] at h ⊢
  exact h.step e

/-! ### Trims and minimum doses -/

theorem trimOk_trimLimit (t : Int) : trimOk (trimLimit t) := by
  unfold trimOk trimLimit clampInt
  omega

/-- The active, pending and accepted trim lie within −63 … +63. -/
def trimLaw : RecordLaw where
  circ r := trimOk r.trim ∧ trimOk r.cfg.trim ∧ ∀ t, r.pendingTrim = some t → trimOk t
  stored g := trimOk g.trim
  cal := trimOk
  calm e h := by simp only [Circuit.core_eq_iff] at e; simpa only [e] using h
  settings h := h.2.1
  moves h _ _ := h
  inserts h _ := h
  opens h _ := h
  levels h _ := h
  stages {r t} h ht := by
    unfold Circuit.stageTrim
    split
    · exact ⟨ht, ht, nofun⟩
    · exact ⟨h.1, ht, fun _ e => Option.some.inj e ▸ ht⟩
  applies {r} h := by
    refine ⟨?_, h.2.1, nofun⟩
    show trimOk (r.pendingTrim.getD r.trim)
    cases e : r.pendingTrim with
    | none => exact h.1
    | some t => exact h.2.2 t e
  twins h := h
  configures {r fs n} h _ := by
    obtain ⟨-, -, -, ht, hcfg, hp⟩ := csetApplied_keeps r fs
    obtain ⟨ec, et, ep, -⟩ := refit_trims ((r.csetApplied fs).withTwin n)
    rw [ec, et, ep]
    simp only [Circuit.withTwin, ht, hcfg, hp]
    exact ⟨h.2.1, h⟩
  clamped := trimOk_trimLimit
  unset := by simp [Circuit.reset, Settings.default, trimOk]
  boots {nv c} _ _ h := by
    have hg : trimOk (nv.circuits[c].getD Settings.default).trim := by
      cases e : nv.circuits[c] with
      | none => simp [Settings.default, trimOk]
      | some g => exact h g e
    exact ⟨hg, hg, nofun⟩

theorem trimLaw_record (r : StoreRecord) : trimLaw.record r ↔ r.trimOk := by cases r <;> exact Iff.rfl

theorem trimLaw_work (w : WriteWork) : trimLaw.work w ↔ w.trimOk := by
  cases w with
  | link r => exact trimLaw_record r
  | _ => exact Iff.rfl

theorem trimInv_iff (s : State) : TrimInv s ↔ trimLaw.Holds s := by
  constructor
  · rintro ⟨hc, hn, hf, hw, hq⟩
    exact ⟨hc, ⟨hn, fun r hr => (trimLaw_record r).mpr (hf r hr), fun w e he => (trimLaw_work w).mpr (hw w e he)⟩, hq⟩
  · rintro ⟨hc, ⟨hn, hf, hw⟩, hq⟩
    exact ⟨hc, hn, fun r hr => (trimLaw_record r).mp (hf r hr), fun w e he => (trimLaw_work w).mp (hw w e he), hq⟩

/-- The active, pending and accepted minimum dose lie within 1–64. -/
def nminLaw : RecordLaw where
  circ r := nminOk r.nmin ∧ nminOk r.cfg.nmin ∧ ∀ n, r.pendingNmin = some n → nminOk n
  stored g := nminOk g.nmin
  cal _ := True
  calm e h := by simp only [Circuit.core_eq_iff] at e; simpa only [e] using h
  settings h := h.2.1
  moves h _ _ := h
  inserts h _ := h
  opens h _ := h
  levels h _ := h
  stages {r t} h _ := by unfold Circuit.stageTrim; split <;> exact h
  applies {r} h := by
    refine ⟨?_, h.2.1, nofun⟩
    show nminOk (r.pendingNmin.getD r.nmin)
    cases e : r.pendingNmin with
    | none => exact h.1
    | some n => exact h.2.2 n e
  twins h := h
  configures {r fs n} h hn := by
    obtain ⟨ec, -, -, em, ep⟩ := refit_trims ((r.csetApplied fs).withTwin n)
    rw [ec, em, ep]
    rcases csetApplied_cases r fs with ⟨-, e⟩ | ⟨m, hm, e⟩
    · rw [e]; exact ⟨h.2.1, h⟩
    · have hok : nminOk m := by simpa [fieldWithin, hm, within, nminOk] using hn
      rw [e, Circuit.stageNmin]
      split
      · exact ⟨hok, hok, hok, nofun⟩
      · exact ⟨hok, h.1, hok, fun _ e => Option.some.inj e ▸ hok⟩
  clamped _ := trivial
  unset := by simp [Circuit.reset, Settings.default, nminOk]
  boots {nv c} _ _ h := by
    have hg : nminOk (nv.circuits[c].getD Settings.default).nmin := by
      cases e : nv.circuits[c] with
      | none => simp [Settings.default, nminOk]
      | some g => exact h g e
    exact ⟨hg, hg, nofun⟩

theorem nminLaw_record (r : StoreRecord) : nminLaw.record r ↔ r.nminOk := by cases r <;> exact Iff.rfl

theorem nminLaw_work (w : WriteWork) : nminLaw.work w ↔ w.nminOk := by
  cases w with
  | link r => exact nminLaw_record r
  | _ => exact Iff.rfl

theorem nminInv_iff (s : State) : NminInv s ↔ nminLaw.Holds s := by
  constructor
  · rintro ⟨hc, hn, hf, hw⟩
    exact ⟨hc, ⟨hn, fun r hr => (nminLaw_record r).mpr (hf r hr), fun w e he => (nminLaw_work w).mpr (hw w e he)⟩,
      fun _ _ _ _ => trivial⟩
  · rintro ⟨hc, ⟨hn, hf, hw⟩, -⟩
    exact ⟨hc, hn, fun r hr => (nminLaw_record r).mp (hf r hr), fun w e he => (nminLaw_work w).mp (hw w e he)⟩

/-- Settles O9: the bounds on trims and on minimum doses are laws on records, and every step keeps such a law. -/
theorem stepKeepsTrims : Obligations.StepKeepsTrims := by
  refine ⟨fun s t h e => ?_, fun s t h e => ?_⟩
  · rw [trimInv_iff] at h ⊢
    exact h.step e
  · rw [nminInv_iff] at h ⊢
    exact h.step e

/-! ### States and latches -/

/-- UNFITTED stands for no code, and an open latch for SERVICE. -/
def tableLaw : RecordLaw where
  circ r := (r.state = .unfitted ↔ r.cfg.code = none) ∧ (r.latchOpen = true → r.state = .service)
  stored _ := True
  cal _ := True
  calm e h := by simp only [Circuit.core_eq_iff] at e; simpa only [e] using h
  settings _ := trivial
  moves {r g} h hu hg := by
    obtain ⟨hf, hs⟩ := hu
    exact ⟨⟨fun e => absurd e hg, fun e => absurd (h.1.mpr e) hf⟩, fun e => absurd (h.2 e) hs⟩
  inserts {r} h hs := ⟨⟨nofun, fun e => by have := h.1.mpr e; rw [hs] at this; cases this⟩, nofun⟩
  opens h hs := ⟨h.1, fun _ => hs⟩
  levels h _ := h
  stages {r t} h _ := by unfold Circuit.stageTrim; split <;> exact h
  applies h := h
  twins h := h
  configures {r fs n} h _ := by
    obtain ⟨hs, hl, -⟩ := csetApplied_keeps r fs
    refine ⟨trivial, ?_⟩
    unfold Circuit.refit
    split
    · rename_i e
      exact ⟨⟨nofun, fun hc => by simp [show ((r.csetApplied fs).withTwin n).cfg.code = none from hc] at e⟩, fun _ => rfl⟩
    · rename_i e1
      split
      · rename_i e
        exact ⟨⟨fun _ => e.2, fun _ => rfl⟩, nofun⟩
      · rename_i e2
        refine ⟨?_, fun e => hs.trans (h.2 (hl.symm.trans e))⟩
        rw [not_and, Option.isSome_iff_ne_none, not_not] at e1
        exact ⟨e1, fun hc => not_not.mp fun hx => e2 ⟨hx, hc⟩⟩
  clamped _ := trivial
  unset := by simp [Circuit.reset, Settings.default]
  boots {nv c} closed now _ := by
    unfold NonVolatile.circuit
    dsimp only
    cases (nv.circuits[c].getD Settings.default).code <;> cases closed <;> simp

theorem tableInv_iff (s : State) : TableInv s ↔ tableLaw.Holds s := by
  constructor
  · exact fun h => ⟨h, ⟨fun _ _ _ => trivial, fun r _ => by cases r <;> trivial, fun w _ _ => by
      cases w with
      | link r => cases r <;> trivial
      | _ => trivial⟩, fun _ _ _ _ => trivial⟩
  · exact fun h => h.circuits

/-- Settles O10: what ties the state to the code and the latch is a law on records, and every step keeps such a law. -/
theorem stepKeepsCircuitStates : Obligations.StepKeepsCircuitStates := by
  intro s t h e
  rw [tableInv_iff] at h ⊢
  exact h.step e

end Sys2Proof.Machine
end

