-- ==== Sys2Proof/Proofs/CircuitRequests.lean ====
section
/-! O16 and O19: the requests that report one circuit, and TRIM. -/

namespace Sys2Proof.Machine

set_option Elab.async false

/-! ### The circuit a request names -/

theorem circ?_eq_none_iff (n : Nat) : circ? n = none ↔ ¬(1 ≤ n ∧ n ≤ 24) := by
  unfold circ?
  split <;> simp_all

theorem circ?_of_range {n : Nat} (h : 1 ≤ n ∧ n ≤ 24) : circ? n = some ⟨n - 1, by omega⟩ := dif_pos h

theorem circ?_circNo (c : Circ) : circ? (circNo c) = some c := by
  unfold circ? circNo
  split
  · rfl
  · omega

theorem circNo_of_circ? {n : Nat} {c : Circ} (h : circ? n = some c) : n = circNo c := by
  unfold circ? at h
  split at h
  · rw [← Option.some.inj h, circNo]
    show n = n - 1 + 1
    omega
  · cases h

theorem circNo_inj {c d : Circ} : circNo c = circNo d ↔ c = d :=
  ⟨fun h => Fin.ext (Nat.succ.inj h), congrArg _⟩

theorem numD_of_num {fs : Fields} {key : String} {n : Nat} (h : fs.num key = some n) (d : Nat) : fs.numD key d = n := by
  rw [Fields.numD, h, Option.getD_some]

/-- The circuit that a request names. -/
theorem circ?_numD {fs : Fields} {c : Circ} (h : (fs.num "circuit").bind circ? = some c) :
    circ? (fs.numD "circuit" 0) = some c := by
  obtain ⟨n, hn, hc⟩ := Option.bind_eq_some_iff.mp h
  rwa [numD_of_num hn]

/-- No circuit is named, or none of 1–24. -/
theorem circ?_numD_none {fs : Fields} (h : (fs.num "circuit").bind circ? = none) : circ? (fs.numD "circuit" 0) = none := by
  unfold Fields.numD
  cases hn : fs.num "circuit" with
  | none => rfl
  | some n => simpa [hn] using h

/-! ### Reports (R27, R112, R206) -/

/-- A request that reports one circuit: what it answers for a circuit and for a number that names none. -/
theorem report_of_circuit {s : State} {a : State → Answer} {i : Instr} {items facts : Circ → List Item} {n : Nat}
    (hi : exec i s = request a s) (hp : s.powered = true)
    (hn : circ? n = none → a s = .refuse .range) (ha : ∀ c, circ? n = some c → a s = .report (items c))
    (hf : ∀ c, facts c ⊆ items c) :
    if h : 1 ≤ n ∧ n ≤ 24 then
      ∃ l : List Item, exec i s = .next { s with link := s.link.push (.reply false (.ok l)) }
        ∧ facts ⟨n - 1, by omega⟩ ⊆ l
    else exec i s = .next { s with link := s.link.push (.reply false (.no .range)) } := by
  rw [hi]
  split
  · rename_i h
    exact ⟨_, request_reports hp (ha _ (circ?_of_range h)), hf _⟩
  · rename_i h
    exact request_refused hp (hn ((circ?_eq_none_iff n).mpr h))

/-- Settles O16. -/
theorem reportsOfOneCircuit : Obligations.ReportsOfOneCircuit := by
  intro s fs n hp hm hn row hrow
  have hd := numD_of_num hn 0
  simp only [List.mem_cons, List.not_mem_nil, or_false] at hrow
  rcases hrow with rfl | rfl | rfl
  · refine report_of_circuit (a := creadAnswer fs) (items := s.circuitItems) rfl hp (fun hx => ?_) (fun c hx => ?_) fun c => ?_
    · simp only [creadAnswer, hm, hd, Answer.check_false, hx]
    · simp only [creadAnswer, hm, hd, Answer.check_false, hx]
    · simp [State.circuitItems]
  · refine report_of_circuit (a := pumpAnswer fs) (items := fun c =>
      [.num "circuit" (circNo c), .num "slot" (ownSlot s.drive.scheme c), .parts "piston" [pistonAtom (s.pump c).piston],
        .word "activity" (((s.pump c).activity.map Activity.shown).getD "IDLE")]
        ++ (((s.pump c).activity.map Activity.items).getD [])
        ++ [.num "lent" (s.drive.lentTo c),
          .word "next" (((s.pump c).next.map fun q => q.kind.name q.owner).getD "NONE")]) rfl hp (fun hx => ?_) (fun c hx => ?_) fun c => ?_
    · simp only [pumpAnswer, hm, hd, Answer.check_false, hx]
    · simp only [pumpAnswer, hm, hd, Answer.check_false, hx]
    · simp
  · refine report_of_circuit (a := tagAnswer fs) (items := fun c =>
      [Item.num "circuit" (circNo c)] ++ ((s.tag.images[c].map TagImage.items).getD [.word "image" "NONE"])
        ++ [.parts "last" s.tag.last[c].atoms]) rfl hp (fun hx => ?_) (fun c hx => ?_) fun c => ?_
    · simp only [tagAnswer, hm, hd, Answer.check_false, hx]
    · simp only [tagAnswer, hm, hd, Answer.check_false, hx]
    · simp

/-! ### TRIM (R21) -/

theorem linkRoom_eq_true {s : State} {n : Nat} : s.linkRoom n = true ↔ s.store.fifo.length + n ≤ 8 :=
  decide_eq_true_iff

theorem trimLimit_eq (t : Int) : trimLimit t = max (-63) (min 63 t) := rfl

/-- Staging a trim writes the circuit's record and queues it, and nothing else. -/
theorem trimEffect_eq (s : State) (c : Circ) (t : Int) : s.trimEffect c t
    = { s with
        circuits := updAt s.circuits c fun r => r.stageTrim t
        store := { s.store with fifo := s.store.fifo ++ [.circuit c ((s.circuit c).stageTrim t).cfg] } } := by
  unfold State.trimEffect
  dsimp only
  rw [setCircuit_circuit]
  rfl

/-- Settles O19. -/
theorem trimIsStaged : Obligations.TrimIsStaged := by
  intro s fs c t hp hm hc ht hu hf v r r'
  have hv : trimLimit t = v := trimLimit_eq t
  have hroom : s.linkRoom 1 = true := linkRoom_eq_true.mpr hf
  have ha : trimAnswer fs s
      = .accept (r.applied :: if v = t then [] else [.bare "CLAMPED"]) fun u => u.trimEffect c v := by
    simp only [trimAnswer, hm, ht, circ?_numD hc, hv, hroom, Answer.check_false, beq_eq_false_iff_ne.mpr hu, Bool.not_true]
    rfl
  refine ⟨_, request_accepted hp ha, ?_⟩
  rw [trimEffect_eq]
  refine ⟨updAt_get _ _ _, fun d hd => ?_, rfl, rfl, rfl, rfl, fun p hp => ?_⟩
  · exact updAt_get_ne _ _ (List.ne_of_not_mem_cons hd)
  · cases p <;> simp [Part.same] at hp ⊢

end Sys2Proof.Machine
end

