-- ==== Sys2Proof/Proofs/CircuitFrames.lean ====
section
/-! PROOF SUPPORT. The operations on one circuit, its pump and its dues, and what they leave: the other circuits and pumps, the
lasting part of the circuit's own record, and the flags and lines of the Counter Link. -/

namespace Sys2Proof.Machine

set_option Elab.async false

/-! ### The Counter Link only grows -/

/-- The lines that are being sent or wait. -/
def Link.lines (l : Link) : List OutLine := l.sending.toList ++ l.output

/-- Every flag set stays set, and every line to be sent stays so. -/
structure Link.Grows (l m : Link) : Prop where
  flags : ∀ f, l.isSet f = true → m.isSet f = true
  lines : ∀ x ∈ l.lines, x ∈ m.lines

theorem Link.Grows.refl (l : Link) : l.Grows l := ⟨fun _ h => h, fun _ h => h⟩

theorem Link.Grows.trans {l m n : Link} (h : l.Grows m) (k : m.Grows n) : l.Grows n :=
  ⟨fun f hf => k.flags f (h.flags f hf), fun x hx => k.lines x (h.lines x hx)⟩

theorem Link.mem_lines_push (l : Link) (x y : OutLine) : y ∈ (l.push x).lines ↔ y = x ∨ y ∈ l.lines := by
  unfold Link.push Link.lines
  split
  · simp_all
  · simp_all only [Option.toList_some, List.cons_append, List.mem_cons, List.mem_append, List.not_mem_nil, or_false]
    tauto

theorem Link.isSet_push (l : Link) (x : OutLine) (f : Flag) : (l.push x).isSet f = l.isSet f := by
  unfold Link.push
  split <;> rfl

theorem Link.isSet_setFlag (l : Link) (f : Flag) (items : List Item) (g : Flag) :
    (l.setFlag f items).isSet g = true ↔ g = f ∨ l.isSet g = true := by
  unfold Link.setFlag
  split
  · rename_i h
    constructor
    · exact .inr
    · rintro (rfl | hg)
      · exact h
      · exact hg
  · have e : (({ l with flags := l.flags ++ [(f, items)] } : Link).isSet g = true) ↔ g = f ∨ l.isSet g = true := by
      simp only [Link.isSet, List.any_append, List.any_cons, List.any_nil, Bool.or_false, Bool.or_eq_true, beq_iff_eq]
      rw [or_comm, eq_comm]
    dsimp only
    split
    · rwa [Link.isSet_push]
    · exact e

theorem Link.mem_lines_setFlag {l : Link} {f : Flag} {items : List Item} {x : OutLine} (h : x ∈ l.lines) :
    x ∈ (l.setFlag f items).lines := by
  unfold Link.setFlag
  split
  · exact h
  · dsimp only
    split
    · exact (Link.mem_lines_push _ _ _).mpr (.inr h)
    · exact h

theorem Link.grows_setFlag (l : Link) (f : Flag) (items : List Item) : l.Grows (l.setFlag f items) :=
  ⟨fun g hg => (Link.isSet_setFlag l f items g).mpr (.inr hg), fun _ hx => Link.mem_lines_setFlag hx⟩

theorem Link.isSet_setFlag_self (l : Link) (f : Flag) (items : List Item) : (l.setFlag f items).isSet f = true :=
  (Link.isSet_setFlag l f items f).mpr (.inl rfl)

/-! ### Beside circuit c -/

/-- What the end of a run or a move between states leaves of a circuit record. -/
def Circuit.lasting (r : Circuit) : Circuit :=
  { r with
    state := .unfitted
    reason := none
    level := 0
    lowArmed := false
    lot := none
    lastDelivery := 0
    stir := none
    purgeDue := none }

/-- What a request, the end of a run or a cut leaves of a pump record. -/
def Pump.lasting (p : Pump) : Pump := { p with activity := none, next := none, heldPrime := false }

/-- The state with what an operation on circuit c may change blanked out: it tells whether everything else is the same. -/
def State.beside (s : State) (c : Circ) : State :=
  { s with
    circuits := updAt s.circuits c Circuit.lasting
    store := { s.store with dirty := updAt s.store.dirty c fun _ => false }
    drive := { s.drive with
      pumps := updAt s.drive.pumps c Pump.lasting
      forfeit := updAt s.drive.forfeit c fun _ => false }
    stn := { s.stn with cal := none, attemptOwed := false }
    track := { s.track with tins := [] }
    tag := { s.tag with active := none, queue := [], backlog := [] }
    cares := { s.cares with due := s.cares.due.filter fun x => x.1 != c }
    link := Link.reset }

/-- Between s and t only what an operation on circuit c may change has changed, and the Counter Link has grown. -/
structure Local (c : Circ) (s t : State) : Prop where
  beside : t.beside c = s.beside c
  link : s.link.Grows t.link

variable {c : Circ} {s t u : State}

theorem Local.refl (c : Circ) (s : State) : Local c s s := ⟨rfl, .refl _⟩

theorem Local.trans (h : Local c s t) (k : Local c t u) : Local c s u :=
  ⟨k.beside.trans h.beside, h.link.trans k.link⟩

/-- A change that leaves the Counter Link. -/
theorem Local.of (h : t.beside c = s.beside c) (hl : t.link = s.link := by rfl) : Local c s t := ⟨h, hl ▸ .refl _⟩

theorem Local.ite {p : Prop} [Decidable p] (h : p → Local c s t) (k : ¬p → Local c s u) :
    Local c s (if p then t else u) := by
  split
  · rename_i hp; exact h hp
  · rename_i hp; exact k hp

theorem updAt_updAt {α : Type} {n : Nat} (v : Vector α n) (i : Fin n) (f g : α → α) :
    updAt (updAt v i f) i g = updAt v i fun x => g (f x) := by
  apply Vector.ext
  intro j hj
  have := updAt_get_eq (updAt v i f) i ⟨j, hj⟩ g
  have h2 := updAt_get_eq v i ⟨j, hj⟩ f
  have h3 := updAt_get_eq v i ⟨j, hj⟩ fun x => g (f x)
  simp only [Fin.getElem_fin] at this h2 h3
  rw [this, h3, updAt_get]
  split
  · rfl
  · rw [h2, if_neg ‹_›]

/-- Two changes of an entry that come to the same. -/
theorem updAt_congr {α : Type} {n : Nat} (v : Vector α n) (i : Fin n) {f g : α → α} (h : f v[i] = g v[i]) :
    updAt v i f = updAt v i g := by
  unfold updAt
  rw [h]

/-! ### What stays -/

theorem Local.circuit_ne (h : Local c s t) {d : Circ} (hd : d ≠ c) : t.circuit d = s.circuit d := by
  have e := (congrArg (fun u : State => u.circuits[d]) h.beside :)
  simp only [State.beside] at e
  rwa [updAt_get_ne _ _ hd, updAt_get_ne _ _ hd] at e

theorem Local.pump_ne (h : Local c s t) {d : Circ} (hd : d ≠ c) : t.pump d = s.pump d := by
  have e := (congrArg (fun u : State => u.drive.pumps[d]) h.beside :)
  simp only [State.beside] at e
  rwa [updAt_get_ne _ _ hd, updAt_get_ne _ _ hd] at e

theorem Local.lasting (h : Local c s t) : (t.circuit c).lasting = (s.circuit c).lasting := by
  have e := (congrArg (fun u : State => u.circuits[c.val]) h.beside :)
  simp only [State.beside, updAt_get] at e
  exact e

theorem Local.pumpLasting (h : Local c s t) : (t.pump c).lasting = (s.pump c).lasting := by
  have e := (congrArg (fun u : State => u.drive.pumps[c.val]) h.beside :)
  simp only [State.beside, updAt_get] at e
  exact e

/-- The settings, the staged values, the open-batch count, the latch and the baseline of circuit c stay. -/
theorem Local.circuit_fields (h : Local c s t) :
    (t.circuit c).cfg = (s.circuit c).cfg ∧ (t.circuit c).trim = (s.circuit c).trim
      ∧ (t.circuit c).nmin = (s.circuit c).nmin ∧ (t.circuit c).pendingTrim = (s.circuit c).pendingTrim
      ∧ (t.circuit c).pendingNmin = (s.circuit c).pendingNmin ∧ (t.circuit c).openBatch = (s.circuit c).openBatch
      ∧ (t.circuit c).latchOpen = (s.circuit c).latchOpen ∧ (t.circuit c).baseline = (s.circuit c).baseline
      ∧ (t.circuit c).checkKind = (s.circuit c).checkKind := by
  have e := h.lasting
  simp only [Circuit.lasting, Circuit.mk.injEq] at e
  simp only [e, and_self]

theorem Local.burst (h : Local c s t) : (t.pump c).burst = (s.pump c).burst := (congrArg Pump.burst h.pumpLasting :)

theorem Local.pending (h : Local c s t) : t.pending = s.pending := (congrArg State.pending h.beside :)
theorem Local.powered (h : Local c s t) : t.powered = s.powered := (congrArg State.powered h.beside :)
theorem Local.now (h : Local c s t) : t.now = s.now := (congrArg State.now h.beside :)
theorem Local.inp (h : Local c s t) : t.inp = s.inp := (congrArg State.inp h.beside :)
theorem Local.calResult (h : Local c s t) : t.calResult = s.calResult := (congrArg State.calResult h.beside :)

theorem Local.fifo (h : Local c s t) : t.store.fifo = s.store.fifo :=
  (congrArg (fun u : State => u.store.fifo) h.beside :)

/-- The results and images of the Tag Bus, and its bus, stay. -/
theorem Local.tag_fields (h : Local c s t) :
    t.tag.images = s.tag.images ∧ t.tag.last = s.tag.last ∧ t.tag.bus = s.tag.bus :=
  ⟨(congrArg (fun u : State => u.tag.images) h.beside :), (congrArg (fun u : State => u.tag.last) h.beside :),
    (congrArg (fun u : State => u.tag.bus) h.beside :)⟩

theorem Local.dueElsewhere (h : Local c s t) :
    (t.cares.due.filter fun x => x.1 != c) = s.cares.due.filter fun x => x.1 != c :=
  (congrArg (fun u : State => u.cares.due) h.beside :)

/-- The Care Scheduler keeps all but its due list. -/
theorem Local.cares (h : Local c s t) : t.cares = { s.cares with due := t.cares.due } :=
  (congrArg (fun u : State => ({ u.cares with due := t.cares.due } : Care)) h.beside :)

theorem Local.otherCircuits (h : Local c s t) : OtherCircuits [c] s t :=
  fun _ hd => h.circuit_ne (List.ne_of_not_mem_cons hd)

theorem Local.otherPumps (h : Local c s t) : OtherPumps c s t := fun _ hd => h.pump_ne hd

theorem Part.same_trans {p : Part} (h : p.same s t) (k : p.same t u) : p.same s u := by
  cases p <;> exact Eq.trans k h

theorem Unchanged.trans {l m : List Part} (h : Unchanged l s t) (k : Unchanged m t u) : Unchanged (l ++ m) s u := by
  obtain ⟨hp, hw, hl⟩ := h
  obtain ⟨kp, kw, kl⟩ := k
  refine ⟨kp.trans hp, kw.trans hw, fun p hp => ?_⟩
  rw [List.mem_append, not_or] at hp
  exact Part.same_trans (hl p hp.1) (kl p hp.2)

theorem Unchanged.mono {l m : List Part} (h : Unchanged l s t) (hs : ∀ p ∈ l, p ∈ m) : Unchanged m s t := by
  obtain ⟨hp, hw, hl⟩ := h
  exact ⟨hp, hw, fun p hp => hl p fun hx => hp (hs p hx)⟩

theorem unchanged_pushReply (s : State) (p : Bool) (r : Reply) : Unchanged [.link] s (s.pushReply p r) := by
  refine ⟨rfl, rfl, fun q hq => ?_⟩
  cases q <;> simp [Part.same] at hq ⊢

/-- The parts an operation on one circuit may touch. -/
def localParts : List Part := [.circuits, .drive, .store, .station, .track, .tagBus, .care, .link]

theorem Local.unchanged (h : Local c s t) : Unchanged localParts s t := by
  refine ⟨h.pending, h.powered, fun p hp => ?_⟩
  cases p with
  | now => exact h.now
  | choices => exact (congrArg State.choices h.beside :)
  | stopped => exact (congrArg State.stopped h.beside :)
  | inputs => exact h.inp
  | library => exact (congrArg State.lib h.beside :)
  | calibration => exact h.calResult
  | book => exact (congrArg State.bk h.beside :)
  | lidder => exact (congrArg State.lid h.beside :)
  | mixers => exact (congrArg State.mixer h.beside :)
  | _ => simp [localParts] at hp

/-! ### Updates -/

theorem beside_setCircuit {f : Circuit → Circuit} (h : (f (s.circuit c)).lasting = (s.circuit c).lasting) :
    (s.setCircuit c f).beside c = s.beside c := by
  simp only [State.beside, State.setCircuit, updAt_updAt]
  rw [updAt_congr (g := Circuit.lasting) s.circuits c h]

theorem beside_setPump {f : Pump → Pump} (h : (f (s.pump c)).lasting = (s.pump c).lasting) :
    (s.setPump c f).beside c = s.beside c := by
  simp only [State.beside, State.setPump, updAt_updAt]
  rw [updAt_congr (g := Pump.lasting) s.drive.pumps c h]

theorem beside_forfeitSlots : (s.forfeitSlots c).beside c = s.beside c := by
  simp only [State.beside, State.forfeitSlots, updAt_updAt]

theorem beside_markDirty : (s.markDirty c).beside c = s.beside c := by
  simp only [State.beside, State.markDirty, updAt_updAt]

theorem filter_insertDue (n : Nat) (l : List (Circ × Nat)) :
    (insertDue (c, n) l).filter (fun x => x.1 != c) = l.filter fun x => x.1 != c := by
  induction l with
  | nil => simp [insertDue]
  | cons y l ih =>
    unfold insertDue
    split
    · simp
    · simp [List.filter_cons, ih]

theorem beside_addDue (n : Nat) : (s.addDue c n).beside c = s.beside c := by
  simp only [State.beside, State.addDue, filter_insertDue]

theorem beside_dropDue : (s.dropDue c).beside c = s.beside c := by
  simp only [State.beside, State.dropDue, List.filter_filter, Bool.and_self]

theorem Local.setFlag (f : Flag) (items : List Item) : Local c s (s.setFlag f items) :=
  ⟨rfl, Link.grows_setFlag _ _ _⟩

/-! ### Moves between states -/

theorem Local.endStir (c : Circ) (s : State) : Local c s (s.endStir c) :=
  .of ((beside_setPump rfl).trans (beside_setCircuit rfl))

theorem Local.cutStir (c : Circ) (s : State) (back : Bool) : Local c s (s.cutStir c back) := by
  unfold State.cutStir
  split
  · exact .refl c s
  · split
    · exact (Local.endStir c s).trans (.of (beside_addDue _))
    · exact .endStir c s

theorem Local.clearPurgeDue (c : Circ) (s : State) : Local c s (s.clearPurgeDue c) := by
  unfold State.clearPurgeDue
  split
  · exact .refl c s
  · have h : Local c s (s.setCircuit c fun r => { r with purgeDue := none }) := .of (beside_setCircuit rfl)
    exact h.trans (.of rfl)

theorem Local.clearIntervalDue (c : Circ) (s : State) : Local c s (s.clearIntervalDue c) :=
  .ite (fun _ => .clearPurgeDue c s) fun _ => .refl c s

theorem Local.purgeTest (c : Circ) (s : State) : Local c s (s.purgeTest c) :=
  .ite (fun _ => .of (beside_setCircuit rfl)) fun _ => .refl c s

theorem Local.moveCircuit (c : Circ) (s : State) (g : CircuitState) : Local c s (s.moveCircuit c g) := by
  have h1 : Local c s (s.setCircuit c fun r => { r with state := g }) := .of (beside_setCircuit rfl)
  have h2 := Local.ite (p := ((s.circuit c).inService
      && !((s.setCircuit c fun r => { r with state := g }).circuit c).inService) = true)
    (fun _ => h1.trans ((Local.cutStir c _ true).trans (.clearPurgeDue c _))) fun _ => h1
  have h3 := Local.ite (p := g = .service ∨ g = .unfitted)
    (fun _ => h2.trans (.of (t := State.dropDue _ c) beside_dropDue)) fun _ => h2
  exact .ite (fun _ => h3.trans (.purgeTest c _)) fun _ => h3

/-! ### Levels -/

theorem Local.lowEvaluate (c : Circ) (s : State) : Local c s (s.lowEvaluate c) :=
  .ite (fun _ => .of (beside_setCircuit rfl)) fun _ =>
    .ite (fun _ => (Local.of (beside_setCircuit rfl)).trans (.setFlag _ _)) fun _ => .refl c s

theorem Local.enterEmpty (c : Circ) (s : State) : Local c s (s.enterEmpty c) :=
  (Local.moveCircuit c s .empty).trans (.setFlag _ _)

theorem Local.emptyCheck (c : Circ) (s : State) : Local c s (s.emptyCheck c) :=
  .ite (fun _ => .enterEmpty c s) fun _ => .refl c s

theorem Local.emptyCheckReserve (c : Circ) (s : State) : Local c s (s.emptyCheckReserve c) :=
  .ite (fun _ => .moveCircuit c s .ready) fun _ => .emptyCheck c s

/-- The circuit record with n steps of the trim t taken from its level at the moment m. -/
def Circuit.reduced (r : Circuit) (n : Nat) (t : Int) (m : Nat) : Circuit :=
  { r with level := r.level - stepsVolume n r.cfg.k t, lastDelivery := m }

theorem reduceLevel_zero (s : State) (c : Circ) (t : Int) : s.reduceLevel c 0 t = s := if_pos rfl

theorem setCircuit_congr {f g : Circuit → Circuit} (h : f (s.circuit c) = g (s.circuit c)) :
    s.setCircuit c f = s.setCircuit c g := by
  simp only [State.setCircuit, updAt_congr (g := g) s.circuits c h]

theorem reduceLevel_pos (s : State) (c : Circ) {n : Nat} (t : Int) (hn : n ≠ 0) :
    s.reduceLevel c n t
      = (((s.setCircuit c fun r => r.reduced n t s.now).markDirty c).lowEvaluate c).emptyCheck c := by
  have e : (s.setCircuit c fun r => r.reduced n t s.now) = s.setCircuit c fun r =>
      { r with level := r.level - stepsVolume n (s.circuit c).cfg.k t, lastDelivery := s.now } :=
    setCircuit_congr rfl
  rw [State.reduceLevel, if_neg hn, e]

theorem lasting_level (r : Circuit) (v m : Nat) : { r with level := v, lastDelivery := m }.lasting = r.lasting := rfl

theorem lasting_reduced (r : Circuit) (n : Nat) (t : Int) (m : Nat) : (r.reduced n t m).lasting = r.lasting :=
  lasting_level r _ m

theorem leveled_keeps (r : Circuit) (v m : Nat) :
    { r with level := v, lastDelivery := m }.lot = r.lot ∧ { r with level := v, lastDelivery := m }.reason = r.reason
      ∧ { r with level := v, lastDelivery := m }.state = r.state := ⟨rfl, rfl, rfl⟩

theorem reduced_keeps (r : Circuit) (n : Nat) (t : Int) (m : Nat) : (r.reduced n t m).lot = r.lot
    ∧ (r.reduced n t m).reason = r.reason ∧ (r.reduced n t m).state = r.state := leveled_keeps r _ m

theorem Local.reduceLevel (c : Circ) (s : State) (n : Nat) (t : Int) : Local c s (s.reduceLevel c n t) := by
  by_cases hn : n = 0
  · rw [hn, reduceLevel_zero]
    exact .refl c s
  · rw [reduceLevel_pos s c t hn]
    have h1 : Local c s (s.setCircuit c fun r => r.reduced n t s.now) := .of (beside_setCircuit (lasting_reduced _ _ _ _))
    exact h1.trans ((Local.of beside_markDirty).trans ((Local.lowEvaluate c _).trans (.emptyCheck c _)))

/-! ### The end of a run -/

theorem Local.keepDelivery (c : Circ) (s : State) (a : Activity) (b : Circuit) : Local c s (s.keepDelivery c a b) :=
  .ite (fun _ => .of (beside_setCircuit rfl)) fun _ => .refl c s

theorem Local.setTin (s : State) (id : Nat) (f : Tin → Tin) : Local c s (s.setTin id f) := .of rfl

theorem Local.noteTin (s : State) (id : Nat) (n : Note) : Local c s (s.noteTin id n) := .of rfl

theorem Local.doseEnded (s : State) (id k : Nat) (a : Activity) (v : Nat) (w : EndCause) :
    Local c s (s.doseEnded c id k a v w) := by
  unfold State.doseEnded
  dsimp only
  refine .ite (fun _ => .trans ?_ (.noteTin _ _ _)) fun _ => ?_
  all_goals
    split
    · exact (Local.setTin _ _ _).trans (.noteTin _ _ _)
    · exact (Local.setTin _ _ _).trans (.noteTin _ _ _)
    · exact .setTin _ _ _

theorem Local.stirComesDue (c : Circ) (s : State) (n : Nat) : Local c s (s.stirComesDue c n) :=
  .ite (fun _ => .refl c s) fun _ => .of (beside_addDue _)

theorem Local.primeEnded (c : Circ) (s : State) : Local c s (s.primeEnded c) := by
  refine .ite (fun _ => ?_) fun _ => .refl c s
  have h1 : Local c s (if (s.circuit c).level ≤ (s.circuit c).cfg.reserve then s.enterEmpty c else s.moveCircuit c .ready) :=
    .ite (fun _ => .enterEmpty c s) fun _ => .moveCircuit c s .ready
  exact .ite (fun _ => h1) fun _ => h1.trans (.stirComesDue c _ _)

theorem Local.tellOwner (c : Circ) (s : State) (a : Activity) (v : Nat) (w : EndCause) :
    Local c s (s.tellOwner c a v w) := by
  unfold State.tellOwner
  split
  · exact .ite (fun _ => .doseEnded s _ _ a v w) fun _ => (Local.doseEnded s _ _ a v w).trans (.clearIntervalDue c _)
  · have h (f : Option CalRun → Option CalRun) : Local c s { s with stn := { s.stn with cal := f s.stn.cal } } := .of rfl
    exact .ite (fun _ => h _) fun _ => (h _).trans (.clearIntervalDue c _)
  · exact .ite (fun _ => .clearPurgeDue c s) fun _ => .refl c s
  · exact .ite (fun _ => .primeEnded c s) fun _ => .refl c s

end Sys2Proof.Machine
end

