-- ==== Sys2Proof/Proofs/CircuitEffects.lean ====
section
/-! PROOF SUPPORT. What moves between states, reductions, and the end of a run that is cut make of circuit c, its pump, its
dues and the tin it doses. -/

namespace Sys2Proof.Machine

set_option Elab.async false

variable {c : Circ} {s t u : State}

/-! ### What a move between states leaves -/

/-- What a move between states leaves of a circuit record. -/
def Circuit.stationary (r : Circuit) : Circuit := { r with state := .unfitted, stir := none, purgeDue := none }

/-- What a move of circuit c between states leaves of the parts it may touch. -/
def State.account (s : State) (c : Circ) :=
  ((s.circuit c).stationary, s.store, s.track, s.tag, s.stn.cal, (s.pump c).next, (s.pump c).heldPrime)

theorem account_setCircuit {f : Circuit → Circuit} (h : (f (s.circuit c)).stationary = (s.circuit c).stationary) :
    (s.setCircuit c f).account c = s.account c := by
  simp only [State.account, setCircuit_circuit, h]
  rfl

@[simp] theorem account_endStir : (s.endStir c).account c = s.account c := by
  have h : ((s.setCircuit c fun r => { r with stir := none }).setActivity c fun a =>
      if a.run = .waitingStir then { a with run := .running } else a).account c
      = (s.setCircuit c fun r => { r with stir := none }).account c := by
    simp [State.account, State.setActivity]
  exact h.trans (account_setCircuit rfl)

@[simp] theorem account_addDue (n : Nat) : (s.addDue c n).account c = s.account c := rfl
@[simp] theorem account_dropDue : (s.dropDue c).account c = s.account c := rfl

@[simp] theorem account_cutStir (back : Bool) : (s.cutStir c back).account c = s.account c := by
  unfold State.cutStir
  split
  · rfl
  · split <;> simp

@[simp] theorem account_clearPurgeDue : (s.clearPurgeDue c).account c = s.account c := by
  unfold State.clearPurgeDue
  split
  · rfl
  · exact (account_setCircuit (f := fun r => { r with purgeDue := none }) rfl)

@[simp] theorem account_clearIntervalDue : (s.clearIntervalDue c).account c = s.account c := by
  unfold State.clearIntervalDue
  split <;> simp

@[simp] theorem account_purgeTest : (s.purgeTest c).account c = s.account c := by
  unfold State.purgeTest
  split
  · exact account_setCircuit (f := fun r => { r with purgeDue := some .interval }) rfl
  · rfl

@[simp] theorem account_moveCircuit (g : CircuitState) : (s.moveCircuit c g).account c = s.account c := by
  have h1 : (s.setCircuit c fun r => { r with state := g }).account c = s.account c := account_setCircuit rfl
  unfold State.moveCircuit
  dsimp only
  repeat' split
  all_goals simp [h1]

@[simp] theorem account_setFlag (f : Flag) (items : List Item) : (s.setFlag f items).account c = s.account c := rfl

@[simp] theorem account_enterEmpty : (s.enterEmpty c).account c = s.account c := by
  unfold State.enterEmpty
  rw [account_setFlag, account_moveCircuit]

@[simp] theorem account_emptyCheck : (s.emptyCheck c).account c = s.account c := by
  unfold State.emptyCheck
  dsimp only
  split <;> simp

@[simp] theorem account_emptyCheckReserve : (s.emptyCheckReserve c).account c = s.account c := by
  unfold State.emptyCheckReserve
  dsimp only
  split <;> simp

/-- States with one account: the parts of it. -/
theorem account_iff : t.account c = s.account c ↔
    (t.circuit c).stationary = (s.circuit c).stationary ∧ t.store = s.store ∧ t.track = s.track ∧ t.tag = s.tag
      ∧ t.stn.cal = s.stn.cal ∧ (t.pump c).next = (s.pump c).next
      ∧ (t.pump c).heldPrime = (s.pump c).heldPrime := by
  simp only [State.account, Prod.mk.injEq]

theorem stationary_iff (r x : Circuit) : x.stationary = r.stationary ↔
    x = { r with state := x.state, stir := x.stir, purgeDue := x.purgeDue } := by
  cases r; cases x
  simp [Circuit.stationary]

/-- A state, a stirrer and a purge due are all that a move changes of the record. -/
theorem moveCircuit_circuit (s : State) (c : Circ) (g : CircuitState) :
    (s.moveCircuit c g).circuit c = { s.circuit c with
      state := ((s.moveCircuit c g).circuit c).state
      stir := ((s.moveCircuit c g).circuit c).stir
      purgeDue := ((s.moveCircuit c g).circuit c).purgeDue } :=
  (stationary_iff _ _).mp (account_iff.mp (account_moveCircuit g)).1

/-! ### The state, the stirrer and the dues after a move -/

theorem purgeTest_circuit (s : State) (c : Circ) : (s.purgeTest c).circuit c
    = if (s.circuit c).purgeFalls s.now then { s.circuit c with purgeDue := some .interval } else s.circuit c := by
  unfold State.purgeTest State.purgeBecomesDue
  split <;> simp

theorem clearPurgeDue_circuit (s : State) (c : Circ) :
    (s.clearPurgeDue c).circuit c = { s.circuit c with purgeDue := none } := by
  unfold State.clearPurgeDue
  split
  · rename_i h
    rw [← h]
  · exact setCircuit_circuit s c fun r => { r with purgeDue := none }

theorem cutStir_circuit (s : State) (c : Circ) (back : Bool) :
    (s.cutStir c back).circuit c = { s.circuit c with stir := none } := by
  unfold State.cutStir
  split
  · rename_i h
    rw [← h]
  · have h : (s.endStir c).circuit c = { s.circuit c with stir := none } := by simp [State.endStir]
    split <;> exact h

/-- The state READY or EMPTY. -/
def CircuitState.serves (g : CircuitState) : Bool := g == .ready || g == .empty

theorem inService_eq (r : Circuit) : r.inService = r.state.serves := rfl

/-- A move to READY or EMPTY makes the purge test. -/
theorem moveCircuit_serves (s : State) (c : Circ) {g : CircuitState} (hg : g.serves = true) :
    s.moveCircuit c g = (s.setCircuit c fun r => { r with state := g }).purgeTest c := by
  have hn : ¬(g = .service ∨ g = .unfitted) := by
    rintro (rfl | rfl) <;> cases hg
  simp [State.moveCircuit, inService_eq, hg, hn]

/-- A circuit enters SERVICE or UNFITTED: it leaves the due list. -/
def State.dropOutside (s : State) (c : Circ) (g : CircuitState) : State :=
  if g = .service ∨ g = .unfitted then s.dropDue c else s

@[simp] theorem dropOutside_circuit (g : CircuitState) (d : Circ) : (s.dropOutside c g).circuit d = s.circuit d := by
  unfold State.dropOutside
  split <;> rfl

@[simp] theorem dropOutside_pump (g : CircuitState) (d : Circ) : (s.dropOutside c g).pump d = s.pump d := by
  unfold State.dropOutside
  split <;> rfl

/-- A move out of READY or EMPTY cuts a running stir, which goes back into the due list, and clears a purge due. -/
theorem moveCircuit_leaves (s : State) (c : Circ) {g : CircuitState} (h : (s.circuit c).state.serves = true)
    (hg : g.serves = false) : s.moveCircuit c g
      = (((s.setCircuit c fun r => { r with state := g }).cutStir c true).clearPurgeDue c).dropOutside c g := by
  simp [State.moveCircuit, State.dropOutside, inService_eq, h, hg]

/-- Another move changes the state alone. -/
theorem moveCircuit_outside (s : State) (c : Circ) {g : CircuitState} (h : (s.circuit c).state.serves = false)
    (hg : g.serves = false) :
    s.moveCircuit c g = (s.setCircuit c fun r => { r with state := g }).dropOutside c g := by
  simp [State.moveCircuit, State.dropOutside, inService_eq, h, hg]

/-- The three kinds of move. -/
theorem moveCircuit_cases (s : State) (c : Circ) (g : CircuitState) :
    g.serves = true ∨ (g.serves = false ∧ (s.circuit c).state.serves = true)
      ∨ (g.serves = false ∧ (s.circuit c).state.serves = false) := by
  cases g.serves <;> cases (s.circuit c).state.serves <;> simp

theorem moveCircuit_leaves_circuit {g : CircuitState} (h : (s.circuit c).state.serves = true) (hg : g.serves = false) :
    (s.moveCircuit c g).circuit c = { s.circuit c with state := g, stir := none, purgeDue := none } := by
  rw [moveCircuit_leaves s c h hg, dropOutside_circuit, clearPurgeDue_circuit, cutStir_circuit, setCircuit_circuit]

theorem moveCircuit_outside_circuit {g : CircuitState} (h : (s.circuit c).state.serves = false) (hg : g.serves = false) :
    (s.moveCircuit c g).circuit c = { s.circuit c with state := g } := by
  rw [moveCircuit_outside s c h hg, dropOutside_circuit, setCircuit_circuit]

@[simp] theorem moveCircuit_state (s : State) (c : Circ) (g : CircuitState) :
    ((s.moveCircuit c g).circuit c).state = g := by
  rcases moveCircuit_cases s c g with hg | ⟨hg, h⟩ | ⟨hg, h⟩
  · rw [moveCircuit_serves s c hg, purgeTest_circuit, setCircuit_circuit]
    split <;> rfl
  · rw [moveCircuit_leaves_circuit h hg]
  · rw [moveCircuit_outside_circuit h hg]

/-- A circuit that enters SERVICE or UNFITTED is not in the due list. -/
theorem moveCircuit_due {g : CircuitState} (hg : g = .service ∨ g = .unfitted) :
    ∀ x ∈ (s.moveCircuit c g).cares.due, x.1 ≠ c := by
  have hd (u : State) : ∀ x ∈ (u.dropOutside c g).cares.due, x.1 ≠ c := by
    rw [State.dropOutside, if_pos hg]
    intro x hx
    simpa using (List.mem_filter.mp hx).2
  have hs : g.serves = false := by rcases hg with rfl | rfl <;> rfl
  rcases moveCircuit_cases s c g with hg | ⟨-, h⟩ | ⟨-, h⟩
  · rw [hs] at hg; cases hg
  · rw [moveCircuit_leaves s c h hs]; exact hd _
  · rw [moveCircuit_outside s c h hs]; exact hd _

/-! ### The activity after a move -/

/-- An activity that waited for the stirrer runs. -/
def Activity.woken (a : Activity) : Activity := if a.run = .waitingStir then { a with run := .running } else a

theorem woken_of_ne {a : Activity} (h : a.run ≠ .waitingStir) : a.woken = a := if_neg h

theorem woken_woken (a : Activity) : a.woken.woken = a.woken := by
  unfold Activity.woken
  split <;> simp_all

theorem woken_fields (a : Activity) : a.woken.atBoundary = a.atBoundary ∧ a.woken.kind = a.kind ∧ a.woken.owner = a.owner := by
  unfold Activity.woken
  split <;> simp

/-- The pump of circuit c is told at most that its stirrer has stopped. -/
def Woken (c : Circ) (s t : State) : Prop :=
  t.pump c = s.pump c ∨ t.pump c = { s.pump c with activity := (s.pump c).activity.map Activity.woken }

theorem Woken.of (h : t.pump c = s.pump c := by rfl) : Woken c s t := .inl h

theorem Woken.trans (h : Woken c s t) (k : Woken c t u) : Woken c s u := by
  unfold Woken
  rcases h with h | h <;> rcases k with k | k <;> rw [k, h]
  · exact .inl rfl
  · exact .inr rfl
  · exact .inr rfl
  · refine .inr ?_
    cases (s.pump c).activity <;> simp [woken_woken]

theorem Woken.next (h : Woken c s t) : (t.pump c).next = (s.pump c).next ∧ (t.pump c).heldPrime = (s.pump c).heldPrime := by
  rcases h with h | h <;> rw [h] <;> exact ⟨rfl, rfl⟩

theorem Woken.activity (h : Woken c s t) :
    (t.pump c).activity = (s.pump c).activity ∨ (t.pump c).activity = (s.pump c).activity.map Activity.woken := by
  rcases h with h | h <;> rw [h]
  · exact .inl rfl
  · exact .inr rfl

theorem woken_cutStir (back : Bool) : Woken c s (s.cutStir c back) := by
  have he : Woken c s (s.endStir c) := .inr (by
    simp only [State.endStir, State.setActivity, setPump_pump, setCircuit_pump]
    rfl)
  unfold State.cutStir
  split
  · exact .of
  · split
    · exact he.trans .of
    · exact he

theorem woken_clearPurgeDue : Woken c s (s.clearPurgeDue c) := by
  unfold State.clearPurgeDue
  split
  · exact .of
  · exact .of

theorem woken_purgeTest : Woken c s (s.purgeTest c) := by
  unfold State.purgeTest
  split
  · exact .of
  · exact .of

theorem woken_moveCircuit (g : CircuitState) : Woken c s (s.moveCircuit c g) := by
  have h1 : Woken c s (s.setCircuit c fun r => { r with state := g }) := .of
  rcases moveCircuit_cases s c g with hg | ⟨hg, h⟩ | ⟨hg, h⟩
  · rw [moveCircuit_serves s c hg]
    exact h1.trans woken_purgeTest
  · rw [moveCircuit_leaves s c h hg]
    exact h1.trans ((woken_cutStir true).trans (woken_clearPurgeDue.trans (.of (dropOutside_pump g c))))
  · rw [moveCircuit_outside s c h hg]
    exact h1.trans (.of (dropOutside_pump g c))

/-! ### Changes within or outside READY and EMPTY -/

/-- Between s and t circuit c has stayed in READY and EMPTY, or in its state outside them; its lot, its reason, the tag jobs and
the rest that no operation on circuit c changes are the same. The LOW evaluation, the EMPTY check, reductions, purge dues and
the end of a run that is cut are such changes. -/
structure Stays (c : Circ) (s t : State) : Prop where
  beside : Local c s t
  tag : t.tag = s.tag
  lot : (t.circuit c).lot = (s.circuit c).lot
  reason : (t.circuit c).reason = (s.circuit c).reason
  state : (t.circuit c).state = (s.circuit c).state
    ∨ ((t.circuit c).state.serves = true ∧ (s.circuit c).state.serves = true)

theorem Stays.refl (c : Circ) (s : State) : Stays c s s := ⟨.refl c s, rfl, rfl, rfl, .inl rfl⟩

theorem Stays.trans (h : Stays c s t) (k : Stays c t u) : Stays c s u := by
  refine ⟨h.beside.trans k.beside, k.tag.trans h.tag, k.lot.trans h.lot, k.reason.trans h.reason, ?_⟩
  rcases h.state with hs | ⟨ht, hs⟩ <;> rcases k.state with ks | ⟨ku, kt⟩
  · exact .inl (ks.trans hs)
  · exact .inr ⟨ku, hs ▸ kt⟩
  · exact .inr ⟨ks ▸ ht, hs⟩
  · exact .inr ⟨ku, hs⟩

theorem Stays.serves (h : Stays c s t) : (t.circuit c).state.serves = (s.circuit c).state.serves := by
  rcases h.state with e | ⟨ht, hs⟩
  · rw [e]
  · rw [ht, hs]

/-- A change that leaves the circuits and the Tag Bus. -/
theorem Stays.of (h : Local c s t) (hc : t.circuits = s.circuits := by rfl) (ht : t.tag = s.tag := by rfl) :
    Stays c s t := by
  refine ⟨h, ht, ?_, ?_, .inl ?_⟩ <;> rw [circuit_congr hc]

/-- Such a change that leaves the activity of the pump, but for a wait for the stirrer. -/
structure Tends (c : Circ) (s t : State) : Prop extends Stays c s t where
  pump : Woken c s t

theorem Tends.refl (c : Circ) (s : State) : Tends c s s := ⟨.refl c s, .of⟩

theorem Tends.trans (h : Tends c s t) (k : Tends c t u) : Tends c s u :=
  ⟨h.toStays.trans k.toStays, h.pump.trans k.pump⟩

theorem Tends.ite {p : Prop} [Decidable p] (h : p → Tends c s t) (k : ¬p → Tends c s u) :
    Tends c s (if p then t else u) := by
  split
  · rename_i hp; exact h hp
  · rename_i hp; exact k hp

/-- A change of circuit c that leaves its lot, its reason and its state. -/
theorem tends_setCircuit {f : Circuit → Circuit} (h : (f (s.circuit c)).lasting = (s.circuit c).lasting)
    (hf : (f (s.circuit c)).lot = (s.circuit c).lot ∧ (f (s.circuit c)).reason = (s.circuit c).reason
      ∧ (f (s.circuit c)).state = (s.circuit c).state) : Tends c s (s.setCircuit c f) := by
  obtain ⟨hl, hr, hs⟩ := hf
  refine ⟨⟨.of (beside_setCircuit h), rfl, ?_, ?_, .inl ?_⟩, .of⟩ <;> rw [setCircuit_circuit] <;> assumption

theorem tends_setFlag (f : Flag) (items : List Item) : Tends c s (s.setFlag f items) :=
  ⟨.of (.setFlag f items), .of⟩

theorem tends_markDirty : Tends c s (s.markDirty c) := ⟨.of (.of beside_markDirty), .of⟩

theorem tends_clearPurgeDue : Tends c s (s.clearPurgeDue c) := by
  refine ⟨⟨.clearPurgeDue c s, ?_, ?_, ?_, .inl ?_⟩, woken_clearPurgeDue⟩
  · exact (account_iff.mp account_clearPurgeDue).2.2.2.1
  all_goals rw [clearPurgeDue_circuit]

theorem tends_clearIntervalDue : Tends c s (s.clearIntervalDue c) :=
  .ite (fun _ => tends_clearPurgeDue) fun _ => .refl c s

theorem tends_purgeTest : Tends c s (s.purgeTest c) :=
  .ite (fun _ => tends_setCircuit rfl ⟨rfl, rfl, rfl⟩) fun _ => .refl c s

theorem tends_moveCircuit {g : CircuitState} (h : (s.circuit c).state.serves = true) (hg : g.serves = true) :
    Tends c s (s.moveCircuit c g) := by
  obtain ⟨he, -, -, ht, -⟩ := account_iff.mp (account_moveCircuit (s := s) (c := c) g)
  have e := moveCircuit_circuit s c g
  exact ⟨⟨.moveCircuit c s g, ht, by rw [e], by rw [e], .inr ⟨by rw [moveCircuit_state, hg], h⟩⟩, woken_moveCircuit g⟩

theorem tends_lowEvaluate : Tends c s (s.lowEvaluate c) :=
  .ite (fun _ => tends_setCircuit rfl ⟨rfl, rfl, rfl⟩) fun _ =>
    .ite (fun _ => (tends_setCircuit rfl ⟨rfl, rfl, rfl⟩).trans (tends_setFlag _ _)) fun _ => .refl c s

theorem tends_emptyCheck : Tends c s (s.emptyCheck c) :=
  .ite (fun h => (tends_moveCircuit (by rw [h.1]; rfl) rfl).trans (tends_setFlag _ _)) fun _ => .refl c s

theorem tends_reduceLevel (n : Nat) (t : Int) : Tends c s (s.reduceLevel c n t) := by
  by_cases hn : n = 0
  · rw [hn, reduceLevel_zero]
    exact .refl c s
  · rw [reduceLevel_pos s c t hn]
    have h1 : Tends c s (s.setCircuit c fun r => r.reduced n t s.now) :=
      tends_setCircuit (lasting_reduced _ _ _ _) (reduced_keeps _ _ _ _)
    exact h1.trans (tends_markDirty.trans (tends_lowEvaluate.trans tends_emptyCheck))

theorem tends_keepDelivery (a : Activity) (b : Circuit) : Tends c s (s.keepDelivery c a b) :=
  .ite (fun _ => tends_setCircuit rfl ⟨rfl, rfl, rfl⟩) fun _ => .refl c s

theorem tends_doseEnded (id k : Nat) (a : Activity) (v : Nat) (w : EndCause) : Tends c s (s.doseEnded c id k a v w) := by
  have ht : ∃ x : Track, s.doseEnded c id k a v w = { s with track := x } := by
    unfold State.doseEnded
    dsimp only
    split <;> split <;> exact ⟨_, rfl⟩
  have hl := Local.doseEnded (c := c) s id k a v w
  obtain ⟨x, e⟩ := ht
  rw [e] at hl ⊢
  exact ⟨.of hl, .of⟩

/-- A cut is told to the owner of a run without a move of the circuit. -/
theorem tends_tellOwner (a : Activity) (v : Nat) (w : CutCause) : Tends c s (s.tellOwner c a v (.cut w)) := by
  unfold State.tellOwner
  split
  · exact .ite (fun _ => tends_doseEnded _ _ a v _) fun _ => (tends_doseEnded _ _ a v _).trans tends_clearIntervalDue
  · have h (f : Option CalRun → Option CalRun) : Tends c s { s with stn := { s.stn with cal := f s.stn.cal } } :=
      ⟨.of (.of rfl), .of⟩
    exact .ite (fun _ => h _) fun _ => (h _).trans tends_clearIntervalDue
  · exact .refl c s
  · exact .refl c s

end Sys2Proof.Machine
end

