-- ==== Sys2Proof/Proofs/Releases.lean ====
section
/-! O21: CANOUT. -/

namespace Sys2Proof.Machine

set_option Elab.async false

variable {c : Circ} {s : State}

/-- A move between states changes circuits, pumps, the station and the dues alone. -/
theorem moveCircuit_frame (s : State) (c : Circ) (g : CircuitState) : s.moveCircuit c g
    = { s with
        circuits := (s.moveCircuit c g).circuits
        drive := (s.moveCircuit c g).drive
        stn := (s.moveCircuit c g).stn
        cares := (s.moveCircuit c g).cares } := by
  have hstir (u : State) (b : Bool) : u.cutStir c b
      = { u with circuits := (u.cutStir c b).circuits, drive := (u.cutStir c b).drive, cares := (u.cutStir c b).cares } := by
    unfold State.cutStir
    split
    · rfl
    · split <;> rfl
  have hpurge (u : State) : u.clearPurgeDue c
      = { u with circuits := (u.clearPurgeDue c).circuits, stn := (u.clearPurgeDue c).stn } := by
    unfold State.clearPurgeDue
    split <;> rfl
  have hdrop (u : State) : u.dropOutside c g = { u with cares := (u.dropOutside c g).cares } := by
    unfold State.dropOutside
    split <;> rfl
  rcases moveCircuit_cases s c g with hg | ⟨hg, h⟩ | ⟨hg, h⟩
  · rw [moveCircuit_serves s c hg]
    unfold State.purgeTest
    split <;> rfl
  · rw [moveCircuit_leaves s c h hg, hdrop, hpurge, hstir]
    rfl
  · rw [moveCircuit_outside s c h hg, hdrop]
    rfl

/-! ### The due list -/

theorem mem_insertDue (x y : Circ × Nat) (l : List (Circ × Nat)) : x ∈ insertDue y l ↔ x = y ∨ x ∈ l := by
  induction l with
  | nil => simp [insertDue]
  | cons z l ih =>
    unfold insertDue
    split
    · simp
    · rw [List.mem_cons, ih, List.mem_cons]
      tauto

/-- A stir that is cut goes back into the due list with its due time. -/
theorem cutStir_mem_due (x : Circ × Nat) : x ∈ (s.cutStir c true).cares.due ↔
    x ∈ s.cares.due ∨ (x.1 = c ∧ (s.circuit c).stir.map (·.due) = some x.2) := by
  unfold State.cutStir
  split
  · rename_i h
    simp [h]
  · rename_i st h
    simp only [if_true, State.addDue, mem_insertDue, h, Option.map_some, Option.some.injEq]
    have e : x = (c, st.due) ↔ x.1 = c ∧ st.due = x.2 := by
      rw [Prod.ext_iff, eq_comm (a := x.2)]
    rw [e, or_comm]
    rfl

theorem clearPurgeDue_cares : (s.clearPurgeDue c).cares = s.cares := by
  unfold State.clearPurgeDue
  split <;> rfl

/-- The due list after a circuit leaves READY and EMPTY for a state that keeps it there. -/
theorem moveCircuit_mem_due {g : CircuitState} (hg : g.serves = false) (hs : ¬(g = .service ∨ g = .unfitted))
    (x : Circ × Nat) : x ∈ (s.moveCircuit c g).cares.due ↔ x ∈ s.cares.due
      ∨ ((s.circuit c).state.serves = true ∧ x.1 = c ∧ (s.circuit c).stir.map (·.due) = some x.2) := by
  cases h : (s.circuit c).state.serves
  · rw [moveCircuit_outside s c h hg, State.dropOutside, if_neg hs]
    simp
  · rw [moveCircuit_leaves s c h hg, State.dropOutside, if_neg hs, clearPurgeDue_cares, cutStir_mem_due]
    simp

/-- The due list after a circuit goes to SERVICE or UNFITTED. -/
theorem moveCircuit_mem_due_outside {g : CircuitState} (hg : g = .service ∨ g = .unfitted) (x : Circ × Nat) :
    x ∈ (s.moveCircuit c g).cares.due ↔ x ∈ s.cares.due ∧ x.1 ≠ c := by
  have e := congrArg (x ∈ ·) (Local.moveCircuit c s g).dueElsewhere
  simp only [List.mem_filter, bne_iff_ne, eq_iff_iff] at e
  exact ⟨fun hx => e.mp ⟨hx, moveCircuit_due hg x hx⟩, fun hx => (e.mpr hx).1⟩

/-! ### A release (R12) -/

/-- The release has begun: the circuit is in RELEASING, with the state it comes from. -/
def State.releasing (s : State) (c : Circ) : State :=
  (s.setCircuit c fun r => { r with origin := .of r.state }).moveCircuit c .releasing

theorem release_of_lot {l : Text} (h : (s.circuit c).lot = some l) :
    s.release c = ((s.releasing c).markDirty c).askTag c (.write ((s.circuit c).level / 100)) := by
  simp only [State.release, h]
  rfl

theorem release_of_no_lot (h : (s.circuit c).lot = none) :
    s.release c = ((s.releasing c).moveCircuit c .service).setCircuit c fun r => { r with latchOpen := true } := by
  simp only [State.release, h]
  rfl

theorem releasing_frame (s : State) (c : Circ) : s.releasing c
    = { s with
        circuits := (s.releasing c).circuits
        drive := (s.releasing c).drive
        stn := (s.releasing c).stn
        cares := (s.releasing c).cares } := by
  unfold State.releasing
  rw [moveCircuit_frame]
  rfl

theorem releasing_circuit_ne {d : Circ} (h : d ≠ c) : (s.releasing c).circuit d = s.circuit d :=
  ((Local.moveCircuit c _ .releasing).circuit_ne h).trans (setCircuit_circuit_ne s _ h)

theorem releasing_state : ((s.releasing c).circuit c).state = .releasing := moveCircuit_state _ c _

theorem releasing_origin : ((s.releasing c).circuit c).origin = .of (s.circuit c).state := by
  unfold State.releasing
  rw [moveCircuit_circuit, setCircuit_circuit]

/-- A release out of READY or EMPTY ends the stir and clears a purge due. -/
theorem releasing_leaves (h : (s.circuit c).state.serves = true) :
    ((s.releasing c).circuit c).stir = none ∧ ((s.releasing c).circuit c).purgeDue = none := by
  unfold State.releasing
  rw [moveCircuit_leaves_circuit (by rw [setCircuit_circuit]; exact h) rfl]
  exact ⟨rfl, rfl⟩

theorem releasing_mem_due (x : Circ × Nat) : x ∈ (s.releasing c).cares.due ↔ x ∈ s.cares.due
    ∨ ((s.circuit c).state.serves = true ∧ x.1 = c ∧ (s.circuit c).stir.map (·.due) = some x.2) := by
  unfold State.releasing
  rw [moveCircuit_mem_due rfl (by simp), setCircuit_circuit]
  rfl

/-- A release with tag facts asks for the write of the tag and marks the level dirty. -/
theorem release_of_lot_frame {l : Text} (h : (s.circuit c).lot = some l) : s.release c
    = { s.releasing c with
        tag := s.tag.ask ⟨c, .write ((s.circuit c).level / 100)⟩
        store := { s.store with dirty := s.store.dirty.set c.val true } } := by
  rw [release_of_lot h, releasing_frame]
  rfl

/-- A release without tag facts ends at once. -/
theorem release_of_no_lot_frame (h : (s.circuit c).lot = none) : s.release c
    = { s with
        circuits := (s.release c).circuits
        drive := (s.release c).drive
        stn := (s.release c).stn
        cares := (s.release c).cares } := by
  rw [release_of_no_lot h, moveCircuit_frame, releasing_frame]
  rfl

theorem release_unchanged (s : State) (c : Circ) :
    Unchanged [.circuits, .drive, .store, .station, .tagBus, .care] s (s.release c) := by
  cases hl : (s.circuit c).lot with
  | some l =>
    rw [release_of_lot_frame hl, releasing_frame]
    refine ⟨rfl, rfl, fun p hp => ?_⟩
    cases p <;> simp [Part.same] at hp ⊢
  | none =>
    rw [release_of_no_lot_frame hl]
    refine ⟨rfl, rfl, fun p hp => ?_⟩
    cases p <;> simp [Part.same] at hp ⊢

theorem release_circuit_ne {d : Circ} (h : d ≠ c) : (s.release c).circuit d = s.circuit d := by
  cases hl : (s.circuit c).lot with
  | some l => rw [release_of_lot hl]; exact releasing_circuit_ne h
  | none =>
    rw [release_of_no_lot hl, setCircuit_circuit_ne _ _ h, (Local.moveCircuit c _ .service).circuit_ne h,
      releasing_circuit_ne h]

/-- The circuit after a release without tag facts. -/
theorem release_of_no_lot_circuit (h : (s.circuit c).lot = none) : (s.release c).circuit c
    = { (s.releasing c).circuit c with state := .service, latchOpen := true } := by
  have hs : ((s.releasing c).circuit c).state.serves = false := by rw [releasing_state]; rfl
  rw [release_of_no_lot h, setCircuit_circuit, moveCircuit_outside_circuit hs rfl]

theorem release_leaves (h : (s.circuit c).state.serves = true) :
    ((s.release c).circuit c).stir = none ∧ ((s.release c).circuit c).purgeDue = none := by
  cases hl : (s.circuit c).lot with
  | some l => rw [release_of_lot hl]; exact releasing_leaves h
  | none => rw [release_of_no_lot_circuit hl]; exact releasing_leaves h

theorem release_mem_due (x : Circ × Nat) : x ∈ (s.release c).cares.due ↔
    if (s.circuit c).lot = none then x ∈ s.cares.due ∧ x.1 ≠ c
    else x ∈ s.cares.due
      ∨ ((s.circuit c).state.serves = true ∧ x.1 = c ∧ (s.circuit c).stir.map (·.due) = some x.2) := by
  cases hl : (s.circuit c).lot with
  | some l =>
    rw [release_of_lot hl, if_neg (by simp)]
    exact releasing_mem_due x
  | none =>
    rw [release_of_no_lot hl, if_pos rfl]
    refine (moveCircuit_mem_due_outside (.inl rfl) x).trans ?_
    rw [releasing_mem_due]
    tauto

/-! ### CANOUT (R12) -/

/-- What CANOUT answers in each state of the circuit. -/
theorem canout_answer {fs : Fields} (hm : fs.malformed ["circuit"] ["circuit"] ["circuit"] = false)
    (hc : (fs.num "circuit").bind circ? = some c) :
    ((s.circuit c).state = .unfitted → canoutAnswer fs s = .refuse .state)
      ∧ ((s.circuit c).state = .checking ∨ (s.circuit c).state = .priming ∨ (s.circuit c).state = .releasing →
        canoutAnswer fs s = .refuse .busy)
      ∧ ((s.circuit c).state = .service →
        canoutAnswer fs s = .accept [] fun u => u.setCircuit c fun r => { r with latchOpen := true })
      ∧ ((s.circuit c).state = .ready ∨ (s.circuit c).state = .empty ∨ (s.circuit c).state = .blocked →
        canoutAnswer fs s = .check (s.pump c).activity.isSome .busy (.accept [] fun u => u.release c)) := by
  simp only [canoutAnswer, hm, circ?_numD hc, Answer.check_false]
  refine ⟨fun h => ?_, ?_, fun h => ?_, ?_⟩
  · simp only [h]
  · rintro (h | h | h) <;> simp only [h]
  · simp only [h]
  · rintro (h | h | h) <;> simp only [h]

/-- Settles O21. -/
theorem canoutReleases : Obligations.CanoutReleases := by
  intro s fs c hp hm hc r settled
  obtain ⟨hunfitted, hbusy, hservice, hsettled⟩ := canout_answer (s := s) hm hc
  refine ⟨fun h => ?_, fun h hi => ?_, fun h => request_refused hp (hunfitted h), fun h => ?_⟩
  · refine ⟨_, request_accepted hp (hservice h), setCircuit_circuit _ _ _, fun d hd => ?_, rfl, rfl, rfl, fun p hp => ?_⟩
    · exact setCircuit_circuit_ne _ _ (List.ne_of_not_mem_cons hd)
    · cases p <;> simp [Part.same] at hp ⊢
  · have hserves : r.state.serves = true ↔ r.state ≠ .blocked := by
      rcases h with h | h | h <;> simp only [h] <;> decide
    have ha := hsettled h
    rw [hi, Option.isSome_none, Answer.check_false] at ha
    refine ⟨_, request_accepted hp ha, ?_⟩
    refine ⟨fun l hl => ?_, fun hl => ?_, fun hb => release_leaves (hserves.mpr hb), fun x => ?_,
      fun d hd => release_circuit_ne (List.ne_of_not_mem_cons hd), (release_unchanged _ c).2.2 .link (by simp), ?_⟩
    · dsimp only
      rw [release_of_lot_frame (s := s.pushReply false (.ok [])) hl]
      exact ⟨releasing_state, releasing_origin, rfl, rfl⟩
    · rw [release_of_no_lot_circuit (s := s.pushReply false (.ok [])) hl,
        release_of_no_lot_frame (s := s.pushReply false (.ok [])) hl]
      exact ⟨rfl, rfl, rfl, rfl⟩
    · rw [release_mem_due, ← hserves]
      rfl
    · exact ((unchanged_pushReply s false _).trans (release_unchanged _ c)).mono (by decide)
  · have ha : canoutAnswer fs s = .refuse .busy := by
      rcases h with h | h | h | ⟨h, hi⟩
      · exact hbusy (.inl h)
      · exact hbusy (.inr (.inl h))
      · exact hbusy (.inr (.inr h))
      · rw [hsettled h, Option.isSome_iff_ne_none.mpr hi, Answer.check_true]
    exact request_refused hp ha

end Sys2Proof.Machine
end

