-- ==== Sys2Proof/Proofs/RunEnds.lean ====
section
/-! PROOF SUPPORT. The end of a run that is cut: what it takes from the level, what it makes of LOW and EMPTY, and what its owner
is told. -/

namespace Sys2Proof.Machine

set_option Elab.async false

variable {c : Circ} {s t u : State}

/-! ### Tins and their entries -/

/-- The record of a tin after a change of the records with its id. -/
theorem setTin_tin? (s : State) (id m : Nat) {f : Tin → Tin} (hf : ∀ t, (f t).id = t.id) :
    (s.setTin id f).tin? m = if m = id then (s.tin? id).map f else s.tin? m := by
  have hp (t : Tin) : ((if t.id = id then f t else t).id == m) = (t.id == m) := by
    split
    · rw [hf]
    · rfl
  simp only [State.tin?, State.setTin, List.find?_map, Function.comp_def, hp]
  split
  · rename_i e
    subst e
    cases h : s.track.tins.find? fun t => t.id == m with
    | none => rfl
    | some t =>
      have ht : t.id = m := by simpa using List.find?_some h
      simp [ht]
  · rename_i e
    cases h : s.track.tins.find? fun t => t.id == m with
    | none => rfl
    | some t =>
      have ht : t.id = m := by simpa using List.find?_some h
      simp [ht, e]

theorem modifyAt_eq_set {α : Type} {f : α → α} {k : Nat} {l : List α} {x : α} (h : l[k]? = some x) :
    modifyAt f k l = l.set k (f x) := by
  induction l generalizing k with
  | nil => cases h
  | cons y l ih =>
    cases k with
    | zero => simp_all [modifyAt]
    | succ k => simp only [modifyAt, List.set_cons_succ, ih (by simpa using h)]

/-- An entry of a tin is changed, and no other tin. -/
theorem setEntry_tin? {id k : Nat} {x : Tin} {e : DoseEntry} {f : DoseEntry → DoseEntry} (ht : s.tin? id = some x)
    (he : x.entries[k]? = some e) : (s.setEntry id k f).tin? id = some { x with entries := x.entries.set k (f e) } := by
  rw [State.setEntry, setTin_tin?, if_pos rfl, ht, Option.map_some, modifyAt_eq_set he]
  exact fun _ => rfl

theorem setEntry_tin?_ne {id k m : Nat} {f : DoseEntry → DoseEntry} (h : m ≠ id) :
    (s.setEntry id k f).tin? m = s.tin? m := by
  rw [State.setEntry, setTin_tin?, if_neg h]
  exact fun _ => rfl

theorem noteTin_tin? (s : State) (id m : Nat) (n : Note) :
    (s.noteTin id n).tin? m = if m = id then (s.tin? id).map (·.note n) else s.tin? m :=
  setTin_tin? s id m fun t => by unfold Tin.note; split <;> rfl

theorem mem_note (t : Tin) (n x : Note) : x ∈ (t.note n).notes ↔ x ∈ t.notes ∨ x = n := by
  unfold Tin.note
  split
  · rename_i h
    constructor
    · exact .inl
    · rintro (hx | rfl)
      · exact hx
      · exact h
  · simp

/-- A note that is put under a condition. -/
def Tin.noteIf (t : Tin) (p : Bool) (n : Note) : Tin := if p then t.note n else t

theorem noteIf_eq (t : Tin) (p : Bool) (n : Note) : t.noteIf p n = { t with notes := (t.noteIf p n).notes } := by
  unfold Tin.noteIf Tin.note
  repeat' split
  all_goals rfl

theorem mem_noteIf (t : Tin) (p : Bool) (n x : Note) : x ∈ (t.noteIf p n).notes ↔ x ∈ t.notes ∨ (x = n ∧ p = true) := by
  cases p
  · simp [Tin.noteIf]
  · simp [Tin.noteIf, mem_note]

theorem noteIf_tin? {id : Nat} {x : Tin} (p : Bool) (n : Note) (h : s.tin? id = some x) :
    (if p then s.noteTin id n else s).tin? id = some (x.noteIf p n) := by
  cases p
  · exact h
  · rw [if_pos rfl, noteTin_tin?, if_pos rfl, h]
    rfl

theorem noteIf_tin?_ne {id m : Nat} (p : Bool) (n : Note) (h : m ≠ id) :
    (if p then s.noteTin id n else s).tin? m = s.tin? m := by
  cases p
  · rfl
  · rw [if_pos rfl, noteTin_tin?, if_neg h]

/-! ### The entry of a tin whose dose has ended (R58, R100) -/

/-- The dose entry after the end of a run of activity a with the volume v, the density rho and the outcome out. -/
def DoseEntry.ended (e : DoseEntry) (a : Activity) (v rho : Nat) (out : RunOutcome) : DoseEntry :=
  { e with
    handing := .ended
    delivered := a.delivered
    deliveredVolume := v
    run := some out
    mass := roundHalfUp (v * rho) 1000 }

/-- Whether an end with the outcome leaves a dose too small. -/
def RunOutcome.isShort : RunOutcome → Bool
  | .cut .pumpFault | .cut .removed => true
  | _ => false

theorem doseEnded_eq (s : State) (c : Circ) (id k : Nat) (a : Activity) (v : Nat) (w : EndCause) :
    s.doseEnded c id k a v w =
      let s1 := s.setEntry id k fun e => e.ended a v (s.circuit c).cfg.density (doseOutcome a w)
      let s2 := if (doseOutcome a w).isShort then s1.noteTin id .shortDose else s1
      if a.stopSeen then s2.noteTin id .interrupted else s2 := by
  unfold State.doseEnded
  dsimp only
  generalize doseOutcome a w = out
  cases out with
  | delivered => rfl
  | cut why => cases why <;> rfl
  | notRun => rfl

theorem doseEnded_tin? {id k : Nat} {x : Tin} {e : DoseEntry} (a : Activity) (v : Nat) (w : EndCause)
    (ht : s.tin? id = some x) (he : x.entries[k]? = some e) :
    ∃ ns, (s.doseEnded c id k a v w).tin? id = some
        { x with notes := ns, entries := x.entries.set k (e.ended a v (s.circuit c).cfg.density (doseOutcome a w)) }
      ∧ ∀ n, n ∈ ns ↔ n ∈ x.notes ∨ (n = .shortDose ∧ (doseOutcome a w).isShort = true)
          ∨ (n = .interrupted ∧ a.stopSeen = true) := by
  rw [doseEnded_eq]
  have h1 := setEntry_tin? (f := fun e => e.ended a v (s.circuit c).cfg.density (doseOutcome a w)) ht he
  have h3 := noteIf_tin? a.stopSeen .interrupted (noteIf_tin? (doseOutcome a w).isShort .shortDose h1)
  rw [noteIf_eq, noteIf_eq _ (doseOutcome a w).isShort] at h3
  refine ⟨_, h3, fun n => ?_⟩
  rw [mem_noteIf, mem_noteIf, or_assoc]

theorem doseEnded_tin?_ne {id k m : Nat} (a : Activity) (v : Nat) (w : EndCause) (h : m ≠ id) :
    (s.doseEnded c id k a v w).tin? m = s.tin? m := by
  rw [doseEnded_eq]
  dsimp only
  rw [noteIf_tin?_ne _ _ h, noteIf_tin?_ne _ _ h, setEntry_tin?_ne h]

/-! ### The LOW evaluation and the EMPTY check (R16, R17) -/

theorem lowEvaluate_circuit (s : State) (c : Circ) : (s.lowEvaluate c).circuit c
    = { s.circuit c with lowArmed := decide ((s.circuit c).cfg.low ≤ (s.circuit c).level) } := by
  unfold State.lowEvaluate
  dsimp only
  split
  · rename_i h
    rw [setCircuit_circuit, decide_eq_true h]
  · rename_i h
    rw [decide_eq_false h]
    split
    · exact setCircuit_circuit s c _
    · rename_i ha
      rw [← Bool.eq_false_of_not_eq_true ha]

/-- An armed LOW fires below its threshold. -/
theorem lowEvaluate_fires (h : (s.circuit c).level < (s.circuit c).cfg.low) (ha : (s.circuit c).lowArmed = true) :
    (s.lowEvaluate c).link.isSet (.low c) = true := by
  unfold State.lowEvaluate
  dsimp only
  rw [if_neg (Nat.not_le.mpr h), if_pos ha]
  exact Link.isSet_setFlag_self _ _ _

theorem lowEvaluate_keeps (s : State) (c : Circ) :
    (s.lowEvaluate c).store = s.store ∧ (s.lowEvaluate c).track = s.track ∧ (s.lowEvaluate c).stn = s.stn
      ∧ (s.lowEvaluate c).cares = s.cares ∧ (s.lowEvaluate c).drive = s.drive := by
  unfold State.lowEvaluate
  dsimp only
  repeat' split
  all_goals exact ⟨rfl, rfl, rfl, rfl, rfl⟩

/-- A READY circuit at or below its reserve is flagged EMPTY. -/
theorem emptyCheck_fires (h : (s.circuit c).state = .ready) (hl : (s.circuit c).level ≤ (s.circuit c).cfg.reserve) :
    (s.emptyCheck c).link.isSet (.empty c) = true := by
  unfold State.emptyCheck
  dsimp only
  rw [if_pos ⟨h, hl⟩]
  exact Link.isSet_setFlag_self _ _ _

/-! ### Levels of circuit c -/

/-- What the end of a run is reported in: the level, the last-delivery time and the LOW condition of a circuit. -/
def Circuit.reading (r : Circuit) : Nat × Nat × Bool := (r.level, r.lastDelivery, r.lowArmed)

theorem reading_of_stationary {r x : Circuit} (h : x.stationary = r.stationary) : x.reading = r.reading := by
  rw [(stationary_iff r x).mp h]
  rfl

/-- What circuit c reads, the store, the tins and the calibration run after a reduction by n > 0 steps. -/
theorem reduceLevel_spec {n : Nat} {t : Int} {v : Nat} (hn : n ≠ 0)
    (hv : v = stepsVolume n (s.circuit c).cfg.k t) :
    ((s.reduceLevel c n t).circuit c).reading
        = ((s.circuit c).level - v, s.now, decide ((s.circuit c).cfg.low ≤ (s.circuit c).level - v))
      ∧ (s.reduceLevel c n t).store = (s.markDirty c).store ∧ (s.reduceLevel c n t).track = s.track
      ∧ (s.reduceLevel c n t).stn.cal = s.stn.cal
      ∧ ((s.circuit c).level - v < (s.circuit c).cfg.low → (s.circuit c).lowArmed = true →
        (s.reduceLevel c n t).link.isSet (.low c) = true)
      ∧ ((s.circuit c).state = .ready → (s.circuit c).level - v ≤ (s.circuit c).cfg.reserve →
        (s.reduceLevel c n t).link.isSet (.empty c) = true) := by
  rw [reduceLevel_pos s c t hn]
  have hr : (s.circuit c).reduced n t s.now = { s.circuit c with level := (s.circuit c).level - v, lastDelivery := s.now } := by
    rw [hv]
    rfl
  generalize hs1 : ((s.setCircuit c fun r => r.reduced n t s.now).markDirty c) = s1
  have hc : s1.circuit c = { s.circuit c with level := (s.circuit c).level - v, lastDelivery := s.now } := by
    rw [← hs1, ← hr]
    exact setCircuit_circuit s c _
  have hlow := lowEvaluate_circuit s1 c
  rw [hc] at hlow
  obtain ⟨hstore, htrack, hstn, -, -⟩ := lowEvaluate_keeps s1 c
  obtain ⟨estat, estore, etrack, -, ecal, -⟩ := account_iff.mp (account_emptyCheck (s := s1.lowEvaluate c) (c := c))
  refine ⟨?_, ?_, ?_, ?_, fun hl ha => ?_, fun hs hl => ?_⟩
  · rw [reading_of_stationary estat, hlow]
    rfl
  · rw [estore, hstore, ← hs1]
    rfl
  · rw [etrack, htrack, ← hs1]
    rfl
  · rw [ecal, hstn, ← hs1]
    rfl
  · exact (Local.emptyCheck c _).link.flags _ (lowEvaluate_fires (by rw [hc]; exact hl) (by rw [hc]; exact ha))
  · exact emptyCheck_fires (by rw [hlow]; exact hs) (by rw [hlow]; exact hl)

/-! ### What the owner of a run that is cut is told -/

theorem clearIntervalDue_tin? (s : State) (m : Nat) : (s.clearIntervalDue c).tin? m = s.tin? m := by
  obtain ⟨-, -, ht, -⟩ := account_iff.mp (account_clearIntervalDue (s := s) (c := c))
  simp only [State.tin?, ht]

/-- The end of a run that is cut leaves the level, the last-delivery time and LOW, and the store. -/
theorem tellOwner_cut_keeps (a : Activity) (v : Nat) (w : CutCause) :
    ((s.tellOwner c a v (.cut w)).circuit c).reading = (s.circuit c).reading
      ∧ (s.tellOwner c a v (.cut w)).store = s.store := by
  have hi (u : State) : ((u.clearIntervalDue c).circuit c).reading = (u.circuit c).reading
      ∧ (u.clearIntervalDue c).store = u.store := by
    obtain ⟨hc, hs, -⟩ := account_iff.mp (account_clearIntervalDue (s := u) (c := c))
    exact ⟨reading_of_stationary hc, hs⟩
  have hd (id k : Nat) : ((s.doseEnded c id k a v (.cut w)).circuit c) = s.circuit c
      ∧ (s.doseEnded c id k a v (.cut w)).store = s.store := by
    rw [doseEnded_eq]
    dsimp only
    repeat' split
    all_goals exact ⟨rfl, rfl⟩
  unfold State.tellOwner
  split
  · dsimp only
    split
    · rw [(hd _ _).1]; exact ⟨rfl, (hd _ _).2⟩
    · rw [(hi _).1, (hi _).2, (hd _ _).1]; exact ⟨rfl, (hd _ _).2⟩
  · dsimp only
    split
    · exact ⟨rfl, rfl⟩
    · rw [(hi _).1, (hi _).2]; exact ⟨rfl, rfl⟩
  · exact ⟨rfl, rfl⟩
  · exact ⟨rfl, rfl⟩

/-- A tin's entry takes the end of its dose. -/
theorem tellOwner_tin {id k : Nat} {x : Tin} {e : DoseEntry} {a : Activity} (v : Nat) (w : EndCause)
    (ho : a.owner = .tin id k) (ht : s.tin? id = some x) (he : x.entries[k]? = some e) :
    (∃ ns, (s.tellOwner c a v w).tin? id = some
        { x with notes := ns, entries := x.entries.set k (e.ended a v (s.circuit c).cfg.density (doseOutcome a w)) }
      ∧ ∀ n, n ∈ ns ↔ n ∈ x.notes ∨ (n = .shortDose ∧ (doseOutcome a w).isShort = true)
          ∨ (n = .interrupted ∧ a.stopSeen = true))
      ∧ ∀ m, m ≠ id → (s.tellOwner c a v w).tin? m = s.tin? m := by
  have h : ∀ m, (s.tellOwner c a v w).tin? m = (s.doseEnded c id k a v w).tin? m := by
    intro m
    simp only [State.tellOwner, ho]
    split
    · rfl
    · exact clearIntervalDue_tin? _ m
  obtain ⟨ns, hns, hmem⟩ := doseEnded_tin? (c := c) a v w ht he
  exact ⟨⟨ns, (h id).trans hns, hmem⟩, fun m hm => (h m).trans (doseEnded_tin?_ne a v w hm)⟩

/-- The calibration run takes the end of its own run. -/
theorem tellOwner_cal {a : Activity} {q : CalRun} (v : Nat) (w : EndCause) (ho : a.owner = .cal)
    (hq : s.stn.cal = some q) (hc : q.circuit = c) (hh : q.handing = .handed) :
    (s.tellOwner c a v w).stn.cal = some { q with delivered := a.delivered, handing := .ended } := by
  have hi (u : State) : (u.clearIntervalDue c).stn.cal = u.stn.cal :=
    (account_iff.mp (account_clearIntervalDue (s := u) (c := c))).2.2.2.2.1
  simp only [State.tellOwner, ho]
  split
  · simp [hq, hc, hh]
  · rw [hi]; simp [hq, hc, hh]

end Sys2Proof.Machine
end

