-- ==== Sys2Proof/Proofs/Removals.lean ====
section
/-! PROOF SUPPORT. What a forced removal makes of the pump, of the run that it cuts, of the request in the next place, and of the
tag jobs of the circuit. -/

namespace Sys2Proof.Machine

set_option Elab.async false

variable {c : Circ} {s t u : State}

theorem stays_setPump {f : Pump → Pump} (h : (f (s.pump c)).lasting = (s.pump c).lasting) : Stays c s (s.setPump c f) :=
  .of (.of (beside_setPump h))

/-- A pump record is told by its lasting part and what waits at it. -/
theorem pump_of_lasting {p q : Pump} (h : q.lasting = p.lasting) :
    q = { p with activity := q.activity, next := q.next, heldPrime := q.heldPrime } := by
  cases p; cases q
  simpa [Pump.lasting] using h

/-! ### The request in the next place (R106) -/

/-- The request in the next place is refused, and a held prime is discarded. -/
def State.refused (s : State) (c : Circ) : State :=
  (s.refuseNext c).setPump c fun p => { p with heldPrime := false }

theorem refuseNext_frame (s : State) (c : Circ) : s.refuseNext c
    = { s with drive := (s.refuseNext c).drive, stn := (s.refuseNext c).stn, track := (s.refuseNext c).track } := by
  unfold State.refuseNext
  split
  · rfl
  · dsimp only
    split <;> rfl

theorem refuseNext_pump (s : State) (c : Circ) : (s.refuseNext c).pump c = { s.pump c with next := none } := by
  unfold State.refuseNext
  split
  · rename_i h
    rw [← h]
  · dsimp only
    split
    · exact setPump_pump s c _
    · exact setPump_pump s c fun p => { p with next := none }
    · exact setPump_pump s c _

theorem refuseNext_local (s : State) (c : Circ) : Local c s (s.refuseNext c) := by
  have h1 : Local c s (s.setPump c fun p => { p with next := none }) := .of (beside_setPump rfl)
  unfold State.refuseNext
  split
  · exact .refl c s
  · dsimp only
    split
    · exact h1.trans (.of rfl)
    · exact h1.trans (.of rfl)
    · exact h1

theorem refused_pump (s : State) (c : Circ) :
    (s.refused c).pump c = { s.pump c with next := none, heldPrime := false } := by
  rw [State.refused, setPump_pump, refuseNext_pump]

theorem refused_stays (s : State) (c : Circ) : Stays c s (s.refused c) := by
  refine .of ((refuseNext_local s c).trans (.of (beside_setPump rfl))) ?_ ?_ <;>
    rw [State.refused, refuseNext_frame] <;> rfl

/-- Nothing is told of an empty next place. -/
theorem refused_of_empty (h : (s.pump c).next = none) :
    (s.refused c).track = s.track ∧ (s.refused c).stn = s.stn := by
  rw [State.refused, State.refuseNext]
  simp [h]

/-- The circuits, the store and the link are not touched. -/
theorem refused_frame (s : State) (c : Circ) : (s.refused c).circuits = s.circuits ∧ (s.refused c).store = s.store
    ∧ (s.refused c).now = s.now := by
  rw [State.refused, refuseNext_frame]
  exact ⟨rfl, rfl, rfl⟩

/-- A tin whose dose is refused is asked again. -/
theorem refused_tin {q : PumpRequest} {id k : Nat} {x : Tin} {e : DoseEntry} (h : (s.pump c).next = some q)
    (ho : q.owner = .tin id k) (ht : s.tin? id = some x) (he : x.entries[k]? = some e) :
    (s.refused c).tin? id = some { x with entries := x.entries.set k { e with handing := .again true } } := by
  have h1 : (s.refused c).tin? id
      = ((s.setPump c fun p => { p with next := none }).setEntry id k fun e => { e with handing := .again true }).tin? id := by
    rw [State.refused, State.refuseNext]
    simp only [h, ho]
    rfl
  rw [h1]
  exact setEntry_tin? ht he

/-- A calibration run whose dose is refused is asked again. -/
theorem refused_cal {q : PumpRequest} (h : (s.pump c).next = some q) (ho : q.owner = .cal) :
    (s.refused c).stn.cal = s.stn.cal.map fun x => { x with handing := .again true } := by
  rw [State.refused, State.refuseNext]
  simp only [h, ho]
  rfl

/-! ### A run that is cut at once (R99, R106) -/

/-- The pump is IDLE, and its lent slots are lost. -/
def State.stripped (s : State) (c : Circ) : State := (s.setPump c fun p => { p with activity := none }).forfeitSlots c

/-- The volume in µL that the delivered steps of an activity take from a circuit. -/
def Activity.volume (a : Activity) (r : Circuit) : Nat :=
  if a.delivered = 0 then 0 else stepsVolume a.delivered r.cfg.k (a.reduceTrim r)

/-- The end of a run that is cut is reported to the Circuit Table and to its owner. -/
def State.toldCut (s : State) (c : Circ) (a : Activity) (w : CutCause) : State :=
  ((s.reduceLevel c a.delivered (a.reduceTrim (s.circuit c))).keepDelivery c a (s.circuit c)).tellOwner c a
    (a.volume (s.circuit c)) (.cut w)

theorem stripped_stays (s : State) (c : Circ) : Stays c s (s.stripped c) :=
  (stays_setPump (f := fun p => { p with activity := none }) rfl).trans (.of (.of beside_forfeitSlots))

theorem stripped_pump (s : State) (c : Circ) : (s.stripped c).pump c = { s.pump c with activity := none } :=
  setPump_pump s c fun p => { p with activity := none }

theorem toldCut_tends (a : Activity) (w : CutCause) : Tends c s (s.toldCut c a w) :=
  (tends_reduceLevel _ _).trans ((tends_keepDelivery a _).trans (tends_tellOwner a _ w))

theorem releaseNext_of_empty (h : (s.pump c).next = none) : s.releaseNext c = s := by
  simp only [State.releaseNext, h]

/-- The end of a standalone REFILL is told to no one. -/
theorem endActivity_refill {a : Activity} (w : EndCause) (ha : (s.pump c).activity = some a) (hk : a.kind = .refill)
    (hn : (s.pump c).next = none) : s.endActivity c w = s.stripped c := by
  simp only [State.endActivity, ha, hk, if_true]
  refine releaseNext_of_empty ?_
  exact (congrArg Pump.next (stripped_pump s c)).trans hn

/-- The end of another run that is cut. -/
theorem endActivity_cut {a : Activity} (w : CutCause) (ha : (s.pump c).activity = some a) (hk : a.kind ≠ .refill)
    (hn : (s.pump c).next = none) : s.endActivity c (.cut w) = (s.stripped c).toldCut c a w := by
  simp only [State.endActivity, ha, if_neg hk]
  refine releaseNext_of_empty ?_
  have h1 := (toldCut_tends (c := c) (s := s.stripped c) a w).pump.next.1
  rw [stripped_pump] at h1
  exact h1.trans hn

/-- What circuit c reads, and what the store holds, after the end of a run that is cut. -/
theorem toldCut_spec {a : Activity} {v : Nat} (w : CutCause) (hd : a.delivered ≠ 0) (hv : v = a.volume (s.circuit c)) :
    ((s.toldCut c a w).circuit c).reading = ((s.circuit c).level - v,
        if a.restarted then (s.circuit c).lastDelivery else s.now, decide ((s.circuit c).cfg.low ≤ (s.circuit c).level - v))
      ∧ (s.toldCut c a w).store = (s.markDirty c).store
      ∧ ((s.circuit c).level - v < (s.circuit c).cfg.low → (s.circuit c).lowArmed = true →
        (s.toldCut c a w).link.isSet (.low c) = true)
      ∧ ((s.circuit c).state = .ready → (s.circuit c).level - v ≤ (s.circuit c).cfg.reserve →
        (s.toldCut c a w).link.isSet (.empty c) = true) := by
  have hv' : v = stepsVolume a.delivered (s.circuit c).cfg.k (a.reduceTrim (s.circuit c)) := by
    rw [hv, Activity.volume, if_neg hd]
  obtain ⟨hr, hs, -, -, hlow, hempty⟩ := reduceLevel_spec hd hv'
  have hkeep (x : State) (b : Circuit) : (x.keepDelivery c a b).store = x.store ∧ (x.keepDelivery c a b).link = x.link := by
    unfold State.keepDelivery
    split <;> exact ⟨rfl, rfl⟩
  unfold State.toldCut
  generalize s.reduceLevel c a.delivered (a.reduceTrim (s.circuit c)) = s1 at hr hs hlow hempty ⊢
  obtain ⟨hread, hstore⟩ := tellOwner_cut_keeps (s := s1.keepDelivery c a (s.circuit c)) (c := c) a
    (a.volume (s.circuit c)) w
  have hlink := (tends_tellOwner (s := s1.keepDelivery c a (s.circuit c)) (c := c) a (a.volume (s.circuit c)) w).beside.link
  rw [(hkeep _ _).2] at hlink
  refine ⟨?_, ?_, fun h ha => hlink.flags _ (hlow h ha), fun h hl => hlink.flags _ (hempty h hl)⟩
  · rw [hread, keepDelivery_circuit]
    simp only [Circuit.reading, Prod.mk.injEq] at hr ⊢
    obtain ⟨h1, h2, h3⟩ := hr
    split
    · exact ⟨h1, rfl, h3⟩
    · exact ⟨h1, h2, h3⟩
  · rw [hstore, (hkeep _ _).1, hs]

/-- A run that has delivered nothing takes nothing. -/
theorem toldCut_nothing {a : Activity} (w : CutCause) (hd : a.delivered = 0) :
    ((s.toldCut c a w).circuit c).reading = (s.circuit c).reading ∧ (s.toldCut c a w).store = s.store := by
  have hk : ((s.keepDelivery c a (s.circuit c)).circuit c) = s.circuit c
      ∧ (s.keepDelivery c a (s.circuit c)).store = s.store := by
    rw [keepDelivery_circuit, ite_self]
    unfold State.keepDelivery
    split <;> exact ⟨rfl, rfl⟩
  unfold State.toldCut
  rw [hd, reduceLevel_zero]
  obtain ⟨hread, hstore⟩ := tellOwner_cut_keeps (s := s.keepDelivery c a (s.circuit c)) (c := c) a
    (a.volume (s.circuit c)) w
  rw [hread, hstore, hk.1, hk.2]
  exact ⟨rfl, rfl⟩

/-- Before its owner is told, the end of a run touches no tin and no calibration run. -/
theorem toldCut_before (a : Activity) (m : Nat) :
    let x := (s.reduceLevel c a.delivered (a.reduceTrim (s.circuit c))).keepDelivery c a (s.circuit c)
    x.tin? m = s.tin? m ∧ x.stn.cal = s.stn.cal ∧ (x.circuit c).cfg = (s.circuit c).cfg := by
  have hk (x : State) (b : Circuit) : (x.keepDelivery c a b).track = x.track ∧ (x.keepDelivery c a b).stn = x.stn := by
    unfold State.keepDelivery
    split <;> exact ⟨rfl, rfl⟩
  have hcfg := ((Local.reduceLevel c s a.delivered (a.reduceTrim (s.circuit c))).trans
    (.keepDelivery c _ a (s.circuit c))).circuit_fields.1
  have hred : (s.reduceLevel c a.delivered (a.reduceTrim (s.circuit c))).track = s.track
      ∧ (s.reduceLevel c a.delivered (a.reduceTrim (s.circuit c))).stn.cal = s.stn.cal := by
    by_cases hd : a.delivered = 0
    · rw [hd, reduceLevel_zero]; exact ⟨rfl, rfl⟩
    · obtain ⟨-, -, ht, hc, -⟩ := reduceLevel_spec (c := c) (s := s) hd rfl
      exact ⟨ht, hc⟩
  refine ⟨?_, ?_, hcfg⟩
  · rw [State.tin?, (hk _ _).1, hred.1]; rfl
  · rw [(hk _ _).2, hred.2]

theorem toldCut_tin {id k : Nat} {x : Tin} {e : DoseEntry} {a : Activity} (w : CutCause)
    (ho : a.owner = .tin id k) (ht : s.tin? id = some x) (he : x.entries[k]? = some e) :
    (∃ ns, (s.toldCut c a w).tin? id = some
        { x with
          notes := ns
          entries := x.entries.set k
            (e.ended a (a.volume (s.circuit c)) (s.circuit c).cfg.density (doseOutcome a (.cut w))) }
      ∧ ∀ n, n ∈ ns ↔ n ∈ x.notes ∨ (n = .shortDose ∧ (doseOutcome a (.cut w)).isShort = true)
          ∨ (n = .interrupted ∧ a.stopSeen = true))
      ∧ ∀ m, m ≠ id → (s.toldCut c a w).tin? m = s.tin? m := by
  have hb := toldCut_before (c := c) (s := s) a
  unfold State.toldCut
  generalize (s.reduceLevel c a.delivered (a.reduceTrim (s.circuit c))).keepDelivery c a (s.circuit c) = s1 at hb ⊢
  obtain ⟨⟨ns, hns, hmem⟩, hne⟩ := tellOwner_tin (s := s1) (c := c) (a.volume (s.circuit c)) (.cut w) ho
    ((hb id).1.trans ht) he
  rw [(hb 0).2.2] at hns
  exact ⟨⟨ns, hns, hmem⟩, fun m hm => (hne m hm).trans (hb m).1⟩

theorem toldCut_cal {a : Activity} {q : CalRun} (w : CutCause) (ho : a.owner = .cal)
    (hq : s.stn.cal = some q) (hc : q.circuit = c) (hh : q.handing = .handed) :
    (s.toldCut c a w).stn.cal = some { q with delivered := a.delivered, handing := .ended } := by
  have hb := toldCut_before (c := c) (s := s) a 0
  exact tellOwner_cal _ _ ho (hb.2.1.trans hq) hc hh

/-! ### The pump after a forced removal (R106) -/

theorem pumpRemoved_idle (h : (s.pump c).activity = none) : s.pumpRemoved c = s.refused c := by
  have ha : ((s.refused c).pump c).activity = none := by rw [refused_pump, h]
  show (s.refused c).cutFinally c .removed = s.refused c
  simp only [State.cutFinally, ha]

theorem pumpRemoved_burst {a : Activity} (h : (s.pump c).activity = some a) (hb : (s.pump c).burst ≠ none) :
    s.pumpRemoved c = (s.refused c).setActivity c fun a => { a with atBoundary := some (.cut .removed) } := by
  obtain ⟨b, hb⟩ := Option.ne_none_iff_exists'.mp hb
  have ha : ((s.refused c).pump c).activity = some a := by rw [refused_pump, h]
  have hb' : ((s.refused c).pump c).burst = some b := by rw [refused_pump, hb]
  show (s.refused c).cutFinally c .removed = _
  simp only [State.cutFinally, ha, hb']

theorem pumpRemoved_now {a : Activity} (h : (s.pump c).activity = some a) (hb : (s.pump c).burst = none) :
    s.pumpRemoved c = (s.refused c).endActivity c (.cut .removed) := by
  have ha : ((s.refused c).pump c).activity = some a := by rw [refused_pump, h]
  have hb' : ((s.refused c).pump c).burst = none := by rw [refused_pump, hb]
  show (s.refused c).cutFinally c .removed = _
  simp only [State.cutFinally, ha, hb']

theorem pumpRemoved_refill {a : Activity} (h : (s.pump c).activity = some a) (hb : (s.pump c).burst = none)
    (hk : a.kind = .refill) : s.pumpRemoved c = (s.refused c).stripped c := by
  rw [pumpRemoved_now h hb]
  exact endActivity_refill _ (by rw [refused_pump, h]) hk (by rw [refused_pump])

theorem pumpRemoved_run {a : Activity} (h : (s.pump c).activity = some a) (hb : (s.pump c).burst = none)
    (hk : a.kind ≠ .refill) : s.pumpRemoved c = ((s.refused c).stripped c).toldCut c a .removed := by
  rw [pumpRemoved_now h hb]
  exact endActivity_cut _ (by rw [refused_pump, h]) hk (by rw [refused_pump])

/-- The circuit stays where it is, in READY and EMPTY or outside them. -/
theorem pumpRemoved_stays (s : State) (c : Circ) : Stays c s (s.pumpRemoved c) := by
  have hr := refused_stays s c
  cases h : (s.pump c).activity with
  | none => rw [pumpRemoved_idle h]; exact hr
  | some a =>
    by_cases hb : (s.pump c).burst = none
    · by_cases hk : a.kind = .refill
      · rw [pumpRemoved_refill h hb hk]; exact hr.trans (stripped_stays _ c)
      · rw [pumpRemoved_run h hb hk]
        exact hr.trans ((stripped_stays _ c).trans (toldCut_tends a .removed).toStays)
    · rw [pumpRemoved_burst h hb]; exact hr.trans (stays_setPump rfl)

/-- No activity is left of a run that had no burst in flight, and one with a burst waits for its boundary. -/
theorem pumpRemoved_activity (s : State) (c : Circ) :
    ((s.pump c).burst = none → ((s.pumpRemoved c).pump c).activity = none)
      ∧ ((s.pump c).burst ≠ none → ((s.pumpRemoved c).pump c).activity
        = (s.pump c).activity.map fun a => { a with atBoundary := some (.cut .removed) }) := by
  cases h : (s.pump c).activity with
  | none =>
    rw [pumpRemoved_idle h, refused_pump]
    exact ⟨fun _ => h, fun _ => h⟩
  | some a =>
    refine ⟨fun hb => ?_, fun hb => ?_⟩
    · by_cases hk : a.kind = .refill
      · rw [pumpRemoved_refill h hb hk, stripped_pump]
      · rw [pumpRemoved_run h hb hk]
        have hs : (((s.refused c).stripped c).pump c).activity = none := by rw [stripped_pump]
        rcases (toldCut_tends (s := (s.refused c).stripped c) (c := c) a .removed).pump.activity with e | e <;>
          simp only [e, hs, Option.map_none]
    · rw [pumpRemoved_burst h hb, State.setActivity, setPump_pump, refused_pump, h]

/-- The next place is empty, and no prime is held. -/
theorem pumpRemoved_next (s : State) (c : Circ) :
    ((s.pumpRemoved c).pump c).next = none ∧ ((s.pumpRemoved c).pump c).heldPrime = false := by
  have hr := refused_pump s c
  cases h : (s.pump c).activity with
  | none => rw [pumpRemoved_idle h, hr]; exact ⟨rfl, rfl⟩
  | some a =>
    by_cases hb : (s.pump c).burst = none
    · by_cases hk : a.kind = .refill
      · rw [pumpRemoved_refill h hb hk, stripped_pump, hr]; exact ⟨rfl, rfl⟩
      · rw [pumpRemoved_run h hb hk]
        obtain ⟨h1, h2⟩ := (toldCut_tends (s := (s.refused c).stripped c) (c := c) a .removed).pump.next
        rw [h1, h2, stripped_pump, hr]
        exact ⟨rfl, rfl⟩
    · rw [pumpRemoved_burst h hb, State.setActivity, setPump_pump, hr]; exact ⟨rfl, rfl⟩

/-- With no run that ends, the circuit and the store stay, and so do the tins where the next place is empty. -/
theorem pumpRemoved_no_run (h : (s.pump c).activity = none ∨ (s.pump c).burst ≠ none) :
    (s.pumpRemoved c).circuit c = s.circuit c ∧ (s.pumpRemoved c).store = s.store
      ∧ ((s.pump c).next = none → (s.pumpRemoved c).track = s.track) := by
  obtain ⟨hc, hs, -⟩ := refused_frame s c
  cases ha : (s.pump c).activity with
  | none =>
    rw [pumpRemoved_idle ha]
    exact ⟨circuit_congr hc c, hs, fun hn => (refused_of_empty hn).1⟩
  | some a =>
    have hb : (s.pump c).burst ≠ none := h.resolve_left (by simp [ha])
    rw [pumpRemoved_burst ha hb]
    exact ⟨circuit_congr hc c, hs, fun hn => (refused_of_empty hn).1⟩

/-! ### The tag jobs of a removed circuit (R202) -/

theorem fill_fields (t : TagBus) : t.fill.queue ++ t.fill.backlog = t.queue ++ t.backlog ∧ t.fill.active = t.active
    ∧ t.fill.images = t.images ∧ t.fill.last = t.last ∧ t.fill.bus = t.bus ∧ t.fill.stopping = t.stopping := by
  simp [TagBus.fill]

/-- The jobs that are not the circuit's stay in their order. -/
theorem abandonJobs_jobs (t : TagBus) (c : Circ) : (t.abandonJobs c).queue ++ (t.abandonJobs c).backlog
    = (t.queue ++ t.backlog).filter fun j => j.circuit ≠ c := by
  have hf (x : TagBus) : x.fill.queue ++ x.fill.backlog = x.queue ++ x.backlog := (fill_fields x).1
  have ha (x : TagBus) : x.abandonActive.queue ++ x.abandonActive.backlog = x.queue ++ x.backlog := by
    unfold TagBus.abandonActive TagBus.drop
    split
    · rfl
    · split
      · rfl
      · exact hf _
  have he : (t.queue.filter fun j => j.circuit != c) ++ (t.backlog.filter fun j => j.circuit != c)
      = (t.queue ++ t.backlog).filter fun j => j.circuit ≠ c := by
    rw [← List.filter_append]
    congr 1
    funext j
    simp only [bne, Ne, decide_not, beq_eq_decide]
  unfold TagBus.abandonJobs
  dsimp only
  split
  · split
    · rw [ha, hf, he]
    · rw [hf, he]
  · rw [hf, he]

/-- The bus, the results and the images stay. -/
theorem abandonJobs_fields (t : TagBus) (c : Circ) : (t.abandonJobs c).images = t.images
    ∧ (t.abandonJobs c).last = t.last ∧ (t.abandonJobs c).bus = t.bus ∧ (t.abandonJobs c).stopping = t.stopping := by
  have ha (x : TagBus) : x.abandonActive.images = x.images ∧ x.abandonActive.last = x.last ∧ x.abandonActive.bus = x.bus
      ∧ x.abandonActive.stopping = x.stopping := by
    unfold TagBus.abandonActive
    split
    · exact ⟨rfl, rfl, rfl, rfl⟩
    · split <;> exact ⟨rfl, rfl, rfl, rfl⟩
  unfold TagBus.abandonJobs
  dsimp only
  split
  · split
    · exact ha _
    · exact ⟨rfl, rfl, rfl, rfl⟩
  · exact ⟨rfl, rfl, rfl, rfl⟩

/-- The active job after a removal: another circuit's goes on, the circuit's own is abandoned in a transaction and ends where
it waits. -/
theorem abandonJobs_active {t : TagBus} {a : ActiveJob} (c : Circ) (h : t.active = some a) :
    (a.job.circuit ≠ c → (t.abandonJobs c).active = some a)
      ∧ (∀ p, a.job.circuit = c → a.step = .phase p → (t.abandonJobs c).active = some { a with abandoned := true })
      ∧ (a.job.circuit = c → (∀ p, a.step ≠ .phase p) → (t.abandonJobs c).active = none) := by
  have hf : (TagBus.fill { t with
      queue := t.queue.filter fun j => j.circuit != c
      backlog := t.backlog.filter fun j => j.circuit != c }).active = some a := h
  unfold TagBus.abandonJobs
  simp only [hf]
  refine ⟨fun hc => ?_, fun p hc hp => ?_, fun hc hp => ?_⟩
  · rw [if_neg hc]; exact hf
  · rw [if_pos hc]; simp only [TagBus.abandonActive, hf, hp]
  · rw [if_pos hc]
    cases hs : a.step with
    | phase p => exact (hp p hs).elim
    | _ => simp only [TagBus.abandonActive, hf, hs]; rfl

/-- The tag jobs of the circuit are abandoned. -/
def State.jobsAbandoned (s : State) (c : Circ) : State := { s with tag := s.tag.abandonJobs c }

theorem local_jobsAbandoned (s : State) (c : Circ) : Local c s (s.jobsAbandoned c) := by
  obtain ⟨h1, h2, h3, h4⟩ := abandonJobs_fields s.tag c
  refine .of ?_
  simp only [State.beside, State.jobsAbandoned, h1, h2, h3, h4]

theorem jobsAbandoned_circuit (s : State) (c d : Circ) : (s.jobsAbandoned c).circuit d = s.circuit d := rfl

theorem jobsAbandoned_keeps (s : State) (c : Circ) : (s.jobsAbandoned c).store = s.store
    ∧ (s.jobsAbandoned c).track = s.track ∧ (s.jobsAbandoned c).stn = s.stn ∧ (s.jobsAbandoned c).drive = s.drive
    ∧ (s.jobsAbandoned c).tag = s.tag.abandonJobs c := ⟨rfl, rfl, rfl, rfl, rfl⟩

/-! ### A forced removal (R8) -/

/-- The circuit moves to SERVICE once its pump is cut and its tag jobs are abandoned. -/
def State.outOfBay (s : State) (c : Circ) : State := ((s.pumpRemoved c).jobsAbandoned c).moveCircuit c .service

/-- The circuit has the reason LEVEL_LOST and no lot, and BLOCKED is set. -/
def State.levelLost (s : State) (c : Circ) : State :=
  (s.setCircuit c fun r => { r with reason := some .levelLost, lot := none }).flagBlocked c .levelLost

theorem forcedRemoval_eq (s : State) (c : Circ) : s.forcedRemoval c = (s.outOfBay c).levelLost c := by
  unfold State.forcedRemoval State.outOfBay State.levelLost State.jobsAbandoned
  rfl

theorem levelLost_circuit (s : State) (c : Circ) :
    (s.levelLost c).circuit c = { s.circuit c with reason := some .levelLost, lot := none } :=
  setCircuit_circuit s c _

theorem levelLost_keeps (s : State) (c : Circ) : (s.levelLost c).store = s.store ∧ (s.levelLost c).track = s.track
    ∧ (s.levelLost c).stn = s.stn ∧ (s.levelLost c).drive = s.drive ∧ (s.levelLost c).tag = s.tag
    ∧ (s.levelLost c).cares = s.cares := ⟨rfl, rfl, rfl, rfl, rfl, rfl⟩

theorem levelLost_isSet (s : State) (c : Circ) : (s.levelLost c).link.isSet (.blocked c) = true :=
  Link.isSet_setFlag_self _ _ _

theorem levelLost_local (s : State) (c : Circ) : Local c s (s.levelLost c) := by
  have h1 : Local c s (s.setCircuit c fun r => { r with reason := some .levelLost, lot := none }) :=
    .of (beside_setCircuit rfl)
  exact h1.trans (.setFlag _ _)

theorem forcedRemoval_local (s : State) (c : Circ) : Local c s (s.forcedRemoval c) := by
  have h1 : Local c s (s.outOfBay c) :=
    (pumpRemoved_stays s c).beside.trans ((local_jobsAbandoned _ c).trans (.moveCircuit c _ .service))
  rw [forcedRemoval_eq]
  exact h1.trans (levelLost_local _ c)

/-- What a forced removal makes of the circuit's state, and that BLOCKED is set. -/
theorem forcedRemoval_state (s : State) (c : Circ) :
    ((s.forcedRemoval c).circuit c).state = .service ∧ ((s.forcedRemoval c).circuit c).reason = some .levelLost
      ∧ ((s.forcedRemoval c).circuit c).lot = none ∧ (s.forcedRemoval c).link.isSet (.blocked c) = true := by
  rw [forcedRemoval_eq, levelLost_circuit]
  exact ⟨moveCircuit_state _ c _, rfl, rfl, levelLost_isSet _ c⟩

/-- What a forced removal leaves as the pump's removal has it: the reading of the circuit, the store, the tins, and the
calibration run; and the tag jobs abandoned. -/
theorem forcedRemoval_account (s : State) (c : Circ) :
    ((s.forcedRemoval c).circuit c).reading = ((s.pumpRemoved c).circuit c).reading
      ∧ (s.forcedRemoval c).store = (s.pumpRemoved c).store ∧ (s.forcedRemoval c).track = (s.pumpRemoved c).track
      ∧ (s.forcedRemoval c).stn.cal = (s.pumpRemoved c).stn.cal ∧ (s.forcedRemoval c).tag = s.tag.abandonJobs c := by
  obtain ⟨hc, hs, ht, hg, hq, -⟩ := account_iff.mp (account_moveCircuit
    (s := (s.pumpRemoved c).jobsAbandoned c) (c := c) .service)
  obtain ⟨js, jt, jq, -, jg⟩ := jobsAbandoned_keeps (s.pumpRemoved c) c
  obtain ⟨ls, lt, lq, -, lg, -⟩ := levelLost_keeps (s.outOfBay c) c
  rw [forcedRemoval_eq, ls, lt, lq, lg, levelLost_circuit]
  have hr := reading_of_stationary hc
  rw [jobsAbandoned_circuit] at hr
  exact ⟨hr, hs.trans js, ht.trans jt, hq.trans (congrArg Station.cal jq),
    hg.trans (jg.trans (congrArg (·.abandonJobs c) (pumpRemoved_stays s c).tag))⟩

/-- Out of READY and EMPTY the stir ends, and no purge is due. -/
theorem forcedRemoval_leaves (h : (s.circuit c).state.serves = true) :
    ((s.forcedRemoval c).circuit c).stir = none ∧ ((s.forcedRemoval c).circuit c).purgeDue = none := by
  have hs : (((s.pumpRemoved c).jobsAbandoned c).circuit c).state.serves = true := by
    rw [jobsAbandoned_circuit]
    exact (pumpRemoved_stays s c).serves.trans h
  rw [forcedRemoval_eq, levelLost_circuit, State.outOfBay, moveCircuit_leaves_circuit hs rfl]
  exact ⟨rfl, rfl⟩

/-- The circuit leaves the due list. -/
theorem forcedRemoval_cares (s : State) (c : Circ) :
    (s.forcedRemoval c).cares = { s.cares with due := s.cares.due.filter fun x => x.1 != c } := by
  have hl := forcedRemoval_local s c
  have hd : ∀ x ∈ (s.forcedRemoval c).cares.due, (x.1 != c) = true := by
    rw [forcedRemoval_eq, (levelLost_keeps _ c).2.2.2.2.2]
    exact fun x hx => bne_iff_ne.mpr (moveCircuit_due (c := c) (.inl rfl) x hx)
  rw [hl.cares, ← hl.dueElsewhere, List.filter_eq_self.mpr hd]

/-- After its own cut the pump is told at most that the stirrer has stopped. -/
theorem forcedRemoval_woken (s : State) (c : Circ) : Woken c (s.pumpRemoved c) (s.forcedRemoval c) := by
  have h1 : Woken c (s.pumpRemoved c) ((s.pumpRemoved c).jobsAbandoned c) :=
    .of (pump_congr (jobsAbandoned_keeps _ c).2.2.2.1 c)
  rw [forcedRemoval_eq]
  exact (h1.trans (woken_moveCircuit .service)).trans (.of (pump_congr (levelLost_keeps _ c).2.2.2.1 c))

/-- The pump keeps its piston and its burst; what waited there is gone. -/
theorem forcedRemoval_pump (s : State) (c : Circ) : (s.forcedRemoval c).pump c
    = { s.pump c with activity := ((s.forcedRemoval c).pump c).activity, next := none, heldPrime := false } := by
  have hw := forcedRemoval_woken s c
  obtain ⟨hn, hh⟩ := hw.next
  obtain ⟨en, eh⟩ := pumpRemoved_next s c
  have e := pump_of_lasting (forcedRemoval_local s c).pumpLasting
  rwa [hn, hh, en, eh] at e

/-- The activity after a forced removal. -/
theorem forcedRemoval_activity (s : State) (c : Circ) :
    ((s.pump c).burst = none → ((s.forcedRemoval c).pump c).activity = none)
      ∧ (∀ a, ((s.forcedRemoval c).pump c).activity = some a → a.atBoundary = some (.cut .removed))
      ∧ ∀ a, (s.pump c).activity = some a → (s.pump c).burst ≠ none → a.run ≠ .waitingStir →
        ((s.forcedRemoval c).pump c).activity = some { a with atBoundary := some (.cut .removed) } := by
  have hw := forcedRemoval_woken s c
  obtain ⟨hnone, hburst⟩ := pumpRemoved_activity s c
  have hact := hw.activity
  refine ⟨fun hb => ?_, fun a ha => ?_, fun a ha hb hr => ?_⟩
  · rw [hnone hb] at hact
    rcases hact with e | e <;> exact e
  · by_cases hb : (s.pump c).burst = none
    · rw [hnone hb] at hact
      rcases hact with e | e <;> rw [e] at ha <;> cases ha
    · rw [hburst hb, Option.map_map] at hact
      rcases hact with e | e <;> rw [e] at ha
      · obtain ⟨b, -, rfl⟩ := Option.map_eq_some_iff.mp ha
        rfl
      · obtain ⟨b, -, rfl⟩ := Option.map_eq_some_iff.mp ha
        exact (woken_fields _).1
  · rw [hburst hb, ha, Option.map_some] at hact
    rcases hact with e | e
    · exact e
    · rw [e, Option.map_some]
      exact congrArg some (woken_of_ne hr)

end Sys2Proof.Machine
end

