-- ==== Sys2Proof/Proofs/BaySwitches.lean ====
section
/-! O22: the bay switches. -/

namespace Sys2Proof.Machine

set_option Elab.async false

variable {c : Circ} {s t u : State}

/-! ### The run that a forced removal cuts -/

theorem volume_eq (a : Activity) (r : Circuit) (h : a.delivered ≠ 0) : a.volume r
    = roundHalfUp (a.delivered * 1024000) (r.cfg.k * if a.owner = .cal then 1024 else (1024 + r.trim).toNat) := by
  rw [Activity.volume, if_neg h, stepsVolume, trimFactor, Activity.reduceTrim]
  split <;> rfl

theorem reading_eq_iff {r x : Circuit} : x.reading = r.reading ↔
    x.level = r.level ∧ x.lastDelivery = r.lastDelivery ∧ x.lowArmed = r.lowArmed := by
  simp only [Circuit.reading, Prod.mk.injEq]

/-- The state in which the run that a removal cuts is told: the next place is refused, and the pump is IDLE. -/
def State.cutIdle (s : State) (c : Circ) : State := (s.refused c).stripped c

theorem cutIdle_circuit (s : State) (c d : Circ) : (s.cutIdle c).circuit d = s.circuit d :=
  circuit_congr (refused_frame s c).1 d

theorem cutIdle_local (s : State) (c : Circ) : Local c s (s.cutIdle c) :=
  (refused_stays s c).beside.trans (stripped_stays _ c).beside

theorem cutIdle_store (s : State) (c : Circ) : (s.cutIdle c).store = s.store := (refused_frame s c).2.1

theorem cutIdle_of_empty (h : (s.pump c).next = none) :
    (∀ m, (s.cutIdle c).tin? m = s.tin? m) ∧ (s.cutIdle c).stn.cal = s.stn.cal := by
  obtain ⟨ht, hs⟩ := refused_of_empty h
  refine ⟨fun m => ?_, congrArg Station.cal hs⟩
  show (s.refused c).tin? m = s.tin? m
  simp only [State.tin?, ht]

/-- The reading of the circuit and the store after a forced removal that cuts a run at once. -/
theorem forcedRemoval_reading {a : Activity} (ha : (s.pump c).activity = some a) (hb : (s.pump c).burst = none) :
    (a.kind = .refill ∨ a.delivered = 0 → ((s.forcedRemoval c).circuit c).reading = (s.circuit c).reading
        ∧ (s.forcedRemoval c).store = s.store)
      ∧ (a.kind ≠ .refill → a.delivered ≠ 0 → ∀ v, v = a.volume (s.circuit c) →
        ((s.forcedRemoval c).circuit c).reading = ((s.circuit c).level - v,
            if a.restarted then (s.circuit c).lastDelivery else s.now,
            decide ((s.circuit c).cfg.low ≤ (s.circuit c).level - v))
          ∧ (s.forcedRemoval c).store = (s.markDirty c).store
          ∧ ((s.circuit c).level - v < (s.circuit c).cfg.low → (s.circuit c).lowArmed = true →
            (s.forcedRemoval c).link.isSet (.low c) = true)
          ∧ ((s.circuit c).state = .ready → (s.circuit c).level - v ≤ (s.circuit c).cfg.reserve →
            (s.forcedRemoval c).link.isSet (.empty c) = true)) := by
  obtain ⟨hr, hs, -⟩ := forcedRemoval_account s c
  have hlink : (s.pumpRemoved c).link.Grows (s.forcedRemoval c).link := by
    rw [forcedRemoval_eq]
    exact ((local_jobsAbandoned _ c).trans ((Local.moveCircuit c _ .service).trans (levelLost_local _ c))).link
  have hcirc := cutIdle_circuit s c c
  have hstore := cutIdle_store s c
  rw [hr, hs]
  by_cases hk : a.kind = .refill
  · rw [pumpRemoved_refill ha hb hk]
    exact ⟨fun _ => ⟨congrArg Circuit.reading hcirc, hstore⟩, fun h => (h hk).elim⟩
  · rw [pumpRemoved_run ha hb hk] at hlink ⊢
    refine ⟨fun h => ?_, fun _ hd v hv => ?_⟩
    · obtain ⟨h1, h2⟩ := toldCut_nothing (s := s.cutIdle c) (c := c) .removed (h.resolve_left hk)
      rw [hcirc] at h1
      exact ⟨h1, h2.trans hstore⟩
    · have hn := (cutIdle_local s c).now
      obtain ⟨h1, h2, h3, h4⟩ := toldCut_spec (s := s.cutIdle c) (c := c) .removed hd (hcirc.symm ▸ hv)
      rw [hcirc] at h1 h3 h4
      rw [hn] at h1
      refine ⟨h1, h2.trans ?_, fun hl h => hlink.flags _ (h3 hl h), fun hl h => hlink.flags _ (h4 hl h)⟩
      simp only [State.markDirty, hstore]

/-- The end of a run that a forced removal cuts at once is reported to the circuit (R15, R17). -/
theorem forcedRemoval_reported {a : Activity} (ha : (s.pump c).activity = some a) (hb : (s.pump c).burst = none) :
    RunReported c a a.delivered s (s.forcedRemoval c) := by
  obtain ⟨hkeep, hrun⟩ := forcedRemoval_reading ha hb
  refine ⟨fun h => reading_eq_iff.mp (hkeep h).1, fun hk hd => ?_⟩
  have hv := volume_eq a (s.circuit c) hd
  generalize a.volume (s.circuit c) = v at hv hrun
  obtain ⟨h1, h2, h3, -⟩ := hrun hk hd v rfl
  simp only [Circuit.reading, Prod.mk.injEq] at h1
  obtain ⟨hlevel, hlast, hlow⟩ := h1
  refine ⟨hlevel.trans (congrArg _ hv), hlast, ?_, fun h => ?_, fun h => ⟨?_, fun hl => ?_⟩⟩
  · rw [h2]
    exact updAt_get _ _ _
  · rw [hlow, ← hlevel, decide_eq_true h]
  · rw [hlow, ← hlevel, decide_eq_false (Nat.not_le.mpr h)]
  · exact h3 (hlevel ▸ h) hl

/-- EMPTY is set where the run that is cut leaves a READY circuit at or below its reserve (R16). -/
theorem forcedRemoval_empty {a : Activity} (ha : (s.pump c).activity = some a) (hb : (s.pump c).burst = none)
    (hs : (s.circuit c).state = .ready) (hk : a.kind ≠ .refill) (hd : a.delivered ≠ 0)
    (hl : ((s.forcedRemoval c).circuit c).level ≤ (s.circuit c).cfg.reserve) :
    (s.forcedRemoval c).link.isSet (.empty c) = true := by
  obtain ⟨h1, -, -, h4⟩ := (forcedRemoval_reading ha hb).2 hk hd _ rfl
  have e : ((s.forcedRemoval c).circuit c).level = (s.circuit c).level - a.volume (s.circuit c) := congrArg Prod.fst h1
  exact h4 hs (e ▸ hl)

/-- What the owner of a run that is cut at once is told, where the next place is empty (R58, R100). -/
theorem forcedRemoval_told {a : Activity} (ha : (s.pump c).activity = some a) (hb : (s.pump c).burst = none)
    (hn : (s.pump c).next = none) (hk : a.kind ≠ .refill) :
    DoseRecorded c a a.delivered (if a.delivered = a.planned then .delivered else .cut .removed) s (s.forcedRemoval c)
      ∧ ∀ q, a.owner = .cal → s.stn.cal = some q → q.circuit = c → q.handing = .handed →
        (s.forcedRemoval c).stn.cal = some { q with delivered := a.delivered, handing := .ended } := by
  obtain ⟨-, -, htrack, hcal, -⟩ := forcedRemoval_account s c
  obtain ⟨itin, ical⟩ := cutIdle_of_empty hn
  have hcirc := cutIdle_circuit s c c
  rw [pumpRemoved_run ha hb hk] at htrack hcal
  have htin (m : Nat) : (s.forcedRemoval c).tin? m = ((s.cutIdle c).toldCut c a .removed).tin? m := by
    simp only [State.tin?, htrack]
    rfl
  refine ⟨fun id k t e ho ht he => ?_, fun q ho hq hc hh => ?_⟩
  · obtain ⟨⟨ns, hns, hmem⟩, hne⟩ := toldCut_tin (s := s.cutIdle c) (c := c) .removed ho ((itin id).trans ht) he
    rw [hcirc] at hns
    refine ⟨⟨ns, ?_, fun x => ?_⟩, fun m hm => ?_⟩
    · rw [htin, hns]
      have hv : a.volume (s.circuit c) = if a.delivered = 0 then 0
          else roundHalfUp (a.delivered * 1024000) ((s.circuit c).cfg.k * (1024 + (s.circuit c).trim).toNat) := by
        split
        · rename_i hd; rw [Activity.volume, if_pos hd]
        · rename_i hd; rw [volume_eq a _ hd, if_neg (by rw [ho]; nofun)]
      rw [hv]
      rfl
    · rw [hmem, doseOutcome]
      split <;> simp [RunOutcome.isShort]
    · rw [htin, hne m hm, itin]
  · rw [hcal]
    exact toldCut_cal (s := s.cutIdle c) (c := c) .removed ho (ical.trans hq) hc hh

/-- With no run that ends, the circuit's reading, the store and, with an empty next place, the tins stay. -/
theorem forcedRemoval_no_run (h : (s.pump c).activity = none ∨ (s.pump c).burst ≠ none) :
    ((s.forcedRemoval c).circuit c).reading = (s.circuit c).reading ∧ (s.forcedRemoval c).store = s.store
      ∧ ((s.pump c).next = none → (s.forcedRemoval c).track = s.track) := by
  obtain ⟨hr, hs, ht, -⟩ := forcedRemoval_account s c
  obtain ⟨pc, ps, pt⟩ := pumpRemoved_no_run h
  exact ⟨hr.trans (congrArg _ pc), hs.trans ps, fun hn => ht.trans (pt hn)⟩

/-- The block whose request stood in the next place asks again, where no dose ends besides (R106). -/
theorem forcedRemoval_refuses {q : PumpRequest} (hq : (s.pump c).next = some q)
    (hk : ∀ a, (s.pump c).activity = some a → a.kind = .refill) :
    (∀ id k t e, q.owner = .tin id k → s.tin? id = some t → t.entries[k]? = some e →
        (s.forcedRemoval c).tin? id = some { t with entries := t.entries.set k { e with handing := .again true } })
      ∧ (q.owner = .cal → (s.forcedRemoval c).stn.cal = s.stn.cal.map fun x => { x with handing := .again true }) := by
  obtain ⟨-, -, ht, hc, -⟩ := forcedRemoval_account s c
  have hp : (s.pumpRemoved c).track = (s.refused c).track ∧ (s.pumpRemoved c).stn = (s.refused c).stn := by
    cases ha : (s.pump c).activity with
    | none => rw [pumpRemoved_idle ha]; exact ⟨rfl, rfl⟩
    | some a =>
      by_cases hb : (s.pump c).burst = none
      · rw [pumpRemoved_refill ha hb (hk a ha)]; exact ⟨rfl, rfl⟩
      · rw [pumpRemoved_burst ha hb]; exact ⟨rfl, rfl⟩
  refine ⟨fun id k t e ho hx he => ?_, fun ho => ?_⟩
  · rw [← refused_tin hq ho hx he]
    simp only [State.tin?, ht, hp.1]
  · rw [hc, hp.2]
    exact refused_cal hq ho

/-! ### Bay events (R4 to R8) -/

/-- The state with the baseline of circuit c at the level of its switch. -/
def State.baselined (s : State) (c : Circ) : State := s.setCircuit c fun r => { r with baseline := s.bayClosed c }

theorem baselined_circuit (s : State) (c : Circ) :
    (s.baselined c).circuit c = { s.circuit c with baseline := s.bayClosed c } := setCircuit_circuit s c _

theorem bayEvent_removes (h : (s.circuit c).state ≠ .unfitted) (hs : (s.circuit c).state ≠ .service)
    (hb : s.bayClosed c = false) : s.bayEvent c = (s.baselined c).forcedRemoval c := by
  unfold State.bayEvent
  dsimp only
  split
  · rename_i e; exact (h e).elim
  · rename_i e; exact (hs e).elim
  · rw [if_neg (by simp [hb])]
    rfl

theorem bayEvent_moves (h : (s.circuit c).state ≠ .unfitted) (hs : (s.circuit c).state ≠ .service)
    (hb : s.bayClosed c = true) : s.bayEvent c = s.baselined c := by
  unfold State.bayEvent
  dsimp only
  split
  · rename_i e; exact (h e).elim
  · rename_i e; exact (hs e).elim
  · rw [if_pos hb]
    rfl

theorem bayEvent_empties (hs : (s.circuit c).state = .service) (hb : s.bayClosed c = false) :
    s.bayEvent c = s.setCircuit c fun r => { r with baseline := false, lot := none } := by
  simp only [State.bayEvent, hs, hb, State.setCircuit, updAt_updAt]
  rfl

/-- An insertion in SERVICE begins a check, and asks for a READ of the tag (R6). -/
theorem bayEvent_inserts (hs : (s.circuit c).state = .service) (hb : s.bayClosed c = true) :
    s.bayEvent c = (s.setCircuit c fun r =>
      { r with baseline := true, state := .checking, latchOpen := false, checkKind := .insertion }).askTag c .read := by
  have hout : ((s.baselined c).circuit c).state.serves = false := by
    rw [baselined_circuit]
    simp only [hs]
    rfl
  have hm : (s.baselined c).moveCircuit c .checking = (s.baselined c).setCircuit c fun r => { r with state := .checking } :=
    (moveCircuit_outside _ c hout rfl).trans (if_neg (by simp))
  have he : s.bayEvent c = (s.baselined c).insertion c := by
    simp only [State.bayEvent, hs, hb]
    rw [State.baselined, hb]
    rfl
  rw [he, State.insertion, hm, State.baselined, hb]
  simp only [State.setCircuit, updAt_updAt]

theorem bayChanged_unfitted (h : (s.circuit c).state = .unfitted) : s.bayChanged c = s.baselined c := by
  simp only [State.bayChanged, h, if_true]
  rfl

theorem bayChanged_unwatched (h : (s.circuit c).state ≠ .unfitted)
    (hw : (s.circuit c).cfg.watch = false ∨ s.bayClosed c = (s.circuit c).baseline) : s.bayChanged c = s := by
  simp only [State.bayChanged, if_neg h, State.bayCompare]
  rcases hw with hw | hw
  · rw [if_neg (by simp [hw])]
  · rw [if_pos hw, ite_self]

theorem bayChanged_event (h : (s.circuit c).state ≠ .unfitted) (hw : (s.circuit c).cfg.watch = true)
    (hb : s.bayClosed c ≠ (s.circuit c).baseline) : s.bayChanged c = s.bayEvent c := by
  simp only [State.bayChanged, if_neg h, hw, if_true, State.bayCompare, if_neg hb]

/-! ### The command -/

/-- The state with a new level of the bay switch. -/
def State.switched (s : State) (c : Circ) (closed : Bool) : State :=
  { s with inp := { s.inp with bays := s.inp.bays.set c.val closed } }

theorem switched_bayClosed (s : State) (c : Circ) (closed : Bool) : (s.switched c closed).bayClosed c = closed := by
  simp [State.switched, State.bayClosed]

theorem conclude_switched (s : State) (c : Circ) (closed : Bool) (u : State) :
    State.conclude (s.switched c closed) u = State.conclude s u := by
  have hz : (s.switched c closed).z1Holds = s.z1Holds := rfl
  have hw : (s.switched c closed).wanted = s.wanted := rfl
  simp only [State.conclude, State.loadWanted, hz, hw]

theorem unchanged_baselined (s : State) (c : Circ) (closed : Bool) :
    Unchanged [.inputs, .circuits] s ((s.switched c closed).baselined c) := by
  refine ⟨rfl, rfl, fun p hp => ?_⟩
  cases p <;> simp [Part.same, State.switched, State.baselined] at hp ⊢

theorem exec_baySwitchChange (c : Circ) (closed : Bool) (hp : s.powered = true) :
    exec (.baySwitchChange c closed) s = .next (State.conclude s ((s.switched c closed).bayChanged c)) := by
  have h : execBaySwitchChange c closed s
      = .next (State.conclude (s.switched c closed) ((s.switched c closed).bayChanged c)) :=
    inputEvent_taken (setInput := fun i => { i with bays := updAt i.bays c fun _ => closed })
      (change := fun t => t.bayChanged c) hp
  rw [← conclude_switched s c closed, ← h]
  rfl

/-- The report of a run does not depend on the baseline of the circuit. -/
theorem runReported_baselined {a : Activity} {d : Nat} {b : Bool} (hc : t.circuit c = { s.circuit c with baseline := b })
    (hn : t.now = s.now) (h : RunReported c a d t u) : RunReported c a d s u := by
  unfold RunReported at h ⊢
  rw [hc, hn] at h
  exact h

theorem doseRecorded_baselined {a : Activity} {d : Nat} {b : Bool} {out : RunOutcome}
    (hc : t.circuit c = { s.circuit c with baseline := b }) (ht : t.track = s.track) (h : DoseRecorded c a d out t u) :
    DoseRecorded c a d out s u := by
  unfold DoseRecorded State.tin? at h ⊢
  rw [hc, ht] at h
  exact h

/-- Settles O22: each bay event by its own equation, the forced removal by what it does to the pump, the tag jobs and the
circuit. -/
theorem baySwitchMovesCircuit : Obligations.BaySwitchMovesCircuit := by
  intro s c closed hp r s'
  have hc : s'.bayClosed c = closed := switched_bayClosed s c closed
  have hb1 : s'.baselined c = s'.setCircuit c fun r => { r with baseline := closed } := by rw [State.baselined, hc]
  refine ⟨s'.bayChanged c, exec_baySwitchChange c closed hp, fun h => ?_, fun h hw => ?_, fun h hw hne => ?_⟩
  · exact (bayChanged_unfitted (s := s') h).trans hb1
  · exact bayChanged_unwatched (s := s') h (by rw [hc]; exact hw)
  · have he : s'.bayChanged c = s'.bayEvent c := bayChanged_event (s := s') h hw (by rw [hc]; exact hne)
    rw [he]
    refine ⟨fun hcl hsv => ?_, fun hcl hsv => ?_, fun hcl hsv => ?_, fun hcl hsv => ?_⟩
    · rw [bayEvent_inserts (s := s') hsv (hc.trans hcl)]
      refine ⟨setCircuit_circuit _ _ _, rfl, fun d hd => ?_, rfl, rfl, fun p hp => ?_⟩
      · exact setCircuit_circuit_ne _ _ (List.ne_of_not_mem_cons hd)
      · cases p <;> simp [Part.same, State.askTag, s'] at hp ⊢
    · rw [bayEvent_moves (s := s') h hsv (hc.trans hcl), hb1, hcl]
    · exact bayEvent_empties (s := s') hsv (hc.trans hcl)
    · rw [bayEvent_removes (s := s') h hsv (hc.trans hcl)]
      have hun : Unchanged [.inputs, .circuits] s (s'.baselined c) := unchanged_baselined s c closed
      have hcirc : (s'.baselined c).circuit c = { r with baseline := false } := by rw [baselined_circuit, hc, hcl]; rfl
      have hother (d : Circ) (hd : d ≠ c) : (s'.baselined c).circuit d = s.circuit d := setCircuit_circuit_ne s' _ hd
      have hpump (d : Circ) : (s'.baselined c).pump d = s.pump d := rfl
      have htag : (s'.baselined c).tag = s.tag := rfl
      have hstore : (s'.baselined c).store = s.store := rfl
      have htrack : (s'.baselined c).track = s.track := rfl
      have hstn : (s'.baselined c).stn = s.stn := rfl
      have hcares : (s'.baselined c).cares = s.cares := rfl
      have hnow : (s'.baselined c).now = s.now := rfl
      generalize s'.baselined c = s1 at *
      obtain ⟨hstate, hreason, hlot, hblocked⟩ := forcedRemoval_state s1 c
      obtain ⟨-, -, -, -, hjobs⟩ := forcedRemoval_account s1 c
      obtain ⟨hidle, hcut, hflight⟩ := forcedRemoval_activity s1 c
      have hl := forcedRemoval_local s1 c
      obtain ⟨hcfg, -, -, -, -, hopen, hlatch, hbase, -⟩ := hl.circuit_fields
      obtain ⟨himg, hlast, hbus⟩ := hl.tag_fields
      have hpumpc := forcedRemoval_pump s1 c
      simp only [hpump, htag, hcirc] at hjobs hidle hflight hcfg hopen hlatch hbase himg hlast hbus hpumpc
      refine ⟨hstate, hreason, hlot, hbase, hblocked, hlatch, ?_, fun a ha => ?_, fun a p ha => ?_, fun a ha => ?_, himg,
        hlast, hbus, fun d hd => ?_, fun d hd => ?_, ?_, hcfg, hopen, fun hs => ?_, ?_, hpumpc, hcut, hidle, hflight,
        fun a ha hb => ⟨?_, fun hs hk hd hl => ?_, fun hn hk => ?_⟩, fun hr => ?_, fun q hq hk => ?_⟩
      · rw [hjobs]; exact abandonJobs_jobs _ _
      · rw [hjobs]; exact (abandonJobs_active c ha).1
      · rw [hjobs]; exact (abandonJobs_active c ha).2.1 p
      · rw [hjobs]; exact (abandonJobs_active c ha).2.2
      · exact (hl.otherCircuits d hd).trans (hother d (List.ne_of_not_mem_cons hd))
      · exact (hl.otherPumps d hd).trans (hpump d)
      · exact (hun.trans hl.unchanged).mono (by decide)
      · refine forcedRemoval_leaves ?_
        rw [hcirc]
        rcases hs with hs | hs <;> simp only [r] at hs ⊢ <;> rw [hs] <;> rfl
      · rw [forcedRemoval_cares, hcares]
      · refine runReported_baselined hcirc hnow (forcedRemoval_reported ?_ ?_)
        · rw [hpump]; exact ha
        · rw [hpump]; exact hb
      · exact forcedRemoval_empty ((hpump c).symm ▸ ha) ((hpump c).symm ▸ hb) (hcirc.symm ▸ hs) hk hd (hcirc.symm ▸ hl)
      · obtain ⟨h1, h2⟩ := forcedRemoval_told (s := s1) ((hpump c).symm ▸ ha) ((hpump c).symm ▸ hb) ((hpump c).symm ▸ hn) hk
        exact ⟨doseRecorded_baselined hcirc htrack h1, fun q ho hq => h2 q ho (hstn.symm ▸ hq)⟩
      · obtain ⟨h1, h2, h3⟩ := forcedRemoval_no_run (s := s1) (c := c) (by rw [hpump]; exact hr)
        rw [hcirc] at h1
        obtain ⟨hlevel, hdelivery, hlow⟩ := reading_eq_iff.mp h1
        exact ⟨hlevel, hdelivery, hlow, h2.trans hstore, fun hn => (h3 ((hpump c).symm ▸ hn)).trans htrack⟩
      · obtain ⟨h1, h2⟩ := forcedRemoval_refuses (s := s1) ((hpump c).symm ▸ hq) ((hpump c).symm ▸ hk)
        refine ⟨fun id k t e ho ht => h1 id k t e ho ?_, fun ho => hstn ▸ h2 ho⟩
        simp only [State.tin?, htrack]
        exact ht

end Sys2Proof.Machine
end

