-- ==== Sys2Proof/Proofs/TwinRules.lean ====
section
/-! PROOF SUPPORT. The twin rules of CSET (R2): when a pair forms, when one dissolves, and when neither is possible. -/

namespace Sys2Proof.Machine

set_option Elab.async false

variable {s : State} {c : Circ} {fs : Fields}

/-! ### The request's own words -/

/-- The three readings of twin=, within its range. -/
theorem twinAsk_cases (h : fieldWithin fs "twin" 0 24 = true) :
    (twinAsk fs = .unnamed ∧ fs.num "twin" = none) ∨ (twinAsk fs = .nothing ∧ fs.num "twin" = some 0)
      ∨ ∃ n, twinAsk fs = .circuit n ∧ fs.num "twin" = some (circNo n) := by
  unfold twinAsk fieldWithin at *
  cases hn : fs.num "twin" with
  | none => exact .inl ⟨rfl, rfl⟩
  | some n =>
    cases hc : circ? n with
    | some d => exact .inr (.inr ⟨d, by simp [hc], congrArg some (circNo_of_circ? hc)⟩)
    | none =>
      have hle : n ≤ 24 := by simpa [hn, within] using h
      have h0 : n = 0 := by
        have := (circ?_eq_none_iff n).mp hc
        omega
      exact .inr (.inl ⟨by simp [hc], by rw [h0]⟩)

/-- The colourant code of circuit c after the request. -/
def State.codeAfter (s : State) (c : Circ) (fs : Fields) : Option Text := named fs "code" colourant? (s.circuit c).cfg.code

/-- Circuit d holds the code that circuit c has after the request. -/
def State.Shares (s : State) (c : Circ) (fs : Fields) (d : Circ) : Prop :=
  s.codeAfter c fs ≠ none ∧ (s.circuit d).cfg.code = s.codeAfter c fs

/-- A pair of c and n forms (R2). -/
def State.TwinForms (s : State) (c : Circ) (fs : Fields) (n : Circ) : Prop :=
  fs.num "twin" = some (circNo n) ∧ n ≠ c ∧ s.Shares c fs n ∧ (s.circuit n).cfg.twin = none
    ∧ (s.codeAfter c fs = (s.circuit c).cfg.code → (s.circuit c).cfg.twin = none)
    ∧ (s.codeAfter c fs ≠ (s.circuit c).cfg.code → ∀ d : Circ, d ≠ c → d ≠ n → ¬s.Shares c fs d)

/-- No pair forms, and the request is none of a wrong twin (R2). -/
def State.TwinRests (s : State) (c : Circ) (fs : Fields) : Prop :=
  (fs.num "twin" = none ∨ fs.num "twin" = some 0)
      ∧ (s.codeAfter c fs ≠ (s.circuit c).cfg.code → ∀ d : Circ, d ≠ c → ¬s.Shares c fs d)
    ∨ ∃ n : Circ, fs.num "twin" = some (circNo n) ∧ s.codeAfter c fs = (s.circuit c).cfg.code
      ∧ (s.circuit c).cfg.twin = some n

/-- The pair of circuit c dissolves (R2). -/
def State.twinParts (s : State) (c : Circ) (fs : Fields) : Bool :=
  (s.circuit c).cfg.twin.isSome && (s.codeAfter c fs != (s.circuit c).cfg.code || fs.num "twin" == some 0)

/-- A number that names a circuit names no other, and is not 0. -/
theorem num_circNo {m : Option Nat} {n : Circ} (h : m = some (circNo n)) :
    m ≠ none ∧ m ≠ some 0 ∧ ∀ d, m = some (circNo d) ↔ d = n := by
  subst h
  refine ⟨nofun, fun h => ?_, fun d => ?_⟩
  · rw [circNo, Option.some.injEq] at h
    omega
  · rw [Option.some.injEq, circNo_inj, eq_comm]

theorem num_not_circNo {m : Option Nat} (h : m = none ∨ m = some 0) (n : Circ) : m ≠ some (circNo n) := by
  intro e
  obtain ⟨h1, h2, -⟩ := num_circNo e
  exact h.elim h1 h2

/-! ### The holders of a code -/

/-- The circuits other than c that hold a code. -/
def State.others (s : State) (c : Circ) (x : Text) : List Circ := (s.holders x).filter (· != c)

theorem mem_others (x : Text) (d : Circ) : d ∈ s.others c x ↔ (s.circuit d).cfg.code = some x ∧ d ≠ c := by
  simp [State.others, State.holders, allCircuits, and_comm]

theorem others_nil_iff (x : Text) : s.others c x = [] ↔ ∀ d, d ≠ c → (s.circuit d).cfg.code ≠ some x := by
  simp only [List.eq_nil_iff_forall_not_mem, mem_others, not_and, not_not]
  exact forall_congr' fun d => ⟨fun h hd hx => hd (h hx), fun h hx => by_contra fun hd => h hd hx⟩

theorem others_singleton_iff (x : Text) (n : Circ) : (n ∈ s.others c x ∧ (s.others c x).length = 1) ↔
    (n ≠ c ∧ (s.circuit n).cfg.code = some x) ∧ ∀ d, d ≠ c → d ≠ n → (s.circuit d).cfg.code ≠ some x := by
  have hnd : (s.others c x).Nodup := ((List.nodup_finRange 24).filter _).filter _
  rw [mem_others, and_comm (a := n ≠ c)]
  refine and_congr_right fun hn => ⟨fun hlen d hd hdn hx => hdn ?_, fun h => ?_⟩
  · obtain ⟨m, hm⟩ := List.length_eq_one_iff.mp hlen
    have h1 : d ∈ s.others c x := (mem_others x d).mpr ⟨hx, hd⟩
    have h2 : n ∈ s.others c x := (mem_others x n).mpr hn
    rw [hm, List.mem_singleton] at h1 h2
    rw [h1, h2]
  · have hp : (s.others c x).Perm [n] := by
      refine (List.perm_ext_iff_of_nodup hnd (List.nodup_singleton n)).mpr fun d => ?_
      rw [mem_others, List.mem_singleton]
      exact ⟨fun hd => by_contra fun hne => h d hd.2 hne hd.1, fun e => e ▸ hn⟩
    rw [hp.length_eq]
    rfl

/-! ### The change a request makes to the twins -/

theorem twinForSameCode_circuit (n : Circ) : s.twinForSameCode c (.circuit n)
    = if (s.circuit c).cfg.twin = some n then some ⟨false, none⟩
      else if n ≠ c ∧ (s.circuit c).cfg.twin = none ∧ (s.circuit n).cfg.twin = none ∧ (s.circuit c).cfg.code.isSome
        ∧ (s.circuit n).cfg.code = (s.circuit c).cfg.code then some ⟨false, some n⟩ else none := rfl

theorem twinForNewCode_circuit (x : Text) (n : Circ) : s.twinForNewCode c (some x) (.circuit n)
    = if (n ∈ s.others c x ∧ (s.others c x).length = 1) ∧ (s.circuit n).cfg.twin = none then
        some ⟨(s.circuit c).cfg.twin.isSome, some n⟩ else none := by
  have e : (s.holders x).filter (· != c) = s.others c x := rfl
  simp only [State.twinForNewCode, e]
  cases s.others c x with
  | nil => rfl
  | cons d l =>
    simp only [List.contains_iff_mem]
    exact if_congr ⟨fun ⟨hm, ht, hl⟩ => ⟨⟨hm, hl⟩, ht⟩, fun ⟨⟨hm, hl⟩, ht⟩ => ⟨hm, ht, hl⟩⟩ rfl rfl

theorem twinForNewCode_other {ask : TwinAsk} (h : ∀ n, ask ≠ .circuit n) (x : Text) :
    s.twinForNewCode c (some x) ask = if s.others c x = [] then some ⟨(s.circuit c).cfg.twin.isSome, none⟩ else none := by
  have e : (s.holders x).filter (· != c) = s.others c x := rfl
  simp only [State.twinForNewCode, e]
  cases ask with
  | circuit n => exact (h n rfl).elim
  | unnamed => cases s.others c x <;> rfl
  | nothing => cases s.others c x <;> rfl

theorem twinChange_same (h : s.codeAfter c fs = (s.circuit c).cfg.code) :
    s.twinChange c fs = s.twinForSameCode c (twinAsk fs) := if_pos h

theorem twinChange_new (h : s.codeAfter c fs ≠ (s.circuit c).cfg.code) :
    s.twinChange c fs = s.twinForNewCode c (s.codeAfter c fs) (twinAsk fs) := if_neg h

theorem twinParts_new (h : s.codeAfter c fs ≠ (s.circuit c).cfg.code) :
    s.twinParts c fs = (s.circuit c).cfg.twin.isSome := by
  rw [State.twinParts, bne_iff_ne.mpr h, Bool.true_or, Bool.and_true]

/-- With twin= of a circuit under the code held before, no pair dissolves. -/
theorem twinParts_circuit {n : Circ} (h : s.codeAfter c fs = (s.circuit c).cfg.code)
    (hn : fs.num "twin" = some (circNo n)) : s.twinParts c fs = false := by
  rw [State.twinParts, bne_eq_false_iff_eq.mpr h, beq_eq_false_iff_ne.mpr (num_circNo hn).2.1, Bool.or_false, Bool.and_false]

/-- Without a circuit named as the twin, a request that names a new code is answered by the other holders of it. -/
theorem twinForNewCode_uncoupled {ask : TwinAsk} (h : ∀ n, ask ≠ .circuit n) :
    ((∀ d, d ≠ c → ¬s.Shares c fs d) →
        s.twinForNewCode c (s.codeAfter c fs) ask = some ⟨(s.circuit c).cfg.twin.isSome, none⟩)
      ∧ (¬(∀ d, d ≠ c → ¬s.Shares c fs d) → s.twinForNewCode c (s.codeAfter c fs) ask = none) := by
  unfold State.Shares
  cases s.codeAfter c fs with
  | none =>
    refine ⟨fun _ => ?_, fun hs => (hs fun _ _ hx => hx.1 rfl).elim⟩
    cases ask with
    | circuit n => exact (h n rfl).elim
    | unnamed => rfl
    | nothing => rfl
  | some x =>
    have e : (∀ d, d ≠ c → ¬(some x ≠ none ∧ (s.circuit d).cfg.code = some x)) ↔ s.others c x = [] := by
      rw [others_nil_iff]
      simp
    rw [e, twinForNewCode_other h]
    exact ⟨fun hs => if_pos hs, fun hs => if_neg hs⟩

/-- No pair forms: the request leaves the twins, or dissolves the pair. -/
theorem twinChange_rests (hr : fieldWithin fs "twin" 0 24 = true) (h : s.TwinRests c fs) :
    s.twinChange c fs = some ⟨s.twinParts c fs, none⟩ := by
  by_cases hc : s.codeAfter c fs = (s.circuit c).cfg.code
  · rw [twinChange_same hc]
    rcases twinAsk_cases hr with ⟨ha, hn⟩ | ⟨ha, hn⟩ | ⟨n, ha, hn⟩
    · simp [ha, State.twinForSameCode, State.twinParts, hc, hn]
    · simp [ha, State.twinForSameCode, State.twinParts, hc, hn]
    · rcases h with ⟨h, -⟩ | ⟨m, hm, -, ht⟩
      · exact (num_not_circNo h n hn).elim
      · obtain rfl := ((num_circNo hn).2.2 m).mp hm
        rw [ha, twinForSameCode_circuit, if_pos ht, twinParts_circuit hc hn]
  · rw [twinChange_new hc, twinParts_new hc]
    obtain ⟨hn, hs⟩ : (fs.num "twin" = none ∨ fs.num "twin" = some 0) ∧ _ := h.resolve_right fun ⟨_, _, e, _⟩ => hc e
    refine (twinForNewCode_uncoupled ?_).1 (hs hc)
    rcases twinAsk_cases hr with ⟨ha, -⟩ | ⟨ha, -⟩ | ⟨n, -, hm⟩
    · rw [ha]; nofun
    · rw [ha]; nofun
    · exact (num_not_circNo hn n hm).elim

theorem twinAsk_circuit (n : Circ) (h : fs.num "twin" = some (circNo n)) : twinAsk fs = .circuit n := by
  simp only [twinAsk, h, circ?_circNo]

/-- A pair forms. -/
theorem twinChange_forms {n : Circ} (h : s.TwinForms c fs n) :
    s.twinChange c fs = some ⟨s.twinParts c fs, some n⟩ := by
  obtain ⟨hn, hne, ⟨hcode, hshare⟩, hfree, hown, halone⟩ := h
  by_cases hc : s.codeAfter c fs = (s.circuit c).cfg.code
  · rw [twinChange_same hc, twinAsk_circuit n hn, twinForSameCode_circuit, twinParts_circuit hc hn, hown hc, if_neg nofun]
    rw [hc] at hcode hshare
    exact if_pos ⟨hne, rfl, hfree, Option.isSome_iff_ne_none.mpr hcode, hshare⟩
  · rw [twinChange_new hc, twinAsk_circuit n hn, twinParts_new hc]
    unfold State.Shares at halone
    revert halone hshare
    obtain ⟨x, hx⟩ := Option.ne_none_iff_exists'.mp hcode
    rw [hx, twinForNewCode_circuit]
    intro hshare halone
    exact if_pos ⟨(others_singleton_iff x n).mpr ⟨⟨hne, hshare⟩, fun d hd hdn e => halone (hx ▸ hc) d hd hdn ⟨nofun, e⟩⟩, hfree⟩

/-- Every other request is a MISMATCH. -/
theorem twinChange_mismatch (hr : fieldWithin fs "twin" 0 24 = true) (hrest : ¬s.TwinRests c fs)
    (hform : ∀ n, ¬s.TwinForms c fs n) : s.twinChange c fs = none := by
  by_cases hc : s.codeAfter c fs = (s.circuit c).cfg.code
  · have hno (h : fs.num "twin" = none ∨ fs.num "twin" = some 0) : False := hrest (.inl ⟨h, fun e => (e hc).elim⟩)
    rw [twinChange_same hc]
    rcases twinAsk_cases hr with ⟨-, hn⟩ | ⟨-, hn⟩ | ⟨n, ha, hn⟩
    · exact (hno (.inl hn)).elim
    · exact (hno (.inr hn)).elim
    · rw [ha, twinForSameCode_circuit, if_neg fun ht => hrest (.inr ⟨n, hn, hc, ht⟩), if_neg]
      rintro ⟨hne, hown, hfree, hcode, hshare⟩
      rw [Option.isSome_iff_ne_none, ← hc] at hcode
      exact hform n ⟨hn, hne, ⟨hcode, hshare.trans hc.symm⟩, hfree, fun _ => hown, fun e => (e hc).elim⟩
  · rw [twinChange_new hc]
    rcases twinAsk_cases hr with ⟨ha, hn⟩ | ⟨ha, hn⟩ | ⟨n, ha, hn⟩
    · exact (twinForNewCode_uncoupled (by rw [ha]; nofun)).2 fun h => hrest (.inl ⟨.inl hn, fun _ => h⟩)
    · exact (twinForNewCode_uncoupled (by rw [ha]; nofun)).2 fun h => hrest (.inl ⟨.inr hn, fun _ => h⟩)
    · rw [ha]
      cases hx : s.codeAfter c fs with
      | none => rfl
      | some x =>
        rw [twinForNewCode_circuit, if_neg]
        rintro ⟨hl, hfree⟩
        obtain ⟨⟨hne, hshare⟩, halone⟩ := (others_singleton_iff x n).mp hl
        exact hform n ⟨hn, hne, ⟨hx ▸ nofun, hshare.trans hx.symm⟩, hfree, fun e => (hc e).elim,
          fun _ d hd hdn h => halone d hd hdn (h.2.trans hx)⟩

end Sys2Proof.Machine
end

