-- ==== Sys2Proof/Proofs/CsetChecks.lean ====
section
/-! PROOF SUPPORT. The checks of CSET in their order: ranges, consistency, twins, hindrances, places (R1, R2, R39). -/

namespace Sys2Proof.Machine

set_option Elab.async false

variable {s : State} {c : Circ} {fs : Fields}

/-! ### Fields -/

/-- A numeric field that is given has a number. -/
theorem has_eq_isSome_num {allowed required numeric : List String} {key : String}
    (h : fs.malformed allowed required numeric = false) (hk : key ∈ numeric) : fs.has key = (fs.num key).isSome := by
  simp only [Fields.malformed, Bool.or_eq_false_iff, List.any_eq_false] at h
  have hn : ¬(fs.has key && (fs.num key).isNone) = true := h.2 key hk
  unfold Fields.has Fields.num at *
  cases hg : fs.get key with
  | none => rfl
  | some x => cases hx : number? x <;> simp_all

theorem fieldWithin_eq_false {key : String} {lo hi n : Nat} (h : fs.num key = some n) (hn : n < lo ∨ hi < n) :
    fieldWithin fs key lo hi = false := by
  simp only [fieldWithin, h, within, Bool.and_eq_false_iff, decide_eq_false_iff_not, not_le]
  exact hn

theorem unreadable_of {α : Type} {key : String} {read : Text → Option α}
    (h : ∃ v, fs.get key = some v ∧ read v = none) : fs.unreadable key read = true := by
  obtain ⟨v, hv, hr⟩ := h
  simp [Fields.unreadable, Fields.has, hv, hr]

/-! ### Values outside their range (R1) -/

theorem csetOutside_of_number {x : String × Nat × Nat} (hx : x ∈ [("k", 1000, 16000), ("nmin", 1, 64), ("density", 800, 2500),
      ("capacity", 500, 5000), ("stirdur", 5, 60), ("purgesteps", 1, 3200), ("twin", 0, 24)])
    {n : Nat} (hn : fs.num x.1 = some n) (ho : n < x.2.1 ∨ x.2.2 < n) : csetOutside fs = true := by
  have hf : fieldWithin fs x.1 x.2.1 x.2.2 = false := fieldWithin_eq_false hn ho
  simp only [List.mem_cons, List.not_mem_nil, or_false] at hx
  rcases hx with rfl | rfl | rfl | rfl | rfl | rfl | rfl <;> simp [csetOutside, hf]

theorem csetOutside_of_purgeint {n : Nat} (hn : fs.num "purgeint" = some n) (h0 : n ≠ 0) (ho : n < 10 ∨ 240 < n) :
    csetOutside fs = true := by
  have hw : within 10 240 n = false := by
    simp only [within, Bool.and_eq_false_iff, decide_eq_false_iff_not, not_le]
    exact ho
  simp [csetOutside, hn, h0, hw]

theorem csetOutside_of_unreadable (h : fs.unreadable "code" colourant? = true ∨ fs.unreadable "stir" (named? stirTable) = true
      ∨ fs.unreadable "policy" (named? policyTable) = true ∨ fs.unreadable "watch" (named? onOffTable) = true) :
    csetOutside fs = true := by
  rcases h with h | h | h | h <;> simp [csetOutside, h]

theorem fieldWithin_of_inside (h : csetOutside fs = false) : fieldWithin fs "twin" 0 24 = true := by
  by_contra hf
  rw [Bool.not_eq_true] at hf
  simp [csetOutside, hf] at h

/-! ### The record with the request's settings (R1, R21) -/

/-- The settings and the staged minimum dose that the request gives. -/
theorem csetApplied_eq (r : Circuit) (fs : Fields) : r.csetApplied fs = { r with
    cfg := { r.cfg.overlay fs with nmin := (fs.num "nmin").getD r.cfg.nmin }
    nmin := if r.openBatch = 0 then (fs.num "nmin").getD r.nmin else r.nmin
    pendingNmin := if (fs.num "nmin").isNone then r.pendingNmin else if r.openBatch = 0 then none else fs.num "nmin" } := by
  rcases csetApplied_cases r fs with ⟨hn, e⟩ | ⟨n, hn, e⟩
  · rw [e, hn]
    simp [Settings.overlay]
  · rw [e, hn, Circuit.stageNmin]
    dsimp only
    split <;> rfl

/-- The larger of the active and any pending minimum dose, with the request's own. -/
def Circuit.leastAfter (r : Circuit) (fs : Fields) : Nat :=
  max (if r.openBatch = 0 then (fs.num "nmin").getD r.nmin else r.nmin)
    ((if (fs.num "nmin").isNone then r.pendingNmin else if r.openBatch = 0 then none else fs.num "nmin").getD 0)

theorem leastAfter_unnamed {r : Circuit} (h : fs.num "nmin" = none) : r.leastAfter fs = max r.nmin (r.pendingNmin.getD 0) := by
  simp [Circuit.leastAfter, h]

theorem leastAfter_named {r : Circuit} {n : Nat} (h : fs.num "nmin" = some n) :
    r.leastAfter fs = if r.openBatch = 0 then n else max r.nmin n := by
  simp only [Circuit.leastAfter, h, Option.isNone_some, Option.getD_some, Bool.false_eq_true, if_false]
  split <;> simp

theorem csetApplied_consistent (r : Circuit) (fs : Fields) : (r.csetApplied fs).consistent = true ↔
    fs.numD "low" r.cfg.low ≤ fs.numD "capacity" r.cfg.capacity * 1000
      ∧ fs.numD "reserve" r.cfg.reserve ≤ fs.numD "capacity" r.cfg.capacity * 1000
      ∧ r.leastAfter fs ≤ fs.numD "purgesteps" r.cfg.purgeSteps := by
  rw [csetApplied_eq]
  simp only [Circuit.consistent, Bool.and_eq_true, decide_eq_true_eq]
  exact and_assoc

/-! ### What CSET answers -/

section
variable (hm : fs.malformed csetKeys ["circuit"] csetNumbers = false)
include hm

theorem cset_no_circuit (hc : (fs.num "circuit").bind circ? = none) : csetAnswer fs s = .refuse .range := by
  simp only [csetAnswer, hm, Answer.check_false, circ?_numD_none hc]

variable (hc : (fs.num "circuit").bind circ? = some c)
include hc

theorem cset_range (h : csetOutside fs = true ∨ ((s.circuit c).csetApplied fs).consistent = false) :
    csetAnswer fs s = .refuse .range := by
  have hb : (csetOutside fs || !((s.circuit c).csetApplied fs).consistent) = true := by
    rcases h with h | h <;> simp [h]
  simp only [csetAnswer, hm, Answer.check_false, circ?_numD hc, hb, Answer.check_true]

/-- Settings that are inconsistent with each other are refused. -/
theorem cset_inconsistent (h : fs.numD "capacity" (s.circuit c).cfg.capacity * 1000 < fs.numD "low" (s.circuit c).cfg.low
      ∨ fs.numD "capacity" (s.circuit c).cfg.capacity * 1000 < fs.numD "reserve" (s.circuit c).cfg.reserve
      ∨ fs.numD "purgesteps" (s.circuit c).cfg.purgeSteps < (s.circuit c).leastAfter fs) :
    csetAnswer fs s = .refuse .range := by
  refine cset_range hm hc (.inr (Bool.eq_false_iff.mpr fun hs => ?_))
  obtain ⟨hlow, hreserve, hsteps⟩ := (csetApplied_consistent _ fs).mp hs
  rcases h with h | h | h
  · exact absurd hlow (Nat.not_le.mpr h)
  · exact absurd hreserve (Nat.not_le.mpr h)
  · exact absurd hsteps (Nat.not_le.mpr h)

variable (ho : csetOutside fs = false) (hs : ((s.circuit c).csetApplied fs).consistent = true)
include ho hs

theorem cset_mismatch (ht : s.twinChange c fs = none) : csetAnswer fs s = .refuse .mismatch := by
  simp only [csetAnswer, hm, circ?_numD hc, ho, hs, Bool.not_true, Bool.or_false, Answer.check_false, ht]

variable {t : TwinChange} (ht : s.twinChange c fs = some t)
include ht

/-- What CSET answers once its twins are settled. -/
theorem cset_settled : csetAnswer fs s = .check (s.csetHindered c fs) .state
    (.check (!s.linkRoom (1 + (t.partners (s.circuit c).cfg).length)) .busy
      (.accept (if fs.has "nmin" then [(s.circuit c).applied] else []) fun u => u.csetEffect c fs t)) := by
  simp only [csetAnswer, hm, circ?_numD hc, ho, hs, Bool.not_true, Bool.or_false, Answer.check_false, ht]

end

theorem csetHindered_iff : s.csetHindered c fs = true ↔
    ((s.circuit c).state ≠ .unfitted ∧ (s.circuit c).state ≠ .service
        ∧ (s.codeAfter c fs ≠ (s.circuit c).cfg.code
          ∨ (fs.num "capacity").getD (s.circuit c).cfg.capacity ≠ (s.circuit c).cfg.capacity))
      ∨ ((fs.num "k").getD (s.circuit c).cfg.k ≠ (s.circuit c).cfg.k
        ∧ ((s.circuit c).openBatch ≠ 0 ∨ (s.pump c).activity ≠ none)) := by
  simp only [State.csetHindered, Settings.overlay, Fields.numD, State.codeAfter, Bool.or_eq_true, Bool.and_eq_true,
    bne_iff_ne, Option.isSome_iff_ne_none]
  tauto

end Sys2Proof.Machine
end

