-- ==== Sys2Proof/Proofs/CsetStages.lean ====
section
/-! PROOF SUPPORT. The stages of an accepted CSET: the level and the code, what the named fields bring, and the bay event. -/

namespace Sys2Proof.Machine

set_option Elab.async false

variable {c : Circ} {s t u : State}

/-! ### What the stages leave -/

/-- The settings and the staged values of a circuit record. -/
def Circuit.staged (r : Circuit) := (r.cfg, r.openBatch, r.trim, r.pendingTrim, r.nmin, r.pendingNmin)

/-- The parts a CSET may touch. -/
def csetParts : List Part := [.circuits, .drive, .store, .calibration, .station, .track, .tagBus, .care, .link]

/-- Between s and t the other circuits, the settings and staged values of circuit c and the link writes have stayed, with the
parts that a CSET does not touch, and the Counter Link has grown. -/
structure Confined (c : Circ) (s t : State) : Prop where
  others : ∀ d, d ≠ c → t.circuit d = s.circuit d
  staged : (t.circuit c).staged = (s.circuit c).staged
  fifo : t.store.fifo = s.store.fifo
  link : s.link.Grows t.link
  unchanged : Unchanged csetParts s t

theorem Part.same_refl (p : Part) (s : State) : p.same s s := by
  cases p <;> rfl

theorem Unchanged.refl (l : List Part) (s : State) : Unchanged l s s := ⟨rfl, rfl, fun p _ => p.same_refl s⟩

theorem Confined.refl (c : Circ) (s : State) : Confined c s s := ⟨fun _ _ => rfl, rfl, rfl, .refl _, .refl _ s⟩

theorem Confined.trans (h : Confined c s t) (k : Confined c t u) : Confined c s u :=
  ⟨fun d hd => (k.others d hd).trans (h.others d hd), k.staged.trans h.staged, k.fifo.trans h.fifo, h.link.trans k.link,
    (h.unchanged.trans k.unchanged).mono fun _ hp => (List.mem_append.mp hp).elim id id⟩

theorem Confined.ite {p : Prop} [Decidable p] (h : p → Confined c s t) (k : ¬p → Confined c s u) :
    Confined c s (if p then t else u) := by
  split
  · rename_i hp; exact h hp
  · rename_i hp; exact k hp

theorem Local.confined (h : Local c s t) : Confined c s t := by
  obtain ⟨hcfg, htrim, hnmin, hpt, hpn, hopen, -⟩ := h.circuit_fields
  refine ⟨fun d hd => h.circuit_ne hd, ?_, h.fifo, h.link, h.unchanged.mono (by decide)⟩
  simp only [Circuit.staged, hcfg, htrim, hnmin, hpt, hpn, hopen]

/-- A change of the record of circuit c beside its settings and staged values. -/
theorem confined_setCircuit {f : Circuit → Circuit} (h : (f (s.circuit c)).staged = (s.circuit c).staged) :
    Confined c s (s.setCircuit c f) := by
  refine ⟨fun d hd => setCircuit_circuit_ne s f hd, by rw [setCircuit_circuit, h], rfl, .refl _, rfl, rfl, fun p hp => ?_⟩
  cases p <;> simp [Part.same, csetParts] at hp ⊢

theorem Confined.now (h : Confined c s t) : t.now = s.now := h.unchanged.2.2 .now (by decide)

/-- The switches stand as they did. -/
theorem Confined.bayClosed (h : Confined c s t) : t.bayClosed c = s.bayClosed c := by
  have e : t.inp = s.inp := h.unchanged.2.2 .inputs (by decide)
  rw [State.bayClosed, e, State.bayClosed]

theorem Confined.cfg (h : Confined c s t) : (t.circuit c).cfg = (s.circuit c).cfg := congrArg Prod.fst h.staged

/-! ### The level and the code (R1, R3) -/

/-- A record with its level brought to the capacity. -/
def Circuit.clamped (r : Circuit) : Circuit := { r with level := min r.level r.cfg.maxLevel }

theorem clampLevel_circuit (s : State) (c : Circ) : (s.clampLevel c).circuit c = (s.circuit c).clamped := by
  unfold State.clampLevel Circuit.clamped
  dsimp only
  split
  · rename_i h
    rw [Nat.min_eq_right (Nat.le_of_lt h)]
    exact setCircuit_circuit s c fun r => { r with level := r.cfg.maxLevel }
  · rename_i h
    rw [Nat.min_eq_left (Nat.le_of_not_lt h)]

theorem clampLevel_keeps (s : State) (c : Circ) : (s.clampLevel c).tag = s.tag ∧ (s.clampLevel c).drive = s.drive
    ∧ (s.clampLevel c).inp = s.inp ∧ (s.clampLevel c).calResult = s.calResult := by
  unfold State.clampLevel
  dsimp only
  split <;> exact ⟨rfl, rfl, rfl, rfl⟩

theorem confined_clampLevel : Confined c s (s.clampLevel c) := by
  unfold State.clampLevel
  exact .ite (fun _ => (confined_setCircuit rfl).trans (Local.of beside_markDirty).confined) fun _ => .refl c s

/-- A code comes to an UNFITTED circuit. -/
theorem codeMoves_given (h : (s.circuit c).state = .unfitted) (hc : (s.circuit c).cfg.code ≠ none) :
    s.codeMoves c = ((s.moveCircuit c .service).setCircuit c fun r =>
      { r with latchOpen := true, baseline := false, level := 0 }).markDirty c :=
  if_pos ⟨h, Option.isSome_iff_ne_none.mpr hc⟩

/-- A circuit is left without a code. -/
theorem codeMoves_removed (h : (s.circuit c).state ≠ .unfitted) (hc : (s.circuit c).cfg.code = none) :
    s.codeMoves c = ((s.moveCircuit c .unfitted).setCircuit c fun r =>
      { r with latchOpen := false, baseline := s.bayClosed c, level := 0, lot := none, reason := none }).markDirty c := by
  unfold State.codeMoves
  dsimp only
  rw [if_neg fun e => h e.1, if_pos ⟨h, hc⟩]

theorem codeMoves_rests (h : (s.circuit c).state = .unfitted ↔ (s.circuit c).cfg.code = none) : s.codeMoves c = s := by
  unfold State.codeMoves
  dsimp only
  rw [if_neg fun e => Option.isSome_iff_ne_none.mp e.2 (h.mp e.1), if_neg fun e => e.1 (h.mpr e.2)]

/-- A move to a state, with a change of the record and the level dirty. -/
theorem moved_confined (g : CircuitState) {f : Circuit → Circuit}
    (h : ∀ r : Circuit, (f r).staged = r.staged) : Confined c s (((s.moveCircuit c g).setCircuit c f).markDirty c) :=
  (Local.moveCircuit c s g).confined.trans ((confined_setCircuit (h _)).trans (Local.of beside_markDirty).confined)

theorem confined_codeMoves : Confined c s (s.codeMoves c) := by
  unfold State.codeMoves
  exact .ite (fun _ => moved_confined .service fun _ => rfl) fun _ =>
    .ite (fun _ => moved_confined .unfitted fun _ => rfl) fun _ => .refl c s

theorem moved_circuit (g : CircuitState) (f : Circuit → Circuit) :
    (((s.moveCircuit c g).setCircuit c f).markDirty c).circuit c = f ((s.moveCircuit c g).circuit c) :=
  setCircuit_circuit _ c f

/-- A code leaves the LOW condition as it is, and so does a code removed. -/
theorem codeMoves_lowArmed : ((s.codeMoves c).circuit c).lowArmed = (s.circuit c).lowArmed := by
  have hm (g : CircuitState) {f : Circuit → Circuit} (h : ∀ r : Circuit, (f r).lowArmed = r.lowArmed) :
      ((((s.moveCircuit c g).setCircuit c f).markDirty c).circuit c).lowArmed = (s.circuit c).lowArmed := by
    rw [moved_circuit, h, moveCircuit_circuit]
  unfold State.codeMoves
  dsimp only
  split
  · exact hm .service fun _ => rfl
  · split
    · exact hm .unfitted fun _ => rfl
    · rfl

/-- A circuit is UNFITTED where it has no code, and only there, once the code is settled. -/
theorem codeMoves_state : ((s.codeMoves c).circuit c).state = .unfitted ↔ (s.circuit c).cfg.code = none := by
  by_cases h : (s.circuit c).state = .unfitted <;> by_cases hc : (s.circuit c).cfg.code = none
  · rw [codeMoves_rests (iff_of_true h hc)]
    exact iff_of_true h hc
  · rw [codeMoves_given h hc, moved_circuit]
    dsimp only
    rw [moveCircuit_state]
    exact iff_of_false nofun hc
  · rw [codeMoves_removed h hc, moved_circuit]
    exact iff_of_true (moveCircuit_state s c _) hc
  · rw [codeMoves_rests (iff_of_false h hc)]
    exact iff_of_false h hc

/-- What a move between states that do not serve, a change of the record and a dirty level come to. -/
theorem moved_outside (g : CircuitState) (h : (s.circuit c).state.serves = false) (hg : g.serves = false)
    (f : Circuit → Circuit) :
    (((s.moveCircuit c g).setCircuit c f).markDirty c).circuit c = f { s.circuit c with state := g }
      ∧ (((s.moveCircuit c g).setCircuit c f).markDirty c).tag = s.tag
      ∧ (((s.moveCircuit c g).setCircuit c f).markDirty c).store.dirty[c] = true := by
  obtain ⟨-, -, -, htag, -⟩ := account_iff.mp (account_moveCircuit (s := s) (c := c) g)
  exact ⟨by rw [moved_circuit, moveCircuit_outside_circuit h hg], htag, updAt_get _ _ _⟩

/-! ### What the named fields bring (R16, R17, R62, R208, R212) -/

/-- The LOW evaluation of a named threshold and the EMPTY check of a named reserve. -/
def State.evaluated (s : State) (c : Circ) (fs : Fields) : State :=
  let t := if fs.has "low" then s.lowEvaluate c else s
  if fs.has "reserve" then t.emptyCheckReserve c else t

/-- Then what the calibration is told, and the purge test of a named interval. -/
def State.purgeTuned (s : State) (c : Circ) (fs : Fields) (old : Settings) : State :=
  let t := (s.evaluated c fs).calibrationChanged c old ((s.evaluated c fs).circuit c).cfg
  if fs.has "purgeint" then t.purgeIntervalSet c else t

/-- What the named fields of a CSET bring, once its settings, its level and its code stand. -/
def State.tuned (s : State) (c : Circ) (fs : Fields) (old : Settings) : State :=
  let t := s.purgeTuned c fs old
  if old.stir != .off && (t.circuit c).cfg.stir == .off then t.dropDue c else t

/-- Between s and t no more than the state within READY and EMPTY, the LOW condition and the purge due of the record has
changed; the pumps, the tag jobs and the store stay. -/
structure Tuned (c : Circ) (s t : State) : Prop where
  confined : Confined c s t
  record : t.circuit c = { s.circuit c with
    state := (t.circuit c).state
    lowArmed := (t.circuit c).lowArmed
    purgeDue := (t.circuit c).purgeDue }
  tag : t.tag = s.tag
  drive : t.drive = s.drive
  store : t.store = s.store
  state : (t.circuit c).state = (s.circuit c).state
    ∨ ((t.circuit c).state.serves = true ∧ (s.circuit c).state.serves = true)

theorem Tuned.refl (c : Circ) (s : State) : Tuned c s s := ⟨.refl c s, rfl, rfl, rfl, rfl, .inl rfl⟩

theorem Tuned.trans (h : Tuned c s t) (k : Tuned c t u) : Tuned c s u := by
  refine ⟨h.confined.trans k.confined, ?_, k.tag.trans h.tag, k.drive.trans h.drive, k.store.trans h.store, ?_⟩
  · rw [k.record, h.record]
  · rcases h.state with hs | ⟨ht, hs⟩ <;> rcases k.state with ks | ⟨ku, kt⟩
    · exact .inl (ks.trans hs)
    · exact .inr ⟨ku, hs ▸ kt⟩
    · exact .inr ⟨ks ▸ ht, hs⟩
    · exact .inr ⟨ku, hs⟩

theorem Tuned.ite {p : Prop} [Decidable p] (h : p → Tuned c s t) : Tuned c s (if p then t else s) := by
  split
  · rename_i hp; exact h hp
  · exact .refl c s

theorem tuned_lowEvaluate : Tuned c s (s.lowEvaluate c) := by
  obtain ⟨hstore, -, -, -, hdrive⟩ := lowEvaluate_keeps s c
  have h := tends_lowEvaluate (s := s) (c := c)
  have e := lowEvaluate_circuit s c
  exact ⟨h.beside.confined, by rw [e], h.tag, hdrive, hstore, h.state⟩

/-- A move within READY and EMPTY leaves the pumps. -/
theorem moveCircuit_serves_drive {g : CircuitState} (hg : g.serves = true) : (s.moveCircuit c g).drive = s.drive := by
  rw [moveCircuit_serves s c hg, State.purgeTest]
  split <;> rfl

theorem tuned_moveCircuit {g : CircuitState} (h : (s.circuit c).state.serves = true) (hg : g.serves = true) :
    Tuned c s (s.moveCircuit c g) := by
  obtain ⟨-, hstore, -⟩ := account_iff.mp (account_moveCircuit (s := s) (c := c) g)
  have ht := tends_moveCircuit h hg
  refine ⟨ht.beside.confined, ?_, ht.tag, moveCircuit_serves_drive hg, hstore, ht.state⟩
  rw [moveCircuit_serves s c hg, purgeTest_circuit, setCircuit_circuit]
  split <;> rfl

theorem tuned_setFlag (f : Flag) (items : List Item) : Tuned c s (s.setFlag f items) :=
  ⟨(Local.setFlag f items).confined, rfl, rfl, rfl, rfl, .inl rfl⟩

theorem tuned_emptyCheckReserve : Tuned c s (s.emptyCheckReserve c) := by
  unfold State.emptyCheckReserve State.emptyCheck
  dsimp only
  split
  · rename_i h
    exact tuned_moveCircuit (by rw [h.1]; rfl) rfl
  · exact .ite fun h => (tuned_moveCircuit (by rw [h.1]; rfl) rfl).trans (tuned_setFlag _ _)

/-- The state after the EMPTY check of a named reserve. -/
theorem emptyCheckReserve_state (s : State) (c : Circ) : ((s.emptyCheckReserve c).circuit c).state
    = if (s.circuit c).state = .empty ∧ (s.circuit c).cfg.reserve < (s.circuit c).level then .ready
      else if (s.circuit c).state = .ready ∧ (s.circuit c).level ≤ (s.circuit c).cfg.reserve then .empty
      else (s.circuit c).state := by
  unfold State.emptyCheckReserve State.emptyCheck
  dsimp only
  split
  · exact moveCircuit_state s c _
  · split
    · exact moveCircuit_state s c _
    · rfl

theorem emptyCheckReserve_lowArmed (s : State) (c : Circ) :
    ((s.emptyCheckReserve c).circuit c).lowArmed = (s.circuit c).lowArmed := by
  have h := (account_iff.mp (account_emptyCheckReserve (s := s) (c := c))).1
  rw [(stationary_iff _ _).mp h]

theorem tuned_calibrationChanged (old new : Settings) : Tuned c s (s.calibrationChanged c old new) := by
  refine ⟨⟨fun _ _ => rfl, rfl, rfl, .refl _, rfl, rfl, fun p hp => ?_⟩, rfl, rfl, rfl, rfl, .inl rfl⟩
  cases p <;> simp [Part.same, csetParts, State.calibrationChanged] at hp ⊢

theorem tuned_clearPurgeDue : Tuned c s (s.clearPurgeDue c) := by
  have e := clearPurgeDue_circuit s c
  have h := tends_clearPurgeDue (s := s) (c := c)
  obtain ⟨-, hstore, -⟩ := account_iff.mp (account_clearPurgeDue (s := s) (c := c))
  refine ⟨h.beside.confined, by rw [e], h.tag, ?_, hstore, h.state⟩
  unfold State.clearPurgeDue
  split <;> rfl

theorem tuned_purgeTest : Tuned c s (s.purgeTest c) := by
  have e := purgeTest_circuit s c
  have h := tends_purgeTest (s := s) (c := c)
  obtain ⟨-, hstore, -⟩ := account_iff.mp (account_purgeTest (s := s) (c := c))
  refine ⟨h.beside.confined, ?_, h.tag, ?_, hstore, h.state⟩
  · rw [e]
    split <;> rfl
  · unfold State.purgeTest
    split <;> rfl

theorem tuned_purgeIntervalSet : Tuned c s (s.purgeIntervalSet c) := by
  unfold State.purgeIntervalSet
  dsimp only
  split
  · exact tuned_clearPurgeDue
  · exact tuned_purgeTest

theorem tuned_dropDue : Tuned c s (s.dropDue c) :=
  ⟨(Local.of beside_dropDue).confined, rfl, rfl, rfl, rfl, .inl rfl⟩

theorem tuned_evaluated (s : State) (c : Circ) (fs : Fields) : Tuned c s (s.evaluated c fs) :=
  (Tuned.ite (p := fs.has "low") fun _ => tuned_lowEvaluate).trans (.ite fun _ => tuned_emptyCheckReserve)

theorem tuned_purgeTuned (s : State) (c : Circ) (fs : Fields) (old : Settings) : Tuned c s (s.purgeTuned c fs old) := by
  have h := (tuned_evaluated s c fs).trans (tuned_calibrationChanged old ((s.evaluated c fs).circuit c).cfg)
  exact h.trans (.ite fun _ => tuned_purgeIntervalSet)

theorem tuned_tuned (s : State) (c : Circ) (fs : Fields) (old : Settings) : Tuned c s (s.tuned c fs old) :=
  (tuned_purgeTuned s c fs old).trans (.ite fun _ => tuned_dropDue)

/-! ### The stages, one by one -/

/-- The record with the level and the settings it keeps. -/
theorem Tuned.level (h : Tuned c s t) : (t.circuit c).level = (s.circuit c).level := by rw [h.record]

theorem evaluated_lowArmed (s : State) (c : Circ) (fs : Fields) : ((s.evaluated c fs).circuit c).lowArmed
    = if fs.has "low" then decide ((s.circuit c).cfg.low ≤ (s.circuit c).level) else (s.circuit c).lowArmed := by
  have e (t : State) : ((if fs.has "reserve" then t.emptyCheckReserve c else t).circuit c).lowArmed
      = (t.circuit c).lowArmed := by
    split
    · exact emptyCheckReserve_lowArmed t c
    · rfl
  refine (e _).trans ?_
  split
  · rw [lowEvaluate_circuit]
  · rfl

/-- LOW is set where a named threshold finds the level below it. -/
theorem evaluated_low {fs : Fields} (hf : fs.has "low" = true) (hl : (s.circuit c).level < (s.circuit c).cfg.low)
    (ha : (s.circuit c).lowArmed = true) : (s.evaluated c fs).link.isSet (.low c) = true := by
  have h : Local c (s.lowEvaluate c) (s.evaluated c fs) := by
    unfold State.evaluated
    rw [hf]
    exact .ite (fun _ => .emptyCheckReserve c _) fun _ => .refl c _
  exact h.link.flags _ (lowEvaluate_fires hl ha)

/-- The state in which the EMPTY check of a named reserve is made. -/
theorem lowTuned (s : State) (c : Circ) (fs : Fields) :
    ∃ b, (if fs.has "low" then s.lowEvaluate c else s).circuit c = { s.circuit c with lowArmed := b } := by
  split
  · exact ⟨_, lowEvaluate_circuit s c⟩
  · exact ⟨_, rfl⟩

theorem evaluated_state (s : State) (c : Circ) (fs : Fields) : ((s.evaluated c fs).circuit c).state
    = if fs.has "reserve" then
        if (s.circuit c).state = .empty ∧ (s.circuit c).cfg.reserve < (s.circuit c).level then .ready
        else if (s.circuit c).state = .ready ∧ (s.circuit c).level ≤ (s.circuit c).cfg.reserve then .empty
        else (s.circuit c).state
      else (s.circuit c).state := by
  obtain ⟨b, e⟩ := lowTuned s c fs
  unfold State.evaluated
  dsimp only
  split
  · rw [emptyCheckReserve_state, e]
  · rw [e]

/-- EMPTY is set where a named reserve finds a READY circuit at or below it. -/
theorem evaluated_empty {fs : Fields} (hf : fs.has "reserve" = true) (hs : (s.circuit c).state = .ready)
    (hl : (s.circuit c).level ≤ (s.circuit c).cfg.reserve) : (s.evaluated c fs).link.isSet (.empty c) = true := by
  obtain ⟨b, e⟩ := lowTuned s c fs
  have hready : ((if fs.has "low" then s.lowEvaluate c else s).circuit c).state = .ready := by rw [e]; exact hs
  unfold State.evaluated State.emptyCheckReserve
  dsimp only
  rw [if_pos hf, if_neg (by rw [hready]; exact fun h => nomatch h.1)]
  exact emptyCheck_fires hready (by rw [e]; exact hl)

theorem evaluated_purgeDue {fs : Fields} (hf : fs.has "reserve" = false) :
    ((s.evaluated c fs).circuit c).purgeDue = (s.circuit c).purgeDue := by
  obtain ⟨b, e⟩ := lowTuned s c fs
  unfold State.evaluated
  dsimp only
  rw [hf, if_neg Bool.false_ne_true, e]

theorem evaluated_calResult (fs : Fields) : (s.evaluated c fs).calResult = s.calResult := by
  have h1 : Local c s (if fs.has "low" then s.lowEvaluate c else s) := .ite (fun _ => .lowEvaluate c s) fun _ => .refl c s
  have h2 : Local c s (s.evaluated c fs) := h1.trans (.ite (fun _ => .emptyCheckReserve c _) fun _ => .refl c _)
  exact h2.calResult

/-- The purge interval is set, and has run out at the moment m. -/
def Circuit.intervalOut (r : Circuit) (m : Nat) : Bool := r.cfg.purgeInt != 0 && r.purgeMoment ≤ m

/-- The purge due of the record at the moment m, for a purge interval that has been set (R212). -/
def Circuit.purgeRetested (r : Circuit) (m : Nat) : Option PurgeCause :=
  if r.purgeDue = some .forced then some .forced else if r.intervalOut m then some .interval else none

theorem purgeFalls_eq (r : Circuit) (m : Nat) (h : r.state.serves = true) :
    r.purgeFalls m = (r.intervalOut m && r.purgeDue.isNone) := by
  simp [Circuit.purgeFalls, Circuit.intervalOut, inService_eq, h]

theorem not_intervalOut (r : Circuit) (m : Nat) :
    r.cfg.purgeInt = 0 ∨ m < r.purgeMoment ↔ r.intervalOut m = false := by
  simp only [Circuit.intervalOut, Bool.and_eq_false_iff, bne_eq_false_iff_eq, decide_eq_false_iff_not, not_le]

/-- The purge test of a named interval, in READY and EMPTY. -/
theorem purgeIntervalSet_purgeDue (h : (s.circuit c).state.serves = true) :
    ((s.purgeIntervalSet c).circuit c).purgeDue = (s.circuit c).purgeRetested s.now := by
  unfold State.purgeIntervalSet Circuit.purgeRetested
  dsimp only
  simp only [not_intervalOut]
  split
  · rename_i hd
    rw [clearPurgeDue_circuit, if_neg (by rw [hd.1]; nofun), hd.2, if_neg Bool.false_ne_true]
  · rename_i hd
    rw [purgeTest_circuit, purgeFalls_eq _ _ h]
    cases hp : (s.circuit c).purgeDue with
    | none => cases (s.circuit c).intervalOut s.now <;> simp [hp]
    | some p =>
      cases p with
      | interval =>
        have ho : (s.circuit c).intervalOut s.now = true := by
          rw [← Bool.not_eq_false]
          exact fun ho => hd ⟨hp, ho⟩
        simp [ho, hp]
      | forced => simp [hp]

/-- The calibration result that stays, of the one held (R62). -/
def CalResult.kept (w : CalResult) (c : Circ) (old new : Settings) : Prop :=
  ¬(w.circuit = c ∧ (old.k ≠ new.k ∨ old.density ≠ new.density ∨ (old.code ≠ none ∧ new.code = none)))

theorem calibrationChanged_calResult (s : State) (c : Circ) (old new : Settings) :
    (s.calResult = none → (s.calibrationChanged c old new).calResult = none)
      ∧ ∀ w, s.calResult = some w → (w.kept c old new → (s.calibrationChanged c old new).calResult = some w)
        ∧ (¬w.kept c old new → (s.calibrationChanged c old new).calResult = none) := by
  refine ⟨fun h => ?_, fun w h => ?_⟩
  · simp [State.calibrationChanged, h]
  · have e : (s.calibrationChanged c old new).calResult
        = if !(w.circuit == c && (old.k != new.k || old.density != new.density || (old.code.isSome && new.code.isNone))) then
            some w else none := by
      simp only [State.calibrationChanged, h, Option.filter_some]
    have hk : (!(w.circuit == c && (old.k != new.k || old.density != new.density || (old.code.isSome && new.code.isNone)))) = true
        ↔ w.kept c old new := by
      simp only [CalResult.kept, Bool.not_eq_true', Bool.eq_false_iff, ne_eq, Bool.and_eq_true, Bool.or_eq_true, beq_iff_eq,
        bne_iff_ne, Option.isSome_iff_ne_none, Option.isNone_iff_eq_none, or_assoc]
    rw [e]
    exact ⟨fun hw => if_pos (hk.mpr hw), fun hw => if_neg fun hb => hw (hk.mp hb)⟩

/-! ### All of them -/

theorem tuned_circuit (s : State) (c : Circ) (fs : Fields) (old : Settings) :
    (s.tuned c fs old).circuit c = (s.purgeTuned c fs old).circuit c := by
  unfold State.tuned
  dsimp only
  split <;> rfl

/-- The record of circuit c, but for its purge due, is that after the LOW evaluation and the EMPTY check. -/
theorem tuned_record (s : State) (c : Circ) (fs : Fields) (old : Settings) :
    (s.tuned c fs old).circuit c = { s.circuit c with
      state := ((s.evaluated c fs).circuit c).state
      lowArmed := ((s.evaluated c fs).circuit c).lowArmed
      purgeDue := ((s.tuned c fs old).circuit c).purgeDue } := by
  have hp (t : State) : t.purgeIntervalSet c = t.clearPurgeDue c ∨ t.purgeIntervalSet c = t.purgeTest c := by
    unfold State.purgeIntervalSet
    dsimp only
    split
    · exact .inl rfl
    · exact .inr rfl
  have h : ∃ d, (s.purgeTuned c fs old).circuit c = { (s.evaluated c fs).circuit c with purgeDue := d } := by
    unfold State.purgeTuned
    dsimp only
    split
    · rcases hp ((s.evaluated c fs).calibrationChanged c old ((s.evaluated c fs).circuit c).cfg) with e | e
      · rw [e, clearPurgeDue_circuit]
        exact ⟨_, rfl⟩
      · rw [e, purgeTest_circuit]
        split
        · exact ⟨_, rfl⟩
        · exact ⟨_, rfl⟩
    · exact ⟨_, rfl⟩
  obtain ⟨d, e⟩ := h
  rw [tuned_circuit, e, (tuned_evaluated s c fs).record]

theorem tuned_purgeDue {fs : Fields} {old : Settings} (hf : fs.has "reserve" = false) (h : (s.circuit c).state.serves = true) :
    ((s.tuned c fs old).circuit c).purgeDue
      = if fs.has "purgeint" then (s.circuit c).purgeRetested s.now else (s.circuit c).purgeDue := by
  have he := tuned_evaluated s c fs
  have hd := evaluated_purgeDue (s := s) (c := c) hf
  have hs : ((s.evaluated c fs).circuit c).state.serves = true := by
    rcases he.state with e | ⟨e, -⟩
    · rw [e]; exact h
    · exact e
  have hr : ((s.evaluated c fs).circuit c).purgeRetested (s.evaluated c fs).now = (s.circuit c).purgeRetested s.now := by
    rw [he.record, he.confined.now, hd]
    rfl
  rw [tuned_circuit]
  unfold State.purgeTuned
  dsimp only
  split
  · exact (purgeIntervalSet_purgeDue (s := (s.evaluated c fs).calibrationChanged c old _) hs).trans hr
  · exact hd

/-- The flags that the evaluations set stay set. -/
theorem evaluated_link (s : State) (c : Circ) (fs : Fields) (old : Settings) :
    (s.evaluated c fs).link.Grows (s.tuned c fs old).link := by
  have h := (tuned_calibrationChanged (s := s.evaluated c fs) (c := c) old ((s.evaluated c fs).circuit c).cfg).trans
    (.ite (p := fs.has "purgeint") fun _ => tuned_purgeIntervalSet)
  exact (h.trans (.ite fun _ => tuned_dropDue)).confined.link

theorem purgeTuned_calResult (s : State) (c : Circ) (fs : Fields) (old : Settings) :
    (s.purgeTuned c fs old).calResult = ((s.evaluated c fs).calibrationChanged c old (s.circuit c).cfg).calResult := by
  have e : ((s.evaluated c fs).circuit c).cfg = (s.circuit c).cfg := (tuned_evaluated s c fs).confined.cfg
  have h (t : State) : (t.purgeIntervalSet c).calResult = t.calResult := by
    unfold State.purgeIntervalSet
    dsimp only
    split
    · exact (Local.clearPurgeDue c t).calResult
    · exact (Local.purgeTest c t).calResult
  unfold State.purgeTuned
  dsimp only
  rw [e]
  split
  · exact h _
  · rfl

/-- A held calibration result after the change of its circuit's settings. -/
theorem tuned_calResult (s : State) (c : Circ) (fs : Fields) (old : Settings) :
    (s.calResult = none → (s.tuned c fs old).calResult = none)
      ∧ ∀ w, s.calResult = some w → (w.kept c old (s.circuit c).cfg → (s.tuned c fs old).calResult = some w)
        ∧ (¬w.kept c old (s.circuit c).cfg → (s.tuned c fs old).calResult = none) := by
  have h := calibrationChanged_calResult (s.evaluated c fs) c old (s.circuit c).cfg
  rw [evaluated_calResult, ← purgeTuned_calResult] at h
  have e : (s.tuned c fs old).calResult = (s.purgeTuned c fs old).calResult := by
    unfold State.tuned
    dsimp only
    split <;> rfl
  rw [e]
  exact h

/-- A circuit whose stir class becomes OFF leaves the due list. -/
theorem tuned_due {fs : Fields} {old : Settings} (ho : old.stir ≠ .off) (hn : (s.circuit c).cfg.stir = .off) :
    ∀ x ∈ (s.tuned c fs old).cares.due, x.1 ≠ c := by
  have e : ((s.purgeTuned c fs old).circuit c).cfg = (s.circuit c).cfg := (tuned_purgeTuned s c fs old).confined.cfg
  unfold State.tuned
  dsimp only
  rw [if_pos (by simp [e, ho, hn])]
  intro x hx
  simpa using (List.mem_filter.mp hx).2

end Sys2Proof.Machine
end

