-- ==== Sys2Proof/Proofs/CsetEffects.lean ====
section
/-! PROOF SUPPORT. The whole effect of an accepted CSET: the records it writes, the state its fields lead to, and the bay event
that it may take. -/

namespace Sys2Proof.Machine

set_option Elab.async false

variable {c : Circ} {s t u : State} {fs : Fields} {w : TwinChange}

/-! ### The records written -/

theorem twinAfter_setCircuit (s : State) (c : Circ) {f : Circuit → Circuit} (w : TwinChange) (d : Circ)
    (h : (f (s.circuit c)).cfg.twin = (s.circuit c).cfg.twin) : (s.setCircuit c f).twinAfter c w d = s.twinAfter c w d := by
  unfold State.twinAfter
  rw [setCircuit_circuit, h]
  by_cases hd : d = c
  · rw [if_pos hd, if_pos hd]
  · rw [if_neg hd, if_neg hd, setCircuit_circuit_ne _ _ hd]

theorem csetApplied_twin (r : Circuit) (fs : Fields) : (r.csetApplied fs).cfg.twin = r.cfg.twin := by
  rw [csetApplied_eq]
  rfl

/-- The records once the settings and the twins are written. -/
theorem csetWritten_circuit (s : State) (c : Circ) (fs : Fields) (w : TwinChange) (d : Circ) :
    (s.csetWritten c fs w).circuit d
      = (if d = c then (s.circuit c).csetApplied fs else s.circuit d).withTwin (s.twinAfter c w d) := by
  have e : (s.csetWritten c fs w).circuit d = ((s.setCircuit c fun r => r.csetApplied fs).changeTwins c w).circuit d := rfl
  rw [e, changeTwins_circuit, twinAfter_setCircuit _ _ _ _ (csetApplied_twin _ _), setCircuit_circuit_eq]

theorem csetWritten_self (s : State) (c : Circ) (fs : Fields) (w : TwinChange) :
    (s.csetWritten c fs w).circuit c = ((s.circuit c).csetApplied fs).withTwin (s.twinAfter c w c) := by
  rw [csetWritten_circuit, if_pos rfl]

theorem csetWritten_ne {d : Circ} (h : d ≠ c) :
    (s.csetWritten c fs w).circuit d = (s.circuit d).withTwin (s.twinAfter c w d) := by
  rw [csetWritten_circuit, if_neg h]

/-- What the settings, the twins and the link writes leave. -/
theorem csetWritten_frame (s : State) (c : Circ) (fs : Fields) (w : TwinChange) : s.csetWritten c fs w
    = { s with
        circuits := (s.csetWritten c fs w).circuits
        store := { s.store with fifo := s.store.fifo
          ++ (c :: w.partners (s.circuit c).cfg).map fun d => .circuit d ((s.csetWritten c fs w).circuit d).cfg } } := by
  have h (l : List StoreRecord) (x : State) (hx : x = { s with circuits := x.circuits }) :
      ({ x with store := { x.store with fifo := l } } : State)
        = { s with circuits := x.circuits, store := { s.store with fifo := l } } := by
    rw [hx]
  refine h _ ((s.setCircuit c fun r => r.csetApplied fs).changeTwins c w) ?_
  rw [changeTwins_frame]
  rfl

/-- The record with the request's settings in it, but for the twin. -/
theorem csetWritten_keeps (s : State) (c : Circ) (fs : Fields) (w : TwinChange) :
    (s.csetWritten c fs w).circuit c = { s.circuit c with
      cfg := ((s.csetWritten c fs w).circuit c).cfg
      nmin := ((s.csetWritten c fs w).circuit c).nmin
      pendingNmin := ((s.csetWritten c fs w).circuit c).pendingNmin } := by
  rw [csetWritten_self, csetApplied_eq]
  rfl

/-- The settings that an accepted CSET leaves (R1, R2). -/
theorem csetWritten_cfg (s : State) (c : Circ) (fs : Fields) (w : TwinChange) :
    ((s.csetWritten c fs w).circuit c).cfg = { (s.circuit c).cfg.overlay fs with
      nmin := (fs.num "nmin").getD (s.circuit c).cfg.nmin
      twin := s.twinAfter c w c } := by
  rw [csetWritten_self, csetApplied_eq]
  rfl

/-- The minimum dose that an accepted CSET stages (R21). -/
theorem csetWritten_nmin (s : State) (c : Circ) (fs : Fields) (w : TwinChange) :
    (fs.num "nmin" = none → ((s.csetWritten c fs w).circuit c).nmin = (s.circuit c).nmin
        ∧ ((s.csetWritten c fs w).circuit c).pendingNmin = (s.circuit c).pendingNmin)
      ∧ ∀ n, fs.num "nmin" = some n →
        ((s.circuit c).openBatch = 0 → ((s.csetWritten c fs w).circuit c).nmin = n
          ∧ ((s.csetWritten c fs w).circuit c).pendingNmin = none)
        ∧ ((s.circuit c).openBatch ≠ 0 → ((s.csetWritten c fs w).circuit c).nmin = (s.circuit c).nmin
          ∧ ((s.csetWritten c fs w).circuit c).pendingNmin = some n) := by
  rw [csetWritten_self, csetApplied_eq]
  refine ⟨fun hn => ?_, fun n hn => ⟨fun ho => ?_, fun ho => ?_⟩⟩ <;> simp [Circuit.withTwin, *]

/-! ### The level and the code settled -/

/-- The state of a CSET once its level and its code are settled. -/
def State.csetMoved (s : State) (c : Circ) (fs : Fields) (w : TwinChange) : State :=
  ((s.csetWritten c fs w).clampLevel c).codeMoves c

theorem confined_csetMoved (s : State) (c : Circ) (fs : Fields) (w : TwinChange) :
    Confined c (s.csetWritten c fs w) (s.csetMoved c fs w) := confined_clampLevel.trans confined_codeMoves

/-- The record in which the code is looked at. -/
theorem csetClamped_circuit (s : State) (c : Circ) (fs : Fields) (w : TwinChange) :
    ((s.csetWritten c fs w).clampLevel c).circuit c = ((s.csetWritten c fs w).circuit c).clamped := clampLevel_circuit _ c

theorem csetClamped_state (s : State) (c : Circ) (fs : Fields) (w : TwinChange) :
    (((s.csetWritten c fs w).clampLevel c).circuit c).state = (s.circuit c).state
      ∧ (((s.csetWritten c fs w).clampLevel c).circuit c).cfg.code = s.codeAfter c fs := by
  rw [csetClamped_circuit]
  refine ⟨?_, ?_⟩
  · show ((s.csetWritten c fs w).circuit c).state = _
    rw [csetWritten_keeps]
  · show ((s.csetWritten c fs w).circuit c).cfg.code = _
    rw [csetWritten_cfg]
    rfl

theorem csetClamped_keeps (s : State) (c : Circ) (fs : Fields) (w : TwinChange) :
    ((s.csetWritten c fs w).clampLevel c).tag = s.tag ∧ ((s.csetWritten c fs w).clampLevel c).drive = s.drive
      ∧ ((s.csetWritten c fs w).clampLevel c).bayClosed c = s.bayClosed c := by
  obtain ⟨htag, hdrive, hinp, -⟩ := clampLevel_keeps (s.csetWritten c fs w) c
  rw [htag, hdrive, State.bayClosed, hinp, csetWritten_frame]
  exact ⟨rfl, rfl, rfl⟩

/-- The circuit is UNFITTED afterwards where it has no code, and only there (R3). -/
theorem csetMoved_state : ((s.csetMoved c fs w).circuit c).state = .unfitted ↔ s.codeAfter c fs = none := by
  rw [← (csetClamped_state s c fs w).2]
  exact codeMoves_state

theorem csetMoved_lowArmed : ((s.csetMoved c fs w).circuit c).lowArmed = (s.circuit c).lowArmed := by
  unfold State.csetMoved
  rw [codeMoves_lowArmed, csetClamped_circuit]
  show ((s.csetWritten c fs w).circuit c).lowArmed = _
  rw [csetWritten_keeps]

/-- A code comes to an UNFITTED circuit: SERVICE, the latch open, the baseline OPEN, the level 0. -/
theorem csetMoved_given (h : (s.circuit c).state = .unfitted) (hc : s.codeAfter c fs ≠ none) :
    (s.csetMoved c fs w).circuit c = { ((s.csetWritten c fs w).circuit c).clamped with
        state := .service, latchOpen := true, baseline := false, level := 0 }
      ∧ (s.csetMoved c fs w).tag = s.tag ∧ (s.csetMoved c fs w).store.dirty[c] = true := by
  obtain ⟨hstate, hcode⟩ := csetClamped_state s c fs w
  obtain ⟨htag, -⟩ := csetClamped_keeps s c fs w
  obtain ⟨e1, e2, e3⟩ := moved_outside .service (by rw [hstate, h]; rfl) rfl fun r =>
    { r with latchOpen := true, baseline := false, level := 0 }
  rw [State.csetMoved, codeMoves_given (hstate.trans h) (hcode ▸ hc), e1, e2, htag, csetClamped_circuit]
  exact ⟨rfl, rfl, e3⟩

/-- The code leaves a circuit in SERVICE: UNFITTED, locked, and cleared. -/
theorem csetMoved_removed (h : (s.circuit c).state = .service) (hc : s.codeAfter c fs = none) :
    (s.csetMoved c fs w).circuit c = { ((s.csetWritten c fs w).circuit c).clamped with
        state := .unfitted, latchOpen := false, baseline := s.bayClosed c, level := 0, lot := none, reason := none }
      ∧ (s.csetMoved c fs w).tag = s.tag ∧ (s.csetMoved c fs w).store.dirty[c] = true := by
  obtain ⟨hstate, hcode⟩ := csetClamped_state s c fs w
  obtain ⟨htag, -, hbay⟩ := csetClamped_keeps s c fs w
  obtain ⟨e1, e2, e3⟩ := moved_outside .unfitted (by rw [hstate, h]; rfl) rfl fun r =>
    { r with latchOpen := false, baseline := ((s.csetWritten c fs w).clampLevel c).bayClosed c, level := 0, lot := none, reason := none }
  rw [State.csetMoved, codeMoves_removed (by rw [hstate, h]; nofun) (hcode.trans hc), e1, e2, htag, csetClamped_circuit, hbay]
  exact ⟨rfl, rfl, e3⟩

/-- Elsewhere the level alone is cut to the capacity. -/
theorem csetMoved_rests (h : (s.circuit c).state ≠ .unfitted) (hc : s.codeAfter c fs ≠ none) :
    (s.csetMoved c fs w).circuit c = ((s.csetWritten c fs w).circuit c).clamped
      ∧ (s.csetMoved c fs w).tag = s.tag ∧ (s.csetMoved c fs w).drive = s.drive := by
  obtain ⟨hstate, hcode⟩ := csetClamped_state s c fs w
  obtain ⟨htag, hdrive, -⟩ := csetClamped_keeps s c fs w
  rw [State.csetMoved, codeMoves_rests (by rw [hstate, hcode]; exact iff_of_false h hc), csetClamped_circuit, htag, hdrive]
  exact ⟨rfl, rfl, rfl⟩

/-! ### Bay events within a CSET -/

theorem bayEvent_unfitted (h : (s.circuit c).state = .unfitted) : s.bayEvent c = s.baselined c := by
  simp only [State.bayEvent, h]
  rfl

theorem confined_baselined : Confined c s (s.baselined c) := confined_setCircuit rfl

/-- A request to the Tag Bus. -/
theorem confined_askTag (k : JobKind) : Confined c s (s.askTag c k) := by
  refine ⟨fun _ _ => rfl, rfl, rfl, .refl _, rfl, rfl, fun p hp => ?_⟩
  cases p <;> simp [Part.same, csetParts, State.askTag] at hp ⊢

/-- The five bay events, and what each makes of the state. -/
theorem bayEvent_cases (s : State) (c : Circ) :
    ((s.circuit c).state = .unfitted ∨ (s.circuit c).state ≠ .service ∧ s.bayClosed c = true) ∧ s.bayEvent c = s.baselined c
      ∨ (s.circuit c).state = .service ∧ s.bayClosed c = false
        ∧ s.bayEvent c = s.setCircuit c (fun r => { r with baseline := false, lot := none })
      ∨ (s.circuit c).state = .service ∧ s.bayClosed c = true ∧ s.bayEvent c = (s.setCircuit c fun r =>
          { r with baseline := true, state := .checking, latchOpen := false, checkKind := .insertion }).askTag c .read
      ∨ (s.circuit c).state ≠ .unfitted ∧ (s.circuit c).state ≠ .service ∧ s.bayClosed c = false
        ∧ s.bayEvent c = (s.baselined c).forcedRemoval c := by
  by_cases hu : (s.circuit c).state = .unfitted
  · exact .inl ⟨.inl hu, bayEvent_unfitted hu⟩
  · by_cases hs : (s.circuit c).state = .service <;> cases hb : s.bayClosed c
    · exact .inr (.inl ⟨hs, rfl, bayEvent_empties hs hb⟩)
    · exact .inr (.inr (.inl ⟨hs, rfl, bayEvent_inserts hs hb⟩))
    · exact .inr (.inr (.inr ⟨hu, hs, rfl, bayEvent_removes hu hs hb⟩))
    · exact .inl ⟨.inr ⟨hs, rfl⟩, bayEvent_moves hu hs hb⟩

theorem confined_bayEvent (s : State) (c : Circ) : Confined c s (s.bayEvent c) := by
  rcases bayEvent_cases s c with ⟨-, e⟩ | ⟨-, -, e⟩ | ⟨-, -, e⟩ | ⟨-, -, -, e⟩ <;> rw [e]
  · exact confined_baselined
  · exact confined_setCircuit rfl
  · exact (confined_setCircuit rfl).trans (confined_askTag .read)
  · exact confined_baselined.trans (forcedRemoval_local _ c).confined

theorem bayEvent_calResult (s : State) (c : Circ) : (s.bayEvent c).calResult = s.calResult := by
  rcases bayEvent_cases s c with ⟨-, e⟩ | ⟨-, -, e⟩ | ⟨-, -, e⟩ | ⟨-, -, -, e⟩ <;> rw [e]
  · rfl
  · rfl
  · rfl
  · exact (forcedRemoval_local _ c).calResult

/-- A bay event adds nothing to the due list. -/
theorem bayEvent_due (s : State) (c : Circ) : ∀ x ∈ (s.bayEvent c).cares.due, x ∈ s.cares.due := by
  rcases bayEvent_cases s c with ⟨-, e⟩ | ⟨-, -, e⟩ | ⟨-, -, e⟩ | ⟨-, -, -, e⟩ <;> rw [e]
  · exact fun _ => id
  · exact fun _ => id
  · exact fun _ => id
  · rw [forcedRemoval_cares]
    exact fun x hx => (List.mem_filter.mp hx).1

/-- A run of the pump of circuit c is cut at once, and had delivered steps. -/
def State.CutsRun (s : State) (c : Circ) (a : Activity) : Prop :=
  (s.pump c).activity = some a ∧ (s.pump c).burst = none ∧ a.kind ≠ .refill ∧ a.delivered ≠ 0

theorem forcedRemoval_reading_kept (h : ∀ a, ¬s.CutsRun c a) :
    ((s.forcedRemoval c).circuit c).reading = (s.circuit c).reading := by
  by_cases hb : (s.pump c).burst = none
  · cases ha : (s.pump c).activity with
    | none => exact (forcedRemoval_no_run (.inl ha)).1
    | some a =>
      refine ((forcedRemoval_reading ha hb).1 ?_).1
      by_contra hk
      rw [not_or] at hk
      exact h a ⟨ha, hb, hk⟩
  · exact (forcedRemoval_no_run (.inr hb)).1

/-- A bay event that ends no run leaves the level, the last-delivery time and the LOW condition. -/
theorem bayEvent_reading_kept
    (h : (s.circuit c).state ≠ .unfitted → (s.circuit c).state ≠ .service → s.bayClosed c = false → ∀ a, ¬s.CutsRun c a) :
    ((s.bayEvent c).circuit c).reading = (s.circuit c).reading := by
  rcases bayEvent_cases s c with ⟨-, e⟩ | ⟨-, -, e⟩ | ⟨-, -, e⟩ | ⟨hu, hs, hb, e⟩ <;> rw [e]
  · rw [baselined_circuit]
    rfl
  · rw [setCircuit_circuit]
    rfl
  · show ((s.setCircuit c _).circuit c).reading = _
    rw [setCircuit_circuit]
    rfl
  · have hc : ((s.baselined c).circuit c).reading = (s.circuit c).reading := by
      rw [baselined_circuit]
      rfl
    exact (forcedRemoval_reading_kept (s := s.baselined c) (h hu hs hb)).trans hc

/-! ### The whole effect -/

/-- The state of a CSET before the bay event it may take. -/
def State.csetTuned (s : State) (c : Circ) (fs : Fields) (w : TwinChange) : State :=
  (s.csetMoved c fs w).tuned c fs (s.circuit c).cfg

/-- The bay watch has come over a switch that differs from the baseline (R4). -/
def State.TakesBay (s : State) (c : Circ) (fs : Fields) (w : TwinChange) : Prop :=
  let u := s.csetTuned c fs w
  (u.circuit c).state ≠ .unfitted ∧ (u.circuit c).cfg.watch = true
    ∧ ((s.circuit c).state = .unfitted ∨ (s.circuit c).cfg.watch = false) ∧ u.bayClosed c ≠ (u.circuit c).baseline

theorem csetEffect_stages (s : State) (c : Circ) (fs : Fields) (w : TwinChange) : s.csetEffect c fs w
    = if ((s.csetTuned c fs w).circuit c).state ≠ .unfitted ∧ ((s.csetTuned c fs w).circuit c).cfg.watch
        ∧ ((s.circuit c).state = .unfitted ∨ ¬(s.circuit c).cfg.watch) then (s.csetTuned c fs w).bayCompare c
      else s.csetTuned c fs w := by
  unfold State.csetEffect
  dsimp only
  rw [csetWritten_eq]
  rfl

theorem csetEffect_of_taken (h : s.TakesBay c fs w) : s.csetEffect c fs w = (s.csetTuned c fs w).bayEvent c := by
  obtain ⟨hs, hw, ho, hb⟩ := h
  rw [csetEffect_stages, if_pos ⟨hs, hw, ho.imp_right fun e => by rw [e]; exact Bool.false_ne_true⟩]
  exact if_neg hb

theorem csetEffect_of_not_taken (h : ¬s.TakesBay c fs w) : s.csetEffect c fs w = s.csetTuned c fs w := by
  rw [csetEffect_stages]
  split
  · rename_i hw
    obtain ⟨hs, hw, ho⟩ := hw
    exact if_pos (by_contra fun hb => h ⟨hs, hw, ho.imp_right Bool.eq_false_of_not_eq_true, hb⟩)
  · rfl

theorem csetEffect_cases (s : State) (c : Circ) (fs : Fields) (w : TwinChange) :
    s.csetEffect c fs w = (s.csetTuned c fs w).bayEvent c ∨ s.csetEffect c fs w = s.csetTuned c fs w := by
  by_cases h : s.TakesBay c fs w
  · exact .inl (csetEffect_of_taken h)
  · exact .inr (csetEffect_of_not_taken h)

theorem tuned_csetTuned (s : State) (c : Circ) (fs : Fields) (w : TwinChange) :
    Tuned c (s.csetMoved c fs w) (s.csetTuned c fs w) := tuned_tuned _ c fs _

/-- The bay event of a CSET leaves what the stages before it leave. -/
theorem confined_csetEffect_tuned (s : State) (c : Circ) (fs : Fields) (w : TwinChange) :
    Confined c (s.csetTuned c fs w) (s.csetEffect c fs w) := by
  rcases csetEffect_cases s c fs w with e | e <;> rw [e]
  · exact confined_bayEvent _ c
  · exact .refl c _

theorem confined_csetEffect (s : State) (c : Circ) (fs : Fields) (w : TwinChange) :
    Confined c (s.csetWritten c fs w) (s.csetEffect c fs w) :=
  (confined_csetMoved s c fs w).trans ((tuned_csetTuned s c fs w).confined.trans (confined_csetEffect_tuned s c fs w))

/-! ### Whether a bay event is taken -/

theorem csetTuned_state : ((s.csetTuned c fs w).circuit c).state = .unfitted ↔ s.codeAfter c fs = none := by
  rw [← csetMoved_state (w := w)]
  rcases (tuned_csetTuned s c fs w).state with e | ⟨e, e'⟩
  · rw [e]
  · refine iff_of_false (fun h => ?_) fun h => ?_
    · rw [h] at e; cases e
    · rw [h] at e'; cases e'

theorem csetTuned_cfg : ((s.csetTuned c fs w).circuit c).cfg = ((s.csetWritten c fs w).circuit c).cfg :=
  ((confined_csetMoved s c fs w).trans (tuned_csetTuned s c fs w).confined).cfg

theorem csetTuned_bayClosed : (s.csetTuned c fs w).bayClosed c = s.bayClosed c := by
  rw [((confined_csetMoved s c fs w).trans (tuned_csetTuned s c fs w).confined).bayClosed, State.bayClosed, csetWritten_frame]
  rfl

/-- The bay watch of circuit c after the request. -/
def State.watchAfter (s : State) (c : Circ) (fs : Fields) : Bool := named fs "watch" (named? onOffTable) (s.circuit c).cfg.watch

theorem takesBay_iff : s.TakesBay c fs w ↔ s.codeAfter c fs ≠ none ∧ s.watchAfter c fs = true
    ∧ ((s.circuit c).state = .unfitted ∨ (s.circuit c).cfg.watch = false)
    ∧ s.bayClosed c ≠ ((s.csetMoved c fs w).circuit c).baseline := by
  have hbase : ((s.csetTuned c fs w).circuit c).baseline = ((s.csetMoved c fs w).circuit c).baseline := by
    rw [(tuned_csetTuned s c fs w).record]
  unfold State.TakesBay
  dsimp only
  rw [ne_eq, csetTuned_state, csetTuned_bayClosed, hbase, csetTuned_cfg, csetWritten_cfg]
  rfl

theorem takesBay_given (h : (s.circuit c).state = .unfitted) (hc : s.codeAfter c fs ≠ none) :
    s.TakesBay c fs w ↔ s.watchAfter c fs = true ∧ s.bayClosed c = true := by
  rw [takesBay_iff, (csetMoved_given h hc).1]
  simp [h, hc]

theorem takesBay_rests (h : (s.circuit c).state ≠ .unfitted) : s.TakesBay c fs w ↔ s.codeAfter c fs ≠ none
    ∧ (s.circuit c).cfg.watch = false ∧ s.watchAfter c fs = true ∧ s.bayClosed c ≠ (s.circuit c).baseline := by
  rw [takesBay_iff]
  by_cases hc : s.codeAfter c fs = none
  · simp [hc]
  · have hb : ((s.csetMoved c fs w).circuit c).baseline = (s.circuit c).baseline := by
      rw [(csetMoved_rests h hc).1]
      show ((s.csetWritten c fs w).circuit c).baseline = _
      rw [csetWritten_keeps]
    rw [hb]
    tauto

end Sys2Proof.Machine
end

