-- ==== Sys2Proof/Proofs/CsetOutcomes.lean ====
section
/-! PROOF SUPPORT. What an accepted CSET makes of circuit c: a code given, a code removed, and neither; LOW, EMPTY, the purge due
and the run that a removal cuts. -/

namespace Sys2Proof.Machine

set_option Elab.async false

variable {c : Circ} {s t u : State} {fs : Fields} {w : TwinChange}

theorem Tuned.state_eq (h : Tuned c s t) (hs : (s.circuit c).state.serves = false) :
    (t.circuit c).state = (s.circuit c).state := by
  rcases h.state with e | ⟨-, e⟩
  · exact e
  · rw [hs] at e; cases e

theorem csetEffect_link (s : State) (c : Circ) (fs : Fields) (w : TwinChange) :
    ((s.csetMoved c fs w).evaluated c fs).link.Grows (s.csetEffect c fs w).link :=
  (evaluated_link (s.csetMoved c fs w) c fs (s.circuit c).cfg).trans (confined_csetEffect_tuned s c fs w).link

/-! ### A code given, and a code removed (R3) -/

/-- A code for an UNFITTED circuit; a watched bay that is closed is an insertion then. -/
theorem csetEffect_given (h : (s.circuit c).state = .unfitted) (hc : s.codeAfter c fs ≠ none) :
    ((s.csetEffect c fs w).circuit c).level = 0 ∧ (s.csetEffect c fs w).store.dirty[c] = true
      ∧ (¬(s.watchAfter c fs = true ∧ s.bayClosed c = true) →
        ((s.csetEffect c fs w).circuit c).state = .service ∧ ((s.csetEffect c fs w).circuit c).latchOpen = true
          ∧ ((s.csetEffect c fs w).circuit c).baseline = false ∧ (s.csetEffect c fs w).tag = s.tag)
      ∧ (s.watchAfter c fs = true → s.bayClosed c = true →
        ((s.csetEffect c fs w).circuit c).state = .checking ∧ ((s.csetEffect c fs w).circuit c).latchOpen = false
          ∧ ((s.csetEffect c fs w).circuit c).baseline = true ∧ ((s.csetEffect c fs w).circuit c).checkKind = .insertion
          ∧ (s.csetEffect c fs w).tag = s.tag.ask ⟨c, .read⟩) := by
  obtain ⟨hrec, htag, hdirty⟩ := csetMoved_given (w := w) h hc
  have ht := tuned_csetTuned s c fs w
  have hstate : ((s.csetTuned c fs w).circuit c).state = .service := by
    rw [ht.state_eq (by rw [hrec]; rfl), hrec]
  have hcirc := ht.record
  rw [hrec] at hcirc
  by_cases htaken : s.watchAfter c fs = true ∧ s.bayClosed c = true
  · rw [csetEffect_of_taken ((takesBay_given h hc).mpr htaken),
      bayEvent_inserts hstate (csetTuned_bayClosed.trans htaken.2)]
    have e : ∀ (v : State) (f : Circuit → Circuit), ((v.setCircuit c f).askTag c .read).circuit c = f (v.circuit c) :=
      fun v f => setCircuit_circuit v c f
    rw [e]
    refine ⟨by rw [hcirc], ?_, fun h => (h htaken).elim, fun _ _ => ⟨rfl, rfl, rfl, rfl, ?_⟩⟩
    · show (s.csetTuned c fs w).store.dirty[c] = true
      rw [ht.store, hdirty]
    · show (s.csetTuned c fs w).tag.ask _ = _
      rw [ht.tag, htag]
  · rw [csetEffect_of_not_taken fun hb => htaken ((takesBay_given h hc).mp hb)]
    refine ⟨by rw [hcirc], by rw [ht.store, hdirty], fun _ => ⟨hstate, by rw [hcirc], by rw [hcirc], ht.tag.trans htag⟩,
      fun h1 h2 => (htaken ⟨h1, h2⟩).elim⟩

/-- The code leaves a circuit in SERVICE. -/
theorem csetEffect_removed (h : (s.circuit c).state = .service) (hc : s.codeAfter c fs = none) :
    ((s.csetEffect c fs w).circuit c).state = .unfitted ∧ ((s.csetEffect c fs w).circuit c).latchOpen = false
      ∧ ((s.csetEffect c fs w).circuit c).level = 0 ∧ (s.csetEffect c fs w).store.dirty[c] = true
      ∧ ((s.csetEffect c fs w).circuit c).lot = none ∧ ((s.csetEffect c fs w).circuit c).reason = none
      ∧ (s.csetEffect c fs w).tag = s.tag := by
  obtain ⟨hrec, htag, hdirty⟩ := csetMoved_removed (w := w) h hc
  have ht := tuned_csetTuned s c fs w
  have hcirc := ht.record
  rw [hrec] at hcirc
  rw [csetEffect_of_not_taken fun hb => (takesBay_iff.mp hb).1 hc]
  refine ⟨csetTuned_state.mpr hc, ?_, ?_, by rw [ht.store, hdirty], ?_, ?_, ht.tag.trans htag⟩ <;> rw [hcirc]

/-! ### Neither -/

/-- The level cut to the capacity that the request leaves. -/
def Circuit.levelAfter (r : Circuit) (fs : Fields) : Nat := min r.level (fs.numD "capacity" r.cfg.capacity * 1000)

/-- The state after the EMPTY check of a named reserve (R16). -/
def Circuit.settledAfter (r : Circuit) (fs : Fields) : CircuitState :=
  if fs.num "reserve" = none then r.state
  else if r.state = .empty ∧ fs.numD "reserve" r.cfg.reserve < r.levelAfter fs then .ready
  else if r.state = .ready ∧ r.levelAfter fs ≤ fs.numD "reserve" r.cfg.reserve then .empty
  else r.state

theorem csetMoved_level (h : (s.circuit c).state ≠ .unfitted) (hc : s.codeAfter c fs ≠ none) :
    ((s.csetMoved c fs w).circuit c).level = (s.circuit c).levelAfter fs := by
  rw [(csetMoved_rests h hc).1]
  unfold Circuit.clamped
  dsimp only
  rw [csetWritten_cfg, csetWritten_keeps]
  rfl

theorem csetMoved_cfg : ((s.csetMoved c fs w).circuit c).cfg = ((s.csetWritten c fs w).circuit c).cfg :=
  (confined_csetMoved s c fs w).cfg

/-- What the circuit record keeps where its code neither comes nor goes. -/
theorem csetMoved_keeps (h : (s.circuit c).state ≠ .unfitted) (hc : s.codeAfter c fs ≠ none) :
    (s.csetMoved c fs w).circuit c = { s.circuit c with
      cfg := ((s.csetMoved c fs w).circuit c).cfg
      nmin := ((s.csetMoved c fs w).circuit c).nmin
      pendingNmin := ((s.csetMoved c fs w).circuit c).pendingNmin
      level := ((s.csetMoved c fs w).circuit c).level } := by
  rw [(csetMoved_rests h hc).1]
  unfold Circuit.clamped
  rw [csetWritten_keeps]

theorem csetTuned_keeps (h : (s.circuit c).state ≠ .unfitted) (hc : s.codeAfter c fs ≠ none) :
    ((s.csetTuned c fs w).circuit c).lot = (s.circuit c).lot ∧ ((s.csetTuned c fs w).circuit c).reason = (s.circuit c).reason
      ∧ ((s.csetTuned c fs w).circuit c).latchOpen = (s.circuit c).latchOpen
      ∧ ((s.csetTuned c fs w).circuit c).baseline = (s.circuit c).baseline ∧ (s.csetTuned c fs w).tag = s.tag
      ∧ (s.csetTuned c fs w).drive = s.drive := by
  obtain ⟨-, htag, hdrive⟩ := csetMoved_rests (w := w) h hc
  have ht := tuned_csetTuned s c fs w
  rw [ht.tag, htag, ht.drive, hdrive, ht.record, csetMoved_keeps h hc]
  exact ⟨rfl, rfl, rfl, rfl, rfl, rfl⟩

theorem csetTuned_level (h : (s.circuit c).state ≠ .unfitted) (hc : s.codeAfter c fs ≠ none) :
    ((s.csetTuned c fs w).circuit c).level = (s.circuit c).levelAfter fs := by
  rw [(tuned_csetTuned s c fs w).level, csetMoved_level h hc]

theorem csetMoved_reserve : ((s.csetMoved c fs w).circuit c).cfg.reserve = fs.numD "reserve" (s.circuit c).cfg.reserve := by
  rw [csetMoved_cfg, csetWritten_cfg]
  rfl

theorem csetTuned_settled (hf : fs.has "reserve" = (fs.num "reserve").isSome) (h : (s.circuit c).state ≠ .unfitted)
    (hc : s.codeAfter c fs ≠ none) : ((s.csetTuned c fs w).circuit c).state = (s.circuit c).settledAfter fs := by
  have hstate : ((s.csetMoved c fs w).circuit c).state = (s.circuit c).state := by rw [csetMoved_keeps h hc]
  rw [State.csetTuned, tuned_record]
  dsimp only
  rw [evaluated_state, hstate, csetMoved_level h hc, csetMoved_reserve, hf, Circuit.settledAfter]
  cases fs.num "reserve" <;> rfl

/-- EMPTY is set where a named reserve finds the READY circuit at or below it. -/
theorem csetEffect_empty (hf : fs.has "reserve" = true) (hr : (s.circuit c).state = .ready) (hc : s.codeAfter c fs ≠ none)
    (hl : (s.circuit c).levelAfter fs ≤ fs.numD "reserve" (s.circuit c).cfg.reserve) :
    (s.csetEffect c fs w).link.isSet (.empty c) = true := by
  have h : (s.circuit c).state ≠ .unfitted := by rw [hr]; nofun
  have hstate : ((s.csetMoved c fs w).circuit c).state = (s.circuit c).state := by rw [csetMoved_keeps h hc]
  refine (csetEffect_link s c fs w).flags _ (evaluated_empty hf (hstate.trans hr) ?_)
  rw [csetMoved_level h hc, csetMoved_reserve]
  exact hl

/-- The purge due after a named purge interval (R212). -/
theorem csetTuned_purgeDue (hf : fs.has "reserve" = false) (h : (s.circuit c).state.serves = true)
    (hc : s.codeAfter c fs ≠ none) : ((s.csetTuned c fs w).circuit c).purgeDue
      = if fs.has "purgeint" then
          if (s.circuit c).purgeDue = some .forced then some .forced
          else if fs.numD "purgeint" (s.circuit c).cfg.purgeInt ≠ 0
            ∧ (s.circuit c).lastDelivery + fs.numD "purgeint" (s.circuit c).cfg.purgeInt * 60000000 ≤ s.now then some .interval
          else none
        else (s.circuit c).purgeDue := by
  have hu : (s.circuit c).state ≠ .unfitted := fun e => by rw [e] at h; cases h
  have hk := csetMoved_keeps (w := w) hu hc
  have hnow : (s.csetMoved c fs w).now = s.now := by
    rw [(confined_csetMoved s c fs w).now, csetWritten_frame]
  have hint : ((s.csetMoved c fs w).circuit c).cfg.purgeInt = fs.numD "purgeint" (s.circuit c).cfg.purgeInt := by
    rw [csetMoved_cfg, csetWritten_cfg]
    rfl
  rw [State.csetTuned, tuned_purgeDue hf (by rw [hk]; exact h), hnow]
  unfold Circuit.purgeRetested Circuit.intervalOut Circuit.purgeMoment
  rw [hint, hk]
  simp only [Bool.and_eq_true, bne_iff_ne, decide_eq_true_eq]
  rfl

/-! ### The run that a removal cuts at once (R8, R15, R17) -/

/-- The bay event of the CSET is a removal that cuts a run of c at once, in which steps were delivered. -/
def State.CutsAt (s : State) (c : Circ) (fs : Fields) (w : TwinChange) (a : Activity) : Prop :=
  s.TakesBay c fs w ∧ (s.circuit c).state ≠ .unfitted ∧ (s.circuit c).state ≠ .service ∧ s.bayClosed c = false ∧ s.CutsRun c a

theorem csetTuned_service (h : (s.circuit c).state ≠ .unfitted) (hc : s.codeAfter c fs ≠ none) :
    ((s.csetTuned c fs w).circuit c).state = .service ↔ (s.circuit c).state = .service := by
  have hstate : ((s.csetMoved c fs w).circuit c).state = (s.circuit c).state := by rw [csetMoved_keeps h hc]
  rcases (tuned_csetTuned s c fs w).state with e | ⟨e, e'⟩
  · rw [e, hstate]
  · rw [hstate] at e'
    refine iff_of_false (fun h => ?_) fun h => ?_
    · rw [h] at e; cases e
    · rw [h] at e'; cases e'

/-- A forced removal is the bay event of the CSET where the switch is open and the circuit in use. -/
theorem csetEffect_of_removal (ht : s.TakesBay c fs w) (h : (s.circuit c).state ≠ .unfitted)
    (hs : (s.circuit c).state ≠ .service) (hb : s.bayClosed c = false) :
    s.csetEffect c fs w = ((s.csetTuned c fs w).baselined c).forcedRemoval c := by
  have hc := (takesBay_iff.mp ht).1
  rw [csetEffect_of_taken ht]
  exact bayEvent_removes ht.1 (fun e => hs ((csetTuned_service h hc).mp e)) (csetTuned_bayClosed.trans hb)

theorem csetTuned_pump (h : (s.circuit c).state ≠ .unfitted) (hc : s.codeAfter c fs ≠ none) :
    (s.csetTuned c fs w).pump c = s.pump c := pump_congr (csetTuned_keeps h hc).2.2.2.2.2 c

theorem csetEffect_reading_kept (h : ∀ a, ¬s.CutsAt c fs w a) :
    ((s.csetEffect c fs w).circuit c).reading = ((s.csetTuned c fs w).circuit c).reading := by
  by_cases ht : s.TakesBay c fs w
  · have hc := (takesBay_iff.mp ht).1
    rw [csetEffect_of_taken ht]
    refine bayEvent_reading_kept fun _ hs hb a ha => ?_
    have hu : (s.circuit c).state ≠ .unfitted := by
      intro hu
      obtain ⟨hrec, -⟩ := csetMoved_given (w := w) hu hc
      exact hs (by rw [(tuned_csetTuned s c fs w).state_eq (by rw [hrec]; rfl), hrec])
    rw [State.CutsRun, csetTuned_pump hu hc] at ha
    exact h a ⟨ht, hu, fun e => hs ((csetTuned_service hu hc).mpr e), csetTuned_bayClosed.symm.trans hb, ha⟩
  · rw [csetEffect_of_not_taken ht]

theorem csetEffect_reading_cut {a : Activity} (h : s.CutsAt c fs w a) :
    ((s.csetEffect c fs w).circuit c).level
        = (s.circuit c).levelAfter fs - roundHalfUp (a.delivered * 1024000) (fs.numD "k" (s.circuit c).cfg.k
          * if a.owner = .cal then 1024 else (1024 + (s.circuit c).trim).toNat)
      ∧ ((s.csetEffect c fs w).circuit c).lowArmed = decide (((s.csetTuned c fs w).circuit c).cfg.low
          ≤ ((s.csetEffect c fs w).circuit c).level)
      ∧ (((s.csetEffect c fs w).circuit c).level < ((s.csetTuned c fs w).circuit c).cfg.low →
        ((s.csetTuned c fs w).circuit c).lowArmed = true → (s.csetEffect c fs w).link.isSet (.low c) = true) := by
  obtain ⟨ht, hu, hs, hb, ha, hburst, hk, hd⟩ := h
  have hc := (takesBay_iff.mp ht).1
  have hlevel := csetTuned_level (w := w) hu hc
  have hktrim : ((s.csetTuned c fs w).circuit c).cfg.k = fs.numD "k" (s.circuit c).cfg.k
      ∧ ((s.csetTuned c fs w).circuit c).trim = (s.circuit c).trim := by
    rw [csetTuned_cfg, csetWritten_cfg, (tuned_csetTuned s c fs w).record, csetMoved_keeps hu hc]
    exact ⟨rfl, rfl⟩
  have hpump := csetTuned_pump (w := w) hu hc
  rw [csetEffect_of_removal ht hu hs hb]
  have hcirc := baselined_circuit (s.csetTuned c fs w) c
  have hv := volume_eq a (((s.csetTuned c fs w).baselined c).circuit c) hd
  obtain ⟨h1, -, h3, -⟩ := (forcedRemoval_reading (s := (s.csetTuned c fs w).baselined c) (hpump.symm ▸ ha) (hpump.symm ▸ hburst)).2
    hk hd _ hv.symm
  rw [hcirc] at h1 h3
  dsimp only at h1 h3
  rw [hlevel, hktrim.1, hktrim.2] at h1 h3
  simp only [Circuit.reading, Prod.mk.injEq] at h1
  obtain ⟨e1, -, e3⟩ := h1
  rw [e1]
  exact ⟨rfl, e3, h3⟩

/-! ### LOW (R17) -/

theorem csetTuned_lowArmed : ((s.csetTuned c fs w).circuit c).lowArmed
    = if fs.has "low" then decide (((s.csetTuned c fs w).circuit c).cfg.low ≤ ((s.csetTuned c fs w).circuit c).level)
      else (s.circuit c).lowArmed := by
  have e : ((s.csetTuned c fs w).circuit c).lowArmed = (((s.csetMoved c fs w).evaluated c fs).circuit c).lowArmed := by
    rw [State.csetTuned, tuned_record]
  rw [e, evaluated_lowArmed, csetMoved_lowArmed, (tuned_csetTuned s c fs w).level, (tuned_csetTuned s c fs w).confined.cfg]

/-- Without a named threshold and a run that is cut, LOW stays as it is. -/
theorem csetEffect_lowArmed_kept (hf : fs.has "low" = false) (h : ∀ a, ¬s.CutsAt c fs w a) :
    ((s.csetEffect c fs w).circuit c).lowArmed = (s.circuit c).lowArmed := by
  obtain ⟨-, -, e⟩ := reading_eq_iff.mp (csetEffect_reading_kept h)
  rw [e, csetTuned_lowArmed, hf]
  rfl

/-- A named threshold, or a run that is cut, evaluates LOW. -/
theorem csetEffect_low (h : fs.has "low" = true ∨ ∃ a, s.CutsAt c fs w a) :
    ((s.csetEffect c fs w).circuit c).lowArmed = decide (((s.csetEffect c fs w).circuit c).cfg.low
        ≤ ((s.csetEffect c fs w).circuit c).level)
      ∧ (((s.csetEffect c fs w).circuit c).level < ((s.csetEffect c fs w).circuit c).cfg.low →
        (s.circuit c).lowArmed = true → (s.csetEffect c fs w).link.isSet (.low c) = true) := by
  have hcfg := (confined_csetEffect_tuned s c fs w).cfg
  have hnamed (hf : fs.has "low" = true)
      (hl : ((s.csetTuned c fs w).circuit c).level < ((s.csetTuned c fs w).circuit c).cfg.low)
      (ha : (s.circuit c).lowArmed = true) : (s.csetEffect c fs w).link.isSet (.low c) = true := by
    rw [(tuned_csetTuned s c fs w).level, (tuned_csetTuned s c fs w).confined.cfg] at hl
    exact (csetEffect_link s c fs w).flags _ (evaluated_low hf hl (csetMoved_lowArmed.trans ha))
  have hlow := csetTuned_lowArmed (s := s) (c := c) (fs := fs) (w := w)
  rw [hcfg]
  by_cases hcut : ∃ a, s.CutsAt c fs w a
  · obtain ⟨a, ha⟩ := hcut
    obtain ⟨-, harmed, hset⟩ := csetEffect_reading_cut ha
    refine ⟨harmed, fun hl hr => ?_⟩
    cases hf : fs.has "low" with
    | false => exact hset hl (by rw [hlow, hf]; exact hr)
    | true =>
      by_cases hle : ((s.csetTuned c fs w).circuit c).cfg.low ≤ ((s.csetTuned c fs w).circuit c).level
      · exact hset hl (by rw [hlow, hf]; exact decide_eq_true hle)
      · exact hnamed hf (Nat.not_le.mp hle) hr
  · have hf := h.resolve_right hcut
    obtain ⟨e1, -, e3⟩ := reading_eq_iff.mp (csetEffect_reading_kept fun a ha => hcut ⟨a, ha⟩)
    rw [e1, e3]
    exact ⟨by rw [hlow, hf]; rfl, hnamed hf⟩

end Sys2Proof.Machine
end

