-- ==== Sys2Proof/Proofs/CsetSettings.lean ====
section
/-! O18: CSET. -/

namespace Sys2Proof.Machine

set_option Elab.async false

variable {c : Circ} {s t u : State} {fs : Fields} {w : TwinChange}

/-! ### The twins and the records of the partners -/

theorem twinAfter_partner {d : Circ} (hd : d ≠ c) (hp : d ∈ w.partners (s.circuit c).cfg) :
    s.twinAfter c w d = if w.pair = some d then some c else none := by
  unfold State.twinAfter
  rw [if_neg hd]
  split
  · rfl
  · rename_i hn
    simp only [TwinChange.partners, List.mem_append, Option.mem_toList, hn, or_false] at hp
    split at hp
    · rename_i hw
      rw [if_pos ⟨hw, by simpa using hp⟩]
    · cases hp

theorem twinAfter_other {d : Circ} (hd : d ≠ c) (hp : d ∉ w.partners (s.circuit c).cfg) :
    s.twinAfter c w d = (s.circuit d).cfg.twin := by
  simp only [TwinChange.partners, List.mem_append, Option.mem_toList, not_or] at hp
  obtain ⟨h1, h2⟩ := hp
  unfold State.twinAfter
  rw [if_neg hd, if_neg h2, if_neg]
  rintro ⟨hw, ht⟩
  rw [if_pos hw] at h1
  exact h1 (by simpa using ht)

theorem csetWritten_unchanged (s : State) (c : Circ) (fs : Fields) (w : TwinChange) :
    Unchanged [.circuits, .store] s (s.csetWritten c fs w) := by
  rw [csetWritten_frame]
  refine ⟨rfl, rfl, fun p hp => ?_⟩
  cases p <;> simp [Part.same] at hp ⊢

theorem Confined.settings (h : Confined c s t) (d : Circ) : (t.circuit d).cfg = (s.circuit d).cfg := by
  by_cases hd : d = c
  · rw [hd, h.cfg]
  · rw [h.others d hd]

/-- The settings of c and of its partners join the link writes, as they then stand (R39). -/
theorem csetEffect_fifo (s : State) (c : Circ) (fs : Fields) (w : TwinChange) : (s.csetEffect c fs w).store.fifo
    = s.store.fifo ++ (c :: w.partners (s.circuit c).cfg).map fun d => .circuit d ((s.csetEffect c fs w).circuit d).cfg := by
  have h := confined_csetEffect s c fs w
  rw [h.fifo, csetWritten_frame]
  simp only [h.settings]

theorem csetEffect_grows (s : State) (c : Circ) (fs : Fields) (w : TwinChange) :
    s.link.Grows (s.csetEffect c fs w).link := by
  have e : (s.csetWritten c fs w).link = s.link := by rw [csetWritten_frame]
  exact e ▸ (confined_csetEffect s c fs w).link

/-! ### The staged values -/

theorem csetEffect_staged (s : State) (c : Circ) (fs : Fields) (w : TwinChange) :
    ((s.csetEffect c fs w).circuit c).openBatch = (s.circuit c).openBatch
      ∧ ((s.csetEffect c fs w).circuit c).trim = (s.circuit c).trim
      ∧ ((s.csetEffect c fs w).circuit c).pendingTrim = (s.circuit c).pendingTrim
      ∧ ((s.csetEffect c fs w).circuit c).nmin = ((s.csetWritten c fs w).circuit c).nmin
      ∧ ((s.csetEffect c fs w).circuit c).pendingNmin = ((s.csetWritten c fs w).circuit c).pendingNmin := by
  have h := (confined_csetEffect s c fs w).staged
  simp only [Circuit.staged, Prod.mk.injEq] at h
  obtain ⟨-, h1, h2, h3, h4, h5⟩ := h
  rw [h1, h2, h3, h4, h5, csetWritten_keeps]
  exact ⟨rfl, rfl, rfl, rfl, rfl⟩

/-! ### The calibration result (R62) -/

theorem codeMoves_calResult (s : State) (c : Circ) : (s.codeMoves c).calResult = s.calResult := by
  have h (g : CircuitState) : (s.moveCircuit c g).calResult = s.calResult := (Local.moveCircuit c s g).calResult
  unfold State.codeMoves
  dsimp only
  split
  · exact h _
  · split
    · exact h _
    · rfl

theorem csetMoved_calResult : (s.csetMoved c fs w).calResult = s.calResult := by
  rw [State.csetMoved, codeMoves_calResult, (clampLevel_keeps _ c).2.2.2, csetWritten_frame]

theorem csetEffect_calResult (s : State) (c : Circ) (fs : Fields) (w : TwinChange) :
    (s.calResult = none → (s.csetEffect c fs w).calResult = none)
      ∧ ∀ q, s.calResult = some q →
        (q.kept c (s.circuit c).cfg ((s.csetEffect c fs w).circuit c).cfg → (s.csetEffect c fs w).calResult = some q)
        ∧ (¬q.kept c (s.circuit c).cfg ((s.csetEffect c fs w).circuit c).cfg → (s.csetEffect c fs w).calResult = none) := by
  have e : (s.csetEffect c fs w).calResult = (s.csetTuned c fs w).calResult := by
    rcases csetEffect_cases s c fs w with e | e <;> rw [e]
    exact bayEvent_calResult _ c
  have hcfg : ((s.csetEffect c fs w).circuit c).cfg = ((s.csetMoved c fs w).circuit c).cfg :=
    ((tuned_csetTuned s c fs w).confined.trans (confined_csetEffect_tuned s c fs w)).cfg
  have h := tuned_calResult (s.csetMoved c fs w) c fs (s.circuit c).cfg
  rw [csetMoved_calResult] at h
  rw [e, hcfg]
  exact h

theorem csetEffect_due (ho : (s.circuit c).cfg.stir ≠ .off) (hn : ((s.csetEffect c fs w).circuit c).cfg.stir = .off) :
    ∀ x ∈ (s.csetEffect c fs w).cares.due, x.1 ≠ c := by
  have hcfg : ((s.csetEffect c fs w).circuit c).cfg = ((s.csetMoved c fs w).circuit c).cfg :=
    ((tuned_csetTuned s c fs w).confined.trans (confined_csetEffect_tuned s c fs w)).cfg
  rw [hcfg] at hn
  have h : ∀ x ∈ (s.csetTuned c fs w).cares.due, x.1 ≠ c := tuned_due ho hn
  rcases csetEffect_cases s c fs w with e | e <;> rw [e]
  · exact fun x hx => h x (bayEvent_due _ c x hx)
  · exact h

/-! ### The bay event of a circuit with a code (R4, R6 to R8) -/

section
variable (ht : s.TakesBay c fs w) (h : (s.circuit c).state ≠ .unfitted)
include ht h

theorem csetEffect_inserts (hs : (s.circuit c).state = .service) (hb : s.bayClosed c = true) :
    ((s.csetEffect c fs w).circuit c).state = .checking ∧ ((s.csetEffect c fs w).circuit c).latchOpen = false
      ∧ ((s.csetEffect c fs w).circuit c).baseline = true ∧ ((s.csetEffect c fs w).circuit c).checkKind = .insertion
      ∧ ((s.csetEffect c fs w).circuit c).lot = (s.circuit c).lot ∧ (s.csetEffect c fs w).tag = s.tag.ask ⟨c, .read⟩ := by
  have hc := (takesBay_iff.mp ht).1
  obtain ⟨hlot, -, -, -, htag, -⟩ := csetTuned_keeps (w := w) h hc
  rw [csetEffect_of_taken ht, bayEvent_inserts ((csetTuned_service h hc).mpr hs) (csetTuned_bayClosed.trans hb)]
  have e : ∀ (v : State) (f : Circuit → Circuit), ((v.setCircuit c f).askTag c .read).circuit c = f (v.circuit c) :=
    fun v f => setCircuit_circuit v c f
  rw [e]
  exact ⟨rfl, rfl, rfl, rfl, hlot, congrArg (·.ask ⟨c, .read⟩) htag⟩

theorem csetEffect_rebased (hf : fs.has "reserve" = (fs.num "reserve").isSome) (hs : (s.circuit c).state ≠ .service)
    (hb : s.bayClosed c = true) : ((s.csetEffect c fs w).circuit c).state = (s.circuit c).settledAfter fs
      ∧ ((s.csetEffect c fs w).circuit c).latchOpen = (s.circuit c).latchOpen
      ∧ ((s.csetEffect c fs w).circuit c).baseline = true ∧ ((s.csetEffect c fs w).circuit c).lot = (s.circuit c).lot
      ∧ (s.csetEffect c fs w).tag = s.tag := by
  have hc := (takesBay_iff.mp ht).1
  obtain ⟨hlot, -, hlatch, -, htag, -⟩ := csetTuned_keeps (w := w) h hc
  rw [csetEffect_of_taken ht, bayEvent_moves ht.1 (fun e => hs ((csetTuned_service h hc).mp e)) (csetTuned_bayClosed.trans hb),
    baselined_circuit, csetTuned_bayClosed]
  exact ⟨csetTuned_settled hf h hc, hlatch, hb, hlot, htag⟩

theorem csetEffect_emptied (hs : (s.circuit c).state = .service) (hb : s.bayClosed c = false) :
    ((s.csetEffect c fs w).circuit c).state = .service
      ∧ ((s.csetEffect c fs w).circuit c).latchOpen = (s.circuit c).latchOpen
      ∧ ((s.csetEffect c fs w).circuit c).baseline = false ∧ ((s.csetEffect c fs w).circuit c).lot = none
      ∧ (s.csetEffect c fs w).tag = s.tag := by
  have hc := (takesBay_iff.mp ht).1
  obtain ⟨-, -, hlatch, -, htag, -⟩ := csetTuned_keeps (w := w) h hc
  have hv := (csetTuned_service (w := w) h hc).mpr hs
  rw [csetEffect_of_taken ht, bayEvent_empties hv (csetTuned_bayClosed.trans hb), setCircuit_circuit]
  exact ⟨hv, hlatch, rfl, rfl, htag⟩

theorem csetEffect_lost (hs : (s.circuit c).state ≠ .service) (hb : s.bayClosed c = false) :
    ((s.csetEffect c fs w).circuit c).state = .service ∧ ((s.csetEffect c fs w).circuit c).reason = some .levelLost
      ∧ ((s.csetEffect c fs w).circuit c).lot = none ∧ ((s.csetEffect c fs w).circuit c).baseline = false
      ∧ ((s.csetEffect c fs w).circuit c).latchOpen = (s.circuit c).latchOpen
      ∧ (s.csetEffect c fs w).link.isSet (.blocked c) = true ∧ (s.csetEffect c fs w).tag = s.tag.abandonJobs c
      ∧ ((s.csetEffect c fs w).pump c).next = none ∧ ((s.csetEffect c fs w).pump c).heldPrime = false
      ∧ ∀ a, ((s.csetEffect c fs w).pump c).activity = some a → a.atBoundary = some (.cut .removed) := by
  have hc := (takesBay_iff.mp ht).1
  obtain ⟨-, -, hlatch, -, htag, -⟩ := csetTuned_keeps (w := w) h hc
  rw [csetEffect_of_removal ht h hs hb]
  obtain ⟨hstate, hreason, hlot, hblocked⟩ := forcedRemoval_state ((s.csetTuned c fs w).baselined c) c
  obtain ⟨-, -, -, -, -, -, elatch, ebase, -⟩ := (forcedRemoval_local ((s.csetTuned c fs w).baselined c) c).circuit_fields
  obtain ⟨-, -, -, -, hjobs⟩ := forcedRemoval_account ((s.csetTuned c fs w).baselined c) c
  have hpump := forcedRemoval_pump ((s.csetTuned c fs w).baselined c) c
  rw [baselined_circuit] at elatch ebase
  refine ⟨hstate, hreason, hlot, ebase.trans (csetTuned_bayClosed.trans hb), elatch.trans hlatch, hblocked,
    hjobs.trans (congrArg (·.abandonJobs c) htag), ?_, ?_, (forcedRemoval_activity _ c).2.1⟩
  · rw [hpump]
  · rw [hpump]

end

end Sys2Proof.Machine
end

