-- ==== Sys2Proof/Proofs/CsetRequests.lean ====
section
/-! O18: CSET, from its checks to its effect. -/

namespace Sys2Proof.Machine

set_option Elab.async false

variable {c : Circ} {s : State} {fs : Fields} {w : TwinChange}

theorem roundHalfUp_zero (b : Nat) : roundHalfUp (0 * 1024000) b = 0 := by
  rw [Nat.zero_mul, roundHalfUp, Nat.mul_zero, Nat.zero_add, Nat.div_eq_zero_iff]
  omega

/-- Settles O18: the refusals by the checks in their order, an accepted request by the stages of its effect (`Confined` and
`Tuned`) and the bay event that may follow them. -/
theorem csetChangesSettings : Obligations.CsetChangesSettings := by
  refine ⟨?_, ?_⟩
  · intro s fs hp hm refused
    have hrefused (h : csetAnswer fs s = .refuse .range) : refused := request_refused hp h
    refine ⟨fun hc => hrefused (cset_no_circuit hm hc), ?_⟩
    intro c hc r most least unknown
    have houtside (h : csetOutside fs = true) : refused := hrefused (cset_range hm hc (.inl h))
    refine ⟨?_, fun n hn h0 ho => houtside (csetOutside_of_purgeint hn h0 ho), fun h => ?_, fun h => ?_⟩
    · rintro ⟨x, hx, n, hn, ho⟩
      exact houtside (csetOutside_of_number hx hn ho)
    · refine houtside (csetOutside_of_unreadable ?_)
      exact h.imp unreadable_of (.imp unreadable_of (.imp unreadable_of unreadable_of))
    · have hleast : r.leastAfter fs = least := by
        simp only [least]
        cases hn : fs.num "nmin" with
        | none => exact leastAfter_unnamed hn
        | some n => exact leastAfter_named hn
      exact hrefused (cset_inconsistent hm hc (by rw [hleast]; exact h))
  · intro s fs c hp hm hc hin hcons r g code capacity watch holds forms formsNone dissolves takesBay steps factor hindered
    have hrange := fieldWithin_of_inside hin
    refine ⟨fun hn hf => ?_, ?_⟩
    · exact request_refused hp (cset_mismatch hm hc hin hcons (twinChange_mismatch hrange hn hf))
    · intro new hnone hsome partners
      have hw : s.twinChange c fs = some ⟨s.twinParts c fs, new⟩ := by
        cases new with
        | none => exact twinChange_rests hrange (hnone rfl)
        | some n => exact twinChange_forms (hsome n rfl)
      have hans := cset_settled hm hc hin hcons hw
      have hhind : s.csetHindered c fs = true ↔ hindered := csetHindered_iff
      refine ⟨fun h => ?_, fun h hf => ?_, fun h hf => ?_⟩
      · exact request_refused hp (by rw [hans, hhind.mpr h, Answer.check_true])
      · have hfull : s.linkRoom (1 + partners.length) = false := Bool.eq_false_iff.mpr fun e => by
          have := linkRoom_eq_true.mp e
          omega
        refine request_refused hp ?_
        rw [hans, Bool.eq_false_iff.mpr fun e => h (hhind.mp e), Answer.check_false]
        exact congrArg (fun b => Answer.check (!b) .busy _) hfull
      · have hroom : s.linkRoom (1 + partners.length) = true := linkRoom_eq_true.mpr (by omega)
        have hacc : csetAnswer fs s = .accept (if fs.has "nmin" then [r.applied] else [])
            fun u => u.csetEffect c fs ⟨s.twinParts c fs, new⟩ := by
          rw [hans, Bool.eq_false_iff.mpr fun e => h (hhind.mp e), Answer.check_false]
          exact congrArg (fun b => Answer.check (!b) .busy _) hroom
        refine ⟨_, request_accepted hp hacc, ?_⟩
        have hnum {key : String} (hk : key ∈ csetNumbers) : fs.has key = (fs.num key).isSome := has_eq_isSome_num hm hk
        have hnmin := hnum (key := "nmin") (by decide)
        have hlow := hnum (key := "low") (by decide)
        have hreserve := hnum (key := "reserve") (by decide)
        have hpurge := hnum (key := "purgeint") (by decide)
        generalize hreply : (if fs.has "nmin" then [r.applied] else [] : List Item) = items
        let s0 : State := s.pushReply false (.ok items)
        let w : TwinChange := ⟨s.twinParts c fs, new⟩
        have hall : Confined c (s0.csetWritten c fs w) (s0.csetEffect c fs w) := confined_csetEffect s0 c fs w
        have hcfg := hall.cfg.trans (csetWritten_cfg s0 c fs w)
        have htwin : s0.twinAfter c w c = if new.isSome then new else if dissolves then none else g.twin := if_pos rfl
        obtain ⟨hopen, htrim, hpt, hn, hpn⟩ := csetEffect_staged s0 c fs w
        obtain ⟨hunstaged, hstaged⟩ := csetWritten_nmin s0 c fs w
        have hbay : takesBay ↔ r.state ≠ .unfitted ∧ s0.TakesBay c fs w :=
          and_congr_right fun hu => (takesBay_rests (s := s0) (fs := fs) (w := w) hu).symm
        have hkept (h : ∀ a, ¬s0.CutsAt c fs w a) : steps = 0 := by
          simp only [steps]
          split
          · rename_i a ha hb
            split
            · rename_i hbays
              obtain ⟨hb1, hopen, hs, hk⟩ := hbays
              exact by_contra fun hd => h a ⟨(hbay.mp hb1).2, hb1.1, hs, hopen, ha, hb, hk, hd⟩
            · rfl
          · rfl
        have hcut {a : Activity} (h : s0.CutsAt c fs w a) : steps = a.delivered ∧ (s.pump c).activity = some a := by
          obtain ⟨hb1, hu, hs, hopen, ha, hb, hk, -⟩ := h
          have ha : (s.pump c).activity = some a := ha
          have hb : (s.pump c).burst = none := hb
          simp only [steps, ha, hb]
          exact ⟨if_pos ⟨hbay.mpr ⟨hu, hb1⟩, hopen, hs, hk⟩, trivial⟩
        refine ⟨?_, fun d hd hdc => ?_, fun d hdc hd => ?_, ?_, hopen, htrim, hpt, fun h => ?_, fun n hnm => ?_, ?_, fun hu hcode => ?_,
          fun hs hcode => csetEffect_removed (s := s0) hs hcode, fun hu hcode => ?_, fun hl h0 => ?_, fun hl => ?_, csetEffect_due (s := s0),
          (csetEffect_calResult s0 c fs w).1, fun q hq => ?_, ?_⟩
        · rw [htwin] at hcfg
          exact hcfg
        · have e := (hall.others d hdc).trans (csetWritten_ne hdc)
          rw [twinAfter_partner (s := s0) (w := w) hdc hd] at e
          exact e
        · have e := (hall.others d hdc).trans (csetWritten_ne hdc)
          rw [twinAfter_other (s := s0) (w := w) hdc hd] at e
          exact e
        · exact csetEffect_fifo s0 c fs w
        · rw [hn, hpn]
          exact hunstaged h
        · rw [hn, hpn]
          exact hstaged n hnm
        · have hitems : items = if fs.num "nmin" = none then [] else [r.applied] := by
            rw [← hreply, hnmin]
            cases fs.num "nmin" <;> rfl
          have hsent : .reply false (.ok items) ∈ s0.link.lines := (Link.mem_lines_push _ _ _).mpr (.inl rfl)
          rw [hitems] at hsent
          exact (csetEffect_grows s0 c fs w).lines _ hsent
        · exact csetEffect_given (s := s0) hu hcode
        · intro level reserve settled
          have hsettled : r.settledAfter fs = settled := rfl
          have hquiet (hb : ¬takesBay) : s0.csetEffect c fs w = s0.csetTuned c fs w :=
            csetEffect_of_not_taken fun ht => hb (hbay.mpr ⟨hu, ht⟩)
          refine ⟨?_, fun hf hs hl => ?_, fun hb => ?_, fun hb => ?_, fun hb hf hs => ?_⟩
          · by_cases hrun : ∃ a, s0.CutsAt c fs w a
            · obtain ⟨a, ha⟩ := hrun
              obtain ⟨hsteps, hact⟩ := hcut ha
              have hfactor : factor = if a.owner = .cal then 1024 else (1024 + r.trim).toNat := by
                simp only [factor, hact, Option.any_some, beq_iff_eq]
                split <;> rfl
              have hk : fs.numD "k" g.k = g.k := by_contra fun hk => h (.inr ⟨hk, .inr (by rw [hact]; nofun)⟩)
              have e := (csetEffect_reading_cut ha).1
              rw [hsteps, hfactor, ← hk]
              exact e
            · have hno (a : Activity) (ha : s0.CutsAt c fs w a) : False := hrun ⟨a, ha⟩
              rw [hkept hno, roundHalfUp_zero, Nat.sub_zero]
              exact (reading_eq_iff.mp (csetEffect_reading_kept hno)).1.trans (csetTuned_level (s := s0) hu hcode)
          · exact csetEffect_empty (s := s0) (by rw [hreserve]; exact Option.isSome_iff_ne_none.mpr hf) hs hcode hl
          · obtain ⟨h1, h2, h3, h4, h5, -⟩ := csetTuned_keeps (s := s0) (w := w) hu hcode
            rw [hquiet hb]
            exact ⟨h1, h2, h3, h4, h5, csetTuned_settled (s := s0) hreserve hu hcode⟩
          · have ht := (hbay.mp hb).2
            refine ⟨fun hc hs => csetEffect_inserts ht hu hs hc, fun hc hs => ?_, fun hc hs => csetEffect_emptied ht hu hs hc,
              fun hc hs => csetEffect_lost ht hu hs hc⟩
            exact csetEffect_rebased ht hu hreserve hs hc
          · have hserves : r.state.serves = true := by
              rcases hs with hs | hs <;> rw [hs] <;> rfl
            have e := csetTuned_purgeDue (s := s0) (w := w) (by rw [hreserve, hf]; rfl) hserves hcode
            rw [hquiet hb, e, hpurge]
            refine ⟨fun hn => by rw [hn]; rfl, ?_⟩
            intro n hn runOut
            rw [hn, numD_of_num hn]
            have hd : (s0.circuit c).purgeDue = r.purgeDue := rfl
            have hout : runOut = true ↔ n ≠ 0 ∧ (s0.circuit c).lastDelivery + n * 60000000 ≤ s0.now := by
              simp only [runOut, Bool.and_eq_true, bne_iff_ne, decide_eq_true_eq]
              rfl
            simp only [hd, hout, Option.isSome_some, if_true]
            cases r.purgeDue with
            | none => rfl
            | some p => cases p <;> rfl
        · have hno (a : Activity) (ha : s0.CutsAt c fs w a) : False := ha.2.2.2.2.2.2.2 ((hcut ha).1.symm.trans h0)
          exact csetEffect_lowArmed_kept (s := s0) (by rw [hlow, hl]; rfl) hno
        · intro low
          have hor : fs.has "low" = true ∨ ∃ a, s0.CutsAt c fs w a := by
            refine hl.imp (fun hl => by rw [hlow]; exact Option.isSome_iff_ne_none.mpr hl) fun h0 => ?_
            by_contra hno
            exact h0 (hkept fun a ha => hno ⟨a, ha⟩)
          obtain ⟨harmed, hset⟩ := csetEffect_low hor
          exact ⟨fun hle => harmed.trans (decide_eq_true hle),
            fun hlt => ⟨harmed.trans (decide_eq_false (Nat.not_le.mpr hlt)), hset hlt⟩⟩
        · obtain ⟨hkeep, hdrop⟩ := (csetEffect_calResult s0 c fs w).2 q hq
          rw [hcfg] at hkeep hdrop
          split
          · rename_i hx
            refine hdrop fun hk => hk ?_
            exact ⟨hx.1, hx.2.imp Ne.symm (.imp Ne.symm id)⟩
          · rename_i hx
            refine hkeep fun hk => hx ?_
            exact ⟨hk.1, hk.2.imp Ne.symm (.imp Ne.symm id)⟩
        · exact ((unchanged_pushReply s false _).trans ((csetWritten_unchanged s0 c fs w).trans hall.unchanged)).mono (by decide)

end Sys2Proof.Machine
end

