-- ==== Sys2Proof/Proofs/Shelf.lean ====
section
/-! PROOF SUPPORT. The library's slots, the stored records and the writes on their way to the store: what the operations of the
other blocks leave of them, one lemma for each. -/

namespace Sys2Proof.Machine

set_option Elab.async false

/-- The used slots of the library, the stored records, and the link writes that wait and the write in progress. -/
structure Shelf where
  slots : List (Nat × Formula)
  nv : NonVolatile
  fifo : List StoreRecord
  writer : Option (WriteWork × Nat)

def State.shelf (s : State) : Shelf := ⟨s.lib.slots, s.store.nv, s.store.fifo, s.store.writer⟩

/-- An operation on one circuit leaves the shelf. -/
theorem Local.shelf {c : Circ} {s t : State} (h : Local c s t) : t.shelf = s.shelf := (congrArg State.shelf h.beside :)

theorem shelf_foldl {α : Type} {f : State → α → State} (h : ∀ u x, (f u x).shelf = u.shelf) (l : List α) (s : State) :
    (l.foldl f s).shelf = s.shelf := by
  induction l generalizing s with
  | nil => rfl
  | cons x xs ih => rw [List.foldl_cons, ih, h]

theorem shelf_forCircuits {f : Circ → State → State} (h : ∀ c u, (f c u).shelf = u.shelf) (s : State) :
    (forCircuits f s).shelf = s.shelf := shelf_foldl (fun u c => h c u) _ s

theorem shelf_race {f g : State → State} (s : State) (b : Bool) (hf : ∀ u, (f u).shelf = u.shelf)
    (hg : ∀ u, (g u).shelf = u.shelf) : (s.race b f g).shelf = s.shelf := by
  have hc (u : State) : u.choose.shelf = u.shelf := rfl
  unfold State.race
  split
  · rw [hf, hg, hc]
  · split
    · rw [hg, hf, hc]
    · rw [hg, hf]

variable (s : State)

/-! ### Shared operations -/

@[simp] theorem shelf_reach (t : Nat) : (s.reach t).shelf = s.shelf := rfl
@[simp] theorem shelf_setCircuit (c : Circ) (f : Circuit → Circuit) : (s.setCircuit c f).shelf = s.shelf := rfl
@[simp] theorem shelf_setPump (c : Circ) (f : Pump → Pump) : (s.setPump c f).shelf = s.shelf := rfl
@[simp] theorem shelf_setActivity (c : Circ) (f : Activity → Activity) : (s.setActivity c f).shelf = s.shelf := rfl
@[simp] theorem shelf_setPlace (p : Place) (f : PlaceRecord → PlaceRecord) : (s.setPlace p f).shelf = s.shelf := rfl
@[simp] theorem shelf_setMixer (m : Mix) (f : Mixer → Mixer) : (s.setMixer m f).shelf = s.shelf := rfl
@[simp] theorem shelf_setTin (id : Nat) (f : Tin → Tin) : (s.setTin id f).shelf = s.shelf := rfl
@[simp] theorem shelf_noteTin (id : Nat) (n : Note) : (s.noteTin id n).shelf = s.shelf := rfl
@[simp] theorem shelf_readyTin (id : Nat) : (s.readyTin id).shelf = s.shelf := rfl
@[simp] theorem shelf_stageTin (id : Nat) (g : Stage) : (s.stageTin id g).shelf = s.shelf := rfl
@[simp] theorem shelf_dropTin (id : Nat) : (s.dropTin id).shelf = s.shelf := rfl
@[simp] theorem shelf_setFlag (f : Flag) (items : List Item) : (s.setFlag f items).shelf = s.shelf := rfl

/-! ### The store -/

@[simp] theorem shelf_markDirty (c : Circ) : (s.markDirty c).shelf = s.shelf := rfl
@[simp] theorem shelf_askMarkerSet (new : Marker) : (s.askMarkerSet new).shelf = s.shelf := rfl
@[simp] theorem shelf_askMarkerClear : s.askMarkerClear.shelf = s.shelf := rfl

@[simp] theorem shelf_releaseClear : s.releaseClear.shelf = s.shelf := by
  unfold State.releaseClear
  repeat' split
  all_goals rfl

/-! ### Dues and states of a circuit -/

@[simp] theorem shelf_addDue (c : Circ) (t : Nat) : (s.addDue c t).shelf = s.shelf := rfl
@[simp] theorem shelf_dropDue (c : Circ) : (s.dropDue c).shelf = s.shelf := rfl

@[simp] theorem shelf_stirComesDue (c : Circ) (t : Nat) : (s.stirComesDue c t).shelf = s.shelf :=
  (Local.stirComesDue c s t).shelf

@[simp] theorem shelf_endStir (c : Circ) : (s.endStir c).shelf = s.shelf := rfl
@[simp] theorem shelf_cutStir (c : Circ) (back : Bool) : (s.cutStir c back).shelf = s.shelf := (Local.cutStir c s back).shelf
@[simp] theorem shelf_purgeBecomesDue (c : Circ) (cause : PurgeCause) : (s.purgeBecomesDue c cause).shelf = s.shelf := rfl
@[simp] theorem shelf_clearPurgeDue (c : Circ) : (s.clearPurgeDue c).shelf = s.shelf := (Local.clearPurgeDue c s).shelf
@[simp] theorem shelf_purgeTest (c : Circ) : (s.purgeTest c).shelf = s.shelf := (Local.purgeTest c s).shelf

@[simp] theorem shelf_moveCircuit (c : Circ) (g : CircuitState) : (s.moveCircuit c g).shelf = s.shelf :=
  (Local.moveCircuit c s g).shelf

/-! ### Levels and bindings -/

@[simp] theorem shelf_lowEvaluate (c : Circ) : (s.lowEvaluate c).shelf = s.shelf := (Local.lowEvaluate c s).shelf
@[simp] theorem shelf_emptyCheck (c : Circ) : (s.emptyCheck c).shelf = s.shelf := (Local.emptyCheck c s).shelf

@[simp] theorem shelf_emptyCheckReserve (c : Circ) : (s.emptyCheckReserve c).shelf = s.shelf :=
  (Local.emptyCheckReserve c s).shelf

@[simp] theorem shelf_reduceLevel (c : Circ) (n : Nat) (t : Int) : (s.reduceLevel c n t).shelf = s.shelf :=
  (Local.reduceLevel c s n t).shelf

@[simp] theorem shelf_bindingMade (c : Circ) : (s.bindingMade c).shelf = s.shelf := rfl
@[simp] theorem shelf_bindingEnded (c : Circ) : (s.bindingEnded c).shelf = s.shelf := rfl
@[simp] theorem shelf_flagBlocked (c : Circ) (why : BlockReason) : (s.flagBlocked c why).shelf = s.shelf := rfl
@[simp] theorem shelf_block (c : Circ) (why : BlockReason) : (s.block c why).shelf = s.shelf := by simp [State.block]

@[simp] theorem shelf_pumpFault (c : Circ) : (s.pumpFault c).shelf = s.shelf := by
  unfold State.pumpFault
  split <;> simp

/-! ### Pumps -/

@[simp] theorem shelf_forfeitSlots (c : Circ) : (s.forfeitSlots c).shelf = s.shelf := rfl
@[simp] theorem shelf_createActivity (c : Circ) (q : PumpRequest) : (s.createActivity c q).shelf = s.shelf := rfl

@[simp] theorem shelf_askPump (c : Circ) (q : PumpRequest) : (s.askPump c q).1.shelf = s.shelf := by
  unfold State.askPump
  repeat' split
  all_goals simp

@[simp] theorem shelf_askPrime (c : Circ) : (s.askPrime c).shelf = s.shelf := by simp [State.askPrime]

@[simp] theorem shelf_askPrimeAgain (c : Circ) : (s.askPrimeAgain c).shelf = s.shelf := by
  unfold State.askPrimeAgain
  repeat' split
  all_goals simp

@[simp] theorem shelf_setEntry (id k : Nat) (f : DoseEntry → DoseEntry) : (s.setEntry id k f).shelf = s.shelf := rfl

@[simp] theorem shelf_tellOwner (c : Circ) (a : Activity) (volume : Nat) (cause : EndCause) :
    (s.tellOwner c a volume cause).shelf = s.shelf := (Local.tellOwner c s a volume cause).shelf

@[simp] theorem shelf_keepDelivery (c : Circ) (a : Activity) (before : Circuit) :
    (s.keepDelivery c a before).shelf = s.shelf := (Local.keepDelivery c s a before).shelf

@[simp] theorem shelf_releaseNext (c : Circ) : (s.releaseNext c).shelf = s.shelf := by
  unfold State.releaseNext
  split <;> simp

@[simp] theorem shelf_endActivity (c : Circ) (cause : EndCause) : (s.endActivity c cause).shelf = s.shelf := by
  unfold State.endActivity
  repeat' split
  all_goals simp

@[simp] theorem shelf_refuseNext (c : Circ) : (s.refuseNext c).shelf = s.shelf := (refuseNext_local s c).shelf

@[simp] theorem shelf_cutFinally (c : Circ) (why : CutCause) : (s.cutFinally c why).shelf = s.shelf := by
  unfold State.cutFinally
  split <;> simp

@[simp] theorem shelf_pumpRestart (c : Circ) : (s.pumpRestart c).shelf = s.shelf := by simp [State.pumpRestart]

@[simp] theorem shelf_abandonNow (c : Circ) : (s.abandonNow c).shelf = s.shelf := by
  unfold State.abandonNow
  repeat' split
  all_goals simp

@[simp] theorem shelf_abandon (c : Circ) : (s.abandon c).shelf = s.shelf := by
  unfold State.abandon
  split <;> simp

@[simp] theorem shelf_abandonPurges : s.abandonPurges.shelf = s.shelf := by
  refine shelf_forCircuits (fun c u => ?_) s
  split
  · split <;> simp
  · rfl

@[simp] theorem shelf_pumpStop (c : Circ) : (s.pumpStop c).shelf = s.shelf := by
  unfold State.pumpStop
  repeat' split
  all_goals simp

@[simp] theorem shelf_resumeActivity (c : Circ) : (s.resumeActivity c).shelf = s.shelf := by
  unfold State.resumeActivity
  repeat' split
  all_goals simp

@[simp] theorem shelf_resumePrime (c : Circ) : (s.resumePrime c).shelf = s.shelf := by
  unfold State.resumePrime
  repeat' split
  all_goals simp

@[simp] theorem shelf_pumpResume (c : Circ) : (s.pumpResume c).shelf = s.shelf := by simp [State.pumpResume]

@[simp] theorem shelf_createHeldPrime (c : Circ) : (s.createHeldPrime c).shelf = s.shelf := by
  unfold State.createHeldPrime
  split <;> simp

@[simp] theorem shelf_primeCap (c : Circ) : (s.primeCap c).shelf = s.shelf := by
  unfold State.primeCap
  repeat' split
  all_goals simp

@[simp] theorem shelf_primesLook : s.primesLook.shelf = s.shelf := shelf_forCircuits (fun c u => by simp) _
@[simp] theorem shelf_grant (c : Circ) (a : Activity) : (s.grant c a).shelf = s.shelf := rfl

@[simp] theorem shelf_serveSlot (k : Nat) : (s.serveSlot k).shelf = s.shelf := by
  unfold State.serveSlot
  repeat' split
  all_goals simp

@[simp] theorem shelf_nextSlot : s.nextSlot.shelf = s.shelf := by
  unfold State.nextSlot
  dsimp only
  split
  · rw [shelf_serveSlot]; rfl
  · rfl

@[simp] theorem shelf_advancePhase (c : Circ) : (s.advancePhase c).shelf = s.shelf := by
  unfold State.advancePhase
  dsimp only
  repeat' split
  all_goals simp

@[simp] theorem shelf_atBoundary (c : Circ) : (s.atBoundary c).shelf = s.shelf := by
  unfold State.atBoundary
  repeat' split
  all_goals simp

@[simp] theorem shelf_burstComplete (c : Circ) : (s.burstComplete c).shelf = s.shelf := by
  unfold State.burstComplete
  split <;> simp

@[simp] theorem shelf_burstStall (c : Circ) : (s.burstStall c).shelf = s.shelf := by
  unfold State.burstStall
  split <;> simp

@[simp] theorem shelf_burstTimeout (c : Circ) : (s.burstTimeout c).shelf = s.shelf := by
  unfold State.burstTimeout
  split <;> simp

/-! ### The Tag Bus -/

@[simp] theorem shelf_askTag (c : Circ) (k : JobKind) : (s.askTag c k).shelf = s.shelf := rfl

@[simp] theorem shelf_readSucceeded (c : Circ) (g : TagImage) : (s.readSucceeded c g).shelf = s.shelf := by
  unfold State.readSucceeded
  dsimp only
  repeat' split
  all_goals simp

@[simp] theorem shelf_readFailed (c : Circ) (f : TagFailure) : (s.readFailed c f).shelf = s.shelf := by
  unfold State.readFailed
  split <;> simp

@[simp] theorem shelf_releaseEnds (c : Circ) : (s.releaseEnds c).shelf = s.shelf := by simp [State.releaseEnds]

@[simp] theorem shelf_writeEnded (c : Circ) (f : Option TagFailure) : (s.writeEnded c f).shelf = s.shelf := by
  unfold State.writeEnded
  repeat' split
  all_goals simp

@[simp] theorem shelf_setLast (c : Circ) (r : LastResult) : (s.setLast c r).shelf = s.shelf := rfl
@[simp] theorem shelf_setImage (c : Circ) (g : TagImage) : (s.setImage c g).shelf = s.shelf := rfl
@[simp] theorem shelf_dropJob : s.dropJob.shelf = s.shelf := rfl

@[simp] theorem shelf_failJob (a : ActiveJob) (f : TagFailure) : (s.failJob a f).shelf = s.shelf := by
  unfold State.failJob
  split <;> simp

@[simp] theorem shelf_judgeRead (a : ActiveJob) : (s.judgeRead a).shelf = s.shelf := by
  unfold State.judgeRead
  split <;> simp

@[simp] theorem shelf_writeDone (a : ActiveJob) : (s.writeDone a).shelf = s.shelf := by simp [State.writeDone]
@[simp] theorem shelf_setBus (b : BusState) : (s.setBus b).shelf = s.shelf := rfl
@[simp] theorem shelf_setActiveJob (a : ActiveJob) : (s.setActiveJob a).shelf = s.shelf := rfl
@[simp] theorem shelf_goPhase (a : ActiveJob) (p : BusPhase) : (s.goPhase a p).shelf = s.shelf := rfl
@[simp] theorem shelf_waitBus (a : ActiveJob) : (s.waitBus a).shelf = s.shelf := rfl
@[simp] theorem shelf_sendStop : s.sendStop.shelf = s.shelf := rfl

@[simp] theorem shelf_countLoss (a : ActiveJob) : (s.countLoss a).shelf = s.shelf := by
  unfold State.countLoss
  split <;> simp

@[simp] theorem shelf_countFault (a : ActiveJob) : (s.countFault a).shelf = s.shelf := by
  unfold State.countFault
  split <;> simp

@[simp] theorem shelf_endAbandoned : s.endAbandoned.shelf = s.shelf := rfl

@[simp] theorem shelf_startSeen : s.startSeen.shelf = s.shelf := by
  unfold State.startSeen
  dsimp only
  repeat' split
  all_goals simp

@[simp] theorem shelf_stopSeenOnBus : s.stopSeenOnBus.shelf = s.shelf := by
  unfold State.stopSeenOnBus
  split <;> simp

@[simp] theorem shelf_linesHigh : s.linesHigh.shelf = s.shelf := by
  unfold State.linesHigh
  split <;> simp

@[simp] theorem shelf_busTaken : s.busTaken.shelf = s.shelf := by
  unfold State.busTaken
  split <;> simp

@[simp] theorem shelf_startTaken : s.startTaken.shelf = s.shelf := by
  unfold State.startTaken
  repeat' split
  all_goals simp

@[simp] theorem shelf_pageStored (a : ActiveJob) (n : Nat) : (s.pageStored a n).shelf = s.shelf := by
  unfold State.pageStored
  split <;> simp

@[simp] theorem shelf_addressAcked : s.addressAcked.shelf = s.shelf := by
  unfold State.addressAcked
  repeat' split
  all_goals simp

@[simp] theorem shelf_addressNaked : s.addressNaked.shelf = s.shelf := by
  unfold State.addressNaked
  repeat' split
  all_goals simp

@[simp] theorem shelf_byteAcked (data : BitVec 8) : (s.byteAcked data).shelf = s.shelf := by
  unfold State.byteAcked
  repeat' split
  all_goals simp

@[simp] theorem shelf_byteNaked : s.byteNaked.shelf = s.shelf := by
  unfold State.byteNaked
  repeat' split
  all_goals simp

@[simp] theorem shelf_arbitrationLost : s.arbitrationLost.shelf = s.shelf := by
  unfold State.arbitrationLost
  repeat' split
  all_goals simp

@[simp] theorem shelf_lineBroken : s.lineBroken.shelf = s.shelf := by
  unfold State.lineBroken
  repeat' split
  all_goals simp

@[simp] theorem shelf_busReleased : s.busReleased.shelf = s.shelf := shelf_stopSeenOnBus s

@[simp] theorem shelf_stopEnded : s.stopEnded.shelf = s.shelf := by
  unfold State.stopEnded
  repeat' split
  all_goals simp

@[simp] theorem shelf_pollDue : s.pollDue.shelf = s.shelf := by
  unfold State.pollDue
  repeat' split
  all_goals simp

@[simp] theorem shelf_pollTimeout : s.pollTimeout.shelf = s.shelf := by
  unfold State.pollTimeout
  repeat' split
  all_goals simp

@[simp] theorem shelf_busWaited : s.busWaited.shelf = s.shelf := by
  unfold State.busWaited
  repeat' split
  all_goals simp

@[simp] theorem shelf_tagBegin : s.tagBegin.shelf = s.shelf := by
  have h (a : Option ActiveJob) (q : List TagJob) (u : State) :
      ({ u with tag := { u.tag with active := a, queue := q } } : State).shelf = u.shelf := rfl
  unfold State.tagBegin
  dsimp only
  repeat' split
  all_goals simp [h]

/-! ### The Circuit Table -/

@[simp] theorem shelf_insertion (c : Circ) : (s.insertion c).shelf = s.shelf := by simp [State.insertion]
@[simp] theorem shelf_forcedRemoval (c : Circ) : (s.forcedRemoval c).shelf = s.shelf := (forcedRemoval_local s c).shelf

@[simp] theorem shelf_bayEvent (c : Circ) : (s.bayEvent c).shelf = s.shelf := by
  unfold State.bayEvent
  dsimp only
  repeat' split
  all_goals simp

@[simp] theorem shelf_bayCompare (c : Circ) : (s.bayCompare c).shelf = s.shelf := by
  unfold State.bayCompare
  split <;> simp

@[simp] theorem shelf_bayChanged (c : Circ) : (s.bayChanged c).shelf = s.shelf := by
  unfold State.bayChanged
  dsimp only
  repeat' split
  all_goals simp

@[simp] theorem shelf_clampLevel (c : Circ) : (s.clampLevel c).shelf = s.shelf := by
  unfold State.clampLevel
  dsimp only
  split <;> simp

@[simp] theorem shelf_codeMoves (c : Circ) : (s.codeMoves c).shelf = s.shelf := by
  unfold State.codeMoves
  dsimp only
  repeat' split
  all_goals simp

@[simp] theorem shelf_calibrationChanged (c : Circ) (old new : Settings) :
    (s.calibrationChanged c old new).shelf = s.shelf := rfl

@[simp] theorem shelf_purgeIntervalSet (c : Circ) : (s.purgeIntervalSet c).shelf = s.shelf := by
  unfold State.purgeIntervalSet
  dsimp only
  split <;> simp

@[simp] theorem shelf_release (c : Circ) : (s.release c).shelf = s.shelf := by
  unfold State.release
  split <;> simp

@[simp] theorem shelf_circuitRestart (c : Circ) : (s.circuitRestart c).shelf = s.shelf := by
  unfold State.circuitRestart
  repeat' split
  all_goals simp

/-! ### Order lines -/

@[simp] theorem shelf_setLine (n : Nat) (f : OrderLine → OrderLine) : (s.setLine n f).shelf = s.shelf := rfl

@[simp] theorem shelf_loadWanted (before : State) : (State.loadWanted before s).shelf = s.shelf := by
  unfold State.loadWanted
  repeat' split
  all_goals simp

@[simp] theorem shelf_endBindings (n : Nat) : (s.endBindings n).shelf = s.shelf := by
  unfold State.endBindings
  split
  · rfl
  · rw [shelf_setLine]
    refine shelf_foldl (fun u e => ?_) _ s
    split <;> simp

@[simp] theorem shelf_leaveBook (n : Nat) (g : LineState) : (s.leaveBook n g).shelf = s.shelf := by
  unfold State.leaveBook
  dsimp only
  split
  · exact shelf_endBindings s n
  · exact shelf_endBindings s n

@[simp] theorem shelf_settleLine (n : Nat) : (s.settleLine n).shelf = s.shelf := by
  unfold State.settleLine
  repeat' split
  all_goals simp

@[simp] theorem shelf_countFinished (n : Nat) (failed : Bool) : (s.countFinished n failed).shelf = s.shelf :=
  by simp [State.countFinished]

@[simp] theorem shelf_holdLine (n : Nat) (h : Hold) : (s.holdLine n h).shelf = s.shelf := rfl

@[simp] theorem shelf_holdWeight (n : Nat) : (s.holdWeight n).shelf = s.shelf := by
  unfold State.holdWeight
  repeat' split
  all_goals simp

@[simp] theorem shelf_holdCircuit (n c : Nat) : (s.holdCircuit n c).shelf = s.shelf := by
  unfold State.holdCircuit
  repeat' split
  all_goals simp

@[simp] theorem shelf_compareLot (id k : Nat) (c : Circ) : (s.compareLot id k c).shelf = s.shelf := by
  unfold State.compareLot
  repeat' split
  all_goals simp

@[simp] theorem shelf_commitMade (e : ColourantEntry) (j : Judged) : (s.commitMade e j).shelf = s.shelf := by
  unfold State.commitMade
  repeat' split
  all_goals simp

@[simp] theorem shelf_commitEnded (e : ColourantEntry) (j : Judged) : (s.commitEnded e j).shelf = s.shelf := by
  unfold State.commitEnded
  repeat' split
  all_goals simp

@[simp] theorem shelf_commitPlan (l : OrderLine) (plan : List Judged) : (s.commitPlan l plan).shelf = s.shelf := by
  unfold State.commitPlan
  rw [shelf_setLine, shelf_foldl (fun u x => by simp), shelf_foldl fun u x => by simp]

@[simp] theorem shelf_enterLine (l : OrderLine) : (s.enterLine l).shelf = s.shelf := rfl

@[simp] theorem shelf_goLine (n : Nat) (g : LineState) : (s.goLine n g).shelf = s.shelf := by
  unfold State.goLine
  repeat' split
  all_goals rfl

@[simp] theorem shelf_failAtZ1 (n : Nat) : (s.failAtZ1 n).shelf = s.shelf := by
  unfold State.failAtZ1
  repeat' split
  all_goals simp

@[simp] theorem shelf_cancelLine (n : Nat) : (s.cancelLine n).shelf = s.shelf := by simp [State.cancelLine]
@[simp] theorem shelf_cutLine (n k : Nat) : (s.cutLine n k).shelf = s.shelf := by simp [State.cutLine]
@[simp] theorem shelf_bookRestart : s.bookRestart.shelf = s.shelf := shelf_foldl (fun u l => by simp) s.bk.lines s

/-! ### Places -/

@[simp] theorem shelf_setUncertain (p : Place) (b : Bool) : (s.setUncertain p b).shelf = s.shelf := rfl
@[simp] theorem shelf_restAt (p : Place) (id : Nat) : (s.restAt p id).shelf = s.shelf := rfl
@[simp] theorem shelf_orphanAt (p : Place) : (s.orphanAt p).shelf = s.shelf := rfl
@[simp] theorem shelf_orphanInLane : s.orphanInLane.shelf = s.shelf := rfl
@[simp] theorem shelf_appeared (p : Place) : (s.appeared p).shelf = s.shelf := rfl
@[simp] theorem shelf_vanished (p : Place) (id : Nat) : (s.vanished p id).shelf = s.shelf := rfl

@[simp] theorem shelf_zoneCompare (p : Place) : (s.zoneCompare p).shelf = s.shelf := by
  unfold State.zoneCompare
  repeat' split
  all_goals simp

@[simp] theorem shelf_holdOrphan (m : Mix) (id : Nat) : (s.holdOrphan m id).shelf = s.shelf := rfl

@[simp] theorem shelf_cradleCompare (m : Mix) : (s.cradleCompare m).shelf = s.shelf := by
  unfold State.cradleCompare
  dsimp only
  repeat' split
  all_goals simp

@[simp] theorem shelf_placeCompare (p : Place) : (s.placeCompare p).shelf = s.shelf := by
  unfold State.placeCompare
  split <;> simp

/-! ### The Lidder -/

@[simp] theorem shelf_setLid (f : Lidder → Lidder) : (s.setLid f).shelf = s.shelf := rfl

@[simp] theorem shelf_bypassTin (id : Nat) (status : LidStatus) : (s.bypassTin id status).shelf = s.shelf :=
  by simp [State.bypassTin]

@[simp] theorem shelf_lidEmpty (id : Nat) (code : Fin 3) : (s.lidEmpty id code).shelf = s.shelf := rfl

@[simp] theorem shelf_noLid (id : Nat) (code : Fin 3) : (s.noLid id code).shelf = s.shelf := by
  have h : (if s.lid.press = .waitingLid then s else s.lidEmpty id code).shelf = s.shelf := by split <;> simp
  unfold State.noLid
  dsimp only
  split
  · exact h
  · rw [shelf_setLid, shelf_bypassTin, h]

@[simp] theorem shelf_lidSearch : s.lidSearch.shelf = s.shelf := by
  unfold State.lidSearch
  repeat' split
  all_goals simp

@[simp] theorem shelf_lidderTake (id : Nat) : (s.lidderTake id).shelf = s.shelf := by
  unfold State.lidderTake
  repeat' split
  all_goals simp

@[simp] theorem shelf_lidderLeave (id : Nat) : (s.lidderLeave id).shelf = s.shelf := by
  unfold State.lidderLeave
  split <;> simp

@[simp] theorem shelf_drawLid (m : Fin 3) : (s.drawLid m).shelf = s.shelf := by
  unfold State.drawLid
  dsimp only
  split <;> simp

@[simp] theorem shelf_startCycle : s.startCycle.shelf = s.shelf := rfl

@[simp] theorem shelf_pressLook : s.pressLook.shelf = s.shelf := by
  unfold State.pressLook
  repeat' split
  all_goals simp

@[simp] theorem shelf_judgeSeat (seated : Bool) : (s.judgeSeat seated).shelf = s.shelf := by
  unfold State.judgeSeat
  repeat' split
  all_goals simp

@[simp] theorem shelf_cycleEnds (seated : Bool) : (s.cycleEnds seated).shelf = s.shelf := by
  unfold State.cycleEnds
  repeat' split
  all_goals simp

@[simp] theorem shelf_abandonCycle : s.abandonCycle.shelf = s.shelf := by
  unfold State.abandonCycle
  split <;> simp

@[simp] theorem shelf_putMagazine (m : Fin 3) (code : Option (Fin 3)) (count : Option Nat) :
    (s.putMagazine m code count).shelf = s.shelf := rfl

@[simp] theorem shelf_lidderRestart : s.lidderRestart.shelf = s.shelf := rfl

/-! ### The Mixers -/

@[simp] theorem shelf_reserveMixer (m : Mix) (id : Nat) : (s.reserveMixer m id).shelf = s.shelf := rfl

@[simp] theorem shelf_mixerChoose : s.mixerChoose.shelf = s.shelf := by
  unfold State.mixerChoose
  repeat' split
  all_goals simp

@[simp] theorem shelf_idleMixer (m : Mix) : (s.idleMixer m).shelf = s.shelf := rfl
@[simp] theorem shelf_flagDoor (m : Mix) (g : MixerState) : (s.flagDoor m g).shelf = s.shelf := rfl

@[simp] theorem shelf_mixerTake (m : Mix) (id : Nat) : (s.mixerTake m id).shelf = s.shelf := by
  unfold State.mixerTake
  repeat' split
  all_goals simp

@[simp] theorem shelf_clampEnds (m : Mix) : (s.clampEnds m).shelf = s.shelf := by
  unfold State.clampEnds
  dsimp only
  split <;> simp

@[simp] theorem shelf_mixEnds (m : Mix) : (s.mixEnds m).shelf = s.shelf := by
  unfold State.mixEnds
  dsimp only
  split <;> simp

@[simp] theorem shelf_brakeEnds (m : Mix) : (s.brakeEnds m).shelf = s.shelf := by
  unfold State.brakeEnds
  dsimp only
  split <;> simp

@[simp] theorem shelf_reachHolding (m : Mix) : (s.reachHolding m).shelf = s.shelf := by
  unfold State.reachHolding
  dsimp only
  repeat' split
  all_goals simp

@[simp] theorem shelf_unclampEnds (m : Mix) : (s.unclampEnds m).shelf = s.shelf := by
  unfold State.unclampEnds
  dsimp only
  split <;> simp

@[simp] theorem shelf_doorOpens (m : Mix) : (s.doorOpens m).shelf = s.shelf := by
  unfold State.doorOpens
  dsimp only
  split <;> simp

@[simp] theorem shelf_mixerStop (m : Mix) : (s.mixerStop m).shelf = s.shelf := rfl

@[simp] theorem shelf_mixerResume (m : Mix) : (s.mixerResume m).shelf = s.shelf := by
  unfold State.mixerResume
  split <;> simp

@[simp] theorem shelf_abortMix (m : Mix) (x : Mixer) : (s.abortMix m x).shelf = s.shelf := by
  unfold State.abortMix
  split <;> simp

@[simp] theorem shelf_holdOrIdle (m : Mix) : (s.holdOrIdle m).shelf = s.shelf := by
  unfold State.holdOrIdle
  split <;> simp

@[simp] theorem shelf_mixerRestart (m : Mix) : (s.mixerRestart m).shelf = s.shelf := by
  unfold State.mixerRestart
  dsimp only
  repeat' split
  all_goals simp

/-! ### The station -/

@[simp] theorem shelf_setStn (f : Station → Station) : (s.setStn f).shelf = s.shelf := rfl
@[simp] theorem shelf_jobIdle : s.jobIdle.shelf = s.shelf := rfl

@[simp] theorem shelf_jobTinRemoved : s.jobTinRemoved.shelf = s.shelf := by
  unfold State.jobTinRemoved
  split <;> simp

@[simp] theorem shelf_oweAttempt : s.oweAttempt.shelf = s.shelf := rfl
@[simp] theorem shelf_beginSettle : s.beginSettle.shelf = s.shelf := rfl
@[simp] theorem shelf_beginPreparing (id : Nat) : (s.beginPreparing id).shelf = s.shelf := rfl
@[simp] theorem shelf_notRun (id k : Nat) : (s.notRun id k).shelf = s.shelf := rfl

@[simp] theorem shelf_handDose (id k : Nat) (e : DoseEntry) (compared : Bool) :
    (s.handDose id k e compared).shelf = s.shelf := by
  unfold State.handDose
  dsimp only
  repeat' split
  all_goals simp

@[simp] theorem shelf_lookEntry (id k : Nat) : (s.lookEntry id k).shelf = s.shelf := by
  unfold State.lookEntry
  repeat' split
  all_goals simp

@[simp] theorem shelf_lookEntries (id : Nat) : (s.lookEntries id).shelf = s.shelf := shelf_foldl (fun u k => by simp) _ s

@[simp] theorem shelf_checkDecided (id : Nat) (v : Verdict) : (s.checkDecided id v).shelf = s.shelf := by
  unfold State.checkDecided
  dsimp only
  split <;> simp

@[simp] theorem shelf_deviation (id e : Nat) (m : Int) : (s.deviation id e m).shelf = s.shelf := by
  unfold State.deviation
  split <;> simp

@[simp] theorem shelf_weighed (id : Nat) (r : Reading) : (s.weighed id r).shelf = s.shelf := by
  unfold State.weighed
  dsimp only
  repeat' split
  all_goals simp

@[simp] theorem shelf_beginWeighing (t : Tin) : (s.beginWeighing t).shelf = s.shelf := by
  unfold State.beginWeighing
  dsimp only
  repeat' split
  all_goals simp

@[simp] theorem shelf_dosingLook (id : Nat) : (s.dosingLook id).shelf = s.shelf := by
  unfold State.dosingLook
  dsimp only
  repeat' split
  all_goals simp

@[simp] theorem shelf_calFinished (q : CalRun) (m : Int) : (s.calFinished q m).shelf = s.shelf := rfl

@[simp] theorem shelf_calWeighing (q : CalRun) : (s.calWeighing q).shelf = s.shelf := by
  unfold State.calWeighing
  split <;> simp

@[simp] theorem shelf_handCal (q : CalRun) : (s.handCal q).shelf = s.shelf := by
  unfold State.handCal
  split <;> simp

@[simp] theorem shelf_calRunning (q : CalRun) : (s.calRunning q).shelf = s.shelf := by
  unfold State.calRunning
  repeat' split
  all_goals simp

@[simp] theorem shelf_calPrepared (q : CalRun) : (s.calPrepared q).shelf = s.shelf := by
  unfold State.calPrepared
  split <;> simp

@[simp] theorem shelf_stationLook : s.stationLook.shelf = s.shelf := by
  unfold State.stationLook
  repeat' split
  all_goals simp

@[simp] theorem shelf_settleEnds (r : Reading) : (s.settleEnds r).shelf = s.shelf := by
  unfold State.settleEnds
  repeat' split
  all_goals simp

@[simp] theorem shelf_capDecide : s.capDecide.shelf = s.shelf := by
  unfold State.capDecide
  repeat' split
  all_goals simp

@[simp] theorem shelf_delayEnds : s.delayEnds.shelf = s.shelf := by
  unfold State.delayEnds
  split <;> simp

@[simp] theorem shelf_admitTin (t : Tin) (l : OrderLine) (plan : List Judged) : (s.admitTin t l plan).shelf = s.shelf := by
  have h (ns : List Note) (id : Nat) (u : State) : (ns.foldl (fun u n => u.noteTin id n) u).shelf = u.shelf :=
    shelf_foldl (f := fun u n => u.noteTin id n) (fun u n => rfl) ns u
  unfold State.admitTin
  dsimp only
  split <;> simp [h]

@[simp] theorem shelf_judgePlan (t : Tin) (l : OrderLine) (plan : List Judged) : (s.judgePlan t l plan).shelf = s.shelf := by
  unfold State.judgePlan
  repeat' split
  all_goals simp

@[simp] theorem shelf_attempt : s.attempt.shelf = s.shelf := by
  unfold State.attempt
  repeat' split
  all_goals simp

@[simp] theorem shelf_attemptLook : s.attemptLook.shelf = s.shelf := by
  unfold State.attemptLook
  split <;> simp

@[simp] theorem shelf_assignScale (m : ScaleMode) : (s.assignScale m).shelf = s.shelf := by
  unfold State.assignScale
  split <;> simp

@[simp] theorem shelf_beginCal (c : Circ) (target n : Nat) : (s.beginCal c target n).shelf = s.shelf := rfl
@[simp] theorem shelf_stationRestart : s.stationRestart.shelf = s.shelf := rfl

/-! ### The track -/

@[simp] theorem shelf_setTrack (f : Track → Track) : (s.setTrack f).shelf = s.shelf := rfl
@[simp] theorem shelf_reserve (p : Place) (id : Nat) : (s.reserve p id).shelf = s.shelf := rfl

@[simp] theorem shelf_reserveNext (src dst : Place) : (s.reserveNext src dst).shelf = s.shelf := by
  unfold State.reserveNext
  repeat' split
  all_goals simp

@[simp] theorem shelf_reserveZ5 : s.reserveZ5.shelf = s.shelf := by
  unfold State.reserveZ5
  repeat' split
  all_goals simp

@[simp] theorem shelf_reservations : s.reservations.shelf = s.shelf := by simp [State.reservations]

@[simp] theorem shelf_arriveAt (p : Place) (id : Nat) : (s.arriveAt p id).shelf = s.shelf := by
  unfold State.arriveAt
  split <;> simp

@[simp] theorem shelf_leftZ2 (id : Nat) : (s.leftZ2 id).shelf = s.shelf := by
  unfold State.leftZ2
  split <;> simp

@[simp] theorem shelf_beginMove (id : Nat) (src dst : Place) : (s.beginMove id src dst).shelf = s.shelf := by
  unfold State.beginMove
  split <;> simp

@[simp] theorem shelf_conveyorLook (src dst : Place) : (s.conveyorLook src dst).shelf = s.shelf := by
  unfold State.conveyorLook
  repeat' split
  all_goals simp

@[simp] theorem shelf_conveyors : s.conveyors.shelf = s.shelf := by simp [State.conveyors]
@[simp] theorem shelf_armNote : s.armNote.shelf = s.shelf := rfl

@[simp] theorem shelf_armGrant : s.armGrant.shelf = s.shelf := by
  unfold State.armGrant
  repeat' split
  all_goals simp

@[simp] theorem shelf_trackLook : s.trackLook.shelf = s.shelf := by simp [State.trackLook]

@[simp] theorem shelf_handOver (id : Nat) (p : Place) : (s.handOver id p).shelf = s.shelf := by
  unfold State.handOver
  repeat' split
  all_goals simp

@[simp] theorem shelf_endReservation (p : Place) : (s.endReservation p).shelf = s.shelf := by
  unfold State.endReservation
  split <;> simp

@[simp] theorem shelf_sourceFree (src : Place) : (s.sourceFree src).shelf = s.shelf := by
  unfold State.sourceFree
  split <;> simp

@[simp] theorem shelf_moveOver (v : Move) : (s.moveOver v).shelf = s.shelf := by simp [State.moveOver]

@[simp] theorem shelf_moveArrives (v : Move) (marks : Nat) : (s.moveArrives v marks).shelf = s.shelf := by
  unfold State.moveArrives
  split <;> simp

@[simp] theorem shelf_arrived (p : Place) (marks : Nat) : (s.arrived p marks).shelf = s.shelf := by
  unfold State.arrived
  split <;> simp

@[simp] theorem shelf_unplace (p : Place) (id : Nat) : (s.unplace p id).shelf = s.shelf := by
  unfold State.unplace
  split <;> simp

@[simp] theorem shelf_moveJams (v : Move) : (s.moveJams v).shelf = s.shelf := by
  unfold State.moveJams
  split <;> simp

@[simp] theorem shelf_jammed (p : Place) : (s.jammed p).shelf = s.shelf := by
  unfold State.jammed
  repeat' split
  all_goals simp

@[simp] theorem shelf_liftTin (id : Nat) : (s.liftTin id).shelf = s.shelf := by
  unfold State.liftTin
  dsimp only
  rw [shelf_dropTin, shelf_setTrack, shelf_foldl fun u p => by simp]

@[simp] theorem shelf_tellRemoved (id : Nat) : (s.tellRemoved id).shelf = s.shelf := by
  unfold State.tellRemoved
  dsimp only
  rw [shelf_foldl, shelf_lidderLeave]
  · split <;> simp
  · intro u m
    split <;> simp

@[simp] theorem shelf_retire (id : Nat) (cause : FinishCause) : (s.retire id cause).shelf = s.shelf := by
  unfold State.retire
  dsimp only
  repeat' split
  all_goals simp

@[simp] theorem shelf_headTaken : s.headTaken.shelf = s.shelf := by
  unfold State.headTaken
  repeat' split
  all_goals simp

@[simp] theorem shelf_reconcileLane : s.reconcileLane.shelf = s.shelf := by
  unfold State.reconcileLane
  dsimp only
  split
  · exact shelf_foldl (fun u id => by simp) _ s
  · exact shelf_foldl (fun u _ => by simp) _ s

@[simp] theorem shelf_laneConfirmed : s.laneConfirmed.shelf = s.shelf := by
  unfold State.laneConfirmed
  dsimp only
  split <;> simp

@[simp] theorem shelf_loadTin (l : OrderLine) : (s.loadTin l).shelf = s.shelf := rfl

@[simp] theorem shelf_clearPair (j : JamPair) : (s.clearPair j).shelf = s.shelf := by
  unfold State.clearPair
  split <;> simp

@[simp] theorem shelf_jamPlaced (j : JamPair) : (s.jamPlaced j).shelf = s.shelf := by
  unfold State.jamPlaced
  split <;> simp

@[simp] theorem shelf_certain (p : Place) : (s.certain p).shelf = s.shelf := by
  unfold State.certain
  dsimp only
  repeat' split
  all_goals simp

@[simp] theorem shelf_lostAt (p : Place) (id : Nat) : (s.lostAt p id).shelf = s.shelf := by
  unfold State.lostAt
  split <;> simp

@[simp] theorem shelf_idleHolding (p : Place) : (s.idleHolding p).shelf = s.shelf := by
  unfold State.idleHolding
  repeat' split
  all_goals simp

@[simp] theorem shelf_clearPlace (p : Place) (id : Nat) : (s.clearPlace p id).shelf = s.shelf := by
  unfold State.clearPlace
  split <;> simp

@[simp] theorem shelf_findOrphans : s.findOrphans.shelf = s.shelf := by
  refine (shelf_foldl (fun u _ => by simp) _ _).trans (shelf_foldl (fun u p => ?_) singlePlaces s)
  split <;> simp

@[simp] theorem shelf_trackRestart : s.trackRestart.shelf = s.shelf := by
  unfold State.trackRestart
  dsimp only
  rw [shelf_findOrphans, shelf_setTrack]

/-! ### Care -/

@[simp] theorem shelf_setCares (f : Care → Care) : (s.setCares f).shelf = s.shelf := rfl

@[simp] theorem shelf_stirBoundary : s.stirBoundary.shelf = s.shelf := by
  refine shelf_forCircuits (fun c u => ?_) _
  split <;> simp

@[simp] theorem shelf_siteMinute : s.siteMinute.shelf = s.shelf := by
  unfold State.siteMinute
  dsimp only
  split
  · rfl
  · split
    · refine shelf_forCircuits (fun c u => ?_) _
      split <;> simp
    · rfl

@[simp] theorem shelf_startStir (x : Circ × Nat) : (s.startStir x).shelf = s.shelf := rfl

@[simp] theorem shelf_stirsLook : s.stirsLook.shelf = s.shelf := by
  refine shelf_foldl (fun u x => ?_) s.cares.due s
  split <;> simp

@[simp] theorem shelf_stirEnds (c : Circ) : (s.stirEnds c).shelf = s.shelf := by
  unfold State.stirEnds
  split <;> simp

@[simp] theorem shelf_askPurge (c : Circ) : (s.askPurge c).shelf = s.shelf := by
  unfold State.askPurge
  split <;> simp

@[simp] theorem shelf_purgesLook : s.purgesLook.shelf = s.shelf := shelf_forCircuits (fun c u => by simp) _
@[simp] theorem shelf_choose : s.choose.shelf = s.shelf := rfl
@[simp] theorem shelf_careLook : s.careLook.shelf = s.shelf := shelf_race s _ (fun u => by simp) fun u => by simp

@[simp] theorem shelf_handLook : s.handLook.shelf = s.shelf := by
  unfold State.handLook
  split
  · exact shelf_race s _ (fun u => by simp) fun u => by simp
  · simp

@[simp] theorem shelf_closedInstant : s.closedInstant.shelf = s.shelf := by
  unfold State.closedInstant
  repeat' split
  all_goals simp

@[simp] theorem shelf_capEnds : s.capEnds.shelf = s.shelf := by
  unfold State.capEnds
  split <;> simp

@[simp] theorem shelf_purgeElapses (c : Circ) : (s.purgeElapses c).shelf = s.shelf := by
  unfold State.purgeElapses
  dsimp only
  split <;> simp

@[simp] theorem shelf_careStop : s.careStop.shelf = s.shelf := shelf_forCircuits (fun c u => by simp) _

@[simp] theorem shelf_careRestart : s.careRestart.shelf = s.shelf := by
  unfold State.careRestart
  dsimp only
  rw [shelf_setCares, shelf_forCircuits fun c u => by simp]

/-! ### The machine as a whole -/

@[simp] theorem shelf_look : s.look.shelf = s.shelf := by simp [State.look]
@[simp] theorem shelf_react : s.react.shelf = s.shelf := by simp [State.react]

@[simp] theorem shelf_stopMachine : s.stopMachine.shelf = s.shelf := by
  unfold State.stopMachine
  dsimp only
  rw [shelf_foldl fun u m => by simp, shelf_abandonCycle, shelf_setTrack, shelf_setStn, shelf_careStop,
    shelf_forCircuits fun c u => by simp]
  rfl

@[simp] theorem shelf_resumeMachine : s.resumeMachine.shelf = s.shelf := by
  unfold State.resumeMachine
  dsimp only
  rw [shelf_foldl fun u m => by simp, shelf_setTrack, shelf_setStn, shelf_forCircuits fun c u => by simp]
  rfl

@[simp] theorem shelf_storeRestart : s.storeRestart.shelf = s.shelf := by
  unfold State.storeRestart
  repeat' split
  all_goals rfl

@[simp] theorem shelf_linkRestart : s.linkRestart.shelf = s.shelf := by
  unfold State.linkRestart
  repeat' split
  all_goals rfl

@[simp] theorem shelf_restartMachine : s.restartMachine.shelf = s.shelf := by
  have h : (mixes.foldl (fun u m => u.mixerRestart m)
      (forCircuits (fun c u => u.pumpRestart c) s).bookRestart.stationRestart.trackRestart.lidderRestart).shelf = s.shelf := by
    rw [shelf_foldl fun u m => by simp, shelf_lidderRestart, shelf_trackRestart, shelf_stationRestart, shelf_bookRestart,
      shelf_forCircuits fun c u => by simp]
  unfold State.restartMachine
  dsimp only
  generalize mixes.foldl (fun (u : State) m => u.mixerRestart m) _ = v at h ⊢
  rw [shelf_linkRestart, shelf_careRestart, shelf_storeRestart, shelf_forCircuits fun c u => by simp]
  exact h

@[simp] theorem shelf_mixerPower (m : Mix) : (s.mixerPower m).shelf = s.shelf := rfl

/-! ### Reception and events -/

@[simp] theorem shelf_setInputs (f : List InEntry → List InEntry) : (s.setInputs f).shelf = s.shelf := rfl

@[simp] theorem shelf_firstCharacter : s.firstCharacter.shelf = s.shelf := by
  unfold State.firstCharacter
  split <;> simp

@[simp] theorem shelf_discarded : s.discarded.shelf = s.shelf := by
  unfold State.discarded
  repeat' split
  all_goals rfl

@[simp] theorem shelf_beginFrame : s.beginFrame.shelf = s.shelf := rfl

@[simp] theorem shelf_sensed (was : Bool) (change : SensorChange) : (State.sensed was change s).shelf = s.shelf := by
  unfold State.sensed
  repeat' split
  all_goals simp

end Sys2Proof.Machine
end

