-- ==== Sys2Proof/Proofs/ShelfSteps.lean ====
section
/-! PROOF SUPPORT. What commands do to the library's slots, the stored records and the writes on their way: link writes with
room for them, with them the slots that they carry, and the free writer's next work. -/

namespace Sys2Proof.Machine

set_option Elab.async false

variable {s t u : State} {fs : Fields}

/-! ### Steps of the shelf -/

/-- One change of the shelf other than the end of a write and power-on (R34, R37, R39, R41). -/
inductive Shelf.Step : Shelf → Shelf → Prop
  | queues (x : Shelf) (r : StoreRecord) (room : x.fifo.length < 8) (plain : ∀ n v, r ≠ .slot n v) :
      Step x { x with fifo := x.fifo ++ [r] }
  | stores (x : Shelf) (n : Nat) (v : Option Formula) (room : x.fifo.length < 8) (hn : slotOk n) :
      Step x { x with slots := putSlot n v x.slots, fifo := x.fifo ++ [.slot n v] }
  | takes (x : Shelf) (w : WriteWork) (e : Nat) (own : ∀ r, w ≠ .link r) : Step x { x with writer := some (w, e) }
  | sends (x : Shelf) (r : StoreRecord) (rest : List StoreRecord) (e : Nat) (front : x.fifo = r :: rest) :
      Step x { x with fifo := rest, writer := some (.link r, e) }

/-- From s to t the shelf has changed by such steps alone. -/
def State.Leads (s t : State) : Prop := Relation.ReflTransGen Shelf.Step s.shelf t.shelf

theorem leads_of_shelf (e : t.shelf = s.shelf) : s.Leads t := by
  rw [State.Leads, e]

theorem State.Leads.trans (h : s.Leads t) (k : t.Leads u) : s.Leads u := Relation.ReflTransGen.trans h k

/-- A change that leaves the shelf follows. -/
theorem State.Leads.congr_right (h : s.Leads t) (e : u.shelf = t.shelf) : s.Leads u := h.trans (leads_of_shelf e)

/-- What a state with the same shelf leads to. -/
theorem State.Leads.congr_left (h : t.Leads u) (e : t.shelf = s.shelf) : s.Leads u := (leads_of_shelf e).trans h

/-- Several link writes, where there is room for all. -/
theorem queues_all (x : Shelf) (rs : List StoreRecord) (room : x.fifo.length + rs.length ≤ 8)
    (plain : ∀ r ∈ rs, ∀ n v, r ≠ .slot n v) : Relation.ReflTransGen Shelf.Step x { x with fifo := x.fifo ++ rs } := by
  induction rs generalizing x with
  | nil => rw [List.append_nil]
  | cons r rs ih =>
    rw [List.length_cons] at room
    have first : Shelf.Step x { x with fifo := x.fifo ++ [r] } :=
      .queues x r (by omega) (plain r List.mem_cons_self)
    have others := ih { x with fifo := x.fifo ++ [r] }
      (by simp only [List.length_append, List.length_singleton]; omega) fun y hy => plain y (List.mem_cons_of_mem r hy)
    rw [List.append_assoc] at others
    exact .head first others

/-- A link write that carries no slot, where there is room. -/
theorem leads_linkWrite {r : StoreRecord} (room : s.linkRoom 1 = true) (plain : ∀ n v, r ≠ .slot n v := by nofun) :
    s.Leads (s.linkWrite r) := .single (.queues s.shelf r (linkRoom_eq_true.mp room) plain)

/-- The free writer's next work, and a busy writer's rest (R41). -/
theorem leads_storeTake (s : State) : s.Leads s.storeTake := by
  have own {t : State} (w : WriteWork) (e : Nat) (hw : ∀ r, w ≠ .link r) (h : t.shelf = { s.shelf with writer := some (w, e) }) :
      s.Leads t := by
    rw [State.Leads, h]
    exact .single (.takes s.shelf w e hw)
  unfold State.storeTake
  split
  · exact leads_of_shelf rfl
  · dsimp only
    split
    · exact own _ _ (by nofun) rfl
    · split
      · exact own _ _ (by nofun) rfl
      · split
        · exact own _ _ (by nofun) rfl
        · split
          · rename_i r rest front
            exact .single (.sends s.shelf r rest _ front)
          · exact leads_of_shelf rfl

/-- The end of a step takes the writer's next work, and leaves the shelf else. -/
theorem leads_conclude (before s : State) : s.Leads (State.conclude before s) := by
  have h : s.Leads (State.loadWanted before s.react).releaseClear := leads_of_shelf (by simp)
  exact (h.trans (leads_storeTake _)).congr_right (shelf_tagBegin _)

/-! ### The answers of requests -/

/-- The change of an answer that is given in state s only leads the shelf on. -/
def Answer.Files (s : State) : Answer → Prop
  | .accept _ f => ∀ u : State, u.shelf = s.shelf → u.circuits = s.circuits → u.Leads (f u)
  | _ => True

@[simp] theorem Answer.files_refuse (r : Reason) : (Answer.refuse r).Files s := trivial
@[simp] theorem Answer.files_report (items : List Item) : (Answer.report items).Files s := trivial

@[simp] theorem Answer.files_check (b : Bool) (r : Reason) (a : Answer) :
    (Answer.check b r a).Files s ↔ (b = false → a.Files s) := by
  cases b <;> simp

@[simp] theorem Answer.files_unless (r : Option Reason) (a : Answer) :
    (Answer.unless r a).Files s ↔ (r = none → a.Files s) := by
  cases r <;> simp

/-- The answer's change leaves the shelf. -/
def Answer.Quiet : Answer → Prop
  | .accept _ f => ∀ u : State, (f u).shelf = u.shelf
  | _ => True

theorem Answer.Quiet.files {a : Answer} (h : a.Quiet) : a.Files s := by
  cases a with
  | accept items f => exact fun u _ _ => leads_of_shelf (h u)
  | _ => trivial

theorem Answer.Reports.quiet {a : Answer} (h : a.Reports) : a.Quiet := by
  cases a with
  | accept => exact h.elim
  | _ => trivial

@[simp] theorem Answer.quiet_refuse (r : Reason) : (Answer.refuse r).Quiet := trivial
@[simp] theorem Answer.quiet_report (items : List Item) : (Answer.report items).Quiet := trivial
@[simp] theorem Answer.quiet_accept (items : List Item) (f : State → State) :
    (Answer.accept items f).Quiet ↔ ∀ u, (f u).shelf = u.shelf := Iff.rfl

@[simp] theorem Answer.quiet_check (b : Bool) (r : Reason) (a : Answer) :
    (Answer.check b r a).Quiet ↔ (b = false → a.Quiet) := by
  cases b <;> simp

@[simp] theorem Answer.quiet_unless (r : Option Reason) (a : Answer) :
    (Answer.unless r a).Quiet ↔ (r = none → a.Quiet) := by
  cases r <;> simp

/-- The answers of the requests whose change leaves the library's slots and the store. -/
def quietAnswers : List (Fields → State → Answer) :=
  [canoutAnswer, fnextAnswer, orderAnswer, holdAnswer, goAnswer, cancelAnswer, calrunAnswer, loadedAnswer,
    clearAnswer, timeAnswer, purgeAnswer, stirAnswer, fclearAnswer, noticeAnswer, resumeAnswer, restartAnswer]

theorem shelf_setLink (s : State) (l : Link) : ({ s with link := l } : State).shelf = s.shelf := rfl

theorem shelf_setCursor (s : State) (n : Nat) : (s.setCursor n).shelf = s.shelf := rfl

theorem quiet_of_mem : ∀ a ∈ quietAnswers, ∀ fs s, (a fs s).Quiet := by
  simp only [quietAnswers, List.forall_mem_cons, List.not_mem_nil, false_imp_iff, implies_true, and_true]
  refine ⟨?_, ?_, ?_, ?_, ?_, ?_, ?_, ?_, ?_, ?_, ?_, ?_, ?_, ?_, ?_, ?_⟩
  all_goals
    intro fs s
    simp only [canoutAnswer, fnextAnswer, orderAnswer, holdAnswer, goAnswer, cancelAnswer, calrunAnswer,
      loadedAnswer, clearAnswer, timeAnswer, purgeAnswer, stirAnswer, fclearAnswer, fclearFlag, State.fclear, noticeAnswer,
      resumeAnswer, restartAnswer, cancelAfterTaken, cancelTaken, State.withLine, State.careRequest, Answer.quiet_check]
    intros
    repeat' split
    all_goals simp [shelf_setLink, shelf_setCursor]

theorem quiet_scale (fs : Fields) (s : State) : (scaleAnswer fs s).Quiet := by
  simp only [scaleAnswer, Answer.quiet_check]
  intro _
  split
  · trivial
  · split
    · trivial
    · simp only [Answer.quiet_check, Answer.quiet_accept]
      intro _ u
      split <;> simp

/-! ### CONFIRM (R151, R152, R156) -/

theorem quiet_confirmJam (s : State) (j : JamPair) : (s.confirmJam j).Quiet := by
  unfold State.confirmJam
  dsimp only
  split <;> simp

theorem quiet_confirmUncertain (s : State) (p : Place) : (s.confirmUncertain p).Quiet := by
  unfold State.confirmUncertain
  split
  · simp
  · split
    · simp only [Answer.quiet_accept]
      intro u
      split <;> simp
    · simp

theorem quiet_confirmZone (s : State) (p : Place) : (s.confirmZone p).Quiet := by
  unfold State.confirmZone
  repeat' split
  all_goals simp

theorem quiet_confirm (fs : Fields) (s : State) : (confirmAnswer fs s).Quiet := by
  simp only [confirmAnswer, Answer.quiet_check]
  intro _
  split
  · trivial
  · simp only [State.confirmLane, Answer.quiet_check]
    intro _
    split
    · exact quiet_confirmJam s _
    · simp
  · simp only [State.confirmPlace, Answer.quiet_check]
    intro _
    split
    · exact quiet_confirmJam s _
    · split
      · exact quiet_confirmUncertain s _
      · exact quiet_confirmZone s _

/-! ### Requests that write (R1, R21, R28 to R37, R91, R133, R168, R170, R207) -/

theorem linkRoom_of_shelf (e : u.shelf = s.shelf) (n : Nat) : u.linkRoom n = s.linkRoom n := by
  have h : u.store.fifo = s.store.fifo := congrArg Shelf.fifo e
  rw [State.linkRoom, h, State.linkRoom]

theorem room_of_not {n : Nat} (e : u.shelf = s.shelf) (h : (!s.linkRoom n) = false) : u.linkRoom n = true :=
  (linkRoom_of_shelf e n).trans (by simpa using h)

/-- An accepted change that is one link write, beside the slots, of a state with the same shelf. -/
theorem Answer.files_of_write {items : List Item} {f : State → State} (room : (!s.linkRoom 1) = false)
    (h : ∀ u : State, ∃ (v : State) (r : StoreRecord), f u = v.linkWrite r ∧ v.shelf = u.shelf ∧ ∀ n w, r ≠ .slot n w) :
    (Answer.accept items f).Files s := by
  intro u hu _
  obtain ⟨v, r, e, hv, plain⟩ := h u
  rw [e]
  exact (leads_of_shelf hv).trans (leads_linkWrite (room_of_not (hv.trans hu) room) plain)

theorem shelf_csetEffect (s : State) (c : Circ) (fs : Fields) (w : TwinChange) :
    (s.csetEffect c fs w).shelf = (s.csetWritten c fs w).shelf := by
  unfold State.csetEffect
  dsimp only
  rw [csetWritten_eq]
  repeat' split
  all_goals simp

/-- An accepted CSET queues the settings of its circuit and of the partners, for which there is room (R2, R39). -/
theorem leads_csetEffect {c : Circ} {w : TwinChange} (fs : Fields)
    (room : s.linkRoom (1 + (w.partners (s.circuit c).cfg).length) = true) : s.Leads (s.csetEffect c fs w) := by
  let rs : List StoreRecord :=
    (c :: w.partners (s.circuit c).cfg).map fun d => .circuit d ((s.csetWritten c fs w).circuit d).cfg
  have hw : (s.csetWritten c fs w).shelf = { s.shelf with fifo := s.shelf.fifo ++ rs } :=
    congrArg State.shelf (csetWritten_frame s c fs w)
  rw [State.Leads, shelf_csetEffect, hw]
  refine queues_all _ _ ?_ ?_
  · have h : s.shelf.fifo.length + (1 + (w.partners (s.circuit c).cfg).length) ≤ 8 := linkRoom_eq_true.mp room
    simp only [rs, List.length_map, List.length_cons]
    omega
  · intro r hr n v e
    obtain ⟨d, -, rfl⟩ := List.mem_map.mp hr
    cases e

theorem files_cset (fs : Fields) (s : State) : (csetAnswer fs s).Files s := by
  simp only [csetAnswer, Answer.files_check]
  intro _
  split
  · trivial
  · simp only [Answer.files_check]
    intro _
    split
    · trivial
    · simp only [Answer.files_check]
      intro _ room u hu hc
      exact leads_csetEffect fs (room_of_not hu (by rwa [circuit_congr hc]))

theorem files_trimEffect {items : List Item} (c : Circ) (t : Int) (room : (!s.linkRoom 1) = false) :
    (Answer.accept items fun u => u.trimEffect c t).Files s :=
  Answer.files_of_write room fun _ => ⟨_, _, rfl, rfl, nofun⟩

theorem files_trim (fs : Fields) (s : State) : (trimAnswer fs s).Files s := by
  simp only [trimAnswer, Answer.files_check]
  intro _
  split
  · trivial
  · split
    · trivial
    · simp only [Answer.files_check]
      exact fun _ room => files_trimEffect _ _ room

theorem files_caltake (fs : Fields) (s : State) : (caltakeAnswer fs s).Files s := by
  simp only [caltakeAnswer, Answer.files_check]
  intro _
  split
  · trivial
  · split
    · trivial
    · simp only [Answer.files_check]
      exact fun room => files_trimEffect _ _ room

theorem files_bset (fs : Fields) (s : State) : (bsetAnswer fs s).Files s := by
  simp only [bsetAnswer, Answer.files_check]
  intro _
  split
  · trivial
  · simp only [Answer.files_check]
    exact fun _ _ _ room => Answer.files_of_write room fun _ => ⟨_, _, rfl, rfl, nofun⟩

theorem files_bdel (fs : Fields) (s : State) : (bdelAnswer fs s).Files s := by
  simp only [bdelAnswer, Answer.files_check]
  intro _
  split
  · trivial
  · split
    · trivial
    · simp only [Answer.files_check]
      exact fun _ room => Answer.files_of_write room fun _ => ⟨_, _, rfl, rfl, nofun⟩

theorem files_sset (fs : Fields) (s : State) : (ssetAnswer fs s).Files s := by
  simp only [ssetAnswer, Answer.files_check]
  intro _
  split
  · trivial
  · simp only [Answer.files_check]
    exact fun _ _ _ room => Answer.files_of_write room fun _ => ⟨_, _, rfl, rfl, nofun⟩

theorem files_sdel (fs : Fields) (s : State) : (sdelAnswer fs s).Files s := by
  simp only [sdelAnswer, Answer.files_check]
  intro _
  split
  · trivial
  · split
    · trivial
    · simp only [Answer.files_check]
      exact fun _ room => Answer.files_of_write room fun _ => ⟨_, _, rfl, rfl, nofun⟩

theorem files_scheme (fs : Fields) (s : State) : (schemeAnswer fs s).Files s := by
  simp only [schemeAnswer, Answer.files_check]
  intro _
  split
  · trivial
  · split
    · trivial
    · simp only [Answer.files_check, Bool.or_eq_false_iff]
      exact fun h => Answer.files_of_write h.2 fun _ => ⟨_, _, rfl, rfl, nofun⟩

theorem files_stirday (fs : Fields) (s : State) : (stirdayAnswer fs s).Files s := by
  simp only [stirdayAnswer, Answer.files_check]
  intro _ _
  split
  · simp only [Answer.files_check]
    exact fun room => Answer.files_of_write room fun _ => ⟨_, _, rfl, rfl, nofun⟩
  · trivial

theorem leads_lidsEffect {code : Option (Fin 3)} (m : Fin 3) (count : Option Nat)
    (room : (code.isSome && !s.linkRoom 1) = false) : s.Leads (s.lidsEffect m code count) := by
  have put : (s.putMagazine m code count).shelf = s.shelf := shelf_putMagazine s m code count
  unfold State.lidsEffect
  cases code with
  | none => exact leads_of_shelf put
  | some k =>
    dsimp only
    split
    · exact leads_of_shelf put
    · exact ((leads_of_shelf put).trans (leads_linkWrite (room_of_not put room))).congr_right (shelf_lidSearch _)

theorem files_lids (fs : Fields) (s : State) : (lidsAnswer fs s).Files s := by
  simp only [lidsAnswer, Answer.files_check]
  intro _
  split
  · trivial
  · simp only [Answer.files_check]
    intro _ room
    split
    · trivial
    · intro u hu _
      exact leads_lidsEffect _ _ (by rwa [linkRoom_of_shelf hu])

theorem files_lidpol (fs : Fields) (s : State) : (lidpolAnswer fs s).Files s := by
  simp only [lidpolAnswer, Answer.files_check]
  intro _
  split
  · trivial
  · split
    · trivial
    · rename_i p _
      simp only [Answer.files_check]
      intro room u hu _
      dsimp only
      split
      · exact leads_of_shelf rfl
      · have policy : (u.setLid fun l => { l with policy := p }).shelf = u.shelf := rfl
        exact ((leads_of_shelf policy).trans (leads_linkWrite (room_of_not (policy.trans hu) room))).congr_right (shelf_lidSearch _)

/-! ### The slots (R34, R37) -/

theorem lowestUnused_ge (k : Nat) (l : List (Nat × Formula)) : k ≤ lowestUnused k l := by
  induction l generalizing k with
  | nil => exact le_refl k
  | cons x l ih =>
    rw [lowestUnused]
    split
    · exact (Nat.le_succ k).trans (ih (k + 1))
    · exact le_refl k

theorem leads_writeSlot {n : Nat} (v : Option Formula) (room : s.linkRoom 1 = true) (hn : slotOk n) :
    s.Leads (s.writeSlot n v) := .single (.stores s.shelf n v (linkRoom_eq_true.mp room) hn)

/-- The slot that an FSTORE writes lies in the library: the one it names, or the lowest unused one, which is FULL beyond. -/
theorem slotOk_of_fstore {free : Nat} (hnum : fs.has "slot" = (fs.num "slot").isSome)
    (hrange : fieldWithin fs "slot" 1 400 = true) (hfree : 1 ≤ free)
    (hfull : (!fs.has "slot" && decide (fs.numD "slot" free > Config.librarySlots)) = false) :
    slotOk (fs.numD "slot" free) := by
  unfold Fields.numD at *
  cases hn : fs.num "slot" with
  | some n => simpa [fieldWithin, hn, within, slotOk] using hrange
  | none =>
    have hle : free ≤ 400 := by simpa [hn, hnum, Config.librarySlots] using hfull
    exact ⟨hfree, hle⟩

theorem files_fstore (fs : Fields) (s : State) : (fstoreAnswer fs s).Files s := by
  simp only [fstoreAnswer, Answer.files_check, Answer.files_unless, Bool.or_eq_false_iff]
  rintro ⟨hform, -⟩ ⟨-, hrange⟩ - hfull room u hu -
  have hn := slotOk_of_fstore (has_eq_isSome_num hform (by simp)) (by simpa using hrange) (lowestUnused_ge 1 s.lib.slots) hfull
  exact leads_writeSlot _ (room_of_not hu room) hn

theorem files_ferase (fs : Fields) (s : State) : (feraseAnswer fs s).Files s := by
  simp only [feraseAnswer, Answer.files_check]
  intro _ hrange _ _ room u hu _
  have hn : slotOk (fs.numD "slot" 0) := by simpa [within, slotOk] using hrange
  exact leads_writeSlot _ (room_of_not hu room) hn

/-! ### Taking a request -/

theorem files_quiet {a : Fields → State → Answer} (fs : Fields) (s : State)
    (h : a ∈ quietAnswers := by simp [quietAnswers]) : (a fs s).Files s := (quiet_of_mem a h fs s).files

theorem files_report {a : Fields → State → Answer} (fs : Fields) (s : State)
    (h : a ∈ reportAnswers := by simp [reportAnswers]) : (a fs s).Files s := (reports_of_mem a h fs s).quiet.files

/-- The change of every request leads the shelf on. -/
theorem files_verb (fs : Fields) (s : State) : ∀ x ∈ verbTable, (x.2 fs s).Files s := by
  simp only [verbTable, List.forall_mem_append, List.forall_mem_cons, List.not_mem_nil, false_imp_iff, implies_true,
    and_true]
  refine ⟨⟨⟨⟨files_cset fs s, files_trim fs s, files_quiet fs s, ?_, files_bset fs s, ?_, files_bdel fs s, files_sset fs s, ?_,
      files_sdel fs s, files_fstore fs s, ?_, files_quiet fs s, files_ferase fs s⟩,
    ?_, ?_, files_quiet fs s, files_quiet fs s, files_quiet fs s, files_quiet fs s, ?_, ?_, ?_, files_scheme fs s, ?_,
      (quiet_scale fs s).files, files_quiet fs s, files_caltake fs s, ?_, ?_⟩,
    files_quiet fs s, (quiet_confirm fs s).files, files_quiet fs s, ?_, ?_, ?_, files_lids fs s, files_lidpol fs s, ?_, ?_, ?_,
      ?_, files_quiet fs s, files_stirday fs s, files_quiet fs s, files_quiet fs s, ?_⟩,
    files_quiet fs s, files_quiet fs s, ?_, files_quiet fs s, files_quiet fs s, ?_⟩
  all_goals exact files_report fs s

theorem files_message (chars : List RxChar) (s : State) : (messageAnswer chars s).Files s := by
  unfold messageAnswer
  dsimp only
  split
  · trivial
  · split
    · trivial
    · split
      · trivial
      · split
        · trivial
        · split
          · trivial
          · split
            · trivial
            · rename_i e
              exact files_verb _ s _ (List.mem_of_find?_eq_some e)

theorem leads_give {a : Answer} (p : Bool) (h : a.Files s) : s.Leads (s.give p a) := by
  cases a with
  | refuse r => exact leads_of_shelf rfl
  | report items => exact leads_of_shelf rfl
  | accept items f => exact ((h (s.pushReply p (.ok items)) rfl rfl).trans (leads_conclude s _)).congr_left rfl

theorem leads_takeEntry (s : State) : s.Leads s.takeEntry := by
  unfold State.takeEntry
  split
  · rename_i k chars _
    exact (leads_give (s := s.setInputs fun es => es.set k .answered) true (files_message chars _)).congr_left rfl
  · exact leads_of_shelf rfl
  · exact leads_of_shelf rfl

theorem leads_takeEntries (s : State) : s.Leads s.takeEntries :=
  (leads_takeEntry s).trans ((leads_takeEntry _).trans ((leads_takeEntry _).trans (leads_takeEntry _)))

theorem leads_received (chars : List RxChar) (s : State) : s.Leads (s.received chars) := by
  unfold State.received
  split
  · exact (leads_takeEntries _).congr_left rfl
  · exact leads_of_shelf rfl

theorem leads_lineSent (s : State) : s.Leads s.lineSent := by
  unfold State.lineSent
  split
  · exact leads_of_shelf rfl
  · exact (leads_takeEntries _).congr_left rfl
  · exact leads_of_shelf rfl

/-! ### The commands -/

/-- What a command leaves follows from s by steps of the shelf. -/
def State.LeadsTo (s : State) (o : Host.Outcome State Fault Refusal) : Prop := ∀ t, o = .next t → s.Leads t

theorem leadsTo_powered {f : State → State} (h : s.Leads (f s)) : s.LeadsTo (whenPowered f s) := by
  rintro t ⟨⟩
  split
  · exact h
  · exact leads_of_shelf rfl

theorem leadsTo_event {f : State → State} (h : (f s).shelf = s.shelf := by simp) : s.LeadsTo (event f s) :=
  leadsTo_powered ((leads_of_shelf h).trans (leads_conclude s _))

theorem leadsTo_inputEvent {f : State → State} {g : Inputs → Inputs}
    (h : ∀ u : State, (f u).shelf = u.shelf := by simp) : s.LeadsTo (inputEvent g f s) := by
  rintro t ⟨⟩
  split
  · exact (leads_conclude _ _).congr_left (h _)
  · exact leads_of_shelf rfl

theorem leadsTo_request {a : Fields → State → Answer} (h : a ∈ verbTable.map (·.2) := by simp [verbTable]) :
    s.LeadsTo (request (a fs) s) := by
  obtain ⟨x, hx, rfl⟩ := List.mem_map.mp h
  exact leadsTo_powered (leads_give false (files_verb fs s x hx))

/-- Every command but a write's end and the two of the power only leads the shelf on. -/
theorem leadsTo_exec {i : Instr} (hw : i ≠ .storeWriteEnd) (hon : ∀ d, i ≠ .powerOn d) (hloss : i ≠ .powerLoss) :
    s.LeadsTo (exec i s) := by
  cases i with
  | powerOn d => exact absurd rfl (hon d)
  | powerLoss => exact absurd rfl hloss
  | storeWriteEnd => exact absurd rfl hw
  | stopInputReleased =>
    rintro t ⟨⟩
    exact leads_of_shelf (by split <;> rfl)
  | frameStart => exact leadsTo_powered (leads_of_shelf (shelf_beginFrame s))
  | slot => exact leadsTo_powered (leads_of_shelf (shelf_nextSlot s))
  | messageFirstCharacter => exact leadsTo_powered (leads_of_shelf (shelf_firstCharacter s))
  | messageDiscarded => exact leadsTo_powered (leads_of_shelf (shelf_discarded s))
  | messageReceived chars => exact leadsTo_powered (leads_received chars s)
  | lineSent => exact leadsTo_powered (leads_lineSent s)
  | stopInputActive => exact show s.LeadsTo (execStopInputActive s) from leadsTo_inputEvent
  | baySwitchChange c closed => exact show s.LeadsTo (execBaySwitchChange c closed s) from leadsTo_inputEvent
  | settleEnd reading => exact show s.LeadsTo (execSettleEnd reading s) from leadsTo_inputEvent
  | arrival dest marks => exact show s.LeadsTo (execArrival dest marks s) from leadsTo_inputEvent
  | zoneDisagreement zone tin => exact show s.LeadsTo (execZoneDisagreement zone tin s) from leadsTo_inputEvent
  | cradleDisagreement m tin => exact show s.LeadsTo (execCradleDisagreement m tin s) from leadsTo_inputEvent
  | headTaken => exact show s.LeadsTo (execHeadTaken s) from leadsTo_inputEvent
  | placeSensorChange x => exact show s.LeadsTo (execPlaceSensorChange x s) from leadsTo_inputEvent
  | pressCycleEnd seated => exact show s.LeadsTo (execPressCycleEnd seated s) from leadsTo_inputEvent
  | guardOpen => exact show s.LeadsTo (execGuardOpen s) from leadsTo_inputEvent
  | guardClose => exact show s.LeadsTo (execGuardClose s) from leadsTo_inputEvent
  | lidSensorChange m lids =>
    exact show s.LeadsTo (execLidSensorChange m lids s) from leadsTo_inputEvent fun u => by split <;> simp
  | doorOpen m => exact show s.LeadsTo (execDoorOpen m s) from leadsTo_inputEvent
  | doorClose m => exact show s.LeadsTo (execDoorClose m s) from leadsTo_inputEvent
  | burstComplete | burstStall | burstTimeout | capMotionEnd | closingDelayExpiry | jam | clampEnd | mixEnd | brakeEnd
  | unclampEnd | stirEnd | stirBoundary | siteMinute | purgeIntervalElapsed | startConditionSeen | stopConditionSeen
  | busLinesHigh | taken | addrAck | addrNak | byteAck | byteNak | lost | lineError | stopSent | pollInterval
  | tagWriteTimeout | busWait =>
    exact leadsTo_event
  | _ => exact leadsTo_request

end Sys2Proof.Machine
end

