-- ==== Sys2Proof/Proofs/StoreInvariants.lean ====
section
/-! O3, O6 and O7: what every step keeps of the library's slots, the stored records and the writes on their way. -/

namespace Sys2Proof.Machine

set_option Elab.async false

variable {s t : State}

/-! ### The end of a write and the power (R38, R43) -/

/-- The shelf with the writer's record stored whole and the writer free. -/
def Shelf.written (x : Shelf) (w : WriteWork) : Shelf := { x with nv := x.nv.write w, writer := none }

/-- The end of a write stores the record, and the writer takes its next work. -/
theorem storeWriteEnd_shelf {w : WriteWork} {ends : Nat} (h : s.store.writer = some (w, ends)) :
    ∃ u : State, u.shelf = s.shelf.written w ∧ u.Leads s.storeWriteEnd := by
  unfold State.storeWriteEnd
  rw [h]
  exact ⟨_, rfl, leads_storeTake _⟩

/-- The shelf of a part that comes up from the records as they are read. -/
def NonVolatile.shelf (nv : NonVolatile) : Shelf := ⟨nv.slots, nv, [], none⟩

theorem powerOn_shelf (s : State) (damaged : List RecordName) :
    (s.powerOn damaged).shelf = (s.store.nv.read damaged).shelf := by
  have h : (s.fromStore (s.store.nv.read damaged) damaged.eraseDups.length).shelf = (s.store.nv.read damaged).shelf := rfl
  unfold State.powerOn
  dsimp only
  rw [shelf_forCircuits fun c u => by simp, shelf_forCircuits fun c u => by split <;> simp,
    shelf_foldl fun u m => by simp, shelf_findOrphans, h]

/-! ### Laws on the shelf -/

/-- A condition on the shelf that every command keeps. -/
structure Shelf.Law (P : Shelf → Prop) : Prop where
  step {x y : Shelf} : Shelf.Step x y → P x → P y
  written {x : Shelf} {w : WriteWork} {e : Nat} : x.writer = some (w, e) → P x → P (x.written w)
  read {x : Shelf} (damaged : List RecordName) : P x → P (x.nv.read damaged).shelf
  lost {x : Shelf} : P x → P ⟨[], x.nv, [], none⟩

theorem State.Leads.keeps {P : Shelf → Prop} (hstep : ∀ {x y : Shelf}, Shelf.Step x y → P x → P y) (h : s.Leads t)
    (hs : P s.shelf) : P t.shelf := by
  have reached {y : Shelf} (h : Relation.ReflTransGen Shelf.Step s.shelf y) : P y := by
    induction h with
    | refl => exact hs
    | tail _ last ih => exact hstep last ih
  exact reached h

/-- Every command keeps such a condition. -/
theorem Shelf.Law.exec {P : Shelf → Prop} (L : Shelf.Law P) {i : Instr} (hs : P s.shelf) (e : exec i s = .next t) :
    P t.shelf := by
  by_cases hw : i = .storeWriteEnd
  · subst hw
    obtain rfl : (if s.powered then s.storeWriteEnd else s) = t := Host.Outcome.next.inj e
    split
    · cases h : s.store.writer with
      | none => rwa [State.storeWriteEnd, h]
      | some x =>
        obtain ⟨u, hu, lead⟩ := storeWriteEnd_shelf h
        exact lead.keeps L.step (hu ▸ L.written h hs)
    · exact hs
  · by_cases hon : ∃ d, i = .powerOn d
    · obtain ⟨d, rfl⟩ := hon
      obtain rfl : State.conclude s (s.powerOn d) = t := Host.Outcome.next.inj e
      exact (leads_conclude s _).keeps L.step (powerOn_shelf s d ▸ L.read d hs)
    · by_cases hloss : i = .powerLoss
      · subst hloss
        obtain rfl : (if s.powered then s.powerLost else s) = t := Host.Outcome.next.inj e
        split
        · exact L.lost hs
        · exact hs
      · exact (leadsTo_exec hw (fun d h => hon ⟨d, h⟩) hloss t e).keeps L.step hs

/-- Every step keeps such a condition. -/
theorem Shelf.Law.steps {P : Shelf → Prop} (L : Shelf.Law P) (hs : P s.shelf) (e : Machine.step s = .next t) : P t.shelf := by
  unfold Machine.step at e
  split at e
  · obtain rfl : s.idleTick = t := Host.Outcome.next.inj e
    exact hs
  · rename_i rest _
    exact L.exec (s := { s with pending := rest }) hs e

/-! ### The link-write FIFO (R39) -/

theorem fifoLaw : Shelf.Law fun x => x.fifo.length ≤ 8 where
  step := by
    intro x y h hx
    cases h with
    | queues r room => rw [List.length_append]; exact room
    | stores n v room => rw [List.length_append]; exact room
    | takes => exact hx
    | sends r rest e front => rw [front] at hx; exact (Nat.le_succ _).trans hx
  written _ hx := hx
  read _ _ := Nat.zero_le _
  lost _ := Nat.zero_le _

/-- Settles O6: the bound on the FIFO is a law on the shelf, and every step keeps such a law. -/
theorem stepKeepsLinkWriteFifo : Obligations.StepKeepsLinkWriteFifo := fun _ _ h e => fifoLaw.steps h e

/-! ### The slots (R34 to R37) -/

/-- A list of used slots in order, each of them in the library. -/
def SlotList (l : List (Nat × Formula)) : Prop := rising l ∧ ∀ x ∈ l, slotOk x.1

theorem slotList_putSlot {n : Nat} {v : Option Formula} {l : List (Nat × Formula)} (h : SlotList l) (hn : slotOk n) :
    SlotList (putSlot n v l) := by
  refine ⟨putSlot_rising n v l h.1, fun x hx => ?_⟩
  rcases putSlot_mem hx with hx | hx
  · exact h.2 x hx
  · rwa [hx]

/-- A slot that becomes unused leaves no other entry. -/
theorem putSlot_none_subset (n : Nat) (l : List (Nat × Formula)) : putSlot n none l ⊆ l := by
  induction l with
  | nil => exact List.Subset.refl []
  | cons y rest ih =>
    obtain ⟨m, g⟩ := y
    rw [putSlot_cons]
    split
    · exact List.Subset.refl _
    · split
      · exact List.subset_cons_self _ _
      · exact List.cons_subset_cons _ ih

theorem slotList_erase {l : List (Nat × Formula)} (n : Nat) (h : SlotList l) : SlotList (putSlot n none l) :=
  ⟨putSlot_rising n none l h.1, fun x hx => h.2 x (putSlot_none_subset n l hx)⟩

/-- Damage to records leaves the slots that can still be read (R43). -/
theorem slotList_damage {nv : NonVolatile} (r : RecordName) (h : SlotList nv.slots) : SlotList (nv.damage r).slots := by
  cases r with
  | slot n => exact slotList_erase n h
  | _ => exact h

theorem slotList_read {nv : NonVolatile} (damaged : List RecordName) (h : SlotList nv.slots) :
    SlotList (nv.read damaged).slots := by
  have hd : SlotList (damaged.foldl NonVolatile.damage nv).slots := by
    induction damaged generalizing nv with
    | nil => exact h
    | cons r rs ih => exact ih (slotList_damage r h)
  unfold NonVolatile.read
  dsimp only
  split <;> exact hd

/-- What the writer stores keeps the stored slots in order. -/
theorem slotList_write {nv : NonVolatile} {w : WriteWork} (h : SlotList nv.slots) (hw : w.slotOk) :
    SlotList (nv.write w).slots := by
  cases w with
  | marker => exact h
  | level => exact h
  | link r =>
    cases r with
    | slot n v =>
      cases v with
      | none => exact slotList_erase n h
      | some f => exact slotList_putSlot h hw
    | _ => exact h

/-- The used slots of the library and of the store in order, and the formulas on their way within the library. -/
structure Shelf.InOrder (x : Shelf) : Prop where
  slots : SlotList x.slots
  stored : SlotList x.nv.slots
  queued : ∀ r ∈ x.fifo, r.slotOk
  writing : ∀ w e, x.writer = some (w, e) → w.slotOk

theorem slotsInv_iff (s : State) : SlotsInv s ↔ s.shelf.InOrder := by
  constructor
  · rintro ⟨hl, hn, hls, hns, hf, hw⟩
    exact ⟨⟨hl, hls⟩, ⟨hn, hns⟩, hf, hw⟩
  · rintro ⟨⟨hl, hls⟩, ⟨hn, hns⟩, hf, hw⟩
    exact ⟨hl, hn, hls, hns, hf, hw⟩

theorem slotOk_plain {r : StoreRecord} (h : ∀ n v, r ≠ .slot n v) : r.slotOk := by
  cases r with
  | slot n v => exact absurd rfl (h n v)
  | _ => trivial

theorem slotLaw : Shelf.Law Shelf.InOrder where
  step := by
    intro x y h hx
    have queued {r : StoreRecord} (hr : r.slotOk) : ∀ q ∈ x.fifo ++ [r], q.slotOk :=
      List.forall_mem_append.mpr ⟨hx.queued, List.forall_mem_singleton.mpr hr⟩
    cases h with
    | queues r _ plain => exact { hx with queued := queued (slotOk_plain plain) }
    | stores n v _ hn =>
      have hr : (StoreRecord.slot n v).slotOk := by
        cases v with
        | none => trivial
        | some f => exact hn
      exact { hx with slots := slotList_putSlot hx.slots hn, queued := queued hr }
    | takes w e own =>
      refine { hx with writing := fun w' e' h => ?_ }
      cases h
      cases w with
      | link r => exact absurd rfl (own r)
      | _ => trivial
    | sends r rest e front =>
      have hall := hx.queued
      rw [front, List.forall_mem_cons] at hall
      refine ⟨hx.slots, hx.stored, hall.2, fun w' e' h => ?_⟩
      cases h
      exact hall.1
  written hw hx := ⟨hx.slots, slotList_write hx.stored (hx.writing _ _ hw), hx.queued, nofun⟩
  read damaged hx := ⟨slotList_read damaged hx.stored, slotList_read damaged hx.stored, nofun, nofun⟩
  lost hx := ⟨⟨.nil, nofun⟩, hx.stored, nofun, nofun⟩

/-- Settles O7: the order of the slots is a law on the shelf, and every step keeps such a law. -/
theorem stepKeepsSlotOrder : Obligations.StepKeepsSlotOrder := by
  intro s t h e
  rw [slotsInv_iff] at h ⊢
  exact slotLaw.steps h e

/-! ### The stored records (R38) -/

/-- No command but a write's end and power-on changes a stored record. -/
theorem exec_nv {i : Instr} (hw : i ≠ .storeWriteEnd) (hon : ∀ d, i ≠ .powerOn d) (e : exec i s = .next t) :
    t.store.nv = s.store.nv := by
  by_cases hloss : i = .powerLoss
  · subst hloss
    obtain rfl : (if s.powered then s.powerLost else s) = t := Host.Outcome.next.inj e
    split <;> rfl
  · have hstep {x y : Shelf} (h : Shelf.Step x y) (hx : x.nv = s.store.nv) : y.nv = s.store.nv := by
      cases h <;> exact hx
    exact (leadsTo_exec hw hon hloss t e).keeps hstep rfl

/-- Settles O3: the stored records by the steps of the shelf, the frame of the end of a step by `settled_conclude`. -/
theorem recordsChangeAtWriteEnd : Obligations.RecordsChangeAtWriteEnd := by
  refine ⟨fun i s t hw hon e => exec_nv hw hon e, fun before s => ?_⟩
  intro t look
  have h : t.settled = s.settled := settled_conclude before s
  simp only [State.settled, Prod.mk.injEq] at h
  obtain ⟨⟨hpending, hpowered, hnow, hstopped, hinp, hlib⟩, hcfg, ⟨hnv, hlost⟩, ⟨hlines, hlast⟩,
    ⟨hscheme, hnext, hslot, hframe, hlent⟩, ⟨hscale, htare, hreading⟩, ⟨hfinished, hpolicy, hmags⟩,
    ⟨hbus, hstopping, -, himages, hresults⟩, ⟨hsite, -, hdaily, horigin, hquarters⟩, hinputs, hoverrun, henabled, -⟩ := h
  have hcodes (m : Fin 3) : t.lid.mags[m].code = s.lid.mags[m].code := by
    have := congrArg (·[m.val]?) hmags
    simpa using this
  exact ⟨rfl, hpending, hpowered, hnow, hstopped, hinp, hlib, fun c => congrFun hcfg c, hnv, hlost, hlines, hlast, hscheme,
    hnext, hslot, hframe, hlent, hscale, htare, hreading, hfinished, hpolicy, hcodes, hbus, hstopping, himages, hresults,
    hsite, hdaily, horigin, hquarters, hinputs, hoverrun, henabled⟩

end Sys2Proof.Machine
end

