-- ==== Sys2Proof/Proofs/StoreWriter.lean ====
section
/-! O25: the end of a write, the writer's next work, and the marker clear of RESTART. -/

namespace Sys2Proof.Machine

set_option Elab.async false

variable {s : State}

/-! ### The dirty levels (R40) -/

/-- The lowest dirty circuit is at the front of the dirty level set. -/
theorem dirtyList_front {t : Store} {c : Circ} (hc : t.dirty[c] = true) (hlow : ∀ d : Circ, d < c → t.dirty[d] = false) :
    ∃ rest, t.dirtyList = c :: rest := by
  have hfind : allCircuits.find? (fun d => t.dirty[d]) = some c := by
    refine List.find?_eq_some_iff_getElem.mpr ⟨hc, c.val, by simp [allCircuits], by simp [allCircuits], fun j hj => ?_⟩
    have hd := hlow ⟨j, hj.trans c.isLt⟩ hj
    simpa [allCircuits] using hd
  cases h : t.dirtyList with
  | nil =>
    rw [← List.head?_filter, ← Store.dirtyList, h] at hfind
    cases hfind
  | cons d rest =>
    rw [← List.head?_filter, ← Store.dirtyList, h, List.head?_cons, Option.some_inj] at hfind
    exact ⟨rest, by rw [hfind]⟩

theorem dirtyList_empty {t : Store} (h : ∀ c : Circ, t.dirty[c] = false) : t.dirtyList = [] :=
  List.filter_eq_nil_iff.mpr fun c _ => by simp [-Fin.getElem_fin, h c]

/-! ### The writer's next work, in the order of R41 -/

/-- The state in which the writer has begun the work w. -/
def State.writing (s : State) (w : WriteWork) (t : Store) : State :=
  { s with store := { t with writer := some (w, s.now + 30000) } }

theorem storeTake_busy (h : s.store.writer ≠ none) : s.storeTake = s := by
  unfold State.storeTake
  split
  · rfl
  · rename_i e
    exact absurd e h

section
variable (hw : s.store.writer = none)
include hw

theorem storeTake_set {m : Marker} (hset : s.store.pendingSet = some m) :
    s.storeTake = s.writing (.marker (some m)) { s.store with pendingSet := none } := by
  simp only [State.storeTake, hw, hset]
  rfl

variable (hset : s.store.pendingSet = none)
include hset

theorem storeTake_level {c : Circ} (hc : s.store.dirty[c] = true) (hlow : ∀ d : Circ, d < c → s.store.dirty[d] = false) :
    s.storeTake = s.writing (.level c (s.circuit c).level) { s.store with dirty := s.store.dirty.set c.val false } := by
  obtain ⟨rest, hdirty⟩ := dirtyList_front hc hlow
  simp only [State.storeTake, hw, hset, hdirty]
  rfl

variable (hclean : ∀ c : Circ, s.store.dirty[c] = false)
include hclean

theorem storeTake_clear (hclear : s.store.pendingClear = true) :
    s.storeTake = s.writing (.marker none) { s.store with pendingClear := false } := by
  simp only [State.storeTake, hw, hset, dirtyList_empty hclean, hclear]
  rfl

theorem storeTake_link (hclear : s.store.pendingClear = false) {r : StoreRecord} {rest : List StoreRecord}
    (hfifo : s.store.fifo = r :: rest) : s.storeTake = s.writing (.link r) { s.store with fifo := rest } := by
  simp only [State.storeTake, hw, hset, dirtyList_empty hclean, hclear, hfifo]
  rfl

theorem storeTake_idle (hclear : s.store.pendingClear = false) (hfifo : s.store.fifo = []) : s.storeTake = s := by
  simp only [State.storeTake, hw, hset, dirtyList_empty hclean, hclear, hfifo]
  rfl

end

/-- The writer's next work leaves all but the store, and of that the stored records and the writes lost. -/
theorem storeTake_keeps (s : State) : Unchanged [.store] s s.storeTake ∧ s.storeTake.store.nv = s.store.nv
    ∧ s.storeTake.store.lost = s.store.lost := by
  have h (t : Store) : Unchanged [.store] s { s with store := t } := by
    refine ⟨rfl, rfl, fun p hp => ?_⟩
    cases p <;> simp [Part.same] at hp ⊢
  unfold State.storeTake
  dsimp only
  repeat' split
  all_goals exact ⟨h _, rfl, rfl⟩

/-! ### The marker clear of RESTART (R44) -/

/-- A run that RESTART cut goes on in a circuit that the marker lists. -/
theorem cutRunsOn_iff (s : State) : s.cutRunsOn = true ↔ ∃ c a,
    (∃ m v, s.store.markerDue = some m ∧ (c, v) ∈ m.vols) ∧ (s.pump c).activity = some a ∧ a.restarted = true := by
  unfold State.cutRunsOn
  cases s.store.markerDue with
  | none => simp
  | some m =>
    simp only [Option.map_some, Option.getD_some, List.any_eq_true, Option.some.injEq]
    constructor
    · rintro ⟨⟨c, v⟩, hv, ha⟩
      cases h : (s.pump c).activity with
      | none => simp [h] at ha
      | some a => exact ⟨c, a, ⟨m, v, rfl, hv⟩, h, by simpa [h] using ha⟩
    · rintro ⟨c, a, ⟨_, v, rfl, hv⟩, h, ha⟩
      exact ⟨(c, v), hv, by simpa [h] using ha⟩

theorem releaseClear_unheld (h : s.store.heldClear = false) : s.releaseClear = s := by
  simp [State.releaseClear, h]

theorem releaseClear_waits (h : s.cutRunsOn = true) : s.releaseClear = s := by
  simp [State.releaseClear, h]

theorem releaseClear_lets (hheld : s.store.heldClear = true) (h : s.cutRunsOn = false) :
    s.releaseClear = { s with store := { s.store with pendingClear := true, heldClear := false } } := by
  simp [State.releaseClear, hheld, h]

/-! ### The end of a write (R38) -/

/-- The state at the end of a write, before the writer takes its next work. -/
def State.stored (s : State) (w : WriteWork) (ends : Nat) : State :=
  { s with now := max s.now ends, store := { s.store with nv := s.store.nv.write w, writer := none } }

theorem stored_unchanged (s : State) (w : WriteWork) (ends : Nat) : Unchanged [.now, .store] s (s.stored w ends) := by
  refine ⟨rfl, rfl, fun p hp => ?_⟩
  cases p <;> simp [Part.same, State.stored] at hp ⊢

theorem exec_storeWriteEnd {w : WriteWork} {ends : Nat} (hp : s.powered = true) (h : s.store.writer = some (w, ends)) :
    exec .storeWriteEnd s = .next (s.stored w ends).storeTake := by
  have e : s.storeWriteEnd = (s.stored w ends).storeTake := by rw [State.storeWriteEnd, h]; rfl
  rw [← e]
  exact whenPowered_on State.storeWriteEnd hp

/-- Settles O25: the end of a write by the state it leaves, and the writer's next work in the order of R41. -/
theorem writeEndStoresAndTakesNext : Obligations.WriteEndStoresAndTakesNext := by
  refine ⟨fun s w ends hp hw => ?_, fun s => ⟨storeTake_busy, fun hw => ⟨fun m => storeTake_set hw, ?_, ?_⟩,
    releaseClear_unheld, ?_⟩⟩
  · let u := s.stored w ends
    obtain ⟨hkept, hnv, hlost⟩ := storeTake_keeps u
    have hnow : u.storeTake.now = u.now := hkept.2.2 .now (by decide)
    have hfree : u.store.writer = none := rfl
    refine ⟨u.storeTake, exec_storeWriteEnd hp hw, ((stored_unchanged s w ends).trans hkept).mono (by decide), hnow, hlost,
      ?_, ?_, ?_, ?_, ?_, ?_, ?_, ?_, ?_, ?_, ?_, ?_⟩
    · rintro m rfl; exact hnv
    · rintro c v rfl; exact hnv
    · rintro c g rfl; exact hnv
    · rintro b v rfl; exact hnv
    · rintro z v rfl; exact hnv
    · rintro n v rfl; exact hnv
    · rintro m rfl; exact hnv
    · rintro p rfl; exact hnv
    · rintro m k rfl; exact hnv
    · rintro d rfl; exact hnv
    · intro m hset
      rw [storeTake_set (s := u) hfree hset]
      exact ⟨rfl, rfl⟩
    · intro hset
      refine ⟨fun c hc hlow => ?_, fun hclean => ⟨fun hclear => ?_, fun hclear => ⟨fun r rest hfifo => ?_, fun hfifo => ?_⟩⟩⟩
      · rw [storeTake_level (s := u) hfree hset hc hlow]
        exact ⟨rfl, rfl⟩
      · rw [storeTake_clear (s := u) hfree hset hclean hclear]
        exact ⟨rfl, rfl⟩
      · rw [storeTake_link (s := u) hfree hset hclean hclear hfifo]
        exact ⟨rfl, rfl⟩
      · rw [storeTake_idle (s := u) hfree hset hclean hclear hfifo]
        exact hfree
  · exact fun c hset => storeTake_level hw hset
  · exact fun hset hclean => ⟨storeTake_clear hw hset hclean, fun hclear =>
      ⟨fun r rest => storeTake_link hw hset hclean hclear, storeTake_idle hw hset hclean hclear⟩⟩
  · intro listed hheld
    refine ⟨fun h => releaseClear_waits ((cutRunsOn_iff s).mpr h), fun h => releaseClear_lets hheld ?_⟩
    refine Bool.eq_false_iff.mpr fun hcut => ?_
    obtain ⟨c, a, hc, ha, hr⟩ := (cutRunsOn_iff s).mp hcut
    exact absurd ((h c a hc ha).symm.trans hr) Bool.false_ne_true

end Sys2Proof.Machine
end

