-- ==== Sys2Proof/Proofs/LibraryRequests.lean ====
section
/-! O23 and O24: the base and size records, and the slots of the library. -/

namespace Sys2Proof.Machine

set_option Elab.async false

variable {s : State} {fs : Fields}

/-! ### Checks -/

theorem fieldWithin_num {key : String} {n lo hi : Nat} (h : fs.num key = some n) (hl : lo ≤ n) (hh : n ≤ hi) :
    fieldWithin fs key lo hi = true := by
  simp [fieldWithin, h, within, hl, hh]

theorem has_of_num {allowed required numeric : List String} {key : String} {n : Nat}
    (h : fs.malformed allowed required numeric = false) (hk : key ∈ numeric) (hn : fs.num key = some n) :
    fs.has key = true := by
  rw [has_eq_isSome_num h hk, hn]
  rfl

theorem linkRoom_one (h : s.store.fifo.length < 8) : s.linkRoom 1 = true := linkRoom_eq_true.mpr h

theorem incomplete_eq_false {absent : Bool} {keys : List String} (h : ∀ k ∈ keys, fs.has k = true) :
    incomplete absent fs keys = false := by
  have hk : keys.any (fun k => !fs.has k) = false := List.any_eq_false.mpr fun k hk => by simp [h k hk]
  rw [incomplete, hk, Bool.and_false]

theorem baseRefs_eq_zero {b : Fin 8} (h : ∀ l ∈ s.bk.lines, l.formula.base ≠ b) : s.baseRefs b = 0 := by
  rw [State.baseRefs, List.length_eq_zero_iff, List.filter_eq_nil_iff]
  exact fun l hl => by simpa using h l hl

theorem sizeRefs_eq_zero {z : Fin 12} (h : ∀ l ∈ s.bk.lines, l.size ≠ z) : s.sizeRefs z = 0 := by
  rw [State.sizeRefs, List.length_eq_zero_iff, List.filter_eq_nil_iff]
  exact fun l hl => by simpa using h l hl

theorem slotRefs_eq_zero {n : Nat} (h : ∀ l ∈ s.bk.lines, l.slot ≠ some n) : s.slotRefs n = 0 := by
  rw [State.slotRefs, List.length_eq_zero_iff, List.filter_eq_nil_iff]
  exact fun l hl => by simpa using h l hl

/-! ### Bases and sizes (R28 to R31) -/

/-- A change of the library, the store and the Counter Link leaves every other part. -/
theorem unchanged_record (s : State) (l : Library) (t : Store) (k : Link) :
    Unchanged [.library, .store, .link] s { s with lib := l, store := t, link := k } := by
  refine ⟨rfl, rfl, fun p hp => ?_⟩
  cases p <;> simp [Part.same] at hp ⊢

/-- A base record written with its reply: the library, the store and the output list. -/
theorem putBase_replied {i : Instr} {a : State → Answer} {b : Fin 8} {v : Option Base} (hi : exec i s = request a s)
    (hp : s.powered = true) (ha : a s = .accept [] fun u => u.putBase b v) :
    ∃ u, exec i s = .next (State.conclude s u)
      ∧ u.lib = { s.lib with bases := s.lib.bases.set b.val v }
      ∧ u.store = { s.store with fifo := s.store.fifo ++ [.base b v] }
      ∧ u.link = s.link.push (.reply false (.ok [])) ∧ Unchanged [.library, .store, .link] s u :=
  ⟨_, hi.trans (request_accepted hp ha), rfl, rfl, rfl, unchanged_record s _ _ _⟩

/-- A size record written with its reply. -/
theorem putSize_replied {i : Instr} {a : State → Answer} {z : Fin 12} {v : Option Size} (hi : exec i s = request a s)
    (hp : s.powered = true) (ha : a s = .accept [] fun u => u.putSize z v) :
    ∃ u, exec i s = .next (State.conclude s u)
      ∧ u.lib = { s.lib with sizes := s.lib.sizes.set z.val v }
      ∧ u.store = { s.store with fifo := s.store.fifo ++ [.size z v] }
      ∧ u.link = s.link.push (.reply false (.ok [])) ∧ Unchanged [.library, .store, .link] s u :=
  ⟨_, hi.trans (request_accepted hp ha), rfl, rfl, rfl, unchanged_record s _ _ _⟩

/-- A BSET that names every field. -/
theorem bset_answer {b : Fin 8} {load mix : Nat} (hm : fs.malformed ["base", "load", "mix"] ["base"] ["load", "mix"] = false)
    (hroom : s.store.fifo.length < 8) (hb : base? fs = some b) (hload : fs.num "load" = some load)
    (hmix : fs.num "mix" = some mix) (hl : 1000 ≤ load ∧ load ≤ 150000) (hx : 1 ≤ mix ∧ mix ≤ 3)
    (hrefs : ∀ l ∈ s.bk.lines, l.formula.base ≠ b) :
    bsetAnswer fs s = .accept [] fun u => u.putBase b (some ⟨load, mix⟩) := by
  have hnamed : ∀ k ∈ ["load", "mix"], fs.has k = true := by
    simp only [List.forall_mem_cons, List.not_mem_nil, false_imp_iff, implies_true, and_true]
    exact ⟨has_of_num hm (by simp) hload, has_of_num hm (by simp) hmix⟩
  simp only [bsetAnswer, hm, hb, incomplete_eq_false hnamed, fieldWithin_num hload hl.1 hl.2, fieldWithin_num hmix hx.1 hx.2,
    baseRefs_eq_zero hrefs, linkRoom_one hroom, numD_of_num hload, numD_of_num hmix, Answer.check_false, Bool.not_true,
    Bool.or_self, bne_self_eq_false]

theorem bdel_answer {b : Fin 8} (hm : fs.malformed ["base"] ["base"] [] = false) (hroom : s.store.fifo.length < 8)
    (hb : base? fs = some b) (hset : s.lib.bases[b] ≠ none) (hrefs : ∀ l ∈ s.bk.lines, l.formula.base ≠ b)
    (hslots : ∀ x ∈ s.lib.slots, x.2.base ≠ b) : bdelAnswer fs s = .accept [] fun u => u.putBase b none := by
  obtain ⟨r, hr⟩ := Option.ne_none_iff_exists'.mp hset
  have hnone : s.lib.slots.any (fun x => x.2.base == b) = false :=
    List.any_eq_false.mpr fun x hx => by simpa using hslots x hx
  simp only [bdelAnswer, hm, hb, hr, baseRefs_eq_zero hrefs, hnone, linkRoom_one hroom, Answer.check_false, Bool.not_true,
    Bool.or_self, bne_self_eq_false]

/-- An SSET that names every field. -/
theorem sset_answer {z : Fin 12} {r : Size}
    (hm : fs.malformed ("size" :: sizeKeys) ["size"] ["vol", "height", "mix1", "mix2", "mix3"] = false)
    (hroom : s.store.fifo.length < 8) (hz : size? fs = some z) (hvol : fs.num "vol" = some r.vol)
    (hheight : fs.num "height" = some r.height) (hlid : (fs.get "lid").bind (code? "L" 3) = some r.lid)
    (hmix1 : fs.num "mix1" = some r.mix1) (hmix2 : fs.num "mix2" = some r.mix2) (hmix3 : fs.num "mix3" = some r.mix3)
    (hv : 250 ≤ r.vol ∧ r.vol ≤ 20000) (hh : 1 ≤ r.height ∧ r.height ≤ 6)
    (hx : ∀ m ∈ [r.mix1, r.mix2, r.mix3], 30 ≤ m ∧ m ≤ 300) (hrefs : ∀ l ∈ s.bk.lines, l.size ≠ z) :
    ssetAnswer fs s = .accept [] fun u => u.putSize z (some r) := by
  simp only [List.forall_mem_cons, List.not_mem_nil, false_imp_iff, implies_true, and_true] at hx
  obtain ⟨hx1, hx2, hx3⟩ := hx
  have hlidHas : fs.has "lid" = true := by
    obtain ⟨t, ht, -⟩ := Option.bind_eq_some_iff.mp hlid
    rw [Fields.has, ht]
    rfl
  have hnamed : ∀ k ∈ sizeKeys, fs.has k = true := by
    simp only [sizeKeys, List.forall_mem_cons, List.not_mem_nil, false_imp_iff, implies_true, and_true]
    exact ⟨has_of_num hm (by simp) hvol, has_of_num hm (by simp) hheight, hlidHas, has_of_num hm (by simp) hmix1,
      has_of_num hm (by simp) hmix2, has_of_num hm (by simp) hmix3⟩
  have hread : fs.unreadable "lid" (code? "L" 3) = false := by
    rw [Fields.unreadable, hlid]
    exact Bool.and_false _
  have hinside : ssetOutside fs = false := by
    simp only [ssetOutside, fieldWithin_num hvol hv.1 hv.2, fieldWithin_num hheight hh.1 hh.2, hread,
      fieldWithin_num hmix1 hx1.1 hx1.2, fieldWithin_num hmix2 hx2.1 hx2.2, fieldWithin_num hmix3 hx3.1 hx3.2, Bool.not_true,
      Bool.or_self]
  have hoverlay (old : Size) : old.overlay fs = r := by
    simp only [Size.overlay, numD_of_num hvol, numD_of_num hheight, named, hlid, numD_of_num hmix1, numD_of_num hmix2,
      numD_of_num hmix3, Option.getD_some]
  simp only [ssetAnswer, hm, hz, incomplete_eq_false hnamed, hinside, sizeRefs_eq_zero hrefs, linkRoom_one hroom, hoverlay,
    Answer.check_false, Bool.not_true, bne_self_eq_false]

theorem sdel_answer {z : Fin 12} (hm : fs.malformed ["size"] ["size"] [] = false) (hroom : s.store.fifo.length < 8)
    (hz : size? fs = some z) (hset : s.lib.sizes[z] ≠ none) (hrefs : ∀ l ∈ s.bk.lines, l.size ≠ z) :
    sdelAnswer fs s = .accept [] fun u => u.putSize z none := by
  obtain ⟨r, hr⟩ := Option.ne_none_iff_exists'.mp hset
  simp only [sdelAnswer, hm, hz, hr, sizeRefs_eq_zero hrefs, linkRoom_one hroom, Answer.check_false, Bool.not_true,
    bne_self_eq_false]

/-- Settles O23: once its checks pass, each of the four requests writes one record with its reply. -/
theorem baseAndSizeRecords : Obligations.BaseAndSizeRecords := by
  intro s fs hp hroom
  refine ⟨fun b load mix hm hb hload hmix h1 h2 h3 h4 hrefs => ?_, fun b hm hb hset hrefs hslots => ?_,
    fun z r hm hz hvol hheight hlid hm1 hm2 hm3 h1 h2 h3 h4 hx hrefs => ?_, fun z hm hz hset hrefs => ?_⟩
  · exact putBase_replied rfl hp (bset_answer hm hroom hb hload hmix ⟨h1, h2⟩ ⟨h3, h4⟩ hrefs)
  · exact putBase_replied rfl hp (bdel_answer hm hroom hb hset hrefs hslots)
  · exact putSize_replied rfl hp (sset_answer hm hroom hz hvol hheight hlid hm1 hm2 hm3 ⟨h1, h2⟩ ⟨h3, h4⟩ hx hrefs)
  · exact putSize_replied rfl hp (sdel_answer hm hroom hz hset hrefs)

/-! ### The slots (R34 to R37) -/

theorem slot?_eq_none_iff {n : Nat} : s.slot? n = none ↔ n ∉ s.lib.slots.map (·.1) := by
  simp only [State.slot?, Option.map_eq_none_iff, List.find?_eq_none, beq_iff_eq, List.mem_map, not_exists, not_and]

theorem mem_of_slot? {n : Nat} {f : Formula} (h : s.slot? n = some f) : (n, f) ∈ s.lib.slots := by
  obtain ⟨x, hx, rfl⟩ := Option.map_eq_some_iff.mp h
  have hn : x.1 = n := by simpa using List.find?_some hx
  exact hn ▸ List.mem_of_find?_eq_some hx

theorem slot?_ne_none {x : Nat × Formula} (h : x ∈ s.lib.slots) : s.slot? x.1 ≠ none :=
  fun e => slot?_eq_none_iff.mp e (List.mem_map_of_mem h)

/-- The lowest unused slot from k on, in a list of used slots from k on. -/
theorem lowestUnused_eq {k n : Nat} {l : List (Nat × Formula)} (hl : rising l) (hk : ∀ x ∈ l, k ≤ x.1) (hkn : k ≤ n)
    (hn : n ∉ l.map (·.1)) (hlow : ∀ m, k ≤ m → m < n → m ∈ l.map (·.1)) : lowestUnused k l = n := by
  induction l generalizing k with
  | nil =>
    refine Nat.le_antisymm hkn (Nat.le_of_not_lt fun h => ?_)
    exact List.not_mem_nil (hlow k (le_refl k) h)
  | cons x l ih =>
    obtain ⟨m, f⟩ := x
    obtain ⟨hm, hrest⟩ := List.pairwise_cons.mp hl
    rw [List.map_cons, List.mem_cons, not_or] at hn
    rw [lowestUnused]
    split
    · rename_i e
      subst e
      refine ih hrest (fun y hy => hm y hy) (by omega) hn.2 fun i hi hin => ?_
      have := hlow i (by omega) hin
      rw [List.map_cons, List.mem_cons] at this
      exact this.resolve_left (by omega)
    · rename_i e
      have hkm : k ≤ m := hk (m, f) List.mem_cons_self
      refine Nat.le_antisymm hkn (Nat.le_of_not_lt fun h => ?_)
      obtain ⟨y, hy, hyk⟩ := List.mem_map.mp (hlow k (le_refl k) h)
      rcases List.mem_cons.mp hy with rfl | hy
      · exact e hyk
      · have := hm y hy
        omega

/-- In a list that rises, the first used slot from k on is the lowest. -/
theorem find?_rising {k : Nat} {l : List (Nat × Formula)} {x y : Nat × Formula} (hl : rising l)
    (hx : l.find? (fun z => k ≤ z.1) = some x) (hy : y ∈ l) (hk : k ≤ y.1) : x.1 ≤ y.1 := by
  induction l with
  | nil => cases hy
  | cons z l ih =>
    obtain ⟨hz, hrest⟩ := List.pairwise_cons.mp hl
    rw [List.find?_cons] at hx
    split at hx
    · obtain rfl := Option.some.inj hx
      rcases List.mem_cons.mp hy with rfl | hy
      · exact le_refl _
      · exact Nat.le_of_lt (hz y hy)
    · rename_i hn
      rcases List.mem_cons.mp hy with rfl | hy
      · simp [hk] at hn
      · exact ih hrest hx hy

/-- A slot written reads as written, and every other slot as before. -/
theorem writeSlot_slot? (hs : rising s.lib.slots) (n m : Nat) (v : Option Formula) :
    (s.writeSlot n v).slot? m = if m = n then v else s.slot? m := putSlot_find n m v s.lib.slots hs

/-- A slot written with its reply. -/
theorem writeSlot_replied {i : Instr} {a : State → Answer} {n : Nat} {v : Option Formula} {items : List Item}
    (hi : exec i s = request a s) (hp : s.powered = true) (hs : rising s.lib.slots)
    (ha : a s = .accept items fun u => u.writeSlot n v) :
    ∃ u, exec i s = .next (State.conclude s u)
      ∧ u.slot? n = v ∧ (∀ m, m ≠ n → u.slot? m = s.slot? m) ∧ u.lib = { s.lib with slots := u.lib.slots }
      ∧ u.store = { s.store with fifo := s.store.fifo ++ [.slot n v] }
      ∧ u.link = s.link.push (.reply false (.ok items)) ∧ Unchanged [.library, .store, .link] s u := by
  have hread (m : Nat) := writeSlot_slot? (s := s.pushReply false (.ok items)) hs n m v
  refine ⟨_, hi.trans (request_accepted hp ha), (hread n).trans (if_pos rfl), fun m hm => (hread m).trans (if_neg hm), rfl, rfl,
    rfl, unchanged_record s _ _ _⟩

theorem fstore_answer {n : Nat} (hm : fs.malformed ["slot", "name", "base", "line"] ["base"] ["slot"] = false)
    (hs : SlotsInv s) (hsyn : inlineSyntax fs = false) (hin : inlineRange fs = false)
    (hrec : s.formulaRefusal (inlineFormula fs) = none) (hroom : s.store.fifo.length < 8)
    (hn : fs.num "slot" = some n ∧ 1 ≤ n ∧ n ≤ 400
      ∨ fs.num "slot" = none ∧ 1 ≤ n ∧ n ≤ 400 ∧ s.slot? n = none ∧ ∀ m, 1 ≤ m → m < n → s.slot? m ≠ none) :
    fstoreAnswer fs s = .accept [.num "slot" n, .word "replaced" (yesNo (s.slot? n).isSome)]
      fun u => u.writeSlot n (some (inlineFormula fs)) := by
  obtain ⟨hrise, -, hok, -⟩ := hs
  have hhas := has_eq_isSome_num hm (key := "slot") (by simp)
  have hslot : fs.numD "slot" (lowestUnused 1 s.lib.slots) = n ∧ fieldWithin fs "slot" 1 400 = true
      ∧ (!fs.has "slot" && decide (n > Config.librarySlots)) = false := by
    rcases hn with ⟨hnum, h1, h2⟩ | ⟨hnum, h1, h2, hfree, hlow⟩
    · exact ⟨numD_of_num hnum _, fieldWithin_num hnum h1 h2, by simp [hhas, hnum]⟩
    · refine ⟨?_, by simp [fieldWithin, hnum], by simpa [hhas, hnum, Config.librarySlots] using h2⟩
      rw [Fields.numD, hnum, Option.getD_none]
      exact lowestUnused_eq hrise (fun x hx => (hok x hx).1) h1 (slot?_eq_none_iff.mp hfree)
        fun m hm1 hmn => not_not.mp fun h => hlow m hm1 hmn (slot?_eq_none_iff.mpr h)
  obtain ⟨hd, hw, hfull⟩ := hslot
  simp only [fstoreAnswer, hm, hsyn, hin, hw, hrec, hd, hfull, linkRoom_one hroom, Answer.check_false, Answer.unless_none,
    Bool.not_true, Bool.or_self]

theorem ferase_answer {n : Nat} (hm : fs.malformed ["slot"] ["slot"] ["slot"] = false) (hn : fs.num "slot" = some n)
    (h1 : 1 ≤ n) (h2 : n ≤ 400) (hset : s.slot? n ≠ none) (hrefs : ∀ l ∈ s.bk.lines, l.slot ≠ some n)
    (hroom : s.store.fifo.length < 8) : feraseAnswer fs s = .accept [] fun u => u.writeSlot n none := by
  have hw : within 1 400 n = true := by simp [within, h1, h2]
  have hused : (s.slot? n).isNone = false := Option.isNone_eq_false_iff.mpr (Option.isSome_iff_ne_none.mpr hset)
  simp only [feraseAnswer, hm, numD_of_num hn, hw, hused, slotRefs_eq_zero hrefs, linkRoom_one hroom, Answer.check_false,
    Bool.not_true, bne_self_eq_false]

theorem fnext_start {start : Nat}
    (hs : fs.num "from" = none ∧ start = max 1 s.lib.cursor ∨ ∃ k, fs.num "from" = some k ∧ k ≤ 400 ∧ start = max 1 k) :
    fieldWithin fs "from" 0 400 = true ∧ max 1 (fs.numD "from" s.lib.cursor) = start := by
  rcases hs with ⟨hnum, rfl⟩ | ⟨k, hnum, hk, rfl⟩
  · exact ⟨by simp [fieldWithin, hnum], by rw [Fields.numD, hnum, Option.getD_none]⟩
  · exact ⟨fieldWithin_num hnum (Nat.zero_le k) hk, by rw [numD_of_num hnum]⟩

theorem fnext_of_some {start n : Nat} {f : Formula} (hm : fs.malformed ["from"] [] ["from"] = false)
    (hw : fieldWithin fs "from" 0 400 = true) (hs : max 1 (fs.numD "from" s.lib.cursor) = start)
    (hf : s.lib.slots.find? (fun x => start ≤ x.1) = some (n, f)) :
    fnextAnswer fs s = .accept (s.slotItems n f) fun u => u.setCursor (n + 1) := by
  simp only [fnextAnswer, hm, hw, hs, hf, Answer.check_false, Bool.not_true]

theorem fnext_of_none {start : Nat} (hm : fs.malformed ["from"] [] ["from"] = false)
    (hw : fieldWithin fs "from" 0 400 = true) (hs : max 1 (fs.numD "from" s.lib.cursor) = start)
    (hf : s.lib.slots.find? (fun x => start ≤ x.1) = none) :
    fnextAnswer fs s = .accept [.bare "EMPTY"] fun u => u.setCursor 401 := by
  simp only [fnextAnswer, hm, hw, hs, hf, Answer.check_false, Bool.not_true]

theorem slot_mem_slotItems (n : Nat) (f : Formula) : .num "slot" n ∈ s.slotItems n f := by
  simp [State.slotItems]

theorem loading_mem_slotItems (n : Nat) (f : Formula) : .num "loading" f.loading ∈ s.slotItems n f := by
  simp [State.slotItems]

/-- The cursor moved with its reply: the library and the output list. -/
theorem unchanged_cursor (s : State) (n : Nat) (r : Reply) :
    Unchanged [.library, .link] s ((s.pushReply false r).setCursor n) := by
  refine ⟨rfl, rfl, fun p hp => ?_⟩
  cases p <;> simp [Part.same, State.setCursor, State.pushReply] at hp ⊢

/-- The first used slot from a start on is the lowest one there. -/
theorem found_is_lowest {start n k : Nat} {f g : Formula} (hs : rising s.lib.slots)
    (hf : s.lib.slots.find? (fun x => start ≤ x.1) = some (k, g)) (hn : s.slot? n = some f) (hle : start ≤ n)
    (hlow : ∀ m, start ≤ m → m < n → s.slot? m = none) : k = n := by
  have hkn : k ≤ n := find?_rising hs hf (mem_of_slot? hn) hle
  have hk : start ≤ k := by simpa using List.find?_some hf
  refine Nat.le_antisymm hkn (Nat.le_of_not_lt fun h => ?_)
  exact slot?_ne_none (List.mem_of_find?_eq_some hf) (hlow k hk h)

/-- Settles O24. FNEXT turns on the search for the first used slot from its start: in a list that rises it is the lowest. -/
theorem librarySlots : Obligations.LibrarySlots := by
  intro s fs hp hs
  refine ⟨fun hm hsyn hin hrec hroom n hn => ?_, fun n hm hn h1 h2 hset hrefs hroom => ?_, fun start hm hstart => ?_⟩
  · exact writeSlot_replied rfl hp hs.1 (fstore_answer hm hs hsyn hin hrec hroom hn)
  · exact writeSlot_replied rfl hp hs.1 (ferase_answer hm hn h1 h2 hset hrefs hroom)
  · obtain ⟨hw, hd⟩ := fnext_start hstart
    cases hf : s.lib.slots.find? (fun x => start ≤ x.1) with
    | some x =>
      obtain ⟨k, g⟩ := x
      refine ⟨_, request_accepted hp (fnext_of_some hm hw hd hf), fun n f hn hle hlow => ?_, fun hnone => ?_, rfl,
        unchanged_cursor s _ _⟩
      · obtain rfl := found_is_lowest hs.1 hf hn hle hlow
        exact ⟨rfl, _, rfl, slot_mem_slotItems _ _⟩
      · exact absurd (hnone k (by simpa using List.find?_some hf)) (slot?_ne_none (List.mem_of_find?_eq_some hf))
    | none =>
      refine ⟨_, request_accepted hp (fnext_of_none hm hw hd hf), fun n f hn hle _ => ?_, fun _ => ⟨rfl, rfl⟩, rfl,
        unchanged_cursor s _ _⟩
      have := List.find?_eq_none.mp hf _ (mem_of_slot? hn)
      simp [hle] at this

end Sys2Proof.Machine
end

