-- ==== Sys2Proof/Proofs/RecordReports.lean ====
section
/-! O17: the reports of one record. -/

namespace Sys2Proof.Machine

set_option Elab.async false

variable {s : State} {fs : Fields}

/-! ### Bases, sizes and slots (R29, R31, R35) -/

theorem bread_empty {b : Fin 8} (hm : fs.malformed ["base"] ["base"] [] = false) (hb : base? fs = some b)
    (hr : s.lib.bases[b] = none) : breadAnswer fs s = .report [.bare "EMPTY"] := by
  simp only [breadAnswer, hm, hb, hr, Answer.check_false]

theorem bread_record {b : Fin 8} {r : Base} (hm : fs.malformed ["base"] ["base"] [] = false) (hb : base? fs = some b)
    (hr : s.lib.bases[b] = some r) : breadAnswer fs s
      = .report [.word "base" (baseName b), .num "load" r.load, .num "mix" r.mixClass, .num "refs" (s.baseRefs b)] := by
  simp only [breadAnswer, hm, hb, hr, Answer.check_false]

theorem sread_empty {z : Fin 12} (hm : fs.malformed ["size"] ["size"] [] = false) (hz : size? fs = some z)
    (hr : s.lib.sizes[z] = none) : sreadAnswer fs s = .report [.bare "EMPTY"] := by
  simp only [sreadAnswer, hm, hz, hr, Answer.check_false]

theorem sread_record {z : Fin 12} {r : Size} (hm : fs.malformed ["size"] ["size"] [] = false) (hz : size? fs = some z)
    (hr : s.lib.sizes[z] = some r) : sreadAnswer fs s
      = .report [.num "vol" r.vol, .num "height" r.height, .word "lid" (lidName r.lid), .num "mix1" r.mix1,
          .num "mix2" r.mix2, .num "mix3" r.mix3, .num "refs" (s.sizeRefs z)] := by
  simp only [sreadAnswer, hm, hz, hr, Answer.check_false]

theorem fread_unused {n : Nat} (hm : fs.malformed ["slot"] ["slot"] ["slot"] = false) (hn : fs.num "slot" = some n)
    (hle : n ≤ 400) (hr : s.slot? n = none) : freadAnswer fs s = .report [.bare "EMPTY", .num "slot" n] := by
  have hw : decide (n > Config.librarySlots) = false := decide_eq_false (Nat.not_lt.mpr hle)
  simp only [freadAnswer, hm, numD_of_num hn, hw, hr, Answer.check_false]

theorem fread_used {n : Nat} {f : Formula} (hm : fs.malformed ["slot"] ["slot"] ["slot"] = false)
    (hn : fs.num "slot" = some n) (hle : n ≤ 400) (hr : s.slot? n = some f) :
    freadAnswer fs s = .report (s.slotItems n f) := by
  have hw : decide (n > Config.librarySlots) = false := decide_eq_false (Nat.not_lt.mpr hle)
  simp only [freadAnswer, hm, numD_of_num hn, hw, hr, Answer.check_false]

/-! ### LREAD (R86) -/

theorem within_eq_true {lo hi n : Nat} (hl : lo ≤ n) (hh : n ≤ hi) : within lo hi n = true := by
  simp [within, hl, hh]

theorem withLine_of_line? {n : Nat} {l : OrderLine} {allowed numeric : List String} {next : Nat → OrderLine → Answer}
    (hm : fs.malformed allowed ["line"] numeric = false) (hn : fs.num "line" = some n) (h1 : 1 ≤ n) (h2 : n ≤ 65535)
    (hl : s.line? n = some l) : s.withLine fs allowed numeric next = next n l := by
  simp only [State.withLine, hm, numD_of_num hn, within_eq_true h1 h2, hl, Answer.check_false, Bool.not_true]

/-! ### PREVIEW (R59) -/

/-- The line's tin of index k stands at Z1, and is no orphan. -/
def State.StandsAtZ1 (s : State) (n k : Nat) : Prop := ∃ t, s.tinAt .z1 = some t ∧ t.order = some (n, k) ∧ t.stage ≠ .orphan

theorem indexAtZ1_eq_some_iff {n k : Nat} : s.indexAtZ1 n = some k ↔ s.StandsAtZ1 n k := by
  unfold State.indexAtZ1 State.StandsAtZ1
  cases s.tinAt .z1 with
  | none => simp
  | some t =>
    rcases ho : t.order with _ | ⟨m, i⟩
    · simp [ho]
    · simp only [ho, Option.ite_none_right_eq_some, Option.some.injEq, exists_eq_left', Prod.mk.injEq]
      exact ⟨fun ⟨⟨hm, hs⟩, hi⟩ => ⟨⟨hm, hi⟩, hs⟩, fun ⟨⟨hm, hi⟩, hs⟩ => ⟨⟨hm, hs⟩, hi⟩⟩

theorem indexAtZ1_eq_none_iff {n : Nat} : s.indexAtZ1 n = none ↔ ∀ k, ¬s.StandsAtZ1 n k := by
  simp only [← indexAtZ1_eq_some_iff, Option.eq_none_iff_forall_ne_some, ne_eq]

/-- A list mapped beside its own pairs. -/
theorem map_zip_map_zip {α β γ δ : Type} (f : α × β → γ) (g : α → γ → δ) (l : List α) (m : List β) :
    (l.zip ((l.zip m).map f)).map (fun x => g x.1 x.2) = (l.zip m).map fun x => g x.1 (f x) := by
  induction l generalizing m with
  | nil => rfl
  | cons a l ih =>
    cases m with
    | nil => rfl
    | cons b m => simp only [List.zip_cons_cons, List.map_cons, ih]

/-- What PREVIEW shows of the tin of index k. -/
def State.previewItems (s : State) (l : OrderLine) (k : Nat) : List Item :=
  [.num "tin" k, .word "last" (yesNo (k == l.limit))] ++ (l.formula.lines.zip l.entries).map fun x =>
    s.previewDose x.1.1 (s.judge x.2 x.1 (s.sizeVol l.size) (k == l.limit))

theorem preview_answer {n : Nat} {l : OrderLine} (hm : fs.malformed ["line"] ["line"] ["line"] = false)
    (hn : fs.num "line" = some n) (h1 : 1 ≤ n) (h2 : n ≤ 65535) (hl : s.line? n = some l) :
    previewAnswer fs s
      = .check (l.state == .cancelled || ((s.indexAtZ1 n).isNone && decide (l.limit ≤ l.released))) .state
          (.report (s.previewItems l ((s.indexAtZ1 n).getD (l.released + 1)))) := by
  have hdoses (k : Nat) := map_zip_map_zip (fun x => s.judge x.2 x.1 (s.sizeVol l.size) (k == l.limit))
    (fun a j => s.previewDose a.1 j) l.formula.lines l.entries
  simp only [previewAnswer, State.plan, hm, numD_of_num hn, within_eq_true h1 h2, hl, Answer.check_false, Bool.not_true,
    hdoses]
  rfl

theorem preview_refused {n : Nat} {l : OrderLine} (hm : fs.malformed ["line"] ["line"] ["line"] = false)
    (hn : fs.num "line" = some n) (h1 : 1 ≤ n) (h2 : n ≤ 65535) (hl : s.line? n = some l)
    (h : l.state = .cancelled ∨ l.limit ≤ l.released ∧ ∀ k, ¬s.StandsAtZ1 n k) : previewAnswer fs s = .refuse .state := by
  rw [preview_answer hm hn h1 h2 hl]
  rcases h with hc | ⟨hrel, hno⟩
  · rw [hc, beq_self_eq_true, Bool.true_or, Answer.check_true]
  · rw [indexAtZ1_eq_none_iff.mpr hno, decide_eq_true hrel, Option.isNone_none, Bool.and_self, Bool.or_true, Answer.check_true]

theorem preview_report {n k : Nat} {l : OrderLine} (hm : fs.malformed ["line"] ["line"] ["line"] = false)
    (hn : fs.num "line" = some n) (h1 : 1 ≤ n) (h2 : n ≤ 65535) (hl : s.line? n = some l) (hc : l.state ≠ .cancelled)
    (h : s.StandsAtZ1 n k ∨ l.released < l.limit ∧ (∀ i, ¬s.StandsAtZ1 n i) ∧ k = l.released + 1) :
    previewAnswer fs s = .report (s.previewItems l k) := by
  rw [preview_answer hm hn h1 h2 hl, beq_eq_false_iff_ne.mpr hc, Bool.false_or]
  rcases h with hk | ⟨hrel, hno, rfl⟩
  · rw [indexAtZ1_eq_some_iff.mpr hk, Option.isNone_some, Bool.false_and, Answer.check_false, Option.getD_some]
  · rw [indexAtZ1_eq_none_iff.mpr hno, decide_eq_false (Nat.not_le.mpr hrel), Bool.and_false, Answer.check_false,
      Option.getD_none]

/-! ### TREAD and FLIST (R162) -/

theorem tread_live {n : Nat} {t : Tin} (hm : fs.malformed ["tin"] ["tin"] ["tin"] = false) (hn : fs.num "tin" = some n)
    (h1 : 1 ≤ n) (h2 : n ≤ 255) (ht : s.tin? n = some t) : treadAnswer fs s
      = .report ([.word "live" "YES", .parts "place" (s.standingAtoms n)] ++ t.items t.stage.name) := by
  simp only [treadAnswer, hm, numD_of_num hn, within_eq_true h1 h2, ht, Answer.check_false, Bool.not_true]

theorem tread_finished {n : Nat} {f : Finished} (hm : fs.malformed ["tin"] ["tin"] ["tin"] = false)
    (hn : fs.num "tin" = some n) (h1 : 1 ≤ n) (h2 : n ≤ 255) (ht : s.tin? n = none)
    (hf : s.track.finished.find? (fun g => g.tin.id == n) = some f) : treadAnswer fs s
      = .report ([.word "live" "NO", .parts "place" [.word "FINISHED", .word f.cause.name]] ++ f.tin.items f.stage) := by
  simp only [treadAnswer, hm, numD_of_num hn, within_eq_true h1 h2, ht, hf, Answer.check_false, Bool.not_true]

theorem tread_unknown {n : Nat} (hm : fs.malformed ["tin"] ["tin"] ["tin"] = false) (hn : fs.num "tin" = some n)
    (h1 : 1 ≤ n) (h2 : n ≤ 255) (ht : s.tin? n = none)
    (hf : s.track.finished.find? (fun g => g.tin.id == n) = none) : treadAnswer fs s = .refuse .notFound := by
  simp only [treadAnswer, hm, numD_of_num hn, within_eq_true h1 h2, ht, hf, Answer.check_false, Bool.not_true]

/-- The fields of a tin record that section 7.7 names, with the entries of its doses. -/
def Tin.named (t : Tin) (stage : String) : List Item :=
  [ .parts "line" [.opt (t.order.map (·.1))], .parts "index" [.opt (t.order.map (·.2))],
    .word "size" ((t.size.map sizeName).getD "NONE"), .word "base" ((t.base.map baseName).getD "NONE"),
    .word "stage" stage, notesItem t.notes ] ++ t.entries.map DoseEntry.item

/-- A reply that shows a tin record behind what stands before shows its named fields there. -/
theorem named_after_subset (front : List Item) (t : Tin) (stage : String) :
    front ++ t.named stage ⊆ front ++ t.items stage := by
  intro x hx
  simp only [Tin.named, Tin.items, List.mem_append, List.mem_cons] at hx ⊢
  tauto

/-- The newest record of an id. -/
theorem find?_newest {newer older : List Finished} {f : Finished} {n : Nat} (hid : f.tin.id = n)
    (hnew : ∀ g ∈ newer, g.tin.id ≠ n) : (newer ++ f :: older).find? (fun g => g.tin.id == n) = some f := by
  rw [List.find?_append, List.find?_eq_none.mpr (by simpa using hnew), Option.none_or]
  exact List.find?_cons_of_pos (beq_iff_eq.mpr hid)

theorem flist_answer {k : Nat} (hm : fs.malformed ["from"] [] ["from"] = false)
    (hw : fieldWithin fs "from" 1 Config.finishedPlaces = true) (hk : fs.numD "from" 1 = k) : flistAnswer fs s
      = .report (.num "count" s.track.finished.length :: (s.track.finished.drop (k - 1)).map Finished.item) := by
  simp only [flistAnswer, hm, hw, hk, Answer.check_false, Bool.not_true, List.singleton_append]

/-! ### The settlement -/

/-- Settles O17, report by report from the answers above. -/
theorem reportsOfOneRecord : Obligations.ReportsOfOneRecord := by
  intro s fs hp
  refine ⟨fun b hm hb => ?bread, fun z hm hz => ?sread, fun n hm hn hle => ?fread, fun n l hm hn h1 h2 hl => ⟨?lread, ?preview⟩,
    fun n hm hn h1 h2 => ?tread, ?flist⟩
  case bread =>
    cases hr : s.lib.bases[b] with
    | none => exact request_reports hp (bread_empty hm hb hr)
    | some r => exact request_reports hp (bread_record hm hb hr)
  case sread =>
    cases hr : s.lib.sizes[z] with
    | none => exact request_reports hp (sread_empty hm hz hr)
    | some r => exact request_reports hp (sread_record hm hz hr)
  case fread =>
    cases hr : s.slot? n with
    | none => exact ⟨_, request_reports hp (fread_unused hm hn hle hr), fun _ => rfl, nofun⟩
    | some f =>
      refine ⟨_, request_reports hp (fread_used hm hn hle hr), nofun, fun g hg => ?_⟩
      obtain rfl := Option.some.inj hg
      exact ⟨loading_mem_slotItems n f, slot_mem_slotItems n f⟩
  case lread =>
    refine ⟨_, request_reports (answer := lreadAnswer fs) hp (withLine_of_line? hm hn h1 h2 hl), ?_⟩
    simp
  case preview =>
    refine ⟨fun h => request_refused hp (preview_refused hm hn h1 h2 hl h), fun hc => ⟨fun k hk => ?_, fun hrel hno => ?_⟩⟩
    · exact request_reports hp (preview_report hm hn h1 h2 hl hc (.inl hk))
    · exact request_reports hp (preview_report hm hn h1 h2 hl hc (.inr ⟨hrel, hno, rfl⟩))
  case tread =>
    refine ⟨fun t ht => ⟨_, request_reports hp (tread_live hm hn h1 h2 ht), ?_⟩, fun newer f older ht hfin hid hnew => ?_,
      fun ht hall => request_refused hp (tread_unknown hm hn h1 h2 ht ?_)⟩
    · exact named_after_subset _ t _
    · refine ⟨_, request_reports hp (tread_finished hm hn h1 h2 ht (hfin ▸ find?_newest hid hnew)), ?_⟩
      exact named_after_subset _ f.tin _
    · simpa [List.find?_eq_none] using hall
  case flist =>
    refine ⟨fun h => ?_, fun k hm hk h1 h2 => ?_⟩
    · subst h
      exact request_reports hp (flist_answer rfl rfl rfl)
    · exact request_reports hp (flist_answer hm (fieldWithin_num hk h1 h2) (numD_of_num hk 1))

end Sys2Proof.Machine
end

