-- ==== Sys2Proof/Proofs/WholeReports.lean ====
section
/-! O15: the reports without fields. -/

namespace Sys2Proof.Machine

set_option Elab.async false

variable {s : State}

/-! ### The key of a reply field -/

@[simp] theorem Item.key_num (k : String) (n : Nat) : (Item.num k n).key = k := rfl
@[simp] theorem Item.key_int (k : String) (i : Int) : (Item.int k i).key = k := rfl
@[simp] theorem Item.key_word (k w : String) : (Item.word k w).key = k := rfl
@[simp] theorem Item.key_parts (k : String) (v : List Atom) : (Item.parts k v).key = k := rfl
@[simp] theorem Item.key_field (k : String) (v : List (List Atom)) : (Item.field k v).key = k := rfl
@[simp] theorem Item.key_bare (w : String) : (Item.bare w).key = w := rfl

@[simp] theorem Item.key_listOrNone (k : String) (v : List (List Atom)) : (Item.listOrNone k v).key = k := by
  unfold Item.listOrNone
  split <;> rfl

@[simp] theorem placeItem_key (p : Place) : (s.placeItem p).key = "place" := rfl

@[simp] theorem wantedItem_key : s.wantedItem.key = "wanted" := by
  unfold State.wantedItem
  split <;> rfl

/-! ### A report of the whole -/

/-- A report that leads with certain keys and holds certain facts. -/
theorem report_of_whole {a : State → Answer} {i : Instr} {items facts : List Item} {keys : List String}
    (hi : exec i s = request a s) (hp : s.powered = true) (ha : a s = .report items)
    (hk : keys <+: items.map Item.key) (hf : facts ⊆ items) :
    ∃ items : List Item, exec i s = .next { s with link := s.link.push (.reply false (.ok items)) }
      ∧ keys <+: items.map Item.key ∧ facts ⊆ items :=
  ⟨items, hi.trans (request_reports hp ha), hk, hf⟩

theorem nvstat_keys (t : Store) :
    ["writer", "marker", "pending", "tins", "circuits", "dirty", "fifo", "lost"] <+: t.statusItems.map Item.key := by
  rcases h : t.writer with _ | ⟨w, e⟩
  · simp [Store.statusItems, h]
  · cases w <;> simp [Store.statusItems, h]

/-- What WANTED shows: the wanted tin with the height of its size, or EMPTY, and whether Z1 holds a tin. -/
def State.wantedShown (s : State) : List Item :=
  let z1 : Item := .word "z1" (if s.z1Holds then "OCCUPIED" else "FREE")
  match s.wantedLine with
  | none => [.bare "EMPTY", z1]
  | some l => l.wantedItems ++ [.num "height" ((s.lib.sizes[l.size].map (·.height)).getD 0), z1]

theorem wanted_answer (s : State) : wantedAnswer [] s = .report s.wantedShown := by
  unfold wantedAnswer State.wantedShown
  cases s.wantedLine <;> rfl

/-- What CALREAD shows: the run in flight, else the held result, or EMPTY. -/
def State.calShown (s : State) : List Item :=
  match s.stn.cal, s.calResult with
  | some q, _ => [.word "run" "YES", .num "circuit" (circNo q.circuit), .num "vol" q.target, .num "n" q.steps,
      .num "delivered" (s.calDelivered q), .word "job" s.stn.job.name]
  | none, some r => [.num "circuit" (circNo r.circuit), .num "vol" r.target, .num "n" r.steps, .num "delivered" r.delivered,
      .int "mass" r.mass, .parts "trim" [.optInt r.trim], .word "status" r.status.name,
      .word "cause" (match r.status with
        | .failed c => c.name
        | _ => "NONE")]
  | none, none => [.bare "EMPTY"]

theorem calread_answer (s : State) : calreadAnswer [] s = .report s.calShown := by
  unfold calreadAnswer State.calShown
  rcases s.stn.cal with _ | q
  · rcases s.calResult with _ | r <;> rfl
  · rfl

/-- Settles O15: each report is one fixed list of fields, so its keys and facts are read off it. -/
theorem reportsOfTheWhole : Obligations.ReportsOfTheWhole := by
  intro s hp
  simp only [List.forall_mem_cons, List.not_mem_nil, false_imp_iff, implies_true, and_true]
  refine ⟨?nvstat, ?wanted, ?book, ?calread, ?station, ?zones, ?lidder, ?mixers, ?tagbus, ?care, ?flags, ?state⟩
  case nvstat =>
    exact report_of_whole rfl hp (a := nvstatAnswer []) rfl (nvstat_keys s.store) (by simp [Store.statusItems])
  case wanted =>
    refine report_of_whole rfl hp (wanted_answer s) ?_ ?_
    · unfold State.wantedShown
      cases s.wantedLine <;> simp [OrderLine.wantedItems]
    · unfold State.wantedShown State.z1Holds OrderLine.wantedItems
      cases s.wantedLine with
      | none => exact List.cons_subset.mpr ⟨.tail _ (.head _), List.nil_subset _⟩
      | some l => exact (List.perm_append_singleton _ [_, _, _, _, _]).symm.subset
  case book => exact report_of_whole rfl hp (a := bookAnswer []) rfl (by simp) (by simp)
  case calread =>
    refine report_of_whole rfl hp (calread_answer s) ?_ ?_
    · unfold State.calShown
      rcases s.stn.cal with _ | q
      · rcases s.calResult with _ | r <;> simp
      · simp
    · unfold State.calShown
      rcases s.stn.cal with _ | q
      · rcases s.calResult with _ | r
        · exact List.nil_subset _
        · exact List.Subset.refl _
      · exact List.Subset.refl _
  case station => exact report_of_whole rfl hp (a := stationAnswer []) rfl (by simp) (by simp)
  case zones => exact report_of_whole rfl hp (a := zonesAnswer []) rfl (by simp [singlePlaces]) (by simp)
  case lidder => exact report_of_whole rfl hp (a := lidderAnswer []) rfl ⟨[], rfl⟩ (by simp)
  case mixers => exact report_of_whole rfl hp (a := mixersAnswer []) rfl ⟨[], rfl⟩ (List.Subset.refl _)
  case tagbus => exact report_of_whole rfl hp (a := tagbusAnswer []) rfl (by simp) (by simp)
  case care =>
    refine report_of_whole rfl hp (a := careAnswer []) rfl ?_ (by simp)
    cases s.cares.siteTime <;> simp
  case flags => exact report_of_whole rfl hp (a := flagsAnswer []) rfl (by simp) (by simp [Link.waiting])
  case state => exact report_of_whole rfl hp (a := stateAnswer []) rfl (by simp) (by simp)

end Sys2Proof.Machine
end

