-- ==== Sys2Proof/Proofs/CalibrationResults.lean ====
section
/-! O39: the result of a calibration run, and what a CSET makes of a run in flight and of a held result. -/

namespace Sys2Proof.Machine

set_option Elab.async false

/-! ### The trim of a result (R61, R62) -/

/-- The rounded quotient lies within half a unit of the exact one, a half going up. -/
theorem roundHalfAway_bounds {a b : Nat} (hb : 0 < b) :
    2 * (roundHalfAway a b * b) ≤ 2 * a + b ∧ 2 * a < 2 * (roundHalfAway a b * b) + b := by
  have hmod := Nat.mod_lt (2 * a + b) (show 0 < 2 * b by omega)
  have hdiv := Nat.div_add_mod' (2 * a + b) (2 * b)
  have hassoc : (2 * a + b) / (2 * b) * (2 * b) = 2 * (roundHalfAway a b * b) := by
    rw [roundHalfAway, Nat.mul_left_comm]
  omega

/-- The trim before it is clamped is the nearest whole number to 1024 × steps × density ÷ (K × mass) − 1024. -/
theorem newTrim_nearest {steps density k : Nat} {m : Int} (hk : 0 < k) (hm : 0 < m) :
    let t := newTrim steps density k m.toNat
    (2 * (t + 1024) - 1) * (k * m) ≤ 2 * (1024 * steps * density)
      ∧ 2 * (1024 * steps * density) < (2 * (t + 1024) + 1) * (k * m) := by
  intro t
  have hpos : 0 < k * m.toNat := Nat.mul_pos hk (by omega)
  obtain ⟨hlow, hhigh⟩ := roundHalfAway_bounds (a := 1024 * steps * density) hpos
  have ht : t + 1024 = (roundHalfAway (1024 * steps * density) (k * m.toNat) : Nat) := by
    simp only [t, newTrim]
    omega
  have hmass : (m.toNat : Int) = m := Int.toNat_of_nonneg hm.le
  rw [ht]
  generalize roundHalfAway (1024 * steps * density) (k * m.toNat) = r at hlow hhigh
  zify at hlow hhigh
  rw [hmass] at hlow hhigh
  constructor <;> linarith

/-- Whether a value lies in its range is whether clamping leaves it. -/
theorem clampInt_eq_self_iff (lo hi v : Int) (h : lo ≤ hi) : clampInt lo hi v = v ↔ lo ≤ v ∧ v ≤ hi := by
  unfold clampInt
  omega

section
variable (q : CalRun) (m : Int)

theorem result_of_short (h : q.delivered < q.steps) :
    q.result m = ⟨q.circuit, q.target, q.steps, q.delivered, m, none, .failed .shortRun⟩ := if_pos h

variable (hs : q.steps ≤ q.delivered)
include hs

theorem result_of_light (h : m < 1000) :
    q.result m = ⟨q.circuit, q.target, q.steps, q.delivered, m, none, .failed .lowMass⟩ := by
  simp only [CalRun.result, if_neg (Nat.not_lt.mpr hs), if_pos h]

variable (hm : 1000 ≤ m)
include hm

theorem result_of_changed (h : q.changed = true) :
    q.result m = ⟨q.circuit, q.target, q.steps, q.delivered, m, none, .failed .changed⟩ := by
  simp only [CalRun.result, if_neg (Nat.not_lt.mpr hs), if_neg (Int.not_lt.mpr hm), if_pos h]

theorem result_of_trim (h : q.changed = false) :
    let t := newTrim q.steps q.density q.k m.toNat
    q.result m = ⟨q.circuit, q.target, q.steps, q.delivered, m, some (max (-63) (min 63 t)),
      if -63 ≤ t ∧ t ≤ 63 then .ok else .outOfRange⟩ := by
  simp only [CalRun.result, if_neg (Nat.not_lt.mpr hs), if_neg (Int.not_lt.mpr hm), h, Bool.false_eq_true, if_false,
    clampInt_eq_self_iff (-63) 63 _ (by decide)]
  rfl

end

/-- A result names its run, whatever comes of it. -/
theorem result_names (q : CalRun) (m : Int) : (q.result m).circuit = q.circuit ∧ (q.result m).target = q.target
    ∧ (q.result m).steps = q.steps ∧ (q.result m).delivered = q.delivered ∧ (q.result m).mass = m := by
  unfold CalRun.result
  dsimp only
  repeat' split
  all_goals exact ⟨rfl, rfl, rfl, rfl, rfl⟩

/-! ### The run in flight (R61) -/

/-- What a calibration run keeps as it goes on: all but the steps delivered and its way to the Drive Frame. -/
def CalRun.begun (q : CalRun) : CalRun := { q with delivered := 0, handing := .notYet }

/-- What the calibration run in flight keeps. -/
def State.calBegun (s : State) : Option CalRun := s.stn.cal.map CalRun.begun

theorem begun_eq_iff (q x : CalRun) : x.begun = q.begun ↔ x.circuit = q.circuit ∧ x.target = q.target
    ∧ x.steps = q.steps ∧ x.k = q.k ∧ x.density = q.density ∧ x.changed = q.changed := by
  simp [CalRun.begun]

variable {c : Circ} {s t : State} {fs : Fields} {w : TwinChange}

theorem calBegun_of_cal (h : t.stn.cal = s.stn.cal) : t.calBegun = s.calBegun := congrArg (Option.map CalRun.begun) h

/-- A change of the run that it does not keep. -/
theorem calBegun_map {f : CalRun → CalRun} (h : ∀ q, (f q).begun = q.begun) :
    (s.stn.cal.map f).map CalRun.begun = s.calBegun := by
  rw [Option.map_map, State.calBegun]
  exact congrArg (s.stn.cal.map ·) (funext h)

theorem calBegun_refused (s : State) (c : Circ) : (s.refused c).calBegun = s.calBegun := by
  unfold State.refused State.refuseNext
  split
  · rfl
  · dsimp only
    split
    · rfl
    · exact calBegun_map fun _ => rfl
    · rfl

theorem calBegun_toldCut (a : Activity) (w : CutCause) : (s.toldCut c a w).calBegun = s.calBegun := by
  have hclear (u : State) : (u.clearIntervalDue c).calBegun = u.calBegun := by
    obtain ⟨-, -, -, -, hcal, -⟩ := account_iff.mp (account_clearIntervalDue (s := u) (c := c))
    exact calBegun_of_cal hcal
  have hdose (u : State) (id k v : Nat) (w : EndCause) : (u.doseEnded c id k a v w).calBegun = u.calBegun := by
    rw [doseEnded_eq]
    dsimp only
    repeat' split
    all_goals rfl
  have htell (u : State) (v : Nat) : (u.tellOwner c a v (.cut w)).calBegun = u.calBegun := by
    have hend : State.calBegun { u with stn := { u.stn with cal := u.stn.cal.map fun q =>
        if q.circuit = c ∧ q.handing = .handed then { q with delivered := a.delivered, handing := .ended } else q } }
        = u.calBegun := calBegun_map fun q => by split <;> rfl
    unfold State.tellOwner
    split
    · dsimp only
      split
      · exact hdose ..
      · rw [hclear, hdose]
    · dsimp only
      split
      · exact hend
      · rw [hclear, hend]
    · rfl
    · rfl
  obtain ⟨-, hcal, -⟩ := toldCut_before (c := c) (s := s) a 0
  exact (htell _ _).trans (calBegun_of_cal hcal)

/-- A forced removal may end the dose of the run or send it back to be asked again, and leaves what the run began with. -/
theorem calBegun_forcedRemoval (s : State) (c : Circ) : (s.forcedRemoval c).calBegun = s.calBegun := by
  obtain ⟨-, -, -, hcal, -⟩ := forcedRemoval_account s c
  refine (calBegun_of_cal hcal).trans ?_
  have hr := calBegun_refused s c
  cases ha : (s.pump c).activity with
  | none => rw [pumpRemoved_idle ha, hr]
  | some a =>
    by_cases hb : (s.pump c).burst = none
    · by_cases hk : a.kind = .refill
      · rw [pumpRemoved_refill ha hb hk]
        exact hr
      · rw [pumpRemoved_run ha hb hk, calBegun_toldCut]
        exact hr
    · rw [pumpRemoved_burst ha hb]
      exact hr

theorem calBegun_bayEvent (s : State) (c : Circ) : (s.bayEvent c).calBegun = s.calBegun := by
  rcases bayEvent_cases s c with ⟨-, e⟩ | ⟨-, -, e⟩ | ⟨-, -, e⟩ | ⟨-, -, -, e⟩ <;> rw [e]
  · rfl
  · rfl
  · rfl
  · exact calBegun_forcedRemoval _ c

/-! ### The run under a CSET (R61) -/

theorem csetMoved_cal (s : State) (c : Circ) (fs : Fields) (w : TwinChange) :
    (s.csetMoved c fs w).stn.cal = s.stn.cal := by
  have hmove (u : State) (g : CircuitState) : (u.moveCircuit c g).stn.cal = u.stn.cal := by
    obtain ⟨-, -, -, -, hcal, -⟩ := account_iff.mp (account_moveCircuit (s := u) (c := c) g)
    exact hcal
  have hcode (u : State) : (u.codeMoves c).stn.cal = u.stn.cal := by
    unfold State.codeMoves
    dsimp only
    split
    · exact hmove u _
    · split
      · exact hmove u _
      · rfl
  have hclamp (u : State) : (u.clampLevel c).stn.cal = u.stn.cal := by
    unfold State.clampLevel
    dsimp only
    split <;> rfl
  rw [State.csetMoved, hcode, hclamp, csetWritten_frame]

/-- The run counts as changed where the new settings of its circuit differ in K or density. -/
def CalRun.remeasured (q : CalRun) (c : Circ) (old new : Settings) : CalRun :=
  if q.circuit = c ∧ (old.k != new.k || old.density != new.density) = true then { q with changed := true } else q

theorem tuned_cal (s : State) (c : Circ) (fs : Fields) (old : Settings) :
    (s.tuned c fs old).stn.cal = s.stn.cal.map fun q => q.remeasured c old (s.circuit c).cfg := by
  have hlow : (s.evaluated c fs).stn.cal = s.stn.cal := by
    have h1 : (if fs.has "low" then s.lowEvaluate c else s).stn.cal = s.stn.cal := by
      obtain ⟨-, -, hstn, -⟩ := lowEvaluate_keeps s c
      split
      · rw [hstn]
      · rfl
    have h2 (u : State) : (if fs.has "reserve" then u.emptyCheckReserve c else u).stn.cal = u.stn.cal := by
      obtain ⟨-, -, -, -, hcal, -⟩ := account_iff.mp (account_emptyCheckReserve (s := u) (c := c))
      split
      · exact hcal
      · rfl
    exact (h2 _).trans h1
  have hpurge (u : State) : (u.purgeIntervalSet c).stn.cal = u.stn.cal := by
    obtain ⟨-, -, -, -, hclear, -⟩ := account_iff.mp (account_clearPurgeDue (s := u) (c := c))
    obtain ⟨-, -, -, -, htest, -⟩ := account_iff.mp (account_purgeTest (s := u) (c := c))
    unfold State.purgeIntervalSet
    dsimp only
    split
    · exact hclear
    · exact htest
  have hcfg : ((s.evaluated c fs).circuit c).cfg = (s.circuit c).cfg := (tuned_evaluated s c fs).confined.cfg
  have htuned : (s.purgeTuned c fs old).stn.cal
      = ((s.evaluated c fs).calibrationChanged c old (s.circuit c).cfg).stn.cal := by
    unfold State.purgeTuned
    dsimp only
    rw [hcfg]
    split
    · exact hpurge _
    · rfl
  have hdue : (s.tuned c fs old).stn.cal = (s.purgeTuned c fs old).stn.cal := by
    unfold State.tuned
    dsimp only
    split <;> rfl
  rw [hdue, htuned, ← hlow]
  rfl

/-- What a CSET makes of the run in flight. -/
theorem csetEffect_calBegun (s : State) (c : Circ) (fs : Fields) (w : TwinChange) : (s.csetEffect c fs w).calBegun
    = s.stn.cal.map fun q => (q.remeasured c (s.circuit c).cfg ((s.csetEffect c fs w).circuit c).cfg).begun := by
  have hcfg : ((s.csetEffect c fs w).circuit c).cfg = ((s.csetMoved c fs w).circuit c).cfg :=
    ((tuned_csetTuned s c fs w).confined.trans (confined_csetEffect_tuned s c fs w)).cfg
  have htuned : (s.csetTuned c fs w).calBegun
      = s.stn.cal.map fun q => (q.remeasured c (s.circuit c).cfg ((s.csetMoved c fs w).circuit c).cfg).begun := by
    rw [State.calBegun, State.csetTuned, tuned_cal, csetMoved_cal, Option.map_map]
    rfl
  rw [hcfg, ← htuned]
  rcases csetEffect_cases s c fs w with e | e <;> rw [e]
  exact calBegun_bayEvent _ c

/-- Whether K or the density of the circuit differ after the request. -/
def Settings.remeasures (g : Settings) (fs : Fields) : Prop :=
  (fs.num "k").getD g.k ≠ g.k ∨ (fs.num "density").getD g.density ≠ g.density

theorem csetEffect_measure (s : State) (c : Circ) (fs : Fields) (w : TwinChange) :
    ((s.circuit c).cfg.k ≠ ((s.csetEffect c fs w).circuit c).cfg.k
        ∨ (s.circuit c).cfg.density ≠ ((s.csetEffect c fs w).circuit c).cfg.density)
      ↔ (s.circuit c).cfg.remeasures fs := by
  rw [(confined_csetEffect s c fs w).cfg, csetWritten_cfg]
  exact or_congr ne_comm ne_comm

/-- The run in flight after a CSET: changed where K or the density of its circuit were, with the values it began with. -/
theorem csetEffect_cal {q : CalRun} (fs : Fields) (w : TwinChange) (hq : s.stn.cal = some q) :
    ∃ q', (s.csetEffect c fs w).stn.cal = some q'
      ∧ (q'.changed = true ↔ q.changed = true ∨ q.circuit = c ∧ (s.circuit c).cfg.remeasures fs)
      ∧ q'.circuit = q.circuit ∧ q'.k = q.k ∧ q'.density = q.density ∧ q'.steps = q.steps := by
  have h := csetEffect_calBegun s c fs w
  have hm := csetEffect_measure s c fs w
  rw [hq, Option.map_some, State.calBegun] at h
  obtain ⟨q', hq', hb⟩ := Option.map_eq_some_iff.mp h
  obtain ⟨hc, -, hs, hk, hd, hch⟩ := (begun_eq_iff _ _).mp hb
  refine ⟨q', hq', ?_⟩
  rw [← hm, hc, hs, hk, hd, hch]
  unfold CalRun.remeasured
  split
  · rename_i he
    simp only [Bool.or_eq_true, bne_iff_ne] at he
    exact ⟨iff_of_true rfl (.inr he), rfl, rfl, rfl, rfl⟩
  · rename_i he
    simp only [Bool.or_eq_true, bne_iff_ne] at he
    exact ⟨(or_iff_left he).symm, rfl, rfl, rfl, rfl⟩

theorem csetEffect_no_cal (fs : Fields) (w : TwinChange) (hq : s.stn.cal = none) :
    (s.csetEffect c fs w).stn.cal = none := by
  have h := csetEffect_calBegun s c fs w
  rw [hq] at h
  exact Option.map_eq_none_iff.mp h

/-! ### The held result under a CSET (R62) -/

/-- NONE alone removes a code. -/
theorem colourant?_eq_none_iff (x : Text) : colourant? x = some none ↔ x = txt "NONE" := by
  unfold colourant?
  split
  · simp_all
  · split <;> simp_all

/-- The code of circuit c is removed where the request gives NONE, and only there. -/
theorem codeAfter_removed (h : (s.circuit c).cfg.code ≠ none) :
    s.codeAfter c fs = none ↔ fs.get "code" = some (txt "NONE") := by
  unfold State.codeAfter named
  cases hx : fs.get "code" with
  | none => simpa using h
  | some x =>
    rw [Option.bind_some, Option.some_inj, ← colourant?_eq_none_iff]
    cases colourant? x with
    | none => simpa using h
    | some y => simp

/-- A held result stays where neither K, nor the density, nor the code of its circuit goes. -/
theorem csetEffect_kept (r : CalResult) (fs : Fields) (w : TwinChange) :
    ¬r.kept c (s.circuit c).cfg ((s.csetEffect c fs w).circuit c).cfg ↔ r.circuit = c ∧ ((s.circuit c).cfg.remeasures fs
      ∨ (s.circuit c).cfg.code ≠ none ∧ fs.get "code" = some (txt "NONE")) := by
  have hcode : ((s.csetEffect c fs w).circuit c).cfg.code = s.codeAfter c fs := by
    rw [(confined_csetEffect s c fs w).cfg, csetWritten_cfg]
    rfl
  rw [CalResult.kept, not_not, ← or_assoc, csetEffect_measure, hcode]
  exact and_congr_right fun _ => or_congr_right (and_congr_right codeAfter_removed)

/-- Settles O39: the result by its causes in their order, the run in flight and the held result through the stages of an
accepted CSET. -/
theorem calibrationResult : Obligations.CalibrationResult := by
  refine ⟨?_, ?_⟩
  · intro q m r
    obtain ⟨hc, ht, hs, hd, hm⟩ := result_names q m
    refine ⟨hc, ht, hs, hd, hm, fun h => ?_, fun h hl => ?_, fun h hl hch => ?_, fun h hl hch hk => ?_⟩
    · simp only [r, result_of_short q m h, and_self]
    · simp only [r, result_of_light q m h hl, and_self]
    · simp only [r, result_of_changed q m h hl hch, and_self]
    · obtain ⟨hlow, hhigh⟩ := newTrim_nearest (steps := q.steps) (density := q.density) hk (show 0 < m by omega)
      refine ⟨_, hlow, hhigh, ?_⟩
      simp only [r, result_of_trim q m h hl hch, and_self]
  · intro s fs c tw hp hm hc ho hcons htw hhind hroom g measure
    have hans := cset_settled hm hc ho hcons htw
    rw [hhind, linkRoom_eq_true.mpr hroom] at hans
    refine ⟨_, request_accepted hp hans, ?_⟩
    generalize (if fs.has "nmin" then [(s.circuit c).applied] else [] : List Item) = items
    let s0 : State := s.pushReply false (.ok items)
    obtain ⟨habsent, hheld⟩ := csetEffect_calResult s0 c fs tw
    refine ⟨fun q hq => csetEffect_cal (s := s0) fs tw hq, csetEffect_no_cal (s := s0) fs tw, habsent, fun x hx => ?_⟩
    obtain ⟨hkeep, hdrop⟩ := hheld x hx
    rw [csetEffect_kept] at hdrop
    refine ⟨fun hxc h => hdrop ⟨hxc, h⟩, fun h => hkeep (not_not.mp fun hn => ?_)⟩
    obtain ⟨hxc, hgone⟩ := (csetEffect_kept x fs tw).mp hn
    obtain ⟨hnm, hcode⟩ := h.resolve_left (not_not.mpr hxc)
    obtain ⟨hfitted, hnone⟩ := hgone.resolve_left hnm
    exact hcode.elim hfitted fun h => h hnone

end Sys2Proof.Machine
end

