-- ==== Sys2Proof/Proofs/DosePlans.lean ====
section
/-! PROOF SUPPORT. The arithmetic of one dose (R46 to R50), and the outcome of one colourant line (R52 to R56). -/

namespace Sys2Proof.Machine

set_option Elab.async false

/-! ### Steps and residues (R47 to R50) -/

section
variable {target r nmin : Nat}

theorem planSteps_planned (last : Bool) (h : nmin ≤ (target + r) / 1024000000) : planSteps target r nmin last
    = ⟨(target + r) / 1024000000, .planned, none, if last then none else some ((target + r) % 1024000000)⟩ := by
  have hmod : (target + r) % 1024000000 = target + r - (target + r) / 1024000000 * 1024000000 := Nat.mod_eq_sub_div_mul
  rw [hmod]
  exact if_pos h

variable (h : (target + r) / 1024000000 < nmin)
include h

theorem planSteps_deferred : planSteps target r nmin false = ⟨0, .deferred, none, some (target + r)⟩ := by
  rw [planSteps, Config.doseDivisor]
  exact (if_neg (Nat.not_le.mpr h)).trans (if_pos rfl)

/-- Below the minimum dose the last tin has nothing due, the whole minimum dose, or nothing for too little. -/
theorem planSteps_last : planSteps target r nmin true
    = if (target + r) / 1024000000 = 0 then ⟨0, .noneDue, none, none⟩
      else if nmin ≤ 2 * ((target + r) / 1024000000) then
        ⟨nmin, .minAdjust, some ((nmin : Int) - ((target + r) / 1024000000 : Nat)), none⟩
      else ⟨0, .minAdjust, some (-((target + r) / 1024000000 : Nat)), none⟩ := by
  have hhalf (n : Nat) : (nmin + 1) / 2 ≤ n ↔ nmin ≤ 2 * n := by omega
  simp only [planSteps, Config.doseDivisor, if_neg (Nat.not_le.mpr h), Bool.not_true, Bool.false_eq_true, if_false, hhalf]

end

/-- What is issued and what is carried on make up what was due, and less than the minimum dose is carried on (R47). -/
theorem planSteps_residue {target r nmin r' : Nat} {last : Bool} (hn : 1 ≤ nmin)
    (h : (planSteps target r nmin last).residue = some r') :
    (planSteps target r nmin last).steps * 1024000000 + r' = target + r ∧ r' < nmin * 1024000000 := by
  by_cases hw : nmin ≤ (target + r) / 1024000000
  · rw [planSteps_planned last hw] at h ⊢
    cases last with
    | true => cases h
    | false =>
      obtain rfl := Option.some.inj h
      dsimp only
      omega
  · rw [Nat.not_le] at hw
    cases last with
    | true =>
      rw [planSteps_last hw] at h
      repeat' split at h
      all_goals cases h
    | false =>
      rw [planSteps_deferred hw] at h ⊢
      obtain rfl := Option.some.inj h
      dsimp only
      omega

/-! ### Serving circuits (R18, R53) -/

variable {s : State} {e : ColourantEntry} {c : Circ} {code : Text}

theorem holders_eq_nil_iff : s.holders code = [] ↔ ∀ c : Circ, (s.circuit c).cfg.code ≠ some code := by
  simp [State.holders, allCircuits]

/-- The lowest-numbered holder of a code stands first. -/
theorem holders_head? (hc : (s.circuit c).cfg.code = some code)
    (hlow : ∀ d : Circ, d < c → (s.circuit d).cfg.code ≠ some code) : (s.holders code).head? = some c := by
  rw [State.holders, List.head?_filter]
  refine List.find?_eq_some_iff_getElem.mpr ⟨by simp [hc], c.val, by simp [allCircuits], by simp [allCircuits], fun j hj => ?_⟩
  have hd := hlow ⟨j, hj.trans c.isLt⟩ hj
  simpa [allCircuits] using hd

theorem servingCircuit_of_no_holder (h : ∀ c : Circ, (s.circuit c).cfg.code ≠ some code) :
    s.servingCircuit e code = none := if_pos (holders_eq_nil_iff.mpr h)

theorem servingCircuit_bound (hb : e.bound = some c) (h : ∃ d : Circ, (s.circuit d).cfg.code = some code) :
    s.servingCircuit e code = some c := by
  obtain ⟨d, hd⟩ := h
  rw [State.servingCircuit, if_neg fun hn => holders_eq_nil_iff.mp hn d hd, hb, Option.orElse_some]

theorem servingCircuit_lowest (hb : e.bound = none) (hc : (s.circuit c).cfg.code = some code)
    (hlow : ∀ d : Circ, d < c → (s.circuit d).cfg.code ≠ some code) : s.servingCircuit e code = some c := by
  rw [State.servingCircuit, if_neg fun hn => holders_eq_nil_iff.mp hn c hc, hb, Option.orElse_none, holders_head? hc hlow]

theorem canTakeDose_iff (p : Pump) :
    p.canTakeDose = true ↔ ∀ a, p.activity = some a → a.kind = .purge ∨ a.kind = .refill := by
  unfold Pump.canTakeDose
  cases p.activity <;> simp

theorem canServe_iff (v : Nat) : s.canServe c code v = true ↔ (s.circuit c).state = .ready
    ∧ (s.circuit c).cfg.code = some code ∧ (s.circuit c).cfg.reserve + v ≤ (s.circuit c).level
    ∧ ∀ a, (s.pump c).activity = some a → a.kind = .purge ∨ a.kind = .refill := by
  simp only [State.canServe, Bool.and_eq_true, beq_iff_eq, decide_eq_true_eq, canTakeDose_iff, and_assoc]

/-! ### The outcome of a colourant line (R53 to R55) -/

variable {amount vol : Nat} {last : Bool}

theorem judgeTwin_unpaired (p : StepPlan) (h : (s.circuit c).cfg.twin = none) :
    s.judgeTwin c p code amount vol last = .hold (some c) p := by
  simp only [State.judgeTwin, h]

theorem judgeTwin_paired {d : Circ} (p : StepPlan) (h : (s.circuit c).cfg.twin = some d) :
    s.judgeTwin c p code amount vol last
      = if s.canServe d code (s.plannedVolume d (s.planOn d amount vol 512000000 last).steps) then
          .served d (s.planOn d amount vol 512000000 last) true
        else .hold (some c) p := by
  simp only [State.judgeTwin, h]
  rfl

theorem judge_no_holder (h : s.servingCircuit e code = none) :
    s.judge e (code, amount) vol last = .hold none ⟨0, .planned, none, none⟩ := by
  simp only [State.judge, h]

variable (hc : s.servingCircuit e code = some c)
include hc

theorem judge_served (h : (s.planOn c amount vol (e.residue.getD 512000000) last).steps = 0
      ∨ s.canServe c code (s.plannedVolume c (s.planOn c amount vol (e.residue.getD 512000000) last).steps)) :
    s.judge e (code, amount) vol last = .served c (s.planOn c amount vol (e.residue.getD 512000000) last) false := by
  simp only [State.judge, hc]
  exact if_pos h

variable (h : ¬((s.planOn c amount vol (e.residue.getD 512000000) last).steps = 0
  ∨ s.canServe c code (s.plannedVolume c (s.planOn c amount vol (e.residue.getD 512000000) last).steps)))
include h

theorem judge_hold (hp : (s.circuit c).cfg.policy = .hold) : s.judge e (code, amount) vol last
    = .hold (some c) (s.planOn c amount vol (e.residue.getD 512000000) last) := by
  simp only [State.judge, hc, hp]
  exact if_neg h

theorem judge_skip (hp : (s.circuit c).cfg.policy = .skip) : s.judge e (code, amount) vol last
    = .skipped c (s.planOn c amount vol (e.residue.getD 512000000) last) := by
  simp only [State.judge, hc, hp]
  exact if_neg h

theorem judge_twin (hp : (s.circuit c).cfg.policy = .twin) : s.judge e (code, amount) vol last
    = s.judgeTwin c (s.planOn c amount vol (e.residue.getD 512000000) last) code amount vol last := by
  simp only [State.judge, hc, hp]
  exact if_neg h

end Sys2Proof.Machine
end

