-- ==== Sys2Proof/Proofs/Commits.lean ====
section
/-! PROOF SUPPORT. The bindings of order lines and the open-batch counts of the circuits, and what the commit of a plan makes of
them (R20, R22, R83). -/

namespace Sys2Proof.Machine

set_option Elab.async false

variable {s t : State} {c : Circ}

/-! ### Lines -/

theorem line?_mem {n : Nat} {l : OrderLine} (h : s.line? n = some l) : l ∈ s.bk.lines ∧ l.number = n :=
  ⟨List.mem_of_find?_eq_some h, by simpa using List.find?_some h⟩

/-- The record of a line after a change of the records with its number. -/
theorem setLine_line? (s : State) (n m : Nat) {f : OrderLine → OrderLine} (hf : ∀ l, (f l).number = l.number) :
    (s.setLine n f).line? m = if m = n then (s.line? n).map f else s.line? m := by
  have hp (l : OrderLine) : ((if l.number = n then f l else l).number == m) = (l.number == m) := by
    split
    · rw [hf]
    · rfl
  simp only [State.line?, State.setLine, List.find?_map, Function.comp_def, hp]
  split
  · rename_i e
    subst e
    cases h : s.bk.lines.find? fun l => l.number == m with
    | none => rfl
    | some l =>
      have hl : l.number = m := by simpa using List.find?_some h
      simp [hl]
  · rename_i e
    cases h : s.bk.lines.find? fun l => l.number == m with
    | none => rfl
    | some l =>
      have hl : l.number = m := by simpa using List.find?_some h
      simp [hl, e]

theorem line?_congr (h : t.bk = s.bk) (n : Nat) : t.line? n = s.line? n := by
  rw [State.line?, h, State.line?]

/-! ### A circuit whose bindings end (R20, R22) -/

/-- The circuit record once k bindings to it have ended: at a count of 0 the pending values are active. -/
def Circuit.unbound (r : Circuit) (k : Nat) : Circuit :=
  if k ≠ 0 ∧ r.openBatch ≤ k then { r with openBatch := 0 }.applyPending
  else { r with openBatch := r.openBatch - k }

theorem unbound_of_le {r : Circuit} {k : Nat} (h : k ≠ 0 ∧ r.openBatch ≤ k) :
    r.unbound k = { r with openBatch := 0 }.applyPending := if_pos h

theorem unbound_of_lt {r : Circuit} {k : Nat} (h : ¬(k ≠ 0 ∧ r.openBatch ≤ k)) :
    r.unbound k = { r with openBatch := r.openBatch - k } := if_neg h

theorem unbound_zero (r : Circuit) : r.unbound 0 = r := unbound_of_lt fun h => h.1 rfl

/-- Once applied the pending values are gone: bindings that end one after the other end as if at once. -/
theorem unbound_unbound (r : Circuit) (j k : Nat) : (r.unbound j).unbound k = r.unbound (j + k) := by
  by_cases hj : j ≠ 0 ∧ r.openBatch ≤ j
  · have happlied : ({ r with openBatch := 0 }.applyPending).unbound k = { r with openBatch := 0 }.applyPending := by
      unfold Circuit.unbound
      split
      · rfl
      · simp [Circuit.applyPending]
    rw [unbound_of_le hj, happlied, unbound_of_le (by omega)]
  · rw [unbound_of_lt hj]
    by_cases hk : k ≠ 0 ∧ r.openBatch - j ≤ k
    · rw [unbound_of_le hk, unbound_of_le (k := j + k) (by omega)]
    · rw [unbound_of_lt hk, unbound_of_lt (k := j + k) (by omega), Nat.sub_sub]

theorem bindingEnded_eq (s : State) (c : Circ) : s.bindingEnded c = s.setCircuit c fun r => r.unbound 1 := by
  refine setCircuit_congr ?_
  dsimp only
  split
  · rename_i h
    rw [unbound_of_le ⟨Nat.one_ne_zero, Nat.le_of_sub_eq_zero h⟩, ← h]
  · rename_i h
    rw [unbound_of_lt fun hk => h (Nat.sub_eq_zero_of_le hk.2)]

/-! ### Live bindings (R20) -/

/-- The entries bound to circuit c. -/
def boundTo (c : Circ) (es : List ColourantEntry) : Nat := es.countP fun e => e.bound == some c

/-- The live bindings, line by line. -/
theorem bindings_eq_sum (s : State) (c : Circ) :
    s.bindings c = (s.bk.lines.map fun l => boundTo c l.entries).sum := by
  rw [State.bindings, ← List.countP_eq_length_filter, List.countP_flatMap]
  rfl

/-- A change of the one line of a number, in a sum over the lines. -/
theorem sum_setLine {lines : List OrderLine} {n : Nat} {l : OrderLine} (g : OrderLine → Nat) (f : OrderLine → OrderLine)
    (hd : (lines.map (·.number)).Nodup) (hl : l ∈ lines) (hn : l.number = n) :
    ((lines.map fun x => if x.number = n then f x else x).map g).sum + g l = (lines.map g).sum + g (f l) := by
  induction lines with
  | nil => cases hl
  | cons x rest ih =>
    obtain ⟨hx, hrest⟩ := List.nodup_cons.mp hd
    simp only [List.map_cons, List.sum_cons]
    rcases List.mem_cons.mp hl with rfl | hl
    · have hsame : (rest.map fun x => if x.number = n then f x else x) = rest := by
        refine (List.map_congr_left fun y hy => if_neg fun hyn => hx ?_).trans (List.map_id _)
        exact List.mem_map.mpr ⟨y, hy, hyn.trans hn.symm⟩
      rw [if_pos hn, hsame]
      omega
    · have hxn : x.number ≠ n := fun e => hx (List.mem_map.mpr ⟨l, hl, hn.trans e.symm⟩)
      have := ih hrest hl
      rw [if_neg hxn]
      omega

/-! ### The commit of a plan (R83) -/

/-- The commit binds the entry to circuit c anew. -/
def bindsAnew (c : Circ) (x : ColourantEntry × Judged) : Bool :=
  x.2.committed.any (·.1 == c) && x.1.bound != some c

/-- The commit moves the entry away from circuit c. -/
def bindsAway (c : Circ) (x : ColourantEntry × Judged) : Bool :=
  x.2.committed.any (·.1 != c) && x.1.bound == some c

theorem commitMade_circuit (s : State) (x : ColourantEntry × Judged) (c : Circ) : (s.commitMade x.1 x.2).circuit c
    = { s.circuit c with openBatch := (s.circuit c).openBatch + if bindsAnew c x then 1 else 0 } := by
  unfold State.commitMade bindsAnew
  cases x.2.committed with
  | none => rfl
  | some y =>
    dsimp only
    split
    · rename_i hb
      by_cases hc : y.1 = c
      · simp [hb, hc]
      · simp [hc]
    · rename_i hb
      rw [State.bindingMade, setCircuit_circuit_eq]
      by_cases hc : c = y.1
      · simp [hc, hb]
      · simp [hc, Ne.symm hc]

theorem commitEnded_circuit (s : State) (x : ColourantEntry × Judged) (c : Circ) : (s.commitEnded x.1 x.2).circuit c
    = (s.circuit c).unbound (if bindsAway c x then 1 else 0) := by
  unfold State.commitEnded bindsAway
  split
  · rename_i d r b hj hb
    rw [hj, hb]
    split
    · rename_i hbd
      by_cases hc : d = c
      · simp [hc, unbound_zero]
      · have : b ≠ c := hbd ▸ hc
        simp [this, unbound_zero]
    · rename_i hbd
      rw [bindingEnded_eq, setCircuit_circuit_eq]
      by_cases hc : c = b
      · have : d ≠ b := fun e => hbd e.symm
        simp [hc, this]
      · simp [hc, Ne.symm hc, unbound_zero]
  · rename_i hno
    have : (x.2.committed.any (·.1 != c) && x.1.bound == some c) = false := by
      rcases hj : x.2.committed with _ | ⟨d, r⟩
      · rfl
      · rcases hb : x.1.bound with _ | b
        · simp
        · exact (hno d r b hj hb).elim
    rw [this, if_neg Bool.false_ne_true, unbound_zero]

theorem foldl_commitMade_circuit (l : List (ColourantEntry × Judged)) (s : State) (c : Circ) :
    (l.foldl (fun u x => u.commitMade x.1 x.2) s).circuit c
      = { s.circuit c with openBatch := (s.circuit c).openBatch + l.countP (bindsAnew c) } := by
  induction l generalizing s with
  | nil => rfl
  | cons x l ih => rw [List.foldl_cons, ih, commitMade_circuit, List.countP_cons, Nat.add_assoc, Nat.add_comm (l.countP _)]

theorem foldl_commitEnded_circuit (l : List (ColourantEntry × Judged)) (s : State) (c : Circ) :
    (l.foldl (fun u x => u.commitEnded x.1 x.2) s).circuit c = (s.circuit c).unbound (l.countP (bindsAway c)) := by
  induction l generalizing s with
  | nil => exact (unbound_zero _).symm
  | cons x l ih =>
    rw [List.foldl_cons, ih, commitEnded_circuit, unbound_unbound, List.countP_cons, Nat.add_comm]

/-- Operations that write circuits alone, one after the other. -/
theorem foldl_circuits_frame {α : Type} {f : State → α → State}
    (hf : ∀ u x, f u x = { u with circuits := (f u x).circuits }) (l : List α) (s : State) :
    l.foldl f s = { s with circuits := (l.foldl f s).circuits } := by
  induction l generalizing s with
  | nil => rfl
  | cons x l ih =>
    rw [List.foldl_cons, ih, hf s x]

theorem commitMade_frame (s : State) (x : ColourantEntry × Judged) :
    s.commitMade x.1 x.2 = { s with circuits := (s.commitMade x.1 x.2).circuits } := by
  unfold State.commitMade
  split
  · split <;> rfl
  · rfl

theorem commitEnded_frame (s : State) (x : ColourantEntry × Judged) :
    s.commitEnded x.1 x.2 = { s with circuits := (s.commitEnded x.1 x.2).circuits } := by
  unfold State.commitEnded
  split
  · split <;> rfl
  · rfl

/-- The entries of a line after the commit of a plan. -/
def committedEntries (plan : List Judged) (es : List ColourantEntry) : List ColourantEntry :=
  (plan.zip es).map fun x => commitEntry x.1 x.2

theorem committedEntries_length {plan : List Judged} {es : List ColourantEntry} (h : plan.length = es.length) :
    (committedEntries plan es).length = es.length := by
  simp [committedEntries, h]

/-- Entries moved to circuit c and entries moved away from it are the change in the entries bound to it. -/
theorem boundTo_committed (c : Circ) {plan : List Judged} {es : List ColourantEntry} (h : plan.length = es.length) :
    boundTo c (committedEntries plan es) + (es.zip plan).countP (bindsAway c)
        = boundTo c es + (es.zip plan).countP (bindsAnew c)
      ∧ (es.zip plan).countP (bindsAway c) ≤ boundTo c es := by
  induction es generalizing plan with
  | nil => simp [committedEntries, boundTo]
  | cons e es ih =>
    cases plan with
    | nil => cases h
    | cons j plan =>
      obtain ⟨heq, hle⟩ := ih (plan := plan) (Nat.succ.inj h)
      have hone : (if (commitEntry j e).bound == some c then 1 else 0) + (if bindsAway c (e, j) then 1 else 0)
          = (if e.bound == some c then 1 else 0) + (if bindsAnew c (e, j) then 1 else 0)
          ∧ (if bindsAway c (e, j) then 1 else 0) ≤ if e.bound == some c then 1 else 0 := by
        unfold commitEntry bindsAway bindsAnew
        cases j.committed with
        | none => simp
        | some y => by_cases hb : e.bound = some c <;> by_cases hc : y.1 = c <;> simp [hb, hc]
      simp only [committedEntries, boundTo, List.zip_cons_cons, List.map_cons, List.countP_cons] at heq hle ⊢
      omega

/-- The commit writes the circuits and the entries of the line alone. -/
theorem commitPlan_frame (s : State) (l : OrderLine) (plan : List Judged) : s.commitPlan l plan
    = { s with
        circuits := (s.commitPlan l plan).circuits
        bk := (s.setLine l.number fun x => { x with entries := committedEntries plan x.entries }).bk } := by
  have hmade := foldl_circuits_frame commitMade_frame (l.entries.zip plan) s
  have hended := foldl_circuits_frame commitEnded_frame (l.entries.zip plan)
    ((l.entries.zip plan).foldl (fun u x => u.commitMade x.1 x.2) s)
  rw [hmade] at hended
  have e : s.commitPlan l plan = ((l.entries.zip plan).foldl (fun u x => u.commitEnded x.1 x.2)
      ((l.entries.zip plan).foldl (fun u x => u.commitMade x.1 x.2) s)).setLine l.number fun x =>
        { x with entries := committedEntries plan x.entries } := rfl
  rw [e, hmade, hended]
  rfl

theorem commitPlan_circuit (s : State) (l : OrderLine) (plan : List Judged) (c : Circ) : (s.commitPlan l plan).circuit c
    = { s.circuit c with openBatch := (s.circuit c).openBatch + (l.entries.zip plan).countP (bindsAnew c) }.unbound
        ((l.entries.zip plan).countP (bindsAway c)) := by
  rw [← foldl_commitMade_circuit, ← foldl_commitEnded_circuit]
  rfl

/-- The entries of the line are those of the committed plan, and no other line changes. -/
theorem commitPlan_line? {l : OrderLine} {n : Nat} (plan : List Judged) (hl : s.line? n = some l) :
    (s.commitPlan l plan).line? n = some { l with entries := committedEntries plan l.entries }
      ∧ ∀ m, m ≠ n → (s.commitPlan l plan).line? m = s.line? m := by
  obtain ⟨-, rfl⟩ := line?_mem hl
  have h (m : Nat) : (s.commitPlan l plan).line? m = if m = l.number then
      (s.line? l.number).map fun x => { x with entries := committedEntries plan x.entries } else s.line? m :=
    (line?_congr (by rw [commitPlan_frame]) m).trans (setLine_line? s l.number m fun _ => rfl)
  refine ⟨?_, fun m hm => ?_⟩
  · rw [h, if_pos rfl, hl]
    rfl
  · rw [h, if_neg hm]

/-- With one number to a line, the bindings change as the entries of the one line do. -/
theorem commitPlan_bindings {l : OrderLine} {n : Nat} (plan : List Judged) (hd : (s.bk.lines.map (·.number)).Nodup)
    (hl : s.line? n = some l) (c : Circ) : (s.commitPlan l plan).bindings c + boundTo c l.entries
      = s.bindings c + boundTo c (committedEntries plan l.entries) := by
  obtain ⟨hmem, hn⟩ := line?_mem hl
  rw [bindings_eq_sum, bindings_eq_sum, commitPlan_frame, hn]
  exact sum_setLine (fun x => boundTo c x.entries) _ hd hmem hn

/-- The open-batch counts after a commit are those of the bindings; a circuit to which the last binding has ended has its
pending values active (R20, R22). -/
theorem commitPlan_counts {l : OrderLine} {n : Nat} {plan : List Judged} (h : BookInv s) (hl : s.line? n = some l)
    (hlen : plan.length = l.entries.length) (c : Circ) :
    let k := (s.commitPlan l plan).bindings c
    (s.commitPlan l plan).circuit c = if k = 0 ∧ s.bindings c ≠ 0 then { s.circuit c with openBatch := k }.applyPending
      else { s.circuit c with openBatch := k } := by
  intro k
  obtain ⟨-, hd, -, hcount⟩ := h
  have hk := commitPlan_bindings plan hd hl c
  obtain ⟨hmoved, haway⟩ := boundTo_committed c hlen
  have hle : boundTo c l.entries ≤ s.bindings c := by
    rw [bindings_eq_sum]
    exact List.single_le_sum (fun _ _ => Nat.zero_le _) _ (List.mem_map.mpr ⟨l, (line?_mem hl).1, rfl⟩)
  have hsum : (s.circuit c).openBatch + (l.entries.zip plan).countP (bindsAnew c)
      = k + (l.entries.zip plan).countP (bindsAway c) := by
    rw [hcount]
    omega
  rw [commitPlan_circuit, hsum]
  generalize (l.entries.zip plan).countP (bindsAway c) = away at *
  by_cases hz : away ≠ 0 ∧ k = 0
  · obtain ⟨ha, h0⟩ := hz
    rw [unbound_of_le (by dsimp only; omega), if_pos (by omega), h0]
  · rw [unbound_of_lt (by dsimp only; omega), if_neg (by omega)]
    simp

end Sys2Proof.Machine
end

