-- ==== Sys2Proof/Proofs/OpenTins.lean ====
section
/-! PROOF SUPPORT. What an admission writes beside the book: the volumes of the open-tin marker (R42), and the record of the tin
(R56, R117). -/

namespace Sys2Proof.Machine

set_option Elab.async false

/-! ### Volumes by circuit (R42) -/

/-- The volume of the first entry of a circuit. -/
def volumeAt (c : Circ) (l : List (Circ × Nat)) : Nat := ((l.find? fun x => x.1 == c).map (·.2)).getD 0

/-- The volumes of all entries of a circuit. -/
def volumeSum (c : Circ) (l : List (Circ × Nat)) : Nat := ((l.filter fun x => x.1 == c).map (·.2)).sum

theorem volumeAt_cons (c : Circ) (x : Circ × Nat) (l : List (Circ × Nat)) :
    volumeAt c (x :: l) = if x.1 = c then x.2 else volumeAt c l := by
  by_cases h : x.1 = c <;> simp [volumeAt, h]

theorem volumeSum_cons (c : Circ) (x : Circ × Nat) (l : List (Circ × Nat)) :
    volumeSum c (x :: l) = (if x.1 = c then x.2 else 0) + volumeSum c l := by
  by_cases h : x.1 = c <;> simp [volumeSum, h]

theorem addVolume_cons (d : Circ) (v : Nat) (x : Circ × Nat) (l : List (Circ × Nat)) :
    addVolume d v (x :: l) = if d = x.1 then (x.1, x.2 + v) :: l else x :: addVolume d v l := rfl

theorem volumeAt_addVolume (c d : Circ) (v : Nat) (l : List (Circ × Nat)) :
    volumeAt c (addVolume d v l) = volumeAt c l + if d = c then v else 0 := by
  induction l with
  | nil => exact (volumeAt_cons c (d, v) []).trans (Nat.zero_add _).symm
  | cons x l ih =>
    rw [addVolume_cons, volumeAt_cons]
    by_cases hdx : d = x.1
    · rw [if_pos hdx, volumeAt_cons, ← hdx]
      by_cases h : d = c
      · simp only [if_pos h]
      · simp only [if_neg h, Nat.add_zero]
    · rw [if_neg hdx, volumeAt_cons, ih]
      by_cases hx : x.1 = c
      · rw [if_pos hx, if_pos hx, if_neg (hx ▸ hdx), Nat.add_zero]
      · rw [if_neg hx, if_neg hx]

theorem volumeSum_addVolume (c d : Circ) (v : Nat) (l : List (Circ × Nat)) :
    volumeSum c (addVolume d v l) = volumeSum c l + if d = c then v else 0 := by
  induction l with
  | nil => exact (volumeSum_cons c (d, v) []).trans (Nat.add_comm _ _)
  | cons x l ih =>
    rw [addVolume_cons, volumeSum_cons]
    by_cases hdx : d = x.1
    · rw [if_pos hdx, volumeSum_cons, ← hdx]
      split <;> omega
    · rw [if_neg hdx, volumeSum_cons, ih, Nat.add_assoc]

/-- Volumes added one after the other add up, for each reading of a circuit's volume that adding one adds to. -/
theorem foldl_addVolume {α : Type} {read : List (Circ × Nat) → Nat} {c : Circ}
    (hadd : ∀ d v l, read (addVolume d v l) = read l + if d = c then v else 0) (circ : α → Circ) (vol : α → Nat)
    (xs : List α) (l : List (Circ × Nat)) :
    read (xs.foldl (fun acc x => addVolume (circ x) (vol x) acc) l)
      = read l + ((xs.filter fun x => circ x == c).map vol).sum := by
  induction xs generalizing l with
  | nil => rfl
  | cons x xs ih =>
    rw [List.foldl_cons, ih, hadd]
    by_cases h : circ x = c
    · simp [h, Nat.add_assoc]
    · simp [h]

/-- The planned volume of a tin on circuit c. -/
def plannedOn (c : Circ) (es : List DoseEntry) : Nat :=
  ((es.filter fun e => e.planned != 0 && e.circuit == c).map (·.volume)).sum

theorem planVolumes_read {read : List (Circ × Nat) → Nat} {c : Circ} (h0 : read [] = 0)
    (hadd : ∀ d v l, read (addVolume d v l) = read l + if d = c then v else 0) (es : List DoseEntry) :
    read (planVolumes es) = plannedOn c es := by
  rw [planVolumes, foldl_addVolume hadd, h0, Nat.zero_add, List.filter_filter, plannedOn]
  simp only [Bool.and_comm]

theorem Marker.volume_eq (m : Marker) (c : Circ) : m.volume c = volumeAt c m.vols := rfl

/-- A later list adds its volumes to a marker's. -/
theorem Marker.volume_join (m new : Marker) (c : Circ) :
    (m.join new).volume c = m.volume c + volumeSum c new.vols :=
  foldl_addVolume (volumeAt_addVolume c) Prod.fst Prod.snd new.vols m.vols

/-- The newest tin stays in the list of 16. -/
theorem Marker.newest_mem_join (m : Marker) (id : Nat) (vols : List (Circ × Nat)) : id ∈ (m.join ⟨[id], vols⟩).tins := by
  have hlen : (m.tins ++ [id]).length - 16 ≤ m.tins.length := by
    rw [List.length_append, List.length_singleton]
    omega
  show id ∈ (m.tins ++ [id]).drop ((m.tins ++ [id]).length - 16)
  rw [List.drop_append_of_le_length hlen]
  exact List.mem_append_right _ (List.mem_singleton_self id)

/-- The marker set for a tin: its id, and its planned volumes beside those that the marker is due to hold. -/
theorem askMarkerSet_planned (t : Store) (id : Nat) (es : List DoseEntry) : ∃ m,
    t.askMarkerSet ⟨[id], planVolumes es⟩ = { t with pendingSet := some m, pendingClear := false, heldClear := false }
      ∧ id ∈ m.tins ∧ ∀ c, m.volume c = (t.markerDue.map fun b => b.volume c).getD 0 + plannedOn c es := by
  have hdue : t.askMarkerSet ⟨[id], planVolumes es⟩ = { t with
      pendingSet := some ((t.markerDue.map fun b => b.join ⟨[id], planVolumes es⟩).getD ⟨[id], planVolumes es⟩)
      pendingClear := false
      heldClear := false } := by
    unfold Store.askMarkerSet Store.markerDue
    cases t.pendingSet with
    | some m => rfl
    | none => cases t.markerStored <;> rfl
  refine ⟨_, hdue, ?_, fun c => ?_⟩
  · cases t.markerDue with
    | none => exact List.mem_singleton_self id
    | some b => exact b.newest_mem_join id _
  · cases t.markerDue with
    | none => exact (planVolumes_read rfl (volumeAt_addVolume c) es).trans (Nat.zero_add _).symm
    | some b =>
      exact (b.volume_join _ c).trans (congrArg _ (planVolumes_read rfl (volumeSum_addVolume c) es))

/-! ### The needed circuits (R53) -/

theorem needed_ne_nil (es : List DoseEntry) : (neededCircuits es != []) = es.any fun e => e.planned != 0 := by
  rw [Bool.eq_iff_iff, bne_iff_ne, neededCircuits, ne_eq, List.map_eq_nil_iff, List.filter_eq_nil_iff]
  simp

theorem needed_eq_nil_iff (es : List DoseEntry) : neededCircuits es = [] ↔ ∀ e ∈ es, e.planned = 0 := by
  rw [neededCircuits, List.map_eq_nil_iff, List.filter_eq_nil_iff]
  simp

theorem needed_purge_iff (s : State) (es : List DoseEntry) :
    ((neededCircuits es).any fun c => (s.circuit c).purgeDue.isSome) = true
      ↔ ∃ e ∈ es, e.planned ≠ 0 ∧ (s.circuit e.circuit).purgeDue ≠ none := by
  simp [neededCircuits, Option.isSome_iff_ne_none]

/-! ### The record of the tin (R56) -/

variable {s : State}

/-- A tin with notes put into its set. -/
def Tin.noted (t : Tin) (ns : List Note) : Tin := ns.foldl Tin.note t

theorem noted_eq (t : Tin) (ns : List Note) : t.noted ns = { t with notes := (t.noted ns).notes } := by
  induction ns generalizing t with
  | nil => rfl
  | cons n ns ih =>
    have h : (t.noted (n :: ns)) = (t.note n).noted ns := rfl
    rw [h, ih]
    unfold Tin.note
    split <;> rfl

theorem mem_noted (t : Tin) (ns : List Note) (x : Note) : x ∈ (t.noted ns).notes ↔ x ∈ t.notes ∨ x ∈ ns := by
  induction ns generalizing t with
  | nil => simp [Tin.noted]
  | cons n ns ih =>
    have h : (t.noted (n :: ns)) = (t.note n).noted ns := rfl
    rw [h, ih, mem_note, List.mem_cons, or_assoc]

theorem mem_planNotes (es : List DoseEntry) (x : Note) : x ∈ planNotes es
    ↔ (x = .offShade ∧ ∃ e ∈ es, e.outcome = .skipped) ∨ (x = .substituted ∧ ∃ e ∈ es, e.substituted = true) := by
  have hone (p : Bool) (n : Note) : x ∈ (if p then [n] else []) ↔ x = n ∧ p = true := by
    cases p <;> simp
  rw [planNotes, List.mem_append, hone, hone]
  simp

theorem setTin_self (s : State) (id : Nat) : s.setTin id (fun t => t) = s := by
  simp [State.setTin]

theorem setTin_setTin (s : State) (id : Nat) {f g : Tin → Tin} (hf : ∀ t, (f t).id = t.id) :
    (s.setTin id f).setTin id g = s.setTin id fun t => g (f t) := by
  have h (t : Tin) : (if (if t.id = id then f t else t).id = id then g (if t.id = id then f t else t)
      else if t.id = id then f t else t) = if t.id = id then g (f t) else t := by
    by_cases ht : t.id = id
    · simp [ht, hf]
    · simp [ht]
  simp only [State.setTin, List.map_map, Function.comp_def, h]

theorem foldl_noteTin (ns : List Note) (s : State) (id : Nat) :
    ns.foldl (fun u n => u.noteTin id n) s = s.setTin id fun t => t.noted ns := by
  induction ns generalizing s with
  | nil => exact (setTin_self s id).symm
  | cons n ns ih =>
    rw [List.foldl_cons, ih, State.noteTin, setTin_setTin]
    · rfl
    · exact fun t => by unfold Tin.note; split <;> rfl

/-- The record of a tin that is admitted with the dose entries es at the moment m. -/
def Tin.admitted (t : Tin) (es : List DoseEntry) (m : Nat) : Tin :=
  { t with
    stage := .readyToMove
    readyAt := m
    entries := es
    notes := ({ t with entries := es }.noted (planNotes es)).notes }

theorem mem_admitted (t : Tin) (es : List DoseEntry) (m : Nat) (x : Note) : x ∈ (t.admitted es m).notes
    ↔ x ∈ t.notes ∨ (x = .offShade ∧ ∃ e ∈ es, e.outcome = .skipped)
      ∨ (x = .substituted ∧ ∃ e ∈ es, e.substituted = true) := by
  rw [← mem_planNotes]
  exact mem_noted _ _ x

/-- The entries, the notes and the stage of an admission, in one. -/
theorem admits_tin (s : State) (id : Nat) (es : List DoseEntry) :
    State.readyTin ((planNotes es).foldl (fun u n => u.noteTin id n) (s.setTin id fun t => { t with entries := es })) id
      = s.setTin id fun t => t.admitted es s.now := by
  rw [foldl_noteTin, setTin_setTin, State.readyTin, setTin_setTin]
  · refine congrArg (s.setTin id) (funext fun t => ?_)
    rw [noted_eq]
    rfl
  · exact fun t => by rw [noted_eq]
  · exact fun _ => rfl

end Sys2Proof.Machine
end

