-- ==== Sys2Proof/Proofs/Admissions.lean ====
section
/-! O26: the plan of a dose, the outcome of a colourant line, and the admission attempt. -/

namespace Sys2Proof.Machine

set_option Elab.async false

variable {s : State} {t : Tin} {n k : Nat} {l : OrderLine} {plan : List Judged}

/-! ### The conditions beside the plan (R115) -/

theorem z2Free_iff : s.z2Free = true ↔ (s.placeRec .z2).tin = none ∧ (s.placeRec .z2).departing = false
    ∧ (s.placeRec .z2).uncertain = false ∧ (s.placeRec .z2).reserved = none := by
  simp [State.z2Free, and_assoc]

theorem lineGoes_iff (hl : s.line? n = some l) : s.lineGoes n = true ↔ l.state ≠ .held ∧ l.state ≠ .cancelled := by
  simp [State.lineGoes, hl]

/-- Each condition that fails is shown, and nothing else. -/
theorem mem_failedConditions (w : WaitReason) : w ∈ s.failedConditions n ↔ (w = .stopped ∧ s.stopped = true)
    ∨ (w = .z2 ∧ ¬s.z2Free = true) ∨ (w = .scale ∧ ¬(s.stn.scale = .doseCheck ∧ s.stn.cal = none))
    ∨ (w = .line ∧ ¬s.lineGoes n = true) := by
  have hone (p : Prop) [Decidable p] (x : WaitReason) : w ∈ (if p then [] else [x]) ↔ w = x ∧ ¬p := by
    split <;> simp_all
  have hstop : w ∈ (if s.stopped then [WaitReason.stopped] else []) ↔ w = .stopped ∧ s.stopped = true := by
    cases s.stopped <;> simp
  simp only [State.failedConditions, List.mem_append, hone, hstop, or_assoc]

theorem failedConditions_eq_nil_iff : s.failedConditions n = [] ↔ s.stopped = false ∧ s.z2Free = true
    ∧ (s.stn.scale = .doseCheck ∧ s.stn.cal = none) ∧ s.lineGoes n = true := by
  rw [List.eq_nil_iff_forall_not_mem]
  constructor
  · intro h
    refine ⟨Bool.eq_false_iff.mpr fun hs => ?_, by_contra fun hz => ?_, by_contra fun hc => ?_, by_contra fun hg => ?_⟩
    · exact h .stopped ((mem_failedConditions _).mpr (.inl ⟨rfl, hs⟩))
    · exact h .z2 ((mem_failedConditions _).mpr (.inr (.inl ⟨rfl, hz⟩)))
    · exact h .scale ((mem_failedConditions _).mpr (.inr (.inr (.inl ⟨rfl, hc⟩))))
    · exact h .line ((mem_failedConditions _).mpr (.inr (.inr (.inr ⟨rfl, hg⟩))))
  · rintro ⟨hs, hz, hc, hg⟩ w hw
    rcases (mem_failedConditions w).mp hw with ⟨-, h⟩ | ⟨-, h⟩ | ⟨-, h⟩ | ⟨-, h⟩
    · exact Bool.eq_false_iff.mp hs h
    · exact h hz
    · exact h hc
    · exact h hg

/-! ### The first HOLD outcome (R77) -/

theorem holdOf_of_none (h : ∀ j ∈ plan, ∀ d q, j ≠ .hold d q) : holdOf plan = none := by
  induction plan with
  | nil => rfl
  | cons j plan ih =>
    have hrest := ih fun i hi => h i (List.mem_cons_of_mem _ hi)
    cases j with
    | hold d q => exact (h _ List.mem_cons_self d q rfl).elim
    | served d q b => exact hrest
    | skipped d q => exact hrest

theorem holdOf_append {front back : List Judged} (c : Option Circ) (p : StepPlan)
    (h : ∀ j ∈ front, ∀ d q, j ≠ .hold d q) :
    holdOf (front ++ .hold c p :: back) = some ((c.map circNo).getD 0) := by
  induction front with
  | nil => rfl
  | cons j front ih =>
    have hrest := ih fun i hi => h i (List.mem_cons_of_mem _ hi)
    cases j with
    | hold d q => exact (h _ List.mem_cons_self d q rfl).elim
    | served d q b => exact hrest
    | skipped d q => exact hrest

/-- A HOLD outcome holds a RUNNING or FINISHING line. -/
theorem holdCircuit_of_going (c : Nat) (hl : s.line? n = some l) (hg : l.state = .running ∨ l.state = .finishing) :
    s.holdCircuit n c = s.holdLine n (.circuit c) := by
  unfold State.holdCircuit
  rcases hg with hg | hg <;> simp only [hl, hg]

theorem holdCircuit_of_other (c : Nat) (hl : s.line? n = some l) (hr : l.state ≠ .running) (hf : l.state ≠ .finishing) :
    s.holdCircuit n c = s := by
  unfold State.holdCircuit
  rw [hl]
  dsimp only
  split
  · rename_i h; exact (hr h).elim
  · rename_i h; exact (hf h).elim
  · rfl

theorem holdCircuit_frame (s : State) (n c : Nat) : s.holdCircuit n c
    = { s with bk := (s.holdCircuit n c).bk, link := (s.holdCircuit n c).link } := by
  unfold State.holdCircuit
  split
  · split <;> rfl
  · rfl

theorem holdLine_line? (h : Hold) (hl : s.line? n = some l) :
    (s.holdLine n h).line? n = some { l with state := .held, hold := some h }
      ∧ ∀ m, m ≠ n → (s.holdLine n h).line? m = s.line? m := by
  have hset (m : Nat) : (s.holdLine n h).line? m
      = if m = n then (s.line? n).map fun x => { x with state := .held, hold := some h } else s.line? m :=
    setLine_line? s n m fun _ => rfl
  refine ⟨?_, fun m hm => (hset m).trans (if_neg hm)⟩
  rw [hset, if_pos rfl, hl]
  rfl

/-! ### The attempt (R114 to R116) -/

/-- The tin of a place stands in the table under its own id. -/
theorem tin?_of_tinAt {p : Place} (h : s.tinAt p = some t) : s.tin? t.id = some t := by
  obtain ⟨id, -, ht⟩ := Option.bind_eq_some_iff.mp h
  have hid : t.id = id := by simpa using List.find?_some ht
  rwa [hid]

theorem waitingTin_eq (ht : s.tinAt .z1 = some t) (hs : t.stage = .loaded) (ho : t.order = some (n, k)) :
    s.waitingTin = some (t, n, k) := by
  simp only [State.waitingTin, ht, ho, hs, if_true]

theorem waitingTin_none (h : ∀ t, s.tinAt .z1 = some t → t.stage ≠ .loaded ∨ t.order = none) :
    s.waitingTin = none := by
  unfold State.waitingTin
  cases ht : s.tinAt .z1 with
  | none => rfl
  | some t =>
    dsimp only
    rcases h t ht with hs | ho
    · cases t.order with
      | none => rfl
      | some x => exact if_neg hs
    · rw [ho]

theorem attempt_waits (hw : s.waitingTin = some (t, n, k)) (hf : s.failedConditions n ≠ []) :
    s.attempt = s.setStn fun x => { x with waiting := s.failedConditions n } := by
  simp only [State.attempt, hw]
  split
  · rename_i h _
    exact (hf h).elim
  · rfl

theorem attempt_judges (hw : s.waitingTin = some (t, n, k)) (hf : s.failedConditions n = []) (hl : s.line? n = some l) :
    s.attempt = s.judgePlan t l (s.plan l (k == l.limit)) := by
  simp only [State.attempt, hw, hf, hl]

/-- The state in which the attempt that is owed is made. -/
def State.tried (s : State) : State := { s with stn := { s.stn with attemptOwed := false } }

theorem unchanged_tried (s : State) : Unchanged [.station] s s.tried := by
  refine ⟨rfl, rfl, fun p hp => ?_⟩
  cases p <;> simp [Part.same, State.tried] at hp ⊢

/-- The state after an attempt that admits nothing and shows ws. -/
def State.waits (s : State) (ws : List WaitReason) : State :=
  { s with stn := { s.stn with attemptOwed := false, waiting := ws } }

theorem attemptLook_owed (h : s.stn.attemptOwed = true) : s.attemptLook = s.tried.attempt := if_pos h

/-! ### The committed plan (R52, R56) -/

theorem plan_length (last : Bool) (h : BookInv s) (hl : s.line? n = some l) :
    (s.plan l last).length = l.entries.length := by
  obtain ⟨-, -, hfit, -⟩ := h
  obtain ⟨-, hlen, -⟩ := hfit l (line?_mem hl).1
  simp [State.plan, hlen]

/-- An entry takes the circuit and the residue of its outcome. -/
theorem committedEntries_get {es : List ColourantEntry} {i : Nat} {e : ColourantEntry} {j : Judged}
    (he : es[i]? = some e) (hj : plan[i]? = some j) (hno : ∀ d q, j ≠ .hold d q) :
    ∃ c p, (j = .skipped c p ∨ ∃ b, j = .served c p b)
      ∧ (committedEntries plan es)[i]? = some { e with bound := some c, residue := p.residue } := by
  have hget : (committedEntries plan es)[i]? = some (commitEntry j e) := by
    rw [committedEntries, List.getElem?_map, List.getElem?_zip_eq_some (z := (j, e)) |>.mpr ⟨hj, he⟩]
    rfl
  rw [hget]
  cases j with
  | hold d q => exact (hno d q rfl).elim
  | served c p b => exact ⟨c, p, .inr ⟨b, rfl⟩, rfl⟩
  | skipped c p => exact ⟨c, p, .inl rfl, rfl⟩

/-- Where the marker is set, and what for. -/
def State.admitStore (s : State) (id : Nat) (es : List DoseEntry) : Store :=
  if neededCircuits es = [] then s.store else s.store.askMarkerSet ⟨[id], planVolumes es⟩

/-- An admission, part by part (R117). -/
theorem admitTin_eq {es : List DoseEntry} (hes : s.doseEntries l plan = es) : s.admitTin t l plan = { s with
    circuits := (s.commitPlan l plan).circuits
    bk := (s.commitPlan l plan).bk
    store := s.admitStore t.id es
    track := ((s.setTin t.id fun x => x.admitted es s.now).setPlace .z2 fun r => { r with reserved := some t.id }).track
    stn := { s.stn with
      job := .inbound
      tin := some t.id
      waiting := []
      delay := .off
      markerAsked := es.any fun e => e.planned != 0 } } := by
  rw [← needed_ne_nil]
  unfold State.admitTin State.admitStore
  simp only [hes]
  rw [admits_tin, commitPlan_frame]
  split <;> rfl

/-! ### The outcome of the attempt (R116, R117) -/

/-- A HOLD outcome of the plan: what the attempt shows, and what becomes of the line. -/
theorem judgePlan_holds {c : Nat} (h : holdOf plan = some c) (hl : s.line? n = some l) :
    (s.tried.judgePlan t l plan).stn = { s.stn with attemptOwed := false, waiting := [.circuit] }
      ∧ Unchanged [.book, .station, .link] s (s.tried.judgePlan t l plan)
      ∧ (l.state = .running ∨ l.state = .finishing →
        (s.tried.judgePlan t l plan).line? n = some { l with state := .held, hold := some (.circuit c) }
          ∧ (∀ m, m ≠ n → (s.tried.judgePlan t l plan).line? m = s.line? m)
          ∧ (s.tried.judgePlan t l plan).link = s.link.setFlag .lineHeld (Hold.items n (.circuit c)))
      ∧ (l.state ≠ .running → l.state ≠ .finishing → s.tried.judgePlan t l plan = s.waits [.circuit]) := by
  have hline : s.tried.line? n = some l := hl
  have hj : s.tried.judgePlan t l plan = (s.tried.holdCircuit n c).setStn fun x => { x with waiting := [.circuit] } := by
    rw [← (line?_mem hl).2]
    simp only [State.judgePlan, h]
  rw [hj]
  refine ⟨?_, ?_, fun h => ?_, fun hr hf => ?_⟩
  · rw [holdCircuit_frame]
    rfl
  · rw [holdCircuit_frame]
    refine ⟨rfl, rfl, fun p hp => ?_⟩
    cases p <;> simp [Part.same, State.tried] at hp ⊢
  · obtain ⟨hheld, hother⟩ := holdLine_line? (.circuit c) hline
    rw [holdCircuit_of_going _ hline h]
    exact ⟨hheld, hother, rfl⟩
  · rw [holdCircuit_of_other _ hline hr hf]
    rfl

section
variable {es : List DoseEntry} (hes : s.doseEntries l plan = es)
include hes

theorem judgePlan_purge (h : holdOf plan = none) (hp : ∃ e ∈ es, e.planned ≠ 0 ∧ (s.circuit e.circuit).purgeDue ≠ none) :
    s.judgePlan t l plan = s.setStn fun x => { x with waiting := [.purge] } := by
  simp only [State.judgePlan, h, hes]
  exact if_pos ((needed_purge_iff s es).mpr hp)

theorem judgePlan_admits (h : holdOf plan = none)
    (hp : ∀ e ∈ es, e.planned ≠ 0 → (s.circuit e.circuit).purgeDue = none) :
    s.judgePlan t l plan = s.admitTin t l plan := by
  simp only [State.judgePlan, h, hes]
  refine if_neg fun hn => ?_
  obtain ⟨e, he, h0, hd⟩ := (needed_purge_iff s es).mp hn
  exact hd (hp e he h0)

theorem admitTin_places : ((s.admitTin t l plan).placeRec .z2 = { s.placeRec .z2 with reserved := some t.id })
    ∧ (∀ p, p ≠ .z2 → (s.admitTin t l plan).placeRec p = s.placeRec p)
    ∧ (s.admitTin t l plan).track = { s.track with
        places := (s.admitTin t l plan).track.places, tins := (s.admitTin t l plan).track.tins } := by
  rw [admitTin_eq hes]
  exact ⟨setPlace_placeRec _ .z2 _, fun p hp => setPlace_placeRec_ne _ _ hp, rfl⟩

theorem admitTin_tin? (ht : s.tin? t.id = some t) :
    (s.admitTin t l plan).tin? t.id = some (t.admitted es s.now)
      ∧ ∀ m, m ≠ t.id → (s.admitTin t l plan).tin? m = s.tin? m := by
  have h (m : Nat) : (s.admitTin t l plan).tin? m
      = if m = t.id then (s.tin? t.id).map (·.admitted es s.now) else s.tin? m := by
    rw [admitTin_eq hes]
    exact setTin_tin? s t.id m fun _ => rfl
  exact ⟨by rw [h, if_pos rfl, ht, Option.map_some], fun m hm => (h m).trans (if_neg hm)⟩

/-- The marker is set where steps are planned, with the planned volumes (R42). -/
theorem admitTin_store : ((∀ e ∈ es, e.planned = 0) → (s.admitTin t l plan).store = s.store)
    ∧ ((∃ e ∈ es, e.planned ≠ 0) → ∃ m,
      (s.admitTin t l plan).store = { s.store with pendingSet := some m, pendingClear := false, heldClear := false }
        ∧ t.id ∈ m.tins
        ∧ ∀ c, m.volume c = (s.store.markerDue.map fun b => b.volume c).getD 0 + plannedOn c es) := by
  rw [admitTin_eq hes]
  refine ⟨fun h => if_pos ((needed_eq_nil_iff es).mpr h), fun ⟨e, he, h0⟩ => ?_⟩
  have hneeded : s.admitStore t.id es = s.store.askMarkerSet ⟨[t.id], planVolumes es⟩ :=
    if_neg fun hn => h0 ((needed_eq_nil_iff es).mp hn e he)
  dsimp only
  rw [hneeded]
  exact askMarkerSet_planned _ _ _

theorem admitTin_commits : (s.admitTin t l plan).bk = (s.commitPlan l plan).bk
    ∧ (s.admitTin t l plan).circuits = (s.commitPlan l plan).circuits := by
  rw [admitTin_eq hes]
  exact ⟨rfl, rfl⟩

theorem admitTin_unchanged : Unchanged [.circuits, .store, .book, .station, .track] s (s.admitTin t l plan) := by
  rw [admitTin_eq hes]
  refine ⟨rfl, rfl, fun p hp => ?_⟩
  cases p <;> simp [Part.same] at hp ⊢

end

/-- Settles O26: the dose by the branches of `planSteps`, the colourant line by its serving circuit and that circuit's policy,
and the attempt by the conditions that fail, the first HOLD outcome, the purges due, and the parts of an admission. -/
theorem planKeepsResidue : Obligations.PlanKeepsResidue := by
  refine ⟨fun target r nmin last hn => ?_, fun s e code amount vol last => ?_, fun s => ?_⟩
  · intro n p
    refine ⟨fun h => ?_, fun h hlast => ?_, fun h hlast => ?_, fun r' hr => planSteps_residue hn hr⟩
    · simp only [p, planSteps_planned last h, n, and_self]
    · simp only [p, hlast, planSteps_deferred h]
    · have hp : p = _ := hlast ▸ planSteps_last h
      rw [hp]
      split_ifs with h0 hhalf
      · exact ⟨rfl, fun _ => ⟨rfl, rfl, rfl⟩, fun hpos => (hpos.ne' h0).elim, fun hpos => (hpos.ne' h0).elim⟩
      · exact ⟨rfl, fun h => (h0 h).elim, fun _ _ => ⟨rfl, rfl, rfl⟩, fun _ h => (Nat.not_le.mpr h hhalf).elim⟩
      · exact ⟨rfl, fun h => (h0 h).elim, fun _ h => (hhalf h).elim, fun _ _ => ⟨rfl, rfl, rfl⟩⟩
  · intro factor planOn serves
    have hserves (c : Circ) (q : StepPlan) : s.canServe c code (s.plannedVolume c q.steps) = true ↔ serves c q :=
      canServe_iff _
    refine ⟨fun h => ⟨_, judge_no_holder (servingCircuit_of_no_holder h)⟩, fun c hc => ?_⟩
    have hserving : s.servingCircuit e code = some c := by
      rcases hc with ⟨hb, hd⟩ | ⟨hb, hc, hlow⟩
      · exact servingCircuit_bound hb hd
      · exact servingCircuit_lowest hb hc hlow
    intro p
    refine ⟨fun h => ?_, fun h0 hno => ⟨fun hpol => ?_, fun hpol => ?_, fun hpol => ?_⟩⟩
    · exact judge_served hserving (h.imp_right (hserves c p).mpr)
    all_goals have hneither : ¬(p.steps = 0 ∨ s.canServe c code (s.plannedVolume c p.steps) = true) :=
      not_or.mpr ⟨h0, fun h => hno ((hserves c p).mp h)⟩
    · exact judge_hold hserving hneither hpol
    · exact judge_skip hserving hneither hpol
    · rw [judge_twin hserving hneither hpol]
      refine ⟨judgeTwin_unpaired _, fun d hd => ?_⟩
      rw [judgeTwin_paired _ hd]
      exact ⟨fun h => if_pos ((hserves d _).mpr h), fun h => if_neg fun hs => h ((hserves d _).mp hs)⟩
  · intro idle waits
    refine ⟨fun h => if_neg (by simp [h]), fun h hno => ?_, fun t n k l howed hz ht hord hl => ?_⟩
    · rw [attemptLook_owed h]
      simp only [State.attempt, waitingTin_none (s := s.tried) hno]
      rfl
    · intro z2 scale goes plan dose es
      have hw : s.tried.waitingTin = some (t, n, k) := waitingTin_eq (s := s.tried) hz ht hord
      have hline : s.tried.line? n = some l := hl
      have hz2 : s.tried.z2Free = true ↔ z2 := z2Free_iff
      have hgoes : s.tried.lineGoes n = true ↔ goes := lineGoes_iff hline
      have hconds : s.tried.failedConditions n = [] ↔ s.stopped = false ∧ z2 ∧ scale ∧ goes := by
        rw [failedConditions_eq_nil_iff, hz2, hgoes]
        rfl
      refine ⟨fun hfail => ?_, fun hs1 hz1 hc1 hg1 => ?_⟩
      · have hfails := mem_failedConditions (s := s.tried) (n := n)
        have hscale : (s.tried.stn.scale = .doseCheck ∧ s.tried.stn.cal = none) ↔ scale := Iff.rfl
        have hstopped : s.tried.stopped = s.stopped := rfl
        simp only [hz2, hgoes, hscale, hstopped] at hfails
        rw [attemptLook_owed howed, attempt_waits hw fun h => hfail (hconds.mp h)]
        refine ⟨_, rfl, ?_⟩
        simp [hfails]
      · have hes : s.tried.doseEntries l plan = es := by
          refine congrArg (List.filterMap · (l.formula.lines.zip plan)) (funext fun x => ?_)
          obtain ⟨y, j⟩ := x
          cases j <;> rfl
        have hjudged : s.attemptLook = s.tried.judgePlan t l plan := by
          rw [attemptLook_owed howed, attempt_judges hw (hconds.mpr ⟨hs1, hz1, hc1, hg1⟩) hline]
          rfl
        rw [hjudged]
        refine ⟨fun front c p back hplan hfront => ?_, fun hnone => ⟨fun hp => ?_, fun hp => ?_⟩⟩
        · exact judgePlan_holds (hplan ▸ holdOf_append c p hfront) hl
        · exact judgePlan_purge (s := s.tried) hes (holdOf_of_none hnone) hp
        · rw [judgePlan_admits hes (holdOf_of_none hnone) hp]
          obtain ⟨hreserved, hplaces, htrack⟩ := admitTin_places (s := s.tried) (t := t) hes
          obtain ⟨htin, htins⟩ := admitTin_tin? (s := s.tried) hes (tin?_of_tinAt hz)
          obtain ⟨hunset, hset⟩ := admitTin_store (s := s.tried) (t := t) hes
          obtain ⟨hcommitted, hlines⟩ := commitPlan_line? plan hline
          obtain ⟨hbk, hcircuits⟩ := admitTin_commits (s := s.tried) (t := t) hes
          refine ⟨_, committedEntries plan l.entries, rfl, ?_, hreserved, hplaces, htrack, ⟨_, htin, mem_admitted t es s.now⟩,
            htins, (line?_congr hbk n).trans hcommitted, fun m hm => (line?_congr hbk m).trans (hlines m hm),
            fun i e j he hj => committedEntries_get he hj (hnone j (List.mem_of_getElem? hj)), fun hb => ?_, hunset, hset,
            ((unchanged_tried s).trans (admitTin_unchanged hes)).mono (by decide)⟩
          · rw [admitTin_eq hes]
            rfl
          · have hlen : plan.length = l.entries.length := plan_length _ hb hl
            refine ⟨committedEntries_length hlen, fun c => ?_⟩
            rw [circuit_congr hcircuits, State.bindings, hbk]
            exact commitPlan_counts (s := s.tried) hb hline hlen c

end Sys2Proof.Machine
end

