-- ==== Sys2Proof/Proofs/Ledger.lean ====
section
/-! PROOF SUPPORT. The ledger of the book: its lines without hold reasons and lots, and the circuits' open-batch counts and
active minimum doses. The operations that leave it. -/

namespace Sys2Proof.Machine

set_option Elab.async false

/-! ### The ledger -/

/-- An order line without its hold reason and the lots of its entries. -/
def OrderLine.core (l : OrderLine) : OrderLine :=
  { l with hold := none, entries := l.entries.map fun e => { e with lot := none } }

/-- The order lines, and of each circuit the open-batch count and the active minimum dose. -/
structure Ledger where
  lines : List OrderLine
  counts : Circ → Nat × Nat

def State.ledger (s : State) : Ledger :=
  ⟨s.bk.lines.map OrderLine.core, fun c => ((s.circuit c).openBatch, (s.circuit c).nmin)⟩

/-- The same book and the same counts are the same ledger. -/
theorem ledger_congr {s t : State} (hb : t.bk = s.bk)
    (hc : ∀ c, (t.circuit c).openBatch = (s.circuit c).openBatch ∧ (t.circuit c).nmin = (s.circuit c).nmin) :
    t.ledger = s.ledger := by
  simp only [State.ledger, hb, Ledger.mk.injEq, true_and]
  exact funext fun c => Prod.ext (hc c).1 (hc c).2

theorem Confined.ledger {c : Circ} {s t : State} (h : Confined c s t) : t.ledger = s.ledger := by
  refine ledger_congr (h.unchanged.2.2 .book (by decide)) fun d => ?_
  by_cases hd : d = c
  · have hs := h.staged
    simp only [Circuit.staged, Prod.mk.injEq] at hs
    obtain ⟨-, hopen, -, -, hnmin, -⟩ := hs
    exact hd ▸ ⟨hopen, hnmin⟩
  · simp only [h.others d hd, and_self]

theorem Local.ledger {c : Circ} {s t : State} (h : Local c s t) : t.ledger = s.ledger := h.confined.ledger

variable (s : State)

@[simp] theorem ledger_setCircuit (c : Circ) (f : Circuit → Circuit)
    (h : ∀ r, (f r).openBatch = r.openBatch ∧ (f r).nmin = r.nmin) : (s.setCircuit c f).ledger = s.ledger := by
  refine ledger_congr rfl fun d => ?_
  rw [setCircuit_circuit_eq]
  split
  · rename_i hd
    exact hd ▸ h _
  · exact ⟨rfl, rfl⟩

theorem ledger_foldl {α : Type} {f : State → α → State} (h : ∀ u x, (f u x).ledger = u.ledger) (l : List α) (s : State) :
    (l.foldl f s).ledger = s.ledger := by
  induction l generalizing s with
  | nil => rfl
  | cons x xs ih => rw [List.foldl_cons, ih, h]

theorem ledger_forCircuits {f : Circ → State → State} (h : ∀ c u, (f c u).ledger = u.ledger) (s : State) :
    (forCircuits f s).ledger = s.ledger := ledger_foldl (fun u c => h c u) _ s

/-! ### Updates of the other parts -/

/-- No update of another part of the state reaches the ledger. -/
@[simp] theorem ledger_updates :
    (∀ (t : Nat), (s.reach t).ledger = s.ledger) ∧ s.choose.ledger = s.ledger
      ∧ (∀ (c : Circ) (f : Pump → Pump), (s.setPump c f).ledger = s.ledger)
      ∧ (∀ (c : Circ) (f : Activity → Activity), (s.setActivity c f).ledger = s.ledger)
      ∧ (∀ (id : Nat) (f : Tin → Tin), (s.setTin id f).ledger = s.ledger) ∧ (∀ (t : Tin), (s.addTin t).ledger = s.ledger)
      ∧ (∀ (id : Nat), (s.dropTin id).ledger = s.ledger)
      ∧ (∀ (p : Place) (f : PlaceRecord → PlaceRecord), (s.setPlace p f).ledger = s.ledger)
      ∧ (∀ (f : Track → Track), (s.setTrack f).ledger = s.ledger)
      ∧ (∀ (m : Mix) (f : Mixer → Mixer), (s.setMixer m f).ledger = s.ledger)
      ∧ (∀ (f : Station → Station), (s.setStn f).ledger = s.ledger)
      ∧ (∀ (f : Lidder → Lidder), (s.setLid f).ledger = s.ledger) ∧ (∀ (f : Care → Care), (s.setCares f).ledger = s.ledger)
      ∧ (∀ (f : Flag) (items : List Item), (s.setFlag f items).ledger = s.ledger)
      ∧ (∀ (p : Bool) (r : Reply), (s.pushReply p r).ledger = s.ledger)
      ∧ (∀ (f : List InEntry → List InEntry), (s.setInputs f).ledger = s.ledger)
      ∧ (∀ (n : Nat), (s.setCursor n).ledger = s.ledger) ∧ (∀ (r : StoreRecord), (s.linkWrite r).ledger = s.ledger)
      ∧ (∀ (c : Circ), (s.markDirty c).ledger = s.ledger) ∧ (∀ (new : Marker), (s.askMarkerSet new).ledger = s.ledger)
      ∧ s.askMarkerClear.ledger = s.ledger ∧ (∀ (c : Circ) (t : Nat), (s.addDue c t).ledger = s.ledger)
      ∧ (∀ (c : Circ), (s.dropDue c).ledger = s.ledger) := by
  and_intros <;> intros <;> rfl

/-- Tins and places. -/
@[simp] theorem ledger_tinUpdates :
    (∀ (id : Nat) (n : Note), (s.noteTin id n).ledger = s.ledger) ∧ (∀ (id : Nat), (s.readyTin id).ledger = s.ledger)
      ∧ (∀ (id : Nat) (g : Stage), (s.stageTin id g).ledger = s.ledger)
      ∧ (∀ (id k : Nat) (f : DoseEntry → DoseEntry), (s.setEntry id k f).ledger = s.ledger)
      ∧ (∀ (id k : Nat), (s.notRun id k).ledger = s.ledger)
      ∧ (∀ (p : Place) (b : Bool), (s.setUncertain p b).ledger = s.ledger)
      ∧ (∀ (p : Place) (id : Nat), (s.restAt p id).ledger = s.ledger) ∧ (∀ (p : Place), (s.orphanAt p).ledger = s.ledger)
      ∧ s.orphanInLane.ledger = s.ledger ∧ (∀ (p : Place), (s.appeared p).ledger = s.ledger)
      ∧ (∀ (p : Place) (id : Nat), (s.vanished p id).ledger = s.ledger)
      ∧ (∀ (m : Mix) (id : Nat), (s.holdOrphan m id).ledger = s.ledger)
      ∧ (∀ (p : Place) (id : Nat), (s.reserve p id).ledger = s.ledger) ∧ s.armNote.ledger = s.ledger := by
  and_intros <;> intros <;> rfl

/-- Pumps and the Tag Bus. -/
@[simp] theorem ledger_pumpUpdates :
    (∀ (c : Circ), (s.forfeitSlots c).ledger = s.ledger)
      ∧ (∀ (c : Circ) (q : PumpRequest), (s.createActivity c q).ledger = s.ledger)
      ∧ (∀ (c : Circ) (a : Activity), (s.grant c a).ledger = s.ledger) ∧ s.beginFrame.ledger = s.ledger
      ∧ (∀ (c : Circ) (k : JobKind), (s.askTag c k).ledger = s.ledger)
      ∧ (∀ (c : Circ) (r : LastResult), (s.setLast c r).ledger = s.ledger)
      ∧ (∀ (c : Circ) (g : TagImage), (s.setImage c g).ledger = s.ledger) ∧ s.dropJob.ledger = s.ledger
      ∧ (∀ (b : BusState), (s.setBus b).ledger = s.ledger) ∧ (∀ (a : ActiveJob), (s.setActiveJob a).ledger = s.ledger)
      ∧ (∀ (a : ActiveJob) (p : BusPhase), (s.goPhase a p).ledger = s.ledger)
      ∧ (∀ (a : ActiveJob), (s.waitBus a).ledger = s.ledger) ∧ s.sendStop.ledger = s.ledger
      ∧ s.endAbandoned.ledger = s.ledger := by
  and_intros <;> intros <;> rfl

/-- The station, the Lidder and the Mixers. -/
@[simp] theorem ledger_stationUpdates :
    s.jobIdle.ledger = s.ledger ∧ s.oweAttempt.ledger = s.ledger ∧ s.beginSettle.ledger = s.ledger
      ∧ (∀ (id : Nat), (s.beginPreparing id).ledger = s.ledger)
      ∧ (∀ (q : CalRun) (m : Int), (s.calFinished q m).ledger = s.ledger)
      ∧ (∀ (c : Circ) (target n : Nat), (s.beginCal c target n).ledger = s.ledger) ∧ s.stationRestart.ledger = s.ledger
      ∧ (∀ (c : Circ) (old new : Settings), (s.calibrationChanged c old new).ledger = s.ledger)
      ∧ (∀ (id : Nat) (code : Fin 3), (s.lidEmpty id code).ledger = s.ledger) ∧ s.startCycle.ledger = s.ledger
      ∧ (∀ (m : Fin 3) (code : Option (Fin 3)) (count : Option Nat), (s.putMagazine m code count).ledger = s.ledger)
      ∧ s.lidderRestart.ledger = s.ledger ∧ (∀ (m : Mix) (id : Nat), (s.reserveMixer m id).ledger = s.ledger)
      ∧ (∀ (m : Mix), (s.idleMixer m).ledger = s.ledger)
      ∧ (∀ (m : Mix) (g : MixerState), (s.flagDoor m g).ledger = s.ledger)
      ∧ (∀ (m : Mix), (s.mixerStop m).ledger = s.ledger) ∧ (∀ (m : Mix), (s.mixerPower m).ledger = s.ledger) := by
  and_intros <;> intros <;> rfl

/-! ### Circuits and dues -/

@[simp] theorem ledger_tagAccepted (c : Circ) (g : TagImage) :
    (s.setCircuit c fun r => r.tagAccepted g).ledger = s.ledger := by
  refine ledger_setCircuit s c _ fun r => ?_
  unfold Circuit.tagAccepted
  split <;> exact ⟨rfl, rfl⟩

/-- Dues and states of one circuit. -/
@[simp] theorem ledger_dues :
    (∀ (c : Circ) (t : Nat), (s.stirComesDue c t).ledger = s.ledger)
      ∧ (∀ (c : Circ) (back : Bool), (s.cutStir c back).ledger = s.ledger)
      ∧ (∀ (c : Circ), (s.clearPurgeDue c).ledger = s.ledger) ∧ (∀ (c : Circ), (s.purgeTest c).ledger = s.ledger)
      ∧ (∀ (c : Circ) (g : CircuitState), (s.moveCircuit c g).ledger = s.ledger) :=
  ⟨fun c t => (Local.stirComesDue c s t).ledger, fun c b => (Local.cutStir c s b).ledger,
    fun c => (Local.clearPurgeDue c s).ledger, fun c => (Local.purgeTest c s).ledger, fun c g => (Local.moveCircuit c s g).ledger⟩

/-- Levels and ended runs. -/
@[simp] theorem ledger_levels :
    (∀ (c : Circ), (s.lowEvaluate c).ledger = s.ledger) ∧ (∀ (c : Circ), (s.emptyCheck c).ledger = s.ledger)
      ∧ (∀ (c : Circ), (s.emptyCheckReserve c).ledger = s.ledger)
      ∧ (∀ (c : Circ) (n : Nat) (t : Int), (s.reduceLevel c n t).ledger = s.ledger)
      ∧ (∀ (c : Circ) (a : Activity) (volume : Nat) (cause : EndCause), (s.tellOwner c a volume cause).ledger = s.ledger)
      ∧ (∀ (c : Circ) (a : Activity) (before : Circuit), (s.keepDelivery c a before).ledger = s.ledger)
      ∧ (∀ (c : Circ), (s.refuseNext c).ledger = s.ledger) ∧ (∀ (c : Circ), (s.forcedRemoval c).ledger = s.ledger) :=
  ⟨fun c => (Local.lowEvaluate c s).ledger, fun c => (Local.emptyCheck c s).ledger,
    fun c => (Local.emptyCheckReserve c s).ledger, fun c n t => (Local.reduceLevel c s n t).ledger,
    fun c a v w => (Local.tellOwner c s a v w).ledger, fun c a b => (Local.keepDelivery c s a b).ledger,
    fun c => (refuseNext_local s c).ledger, fun c => (forcedRemoval_local s c).ledger⟩

@[simp] theorem ledger_blocks :
    (∀ (c : Circ), (s.endStir c).ledger = s.ledger)
      ∧ (∀ (c : Circ) (cause : PurgeCause), (s.purgeBecomesDue c cause).ledger = s.ledger)
      ∧ (∀ (c : Circ) (why : BlockReason), (s.flagBlocked c why).ledger = s.ledger)
      ∧ (∀ (x : Circ × Nat), (s.startStir x).ledger = s.ledger)
      ∧ (∀ (c : Circ) (why : BlockReason), (s.block c why).ledger = s.ledger) := by
  simp [State.endStir, State.purgeBecomesDue, State.flagBlocked, State.startStir, State.block]

@[simp] theorem ledger_pumpFault (c : Circ) : (s.pumpFault c).ledger = s.ledger := by
  unfold State.pumpFault
  split <;> simp

/-! ### Pumps -/

@[simp] theorem ledger_askPump (c : Circ) (q : PumpRequest) : (s.askPump c q).1.ledger = s.ledger := by
  unfold State.askPump
  repeat' split
  all_goals simp

@[simp] theorem ledger_releaseNext (c : Circ) : (s.releaseNext c).ledger = s.ledger := by
  unfold State.releaseNext
  split <;> simp

@[simp] theorem ledger_askPrime (c : Circ) : (s.askPrime c).ledger = s.ledger := by simp [State.askPrime]

@[simp] theorem ledger_primes :
    (∀ (c : Circ), (s.createHeldPrime c).ledger = s.ledger) ∧ (∀ (c : Circ), (s.askPrimeAgain c).ledger = s.ledger)
      ∧ (∀ (c : Circ), (s.primeCap c).ledger = s.ledger) := by
  dsimp only [State.createHeldPrime, State.askPrimeAgain, State.primeCap]
  and_intros <;> intros
  all_goals repeat' split
  all_goals simp

@[simp] theorem ledger_primesLook : s.primesLook.ledger = s.ledger := ledger_forCircuits (fun c u => by simp) _

@[simp] theorem ledger_endActivity (c : Circ) (cause : EndCause) : (s.endActivity c cause).ledger = s.ledger := by
  unfold State.endActivity
  repeat' split
  all_goals simp

@[simp] theorem ledger_cuts :
    (∀ (c : Circ) (why : CutCause), (s.cutFinally c why).ledger = s.ledger)
      ∧ (∀ (c : Circ), (s.abandonNow c).ledger = s.ledger) ∧ (∀ (c : Circ), (s.resumeActivity c).ledger = s.ledger)
      ∧ (∀ (c : Circ), (s.resumePrime c).ledger = s.ledger) := by
  dsimp only [State.cutFinally, State.abandonNow, State.resumeActivity, State.resumePrime]
  and_intros <;> intros
  all_goals repeat' split
  all_goals simp

/-- STOP, RESUME and RESTART at a pump. -/
@[simp] theorem ledger_stops :
    (∀ (c : Circ), (s.pumpRestart c).ledger = s.ledger) ∧ (∀ (c : Circ), (s.pumpResume c).ledger = s.ledger)
      ∧ (∀ (c : Circ), (s.abandon c).ledger = s.ledger) := by
  dsimp only [State.pumpRestart, State.pumpResume, State.abandon]
  and_intros <;> intros
  all_goals repeat' split
  all_goals simp

@[simp] theorem ledger_pumpStop (c : Circ) : (s.pumpStop c).ledger = s.ledger := by
  unfold State.pumpStop
  repeat' split
  all_goals simp

@[simp] theorem ledger_abandonPurges : s.abandonPurges.ledger = s.ledger := by
  refine ledger_forCircuits (fun c u => ?_) s
  split
  · split <;> simp
  · rfl

@[simp] theorem ledger_serveSlot (k : Nat) : (s.serveSlot k).ledger = s.ledger := by
  unfold State.serveSlot
  repeat' split
  all_goals simp

@[simp] theorem ledger_nextSlot : s.nextSlot.ledger = s.ledger := by
  unfold State.nextSlot
  dsimp only
  split
  · rw [ledger_serveSlot]; rfl
  · rfl

@[simp] theorem ledger_advancePhase (c : Circ) : (s.advancePhase c).ledger = s.ledger := by
  unfold State.advancePhase
  dsimp only
  repeat' split
  all_goals simp

@[simp] theorem ledger_atBoundary (c : Circ) : (s.atBoundary c).ledger = s.ledger := by
  unfold State.atBoundary
  repeat' split
  all_goals simp

@[simp] theorem ledger_burstComplete (c : Circ) : (s.burstComplete c).ledger = s.ledger := by
  unfold State.burstComplete
  split <;> simp

@[simp] theorem ledger_burstStall (c : Circ) : (s.burstStall c).ledger = s.ledger := by
  unfold State.burstStall
  split <;> simp

@[simp] theorem ledger_burstTimeout (c : Circ) : (s.burstTimeout c).ledger = s.ledger := by
  unfold State.burstTimeout
  split <;> simp

/-! ### The Tag Bus -/

/-- What a job's end makes of its circuit. -/
@[simp] theorem ledger_jobEnds :
    (∀ (c : Circ) (g : TagImage), (s.readSucceeded c g).ledger = s.ledger)
      ∧ (∀ (c : Circ) (f : TagFailure), (s.readFailed c f).ledger = s.ledger)
      ∧ (∀ (c : Circ), (s.releaseEnds c).ledger = s.ledger) := by
  dsimp only [State.readSucceeded, State.readFailed, State.releaseEnds]
  and_intros <;> intros
  all_goals repeat' split
  all_goals simp

@[simp] theorem ledger_writeEnded (c : Circ) (f : Option TagFailure) : (s.writeEnded c f).ledger = s.ledger := by
  unfold State.writeEnded
  repeat' split
  all_goals simp

@[simp] theorem ledger_jobs :
    (∀ (a : ActiveJob) (f : TagFailure), (s.failJob a f).ledger = s.ledger)
      ∧ (∀ (a : ActiveJob), (s.writeDone a).ledger = s.ledger) := by
  dsimp only [State.failJob, State.writeDone]
  and_intros <;> intros
  all_goals repeat' split
  all_goals simp

@[simp] theorem ledger_judged :
    (∀ (a : ActiveJob), (s.judgeRead a).ledger = s.ledger) ∧ (∀ (a : ActiveJob), (s.countLoss a).ledger = s.ledger)
      ∧ (∀ (a : ActiveJob), (s.countFault a).ledger = s.ledger)
      ∧ (∀ (a : ActiveJob) (n : Nat), (s.pageStored a n).ledger = s.ledger) := by
  dsimp only [State.judgeRead, State.countLoss, State.countFault, State.pageStored]
  and_intros <;> intros
  all_goals repeat' split
  all_goals simp

@[simp] theorem ledger_busTaken :
    s.stopSeenOnBus.ledger = s.ledger ∧ s.busTaken.ledger = s.ledger := by
  dsimp only [State.stopSeenOnBus, State.busTaken]
  and_intros
  all_goals repeat' split
  all_goals simp

/-- Bus conditions and the results of a transaction. -/
@[simp] theorem ledger_bus :
    s.startSeen.ledger = s.ledger ∧ s.linesHigh.ledger = s.ledger ∧ s.startTaken.ledger = s.ledger
      ∧ s.addressAcked.ledger = s.ledger ∧ s.addressNaked.ledger = s.ledger
      ∧ (∀ (data : BitVec 8), (s.byteAcked data).ledger = s.ledger) ∧ s.byteNaked.ledger = s.ledger
      ∧ s.arbitrationLost.ledger = s.ledger ∧ s.lineBroken.ledger = s.ledger := by
  dsimp only [State.startSeen, State.linesHigh, State.startTaken, State.addressAcked, State.addressNaked,
    State.byteAcked, State.byteNaked, State.arbitrationLost, State.lineBroken]
  and_intros <;> intros
  all_goals repeat' split
  all_goals simp

@[simp] theorem ledger_busReleased : s.busReleased.ledger = s.ledger := (ledger_busTaken s).1

@[simp] theorem ledger_busTimes :
    s.stopEnded.ledger = s.ledger ∧ s.pollDue.ledger = s.ledger ∧ s.pollTimeout.ledger = s.ledger
      ∧ s.busWaited.ledger = s.ledger := by
  dsimp only [State.stopEnded, State.pollDue, State.pollTimeout, State.busWaited]
  and_intros
  all_goals repeat' split
  all_goals simp

@[simp] theorem ledger_tagBegin : s.tagBegin.ledger = s.ledger := by
  have h (a : Option ActiveJob) (q : List TagJob) (u : State) :
      ({ u with tag := { u.tag with active := a, queue := q } } : State).ledger = u.ledger := rfl
  unfold State.tagBegin
  dsimp only
  repeat' split
  all_goals simp [h]

/-! ### The Circuit Table -/

@[simp] theorem ledger_bay :
    (∀ (c : Circ), (s.insertion c).ledger = s.ledger) ∧ (∀ (c : Circ), (s.clampLevel c).ledger = s.ledger)
      ∧ (∀ (c : Circ), (s.codeMoves c).ledger = s.ledger) ∧ (∀ (c : Circ), (s.purgeIntervalSet c).ledger = s.ledger)
      ∧ (∀ (c : Circ), (s.release c).ledger = s.ledger) ∧ (∀ (c : Circ), (s.circuitRestart c).ledger = s.ledger) := by
  dsimp only [State.insertion, State.clampLevel, State.codeMoves, State.purgeIntervalSet, State.release,
    State.circuitRestart]
  and_intros <;> intros
  all_goals repeat' split
  all_goals simp

@[simp] theorem ledger_bayEvent (c : Circ) : (s.bayEvent c).ledger = s.ledger := by
  unfold State.bayEvent
  dsimp only
  repeat' split
  all_goals simp

@[simp] theorem ledger_bayCompare (c : Circ) : (s.bayCompare c).ledger = s.ledger := by
  unfold State.bayCompare
  split <;> simp

@[simp] theorem ledger_bayChanged (c : Circ) : (s.bayChanged c).ledger = s.ledger := by
  unfold State.bayChanged
  dsimp only
  repeat' split
  all_goals simp

/-! ### Order lines -/

theorem ledger_setLine {n : Nat} {f : OrderLine → OrderLine} (h : ∀ l, (f l).core = l.core) :
    (s.setLine n f).ledger = s.ledger := by
  have hmap : (s.setLine n f).bk.lines.map OrderLine.core = s.bk.lines.map OrderLine.core := by
    rw [State.setLine, List.map_map]
    refine List.map_congr_left fun l _ => ?_
    rw [Function.comp_apply]
    split
    · exact h l
    · rfl
  simp only [State.ledger, hmap]
  rfl

theorem core_modifyLot (k : Nat) (lot : Option Text) (es : List ColourantEntry) :
    (modifyAt (fun e => { e with lot := lot }) k es).map (fun e => { e with lot := none })
      = es.map fun e => { e with lot := none } := by
  induction es generalizing k with
  | nil => cases k <;> rfl
  | cons e es ih =>
    cases k with
    | zero => rfl
    | succ k => simp only [modifyAt, List.map_cons, ih]

/-- A lot is no part of the ledger. -/
@[simp] theorem ledger_compareLot (id k : Nat) (c : Circ) : (s.compareLot id k c).ledger = s.ledger := by
  unfold State.compareLot
  split
  · split
    · split <;> simp
    · refine ledger_setLine s fun l => ?_
      simp only [OrderLine.core, core_modifyLot]
  · rfl

@[simp] theorem ledger_orders :
    (∀ (before : State), (State.loadWanted before s).ledger = s.ledger) ∧ (∀ (n : Nat), (s.failAtZ1 n).ledger = s.ledger) := by
  dsimp only [State.loadWanted, State.failAtZ1]
  and_intros <;> intros
  all_goals repeat' split
  all_goals simp

/-! ### Places, the Lidder and the Mixers -/

/-- Sensors compared with records. -/
@[simp] theorem ledger_compared :
    (∀ (p : Place), (s.zoneCompare p).ledger = s.ledger) ∧ (∀ (m : Mix), (s.cradleCompare m).ledger = s.ledger) := by
  dsimp only [State.zoneCompare, State.cradleCompare]
  and_intros <;> intros
  all_goals repeat' split
  all_goals simp

@[simp] theorem ledger_placeCompare (p : Place) : (s.placeCompare p).ledger = s.ledger := by
  unfold State.placeCompare
  split <;> simp

@[simp] theorem ledger_bypassTin (id : Nat) (status : LidStatus) : (s.bypassTin id status).ledger = s.ledger := by
  simp [State.bypassTin]

@[simp] theorem ledger_noLid (id : Nat) (code : Fin 3) : (s.noLid id code).ledger = s.ledger := by
  dsimp only [State.noLid]
  repeat' split
  all_goals simp

@[simp] theorem ledger_lidSearch : s.lidSearch.ledger = s.ledger := by
  unfold State.lidSearch
  repeat' split
  all_goals simp

@[simp] theorem ledger_lidder :
    (∀ (id : Nat), (s.lidderTake id).ledger = s.ledger) ∧ (∀ (id : Nat), (s.lidderLeave id).ledger = s.ledger)
      ∧ (∀ (m : Fin 3), (s.drawLid m).ledger = s.ledger) ∧ (∀ (seated : Bool), (s.judgeSeat seated).ledger = s.ledger)
      ∧ s.abandonCycle.ledger = s.ledger := by
  dsimp only [State.lidderTake, State.lidderLeave, State.drawLid, State.judgeSeat, State.abandonCycle]
  and_intros <;> intros
  all_goals repeat' split
  all_goals simp

@[simp] theorem ledger_press :
    s.pressLook.ledger = s.ledger ∧ (∀ (seated : Bool), (s.cycleEnds seated).ledger = s.ledger) := by
  dsimp only [State.pressLook, State.cycleEnds]
  and_intros <;> intros
  all_goals repeat' split
  all_goals simp

/-- The steps of a mixer. -/
@[simp] theorem ledger_mixers :
    s.mixerChoose.ledger = s.ledger ∧ (∀ (m : Mix) (id : Nat), (s.mixerTake m id).ledger = s.ledger)
      ∧ (∀ (m : Mix), (s.clampEnds m).ledger = s.ledger) ∧ (∀ (m : Mix), (s.mixEnds m).ledger = s.ledger)
      ∧ (∀ (m : Mix), (s.brakeEnds m).ledger = s.ledger) ∧ (∀ (m : Mix), (s.reachHolding m).ledger = s.ledger)
      ∧ (∀ (m : Mix), (s.doorOpens m).ledger = s.ledger) ∧ (∀ (m : Mix), (s.mixerResume m).ledger = s.ledger)
      ∧ (∀ (m : Mix) (x : Mixer), (s.abortMix m x).ledger = s.ledger) ∧ (∀ (m : Mix), (s.holdOrIdle m).ledger = s.ledger) := by
  dsimp only [State.mixerChoose, State.mixerTake, State.clampEnds, State.mixEnds, State.brakeEnds, State.reachHolding,
    State.doorOpens, State.mixerResume, State.abortMix, State.holdOrIdle]
  and_intros <;> intros
  all_goals repeat' split
  all_goals simp

@[simp] theorem ledger_mixerEnds :
    (∀ (m : Mix), (s.unclampEnds m).ledger = s.ledger) ∧ (∀ (m : Mix), (s.mixerRestart m).ledger = s.ledger) := by
  dsimp only [State.unclampEnds, State.mixerRestart]
  and_intros <;> intros
  all_goals repeat' split
  all_goals simp

/-! ### The station -/

@[simp] theorem ledger_jobTinRemoved : s.jobTinRemoved.ledger = s.ledger := by
  unfold State.jobTinRemoved
  split <;> simp

@[simp] theorem ledger_handDose (id k : Nat) (e : DoseEntry) (compared : Bool) :
    (s.handDose id k e compared).ledger = s.ledger := by
  dsimp only [State.handDose]
  repeat' split
  all_goals simp

@[simp] theorem ledger_lookEntry (id k : Nat) : (s.lookEntry id k).ledger = s.ledger := by
  unfold State.lookEntry
  repeat' split
  all_goals simp

@[simp] theorem ledger_lookEntries (id : Nat) : (s.lookEntries id).ledger = s.ledger := ledger_foldl (fun u k => by simp) _ s

@[simp] theorem ledger_weighing :
    (∀ (id : Nat) (v : Verdict), (s.checkDecided id v).ledger = s.ledger)
      ∧ (∀ (t : Tin), (s.beginWeighing t).ledger = s.ledger) ∧ (∀ (q : CalRun), (s.calWeighing q).ledger = s.ledger)
      ∧ s.delayEnds.ledger = s.ledger ∧ (∀ (m : ScaleMode), (s.assignScale m).ledger = s.ledger) := by
  dsimp only [State.checkDecided, State.beginWeighing, State.calWeighing, State.delayEnds, State.assignScale]
  and_intros <;> intros
  all_goals repeat' split
  all_goals simp

@[simp] theorem ledger_dosing :
    (∀ (id : Nat), (s.dosingLook id).ledger = s.ledger) ∧ (∀ (q : CalRun), (s.handCal q).ledger = s.ledger) := by
  dsimp only [State.dosingLook, State.handCal]
  and_intros <;> intros
  all_goals repeat' split
  all_goals simp

@[simp] theorem ledger_calRunning (q : CalRun) : (s.calRunning q).ledger = s.ledger := by
  unfold State.calRunning
  repeat' split
  all_goals simp

@[simp] theorem ledger_calPrepared (q : CalRun) : (s.calPrepared q).ledger = s.ledger := by
  unfold State.calPrepared
  split <;> simp

@[simp] theorem ledger_stationLook : s.stationLook.ledger = s.ledger := by
  unfold State.stationLook
  repeat' split
  all_goals simp

@[simp] theorem ledger_capDecide : s.capDecide.ledger = s.ledger := by
  unfold State.capDecide
  repeat' split
  all_goals simp

/-! ### The track -/

@[simp] theorem ledger_reservations :
    (∀ (src dst : Place), (s.reserveNext src dst).ledger = s.ledger) ∧ s.reserveZ5.ledger = s.ledger
      ∧ (∀ (p : Place), (s.endReservation p).ledger = s.ledger) ∧ (∀ (src : Place), (s.sourceFree src).ledger = s.ledger)
      ∧ (∀ (id : Nat), (s.leftZ2 id).ledger = s.ledger) ∧ (∀ (p : Place) (id : Nat), (s.arriveAt p id).ledger = s.ledger)
      ∧ (∀ (p : Place) (id : Nat), (s.unplace p id).ledger = s.ledger)
      ∧ (∀ (j : JamPair), (s.clearPair j).ledger = s.ledger) ∧ (∀ (p : Place), (s.idleHolding p).ledger = s.ledger) := by
  dsimp only [State.reserveNext, State.reserveZ5, State.endReservation, State.sourceFree, State.leftZ2, State.arriveAt,
    State.unplace, State.clearPair, State.idleHolding]
  and_intros <;> intros
  all_goals repeat' split
  all_goals simp

@[simp] theorem ledger_moves :
    (∀ (id : Nat) (src dst : Place), (s.beginMove id src dst).ledger = s.ledger)
      ∧ (∀ (id : Nat) (p : Place), (s.handOver id p).ledger = s.ledger) ∧ (∀ (v : Move), (s.moveJams v).ledger = s.ledger)
      ∧ (∀ (j : JamPair), (s.jamPlaced j).ledger = s.ledger) := by
  dsimp only [State.beginMove, State.handOver, State.moveJams, State.jamPlaced]
  and_intros <;> intros
  all_goals repeat' split
  all_goals simp

@[simp] theorem ledger_conveyors :
    (∀ (src dst : Place), (s.conveyorLook src dst).ledger = s.ledger) ∧ s.armGrant.ledger = s.ledger
      ∧ (∀ (v : Move), (s.moveOver v).ledger = s.ledger) ∧ (∀ (p : Place), (s.jammed p).ledger = s.ledger) := by
  dsimp only [State.conveyorLook, State.armGrant, State.moveOver, State.jammed]
  and_intros <;> intros
  all_goals repeat' split
  all_goals simp

@[simp] theorem ledger_track :
    s.reservations.ledger = s.ledger ∧ s.conveyors.ledger = s.ledger := by
  simp [State.reservations, State.conveyors]

@[simp] theorem ledger_trackLook : s.trackLook.ledger = s.ledger := by simp [State.trackLook]

@[simp] theorem ledger_moveArrives (v : Move) (marks : Nat) : (s.moveArrives v marks).ledger = s.ledger := by
  unfold State.moveArrives
  split <;> simp

@[simp] theorem ledger_arrived (p : Place) (marks : Nat) : (s.arrived p marks).ledger = s.ledger := by
  unfold State.arrived
  split <;> simp

@[simp] theorem ledger_certain (p : Place) : (s.certain p).ledger = s.ledger := by
  unfold State.certain
  dsimp only
  repeat' split
  all_goals simp

@[simp] theorem ledger_liftTin (id : Nat) : (s.liftTin id).ledger = s.ledger := by
  simpa [State.liftTin] using ledger_foldl (fun u p => by simp) singlePlaces s

@[simp] theorem ledger_tellRemoved (id : Nat) : (s.tellRemoved id).ledger = s.ledger := by
  dsimp only [State.tellRemoved]
  rw [ledger_foldl fun u m => by split <;> simp]
  split <;> simp

@[simp] theorem ledger_findOrphans : s.findOrphans.ledger = s.ledger := by
  refine (ledger_foldl (fun u _ => by simp) _ _).trans (ledger_foldl (fun u p => ?_) singlePlaces s)
  split <;> simp

@[simp] theorem ledger_trackRestart : s.trackRestart.ledger = s.ledger := by
  simp [State.trackRestart]

/-! ### Care -/

@[simp] theorem ledger_stirBoundary : s.stirBoundary.ledger = s.ledger := by
  refine ledger_forCircuits (fun c u => ?_) _
  split <;> simp

@[simp] theorem ledger_siteMinute : s.siteMinute.ledger = s.ledger := by
  unfold State.siteMinute
  dsimp only
  repeat' split
  · rfl
  · exact ledger_forCircuits (fun c u => by split <;> simp) _
  · rfl

@[simp] theorem ledger_stirsLook : s.stirsLook.ledger = s.ledger := by
  refine ledger_foldl (fun u x => ?_) s.cares.due s
  split <;> simp

@[simp] theorem ledger_purges :
    (∀ (c : Circ), (s.stirEnds c).ledger = s.ledger) ∧ (∀ (c : Circ), (s.askPurge c).ledger = s.ledger)
      ∧ (∀ (c : Circ), (s.purgeElapses c).ledger = s.ledger) := by
  dsimp only [State.stirEnds, State.askPurge, State.purgeElapses]
  and_intros <;> intros
  all_goals repeat' split
  all_goals simp

@[simp] theorem ledger_purgesLook : s.purgesLook.ledger = s.ledger := ledger_forCircuits (fun c u => by simp) _

@[simp] theorem ledger_careStop : s.careStop.ledger = s.ledger := ledger_forCircuits (fun c u => by simp) _

@[simp] theorem ledger_careRestart : s.careRestart.ledger = s.ledger := by
  simp [State.careRestart, ledger_forCircuits]

theorem ledger_race {f g : State → State} (s : State) (b : Bool) (hf : ∀ u, (f u).ledger = u.ledger)
    (hg : ∀ u, (g u).ledger = u.ledger) : (s.race b f g).ledger = s.ledger := by
  unfold State.race
  repeat' split
  all_goals simp [hf, hg]

@[simp] theorem ledger_careLook : s.careLook.ledger = s.ledger := ledger_race s _ (fun u => by simp) fun u => by simp

@[simp] theorem ledger_handLook : s.handLook.ledger = s.ledger := by
  unfold State.handLook
  split
  · exact ledger_race s _ (fun u => by simp) fun u => by simp
  · simp

@[simp] theorem ledger_closedInstant : s.closedInstant.ledger = s.ledger := by
  unfold State.closedInstant
  repeat' split
  all_goals simp

@[simp] theorem ledger_capEnds : s.capEnds.ledger = s.ledger := by
  unfold State.capEnds
  split <;> simp

/-! ### The machine as a whole -/

@[simp] theorem ledger_stopMachine : s.stopMachine.ledger = s.ledger := by
  dsimp only [State.stopMachine]
  rw [ledger_foldl fun u m => by simp]
  simp only [ledger_lidder, ledger_updates, ledger_careStop, ledger_forCircuits fun c u => ledger_pumpStop u c]
  rfl

@[simp] theorem ledger_resumeMachine : s.resumeMachine.ledger = s.ledger := by
  dsimp only [State.resumeMachine]
  rw [ledger_foldl fun u m => by simp]
  simp only [ledger_updates, ledger_forCircuits fun c u => (ledger_stops u).2.1 c]
  rfl

@[simp] theorem ledger_storeRestart : s.storeRestart.ledger = s.ledger := by
  unfold State.storeRestart
  repeat' split
  all_goals rfl

@[simp] theorem ledger_linkRestart : s.linkRestart.ledger = s.ledger := by
  unfold State.linkRestart
  repeat' split
  all_goals rfl

@[simp] theorem ledger_firstCharacter : s.firstCharacter.ledger = s.ledger := by
  unfold State.firstCharacter
  split <;> simp

@[simp] theorem ledger_discarded : s.discarded.ledger = s.ledger := by
  unfold State.discarded
  repeat' split
  all_goals rfl

end Sys2Proof.Machine
end

