-- ==== Sys2Proof/Proofs/BookConditions.lean ====
section
/-! PROOF SUPPORT. The conditions on the book over its ledger, and the changes of lines, entries and circuits that keep them. -/

namespace Sys2Proof.Machine

set_option Elab.async false

variable {s t : State} {r o : Prop} {n : Nat} {l : OrderLine}

/-! ### What the conditions on the book speak of -/

/-- The conditions on the book, with those on residues and on the order of the lines where r and o say so. -/
structure Booked (r o : Prop) (s : State) : Prop where
  book : BookInv s
  residues : r → ResidueInv s
  order : o → BookOrderInv s

theorem boundTo_core (c : Circ) (l : OrderLine) : boundTo c l.core.entries = boundTo c l.entries := by
  simp only [boundTo, OrderLine.core, List.countP_map]
  rfl

theorem entriesFit_core (l : OrderLine) : l.core.entriesFit ↔ l.entriesFit := by
  simp only [OrderLine.entriesFit, OrderLine.core, List.length_map, List.forall_mem_map]

/-- The lines as the ledger keeps them, in a sum. -/
theorem bindings_eq_core (s : State) (c : Circ) :
    s.bindings c = (s.ledger.lines.map fun l => boundTo c l.entries).sum := by
  rw [bindings_eq_sum, State.ledger, List.map_map]
  congr 1
  exact List.map_congr_left fun l _ => (boundTo_core c l).symm

theorem bookInv_iff (s : State) : BookInv s ↔ s.ledger.lines.length ≤ 32 ∧ (s.ledger.lines.map (·.number)).Nodup
    ∧ (∀ l ∈ s.ledger.lines, l.counts ∧ l.entriesFit)
    ∧ ∀ c, (s.ledger.counts c).1 = (s.ledger.lines.map fun l => boundTo c l.entries).sum := by
  simp only [← bindings_eq_core]
  simp only [BookInv, State.ledger, List.length_map, List.map_map, List.forall_mem_map, entriesFit_core]
  rfl

theorem residueInv_iff (s : State) : ResidueInv s ↔ ∀ l ∈ s.ledger.lines, ∀ e ∈ l.entries, ∀ c ∈ e.bound, ∀ x ∈ e.residue,
    x < (s.ledger.counts c).2 * 1024000000 := by
  simp only [ResidueInv, State.ledger, OrderLine.core, List.forall_mem_map]

theorem bookOrderInv_iff (s : State) : BookOrderInv s ↔ s.ledger.lines.Pairwise fun x y =>
    ¬(x.rush = false ∧ x.state = .queued ∧ y.rush = true ∧ y.state = .queued) := by
  rw [State.ledger, List.pairwise_map]
  rfl

/-- The conditions speak of the ledger alone. -/
theorem Booked.of (h : Booked r o s) (e : t.ledger = s.ledger := by simp) : Booked r o t :=
  ⟨(bookInv_iff t).mpr (e ▸ (bookInv_iff s).mp h.book), fun hr => (residueInv_iff t).mpr (e ▸ (residueInv_iff s).mp (h.residues hr)),
    fun ho => (bookOrderInv_iff t).mpr (e ▸ (bookOrderInv_iff s).mp (h.order ho))⟩

theorem Booked.foldl {α : Type} {f : State → α → State} (h : Booked r o s) (hf : ∀ u x, Booked r o u → Booked r o (f u x))
    (xs : List α) : Booked r o (xs.foldl f s) := by
  induction xs generalizing s with
  | nil => exact h
  | cons x xs ih => exact ih (hf s x h)

/-- With one number to a line, the line of a number is the one found. -/
theorem BookInv.line_eq (h : BookInv s) (hl : s.line? n = some l) {x : OrderLine} (hx : x ∈ s.bk.lines)
    (hn : x.number = n) : x = l := by
  obtain ⟨-, hd, -, -⟩ := h
  obtain ⟨hmem, hnum⟩ := line?_mem hl
  exact List.inj_on_of_nodup_map hd hx hmem (hn.trans hnum.symm)

theorem BookInv.line_counts (h : BookInv s) (hl : s.line? n = some l) : l.counts :=
  (h.2.2.1 l (line?_mem hl).1).1

/-- With one number to a line, a line is found by its number. -/
theorem BookInv.line?_of_mem (h : BookInv s) (hl : l ∈ s.bk.lines) : s.line? l.number = some l := by
  cases hx : s.line? l.number with
  | none => exact absurd (List.find?_eq_none.mp hx l hl) (by simp)
  | some x => rw [h.line_eq hx hl rfl]

/-! ### Changes of one line -/

/-- A change of a line that keeps what ties it to the other lines and to the circuits. -/
structure OrderLine.Turns (l x : OrderLine) : Prop where
  number : x.number = l.number
  formula : x.formula = l.formula
  entries : x.entries = l.entries
  counts : l.counts → x.counts

theorem OrderLine.Turns.refl (l : OrderLine) : l.Turns l := ⟨rfl, rfl, rfl, id⟩

/-- Lines that change one by one, each keeping its number, its entries and the bounds of its counts. -/
theorem BookInv.mapLines (h : BookInv s) {g : OrderLine → OrderLine} (hb : t.bk.lines = s.bk.lines.map g)
    (hg : ∀ l ∈ s.bk.lines, l.Turns (g l)) (hc : t.circuits = s.circuits) : BookInv t := by
  obtain ⟨hlen, hd, hfit, hopen⟩ := h
  have hnum : t.bk.lines.map (·.number) = s.bk.lines.map (·.number) := by
    rw [hb, List.map_map]
    exact List.map_congr_left fun l hl => (hg l hl).number
  refine ⟨by rwa [hb, List.length_map], hnum ▸ hd, fun x hx => ?_, fun c => ?_⟩
  · rw [hb] at hx
    obtain ⟨l, hl, rfl⟩ := List.mem_map.mp hx
    obtain ⟨hcounts, hentries⟩ := hfit l hl
    obtain ⟨-, hform, hent, hkeep⟩ := hg l hl
    exact ⟨hkeep hcounts, by rwa [OrderLine.entriesFit, hform, hent]⟩
  · rw [circuit_congr hc, hopen, bindings_eq_sum, bindings_eq_sum, hb, List.map_map]
    congr 1
    exact List.map_congr_left fun l hl => by rw [Function.comp_apply, (hg l hl).entries]

theorem ResidueInv.mapLines (h : ResidueInv s) {g : OrderLine → OrderLine} (hb : t.bk.lines = s.bk.lines.map g)
    (hg : ∀ l ∈ s.bk.lines, l.Turns (g l)) (hc : t.circuits = s.circuits) : ResidueInv t := by
  intro x hx e he c hcb
  rw [hb] at hx
  obtain ⟨l, hl, rfl⟩ := List.mem_map.mp hx
  rw [circuit_congr hc]
  exact h l hl e ((hg l hl).entries ▸ he) c hcb

/-- One line changes, and does not come to QUEUED. -/
theorem Booked.setLine (h : Booked r o s) {f : OrderLine → OrderLine}
    (hf : ∀ l, s.line? n = some l → l.Turns (f l) ∧ ((f l).state = .queued → l.state = .queued ∧ (f l).rush = l.rush)) :
    Booked r o (s.setLine n f) := by
  have hg (l : OrderLine) (hl : l ∈ s.bk.lines) : l.Turns (if l.number = n then f l else l)
      ∧ ((if l.number = n then f l else l).state = .queued
        → l.state = .queued ∧ (if l.number = n then f l else l).rush = l.rush) := by
    split
    · rename_i hn
      exact hf l (hn ▸ h.book.line?_of_mem hl)
    · exact ⟨.refl l, fun hq => ⟨hq, rfl⟩⟩
  refine ⟨h.book.mapLines rfl (fun l hl => (hg l hl).1) rfl, fun hr => (h.residues hr).mapLines rfl (fun l hl => (hg l hl).1) rfl,
    fun ho => List.pairwise_map.mpr ((h.order ho).imp_of_mem fun {x y} hx hy hxy hq => hxy ?_)⟩
  obtain ⟨hxr, hxq, hyr, hyq⟩ := hq
  obtain ⟨hxq', hxr'⟩ := (hg x hx).2 hxq
  obtain ⟨hyq', hyr'⟩ := (hg y hy).2 hyq
  exact ⟨hxr' ▸ hxr, hxq', hyr' ▸ hyr, hyq'⟩

/-! ### Changes of the entries of one line -/

/-- The record of an entry after a change: what it carries on stays or stays within the minimum dose of its circuit. -/
def ColourantEntry.Follows (s : State) (es : List ColourantEntry) (e' : ColourantEntry) : Prop :=
  (∃ e ∈ es, e'.residue = e.residue ∧ (e'.bound = none ∨ e'.bound = e.bound))
    ∨ ∀ x ∈ e'.residue, x < 64 * 1024000000 ∧ ∀ c ∈ e'.bound, x < (s.circuit c).nmin * 1024000000

/-- An entry that is bound to circuit c counts among the bindings. -/
theorem bindings_pos {e : ColourantEntry} {c : Circ} (hl : l ∈ s.bk.lines) (he : e ∈ l.entries) (hb : e.bound = some c) :
    s.bindings c ≠ 0 := by
  have hpos : 0 < boundTo c l.entries := List.countP_pos_iff.mpr ⟨e, he, by simp [hb]⟩
  have hle : boundTo c l.entries ≤ s.bindings c := by
    rw [bindings_eq_sum]
    exact List.single_le_sum (fun _ _ => Nat.zero_le _) _ (List.mem_map.mpr ⟨l, hl, rfl⟩)
  omega

/-- The entries of one line change; the circuits' counts are those of the bindings, and only at a count of 0 does the active
minimum dose change. -/
theorem Booked.setEntries (h : Booked r o s) {g : List ColourantEntry → List ColourantEntry}
    (hb : t.bk.lines = (s.setLine n fun l => { l with entries := g l.entries }).bk.lines)
    (hg : ∀ l, s.line? n = some l → (g l.entries).length = l.entries.length ∧ ∀ e ∈ g l.entries, e.Follows s l.entries)
    (hc : ∀ c, (t.circuit c).openBatch = t.bindings c ∧ ((t.circuit c).nmin = (s.circuit c).nmin ∨ t.bindings c = 0)) :
    Booked r o t := by
  obtain ⟨⟨hlen, hd, hfit, hopen⟩, hres, hord⟩ := id h
  have hnum : t.bk.lines.map (·.number) = s.bk.lines.map (·.number) := by
    rw [hb, State.setLine, List.map_map]
    refine List.map_congr_left fun l _ => ?_
    rw [Function.comp_apply]
    split <;> rfl
  have hmem (x : OrderLine) (hx : x ∈ t.bk.lines) : x ∈ s.bk.lines
      ∨ ∃ l, s.line? n = some l ∧ l ∈ s.bk.lines ∧ x = { l with entries := g l.entries } := by
    rw [hb] at hx
    obtain ⟨l, hl, rfl⟩ := List.mem_map.mp hx
    split
    · rename_i hn
      exact .inr ⟨l, hn ▸ h.book.line?_of_mem hl, hl, rfl⟩
    · exact .inl hl
  refine ⟨⟨?_, hnum ▸ hd, fun x hx => ?_, fun c => (hc c).1⟩, fun hr x hx e he c hcb y hy => ?_, fun ho => ?_⟩
  · rw [hb]
    simpa [State.setLine] using hlen
  · rcases hmem x hx with hl | ⟨l, hl, hmeml, rfl⟩
    · exact hfit x hl
    · obtain ⟨hcounts, hel, hsmall⟩ := hfit l hmeml
      obtain ⟨hgl, hgf⟩ := hg l hl
      refine ⟨hcounts, hgl.trans hel, fun e he y hy => ?_⟩
      rcases hgf e he with ⟨d, hd, hrd, -⟩ | hnew
      · exact hsmall d hd y (hrd ▸ hy)
      · exact (hnew y hy).1
  · have hnmin : (t.circuit c).nmin = (s.circuit c).nmin := (hc c).2.resolve_right (bindings_pos hx he hcb)
    rw [hnmin]
    rcases hmem x hx with hl | ⟨l, hl, hmeml, rfl⟩
    · exact hres hr x hl e he c hcb y hy
    · rcases (hg l hl).2 e he with ⟨d, hd, hrd, hbd | hbd⟩ | hnew
      · rw [hbd] at hcb
        cases hcb
      · exact hres hr l hmeml d hd c (hbd ▸ hcb) y (hrd ▸ hy)
      · exact (hnew y hy).2 c hcb
  · rw [BookOrderInv, hb, State.setLine, List.pairwise_map]
    refine (hord ho).imp fun {x y} hxy => ?_
    split <;> split <;> exact hxy

/-! ### A line leaves, a line enters -/

/-- The lines change their places alone. -/
theorem BookInv.perm (h : BookInv s) (hb : t.bk.lines.Perm s.bk.lines) (hc : t.circuits = s.circuits) : BookInv t := by
  obtain ⟨hlen, hd, hfit, hopen⟩ := h
  refine ⟨hb.length_eq ▸ hlen, (hb.map _).nodup_iff.mpr hd, fun l hl => hfit l (hb.mem_iff.mp hl), fun c => ?_⟩
  rw [circuit_congr hc, hopen, bindings_eq_sum, bindings_eq_sum]
  exact ((hb.map _).sum_eq).symm

/-- A line without bindings leaves the book. -/
theorem Booked.dropLine (h : Booked r o s) (hb : t.bk.lines = s.bk.lines.filter fun x => x.number != n)
    (hc : t.circuits = s.circuits) (hfree : ∀ l, s.line? n = some l → ∀ e ∈ l.entries, e.bound = none) : Booked r o t := by
  obtain ⟨⟨hlen, hd, hfit, hopen⟩, hres, hord⟩ := id h
  have hsub : t.bk.lines.Sublist s.bk.lines := hb ▸ List.filter_sublist
  refine ⟨⟨hsub.length_le.trans hlen, (hsub.map _).nodup hd, fun l hl => hfit l (hsub.subset hl), fun c => ?_⟩,
    fun hr l hl e he c => ?_, fun ho => (hord ho).sublist hsub⟩
  · have hzero (l : OrderLine) (hl : l ∈ s.bk.lines) (hn : l.number = n) : boundTo c l.entries = 0 := by
      refine List.countP_eq_zero.mpr fun e he => ?_
      simp [hfree l (hn ▸ h.book.line?_of_mem hl) e he]
    rw [circuit_congr hc, hopen, bindings_eq_sum, bindings_eq_sum, hb]
    clear hfit hres hord hd hlen hb hsub hopen h hfree
    revert hzero
    generalize s.bk.lines = xs
    intro hzero
    induction xs with
    | nil => rfl
    | cons x xs ih =>
      have hx := hzero x List.mem_cons_self
      have ih := ih fun l hl => hzero l (List.mem_cons_of_mem _ hl)
      by_cases hn : x.number = n
      · simp [hn, hx hn, ih]
      · simp [hn, ih]
  · rw [circuit_congr hc]
    exact hres hr l (hsub.subset hl) e he c

/-- A pending minimum dose comes only to a circuit without bindings. -/
theorem Booked.restage (h : Booked r o s) (hb : t.bk = s.bk) (hc : ∀ c, (t.circuit c).openBatch = (s.circuit c).openBatch
    ∧ ((t.circuit c).nmin = (s.circuit c).nmin ∨ (s.circuit c).openBatch = 0)) : Booked r o t := by
  obtain ⟨⟨hlen, hd, hfit, hopen⟩, hres, hord⟩ := h
  have hbind (c : Circ) : t.bindings c = s.bindings c := by rw [State.bindings, hb, State.bindings]
  refine ⟨⟨hb ▸ hlen, hb ▸ hd, hb ▸ hfit, fun c => ?_⟩, fun hr l hl e he c hcb => ?_, fun ho => ?_⟩
  · rw [(hc c).1, hbind, hopen]
  · rw [hb] at hl
    rw [(hc c).2.resolve_right (hopen c ▸ bindings_pos hl he hcb)]
    exact hres hr l hl e he c hcb
  · rw [BookOrderInv, hb]
    exact hord ho

/-- An empty book, and no open batch. -/
theorem booked_empty (hb : s.bk.lines = []) (hc : ∀ c, (s.circuit c).openBatch = 0) : Booked r o s := by
  refine ⟨⟨by simp [hb], by simp [hb], by simp [hb], fun c => ?_⟩, fun _ l hl => ?_, fun _ => ?_⟩
  · rw [hc, bindings_eq_sum, hb]
    rfl
  · rw [hb] at hl
    cases hl
  · rw [BookOrderInv, hb]
    exact .nil

end Sys2Proof.Machine
end

