-- ==== Sys2Proof/Proofs/BookBindings.lean ====
section
/-! PROOF SUPPORT. The end of a line's bindings, and the changes of a line outside admission, over the conditions on the book. -/

namespace Sys2Proof.Machine

set_option Elab.async false

variable {s t : State} {r o : Prop} {n : Nat} {l : OrderLine}

/-! ### Bindings that end (R22, R84) -/

/-- The entry without its binding. -/
def ColourantEntry.freed (e : ColourantEntry) : ColourantEntry := { e with bound := none }

theorem boundTo_freed (c : Circ) (es : List ColourantEntry) : boundTo c (es.map ColourantEntry.freed) = 0 := by
  simp [boundTo, ColourantEntry.freed]

theorem unbound_openBatch (q : Circuit) (k : Nat) : (q.unbound k).openBatch = q.openBatch - k := by
  unfold Circuit.unbound
  split
  · rename_i h
    exact (Nat.sub_eq_zero_of_le h.2).symm
  · rfl

theorem unbound_nmin (q : Circuit) (k : Nat) : (q.unbound k).nmin = q.nmin ∨ q.openBatch - k = 0 := by
  by_cases h : k ≠ 0 ∧ q.openBatch ≤ k
  · exact .inr (Nat.sub_eq_zero_of_le h.2)
  · exact .inl (by rw [unbound_of_lt h])

/-- The binding of one entry ends. -/
def State.unbindEntry (s : State) (e : ColourantEntry) : State :=
  match e.bound with
  | some c => s.bindingEnded c
  | none => s

theorem endBindings_none (hl : s.line? n = none) : s.endBindings n = s := by
  simp only [State.endBindings, hl]

theorem endBindings_eq (hl : s.line? n = some l) : s.endBindings n = (l.entries.foldl State.unbindEntry s).setLine n
    fun x => { x with entries := x.entries.map ColourantEntry.freed } := by
  simp only [State.endBindings, hl]
  rfl

theorem unbindEntry_circuit (s : State) (e : ColourantEntry) (c : Circ) :
    (s.unbindEntry e).circuit c = (s.circuit c).unbound (if e.bound == some c then 1 else 0) := by
  unfold State.unbindEntry
  cases hb : e.bound with
  | none => exact (unbound_zero _).symm
  | some d =>
    simp only [bindingEnded_eq, setCircuit_circuit_eq]
    by_cases hc : c = d
    · simp [hc]
    · simp [hc, Ne.symm hc, unbound_zero]

theorem unbindEntry_frame (s : State) (e : ColourantEntry) :
    s.unbindEntry e = { s with circuits := (s.unbindEntry e).circuits } := by
  unfold State.unbindEntry
  split <;> rfl

theorem foldl_unbindEntry_circuit (es : List ColourantEntry) (s : State) (c : Circ) :
    (es.foldl State.unbindEntry s).circuit c = (s.circuit c).unbound (boundTo c es) := by
  induction es generalizing s with
  | nil => exact (unbound_zero _).symm
  | cons e es ih =>
    rw [List.foldl_cons, ih, unbindEntry_circuit, unbound_unbound, boundTo, boundTo, List.countP_cons, Nat.add_comm]

/-- The end of a line's bindings writes the circuits and the entries of the line alone. -/
theorem endBindings_frame (hl : s.line? n = some l) : s.endBindings n
    = { s with
        circuits := (s.endBindings n).circuits
        bk := (s.setLine n fun x => { x with entries := x.entries.map ColourantEntry.freed }).bk } := by
  rw [endBindings_eq hl, foldl_circuits_frame unbindEntry_frame]
  rfl

theorem endBindings_circuit (hl : s.line? n = some l) (c : Circ) :
    (s.endBindings n).circuit c = (s.circuit c).unbound (boundTo c l.entries) := by
  rw [endBindings_eq hl, ← foldl_unbindEntry_circuit]
  rfl

theorem endBindings_line? (hl : s.line? n = some l) :
    (s.endBindings n).line? n = some { l with entries := l.entries.map ColourantEntry.freed }
      ∧ ∀ m, m ≠ n → (s.endBindings n).line? m = s.line? m := by
  have h (m : Nat) := (line?_congr (t := s.endBindings n) (by rw [endBindings_frame hl]) m).trans
    (setLine_line? s n m (f := fun x => { x with entries := x.entries.map ColourantEntry.freed }) fun _ => rfl)
  refine ⟨?_, fun m hm => ?_⟩
  · rw [h, if_pos rfl, hl]
    rfl
  · rw [h, if_neg hm]

theorem Booked.endBindings (h : Booked r o s) (n : Nat) : Booked r o (s.endBindings n) := by
  cases hl : s.line? n with
  | none =>
    rwa [endBindings_none hl]
  | some l =>
    obtain ⟨hmem, hn⟩ := line?_mem hl
    have hbind (c : Circ) : (s.endBindings n).bindings c + boundTo c l.entries = s.bindings c := by
      rw [bindings_eq_sum, bindings_eq_sum, endBindings_frame hl]
      have hsum := sum_setLine (fun x => boundTo c x.entries)
        (fun x => { x with entries := x.entries.map ColourantEntry.freed }) h.book.2.1 hmem hn
      simp only [boundTo_freed, Nat.add_zero] at hsum
      exact hsum
    refine h.setEntries (g := fun es => es.map ColourantEntry.freed) (by rw [endBindings_frame hl])
      (fun x _ => ⟨List.length_map _, fun e he => .inl ?_⟩) fun c => ?_
    · obtain ⟨d, hd, rfl⟩ := List.mem_map.mp he
      exact ⟨d, hd, rfl, .inl rfl⟩
    · have hcount : (s.circuit c).openBatch - boundTo c l.entries = (s.endBindings n).bindings c := by
        have hopen := h.book.2.2.2 c
        have := hbind c
        omega
      rw [endBindings_circuit hl, unbound_openBatch, ← hcount]
      exact ⟨rfl, unbound_nmin _ _⟩

/-! ### Leaving the book (R69) -/

theorem Booked.leaveBook (h : Booked r o s) (n : Nat) (g : LineState) : Booked r o (s.leaveBook n g) := by
  have h1 := h.endBindings n
  unfold State.leaveBook
  dsimp only
  split
  · exact h1
  · refine Booked.of (s := { s.endBindings n with bk := { (s.endBindings n).bk with
      lines := (s.endBindings n).bk.lines.filter fun l => l.number != n } }) ?_
    refine h1.dropLine (n := n) rfl rfl fun x hx e he => ?_
    cases hl : s.line? n with
    | none =>
      rw [endBindings_none hl, hl] at hx
      cases hx
    | some l =>
      obtain rfl := Option.some.inj ((endBindings_line? hl).1.symm.trans hx)
      obtain ⟨d, -, rfl⟩ := List.mem_map.mp he
      rfl

theorem Booked.settleLine (h : Booked r o s) (n : Nat) : Booked r o (s.settleLine n) := by
  unfold State.settleLine
  split
  · exact h
  · split
    · split
      · exact h.leaveBook n _
      · split
        · exact h.leaveBook n _
        · exact h
      · exact h.leaveBook n _
      · exact h
    · exact h

/-! ### Release, count and hold (R67, R68, R76 to R78) -/

theorem Booked.countFinished (h : Booked r o s) (n : Nat) (failed : Bool) : Booked r o (s.countFinished n failed) := by
  refine Booked.settleLine (h.setLine fun l _ => ?_) n
  unfold OrderLine.tinFinishes
  split
  · exact ⟨.refl l, fun hq => ⟨hq, rfl⟩⟩
  · rename_i hlive
    simp only [OrderLine.live] at hlive
    split
    all_goals
      refine ⟨⟨rfl, rfl, rfl, fun hc => ⟨?_, hc.2⟩⟩, fun hq => ⟨hq, rfl⟩⟩
      obtain ⟨hfinished, -⟩ := hc
      dsimp only
      omega

/-- A line takes the state HELD, in which the fewest bounds hold. -/
theorem Booked.holdLine (h : Booked r o s) (why : Hold) (hl : s.line? n = some l) (hs : l.state ≠ .cancelled) :
    Booked r o (s.holdLine n why) := by
  refine Booked.of (h.setLine (n := n) (f := fun l => { l with state := .held, hold := some why }) fun x hx => ?_) rfl
  obtain rfl := Option.some.inj (hl.symm.trans hx)
  refine ⟨⟨rfl, rfl, rfl, fun hc => ?_⟩, nofun⟩
  obtain ⟨h1, h2, h3, h4, -, -, h5⟩ := hc
  exact ⟨h1, h2, h3, h4, nofun, nofun, fun _ => h5 hs⟩

theorem Booked.holdWeight (h : Booked r o s) (n : Nat) : Booked r o (s.holdWeight n) := by
  unfold State.holdWeight
  split
  · rename_i l hl
    split
    · rename_i e; exact h.holdLine _ hl (by simp [e])
    · rename_i e; exact h.holdLine _ hl (by simp [e])
    · rename_i e; exact h.holdLine _ hl (by simp [e])
    · exact h
  · exact h

theorem Booked.holdCircuit (h : Booked r o s) (n c : Nat) : Booked r o (s.holdCircuit n c) := by
  unfold State.holdCircuit
  split
  · rename_i l hl
    split
    · rename_i e; exact h.holdLine _ hl (by simp [e])
    · rename_i e; exact h.holdLine _ hl (by simp [e])
    · exact h
  · exact h

/-- The book releases a tin that a line wants. -/
theorem Booked.releaseTin (h : Booked r o s) (hl : s.line? n = some l) (hw : l.state = .queued ∨ l.state = .running) :
    Booked r o (s.releaseTin n) := by
  refine h.setLine fun x hx => ?_
  obtain rfl := Option.some.inj (hl.symm.trans hx)
  have hs : (if l.released + 1 < l.limit then LineState.running else .finishing) ≠ .queued := by split <;> nofun
  simp only [if_pos hw]
  refine ⟨⟨rfl, rfl, rfl, fun hc => ?_⟩, fun hq => absurd hq hs⟩
  obtain ⟨h1, h2, h3, h4, -, h5, h6⟩ := hc
  have hlt := h5 hw
  refine ⟨by dsimp only; omega, hlt, h3, h4, fun hq => absurd hq hs, fun hq => ?_, fun _ => by dsimp only; omega⟩
  by_contra hge
  simp [if_neg hge] at hq

end Sys2Proof.Machine
end

