-- ==== Sys2Proof/Proofs/BookBlocks.lean ====
section
/-! PROOF SUPPORT. Admission, the end of a step, and the blocks that change the book, over the conditions on the book. -/

namespace Sys2Proof.Machine

set_option Elab.async false

variable {s t : State} {r o : Prop} {n : Nat} {l : OrderLine} {c : Circ} {x : Nat} {plan : List Judged}

/-! ### What a plan carries on (R47, R83) -/

theorem planOn_residue {amount vol carried : Nat} {last : Bool} (hn : nminOk (s.circuit c).nmin)
    (h : (s.planOn c amount vol carried last).residue = some x) : x < (s.circuit c).nmin * 1024000000 :=
  (planSteps_residue hn.1 h).2

/-- What the outcome of a colourant line carries on lies below the minimum dose of the circuit that it binds. -/
theorem judge_residue {e : ColourantEntry} {line : Text × Nat} {vol : Nat} {last : Bool} (hn : ∀ c, nminOk (s.circuit c).nmin)
    (h : (s.judge e line vol last).committed = some (c, some x)) : x < (s.circuit c).nmin * 1024000000 := by
  have htwin {d : Circ} {p : StepPlan}
      (h : (s.judgeTwin d p line.1 line.2 vol last).committed = some (c, some x)) : x < (s.circuit c).nmin * 1024000000 := by
    unfold State.judgeTwin at h
    split at h
    · cases h
    · dsimp only at h
      split at h
      · simp only [Judged.committed, Option.some.injEq, Prod.mk.injEq] at h
        obtain ⟨rfl, hx⟩ := h
        exact planOn_residue (hn _) hx
      · cases h
  unfold State.judge at h
  split at h
  · cases h
  · dsimp only at h
    split at h
    · simp only [Judged.committed, Option.some.injEq, Prod.mk.injEq] at h
      obtain ⟨rfl, hx⟩ := h
      exact planOn_residue (hn _) hx
    · split at h
      · cases h
      · exact htwin h
      · simp only [Judged.committed, Option.some.injEq, Prod.mk.injEq] at h
        obtain ⟨rfl, hx⟩ := h
        exact planOn_residue (hn _) hx

/-- What every outcome of a plan carries on lies below the minimum dose of the circuit that it binds. -/
def State.Carries (s : State) (plan : List Judged) : Prop :=
  ∀ j ∈ plan, ∀ c x, j.committed = some (c, some x) → x < (s.circuit c).nmin * 1024000000

theorem carries_plan (hn : ∀ c, nminOk (s.circuit c).nmin) (l : OrderLine) (last : Bool) : s.Carries (s.plan l last) := by
  intro j hj c x h
  obtain ⟨y, -, rfl⟩ := List.mem_map.mp hj
  exact judge_residue hn h

theorem follows_commitEntry {es : List ColourantEntry} {e : ColourantEntry} {j : Judged} (hn : ∀ c, nminOk (s.circuit c).nmin)
    (he : e ∈ es) (hj : ∀ c x, j.committed = some (c, some x) → x < (s.circuit c).nmin * 1024000000) :
    (commitEntry j e).Follows s es := by
  unfold commitEntry
  split
  · rename_i c carried hcom
    refine .inr fun x hx => ?_
    obtain rfl : carried = some x := hx
    have hlt := hj c x hcom
    refine ⟨hlt.trans_le (Nat.mul_le_mul_right _ (hn c).2), fun d hd => ?_⟩
    obtain rfl := Option.some.inj hd
    exact hlt
  · exact .inl ⟨e, he, rfl, .inr rfl⟩

/-! ### Operations that leave the ledger -/

theorem Booked.setStn (h : Booked r o s) (f : Station → Station) : Booked r o (s.setStn f) := h.of
theorem Booked.setTin (h : Booked r o s) (id : Nat) (f : Tin → Tin) : Booked r o (s.setTin id f) := h.of
theorem Booked.setTrack (h : Booked r o s) (f : Track → Track) : Booked r o (s.setTrack f) := h.of
theorem Booked.setFlag (h : Booked r o s) (f : Flag) (items : List Item) : Booked r o (s.setFlag f items) := h.of
theorem Booked.checkDecided (h : Booked r o s) (id : Nat) (v : Verdict) : Booked r o (s.checkDecided id v) := h.of
theorem Booked.liftTin (h : Booked r o s) (id : Nat) : Booked r o (s.liftTin id) := h.of
theorem Booked.tellRemoved (h : Booked r o s) (id : Nat) : Booked r o (s.tellRemoved id) := h.of

/-! ### Admission (R83, R117) -/

theorem Booked.commitPlan (h : Booked r o s) (hn : ∀ c, nminOk (s.circuit c).nmin) (hl : s.line? n = some l)
    (hlen : plan.length = l.entries.length) (hp : s.Carries plan) : Booked r o (s.commitPlan l plan) := by
  have hcounts := commitPlan_counts h.book hl hlen
  obtain ⟨-, hnum⟩ := line?_mem hl
  refine h.setEntries (n := n) (g := committedEntries plan) (by rw [commitPlan_frame, hnum]) (fun y hy => ?_) fun c => ?_
  · obtain rfl := Option.some.inj (hl.symm.trans hy)
    refine ⟨committedEntries_length hlen, fun e he => ?_⟩
    obtain ⟨z, hz, rfl⟩ := List.mem_map.mp he
    exact follows_commitEntry hn (List.of_mem_zip hz).2 (hp _ (List.of_mem_zip hz).1)
  · rw [hcounts]
    split
    · rename_i hzero
      exact ⟨rfl, .inr hzero.1⟩
    · exact ⟨rfl, .inl rfl⟩

theorem Booked.judgePlan (h : Booked r o s) (hn : ∀ c, nminOk (s.circuit c).nmin) (hl : s.line? n = some l)
    (hlen : plan.length = l.entries.length) (hp : s.Carries plan) (t : Tin) : Booked r o (s.judgePlan t l plan) := by
  unfold State.judgePlan
  split
  · exact (h.holdCircuit _ _).setStn _
  · split
    · exact h.of
    · obtain ⟨hbk, hcirc⟩ := admitTin_commits (s := s) (t := t) (l := l) (plan := plan) rfl
      exact (h.commitPlan hn hl hlen hp).of (ledger_congr hbk fun c => by rw [circuit_congr hcirc]; exact ⟨rfl, rfl⟩)

theorem Booked.attempt (h : Booked r o s) (hn : ∀ c, nminOk (s.circuit c).nmin) : Booked r o s.attempt := by
  unfold State.attempt
  split
  · exact h
  · split
    · rename_i hl
      exact h.judgePlan hn hl (plan_length _ h.book hl) (carries_plan hn _ _) _
    · exact h.of

theorem Booked.attemptLook (h : Booked r o s) (hn : ∀ c, nminOk (s.circuit c).nmin) : Booked r o s.attemptLook := by
  unfold State.attemptLook
  split
  · exact Booked.attempt h.of hn
  · exact h

/-! ### The end of a step -/

/-- The active minimum doses lie within their bounds. -/
theorem RecordLaw.Holds.nminOk (hn : nminLaw.Holds s) (c : Circ) : nminOk (s.circuit c).nmin := (hn.circuits c).1

theorem Booked.look (h : Booked r o s) (hn : nminLaw.Holds s) : Booked r o s.look := by
  have hn1 : nminLaw.Holds s.primesLook.handLook := RecordLaw.Holds.handLook hn.of
  have hn2 : nminLaw.Holds s.primesLook.handLook.pressLook.mixerChoose.trackLook := hn1.of
  exact (Booked.attemptLook h.of hn2.nminOk).of (by simp [State.look])

@[simp] theorem ledger_storeTake (s : State) : s.storeTake.ledger = s.ledger := by
  unfold State.storeTake
  dsimp only
  repeat' split
  all_goals rfl

@[simp] theorem ledger_releaseClear (s : State) : s.releaseClear.ledger = s.ledger := by
  unfold State.releaseClear
  split
  all_goals rfl

theorem Booked.conclude (h : Booked r o s) (hn : nminLaw.Holds s) (before : State) : Booked r o (State.conclude before s) := by
  have h3 : Booked r o s.react := ((h.look hn).look hn.look).look hn.look.look
  exact h3.of (by simp [State.conclude])

/-! ### The blocks that change the book -/

theorem Booked.deviation (h : Booked r o s) (id e : Nat) (m : Int) : Booked r o (s.deviation id e m) := by
  unfold State.deviation
  split
  · exact Booked.holdWeight h.of _
  · exact h.of

theorem Booked.weighed (h : Booked r o s) (id : Nat) (x : Reading) : Booked r o (s.weighed id x) := by
  unfold State.weighed
  dsimp only
  split
  · exact h.of
  · split
    · exact ((h.setTin _ _).deviation _ _ _).checkDecided _ _
    · exact h.of

theorem Booked.settleEnds (h : Booked r o s) (x : Reading) : Booked r o (s.settleEnds x) := by
  unfold State.settleEnds
  split
  · dsimp only
    split
    · exact h.of
    · exact h.of
    · exact Booked.weighed h.of _ _
    · exact h.of
    · exact h.of
  · exact h

theorem Booked.retire (h : Booked r o s) (id : Nat) (why : FinishCause) : Booked r o (s.retire id why) := by
  unfold State.retire
  split
  · exact h
  · dsimp only
    split
    · split
      · exact h.of
      · exact (((h.liftTin id).tellRemoved id).setTrack _ |>.countFinished _ _).setFlag _ _
    · exact h.of

theorem Booked.headTaken (h : Booked r o s) : Booked r o s.headTaken := by
  unfold State.headTaken
  split
  · exact h
  · split
    · exact h
    · exact h.retire _ _

theorem Booked.laneConfirmed (h : Booked r o s) : Booked r o s.laneConfirmed := by
  have h1 : Booked r o s.reconcileLane := by
    unfold State.reconcileLane
    dsimp only
    split
    · exact h.foldl (fun u id hu => hu.retire id _) _
    · exact h.foldl (fun u _ hu => hu.of) _
  unfold State.laneConfirmed
  dsimp only
  split
  · exact h1.of
  · exact h1.of

theorem Booked.lostAt (h : Booked r o s) (p : Place) (id : Nat) : Booked r o (s.lostAt p id) := by
  unfold State.lostAt
  dsimp only
  split
  · exact (h.retire id .lost).of
  · exact h.retire id _

theorem Booked.clearPlace (h : Booked r o s) (p : Place) (id : Nat) : Booked r o (s.clearPlace p id) := by
  unfold State.clearPlace
  dsimp only
  split
  · exact (h.retire id .cleared).of
  · exact (h.retire id .cleared).of

theorem Booked.sensed (h : Booked r o s) (was : Bool) (change : SensorChange) : Booked r o (State.sensed was change s) := by
  unfold State.sensed
  split
  · exact h.of
  · split
    · exact h.headTaken
    · exact h
  · exact h

/-! ### RESTART and the power -/

theorem endBindings_lines (s : State) (n : Nat) : (s.endBindings n).bk.lines
    = s.bk.lines.map fun l => if l.number = n then { l with entries := l.entries.map ColourantEntry.freed } else l := by
  cases hl : s.line? n with
  | some l => rw [endBindings_frame hl, State.setLine]
  | none =>
    have hother (x : OrderLine) (hx : x ∈ s.bk.lines) : x.number ≠ n := by simpa using List.find?_eq_none.mp hl x hx
    rw [endBindings_none hl]
    exact ((List.map_congr_left fun x hx => if_neg (hother x hx)).trans (List.map_id _)).symm

/-- No entry of the line is bound. -/
def OrderLine.Free (l : OrderLine) : Prop := ∀ e ∈ l.entries, e.bound = none

theorem free_freed (l : OrderLine) : OrderLine.Free { l with entries := l.entries.map ColourantEntry.freed } := by
  intro e he
  obtain ⟨d, -, rfl⟩ := List.mem_map.mp he
  rfl

theorem foldl_endBindings_free (ls : List OrderLine) (s : State) {x : OrderLine}
    (hx : x ∈ (ls.foldl (fun u l => u.endBindings l.number) s).bk.lines) :
    ∃ y ∈ s.bk.lines, y.number = x.number ∧ (y.number ∈ ls.map (·.number) ∨ y.Free → x.Free) := by
  induction ls generalizing s with
  | nil => exact ⟨x, hx, rfl, fun h => h.resolve_left List.not_mem_nil⟩
  | cons l ls ih =>
    obtain ⟨y, hy, hn, hfree⟩ := ih _ hx
    rw [endBindings_lines] at hy
    obtain ⟨z, hz, rfl⟩ := List.mem_map.mp hy
    refine ⟨z, hz, ?_⟩
    split at hn
    · rename_i hzl
      rw [if_pos hzl] at hfree
      exact ⟨hn, fun _ => hfree (.inr (free_freed z))⟩
    · rename_i hzl
      rw [if_neg hzl] at hfree
      refine ⟨hn, fun h => hfree (h.imp_left fun hm => ?_)⟩
      exact (List.mem_cons.mp hm).resolve_left hzl

theorem Booked.bookRestart (h : Booked r o s) : Booked r o s.bookRestart := by
  have hends := h.foldl (fun u l hu => hu.endBindings l.number) s.bk.lines
  refine booked_empty rfl fun c => (hends.book.2.2.2 c).trans ?_
  rw [bindings_eq_sum]
  refine List.sum_eq_zero fun k hk => ?_
  obtain ⟨x, hx, rfl⟩ := List.mem_map.mp hk
  obtain ⟨y, hy, -, hfree⟩ := foldl_endBindings_free _ s hx
  have hxfree := hfree (.inl (List.mem_map.mpr ⟨y, hy, rfl⟩))
  exact List.countP_eq_zero.mpr fun e he => by simp [hxfree e he]

theorem Booked.restartMachine (h : Booked r o s) : Booked r o s.restartMachine := by
  have h1 : Booked r o (forCircuits (fun c u => u.pumpRestart c) s).bookRestart :=
    Booked.bookRestart (h.of (ledger_forCircuits (fun c u => by simp) s))
  have h2 := h1.of (t := mixes.foldl (fun u m => u.mixerRestart m)
    (forCircuits (fun c u => u.pumpRestart c) s).bookRestart.stationRestart.trackRestart.lidderRestart)
    (by rw [ledger_foldl fun u m => by simp]; simp)
  unfold State.restartMachine
  dsimp only
  generalize mixes.foldl (fun (u : State) m => u.mixerRestart m) _ = v at h2 ⊢
  refine h2.of ?_
  rw [ledger_linkRestart, ledger_careRestart, ledger_storeRestart, ledger_forCircuits fun c u => by simp]
  rfl

theorem booked_powerOn (s : State) (damaged : List RecordName) : Booked r o (s.powerOn damaged) := by
  have h0 : Booked r o (s.fromStore (s.store.nv.read damaged) damaged.eraseDups.length) :=
    booked_empty rfl fun c => by simp [State.circuit, State.fromStore, NonVolatile.circuit]
  refine h0.of ?_
  unfold State.powerOn
  dsimp only
  rw [ledger_forCircuits fun c u => by simp, ledger_forCircuits fun c u => by split <;> simp,
    ledger_foldl fun u m => by simp, ledger_findOrphans]

theorem booked_powerLost (s : State) : Booked r o s.powerLost :=
  booked_empty rfl fun c => by simp [State.circuit, State.powerLost, State.reset, Circuit.reset]

end Sys2Proof.Machine
end

