-- ==== Sys2Proof/Proofs/BookOrder.lean ====
section
/-! PROOF SUPPORT. The places of lines in book order (R70, R71). -/

namespace Sys2Proof.Machine

set_option Elab.async false

variable {s t : State} {r o : Prop} {n : Nat} {l x y : OrderLine} {p : OrderLine → Bool} {front back : List OrderLine}

/-! ### Placing a line (R70, R71) -/

theorem behindLast_eq_none (h : ∀ y ∈ back, p y = false) : behindLast p x back = none := by
  induction back with
  | nil => rfl
  | cons y ys ih =>
    obtain ⟨hy, hys⟩ := List.forall_mem_cons.mp h
    simp [behindLast, ih hys, hy]

theorem behindLast_append (hy : p y = true) (h : ∀ z ∈ back, p z = false) :
    behindLast p x (front ++ y :: back) = some (front ++ y :: x :: back) := by
  induction front with
  | nil => simp [behindLast, behindLast_eq_none h, hy]
  | cons z zs ih => simp [behindLast, ih]

theorem beforeFirst_eq_none (h : ∀ y ∈ back, p y = false) : beforeFirst p x back = none := by
  induction back with
  | nil => rfl
  | cons y ys ih =>
    obtain ⟨hy, hys⟩ := List.forall_mem_cons.mp h
    simp [beforeFirst, ih hys, hy]

theorem beforeFirst_append (hy : p y = true) (h : ∀ z ∈ front, p z = false) :
    beforeFirst p x (front ++ y :: back) = some (front ++ x :: y :: back) := by
  induction front with
  | nil => simp [beforeFirst, hy]
  | cons z zs ih =>
    obtain ⟨hz, hzs⟩ := List.forall_mem_cons.mp h
    simp [beforeFirst, ih hzs, hz]

/-- The first line of a list that p holds of. -/
theorem exists_first (h : ∃ y ∈ back, p y = true) :
    ∃ pre y rest, back = pre ++ y :: rest ∧ p y = true ∧ ∀ z ∈ pre, p z = false := by
  obtain ⟨y, hy⟩ := Option.isSome_iff_exists.mp (List.find?_isSome.mpr h)
  obtain ⟨hp, pre, rest, hb, hpre⟩ := List.find?_eq_some_iff_append.mp hy
  exact ⟨pre, y, rest, hb, hp, fun z hz => by simpa using hpre z hz⟩

/-- The last line of a list that p holds of. -/
theorem exists_last (h : ∃ y ∈ back, p y = true) :
    ∃ pre y rest, back = pre ++ y :: rest ∧ p y = true ∧ ∀ z ∈ rest, p z = false := by
  obtain ⟨y, hy, hp⟩ := h
  obtain ⟨rest, z, pre, hb, hz, hrest⟩ := exists_first (back := back.reverse) ⟨y, List.mem_reverse.mpr hy, hp⟩
  refine ⟨pre.reverse, z, rest.reverse, ?_, hz, fun w hw => hrest w (List.mem_reverse.mp hw)⟩
  rw [← List.reverse_reverse back, hb]
  simp

theorem forall_false_or_exists (p : OrderLine → Bool) (lines : List OrderLine) :
    (∀ y ∈ lines, p y = false) ∨ ∃ y ∈ lines, p y = true := by
  by_cases h : ∃ y ∈ lines, p y = true
  · exact .inr h
  · exact .inl fun y hy => by simpa using fun hp => h ⟨y, hy, hp⟩

/-- A new line takes its place (R70). -/
theorem placeNew_stands (x : OrderLine) (lines : List OrderLine) : newLineStands x lines (placeNew x lines) := by
  unfold placeNew
  cases hx : x.rush with
  | false => exact ⟨lines, [], by simp, by simp, fun _ => rfl, fun h => absurd (hx.symm.trans h) nofun⟩
  | true =>
    have hr : x.rush = false → ∀ b : List OrderLine, b = [] := fun h => absurd (hx.symm.trans h) nofun
    rw [if_pos rfl]
    rcases forall_false_or_exists OrderLine.queuedRush lines with hno | hyes
    · rw [behindLast_eq_none hno]
      rcases forall_false_or_exists OrderLine.queuedNormal lines with hnoN | hyesN
      · rw [beforeFirst_eq_none hnoN]
        exact ⟨lines, [], by simp, rfl, fun h => hr h _, fun _ =>
          ⟨nofun, .inr ⟨fun y hy => ⟨hno y hy, hnoN y hy⟩, .inl rfl⟩⟩⟩
      · obtain ⟨pre, y, rest, rfl, hy, hpre⟩ := exists_first hyesN
        rw [beforeFirst_append hy hpre]
        refine ⟨pre, y :: rest, rfl, rfl, fun h => hr h _, fun _ => ⟨fun z hz => hno z (by simp [List.mem_cons.mp hz]),
          .inr ⟨fun z hz => ⟨hno z (by simp [hz]), hpre z hz⟩, .inr ⟨y, rfl, hy⟩⟩⟩⟩
    · obtain ⟨pre, y, rest, rfl, hy, hrest⟩ := exists_last hyes
      rw [behindLast_append hy hrest]
      exact ⟨pre ++ [y], rest, by simp, by simp, fun h => hr h _, fun _ => ⟨hrest, .inl ⟨y, by simp, hy⟩⟩⟩

section
variable (hn : x.number = n) (hf : ∀ y ∈ front, y.number ≠ n)
include hn hf

theorem placeAgain_eq : placeAgain n (front ++ x :: back) =
    if x.rush then
      if front.any OrderLine.queuedNormal then
        (beforeFirst OrderLine.queuedNormal x (front ++ back)).getD (front ++ x :: back)
      else front ++ x :: back
    else if back.any OrderLine.queuedRush then
      (behindLast OrderLine.queuedRush x (front ++ back)).getD (front ++ x :: back)
    else front ++ x :: back := by
  have htake : (front ++ x :: back).takeWhile (fun l => l.number != n) = front := by
    rw [List.takeWhile_append_of_pos (by simpa using hf), List.takeWhile_cons_of_neg (by simp [hn]), List.append_nil]
  have hdrop : (front ++ x :: back).dropWhile (fun l => l.number != n) = x :: back := by
    rw [List.dropWhile_append_of_pos (by simpa using hf), List.dropWhile_cons_of_neg (by simp [hn])]
  simp only [placeAgain, htake, hdrop]

theorem placeAgain_rush_stays (hx : x.rush = true) (h : ∀ y ∈ front, y.queuedNormal = false) :
    placeAgain n (front ++ x :: back) = front ++ x :: back := by
  rw [placeAgain_eq hn hf, if_pos hx, if_neg (by simpa using h)]

theorem placeAgain_rush_moves (hx : x.rush = true) {pre mid : List OrderLine} (hfront : front = pre ++ y :: mid)
    (hy : y.queuedNormal = true) (hpre : ∀ z ∈ pre, z.queuedNormal = false) :
    placeAgain n (front ++ x :: back) = pre ++ x :: y :: mid ++ back := by
  rw [placeAgain_eq hn hf, if_pos hx, if_pos (by simp [hfront, hy])]
  rw [hfront, List.append_assoc, List.cons_append, beforeFirst_append hy hpre]
  simp

theorem placeAgain_normal_stays (hx : x.rush = false) (h : ∀ y ∈ back, y.queuedRush = false) :
    placeAgain n (front ++ x :: back) = front ++ x :: back := by
  rw [placeAgain_eq hn hf, if_neg (by simp [hx]), if_neg (by simpa using h)]

theorem placeAgain_normal_moves (hx : x.rush = false) {mid rest : List OrderLine} (hback : back = mid ++ y :: rest)
    (hy : y.queuedRush = true) (hrest : ∀ z ∈ rest, z.queuedRush = false) :
    placeAgain n (front ++ x :: back) = front ++ mid ++ y :: x :: rest := by
  rw [placeAgain_eq hn hf, if_neg (by simp [hx]), if_pos (by simp [hback, hy])]
  rw [hback, ← List.append_assoc, behindLast_append hy hrest, Option.getD_some]

/-- A line that returns to QUEUED stands between lines that it may stand between, and the others keep their order. -/
theorem placeAgain_stands : ∃ pre rest, placeAgain n (front ++ x :: back) = pre ++ x :: rest ∧ pre ++ rest = front ++ back
    ∧ (x.rush = true → ∀ y ∈ pre, y.queuedNormal = false) ∧ (x.rush = false → ∀ y ∈ rest, y.queuedRush = false) := by
  cases hx : x.rush with
  | true =>
    rcases forall_false_or_exists OrderLine.queuedNormal front with hno | hyes
    · exact ⟨front, back, placeAgain_rush_stays hn hf hx hno, rfl, fun _ => hno, nofun⟩
    · obtain ⟨pre, y, mid, hfront, hy, hpre⟩ := exists_first hyes
      exact ⟨pre, y :: mid ++ back, by simp [placeAgain_rush_moves hn hf hx hfront hy hpre], by simp [hfront], fun _ => hpre, nofun⟩
  | false =>
    rcases forall_false_or_exists OrderLine.queuedRush back with hno | hyes
    · exact ⟨front, back, placeAgain_normal_stays hn hf hx hno, rfl, nofun, fun _ => hno⟩
    · obtain ⟨mid, y, rest, hback, hy, hrest⟩ := exists_last hyes
      exact ⟨front ++ mid ++ [y], rest, by simp [placeAgain_normal_moves hn hf hx hback hy hrest], by simp [hback], nofun,
        fun _ => hrest⟩

end

/-! ### The order of the book (R70) -/

/-- Line x may stand in front of line y. -/
def OrderLine.Precedes (x y : OrderLine) : Prop :=
  ¬(x.rush = false ∧ x.state = .queued ∧ y.rush = true ∧ y.state = .queued)

theorem precedes_iff : x.Precedes y ↔ x.queuedNormal = false ∨ y.queuedRush = false := by
  simp only [OrderLine.Precedes, OrderLine.queuedNormal, OrderLine.queuedRush]
  cases x.rush <;> cases y.rush <;> simp
  tauto

theorem pairwise_insert (h : (front ++ back).Pairwise OrderLine.Precedes) (hf : ∀ y ∈ front, y.Precedes x)
    (hb : ∀ y ∈ back, x.Precedes y) : (front ++ x :: back).Pairwise OrderLine.Precedes := by
  obtain ⟨h1, h2, h3⟩ := List.pairwise_append.mp h
  refine List.pairwise_append.mpr ⟨h1, List.pairwise_cons.mpr ⟨hb, h2⟩, fun y hy z hz => ?_⟩
  rcases List.mem_cons.mp hz with rfl | hz
  · exact hf y hy
  · exact h3 y hy z hz

end Sys2Proof.Machine
end

