-- ==== Sys2Proof/Proofs/BookChanges.lean ====
section
/-! PROOF SUPPORT. Line numbers (R66), a new line (R65), and what HOLD, GO and CANCEL make of a line, over the conditions on the
book. -/

namespace Sys2Proof.Machine

set_option Elab.async false

variable {s t : State} {r o : Prop} {n : Nat} {l x : OrderLine} {front back : List OrderLine}

/-! ### Line numbers (R66) -/

/-- The number after k, and 1 after the top. -/
def numberAfter (top k : Nat) : Nat := if k ≥ top then 1 else k + 1

theorem nextFree_succ (top : Nat) (used : Nat → Bool) (k fuel : Nat) : nextFree top used k (fuel + 1)
    = if used (numberAfter top k) then nextFree top used (numberAfter top k) fuel else numberAfter top k := rfl

theorem numberAfter_bounds {top : Nat} (ht : 1 ≤ top) (k : Nat) : 1 ≤ numberAfter top k ∧ numberAfter top k ≤ top := by
  unfold numberAfter
  split <;> omega

/-- The numbers that are tried, in a closed form. -/
theorem iterate_numberAfter {top a : Nat} (h1 : 1 ≤ a) (ha : a ≤ top) (i : Nat) :
    (numberAfter top)^[i] a = (a - 1 + i) % top + 1 := by
  induction i with
  | zero =>
    rw [Function.iterate_zero_apply, Nat.add_zero, Nat.mod_eq_of_lt (by omega)]
    omega
  | succ i ih =>
    rw [Function.iterate_succ_apply', ih, numberAfter, ← Nat.add_assoc, Nat.add_mod (a - 1 + i) 1]
    have hlt : (a - 1 + i) % top < top := Nat.mod_lt _ (by omega)
    generalize (a - 1 + i) % top = m at hlt ⊢
    split
    · rename_i hm
      obtain rfl : m = top - 1 := by omega
      rcases Nat.lt_or_ge 1 top with h | h
      · rw [Nat.mod_eq_of_lt h, Nat.sub_add_cancel (by omega), Nat.mod_self]
      · obtain rfl : top = 1 := by omega
        rfl
    · rename_i hm
      rw [Nat.mod_eq_of_lt (a := 1) (by omega), Nat.mod_eq_of_lt (by omega)]

/-- Where one of the numbers tried is not used, the search ends at one that is not used. -/
theorem nextFree_unused {top : Nat} {used : Nat → Bool} (ht : 1 ≤ top) (fuel k : Nat)
    (h : ∃ i < fuel, used ((numberAfter top)^[i] (numberAfter top k)) = false) :
    used (nextFree top used k fuel) = false ∧ 1 ≤ nextFree top used k fuel ∧ nextFree top used k fuel ≤ top := by
  induction fuel generalizing k with
  | zero =>
    obtain ⟨i, hi, -⟩ := h
    omega
  | succ fuel ih =>
    rw [nextFree_succ]
    split
    · rename_i hu
      refine ih _ ?_
      obtain ⟨i, hi, hfree⟩ := h
      cases i with
      | zero => exact absurd (hfree.symm.trans hu) nofun
      | succ i => exact ⟨i, by omega, hfree⟩
    · rename_i hu
      exact ⟨by simpa using hu, numberAfter_bounds ht k⟩

/-- Fewer used numbers than there are leave one of the numbers tried free. -/
theorem exists_unused {top a : Nat} {used : Nat → Bool} (h1 : 1 ≤ a) (ha : a ≤ top) (ns : List Nat)
    (hns : ∀ k, used k = true → k ∈ ns) {m : Nat} (hlen : ns.length < m) (hm : m ≤ top) :
    ∃ i < m, used ((numberAfter top)^[i] a) = false := by
  by_contra hno
  have hused (i : Nat) (hi : i < m) : (numberAfter top)^[i] a ∈ ns :=
    hns _ (by simpa using fun hf => hno ⟨i, hi, hf⟩)
  have hinj : Set.InjOn (fun i => (numberAfter top)^[i] a) (Finset.range m) := by
    intro i hi j hj hij
    rw [Finset.coe_range, Set.mem_Iio] at hi hj
    simp only [iterate_numberAfter h1 ha, Nat.add_right_cancel_iff] at hij
    exact Nat.ModEq.eq_of_lt_of_lt (Nat.ModEq.add_left_cancel' _ hij) (hi.trans_le hm) (hj.trans_le hm)
  have hsub : (Finset.range m).image (fun i => (numberAfter top)^[i] a) ⊆ ns.toFinset := by
    intro k hk
    obtain ⟨i, hi, rfl⟩ := Finset.mem_image.mp hk
    exact List.mem_toFinset.mpr (hused i (Finset.mem_range.mp hi))
  have hcard := (Finset.card_le_card hsub).trans ns.toFinset_card_le
  rw [Finset.card_image_of_injOn hinj, Finset.card_range] at hcard
  omega

theorem line?_isSome_iff (k : Nat) : (s.line? k).isSome = true ↔ ∃ l ∈ s.bk.lines, l.number = k := by
  simp [State.line?, List.find?_isSome]

/-- A book with a place free has a number free, and takes one. -/
theorem newLineNumber_free (h : s.bk.lines.length < 32) :
    (∀ l ∈ s.bk.lines, l.number ≠ s.newLineNumber) ∧ 1 ≤ s.newLineNumber ∧ s.newLineNumber ≤ 65535 := by
  obtain ⟨h1, h2⟩ := numberAfter_bounds (top := 65535) (by omega) s.bk.lastNumber
  have hused (k : Nat) (hk : (s.line? k).isSome = true) : k ∈ s.bk.lines.map (·.number) := by
    obtain ⟨l, hl, rfl⟩ := (line?_isSome_iff k).mp hk
    exact List.mem_map.mpr ⟨l, hl, rfl⟩
  obtain ⟨i, hi, hfree⟩ := exists_unused h1 h2 (s.bk.lines.map (·.number)) hused (m := 32) (by simpa using h) (by omega)
  obtain ⟨hnone, hb⟩ := nextFree_unused (used := fun k => (s.line? k).isSome) (top := 65535) (by omega) 65536
    s.bk.lastNumber ⟨i, by omega, hfree⟩
  refine ⟨fun l hl hn => ?_, hb⟩
  exact absurd (hnone.symm.trans ((line?_isSome_iff _).mpr ⟨l, hl, hn⟩)) nofun

/-! ### A new line (R65) -/

theorem Booked.enterLine (h : Booked r o s) (hlen : s.bk.lines.length < 32) (hfresh : ∀ l ∈ s.bk.lines, l.number ≠ x.number)
    (hfit : x.counts ∧ x.entriesFit) (hfree : x.Free) : Booked r o (s.enterLine x) := by
  obtain ⟨⟨-, hd, hall, hopen⟩, hres, hord⟩ := h
  obtain ⟨front, back, hbefore, hafter, hnormal, hrush⟩ := placeNew_stands x s.bk.lines
  have hlines : (s.enterLine x).bk.lines = front ++ x :: back := hafter
  have hperm : (s.enterLine x).bk.lines.Perm (x :: s.bk.lines) := by
    rw [hlines, hbefore]
    exact List.perm_middle
  refine ⟨⟨?_, ?_, fun l hl => ?_, fun c => (hopen c).trans ?_⟩, fun hr l hl e he c hcb => ?_, fun ho => ?_⟩
  · rw [hperm.length_eq, List.length_cons]
    exact hlen
  · rw [(hperm.map _).nodup_iff, List.map_cons, List.nodup_cons]
    refine ⟨fun hmem => ?_, hd⟩
    obtain ⟨l, hl, hn⟩ := List.mem_map.mp hmem
    exact hfresh l hl hn
  · rcases List.mem_cons.mp (hperm.mem_iff.mp hl) with rfl | hl
    · exact hfit
    · exact hall l hl
  · have hzero : boundTo c x.entries = 0 := List.countP_eq_zero.mpr fun e he => by simp [hfree e he]
    rw [bindings_eq_sum, bindings_eq_sum, (hperm.map _).sum_eq, List.map_cons, List.sum_cons, hzero, Nat.zero_add]
  · rcases List.mem_cons.mp (hperm.mem_iff.mp hl) with rfl | hl
    · rw [hfree e he] at hcb
      cases hcb
    · exact hres hr l hl e he c hcb
  · have hbook := hord ho
    rw [BookOrderInv, hbefore] at hbook
    rw [BookOrderInv, hlines]
    refine pairwise_insert hbook (fun y hy => precedes_iff.mpr ?_) fun y hy => precedes_iff.mpr ?_
    · cases hx : x.rush with
      | false => exact .inr (by simp [OrderLine.queuedRush, hx])
      | true =>
        refine .inl ?_
        obtain ⟨-, ⟨z, hz, hzr⟩ | ⟨hfront, -⟩⟩ := hrush hx
        · have hsplit : front = front.dropLast ++ [z] := (List.dropLast_append_getLast? z hz).symm
          rw [hsplit] at hy
          rcases List.mem_append.mp hy with hy | hy
          · have hyz : y.Precedes z := by
              have hfp := (List.pairwise_append.mp hbook).1
              rw [hsplit] at hfp
              exact (List.pairwise_append.mp hfp).2.2 y hy z (List.mem_singleton.mpr rfl)
            exact (precedes_iff.mp hyz).resolve_right (by simp [hzr])
          · obtain rfl := List.mem_singleton.mp hy
            simp only [OrderLine.queuedRush, Bool.and_eq_true] at hzr
            simp [OrderLine.queuedNormal, hzr.1]
        · exact (hfront y hy).2
    · cases hx : x.rush with
      | false =>
        rw [hnormal hx] at hy
        cases hy
      | true => exact .inl (by simp [OrderLine.queuedNormal, hx])

/-! ### HOLD, GO and CANCEL (R76, R79 to R81) -/

/-- The line in state g, held no more. -/
def OrderLine.going (g : LineState) (l : OrderLine) : OrderLine := { l with state := g, hold := none }

theorem goLine_eq (s : State) (n : Nat) (g : LineState) : s.goLine n g = { s with
    bk := { s.bk with
      lines := if g = .queued then placeAgain n (s.setLine n (·.going g)).bk.lines else (s.setLine n (·.going g)).bk.lines }
    stn := if s.waitsAtZ1 n then { s.stn with attemptOwed := true } else s.stn } := by
  unfold State.goLine
  by_cases hg : g = .queued <;> by_cases hw : s.waitsAtZ1 n = true <;> simp only [hg, hw, if_true, if_false] <;> rfl

/-- No other line has the number of a line. -/
theorem BookInv.others_differ (h : BookInv s) (hs : s.bk.lines = front ++ l :: back) :
    (∀ y ∈ front, y.number ≠ l.number) ∧ ∀ y ∈ back, y.number ≠ l.number := by
  obtain ⟨-, hd, -, -⟩ := h
  rw [hs, List.map_append, List.map_cons] at hd
  obtain ⟨-, hd2, hd3⟩ := List.nodup_append.mp hd
  refine ⟨fun y hy => hd3 _ (List.mem_map_of_mem hy) _ List.mem_cons_self, fun y hy hn => ?_⟩
  exact (List.nodup_cons.mp hd2).1 (List.mem_map.mpr ⟨y, hy, hn⟩)

theorem BookInv.setLine_split (h : BookInv s) (hs : s.bk.lines = front ++ l :: back) (f : OrderLine → OrderLine) :
    (s.setLine l.number f).bk.lines = front ++ f l :: back := by
  obtain ⟨hf, hb⟩ := h.others_differ hs
  have hsame {ys : List OrderLine} (hy : ∀ y ∈ ys, y.number ≠ l.number) :
      (ys.map fun y => if y.number = l.number then f y else y) = ys :=
    (List.map_congr_left fun y hm => if_neg (hy y hm)).trans (List.map_id _)
  rw [State.setLine, hs, List.map_append, List.map_cons, hsame hf, hsame hb, if_pos rfl]

theorem counts_going (hc : l.counts) (hs : l.state ≠ .cancelled) : (l.going l.counted).counts := by
  obtain ⟨h1, h2, h3, h4, -, -, h5⟩ := hc
  have hlim := h5 hs
  refine ⟨h1, h2, h3, h4, ?_, ?_, fun _ => hlim⟩
  all_goals
    simp only [OrderLine.going, OrderLine.counted]
    split
    · omega
    · split <;> simp [*]

/-- A line changes and takes a place between lines that it may stand between; the others keep their order. -/
theorem Booked.replace (h : Booked r o s) (hs : s.bk.lines = front ++ l :: back) (hx : l.Turns x) {pre rest : List OrderLine}
    (ht : t.bk.lines = pre ++ x :: rest) (hothers : pre ++ rest = front ++ back) (hc : t.circuits = s.circuits)
    (hpre : ∀ y ∈ pre, y.Precedes x) (hrest : ∀ y ∈ rest, x.Precedes y) : Booked r o t := by
  have hset : (s.setLine l.number fun _ => x).bk.lines = front ++ x :: back := h.book.setLine_split hs _
  have hperm : t.bk.lines.Perm (s.setLine l.number fun _ => x).bk.lines := by
    rw [ht, hset]
    exact List.perm_middle.trans ((List.Perm.of_eq (by rw [hothers])).trans List.perm_middle.symm)
  have hl : s.line? l.number = some l := h.book.line?_of_mem (by simp [hs])
  have hg (y : OrderLine) (hy : y ∈ s.bk.lines) : y.Turns (if y.number = l.number then x else y) := by
    split
    · rename_i hn
      exact h.book.line_eq hl hy hn ▸ hx
    · exact .refl y
  refine ⟨(h.book.mapLines (t := s.setLine l.number fun _ => x) rfl hg rfl).perm hperm hc, fun hr y hy => ?_, fun ho => ?_⟩
  · simp only [circuit_congr hc]
    exact (h.residues hr).mapLines (t := s.setLine l.number fun _ => x) rfl hg rfl y (hperm.mem_iff.mp hy)
  · have hbook : (front ++ l :: back).Pairwise OrderLine.Precedes := hs ▸ h.order ho
    rw [BookOrderInv, ht]
    refine pairwise_insert ?_ hpre hrest
    exact hothers ▸ hbook.sublist ((List.sublist_cons_self l back).append_left front)

theorem goLine_circuits (s : State) (n : Nat) (g : LineState) : (s.goLine n g).circuits = s.circuits := by rw [goLine_eq]

theorem Booked.goLine (h : Booked r o s) (hl : s.line? n = some l) (hs : l.state = .held) :
    Booked r o (s.goLine n l.counted) := by
  obtain ⟨hmem, rfl⟩ := line?_mem hl
  have hturn : l.Turns (l.going l.counted) := ⟨rfl, rfl, rfl, fun hc => counts_going hc (by simp [hs])⟩
  by_cases hq : l.counted = .queued
  · obtain ⟨front, back, hsplit⟩ := List.append_of_mem hmem
    obtain ⟨pre, rest, hplace, hothers, hrush, hnormal⟩ := placeAgain_stands (n := l.number) (x := l.going l.counted)
      (back := back) rfl (h.book.others_differ hsplit).1
    have hlines : (s.goLine l.number l.counted).bk.lines = pre ++ l.going l.counted :: rest := by
      rw [goLine_eq]
      simp only [if_pos hq]
      rw [h.book.setLine_split hsplit, hplace]
    refine h.replace hsplit hturn hlines hothers (goLine_circuits _ _ _) (fun y hy => precedes_iff.mpr ?_)
      fun y hy => precedes_iff.mpr ?_
    · cases hx : l.rush with
      | true => exact .inl (hrush hx y hy)
      | false => exact .inr (by simp [OrderLine.queuedRush, OrderLine.going, hx])
    · cases hx : l.rush with
      | true => exact .inl (by simp [OrderLine.queuedNormal, OrderLine.going, hx])
      | false => exact .inr (hnormal hx y hy)
  · have hset := h.setLine (n := l.number) (f := (·.going l.counted)) fun y hy => by
      obtain rfl := Option.some.inj (hl.symm.trans hy)
      exact ⟨hturn, fun e => absurd e hq⟩
    refine hset.of (ledger_congr ?_ fun c => ?_)
    · rw [goLine_eq]
      simp only [if_neg hq]
      rfl
    · rw [goLine_eq]
      exact ⟨rfl, rfl⟩

theorem Booked.cancelLine (h : Booked r o s) (n : Nat) : Booked r o (s.cancelLine n) := by
  have h1 : Booked r o (s.failAtZ1 n) := h.of
  refine Booked.settleLine (Booked.endBindings (h1.setLine fun l _ => ?_) n) n
  refine ⟨⟨rfl, rfl, rfl, fun hc => ?_⟩, nofun⟩
  obtain ⟨h1, h2, h3, h4, -⟩ := hc
  exact ⟨h1, le_refl _, h2.trans h3, h4, nofun, nofun, fun hn => absurd rfl hn⟩

theorem Booked.cutLine (h : Booked r o s) {k : Nat} (hl : s.line? n = some l) (h1 : 1 ≤ k) (hr : l.released ≤ k)
    (hk : k < l.limit) : Booked r o (s.cutLine n k) := by
  refine Booked.settleLine (h.setLine fun x hx => ?_) n
  obtain rfl := Option.some.inj (hl.symm.trans hx)
  refine ⟨⟨rfl, rfl, rfl, fun hc => ?_⟩, ?_⟩
  · obtain ⟨hfin, -, hlim, htins, hq, -, -⟩ := hc
    refine ⟨hfin, hr, hk.le.trans hlim, htins, ?_, ?_, fun _ => h1⟩
    · dsimp only
      split
      · nofun
      · exact hq
    · dsimp only
      split
      · simp
      · rename_i hno
        rintro (hs | hs)
        · rw [hq hs]
          exact h1
        · exact lt_of_le_of_ne hr fun he => hno ⟨hs, he⟩
  · dsimp only
    split
    · nofun
    · exact fun hs => ⟨hs, rfl⟩

end Sys2Proof.Machine
end

