-- ==== Sys2Proof/Proofs/BookRequests.lean ====
section
/-! PROOF SUPPORT. The requests and the events over the conditions on the book. -/

namespace Sys2Proof.Machine

set_option Elab.async false

variable {s t u : State} {r o : Prop} {n : Nat} {l : OrderLine} {fs : Fields} {a : Answer}

/-! ### Operations of the requests that leave the ledger -/

@[simp] theorem ledger_lidsEffect (m : Fin 3) (code : Option (Fin 3)) (count : Option Nat) :
    (s.lidsEffect m code count).ledger = s.ledger := by
  unfold State.lidsEffect
  repeat' split
  all_goals simp

@[simp] theorem ledger_setPolicy (p : LidPolicy) : (s.setPolicy p).ledger = s.ledger := by simp [State.setPolicy]

@[simp] theorem ledger_setLink (k : Link) : ({ s with link := k } : State).ledger = s.ledger := rfl

@[simp] theorem ledger_settings :
    (∀ b v, (s.putBase b v).ledger = s.ledger) ∧ (∀ z v, (s.putSize z v).ledger = s.ledger)
      ∧ (∀ n v, (s.writeSlot n v).ledger = s.ledger) ∧ ∀ m, (s.setScheme m).ledger = s.ledger :=
  ⟨fun _ _ => rfl, fun _ _ => rfl, fun _ _ => rfl, fun _ => rfl⟩

/-- A trim is staged beside the minimum dose. -/
@[simp] theorem ledger_trimEffect (c : Circ) (v : Int) : (s.trimEffect c v).ledger = s.ledger := by
  have h : (s.setCircuit c fun q => q.stageTrim v).ledger = s.ledger :=
    ledger_setCircuit s c _ (fun q => by unfold Circuit.stageTrim; split <;> exact ⟨rfl, rfl⟩)
  exact h

/-! ### CSET (R21) -/

/-- What CSET writes into the records keeps every count, and changes the active minimum dose of a circuit without an open
batch alone. -/
theorem csetWritten_openBatch (s : State) (c : Circ) (fs : Fields) (w : TwinChange) (d : Circ) :
    ((s.csetWritten c fs w).circuit d).openBatch = (s.circuit d).openBatch
      ∧ (((s.csetWritten c fs w).circuit d).nmin = (s.circuit d).nmin ∨ (s.circuit d).openBatch = 0) := by
  by_cases hd : d = c
  · subst hd
    refine ⟨by rw [csetWritten_keeps], ?_⟩
    obtain ⟨hnone, hsome⟩ := csetWritten_nmin s d fs w
    cases hn : fs.num "nmin" with
    | none => exact .inl (hnone hn).1
    | some n =>
      by_cases ho : (s.circuit d).openBatch = 0
      · exact .inr ho
      · exact .inl ((hsome n hn).2 ho).1
  · rw [csetWritten_ne hd]
    exact ⟨rfl, .inl rfl⟩

theorem Booked.csetEffect (h : Booked r o s) (c : Circ) (fs : Fields) (w : TwinChange) : Booked r o (s.csetEffect c fs w) := by
  have h1 : Booked r o (s.csetWritten c fs w) := h.restage (by rw [csetWritten_frame]) (csetWritten_openBatch s c fs w)
  exact h1.of (confined_csetEffect s c fs w).ledger

/-! ### ORDER and LOADED (R65, R142) -/

/-- The tin count of a request that ORDER takes. -/
theorem order_tins (hs : orderSyntax fs = false) (hr : orderRange fs = false) :
    1 ≤ fs.numD "tins" 0 ∧ fs.numD "tins" 0 ≤ 24 := by
  simp only [orderSyntax, Bool.or_eq_false_iff] at hs
  obtain ⟨⟨⟨hm, -⟩, -⟩, -⟩ := hs
  have hnum := has_eq_isSome_num hm (key := "tins") (by simp)
  have hhas : fs.has "tins" = true := by
    simp only [Fields.malformed, Bool.or_eq_false_iff, List.any_eq_false] at hm
    obtain ⟨⟨-, hreq⟩, -⟩ := hm
    simpa using hreq "tins" (by simp)
  simp only [orderRange, Bool.or_eq_false_iff, Bool.not_eq_false'] at hr
  obtain ⟨⟨⟨⟨⟨hw, -⟩, -⟩, -⟩, -⟩, -⟩ := hr
  obtain ⟨k, hk⟩ := Option.isSome_iff_exists.mp (hnum ▸ hhas)
  rw [numD_of_num hk]
  simpa [fieldWithin, hk, within] using hw

theorem newLine_fits (s : State) (f : Formula) (z : Fin 12) (h : 1 ≤ fs.numD "tins" 0 ∧ fs.numD "tins" 0 ≤ 24) :
    (s.newLine fs f z).counts ∧ (s.newLine fs f z).entriesFit := by
  obtain ⟨h1, h2⟩ := h
  refine ⟨⟨le_refl _, Nat.zero_le _, le_refl _, h2, fun _ => rfl, fun _ => h1, fun _ => h1⟩, by simp [State.newLine], ?_⟩
  intro e he x hx
  obtain ⟨y, -, rfl⟩ := List.mem_map.mp he
  cases hx

theorem newLine_free (s : State) (fs : Fields) (f : Formula) (z : Fin 12) : (s.newLine fs f z).Free := by
  intro e he
  obtain ⟨y, -, rfl⟩ := List.mem_map.mp he
  rfl

theorem Booked.loadTin (h : Booked r o s) (hw : s.wantedLine = some l) : Booked r o (s.loadTin l) := by
  have hl : s.line? l.number = some l := h.book.line?_of_mem (List.mem_of_find?_eq_some hw)
  have hq : l.state = .queued ∨ l.state = .running := by simpa using List.find?_some hw
  have hl1 : ((s.addTin (newTin s.newTinId l.number (l.released + 1) l)).restAt .z1 s.newTinId).line? l.number = some l := hl
  have h1 : Booked r o ((s.addTin (newTin s.newTinId l.number (l.released + 1) l)).restAt .z1 s.newTinId) := h.of
  exact (h1.releaseTin hl1 hq).of (by simp [State.loadTin])

/-! ### Requests that keep the conditions on the book -/

/-- The change of an answer that is given in state s keeps the conditions on the book, in every state with the book of s. -/
def Answer.Books (r o : Prop) (s : State) : Answer → Prop
  | .accept _ f => ∀ u : State, u.bk = s.bk → Booked r o u → Booked r o (f u)
  | _ => True

@[simp] theorem Answer.books_refuse (x : Reason) : (Answer.refuse x).Books r o s := trivial
@[simp] theorem Answer.books_report (items : List Item) : (Answer.report items).Books r o s := trivial

@[simp] theorem Answer.books_accept (items : List Item) (f : State → State) :
    (Answer.accept items f).Books r o s ↔ ∀ u : State, u.bk = s.bk → Booked r o u → Booked r o (f u) := Iff.rfl

@[simp] theorem Answer.books_check (b : Bool) (x : Reason) (a : Answer) :
    (Answer.check b x a).Books r o s ↔ (b = false → a.Books r o s) := by
  cases b <;> simp

@[simp] theorem Answer.books_unless (x : Option Reason) (a : Answer) :
    (Answer.unless x a).Books r o s ↔ (x = none → a.Books r o s) := by
  cases x <;> simp

theorem Answer.Reports.books (h : a.Reports) : a.Books r o s := by
  cases a with
  | accept => exact h.elim
  | _ => trivial

/-- A change that keeps the conditions in every state. -/
theorem Answer.books_of (items : List Item) {f : State → State} (h : ∀ u, Booked r o u → Booked r o (f u)) :
    (Answer.accept items f).Books r o s := fun u _ => h u

/-- The change of an answer leaves the ledger. -/
def Answer.LeavesLedger : Answer → Prop
  | .accept _ f => ∀ u : State, (f u).ledger = u.ledger
  | _ => True

theorem Answer.LeavesLedger.books (h : a.LeavesLedger) : a.Books r o s := by
  cases a with
  | accept items f => exact Answer.books_of items fun u hu => hu.of (h u)
  | _ => trivial

@[simp] theorem Answer.leavesLedger_refuse (x : Reason) : (Answer.refuse x).LeavesLedger := trivial
@[simp] theorem Answer.leavesLedger_report (items : List Item) : (Answer.report items).LeavesLedger := trivial

@[simp] theorem Answer.leavesLedger_accept (items : List Item) (f : State → State) :
    (Answer.accept items f).LeavesLedger ↔ ∀ u : State, (f u).ledger = u.ledger := Iff.rfl

@[simp] theorem Answer.leavesLedger_check (b : Bool) (x : Reason) (a : Answer) :
    (Answer.check b x a).LeavesLedger ↔ (b = false → a.LeavesLedger) := by
  cases b <;> simp

@[simp] theorem Answer.leavesLedger_unless (x : Option Reason) (a : Answer) :
    (Answer.unless x a).LeavesLedger ↔ (x = none → a.LeavesLedger) := by
  cases x <;> simp

/-- The answers of the requests whose change leaves the ledger. -/
def unledgeredAnswers : List (Fields → State → Answer) :=
  [trimAnswer, canoutAnswer, bsetAnswer, bdelAnswer, ssetAnswer, sdelAnswer, fstoreAnswer, fnextAnswer, feraseAnswer,
    schemeAnswer, scaleAnswer, calrunAnswer, caltakeAnswer, lidsAnswer, lidpolAnswer, timeAnswer, stirdayAnswer, purgeAnswer,
    stirAnswer, fclearAnswer, noticeAnswer, resumeAnswer]

theorem leavesLedger_of_mem : ∀ a ∈ unledgeredAnswers, ∀ fs s, (a fs s).LeavesLedger := by
  simp only [unledgeredAnswers, List.forall_mem_cons, List.not_mem_nil, false_imp_iff, implies_true, and_true]
  refine ⟨?_, ?_, ?_, ?_, ?_, ?_, ?_, ?_, ?_, ?_, ?_, ?_, ?_, ?_, ?_, ?_, ?_, ?_, ?_, ?_, ?_, ?_⟩
  all_goals
    intro fs s
    simp only [trimAnswer, canoutAnswer, bsetAnswer, bdelAnswer, ssetAnswer, sdelAnswer, fstoreAnswer, fnextAnswer,
      feraseAnswer, schemeAnswer, scaleAnswer, calrunAnswer, caltakeAnswer, lidsAnswer, lidpolAnswer, timeAnswer,
      stirdayAnswer, purgeAnswer, stirAnswer, fclearAnswer, fclearFlag, State.fclear, noticeAnswer, resumeAnswer,
      State.careRequest, Answer.leavesLedger_check, Answer.leavesLedger_unless]
    intros
    repeat' split
    all_goals simp [apply_ite State.ledger]

theorem books_quiet {a : Fields → State → Answer} (fs : Fields) (s : State)
    (h : a ∈ unledgeredAnswers := by simp [unledgeredAnswers]) : (a fs s).Books r o s := (leavesLedger_of_mem a h fs s).books

theorem books_report {a : Fields → State → Answer} (fs : Fields) (s : State)
    (h : a ∈ reportAnswers := by simp [reportAnswers]) : (a fs s).Books r o s := (reports_of_mem a h fs s).books

theorem books_cset (fs : Fields) (s : State) : (csetAnswer fs s).Books r o s := by
  simp only [csetAnswer, Answer.books_check]
  intro _
  split
  · trivial
  · simp only [Answer.books_check]
    intro _
    split
    · trivial
    · simp only [Answer.books_check]
      exact fun _ _ => Answer.books_of _ fun u hu => hu.csetEffect _ _ _

/-! ### The requests of the book -/

theorem Answer.books_withLine {allowed numeric : List String} {next : Nat → OrderLine → Answer}
    (h : ∀ n l, s.line? n = some l → (next n l).Books r o s) : (s.withLine fs allowed numeric next).Books r o s := by
  simp only [State.withLine, Answer.books_check]
  intro _ _
  split
  · trivial
  · rename_i hl
    exact h _ _ hl

theorem books_order (fs : Fields) (s : State) : (orderAnswer fs s).Books r o s := by
  simp only [orderAnswer, Answer.books_check]
  intro hs hr
  split
  · simp only [Answer.books_check, Answer.books_unless]
    intro _ _ hfull u hb hu
    have hlen : s.bk.lines.length < 32 := Nat.not_le.mp (of_decide_eq_false hfull)
    obtain ⟨hfree, -, -⟩ := newLineNumber_free hlen
    exact hu.enterLine (hb ▸ hlen) (hb ▸ hfree) (newLine_fits s _ _ (order_tins hs hr)) (newLine_free s fs _ _)
  · trivial

theorem books_hold (fs : Fields) (s : State) : (holdAnswer fs s).Books r o s := by
  refine Answer.books_withLine fun n l hl => ?_
  have hold (hs : l.state ≠ .cancelled) (u : State) (hb : u.bk = s.bk) (hu : Booked r o u) : Booked r o (u.holdLine n .host) :=
    hu.holdLine .host ((line?_congr hb n).trans hl) hs
  split
  · rename_i hs
    exact hold (by simp [hs])
  · rename_i hs
    exact hold (by simp [hs])
  · rename_i hs
    exact hold (by simp [hs])
  · rename_i hs
    intro u hb hu
    split
    · exact hu
    · exact hold (by simp [hs]) u hb hu
  · trivial
  · trivial

theorem books_go (fs : Fields) (s : State) : (goAnswer fs s).Books r o s := by
  refine Answer.books_withLine fun n l hl => (Answer.books_check _ _ _).mpr fun hs u hb hu => ?_
  exact hu.goLine ((line?_congr hb n).trans hl) (by simpa using hs)

theorem books_cancel (fs : Fields) (s : State) : (cancelAnswer fs s).Books r o s := by
  refine (Answer.books_check _ _ _).mpr fun _ => Answer.books_withLine fun n l hl => ?_
  split
  · rename_i k _
    simp only [cancelAfterTaken, Answer.books_check, Bool.not_eq_false', Bool.or_eq_false_iff, decide_eq_false_iff_not]
    rintro hk ⟨-, hr⟩
    split
    · exact Answer.books_of _ fun u hu => hu
    · rename_i hlim
      intro u hb hu
      have h1 : 1 ≤ k := by
        simp only [within, Bool.and_eq_true, decide_eq_true_eq] at hk
        exact hk.1
      exact hu.cutLine ((line?_congr hb n).trans hl) h1 (Nat.le_of_not_lt hr) (Nat.lt_of_not_le hlim)
  · exact (Answer.books_check _ _ _).mpr fun _ => Answer.books_of _ fun u hu => hu.cancelLine n

/-! ### The requests of the track, and RESTART -/

theorem books_loaded (fs : Fields) (s : State) : (loadedAnswer fs s).Books r o s := by
  simp only [loadedAnswer, Answer.books_check]
  intro _ _ _
  split
  · trivial
  · rename_i hw
    refine (Answer.books_check _ _ _).mpr fun _ u hb hu => hu.loadTin ?_
    rw [State.wantedLine, hb]
    exact hw

theorem books_confirmJam (s : State) (j : JamPair) : (s.confirmJam j).Books r o s := by
  unfold State.confirmJam
  dsimp only
  split
  · exact Answer.books_of _ fun u hu => hu.of
  · exact Answer.books_of _ fun u hu => hu.of
  · exact Answer.books_of _ fun u hu => Booked.retire hu.of _ _
  · trivial

theorem books_confirmUncertain (s : State) (p : Place) : (s.confirmUncertain p).Books r o s := by
  unfold State.confirmUncertain
  split
  · exact Answer.books_of _ fun u hu => hu.of
  · split
    · exact Answer.books_of _ fun u hu => hu.of (by split <;> simp)
    · exact Answer.books_of _ fun u hu => (hu.retire _ .lost).of (ledger_certain _ p)

theorem books_confirmZone (s : State) (p : Place) : (s.confirmZone p).Books r o s := by
  unfold State.confirmZone
  split
  · split
    · exact Answer.books_of _ fun u hu => hu
    · split
      · exact Answer.books_of _ fun u hu => hu
      · exact Answer.books_of _ fun u hu => hu.of
  · refine (Answer.books_check _ _ _).mpr fun _ => ?_
    split
    · exact Answer.books_of _ fun u hu => hu
    · exact Answer.books_of _ fun u hu => hu.lostAt _ _

theorem books_confirmPlace (s : State) (p : Place) : (s.confirmPlace p).Books r o s := by
  refine (Answer.books_check _ _ _).mpr fun _ => ?_
  split
  · exact books_confirmJam s _
  · split
    · exact books_confirmUncertain s p
    · exact books_confirmZone s p

theorem books_confirmLane (s : State) : s.confirmLane.Books r o s := by
  refine (Answer.books_check _ _ _).mpr fun _ => ?_
  split
  · exact books_confirmJam s _
  · exact Answer.books_of _ fun u hu => hu.laneConfirmed

theorem books_confirm (fs : Fields) (s : State) : (confirmAnswer fs s).Books r o s := by
  refine (Answer.books_check _ _ _).mpr fun _ => ?_
  split
  · trivial
  · exact books_confirmLane s
  · exact books_confirmPlace s _

theorem books_clear (fs : Fields) (s : State) : (clearAnswer fs s).Books r o s := by
  refine (Answer.books_check _ _ _).mpr fun _ => ?_
  split
  · trivial
  · trivial
  · refine (Answer.books_check _ _ _).mpr fun _ => ?_
    split
    · trivial
    · simp only [Answer.books_check]
      exact fun _ _ => Answer.books_of _ fun u hu => hu.clearPlace _ _

theorem books_restart (fs : Fields) (s : State) : (restartAnswer fs s).Books r o s := by
  simp only [restartAnswer, Answer.books_check]
  exact fun _ => Answer.books_of _ fun u hu => hu.restartMachine

/-! ### Taking a request -/

/-- Every request keeps the conditions on the book. -/
theorem books_verb (fs : Fields) (s : State) : ∀ x ∈ verbTable, (x.2 fs s).Books r o s := by
  simp only [verbTable, List.forall_mem_append, List.forall_mem_cons, List.not_mem_nil, false_imp_iff, implies_true,
    and_true]
  refine ⟨⟨⟨⟨books_cset fs s, books_quiet fs s, books_quiet fs s, ?_, books_quiet fs s, ?_, books_quiet fs s,
      books_quiet fs s, ?_, books_quiet fs s, books_quiet fs s, ?_, books_quiet fs s, books_quiet fs s⟩,
    ?_, ?_, books_order fs s, books_hold fs s, books_go fs s, books_cancel fs s, ?_, ?_, ?_, books_quiet fs s, ?_,
      books_quiet fs s, books_quiet fs s, books_quiet fs s, ?_, ?_⟩,
    books_loaded fs s, books_confirm fs s, books_clear fs s, ?_, ?_, ?_, books_quiet fs s, books_quiet fs s, ?_, ?_, ?_,
      ?_, books_quiet fs s, books_quiet fs s, books_quiet fs s, books_quiet fs s, ?_⟩,
    books_quiet fs s, books_quiet fs s, ?_, books_quiet fs s, books_restart fs s, ?_⟩
  all_goals exact books_report fs s

theorem books_message (chars : List RxChar) (s : State) : (messageAnswer chars s).Books r o s := by
  unfold messageAnswer
  dsimp only
  split
  · trivial
  · split
    · trivial
    · split
      · trivial
      · split
        · trivial
        · split
          · trivial
          · split
            · trivial
            · rename_i e
              exact books_verb _ s _ (List.mem_of_find?_eq_some e)

/-! ### Every step -/

/-- The minimum doses keep to their bounds, and the book to its conditions. -/
structure Kept (r o : Prop) (s : State) : Prop where
  doses : nminLaw.Holds s
  booked : Booked r o s

theorem Kept.of (h : Kept r o s) (hr : t.records = s.records := by simp) (hl : t.ledger = s.ledger := by simp) : Kept r o t :=
  ⟨h.doses.of hr, h.booked.of hl⟩

theorem Kept.conclude (h : Kept r o s) (before : State) : Kept r o (State.conclude before s) :=
  ⟨h.doses.conclude before, h.booked.conclude h.doses before⟩

theorem Kept.give (h : Kept r o s) (place : Bool) (hd : a.Keeps nminLaw s) (hb : a.Books r o s) : Kept r o (s.give place a) := by
  have hp (b : Reply) : Kept r o (s.pushReply place b) := h.of
  cases a with
  | refuse x => exact hp _
  | report items => exact hp _
  | accept items f =>
    have hf : Kept r o (f (s.pushReply place (.ok items))) := ⟨hd _ (by simp) (hp _).doses, hb _ rfl (hp _).booked⟩
    exact hf.conclude s

theorem Kept.takeEntry (h : Kept r o s) : Kept r o s.takeEntry := by
  unfold State.takeEntry
  split
  · have h1 (f : List InEntry → List InEntry) : Kept r o (s.setInputs f) := h.of (by simp) rfl
    exact (h1 _).give true (keeps_message (h1 _).doses _) (books_message _ _)
  · exact h.of (by simp) rfl
  · exact h

theorem Kept.takeEntries (h : Kept r o s) : Kept r o s.takeEntries := h.takeEntry.takeEntry.takeEntry.takeEntry

theorem Kept.received (h : Kept r o s) (chars : List RxChar) : Kept r o (s.received chars) := by
  unfold State.received
  split
  · exact Kept.takeEntries (h.of (by simp) rfl)
  · exact h

theorem Kept.lineSent (h : Kept r o s) : Kept r o s.lineSent := by
  unfold State.lineSent
  split
  · exact h
  · exact Kept.takeEntries (h.of rfl rfl)
  · exact h.of rfl rfl

/-- What a command leaves is kept. -/
def KeptIn (r o : Prop) (x : Host.Outcome State Fault Refusal) : Prop := ∀ t, x = .next t → Kept r o t

theorem keptIn_next (h : Kept r o t) : KeptIn r o (.next t) := by
  rintro u ⟨⟩
  exact h

variable {f : State → State} {g : Inputs → Inputs}

theorem Kept.powered (h : Kept r o s) (hf : Kept r o (f s)) : KeptIn r o (whenPowered f s) := by
  unfold whenPowered
  split
  · exact keptIn_next hf
  · exact keptIn_next h

theorem Kept.event (h : Kept r o s) (hd : nminLaw.Holds (f s)) (hb : Booked r o (f s)) : KeptIn r o (event f s) :=
  h.powered (f := State.after f) (Kept.conclude ⟨hd, hb⟩ s)

/-- An event whose change leaves the ledger. -/
theorem Kept.bookless (h : Kept r o s) (hd : nminLaw.Holds (f s)) (hl : (f s).ledger = s.ledger := by simp) :
    KeptIn r o (Machine.event f s) := h.event hd (h.booked.of hl)

/-- An event whose change leaves the records and the ledger. -/
theorem Kept.quietEvent (h : Kept r o s) (hr : (f s).records = s.records := by simp)
    (hl : (f s).ledger = s.ledger := by simp) : KeptIn r o (Machine.event f s) := h.bookless (h.doses.of hr) hl

theorem Kept.withInput (h : Kept r o s) (hf : Kept r o { s with inp := g s.inp } → Kept r o (f { s with inp := g s.inp })) :
    KeptIn r o (withInput g f s) := by
  have h1 : Kept r o { s with inp := g s.inp } := h.of rfl rfl
  unfold Machine.withInput
  dsimp only
  split
  · exact keptIn_next (hf h1)
  · exact keptIn_next h1

theorem Kept.inputEvent (h : Kept r o s) (hf : Kept r o { s with inp := g s.inp } → Kept r o (f { s with inp := g s.inp })) :
    KeptIn r o (inputEvent g f s) := h.withInput (f := State.after f) fun h1 => (hf h1).conclude _

theorem Kept.quietInput (h : Kept r o s) (hr : ∀ u, (f u).records = u.records := by simp)
    (hl : ∀ u, (f u).ledger = u.ledger := by simp) : KeptIn r o (Machine.inputEvent g f s) :=
  h.inputEvent fun h1 => h1.of (hr _) (hl _)

theorem Kept.request (h : Kept r o s) (a : Fields → State → Answer) (fs : Fields)
    (ha : a ∈ verbTable.map (·.2) := by
      simp only [verbTable, List.map_append, List.map_cons, List.mem_append, List.mem_cons, true_or, or_true]) :
    KeptIn r o (request (a fs) s) := by
  obtain ⟨x, hx, rfl⟩ := List.mem_map.mp ha
  exact h.powered (h.give false (keeps_verb h.doses fs x hx) (books_verb fs s x hx))

end Sys2Proof.Machine
end

