-- ==== Sys2Proof/Proofs/BookSteps.lean ====
section
/-! PROOF SUPPORT. Every step keeps the conditions on the book. -/

namespace Sys2Proof.Machine

set_option Elab.async false

variable {s t : State} {r o : Prop}

@[simp] theorem ledger_storeWriteEnd (s : State) : s.storeWriteEnd.ledger = s.ledger := by
  unfold State.storeWriteEnd
  split
  · rfl
  · rw [ledger_storeTake]
    rfl

theorem Kept.ofLedger (hd : nminLaw.Holds t) (h : Kept r o s) (hl : t.ledger = s.ledger := by simp) : Kept r o t :=
  ⟨hd, h.booked.of hl⟩

/-- Every command keeps the conditions on the book. -/
theorem Kept.exec (h : Kept r o s) (i : Instr) : KeptIn r o (exec i s) := by
  cases i with
  | powerOn d =>
    exact show KeptIn r o (execPowerOn d s) from
      keptIn_next (Kept.conclude ⟨h.doses.powerOn d, booked_powerOn s d⟩ s)
  | powerLoss =>
    exact show KeptIn r o (execPowerLoss s) from
      h.powered (f := State.powerLost) ⟨h.doses.powerLost, booked_powerLost s⟩
  | stopInputActive => exact show KeptIn r o (execStopInputActive s) from h.inputEvent fun h1 => .ofLedger h1.doses.stopMachine h1
  | stopInputReleased =>
    exact show KeptIn r o (execStopInputReleased s) from
      h.withInput fun h1 => h1
  | baySwitchChange c closed =>
    exact show KeptIn r o (execBaySwitchChange c closed s) from
      h.inputEvent fun h1 => .ofLedger (h1.doses.bayChanged c) h1
  | frameStart => exact show KeptIn r o (execFrameStart s) from h.powered h.of
  | slot => exact show KeptIn r o (execSlot s) from h.powered h.of
  | burstComplete c => exact show KeptIn r o (execBurstComplete c s) from h.bookless (h.doses.burstComplete c)
  | burstStall c => exact show KeptIn r o (execBurstStall c s) from h.bookless (h.doses.burstStall c)
  | burstTimeout c => exact show KeptIn r o (execBurstTimeout c s) from h.bookless (h.doses.burstTimeout c)
  | storeWriteEnd => exact show KeptIn r o (execStoreWriteEnd s) from h.powered (.ofLedger h.doses.storeWriteEnd h)
  | settleEnd reading =>
    exact show KeptIn r o (execSettleEnd reading s) from
      h.inputEvent fun h1 => ⟨h1.doses.settleEnds reading, h1.booked.settleEnds reading⟩
  | headTaken => exact show KeptIn r o (execHeadTaken s) from h.inputEvent fun h1 => ⟨h1.doses.headTaken, h1.booked.headTaken⟩
  | placeSensorChange x =>
    exact show KeptIn r o (execPlaceSensorChange x s) from
      h.inputEvent fun h1 => ⟨h1.doses.sensed _ x, h1.booked.sensed _ x⟩
  | lidSensorChange m lids =>
    exact show KeptIn r o (execLidSensorChange m lids s) from
      h.quietInput (fun u => by split <;> simp) fun u => by split <;> simp
  | addrAck => exact show KeptIn r o (execAddrAck s) from h.bookless h.doses.addressAcked
  | addrNak => exact show KeptIn r o (execAddrNak s) from h.bookless h.doses.addressNaked
  | byteNak => exact show KeptIn r o (execByteNak s) from h.bookless h.doses.byteNaked
  | lost => exact show KeptIn r o (execLost s) from h.bookless h.doses.arbitrationLost
  | lineError => exact show KeptIn r o (execLineError s) from h.bookless h.doses.lineBroken
  | stopSent => exact show KeptIn r o (execStopSent s) from h.bookless h.doses.stopEnded
  | tagWriteTimeout => exact show KeptIn r o (execTagWriteTimeout s) from h.bookless h.doses.pollTimeout
  | busWait => exact show KeptIn r o (execBusWait s) from h.bookless h.doses.busWaited
  | messageFirstCharacter => exact show KeptIn r o (execMessageFirstCharacter s) from h.powered h.of
  | messageDiscarded => exact show KeptIn r o (execMessageDiscarded s) from h.powered h.of
  | messageReceived chars => exact show KeptIn r o (execMessageReceived chars s) from h.powered (h.received chars)
  | lineSent => exact show KeptIn r o (execLineSent s) from h.powered h.lineSent
  | arrival dest marks => exact show KeptIn r o (execArrival dest marks s) from h.quietInput
  | zoneDisagreement zone tin => exact show KeptIn r o (execZoneDisagreement zone tin s) from h.quietInput
  | cradleDisagreement m tin => exact show KeptIn r o (execCradleDisagreement m tin s) from h.quietInput
  | pressCycleEnd seated => exact show KeptIn r o (execPressCycleEnd seated s) from h.quietInput
  | guardOpen => exact show KeptIn r o (execGuardOpen s) from h.quietInput
  | guardClose => exact show KeptIn r o (execGuardClose s) from h.quietInput
  | doorOpen m => exact show KeptIn r o (execDoorOpen m s) from h.quietInput
  | doorClose m => exact show KeptIn r o (execDoorClose m s) from h.quietInput
  | capMotionEnd => exact show KeptIn r o (execCapMotionEnd s) from h.quietEvent
  | closingDelayExpiry => exact show KeptIn r o (execClosingDelayExpiry s) from h.quietEvent
  | jam dest => exact show KeptIn r o (execJam dest s) from h.quietEvent
  | clampEnd m => exact show KeptIn r o (execClampEnd m s) from h.quietEvent
  | mixEnd m => exact show KeptIn r o (execMixEnd m s) from h.quietEvent
  | brakeEnd m => exact show KeptIn r o (execBrakeEnd m s) from h.quietEvent
  | unclampEnd m => exact show KeptIn r o (execUnclampEnd m s) from h.quietEvent
  | stirEnd c => exact show KeptIn r o (execStirEnd c s) from h.quietEvent
  | stirBoundary => exact show KeptIn r o (execStirBoundary s) from h.quietEvent
  | siteMinute => exact show KeptIn r o (execSiteMinute s) from h.quietEvent
  | purgeIntervalElapsed c => exact show KeptIn r o (execPurgeIntervalElapsed c s) from h.quietEvent
  | startConditionSeen => exact show KeptIn r o (execStartConditionSeen s) from h.quietEvent
  | stopConditionSeen => exact show KeptIn r o (execStopConditionSeen s) from h.quietEvent
  | busLinesHigh => exact show KeptIn r o (execBusLinesHigh s) from h.quietEvent
  | taken => exact show KeptIn r o (execTaken s) from h.quietEvent
  | byteAck data => exact show KeptIn r o (execByteAck data s) from h.quietEvent
  | pollInterval => exact show KeptIn r o (execPollInterval s) from h.quietEvent
  | _ fs => exact h.request _ fs

theorem Kept.step (h : Kept r o s) (e : step s = .next t) : Kept r o t := by
  unfold Machine.step at e
  split at e
  · have h1 : Kept r o s.idleTick := h.of rfl rfl
    exact keptIn_next h1 t e
  · rename_i i rest _
    have h1 : Kept r o { s with pending := rest } := h.of rfl rfl
    exact h1.exec i t e

/-- Settles O11: the conditions on the book speak of its lines and of the counts and minimum doses of the circuits, and
every step keeps them together with the bounds of the minimum doses. -/
theorem stepKeepsBook : Obligations.StepKeepsBook := by
  unfold Obligations.StepKeepsBook
  intro s t hb hn e
  have h : Kept (ResidueInv s) (BookOrderInv s) s := ⟨(nminInv_iff s).mp hn, hb, id, id⟩
  obtain ⟨-, hbook, hres, hord⟩ := h.step e
  exact ⟨hbook, hres, hord⟩

end Sys2Proof.Machine
end

