-- ==== Sys2Proof/Proofs/OrderRequests.lean ====
section
/-! PROOF SUPPORT. ORDER (R64 to R66, R70). -/

namespace Sys2Proof.Machine

set_option Elab.async false

variable {s : State} {fs : Fields} {n : Nat}

/-! ### What an operation on the book leaves -/

theorem unchanged_book (s : State) (b : Book) : Unchanged [.book] s { s with bk := b } := by
  refine ⟨rfl, rfl, fun p hp => ?_⟩
  cases p <;> simp [Part.same] at hp ⊢

/-- The place of a line in book order is the place of its number. -/
theorem linePos_number {lines : List OrderLine} (h : ∃ l ∈ lines, l.number = n) :
    (lines[linePos n lines - 1]?).map (·.number) = some n := by
  obtain ⟨l, hl, hn⟩ := h
  have hlt : lines.findIdx (fun l => l.number == n) < lines.length := List.findIdx_lt_length_of_exists ⟨l, hl, by simp [hn]⟩
  have hat := List.findIdx_getElem (w := hlt)
  rw [linePos, Nat.add_sub_cancel, List.getElem?_eq_getElem hlt, Option.map_some]
  simpa using hat

/-- The number after the last one is taken where no line holds it. -/
theorem newLineNumber_following (h : ∀ l ∈ s.bk.lines, l.number ≠ numberAfter 65535 s.bk.lastNumber) :
    s.newLineNumber = numberAfter 65535 s.bk.lastNumber := by
  have hnone : ¬(s.line? (numberAfter 65535 s.bk.lastNumber)).isSome = true := by
    rw [line?_isSome_iff]
    exact fun ⟨l, hl, hn⟩ => h l hl hn
  exact (nextFree_succ _ _ _ 65535).trans (if_neg hnone)

/-- An ORDER that passes its checks is taken. -/
theorem orderAnswer_taken {z : Fin 12} {f : Formula} (hs : orderSyntax fs = false) (hr : orderRange fs = false)
    (hz : size? fs = some z) (hf : s.orderFormula fs = some f) (hsize : s.lib.sizes[z] ≠ none)
    (hrefuse : s.formulaRefusal f = none) (hlen : s.bk.lines.length < 32) :
    orderAnswer fs s = .accept [.num "line" s.newLineNumber,
      .num "pos" (linePos s.newLineNumber (placeNew (s.newLine fs f z) s.bk.lines))] fun u => u.enterLine (s.newLine fs f z) := by
  have hsize' : (s.lib.sizes[z]).isNone = false := by simpa [Option.isNone_eq_false_iff, Option.isSome_iff_ne_none] using hsize
  have hlen' : decide (Config.bookPlaces ≤ s.bk.lines.length) = false := decide_eq_false (Nat.not_le.mpr hlen)
  simp only [orderAnswer, hs, hr, hz, hf, hsize', hrefuse, hlen', Answer.check_false, Answer.unless]
  rfl

/-- Settles O27: an ORDER that passes its checks enters the line made of it, which stands where placeNew puts it. -/
theorem orderEntersLine : Obligations.OrderEntersLine := by
  unfold Obligations.OrderEntersLine
  intro s fs z f hp hs hr hz hf hsize hrefuse hlen following
  have ht := orderAnswer_taken hs hr hz hf hsize hrefuse hlen
  obtain ⟨hfree, h1, h2⟩ := newLineNumber_free hlen
  have hstands := placeNew_stands (s.newLine fs f z) s.bk.lines
  have hmem : s.newLine fs f z ∈ placeNew (s.newLine fs f z) s.bk.lines := by
    obtain ⟨front, back, -, hafter, -⟩ := hstands
    simp [hafter]
  have hrush : ((fs.get "prio").bind (named? prioTable) == some true) = (s.newLine fs f z).rush := by
    unfold State.newLine named
    cases (fs.get "prio").bind (named? prioTable) with
    | none => rfl
    | some b => cases b <;> rfl
  refine ⟨s.newLineNumber, _, _, request_accepted hp ht, h1, h2, hfree, newLineNumber_following, rfl, ?_, rfl,
    linePos_number ⟨_, hmem, rfl⟩, ((unchanged_pushReply s false _).trans (unchanged_book _ _)).mono (by decide)⟩
  rw [hrush]
  exact hstands

end Sys2Proof.Machine
end

