-- ==== Sys2Proof/Proofs/HoldRequests.lean ====
section
/-! PROOF SUPPORT. HOLD and GO (R71, R76, R79). -/

namespace Sys2Proof.Machine

set_option Elab.async false

variable {s : State} {fs : Fields} {n k : Nat} {l x : OrderLine} {t : Tin} {g : LineState} {front back : List OrderLine}
  {f : State → State}

/-! ### Requests that name a line -/

theorem withLine_of_none {allowed numeric : List String} {next : Nat → OrderLine → Answer}
    (hm : fs.malformed allowed ["line"] numeric = false) (hn : fs.num "line" = some n) (h1 : 1 ≤ n) (h2 : n ≤ 65535)
    (hl : s.line? n = none) : s.withLine fs allowed numeric next = .refuse .notFound := by
  simp only [State.withLine, hm, numD_of_num hn, within_eq_true h1 h2, hl, Answer.check_false, Bool.not_true]

theorem setLine_numbers (s : State) (n : Nat) {f : OrderLine → OrderLine} (hf : ∀ l, (f l).number = l.number) :
    (s.setLine n f).bk.lines.map (·.number) = s.bk.lines.map (·.number) := by
  rw [State.setLine, List.map_map]
  refine List.map_congr_left fun l _ => ?_
  rw [Function.comp_apply]
  split
  · exact hf l
  · rfl

/-! ### A tin of the line at Z1 -/

theorem waitingTin_eq_some_iff :
    s.waitingTin = some (t, n, k) ↔ s.tinAt .z1 = some t ∧ t.order = some (n, k) ∧ t.stage = .loaded := by
  refine ⟨fun h => ?_, fun ⟨ht, ho, hs⟩ => waitingTin_eq ht hs ho⟩
  unfold State.waitingTin at h
  split at h
  · rename_i y hy
    split at h
    · rename_i m j ho
      split at h
      · rename_i hs
        simp only [Option.some.injEq, Prod.mk.injEq] at h
        obtain ⟨rfl, rfl, rfl⟩ := h
        exact ⟨hy, ho, hs⟩
      · cases h
    · cases h
  · cases h

theorem waitsAtZ1_iff :
    s.waitsAtZ1 n = true ↔ ∃ t k, s.tinAt .z1 = some t ∧ t.order = some (n, k) ∧ t.stage = .loaded := by
  simp only [State.waitsAtZ1, ← waitingTin_eq_some_iff]
  cases h : s.waitingTin with
  | none => simp
  | some w =>
    obtain ⟨t, m, k⟩ := w
    simp only [Option.any_some, beq_iff_eq, Option.some.injEq, Prod.mk.injEq]
    exact ⟨fun hm => ⟨t, k, rfl, hm, rfl⟩, fun ⟨_, _, _, hm, _⟩ => hm⟩

/-! ### HOLD (R76) -/

theorem unchanged_holdLine (s : State) (n : Nat) (why : Hold) : Unchanged [.book, .link] s (s.holdLine n why) := by
  refine ⟨rfl, rfl, fun p hp => ?_⟩
  cases p <;> simp [Part.same, State.holdLine, State.setLine, State.setFlag] at hp ⊢

/-- The answer to HOLD, by the state of the line. -/
theorem holdAnswer_eq (hm : fs.malformed ["line"] ["line"] ["line"] = false) (hn : fs.num "line" = some n) (h1 : 1 ≤ n)
    (h2 : n ≤ 65535) (hl : s.line? n = some l) :
    (l.state = .queued ∨ l.state = .running ∨ l.state = .finishing →
      holdAnswer fs s = .accept [] fun u => u.holdLine n .host)
    ∧ (l.state = .held →
      holdAnswer fs s = .accept [] fun u => if l.hold = some .host then u else u.holdLine n .host)
    ∧ (l.state = .cancelled → holdAnswer fs s = .refuse .state) := by
  have h := withLine_of_line? (s := s) (next := fun n l => match l.state with
    | .queued | .running | .finishing => .accept [] fun u => u.holdLine n .host
    | .held => .accept [] fun u => if l.hold = some .host then u else u.holdLine n .host
    | .cancelled | .done => .refuse .state) hm hn h1 h2 hl
  refine ⟨?_, fun hs => ?_, fun hs => ?_⟩
  · rintro (hs | hs | hs) <;> exact h.trans (by rw [hs])
  · exact h.trans (by rw [hs])
  · exact h.trans (by rw [hs])

/-! ### GO (R79) -/

theorem goLine_stn (s : State) (n : Nat) (g : LineState) :
    (s.goLine n g).stn = if s.waitsAtZ1 n then { s.stn with attemptOwed := true } else s.stn := by
  rw [goLine_eq]

theorem unchanged_goLine (s : State) (n : Nat) (g : LineState) : Unchanged [.book, .station] s (s.goLine n g) := by
  rw [goLine_eq]
  refine ⟨rfl, rfl, fun p hp => ?_⟩
  cases p <;> simp [Part.same] at hp ⊢

/-- A line that does not return to QUEUED changes at its place. -/
theorem goLine_lines (hg : g ≠ .queued) : (s.goLine n g).bk.lines = (s.setLine n (·.going g)).bk.lines := by
  rw [goLine_eq]
  exact if_neg hg

/-- A line that returns to QUEUED is placed again. -/
theorem goLine_queued_lines (h : BookInv s) (hs : s.bk.lines = front ++ l :: back) :
    (s.goLine l.number .queued).bk.lines = placeAgain l.number (front ++ l.going .queued :: back) := by
  rw [goLine_eq, ← h.setLine_split hs (·.going .queued)]
  simp only [if_true]

/-- Another line is found where it was, wherever a line enters. -/
theorem find?_number_insert (hx : x.number ≠ k) :
    (front ++ x :: back).find? (·.number == k) = (front ++ back).find? (·.number == k) := by
  rw [List.find?_append, List.find?_append, List.find?_cons_of_neg (by simpa using hx)]

theorem find?_number_self (hf : ∀ y ∈ front, y.number ≠ x.number) :
    (front ++ x :: back).find? (·.number == x.number) = some x := by
  have hnone : front.find? (·.number == x.number) = none := List.find?_eq_none.mpr fun y hy => by simpa using hf y hy
  rw [List.find?_append, hnone, Option.none_or, List.find?_cons_of_pos (by simp)]

theorem goLine_line? (h : BookInv s) (hl : s.line? n = some l) (g : LineState) :
    (s.goLine n g).line? n = some (l.going g) ∧ ∀ m, m ≠ n → (s.goLine n g).line? m = s.line? m := by
  by_cases hg : g = .queued
  · subst hg
    obtain ⟨hmem, rfl⟩ := line?_mem hl
    obtain ⟨front, back, hs⟩ := List.append_of_mem hmem
    obtain ⟨hfront, hback⟩ := h.others_differ hs
    obtain ⟨pre, rest, hplace, hothers, -, -⟩ :=
      placeAgain_stands (n := l.number) (x := l.going .queued) (back := back) rfl hfront
    have hlines := (goLine_queued_lines h hs).trans hplace
    have hpre (y : OrderLine) (hy : y ∈ pre) : y.number ≠ l.number := by
      have hy' : y ∈ front ++ back := hothers ▸ List.mem_append_left _ hy
      exact (List.mem_append.mp hy').elim (hfront y) (hback y)
    refine ⟨?_, fun m hm => ?_⟩
    · rw [State.line?, hlines]
      exact find?_number_self (x := l.going .queued) hpre
    · have hne : (l.going .queued).number ≠ m := Ne.symm hm
      rw [State.line?, State.line?, hlines, find?_number_insert hne, hothers, hs, find?_number_insert (Ne.symm hm)]
  · have hline (m : Nat) : (s.goLine n g).line? m = if m = n then (s.line? n).map (·.going g) else s.line? m := by
      rw [State.line?, goLine_lines hg]
      exact setLine_line? s n m fun _ => rfl
    refine ⟨?_, fun m hm => ?_⟩
    · rw [hline, if_pos rfl, hl, Option.map_some]
    · rw [hline, if_neg hm]

/-- The answer to GO. -/
theorem goAnswer_eq (hm : fs.malformed ["line"] ["line"] ["line"] = false) (hn : fs.num "line" = some n) (h1 : 1 ≤ n)
    (h2 : n ≤ 65535) (hl : s.line? n = some l) : (l.state ≠ .held → goAnswer fs s = .refuse .state)
      ∧ (l.state = .held → goAnswer fs s = .accept [.word "state" l.counted.name] fun u => u.goLine n l.counted) := by
  have h := withLine_of_line? (s := s) (next := fun n l => .check (l.state != .held) .state <|
    .accept [.word "state" l.counted.name] fun u => u.goLine n l.counted) hm hn h1 h2 hl
  refine ⟨fun hs => h.trans ?_, fun hs => h.trans ?_⟩
  · rw [bne_iff_ne.mpr hs]
    rfl
  · rw [hs]
    rfl

/-! ### What HOLD and GO say of a line (R76, R79) -/

/-- HOLD of a line that goes, or is held for another reason, makes it HELD with HOST. -/
theorem hold_taken (hp : s.powered = true) (ha : holdAnswer fs s = .accept [] f)
    (hf : f (s.pushReply false (.ok [])) = (s.pushReply false (.ok [])).holdLine n .host) (hl : s.line? n = some l) :
    ∃ u, exec (.hold fs) s = .next (State.conclude s u)
      ∧ u.line? n = some { l with state := .held, hold := some .host } ∧ (∀ m, m ≠ n → u.line? m = s.line? m)
      ∧ u.bk.lines.map (·.number) = s.bk.lines.map (·.number)
      ∧ u.link = (s.link.push (.reply false (.ok []))).setFlag .lineHeld [.num "line" n, .word "reason" "HOST"]
      ∧ Unchanged [.book, .link] s u := by
  obtain ⟨hheld, hother⟩ := holdLine_line? (s := s.pushReply false (.ok [])) .host hl
  exact ⟨_, (request_accepted hp ha).trans (by rw [hf]), hheld, hother, setLine_numbers (s.pushReply false (.ok [])) n fun _ => rfl,
    rfl, ((unchanged_pushReply s false _).trans (unchanged_holdLine _ n .host)).mono (by decide)⟩

/-- Where a line that goes on stands in the book (R71). -/
theorem goLine_stands (h : BookInv s) (hs : s.bk.lines = front ++ l :: back) :
    (l.rush = false →
      ((∀ y ∈ back, y.queuedRush = false) → (s.goLine l.number .queued).bk.lines = front ++ l.going .queued :: back)
      ∧ ∀ mid y rest, back = mid ++ y :: rest → y.queuedRush = true → (∀ z ∈ rest, z.queuedRush = false) →
        (s.goLine l.number .queued).bk.lines = front ++ mid ++ y :: l.going .queued :: rest)
    ∧ (l.rush = true →
      ((∀ y ∈ front, y.queuedNormal = false) → (s.goLine l.number .queued).bk.lines = front ++ l.going .queued :: back)
      ∧ ∀ pre y mid, front = pre ++ y :: mid → y.queuedNormal = true → (∀ z ∈ pre, z.queuedNormal = false) →
        (s.goLine l.number .queued).bk.lines = pre ++ l.going .queued :: y :: mid ++ back) := by
  obtain ⟨hfront, -⟩ := h.others_differ hs
  have hn : (l.going .queued).number = l.number := rfl
  rw [goLine_queued_lines h hs]
  exact ⟨fun hx => ⟨placeAgain_normal_stays hn hfront hx, fun _ _ _ => placeAgain_normal_moves hn hfront hx⟩,
    fun hx => ⟨placeAgain_rush_stays hn hfront hx, fun _ _ _ => placeAgain_rush_moves hn hfront hx⟩⟩

/-- Settles O28, by the state of the line. -/
theorem holdAndGo : Obligations.HoldAndGo := by
  unfold Obligations.HoldAndGo
  intro s fs n hp hb hm hn h1 h2
  refine ⟨fun hl => ⟨request_refused hp (withLine_of_none hm hn h1 h2 hl), request_refused hp (withLine_of_none hm hn h1 h2 hl)⟩,
    fun l hl => ?_⟩
  obtain ⟨hgoes, hheld, hcancelled⟩ := holdAnswer_eq hm hn h1 h2 hl
  obtain ⟨hno, hgo⟩ := goAnswer_eq hm hn h1 h2 hl
  refine ⟨?_, fun ⟨hs, hh⟩ => ?_, fun hs => request_refused hp (hcancelled hs), fun hs => request_refused hp (hno hs),
    fun hs => ?_⟩
  · rintro (hs | hs | hs | ⟨hs, hh⟩)
    · exact hold_taken hp (hgoes (.inl hs)) rfl hl
    · exact hold_taken hp (hgoes (.inr (.inl hs))) rfl hl
    · exact hold_taken hp (hgoes (.inr (.inr hs))) rfl hl
    · exact hold_taken hp (hheld hs) (if_neg hh) hl
  · exact (request_accepted hp (hheld hs)).trans (by rw [if_pos hh])
  · intro g
    have hb' : BookInv (s.pushReply false (.ok [.word "state" l.counted.name])) := hb
    obtain ⟨hline, hother⟩ := goLine_line? hb' (l := l) hl l.counted
    refine ⟨_, request_accepted hp (hgo hs), hline, hother, fun hg => ?_, fun hg front back hsplit => ?_, fun hw => ?_,
      fun hw => ?_, by rw [goLine_eq]; rfl, ((unchanged_pushReply s false _).trans (unchanged_goLine _ n l.counted)).mono (by decide)⟩
    · rw [goLine_lines (g := l.counted) hg]
      exact setLine_numbers (s.pushReply false _) n fun _ => rfl
    · obtain ⟨-, rfl⟩ := line?_mem hl
      rw [show l.counted = .queued from hg]
      exact goLine_stands hb' hsplit
    · exact (goLine_stn _ n l.counted).trans (if_pos (waitsAtZ1_iff.mpr hw))
    · refine (goLine_stn _ n l.counted).trans (if_neg fun h => ?_)
      obtain ⟨t, k, ht, ho, hs⟩ := waitsAtZ1_iff.mp h
      exact hw t k ht ho hs

end Sys2Proof.Machine
end

