-- ==== Sys2Proof/Proofs/CancelRequests.lean ====
section
/-! PROOF SUPPORT. CANCEL of a line and of the tins above an index (R80, R81), and how a line leaves the book (R69). -/

namespace Sys2Proof.Machine

set_option Elab.async false

variable {s u : State} {fs : Fields} {n k : Nat} {l : OrderLine} {t : Tin} {g : LineState}

/-! ### The bindings of a line end (R22, R84) -/

/-- The circuits count each binding of a line. -/
theorem boundTo_le (h : BookInv s) (hl : s.line? n = some l) (c : Circ) : boundTo c l.entries ≤ (s.circuit c).openBatch := by
  obtain ⟨-, -, -, hopen⟩ := h
  rw [hopen c, bindings_eq_sum]
  exact List.single_le_sum (fun _ _ => Nat.zero_le _) _ (List.mem_map.mpr ⟨l, (line?_mem hl).1, rfl⟩)

theorem bindingsEnd_of_unbound (h : BookInv s) (hl : s.line? n = some l)
    (hc : ∀ c, u.circuit c = (s.circuit c).unbound (boundTo c l.entries)) : BindingsEnd l s u := by
  intro c j q
  have hj : j = boundTo c l.entries := List.countP_eq_length_filter.symm
  have hle := boundTo_le h hl c
  rw [hc c, ← hj]
  rw [← hj] at hle
  by_cases h0 : j = 0
  · rw [if_pos h0, h0, unbound_zero]
  · rw [if_neg h0]
    by_cases heq : (s.circuit c).openBatch = j
    · rw [if_pos heq, unbound_of_le ⟨h0, heq.le⟩]
      simp only [q, heq, Nat.sub_self]
    · rw [if_neg heq, unbound_of_lt fun hlt => heq (le_antisymm hlt.2 hle)]

theorem unchanged_endBindings (hl : s.line? n = some l) : Unchanged [.circuits, .book] s (s.endBindings n) := by
  rw [endBindings_frame hl]
  refine ⟨rfl, rfl, fun p hp => ?_⟩
  cases p <;> simp [Part.same] at hp ⊢

/-! ### The lines that stay -/

/-- The other lines are the same whatever becomes of a line that keeps its number. -/
theorem setLine_others (s : State) (n : Nat) {f : OrderLine → OrderLine} (hf : ∀ l, (f l).number = l.number) :
    (s.setLine n f).bk.lines.filter (fun x => x.number != n) = s.bk.lines.filter fun x => x.number != n := by
  rw [State.setLine, List.filter_map]
  have hp (l : OrderLine) : ((fun x : OrderLine => x.number != n) ∘ fun l => if l.number = n then f l else l) l
      = (l.number != n) := by
    simp only [Function.comp_apply]
    split
    · rw [hf]
    · rfl
  rw [List.filter_congr fun l _ => hp l]
  refine (List.map_congr_left fun l hl => if_neg ?_).trans (List.map_id _)
  simpa using (List.mem_filter.mp hl).2

theorem unchanged_setLine (s : State) (n : Nat) (f : OrderLine → OrderLine) : Unchanged [.book] s (s.setLine n f) := by
  refine ⟨rfl, rfl, fun p hp => ?_⟩
  cases p <;> simp [Part.same, State.setLine] at hp ⊢

theorem endBindings_numbers (hl : s.line? n = some l) :
    (s.endBindings n).bk.lines.map (·.number) = s.bk.lines.map (·.number) := by
  rw [endBindings_frame hl]
  exact setLine_numbers s n fun _ => rfl

theorem endBindings_others (hl : s.line? n = some l) :
    (s.endBindings n).bk.lines.filter (fun x => x.number != n) = s.bk.lines.filter fun x => x.number != n := by
  rw [endBindings_frame hl]
  exact setLine_others s n fun _ => rfl

/-! ### A line leaves the book (R69) -/

theorem leaveBook_eq (hl : s.line? n = some l) (g : LineState) : s.leaveBook n g = { s.endBindings n with
    bk := { (s.endBindings n).bk with lines := (s.endBindings n).bk.lines.filter fun x => x.number != n }
    link := s.link.setFlag .lineDone
      [.num "line" n, .word "state" g.name, .num "completed" l.completed, .num "failed" l.failed] } := by
  obtain ⟨hline, -⟩ := endBindings_line? hl
  have hlink : (s.endBindings n).link = s.link := by rw [endBindings_frame hl]
  unfold State.leaveBook
  simp only [hline, State.setFlag, hlink]

theorem leaveBook_leaves (hl : s.line? n = some l) (g : LineState) :
    (s.leaveBook n g).bk.lines = s.bk.lines.filter (fun x => x.number != n)
      ∧ (∀ c, (s.leaveBook n g).circuit c = (s.circuit c).unbound (boundTo c l.entries))
      ∧ (s.leaveBook n g).link = s.link.setFlag .lineDone
          [.num "line" n, .word "state" g.name, .num "completed" l.completed, .num "failed" l.failed]
      ∧ Unchanged [.circuits, .book, .link] s (s.leaveBook n g) := by
  rw [leaveBook_eq hl]
  refine ⟨endBindings_others hl, fun c => endBindings_circuit hl c, rfl, ?_⟩
  · rw [endBindings_frame hl]
    refine ⟨rfl, rfl, fun p hp => ?_⟩
    cases p <;> simp [Part.same] at hp ⊢

/-! ### A line is settled (R68, R69) -/

theorem settleLine_of_live (hl : s.line? n = some l) (h : l.live ≠ 0) : s.settleLine n = s := by
  simp only [State.settleLine, hl, if_neg h]

theorem settleLine_cancelled (hl : s.line? n = some l) (h : l.live = 0) (hs : l.state = .cancelled) :
    s.settleLine n = s.leaveBook n .cancelled := by
  simp only [State.settleLine, hl, if_pos h, hs]

theorem settleLine_done (hl : s.line? n = some l) (h : l.live = 0)
    (hs : l.state = .finishing ∨ l.state = .held ∧ l.released = l.limit) : s.settleLine n = s.leaveBook n .done := by
  rcases hs with hs | ⟨hs, hr⟩
  · simp only [State.settleLine, hl, if_pos h, hs]
  · simp only [State.settleLine, hl, if_pos h, hs, if_pos hr]

/-- A line that goes on, or is held with tins to release, stays. -/
theorem settleLine_stays (hl : s.line? n = some l) (hc : l.state ≠ .cancelled) (hf : l.state ≠ .finishing)
    (hr : l.released ≠ l.limit) : s.settleLine n = s := by
  by_cases h : l.live = 0
  · cases hs : l.state with
    | finishing => exact absurd hs hf
    | cancelled => exact absurd hs hc
    | held => simp only [State.settleLine, hl, if_pos h, hs, if_neg hr]
    | queued | running | done => simp only [State.settleLine, hl, if_pos h, hs]
  · exact settleLine_of_live hl h

/-! ### CANCEL without after= (R80) -/

/-- The line cancelled. -/
def OrderLine.cancelled (l : OrderLine) : OrderLine := { l with limit := l.released, state := .cancelled, hold := none }

/-- The line is cancelled and its bindings have ended. -/
def State.cancelEnds (s : State) (n : Nat) : State := ((s.failAtZ1 n).setLine n OrderLine.cancelled).endBindings n

theorem cancelLine_eq (s : State) (n : Nat) : s.cancelLine n = (s.cancelEnds n).settleLine n := rfl

theorem failAtZ1_of_waits (ht : s.tinAt .z1 = some t) (ho : t.order = some (n, k)) (hs : t.stage = .loaded) :
    s.failAtZ1 n = s.stageTin t.id .failed := by
  simp only [State.failAtZ1, waitingTin_eq ht hs ho, if_true]

theorem failAtZ1_of_not (h : ¬s.waitsAtZ1 n = true) : s.failAtZ1 n = s := by
  unfold State.failAtZ1
  split
  · rename_i t m j hw
    refine if_neg fun hm => h (waitsAtZ1_iff.mpr ⟨t, j, ?_⟩)
    exact hm ▸ waitingTin_eq_some_iff.mp hw
  · rfl

theorem failAtZ1_frame (s : State) (n : Nat) : s.failAtZ1 n = { s with track := (s.failAtZ1 n).track } := by
  unfold State.failAtZ1
  split
  · split <;> rfl
  · rfl

theorem unchanged_failAtZ1 (s : State) (n : Nat) : Unchanged [.track] s (s.failAtZ1 n) := by
  rw [failAtZ1_frame]
  refine ⟨rfl, rfl, fun p hp => ?_⟩
  cases p <;> simp [Part.same] at hp ⊢

/-- The line as CANCEL leaves it, where it has a live tin. -/
def OrderLine.cancelledFree (l : OrderLine) : OrderLine :=
  { l.cancelled with entries := l.entries.map ColourantEntry.freed }

/-- Once a line is cancelled, nothing but its record, the circuits and the tin at Z1 has changed. -/
theorem cancelEnds_says (hl : s.line? n = some l) :
    (s.cancelEnds n).line? n = some l.cancelledFree ∧ (∀ m, m ≠ n → (s.cancelEnds n).line? m = s.line? m)
      ∧ (s.cancelEnds n).bk.lines.map (·.number) = s.bk.lines.map (·.number)
      ∧ (s.cancelEnds n).bk.lines.filter (fun x => x.number != n) = s.bk.lines.filter (fun x => x.number != n)
      ∧ (∀ c, (s.cancelEnds n).circuit c = (s.circuit c).unbound (boundTo c l.entries))
      ∧ (s.cancelEnds n).track = (s.failAtZ1 n).track ∧ Unchanged [.circuits, .book, .track] s (s.cancelEnds n) := by
  have hfail : (s.failAtZ1 n).bk = s.bk := by rw [failAtZ1_frame]
  have hcirc : (s.failAtZ1 n).circuits = s.circuits := by rw [failAtZ1_frame]
  have hset (m : Nat) := setLine_line? (s.failAtZ1 n) n m (f := OrderLine.cancelled) fun _ => rfl
  have hl1 : ((s.failAtZ1 n).setLine n OrderLine.cancelled).line? n = some l.cancelled := by
    rw [hset, if_pos rfl, line?_congr hfail, hl]
    rfl
  obtain ⟨hline, hother⟩ := endBindings_line? hl1
  refine ⟨hline, fun m hm => ?_, ?_, ?_, fun c => ?_, ?_, ?_⟩
  · rw [State.cancelEnds, hother m hm, hset, if_neg hm, line?_congr hfail]
  · rw [State.cancelEnds, endBindings_numbers hl1, setLine_numbers _ n (f := OrderLine.cancelled) fun _ => rfl, hfail]
  · rw [State.cancelEnds, endBindings_others hl1, setLine_others _ n (f := OrderLine.cancelled) fun _ => rfl, hfail]
  · rw [State.cancelEnds, endBindings_circuit hl1, ← circuit_congr hcirc c]
    rfl
  · rw [State.cancelEnds, endBindings_frame hl1]
    rfl
  · exact (((unchanged_failAtZ1 s n).trans (unchanged_setLine _ n _)).trans (unchanged_endBindings hl1)).mono (by decide)

/-- CANCEL of a line: with no live tin it leaves the book, with one it stays CANCELLED; its bindings end either way. -/
theorem cancelLine_says (h : BookInv s) (hl : s.line? n = some l) :
    (l.live = 0 → (s.cancelLine n).bk.lines = s.bk.lines.filter (fun x => x.number != n)
        ∧ (s.cancelLine n).link = s.link.setFlag .lineDone
            [.num "line" n, .word "state" "CANCELLED", .num "completed" l.completed, .num "failed" l.failed])
    ∧ (l.live ≠ 0 → (s.cancelLine n).line? n = some l.cancelledFree ∧ (∀ m, m ≠ n → (s.cancelLine n).line? m = s.line? m)
        ∧ (s.cancelLine n).bk.lines.map (·.number) = s.bk.lines.map (·.number) ∧ (s.cancelLine n).link = s.link)
    ∧ BindingsEnd l s (s.cancelLine n) ∧ (s.cancelLine n).track = (s.failAtZ1 n).track
    ∧ Unchanged [.circuits, .book, .track, .link] s (s.cancelLine n) := by
  obtain ⟨hline, hother, hnumbers, hfilter, hcirc, htrack, hunch⟩ := cancelEnds_says hl
  have hlink : (s.cancelEnds n).link = s.link := hunch.2.2 .link (by decide)
  rw [cancelLine_eq]
  by_cases hlive : l.live = 0
  · rw [settleLine_cancelled hline hlive rfl]
    obtain ⟨hlines, hleft, hdone, hrest⟩ := leaveBook_leaves hline .cancelled
    have htrack' : ((s.cancelEnds n).leaveBook n .cancelled).track = (s.cancelEnds n).track := hrest.2.2 .track (by decide)
    refine ⟨fun _ => ⟨hlines.trans hfilter, hlink ▸ hdone⟩, fun hno => absurd hlive hno,
      bindingsEnd_of_unbound h hl fun c => ?_, htrack'.trans htrack, (hunch.trans hrest).mono (by decide)⟩
    rw [hleft c, OrderLine.cancelledFree, boundTo_freed, unbound_zero, hcirc c]
  · rw [settleLine_of_live hline hlive]
    exact ⟨fun hno => absurd hno hlive, fun _ => ⟨hline, hother, hnumbers, hlink⟩, bindingsEnd_of_unbound h hl hcirc, htrack,
      hunch.mono (by decide)⟩

/-! ### CANCEL with after= (R81) -/

/-- The line with its limit lowered; with all tins released a RUNNING line is FINISHING. -/
def OrderLine.cut (k : Nat) (l : OrderLine) : OrderLine :=
  { l with limit := k, state := if l.state = .running ∧ l.released = k then .finishing else l.state }

theorem cutLine_eq (s : State) (n k : Nat) : s.cutLine n k = (s.setLine n (·.cut k)).settleLine n := rfl

theorem setLine_cut (hl : s.line? n = some l) : (s.setLine n (·.cut k)).line? n = some (l.cut k) := by
  rw [setLine_line? s n n (f := (·.cut k)) fun _ => rfl, if_pos rfl, hl]
  rfl

/-- The line as it is cut stays in the book. -/
theorem cut_stays (hl : s.line? n = some l) (hstays : (s.setLine n (·.cut k)).settleLine n = s.setLine n (·.cut k)) :
    (s.cutLine n k).line? n = some (l.cut k) ∧ (∀ m, m ≠ n → (s.cutLine n k).line? m = s.line? m)
      ∧ (s.cutLine n k).bk.lines.map (·.number) = s.bk.lines.map (·.number) ∧ (s.cutLine n k).link = s.link
      ∧ Unchanged [.book] s (s.cutLine n k) := by
  rw [cutLine_eq, hstays]
  refine ⟨setLine_cut hl, fun m hm => ?_, setLine_numbers s n fun _ => rfl, rfl, unchanged_setLine s n _⟩
  rw [setLine_line? s n m (f := (·.cut k)) fun _ => rfl, if_neg hm]

/-- With tins to release the line goes on under its lower limit. -/
theorem cut_goes_on (hl : s.line? n = some l) (hr : l.released ≠ k) (hc : l.state ≠ .cancelled) (hf : l.state ≠ .finishing) :
    (s.cutLine n k).line? n = some { l with limit := k } ∧ (∀ m, m ≠ n → (s.cutLine n k).line? m = s.line? m)
      ∧ (s.cutLine n k).bk.lines.map (·.number) = s.bk.lines.map (·.number) ∧ (s.cutLine n k).link = s.link
      ∧ Unchanged [.book] s (s.cutLine n k) := by
  have hcut : l.cut k = { l with limit := k } := by
    rw [OrderLine.cut, if_neg fun h => hr h.2]
  have hline := setLine_cut (k := k) hl
  rw [hcut] at hline
  rw [← hcut]
  exact cut_stays hl (settleLine_stays hline hc hf hr)

theorem cut_state (hr : l.released = k) (hs : l.state = .running ∨ l.state = .held) :
    l.cut k = { l with limit := k, state := if l.state = .running then .finishing else .held } := by
  rcases hs with hs | hs <;> simp [OrderLine.cut, hs, hr]

/-- The line as it is cut is DONE. -/
theorem cut_leaves (h : BookInv s) (hl : s.line? n = some l) (hlive : l.live = 0) (hk : l.released = k)
    (hs : l.state = .running ∨ l.state = .held) :
    (s.cutLine n k).bk.lines = s.bk.lines.filter (fun x => x.number != n) ∧ BindingsEnd l s (s.cutLine n k)
      ∧ (s.cutLine n k).link = s.link.setFlag .lineDone
          [.num "line" n, .word "state" "DONE", .num "completed" l.completed, .num "failed" l.failed]
      ∧ Unchanged [.circuits, .book, .link] s (s.cutLine n k) := by
  have hdone : (l.cut k).state = .finishing ∨ (l.cut k).state = .held ∧ (l.cut k).released = (l.cut k).limit := by
    rcases hs with hs | hs
    · exact .inl (if_pos ⟨hs, hk⟩)
    · exact .inr ⟨(if_neg (by simp [hs])).trans hs, hk⟩
  rw [cutLine_eq, settleLine_done (setLine_cut hl) hlive hdone]
  obtain ⟨hlines, hleft, hlink, hrest⟩ := leaveBook_leaves (setLine_cut hl) .done
  exact ⟨hlines.trans (setLine_others s n fun _ => rfl), bindingsEnd_of_unbound h hl hleft, hlink,
    ((unchanged_setLine s n _).trans hrest).mono (by decide)⟩

/-! ### The request -/

/-- The answer to a CANCEL that names a line of the book. -/
theorem cancelAnswer_eq (hm : fs.malformed ["line", "after"] ["line"] ["line", "after"] = false) (hn : fs.num "line" = some n)
    (h1 : 1 ≤ n) (h2 : n ≤ 65535) (hl : s.line? n = some l) :
    (fs.num "after" = none → cancelAnswer fs s = cancelTaken n l)
      ∧ ∀ k, fs.num "after" = some k → 1 ≤ k → k ≤ 24 → cancelAnswer fs s = cancelAfterTaken n l k := by
  refine ⟨fun ha => ?_, fun k ha hk1 hk2 => ?_⟩
  · have hrange : (fs.has "after" && (fs.num "after").isSome && !(fs.malformed ["line", "after"] ["line"] ["line", "after"])
        && !fieldWithin fs "after" 1 24) = false := by simp [ha]
    rw [cancelAnswer, hrange, Answer.check_false, withLine_of_line? hm hn h1 h2 hl]
    simp only [ha]
  · have hrange : (fs.has "after" && (fs.num "after").isSome && !(fs.malformed ["line", "after"] ["line"] ["line", "after"])
        && !fieldWithin fs "after" 1 24) = false := by simp [fieldWithin_num ha hk1 hk2]
    rw [cancelAnswer, hrange, Answer.check_false, withLine_of_line? hm hn h1 h2 hl]
    simp only [ha]

theorem cancelTaken_eq : (l.state = .cancelled → cancelTaken n l = .refuse .state)
    ∧ (l.state ≠ .cancelled → cancelTaken n l = .accept [] fun u => u.cancelLine n) := by
  refine ⟨fun hs => ?_, fun hs => ?_⟩
  · simp only [cancelTaken, hs, beq_self_eq_true, Answer.check_true]
  · simp only [cancelTaken, beq_eq_false_iff_ne.mpr hs, Answer.check_false]

theorem cancelAfterTaken_eq (hk1 : 1 ≤ k) (hk2 : k ≤ 24) :
    (l.state = .cancelled ∨ k < l.released → cancelAfterTaken n l k = .refuse .state)
      ∧ (l.state ≠ .cancelled → l.released ≤ k → l.limit ≤ k → cancelAfterTaken n l k = .accept [] id)
      ∧ (l.state ≠ .cancelled → l.released ≤ k → k < l.limit →
        cancelAfterTaken n l k = .accept [.num "limit" k] fun u => u.cutLine n k) := by
  have hw : (!within 1 24 k) = false := by simp [within_eq_true hk1 hk2]
  refine ⟨fun h => ?_, fun hs hr hlim => ?_, fun hs hr hlim => ?_⟩
  · have : (l.state == .cancelled || decide (k < l.released)) = true := by simpa using h
    simp only [cancelAfterTaken, hw, this, Answer.check_false, Answer.check_true]
  · have : (l.state == .cancelled || decide (k < l.released)) = false := by simp [hs, hr]
    simp only [cancelAfterTaken, hw, this, Answer.check_false, if_pos hlim]
  · have : (l.state == .cancelled || decide (k < l.released)) = false := by simp [hs, hr]
    simp only [cancelAfterTaken, hw, this, Answer.check_false, if_neg (Nat.not_le.mpr hlim)]

/-- The tin at Z1 that CANCEL fails. -/
theorem failAtZ1_tin (ht : s.tinAt .z1 = some t) (ho : t.order = some (n, k)) (hs : t.stage = .loaded) :
    (s.failAtZ1 n).tin? t.id = some { t with stage := .failed } ∧ (∀ m, m ≠ t.id → (s.failAtZ1 n).tin? m = s.tin? m)
      ∧ (s.failAtZ1 n).track = { s.track with tins := (s.failAtZ1 n).track.tins } := by
  have hset (m : Nat) := setTin_tin? s t.id m (f := fun t => { t with stage := .failed }) fun _ => rfl
  rw [failAtZ1_of_waits ht ho hs, State.stageTin]
  refine ⟨?_, fun m hm => ?_, rfl⟩
  · rw [hset, if_pos rfl, tin?_of_tinAt ht]
    rfl
  · rw [hset, if_neg hm]

theorem tin?_of_track (h : u.track = s.track) (m : Nat) : u.tin? m = s.tin? m := by rw [State.tin?, h, State.tin?]

/-- Settles O29, by the form of the request, the state of the line and its tins. -/
theorem cancelEndsLine : Obligations.CancelEndsLine := by
  unfold Obligations.CancelEndsLine
  intro s fs n l hp hb hm hn h1 h2 hl stays leaves row hrow
  have hexec : exec (row fs) s = request (cancelAnswer fs) s := by
    rcases List.mem_cons.mp hrow with rfl | hrow
    · rfl
    · obtain rfl := List.mem_singleton.mp hrow
      rfl
  obtain ⟨hwhole, hafter⟩ := cancelAnswer_eq hm hn h1 h2 hl
  have hpush (b : Reply) := unchanged_pushReply s false b
  rw [hexec]
  refine ⟨fun hs hk => ?_, fun hs ha => ?_, fun k ha hk1 hk2 hs => ?_⟩
  · cases ha : fs.num "after" with
    | none => exact request_refused hp ((hwhole ha).trans (cancelTaken_eq.1 hs))
    | some k =>
      obtain ⟨hk1, hk2⟩ := hk k ha
      exact request_refused hp ((hafter k ha hk1 hk2).trans ((cancelAfterTaken_eq hk1 hk2).1 (.inl hs)))
  · have hb' : BookInv (s.pushReply false (.ok [])) := hb
    obtain ⟨hnone, hlive, hends, htrack, hrest⟩ := cancelLine_says hb' (l := l) hl
    refine ⟨_, request_accepted hp ((hwhole ha).trans (cancelTaken_eq.2 hs)), fun h0 => ?_, fun h0 => ?_, fun t k ht ho hst => ?_,
      fun hno => ?_, ((hpush _).trans hrest).mono (by decide)⟩
    · obtain ⟨hlines, hlink⟩ := hnone h0
      exact ⟨hlines, hends, hlink⟩
    · obtain ⟨hline, hother, hnumbers, hlink⟩ := hlive h0
      exact ⟨hends, hlink, hline, hother, hnumbers⟩
    · obtain ⟨hself, hothers, hframe⟩ := failAtZ1_tin (s := s.pushReply false (.ok [])) (n := n) (k := k) ht ho hst
      rw [htrack]
      exact ⟨(tin?_of_track htrack _).trans hself, fun m hm => (tin?_of_track htrack m).trans (hothers m hm), hframe⟩
    · rw [htrack, failAtZ1_of_not fun hw => ?_]
      · rfl
      · obtain ⟨t, k, ht, ho, hst⟩ := waitsAtZ1_iff.mp hw
        exact hno t k ht ho hst
  · obtain ⟨hrefused, hsame, hcut⟩ := cancelAfterTaken_eq (n := n) (l := l) hk1 hk2
    have ha := hafter k ha hk1 hk2
    have hb' : BookInv (s.pushReply false (.ok [.num "limit" k])) := hb
    have hl' : (s.pushReply false (.ok [.num "limit" k])).line? n = some l := hl
    refine ⟨fun hr => ?_, fun hlim hr => ?_, fun hlim hr hf => ?_, fun hlim hr hst => ?_⟩
    · exact request_refused hp (ha.trans (hrefused (.inr hr)))
    · exact request_accepted (effect := id) hp (ha.trans (hsame hs hr hlim))
    · obtain ⟨hline, hother, hnumbers, hlink, hrest⟩ := cut_goes_on hl' hr.ne hs hf
      exact ⟨_, request_accepted hp (ha.trans (hcut hs hr.le hlim)), ⟨hline, hother, hnumbers⟩, hlink,
        ((hpush _).trans hrest).mono (by decide)⟩
    · have hacc := request_accepted hp (ha.trans (hcut hs hr.le hlim))
      by_cases h0 : l.live = 0
      · obtain ⟨hlines, hends, hlink, hrest⟩ := cut_leaves hb' hl' h0 hr hst
        exact ⟨_, hacc, fun hno => absurd h0 hno, fun _ => ⟨hlines, hends, hlink⟩, ((hpush _).trans hrest).mono (by decide)⟩
      · obtain ⟨hline, hother, hnumbers, hlink, hrest⟩ := cut_stays hl' (settleLine_of_live (setLine_cut hl') h0)
        rw [cut_state hr hst] at hline
        exact ⟨_, hacc, fun _ => ⟨⟨hline, hother, hnumbers⟩, hlink, ((hpush _).trans hrest).mono (by decide)⟩,
          fun hno => absurd hno h0, ((hpush _).trans hrest).mono (by decide)⟩

end Sys2Proof.Machine
end

