-- ==== Sys2Proof/Proofs/DriveFrames.lean ====
section
/-! PROOF SUPPORT. The operations that leave the Drive Frame as it is. -/

namespace Sys2Proof.Machine

set_option Elab.async false

variable (s : State)

theorem drive_foldl {α : Type} {f : State → α → State} (h : ∀ u x, (f u x).drive = u.drive) (l : List α) (s : State) :
    (l.foldl f s).drive = s.drive := by
  induction l generalizing s with
  | nil => rfl
  | cons x xs ih => rw [List.foldl_cons, ih, h]

theorem drive_forCircuits {f : Circ → State → State} (h : ∀ c u, (f c u).drive = u.drive) (s : State) :
    (forCircuits f s).drive = s.drive := drive_foldl (fun u c => h c u) _ s

/-! ### Updates of the other parts -/

/-- Tins and places. -/
@[simp] theorem drive_tinUpdates :
    (∀ (id : Nat) (n : Note), (s.noteTin id n).drive = s.drive) ∧ (∀ (id : Nat), (s.readyTin id).drive = s.drive)
      ∧ (∀ (id : Nat), (s.dropTin id).drive = s.drive) ∧ (∀ (id : Nat) (g : Stage), (s.stageTin id g).drive = s.drive)
      ∧ (∀ (id k : Nat) (f : DoseEntry → DoseEntry), (s.setEntry id k f).drive = s.drive)
      ∧ (∀ (id k : Nat), (s.notRun id k).drive = s.drive)
      ∧ (∀ (p : Place) (b : Bool), (s.setUncertain p b).drive = s.drive)
      ∧ (∀ (p : Place) (id : Nat), (s.restAt p id).drive = s.drive) ∧ (∀ (p : Place), (s.orphanAt p).drive = s.drive)
      ∧ s.orphanInLane.drive = s.drive ∧ (∀ (p : Place), (s.appeared p).drive = s.drive)
      ∧ (∀ (p : Place) (id : Nat), (s.vanished p id).drive = s.drive)
      ∧ (∀ (m : Mix) (id : Nat), (s.holdOrphan m id).drive = s.drive)
      ∧ (∀ (p : Place) (id : Nat), (s.reserve p id).drive = s.drive) ∧ s.armNote.drive = s.drive
      ∧ (∀ (l : OrderLine), (s.loadTin l).drive = s.drive) := by
  and_intros <;> intros <;> rfl

/-- The Tag Bus. -/
@[simp] theorem drive_tagUpdates :
    (∀ (c : Circ) (r : LastResult), (s.setLast c r).drive = s.drive)
      ∧ (∀ (c : Circ) (g : TagImage), (s.setImage c g).drive = s.drive)
      ∧ (∀ (a : ActiveJob) (p : BusPhase), (s.goPhase a p).drive = s.drive)
      ∧ (∀ (a : ActiveJob), (s.waitBus a).drive = s.drive) ∧ s.endAbandoned.drive = s.drive := by
  and_intros <;> intros <;> rfl

/-- The station, the Lidder and the Mixers. -/
@[simp] theorem drive_stationUpdates :
    s.choose.drive = s.drive ∧ s.jobIdle.drive = s.drive ∧ s.oweAttempt.drive = s.drive ∧ s.beginSettle.drive = s.drive
      ∧ (∀ (id : Nat), (s.beginPreparing id).drive = s.drive)
      ∧ (∀ (q : CalRun) (m : Int), (s.calFinished q m).drive = s.drive)
      ∧ (∀ (c : Circ) (target n : Nat), (s.beginCal c target n).drive = s.drive) ∧ s.stationRestart.drive = s.drive
      ∧ (∀ (c : Circ) (old new : Settings), (s.calibrationChanged c old new).drive = s.drive)
      ∧ (∀ (id : Nat) (code : Fin 3), (s.lidEmpty id code).drive = s.drive) ∧ s.startCycle.drive = s.drive
      ∧ (∀ (m : Fin 3) (code : Option (Fin 3)) (count : Option Nat), (s.putMagazine m code count).drive = s.drive)
      ∧ s.lidderRestart.drive = s.drive ∧ (∀ (m : Mix) (id : Nat), (s.reserveMixer m id).drive = s.drive)
      ∧ (∀ (m : Mix), (s.idleMixer m).drive = s.drive)
      ∧ (∀ (m : Mix) (g : MixerState), (s.flagDoor m g).drive = s.drive)
      ∧ (∀ (m : Mix), (s.mixerStop m).drive = s.drive) ∧ (∀ (m : Mix), (s.mixerPower m).drive = s.drive) := by
  and_intros <;> intros <;> rfl

/-- The library, and the settings of the line. -/
@[simp] theorem drive_recordUpdates :
    (∀ (b : Fin 8) (v : Option Base), (s.putBase b v).drive = s.drive)
      ∧ (∀ (z : Fin 12) (v : Option Size), (s.putSize z v).drive = s.drive)
      ∧ (∀ (n : Nat) (v : Option Formula), (s.writeSlot n v).drive = s.drive)
      ∧ (∀ (c : Circ) (t : Int), (s.trimEffect c t).drive = s.drive) ∧ (∀ (l : OrderLine), (s.enterLine l).drive = s.drive)
      ∧ (∀ (n : Nat) (h : Hold), (s.holdLine n h).drive = s.drive) := by
  and_intros <;> intros <;> rfl

/-! ### Dues and levels -/

@[simp] theorem drive_dues :
    (∀ (c : Circ) (cause : PurgeCause), (s.purgeBecomesDue c cause).drive = s.drive)
      ∧ (∀ (c : Circ) (why : BlockReason), (s.flagBlocked c why).drive = s.drive)
      ∧ (∀ (x : Circ × Nat), (s.startStir x).drive = s.drive) ∧ (∀ (c : Circ), (s.bindingMade c).drive = s.drive)
      ∧ (∀ (c : Circ), (s.bindingEnded c).drive = s.drive) := by
  and_intros <;> intros <;> rfl

@[simp] theorem drive_purgeDues :
    (∀ (c : Circ) (t : Nat), (s.stirComesDue c t).drive = s.drive) ∧ (∀ (c : Circ), (s.clearPurgeDue c).drive = s.drive)
      ∧ (∀ (c : Circ), (s.purgeTest c).drive = s.drive) := by
  dsimp only [State.stirComesDue, State.clearPurgeDue, State.purgeTest]
  and_intros <;> intros
  all_goals
    split <;> rfl

@[simp] theorem drive_levels :
    (∀ (c : Circ), (s.clearIntervalDue c).drive = s.drive) ∧ (∀ (c : Circ), (s.lowEvaluate c).drive = s.drive)
      ∧ (∀ (c : Circ), (s.purgeIntervalSet c).drive = s.drive) ∧ (∀ (c : Circ), (s.clampLevel c).drive = s.drive)
      ∧ (∀ (c : Circ), (s.purgeElapses c).drive = s.drive) := by
  dsimp only [State.clearIntervalDue, State.lowEvaluate, State.purgeIntervalSet, State.clampLevel,
    State.purgeElapses]
  and_intros <;> intros
  all_goals repeat' split
  all_goals simp

@[simp] theorem drive_keepDelivery (c : Circ) (a : Activity) (before : Circuit) :
    (s.keepDelivery c a before).drive = s.drive := by
  unfold State.keepDelivery
  split <;> rfl

@[simp] theorem drive_doseEnded (c : Circ) (id k : Nat) (a : Activity) (v : Nat) (w : EndCause) :
    (s.doseEnded c id k a v w).drive = s.drive := by
  rw [doseEnded_eq]
  dsimp only
  repeat' split
  all_goals simp

@[simp] theorem drive_csetWritten (c : Circ) (fs : Fields) (w : TwinChange) : (s.csetWritten c fs w).drive = s.drive := by
  rw [State.csetWritten, changeTwins_frame]
  rfl

/-! ### The Tag Bus -/

@[simp] theorem drive_bus :
    s.stopSeenOnBus.drive = s.drive ∧ s.busTaken.drive = s.drive ∧ s.startSeen.drive = s.drive
      ∧ s.linesHigh.drive = s.drive ∧ s.startTaken.drive = s.drive
      ∧ (∀ (data : BitVec 8), (s.byteAcked data).drive = s.drive) ∧ s.pollDue.drive = s.drive := by
  dsimp only [State.stopSeenOnBus, State.busTaken, State.startSeen, State.linesHigh, State.startTaken, State.byteAcked,
    State.pollDue]
  and_intros <;> intros
  all_goals repeat' split
  all_goals simp

@[simp] theorem drive_busReleased : s.busReleased.drive = s.drive := (drive_bus s).1

@[simp] theorem drive_tagBegin : s.tagBegin.drive = s.drive := by
  unfold State.tagBegin
  dsimp only
  repeat' split
  all_goals simp

/-! ### The book -/

@[simp] theorem drive_endBindings (n : Nat) : (s.endBindings n).drive = s.drive := by
  unfold State.endBindings
  split
  · rfl
  · rw [State.setLine_drive, drive_foldl fun u e => by split <;> simp]

@[simp] theorem drive_leaveBook (n : Nat) (g : LineState) : (s.leaveBook n g).drive = s.drive := by
  unfold State.leaveBook
  dsimp only
  split <;> simp

@[simp] theorem drive_settleLine (n : Nat) : (s.settleLine n).drive = s.drive := by
  unfold State.settleLine
  repeat' split
  all_goals simp

@[simp] theorem drive_lines :
    (∀ (n : Nat) (failed : Bool), (s.countFinished n failed).drive = s.drive)
      ∧ (∀ (n : Nat) (c : Nat), (s.holdCircuit n c).drive = s.drive) ∧ (∀ (n : Nat), (s.holdWeight n).drive = s.drive)
      ∧ (∀ (n k : Nat), (s.cutLine n k).drive = s.drive)
      ∧ (∀ (n : Nat) (g : LineState), (s.goLine n g).drive = s.drive) ∧ (∀ (n : Nat), (s.failAtZ1 n).drive = s.drive)
      ∧ (∀ (before : State), (State.loadWanted before s).drive = s.drive) := by
  dsimp only [State.countFinished, State.holdCircuit, State.holdWeight, State.cutLine, State.goLine, State.failAtZ1, State.loadWanted]
  and_intros <;> intros
  all_goals repeat' split
  all_goals simp

@[simp] theorem drive_cancelLine (n : Nat) : (s.cancelLine n).drive = s.drive := by simp [State.cancelLine]

@[simp] theorem drive_bookRestart : s.bookRestart.drive = s.drive :=
  (drive_foldl (fun u (l : OrderLine) => drive_endBindings u l.number) s.bk.lines s :)

@[simp] theorem drive_compareLot (id k : Nat) (c : Circ) : (s.compareLot id k c).drive = s.drive := by
  unfold State.compareLot
  repeat' split
  all_goals simp

/-! ### Places, the Lidder and the Mixers -/

@[simp] theorem drive_compared :
    (∀ (p : Place), (s.zoneCompare p).drive = s.drive) ∧ (∀ (m : Mix), (s.cradleCompare m).drive = s.drive) := by
  dsimp only [State.zoneCompare, State.cradleCompare]
  and_intros <;> intros
  all_goals repeat' split
  all_goals simp

@[simp] theorem drive_placeCompare (p : Place) : (s.placeCompare p).drive = s.drive := by
  unfold State.placeCompare
  split <;> simp

@[simp] theorem drive_bypassTin (id : Nat) (status : LidStatus) : (s.bypassTin id status).drive = s.drive := by
  simp [State.bypassTin]

@[simp] theorem drive_noLid (id : Nat) (code : Fin 3) : (s.noLid id code).drive = s.drive := by
  dsimp only [State.noLid]
  repeat' split
  all_goals simp

@[simp] theorem drive_lidSearch : s.lidSearch.drive = s.drive := by
  unfold State.lidSearch
  repeat' split
  all_goals simp

@[simp] theorem drive_lidder :
    (∀ (id : Nat), (s.lidderTake id).drive = s.drive) ∧ (∀ (id : Nat), (s.lidderLeave id).drive = s.drive)
      ∧ (∀ (m : Fin 3), (s.drawLid m).drive = s.drive) ∧ (∀ (seated : Bool), (s.judgeSeat seated).drive = s.drive)
      ∧ s.abandonCycle.drive = s.drive := by
  dsimp only [State.lidderTake, State.lidderLeave, State.drawLid, State.judgeSeat, State.abandonCycle]
  and_intros <;> intros
  all_goals repeat' split
  all_goals simp

@[simp] theorem drive_setPolicy (p : LidPolicy) : (s.setPolicy p).drive = s.drive := by simp [State.setPolicy]

@[simp] theorem drive_lidsEffect (m : Fin 3) (code : Option (Fin 3)) (count : Option Nat) :
    (s.lidsEffect m code count).drive = s.drive := by
  unfold State.lidsEffect
  dsimp only
  repeat' split
  all_goals simp

@[simp] theorem drive_press :
    s.pressLook.drive = s.drive ∧ (∀ (seated : Bool), (s.cycleEnds seated).drive = s.drive) := by
  dsimp only [State.pressLook, State.cycleEnds]
  and_intros <;> intros
  all_goals repeat' split
  all_goals simp

/-- The steps of a mixer. -/
@[simp] theorem drive_mixers :
    s.mixerChoose.drive = s.drive ∧ (∀ (m : Mix) (id : Nat), (s.mixerTake m id).drive = s.drive)
      ∧ (∀ (m : Mix), (s.clampEnds m).drive = s.drive) ∧ (∀ (m : Mix), (s.mixEnds m).drive = s.drive)
      ∧ (∀ (m : Mix), (s.brakeEnds m).drive = s.drive) ∧ (∀ (m : Mix), (s.reachHolding m).drive = s.drive)
      ∧ (∀ (m : Mix), (s.doorOpens m).drive = s.drive) ∧ (∀ (m : Mix), (s.mixerResume m).drive = s.drive)
      ∧ (∀ (m : Mix) (x : Mixer), (s.abortMix m x).drive = s.drive) ∧ (∀ (m : Mix), (s.holdOrIdle m).drive = s.drive) := by
  dsimp only [State.mixerChoose, State.mixerTake, State.clampEnds, State.mixEnds, State.brakeEnds, State.reachHolding,
    State.doorOpens, State.mixerResume, State.abortMix, State.holdOrIdle]
  and_intros <;> intros
  all_goals repeat' split
  all_goals simp

@[simp] theorem drive_mixerEnds :
    (∀ (m : Mix), (s.unclampEnds m).drive = s.drive) ∧ (∀ (m : Mix), (s.mixerRestart m).drive = s.drive) := by
  dsimp only [State.unclampEnds, State.mixerRestart]
  and_intros <;> intros
  all_goals repeat' split
  all_goals simp

/-! ### The station -/

@[simp] theorem drive_weighing :
    s.jobTinRemoved.drive = s.drive ∧ (∀ (id : Nat) (v : Verdict), (s.checkDecided id v).drive = s.drive)
      ∧ (∀ (id e : Nat) (m : Int), (s.deviation id e m).drive = s.drive) ∧ s.delayEnds.drive = s.drive
      ∧ (∀ (q : CalRun), (s.calWeighing q).drive = s.drive) ∧ (∀ (m : ScaleMode), (s.assignScale m).drive = s.drive) := by
  dsimp only [State.jobTinRemoved, State.checkDecided, State.deviation, State.delayEnds, State.calWeighing,
    State.assignScale]
  and_intros <;> intros
  all_goals repeat' split
  all_goals simp

@[simp] theorem drive_weighed :
    (∀ (id : Nat) (r : Reading), (s.weighed id r).drive = s.drive) ∧ (∀ (t : Tin), (s.beginWeighing t).drive = s.drive) := by
  dsimp only [State.weighed, State.beginWeighing]
  and_intros <;> intros
  all_goals repeat' split
  all_goals simp

@[simp] theorem drive_settleEnds (r : Reading) : (s.settleEnds r).drive = s.drive := by
  unfold State.settleEnds
  dsimp only
  repeat' split
  all_goals simp

@[simp] theorem drive_commits :
    (∀ (e : ColourantEntry) (j : Judged), (s.commitMade e j).drive = s.drive)
      ∧ (∀ (e : ColourantEntry) (j : Judged), (s.commitEnded e j).drive = s.drive) := by
  dsimp only [State.commitMade, State.commitEnded]
  and_intros <;> intros
  all_goals repeat' split
  all_goals simp

@[simp] theorem drive_admitTin (t : Tin) (l : OrderLine) (plan : List Judged) : (s.admitTin t l plan).drive = s.drive := by
  have hcommit : (s.commitPlan l plan).drive = s.drive := by
    unfold State.commitPlan
    dsimp only
    rw [State.setLine_drive, drive_foldl fun u x => by simp, drive_foldl fun u x => by simp]
  have hnotes (ns : List Note) (id : Nat) (u : State) : (ns.foldl (fun u n => u.noteTin id n) u).drive = u.drive :=
    drive_foldl (fun u n => by simp) ns u
  unfold State.admitTin
  dsimp only
  split <;> simp [hcommit, hnotes]

@[simp] theorem drive_judgePlan (t : Tin) (l : OrderLine) (plan : List Judged) : (s.judgePlan t l plan).drive = s.drive := by
  unfold State.judgePlan
  repeat' split
  all_goals simp

@[simp] theorem drive_attempt : s.attempt.drive = s.drive := by
  unfold State.attempt
  repeat' split
  all_goals simp

@[simp] theorem drive_attemptLook : s.attemptLook.drive = s.drive := by
  unfold State.attemptLook
  split <;> simp

/-! ### The track -/

@[simp] theorem drive_reservations :
    (∀ (src dst : Place), (s.reserveNext src dst).drive = s.drive) ∧ s.reserveZ5.drive = s.drive
      ∧ (∀ (p : Place), (s.endReservation p).drive = s.drive) ∧ (∀ (src : Place), (s.sourceFree src).drive = s.drive)
      ∧ (∀ (id : Nat), (s.leftZ2 id).drive = s.drive) ∧ (∀ (p : Place) (id : Nat), (s.arriveAt p id).drive = s.drive)
      ∧ (∀ (p : Place) (id : Nat), (s.unplace p id).drive = s.drive)
      ∧ (∀ (j : JamPair), (s.clearPair j).drive = s.drive) ∧ (∀ (p : Place), (s.idleHolding p).drive = s.drive) := by
  dsimp only [State.reserveNext, State.reserveZ5, State.endReservation, State.sourceFree, State.leftZ2, State.arriveAt,
    State.unplace, State.clearPair, State.idleHolding]
  and_intros <;> intros
  all_goals repeat' split
  all_goals simp

@[simp] theorem drive_moves :
    (∀ (id : Nat) (src dst : Place), (s.beginMove id src dst).drive = s.drive)
      ∧ (∀ (id : Nat) (p : Place), (s.handOver id p).drive = s.drive) ∧ (∀ (v : Move), (s.moveJams v).drive = s.drive)
      ∧ (∀ (j : JamPair), (s.jamPlaced j).drive = s.drive) := by
  dsimp only [State.beginMove, State.handOver, State.moveJams, State.jamPlaced]
  and_intros <;> intros
  all_goals repeat' split
  all_goals simp

@[simp] theorem drive_conveyors :
    (∀ (src dst : Place), (s.conveyorLook src dst).drive = s.drive) ∧ s.armGrant.drive = s.drive
      ∧ (∀ (v : Move), (s.moveOver v).drive = s.drive) ∧ (∀ (p : Place), (s.jammed p).drive = s.drive) := by
  dsimp only [State.conveyorLook, State.armGrant, State.moveOver, State.jammed]
  and_intros <;> intros
  all_goals repeat' split
  all_goals simp

@[simp] theorem drive_trackLook : s.trackLook.drive = s.drive := by
  simp [State.trackLook, State.reservations, State.conveyors]

@[simp] theorem drive_moveArrives (v : Move) (marks : Nat) : (s.moveArrives v marks).drive = s.drive := by
  unfold State.moveArrives
  split <;> simp

@[simp] theorem drive_arrived (p : Place) (marks : Nat) : (s.arrived p marks).drive = s.drive := by
  unfold State.arrived
  split <;> simp

@[simp] theorem drive_certain (p : Place) : (s.certain p).drive = s.drive := by
  unfold State.certain
  dsimp only
  repeat' split
  all_goals simp

@[simp] theorem drive_liftTin (id : Nat) : (s.liftTin id).drive = s.drive := by
  simpa [State.liftTin] using drive_foldl (fun u p => by simp) singlePlaces s

@[simp] theorem drive_tellRemoved (id : Nat) : (s.tellRemoved id).drive = s.drive := by
  dsimp only [State.tellRemoved]
  rw [drive_foldl fun u m => by split <;> simp]
  split <;> simp

@[simp] theorem drive_retire (id : Nat) (cause : FinishCause) : (s.retire id cause).drive = s.drive := by
  unfold State.retire
  dsimp only
  repeat' split
  all_goals simp

@[simp] theorem drive_reconcileLane : s.reconcileLane.drive = s.drive := by
  unfold State.reconcileLane
  dsimp only
  split
  · exact drive_foldl (fun u id => drive_retire u id _) _ s
  · exact drive_foldl (fun u _ => by simp) _ s

@[simp] theorem drive_removals :
    s.headTaken.drive = s.drive ∧ s.laneConfirmed.drive = s.drive
      ∧ (∀ (p : Place) (id : Nat), (s.lostAt p id).drive = s.drive)
      ∧ (∀ (p : Place) (id : Nat), (s.clearPlace p id).drive = s.drive) := by
  dsimp only [State.headTaken, State.laneConfirmed, State.lostAt, State.clearPlace]
  and_intros <;> intros
  all_goals repeat' split
  all_goals simp

@[simp] theorem drive_sensed (was : Bool) (x : SensorChange) : (State.sensed was x s).drive = s.drive := by
  unfold State.sensed
  repeat' split
  all_goals simp

@[simp] theorem drive_findOrphans : s.findOrphans.drive = s.drive := by
  refine (drive_foldl (fun u _ => by simp) _ _).trans (drive_foldl (fun u p => ?_) singlePlaces s)
  split <;> simp

@[simp] theorem drive_trackRestart : s.trackRestart.drive = s.drive := by
  simp [State.trackRestart]

/-! ### Care -/

@[simp] theorem drive_stirBoundary : s.stirBoundary.drive = s.drive := by
  refine drive_forCircuits (fun c u => ?_) _
  split <;> simp

@[simp] theorem drive_siteMinute : s.siteMinute.drive = s.drive := by
  unfold State.siteMinute
  dsimp only
  repeat' split
  · rfl
  · exact drive_forCircuits (fun c u => by split <;> simp) _
  · rfl

@[simp] theorem drive_stirsLook : s.stirsLook.drive = s.drive := by
  refine drive_foldl (fun u x => ?_) s.cares.due s
  split <;> simp

/-! ### The store, and the machine as a whole -/

@[simp] theorem drive_storeTake : s.storeTake.drive = s.drive := by
  unfold State.storeTake
  dsimp only
  repeat' split
  all_goals rfl

@[simp] theorem drive_storeWriteEnd : s.storeWriteEnd.drive = s.drive := by
  unfold State.storeWriteEnd
  split
  · rfl
  · rw [drive_storeTake]

@[simp] theorem drive_restarts :
    s.storeRestart.drive = s.drive ∧ s.releaseClear.drive = s.drive ∧ s.linkRestart.drive = s.drive
      ∧ s.firstCharacter.drive = s.drive ∧ s.discarded.drive = s.drive := by
  dsimp only [State.storeRestart, State.releaseClear, State.linkRestart, State.firstCharacter, State.discarded]
  and_intros
  all_goals
    split <;> rfl

end Sys2Proof.Machine
end

