-- ==== Sys2Proof/Proofs/PumpBounds.lean ====
section
/-! PROOF SUPPORT. The bounds of one pump under each change of it, and the operations on pumps that keep the bounds of every
pump and the lending of the frame (R92, R94 to R98). -/

namespace Sys2Proof.Machine

set_option Elab.async false

/-! ### One pump -/

variable {p : Pump} {a : Activity}

theorem bounded_iff (p : Pump) : p.bounded ↔ p.piston.inChamber
    ∧ (∀ a, p.activity = some a → a.delivered ≤ a.planned ∧ (a.phase = .deliver → p.piston.isKnown))
    ∧ ∀ b, p.burst = some b → ∃ a, p.activity = some a ∧ a.run = .running ∧ b.fits a p.piston := Iff.rfl

/-- A pump with no burst outstanding. -/
theorem bounded_free (hb : p.burst = none) : p.bounded ↔ p.piston.inChamber
    ∧ ∀ a, p.activity = some a → a.delivered ≤ a.planned ∧ (a.phase = .deliver → p.piston.isKnown) := by
  simp [bounded_iff, hb]

/-- A burst is outstanding of a RUNNING activity alone. -/
theorem Pump.bounded.burst_none (h : p.bounded) (ha : ∀ a, p.activity = some a → a.run ≠ .running) : p.burst = none := by
  refine Option.eq_none_iff_forall_ne_some.mpr fun b hb => ?_
  obtain ⟨a, he, hr, -⟩ := h.2.2 b hb
  exact ha a he hr

/-- A change of an activity that leaves its counts and its phase, and keeps it RUNNING. -/
theorem Pump.bounded.map {g : Activity → Activity} (h : p.bounded)
    (hg : ∀ a, (g a).planned = a.planned ∧ (g a).delivered = a.delivered ∧ (g a).phase = a.phase
      ∧ (a.run = .running → (g a).run = .running)) : { p with activity := p.activity.map g }.bounded := by
  obtain ⟨hc, ha, hb⟩ := h
  refine ⟨hc, fun x hx => ?_, fun b hx => ?_⟩
  · obtain ⟨a, e, rfl⟩ := Option.map_eq_some_iff.mp hx
    obtain ⟨hp, hd, hph, -⟩ := hg a
    rw [hp, hd, hph]
    exact ha a e
  · obtain ⟨a, e, hr, hfit⟩ := hb b hx
    obtain ⟨hp, hd, -, hrun⟩ := hg a
    refine ⟨g a, congrArg (Option.map g) e, hrun hr, ?_⟩
    simpa only [Burst.fits, hp, hd] using hfit

/-- A change of the run state of an activity with no burst outstanding. -/
theorem Pump.bounded.map_free {g : Activity → Activity} (h : p.bounded) (hb : p.burst = none)
    (hg : ∀ a, (g a).planned = a.planned ∧ (g a).delivered = a.delivered ∧ (g a).phase = a.phase) :
    { p with activity := p.activity.map g }.bounded := by
  obtain ⟨hc, ha, -⟩ := h
  refine (bounded_free (p := { p with activity := p.activity.map g }) hb).mpr ⟨hc, fun x hx => ?_⟩
  obtain ⟨a, e, rfl⟩ := Option.map_eq_some_iff.mp hx
  obtain ⟨hp, hd, hph⟩ := hg a
  rw [hp, hd, hph]
  exact ha a e

theorem Pump.bounded.woken (h : p.bounded) : { p with activity := p.activity.map Activity.woken }.bounded := by
  refine h.map fun a => ?_
  unfold Activity.woken
  split <;> simp_all

/-- A pump with no burst takes an activity. -/
theorem bounded_takes (hb : p.burst = none) (hc : p.piston.inChamber)
    (ha : a.delivered ≤ a.planned ∧ (a.phase = .deliver → p.piston.isKnown)) : { p with activity := some a }.bounded := by
  refine (bounded_free (p := { p with activity := some a }) hb).mpr ⟨hc, fun x hx => ?_⟩
  rwa [← Option.some.inj hx]

/-- A pump with no burst loses its activity. -/
theorem bounded_idle (hb : p.burst = none) (hc : p.piston.inChamber) : { p with activity := none }.bounded :=
  (bounded_free (p := { p with activity := none }) hb).mpr ⟨hc, nofun⟩

theorem inChamber_beginStroke {x : Piston} (h : x.inChamber) : x.beginStroke.inChamber := by
  cases x <;> exact h

/-- An activity that begins by delivering finds the position known. -/
theorem isKnown_of_startsRefill {k : Kind} {n d : Nat} {x : Piston} (h : startsRefill k n d x = false) :
    x.beginStroke.isKnown := by
  cases x with
  | known p => trivial
  | unknown n => cases h

theorem isKnown_of_phase {k : Kind} {n d : Nat} {x : Piston}
    (h : (if startsRefill k n d x then Phase.refill else .deliver) = .deliver) : x.beginStroke.isKnown := by
  refine isKnown_of_startsRefill (k := k) (n := n) (d := d) ?_
  cases e : startsRefill k n d x
  · rfl
  · simp [e] at h

/-- An activity that delivers after a burst knows the position (R97, R98). -/
theorem isKnown_of_nextPhase {x : Piston} (h : a.nextPhase x = .deliver) (ha : a.phase = .deliver → x.isKnown) :
    x.isKnown := by
  cases hp : a.phase with
  | deliver => exact ha hp
  | refill =>
    rw [Activity.nextPhase, hp] at h
    dsimp only at h
    split at h
    · rename_i e
      rw [e.1]
      trivial
    · cases h

theorem drivable_eq_some : p.drivable = some a ↔ p.activity = some a ∧ p.burst = none ∧ a.run = .running := by
  unfold Pump.drivable
  cases p.activity <;> cases p.burst <;> simp
  constructor
  · rintro ⟨hr, rfl⟩
    exact ⟨rfl, hr⟩
  · rintro ⟨rfl, hr⟩
    exact ⟨hr, rfl⟩

theorem drivable_eq_none : p.drivable = none ↔
    p.activity = none ∨ p.burst ≠ none ∨ ∃ a, p.activity = some a ∧ a.run ≠ .running := by
  unfold Pump.drivable
  cases p.activity <;> cases p.burst <;> simp

/-- The burst that is granted fits (R96). -/
theorem Pump.bounded.granted (h : p.bounded) (hd : p.drivable = some a) (t : Nat) :
    { p with burst := some ⟨a.phase == Phase.refill, burstSteps a p.piston, t⟩ }.bounded := by
  obtain ⟨hc, hbound, -⟩ := h
  obtain ⟨ha, -, hr⟩ := drivable_eq_some.mp hd
  obtain ⟨hcount, hknown⟩ := hbound a ha
  refine ⟨hc, hbound, fun b hb => ⟨a, ha, hr, ?_⟩⟩
  obtain rfl := Option.some.inj hb
  cases hx : p.piston with
  | unknown n =>
    rw [hx] at hknown
    cases hp : a.phase with
    | refill => exact rfl
    | deliver => exact (hknown hp).elim
  | known x =>
    rw [hx] at hc
    have hle : x ≤ 25600 := hc
    cases hp : a.phase <;>
      simp only [Burst.fits, burstSteps, hp, beq_self_eq_true, if_true, Config.chamber,
        show (Phase.deliver == Phase.refill) = false from rfl, Bool.false_eq_true, if_false] <;> omega

/-- The counts move within the bounds (R96, R97). -/
theorem Pump.bounded.counted (h : p.bounded) {b : Burst} (hb : p.burst = some b) : (p.counted b).bounded := by
  obtain ⟨hc, hbound, hburst⟩ := h
  obtain ⟨a, ha, -, hfit⟩ := hburst b hb
  obtain ⟨hcount, hknown⟩ := hbound a ha
  refine (bounded_free (p := p.counted b) rfl).mpr ?_
  simp only [Pump.counted, ha, Option.map_some, Option.some.injEq, forall_eq']
  cases hx : p.piston with
  | unknown n =>
    rw [hx] at hfit hknown
    have hr : b.refill = true := hfit
    have hdeliver : a.phase ≠ .deliver := fun hp => hknown hp
    simp only [hr, if_true, Piston.drawn]
    split <;> exact ⟨by simp [Piston.inChamber, Config.chamber], hcount, fun hp => (hdeliver hp).elim⟩
  | known x =>
    rw [hx] at hfit hc
    simp only [Burst.fits] at hfit
    have hle : x ≤ 25600 := hc
    cases hr : b.refill <;> simp only [hr, Bool.false_eq_true, if_true, if_false] at hfit ⊢
    · exact ⟨(Nat.sub_le x b.steps).trans hle, hfit.2, fun _ => trivial⟩
    · exact ⟨hfit, hcount, fun _ => trivial⟩

/-! ### Every pump, and the lending -/

/-- Since state b the lending of the frame stands, and the pumps are in their bounds if they were. -/
structure Driven (b s : State) : Prop where
  lent : s.drive.lent = b.drive.lent
  pumps : PumpInv b → PumpInv s

variable {b s t : State} {c : Circ}

theorem Driven.refl (s : State) : Driven s s := ⟨rfl, id⟩

/-- The same lending and pumps. -/
theorem Driven.ofPumps (h : Driven b s) (hl : t.drive.lent = s.drive.lent) (hp : ∀ d, t.pump d = s.pump d) : Driven b t :=
  ⟨hl.trans h.lent, fun hb d => hp d ▸ h.pumps hb d⟩

/-- An operation that leaves the Drive Frame. -/
theorem Driven.of (h : Driven b s) (e : t.drive = s.drive := by simp) : Driven b t :=
  h.ofPumps (congrArg Drive.lent e) (pump_congr e)

theorem Driven.when {q : Prop} [Decidable q] (h : Driven b s) (ht : Driven b t) : Driven b (if q then t else s) := by
  split
  · exact ht
  · exact h

theorem Driven.foldl {α : Type} {f : State → α → State} (hf : ∀ u x, Driven b u → Driven b (f u x)) (l : List α)
    (h : Driven b s) : Driven b (l.foldl f s) := by
  induction l generalizing s with
  | nil => exact h
  | cons x xs ih => exact ih (hf s x h)

theorem Driven.forCircuits {f : Circ → State → State} (hf : ∀ c u, Driven b u → Driven b (f c u)) (h : Driven b s) :
    Driven b (forCircuits f s) := h.foldl (fun u c => hf c u) _

theorem Driven.race {f g : State → State} (h : Driven b s) (q : Bool) (hf : ∀ u, Driven b u → Driven b (f u))
    (hg : ∀ u, Driven b u → Driven b (g u)) : Driven b (s.race q f g) := by
  have hc : Driven b s.choose := h.of
  unfold State.race
  split
  · exact hf _ (hg _ hc)
  · split
    · exact hg _ (hf _ hc)
    · exact hg _ (hf _ h)

/-- A change of one pump that keeps its bounds. -/
theorem Driven.setPump (h : Driven b s) {f : Pump → Pump} (hf : (s.pump c).bounded → (f (s.pump c)).bounded) :
    Driven b (s.setPump c f) := by
  refine ⟨h.lent, fun hb d => ?_⟩
  rw [setPump_pump_eq]
  split
  · exact hf (h.pumps hb c)
  · exact h.pumps hb d

theorem Driven.forfeitSlots (h : Driven b s) (c : Circ) : Driven b (s.forfeitSlots c) := h.ofPumps rfl fun _ => rfl

/-! ### Dues and states of a circuit -/

theorem Driven.endStir (h : Driven b s) (c : Circ) : Driven b (s.endStir c) := by
  have h1 : Driven b (s.setCircuit c fun r => { r with stir := none }) := h.of
  exact h1.setPump Pump.bounded.woken

theorem Driven.cutStir (h : Driven b s) (c : Circ) (back : Bool) : Driven b (s.cutStir c back) := by
  unfold State.cutStir
  split
  · exact h
  · split
    · exact (h.endStir c).of
    · exact h.endStir c

theorem Driven.moveCircuit (h : Driven b s) (c : Circ) (g : CircuitState) : Driven b (s.moveCircuit c g) := by
  have h1 : Driven b (s.setCircuit c fun r => { r with state := g }) := h.of
  have hdrop {u : State} (hu : Driven b u) : Driven b (u.dropOutside c g) := by
    unfold State.dropOutside
    exact hu.when (hu.of (by simp))
  rcases moveCircuit_cases s c g with hg | ⟨hg, hs⟩ | ⟨hg, hs⟩
  · rw [moveCircuit_serves s c hg]; exact h1.of
  · rw [moveCircuit_leaves s c hs hg]; exact hdrop ((h1.cutStir c true).of (by simp))
  · rw [moveCircuit_outside s c hs hg]; exact hdrop h1

theorem Driven.enterEmpty (h : Driven b s) (c : Circ) : Driven b (s.enterEmpty c) :=
  (h.moveCircuit c .empty).of (by simp [State.enterEmpty])

theorem Driven.emptyCheck (h : Driven b s) (c : Circ) : Driven b (s.emptyCheck c) := h.when (h.enterEmpty c)

theorem Driven.emptyCheckReserve (h : Driven b s) (c : Circ) : Driven b (s.emptyCheckReserve c) :=
  (h.emptyCheck c).when (h.moveCircuit c _)

theorem Driven.reduceLevel (h : Driven b s) (c : Circ) (n : Nat) (t : Int) : Driven b (s.reduceLevel c n t) := by
  by_cases hn : n = 0
  · rw [hn, reduceLevel_zero]; exact h
  · rw [reduceLevel_pos s c t hn]; exact Driven.emptyCheck h.of c

theorem Driven.block (h : Driven b s) (c : Circ) (why : BlockReason) : Driven b (s.block c why) :=
  (h.moveCircuit c .blocked).of (by simp [State.block])

theorem Driven.pumpFault (h : Driven b s) (c : Circ) : Driven b (s.pumpFault c) := by
  unfold State.pumpFault
  split
  case h_5 => exact h
  all_goals exact h.block c _

theorem Driven.primeEnded (h : Driven b s) (c : Circ) : Driven b (s.primeEnded c) := by
  have hm : Driven b (if (s.circuit c).level ≤ (s.circuit c).cfg.reserve then s.enterEmpty c else s.moveCircuit c .ready) :=
    (h.moveCircuit c _).when (h.enterEmpty c)
  unfold State.primeEnded
  refine h.when ?_
  dsimp only
  split
  · exact hm
  · exact hm.of

/-! ### Requests and ends of activities -/

/-- An idle pump takes the activity of a request (R95, R97). -/
theorem Driven.createActivity (h : Driven b s) {q : PumpRequest} (ha : (s.pump c).activity = none) :
    Driven b (s.createActivity c q) := by
  refine h.setPump fun hp => ?_
  have hb : (s.pump c).burst = none := hp.burst_none (by simp [ha])
  exact bounded_takes (p := { s.pump c with
    piston := (s.pump c).piston.beginStroke
    heldPrime := if q.kind = .prime then false else (s.pump c).heldPrime }) hb (inChamber_beginStroke hp.1)
    ⟨Nat.zero_le _, isKnown_of_phase⟩

theorem Driven.askPump (h : Driven b s) (c : Circ) (q : PumpRequest) : Driven b (s.askPump c q).1 := by
  unfold State.askPump
  split
  · exact h
  · split
    · exact h.setPump id
    · split
      · rename_i ha
        exact h.createActivity ha
      · split
        · exact h.setPump id
        · exact h

theorem Driven.askPrime (h : Driven b s) (c : Circ) : Driven b (s.askPrime c) := h.askPump c _

theorem Driven.askPrimeAgain (h : Driven b s) (c : Circ) : Driven b (s.askPrimeAgain c) := by
  unfold State.askPrimeAgain
  split
  · split
    · exact h.askPrime c
    · exact h.setPump id
  · exact h.askPrime c

theorem Driven.releaseNext (h : Driven b s) (c : Circ) : Driven b (s.releaseNext c) := by
  unfold State.releaseNext
  split
  · exact h
  · exact (h.setPump id).askPump c _

theorem Driven.refuseNext (h : Driven b s) (c : Circ) : Driven b (s.refuseNext c) := by
  have h1 : Driven b (s.setPump c fun p => { p with next := none }) := h.setPump id
  unfold State.refuseNext
  split
  · exact h
  · dsimp only
    split
    · exact h1.of
    · exact h1.of
    · exact h1

theorem Driven.tellOwner (h : Driven b s) (c : Circ) (a : Activity) (v : Nat) (w : EndCause) :
    Driven b (s.tellOwner c a v w) := by
  unfold State.tellOwner
  split
  · dsimp only
    split <;> exact h.of
  · have h1 (f : Option CalRun → Option CalRun) : Driven b { s with stn := { s.stn with cal := f s.stn.cal } } := h.of
    dsimp only
    split
    · exact h1 _
    · exact h.of (by simp)
  · exact h.when h.of
  · exact h.when (h.primeEnded c)

/-- The end of an activity, where the pump without it keeps to its bounds (R99). -/
theorem Driven.endStripped (h : Driven b (s.stripped c)) (w : EndCause) : Driven b (s.endActivity c w) := by
  unfold State.endActivity
  split
  · rename_i ha
    refine h.ofPumps rfl fun d => ?_
    by_cases hd : d = c
    · rw [hd, stripped_pump, ← ha]
    · exact ((stripped_stays s c).beside.pump_ne hd).symm
  · dsimp only
    refine Driven.releaseNext ?_ c
    rename_i a _
    split
    · exact h
    · have hlevel : Driven b ((s.stripped c).reduceLevel c a.delivered (a.reduceTrim (s.circuit c))) := h.reduceLevel c _ _
      exact (hlevel.of (drive_keepDelivery ..)).tellOwner c a _ w

theorem Driven.stripped (h : Driven b s) (hb : (s.pump c).bounded → (s.pump c).burst = none) : Driven b (s.stripped c) :=
  (h.setPump fun hp => bounded_idle (hb hp) hp.1).forfeitSlots c

theorem Driven.endActivity (h : Driven b s) (hb : (s.pump c).bounded → (s.pump c).burst = none) (w : EndCause) :
    Driven b (s.endActivity c w) := (h.stripped hb).endStripped w

/-! ### The burst outstanding at the end of an activity -/

theorem askPump_burst (s : State) (c d : Circ) (q : PumpRequest) : ((s.askPump c q).1.pump d).burst = (s.pump d).burst := by
  have hset (f : Pump → Pump) (hf : ∀ p, (f p).burst = p.burst) : ((s.setPump c f).pump d).burst = (s.pump d).burst := by
    rw [setPump_pump_eq]
    split
    · rename_i e
      rw [hf, e]
    · rfl
  unfold State.askPump State.createActivity
  repeat' split
  all_goals first
    | rfl
    | exact hset _ fun _ => rfl

theorem releaseNext_burst (s : State) (c : Circ) : ((s.releaseNext c).pump c).burst = (s.pump c).burst := by
  unfold State.releaseNext
  split
  · rfl
  · rw [askPump_burst, setPump_pump]

/-- The end of an activity leaves the burst to the pump driver. -/
theorem endActivity_burst (s : State) (c : Circ) (w : EndCause) : ((s.endActivity c w).pump c).burst = (s.pump c).burst := by
  have hs : Local c s (s.stripped c) := (stripped_stays s c).beside
  unfold State.endActivity
  split
  · rfl
  · dsimp only
    rw [releaseNext_burst]
    split
    · exact hs.burst
    · exact (hs.trans ((Local.reduceLevel c _ _ _).trans ((Local.keepDelivery c _ _ _).trans (.tellOwner c _ _ _ _)))).burst

/-! ### Cuts, STOP and RESUME -/

/-- A mark on an activity for its burst boundary. -/
theorem Driven.mark (h : Driven b s) {g : Activity → Activity}
    (hg : ∀ a, (g a).planned = a.planned ∧ (g a).delivered = a.delivered ∧ (g a).phase = a.phase
      ∧ (a.run = .running → (g a).run = .running)) : Driven b (s.setActivity c g) := h.setPump fun hp => hp.map hg

/-- The run state of an activity with no burst outstanding. -/
theorem Driven.markFree (h : Driven b s) {g : Activity → Activity}
    (hb : (s.pump c).bounded → (s.pump c).burst = none)
    (hg : ∀ a, (g a).planned = a.planned ∧ (g a).delivered = a.delivered ∧ (g a).phase = a.phase) :
    Driven b (s.setActivity c g) := h.setPump fun hp => hp.map_free (hb hp) hg

theorem Driven.cutFinally (h : Driven b s) (c : Circ) (w : CutCause) : Driven b (s.cutFinally c w) := by
  unfold State.cutFinally
  split
  · exact h.mark fun a => ⟨rfl, rfl, rfl, id⟩
  · rename_i hb
    exact h.endActivity (fun _ => hb) _
  · exact h

theorem Driven.pumpRemoved (h : Driven b s) (c : Circ) : Driven b (s.pumpRemoved c) :=
  ((h.refuseNext c).setPump (f := fun p => { p with heldPrime := false }) id).cutFinally c _

theorem Driven.pumpRestart (h : Driven b s) (c : Circ) : Driven b (s.pumpRestart c) :=
  ((h.setPump (f := fun p => { p with next := none, heldPrime := false }) id).mark
    (g := fun a => { a with restarted := true }) fun _ => ⟨rfl, rfl, rfl, id⟩).cutFinally c _

/-- An abandonment with no burst outstanding, also where it leaves a standalone REFILL (R104). -/
theorem Driven.abandonNow (h : Driven b s) (hb : (s.pump c).bounded → (s.pump c).burst = none) :
    Driven b (s.abandonNow c) := by
  unfold State.abandonNow
  split
  · exact h
  · have h1 : Driven b (s.endActivity c .abandoned) := h.endActivity hb _
    refine h1.when ?_
    refine ⟨h1.lent, fun hi d => ?_⟩
    rw [setPump_pump_eq]
    split
    · have hfree : ((s.endActivity c .abandoned).pump c).burst = none := by
        rw [endActivity_burst]
        exact hb (h.pumps hi c)
      exact bounded_takes hfree (h1.pumps hi c).1 ⟨Nat.le_refl 0, nofun⟩
    · exact h1.pumps hi d

theorem Driven.abandon (h : Driven b s) (c : Circ) : Driven b (s.abandon c) := by
  unfold State.abandon
  split
  · refine h.mark fun a => ?_
    split <;> exact ⟨rfl, rfl, rfl, id⟩
  · rename_i hb
    exact h.abandonNow fun _ => hb

theorem Driven.abandonPurges (h : Driven b s) : Driven b s.abandonPurges := by
  refine h.forCircuits fun c u hu => ?_
  split
  · exact hu.when (hu.abandon c)
  · exact hu

theorem Driven.pumpStop (h : Driven b s) (c : Circ) : Driven b (s.pumpStop c) := by
  have hs : Driven b (match (s.pump c).burst with
      | some _ => (s.setActivity c fun a => { a with atBoundary := a.atBoundary.orElse fun _ => some .stop }).forfeitSlots c
      | none => (s.setActivity c fun a => { a with run := .stopped, stopSeen := true }).forfeitSlots c) := by
    split
    · exact Driven.forfeitSlots (h.mark fun a => by exact ⟨rfl, rfl, rfl, id⟩) c
    · rename_i hb
      exact Driven.forfeitSlots (h.markFree (fun _ => hb) fun a => by exact ⟨rfl, rfl, rfl⟩) c
  unfold State.pumpStop
  split
  · exact h
  · split
    · exact hs
    · exact hs
    · exact h.abandon c
    · exact (h.setPump (f := fun p => { p with heldPrime := true }) id).abandon c

/-- A STOPPED activity goes on, judged again (R109). -/
theorem Driven.resumeActivity (h : Driven b s) (c : Circ) : Driven b (s.resumeActivity c) := by
  unfold State.resumeActivity
  split
  · exact h
  · rename_i a ha
    split
    · rename_i hr
      have hfree (hp : (s.pump c).bounded) : (s.pump c).burst = none := by
        refine hp.burst_none fun x hx => ?_
        obtain rfl : a = x := Option.some.inj (ha.symm.trans hx)
        rw [hr]
        nofun
      split
      · exact h.endActivity hfree _
      · refine h.setPump fun hp => ?_
        exact bounded_takes (p := { s.pump c with piston := (s.pump c).piston.beginStroke }) (hfree hp)
          (inChamber_beginStroke hp.1) ⟨(hp.2.1 a ha).1, isKnown_of_phase⟩
    · split
      · exact h.mark fun a => ⟨rfl, rfl, rfl, id⟩
      · exact h

theorem Driven.resumePrime (h : Driven b s) (c : Circ) : Driven b (s.resumePrime c) := by
  have h1 : Driven b (s.setPump c fun p => { p with heldPrime := false }) := h.setPump id
  unfold State.resumePrime
  dsimp only
  split
  · split
    · split
      · exact h
      · exact h1.askPrime c
    · exact h1
  · exact h

theorem Driven.pumpResume (h : Driven b s) (c : Circ) : Driven b (s.pumpResume c) := (h.resumeActivity c).resumePrime c

theorem Driven.createHeldPrime (h : Driven b s) (c : Circ) : Driven b (s.createHeldPrime c) := h.when (h.askPrime c)

theorem Driven.primeCap (h : Driven b s) (c : Circ) : Driven b (s.primeCap c) := by
  unfold State.primeCap
  split
  · split
    · rename_i hp
      have hm (r : RunState) : Driven b (s.setActivity c fun a => { a with run := r }) :=
        h.markFree (fun _ => hp.2.2) fun _ => ⟨rfl, rfl, rfl⟩
      split
      · exact hm _
      · split
        · exact hm _
        · exact h
    · exact h
  · exact h

theorem Driven.primesLook (h : Driven b s) : Driven b s.primesLook :=
  h.forCircuits fun c _ hu => (hu.createHeldPrime c).primeCap c

/-! ### Bursts -/

theorem Driven.grant (h : Driven b s) {a : Activity} (ha : (s.pump c).drivable = some a) : Driven b (s.grant c a) :=
  h.setPump fun hp => hp.granted ha _

theorem Driven.serveSlot (h : Driven b s) (k : Nat) : Driven b (s.serveSlot k) := by
  unfold State.serveSlot
  split
  · split
    · exact h.grant ‹_›
    · exact h
  · split
    · split
      · exact h.when (h.grant ‹_›)
      · exact h
    · exact h

theorem Driven.nextSlot (h : Driven b s) : Driven b s.nextSlot := by
  unfold State.nextSlot
  dsimp only
  split
  · have hslot : Driven b { s with
        now := max s.now (s.drive.frameStart + 625 * s.drive.slot)
        drive := { s.drive with slot := s.drive.slot + 1 } } := h.ofPumps rfl fun _ => rfl
    exact hslot.serveSlot _
  · exact h

theorem Driven.advancePhase (h : Driven b s) (hb : (s.pump c).burst = none) : Driven b (s.advancePhase c) := by
  unfold State.advancePhase
  split
  · exact h
  · rename_i a ha
    have h1 : Driven b (s.setActivity c fun x => { x with phase := a.nextPhase (s.pump c).piston }) := by
      refine h.setPump fun hp => ?_
      rw [ha]
      exact bounded_takes hb hp.1 ⟨(hp.2.1 a ha).1, fun hd => isKnown_of_nextPhase hd (hp.2.1 a ha).2⟩
    exact h1.when (h1.forfeitSlots c)

theorem advancePhase_burst (s : State) (c : Circ) : ((s.advancePhase c).pump c).burst = (s.pump c).burst := by
  have hs (g : Activity → Activity) : ((s.setActivity c g).pump c).burst = (s.pump c).burst := by
    rw [State.setActivity, setPump_pump]
  unfold State.advancePhase
  split
  · rfl
  · dsimp only
    split <;> exact hs _

/-- What waited for the burst boundary comes about within the bounds. -/
theorem Driven.atBoundary (h : Driven b s) (hb : (s.pump c).burst = none) : Driven b (s.atBoundary c) := by
  have hadv : Driven b (s.advancePhase c) := h.advancePhase hb
  have hfree : ((s.advancePhase c).pump c).burst = none := (advancePhase_burst s c).trans hb
  unfold State.atBoundary
  split
  · exact h
  · split
    · exact h.endActivity (fun _ => hb) _
    · split
      · exact h.endActivity (fun _ => hb) _
      · exact hadv
    · split
      · refine (h.setPump id).endActivity (fun _ => ?_) _
        rw [setPump_pump]
        exact hb
      · refine Driven.abandonNow (hadv.mark fun a => by exact ⟨rfl, rfl, rfl, id⟩) fun _ => ?_
        rw [State.setActivity, setPump_pump]
        exact hfree
    · split
      · exact h.endActivity (fun _ => hb) _
      · exact hadv.markFree (fun _ => hfree) fun a => by exact ⟨rfl, rfl, rfl⟩

theorem Driven.burstComplete (h : Driven b s) (c : Circ) : Driven b (s.burstComplete c) := by
  unfold State.burstComplete
  split
  · exact h
  · rename_i x hx
    refine Driven.atBoundary (h.setPump fun hp => hp.counted hx) ?_
    rw [setPump_pump]
    rfl

theorem Local.block (c : Circ) (s : State) (why : BlockReason) : Local c s (s.block c why) := by
  have h : Local c (s.moveCircuit c .blocked)
      ((s.moveCircuit c .blocked).setCircuit c fun r => { r with reason := some why }) := .of (beside_setCircuit rfl)
  exact (Local.moveCircuit c s .blocked).trans (h.trans (.setFlag _ _))

theorem Local.pumpFault (c : Circ) (s : State) : Local c s (s.pumpFault c) := by
  unfold State.pumpFault
  split
  case h_5 => exact .refl c s
  all_goals exact .block c s _

theorem Local.lent (h : Local c s t) : t.drive.lent = s.drive.lent :=
  (congrArg (fun u : State => u.drive.lent) h.beside :)

/-- The pump record of a burst that stalls (R105). -/
def Pump.stalled (p : Pump) : Pump := { p with burst := none, piston := .unknown 0, heldPrime := false }

/-- The fault of a burst that stalls, before its activity is cut. -/
def State.stalled (s : State) (c : Circ) : State := ((s.setPump c Pump.stalled).refuseNext c).pumpFault c

theorem burstStall_none (h : (s.pump c).burst = none) : s.burstStall c = s := by
  simp only [State.burstStall, h]

theorem burstStall_some {x : Burst} (h : (s.pump c).burst = some x) :
    s.burstStall c = (s.stalled c).endActivity c (.cut .pumpFault) := by
  simp only [State.burstStall, h]
  rfl

theorem stalled_local (s : State) (c : Circ) : Local c (s.setPump c Pump.stalled) (s.stalled c) :=
  (refuseNext_local _ c).trans (.pumpFault c _)

theorem Driven.burstStall (h : Driven b s) (c : Circ) : Driven b (s.burstStall c) := by
  cases hb : (s.pump c).burst with
  | none => rwa [burstStall_none hb]
  | some x =>
    rw [burstStall_some hb]
    have hs : Local c (s.setPump c Pump.stalled) ((s.stalled c).stripped c) :=
      (stalled_local s c).trans (stripped_stays _ c).beside
    refine Driven.endStripped ⟨hs.lent.trans h.lent, fun hi d => ?_⟩ _
    by_cases hd : d = c
    · have hp := pump_of_lasting hs.pumpLasting
      rw [setPump_pump] at hp
      rw [hd, hp, stripped_pump]
      exact bounded_idle rfl trivial
    · rw [hs.pump_ne hd, setPump_pump_ne _ _ hd]
      exact h.pumps hi d

theorem Driven.burstTimeout (h : Driven b s) (c : Circ) : Driven b (s.burstTimeout c) := by
  unfold State.burstTimeout
  split
  · exact h
  · rename_i x _
    have hlate : Driven b (s.reach (x.granted + 60 * Config.ms)) := h.ofPumps rfl fun _ => rfl
    exact hlate.burstStall c

end Sys2Proof.Machine
end

