-- ==== Sys2Proof/Proofs/PumpCommands.lean ====
section
/-! PROOF SUPPORT. The commands of the blocks over the bounds of the pumps and the lending of the frame. -/

namespace Sys2Proof.Machine

set_option Elab.async false

variable {b s t : State} {c : Circ}

/-! ### Operations of other parts -/

theorem Driven.reach (h : Driven b s) (n : Nat) : Driven b (s.reach n) := h.of
theorem Driven.setStn (h : Driven b s) (f : Station → Station) : Driven b (s.setStn f) := h.of
theorem Driven.setEntry (h : Driven b s) (id k : Nat) (f : DoseEntry → DoseEntry) : Driven b (s.setEntry id k f) := h.of
theorem Driven.setLast (h : Driven b s) (c : Circ) (r : LastResult) : Driven b (s.setLast c r) := h.of
theorem Driven.setImage (h : Driven b s) (c : Circ) (g : TagImage) : Driven b (s.setImage c g) := h.of
theorem Driven.setBus (h : Driven b s) (x : BusState) : Driven b (s.setBus x) := h.of
theorem Driven.dropJob (h : Driven b s) : Driven b s.dropJob := h.of
theorem Driven.sendStop (h : Driven b s) : Driven b s.sendStop := h.of

/-! ### The Tag Bus -/

theorem Driven.readSucceeded (h : Driven b s) (c : Circ) (g : TagImage) : Driven b (s.readSucceeded c g) := by
  unfold State.readSucceeded
  dsimp only
  refine h.when ?_
  split
  · refine Driven.askPrime (Driven.moveCircuit ?_ c _) c
    exact h.of (by split <;> simp)
  · exact h.block c _

theorem Driven.readFailed (h : Driven b s) (c : Circ) (f : TagFailure) : Driven b (s.readFailed c f) :=
  h.when (h.block c _)

theorem Driven.releaseEnds (h : Driven b s) (c : Circ) : Driven b (s.releaseEnds c) :=
  (h.moveCircuit c .service).of (by simp [State.releaseEnds])

theorem Driven.writeEnded (h : Driven b s) (c : Circ) (f : Option TagFailure) : Driven b (s.writeEnded c f) := by
  have h1 : Driven b (if (s.circuit c).state = .releasing then s.releaseEnds c else s) := h.when (h.releaseEnds c)
  unfold State.writeEnded
  cases f with
  | some f => exact h1.of
  | none => exact h1

theorem Driven.failJob (h : Driven b s) (a : ActiveJob) (f : TagFailure) : Driven b (s.failJob a f) := by
  unfold State.failJob
  split
  · exact ((h.setLast _ _).readFailed _ _).dropJob
  · exact ((h.setLast _ _).writeEnded _ _).dropJob

theorem Driven.judgeRead (h : Driven b s) (a : ActiveJob) : Driven b (s.judgeRead a) := by
  unfold State.judgeRead
  dsimp only
  split
  · exact (((h.setImage _ _).setLast _ _).readSucceeded _ _).dropJob
  · exact h.failJob a _

theorem Driven.writeDone (h : Driven b s) (a : ActiveJob) : Driven b (s.writeDone a) :=
  (((h.setImage _ _).setLast _ _).writeEnded _ _).dropJob

theorem Driven.countLoss (h : Driven b s) (a : ActiveJob) : Driven b (s.countLoss a) := by
  unfold State.countLoss
  split
  · exact h.failJob _ _
  · exact h.of

theorem Driven.countFault (h : Driven b s) (a : ActiveJob) : Driven b (s.countFault a) := by
  unfold State.countFault
  split
  · exact h.failJob _ _
  · exact h.of

theorem Driven.pageStored (h : Driven b s) (a : ActiveJob) (n : Nat) : Driven b (s.pageStored a n) := by
  unfold State.pageStored
  split
  · exact h.of
  · exact (h.writeDone a).sendStop

theorem Driven.addressAcked (h : Driven b s) : Driven b s.addressAcked := by
  unfold State.addressAcked
  split
  · split
    · exact h.of
    · split
      · exact h.pageStored _ _
      · exact h.of
  · split <;> exact h.of
  · exact h

theorem Driven.addressNaked (h : Driven b s) : Driven b s.addressNaked := by
  unfold State.addressNaked
  split
  · split
    · exact h.of
    · split
      · exact (h.failJob _ _).sendStop
      · exact (h.failJob _ _).sendStop
      · exact (h.countFault _).sendStop
      · exact h.of
  · split
    · exact h.of
    · exact (h.failJob _ _).sendStop
  · exact h

theorem Driven.byteNaked (h : Driven b s) : Driven b s.byteNaked := by
  unfold State.byteNaked
  split
  · split
    · exact h.of
    · exact (h.countFault _).sendStop
  · split
    · exact h.of
    · exact (h.countFault _).sendStop
  · exact h

theorem Driven.arbitrationLost (h : Driven b s) : Driven b s.arbitrationLost := by
  have h1 : Driven b s.busTaken := h.of
  unfold State.arbitrationLost
  split
  · split
    · exact h1.of
    · exact h1.countLoss _
  · exact h

theorem Driven.lineBroken (h : Driven b s) : Driven b s.lineBroken := by
  unfold State.lineBroken
  split
  · exact h
  · dsimp only
    split
    · exact (h.setBus _).dropJob
    · exact (h.setBus _).countFault _
  · exact h

theorem Driven.stopEnded (h : Driven b s) : Driven b s.stopEnded := by
  have h1 : Driven b s.busReleased := h.of
  unfold State.stopEnded
  dsimp only
  split
  · exact h1
  · split
    · split
      · exact h1.of
      · split
        · exact h1.judgeRead _
        · exact h1.of
        · exact h1.of
    · exact h1

theorem Driven.pollTimeout (h : Driven b s) : Driven b s.pollTimeout := by
  unfold State.pollTimeout
  split
  · split
    · split
      · exact h
      · dsimp only
        split
        · exact (h.reach _).failJob _ _
        · exact ((h.reach _).failJob _ _).sendStop
        · exact (h.reach _).failJob _ _
    · exact h
  · exact h

theorem Driven.busWaited (h : Driven b s) : Driven b s.busWaited := by
  unfold State.busWaited
  split
  · split
    · split
      · exact h
      · exact (h.reach _).countLoss _
    · exact h
  · exact h

/-! ### The Circuit Table -/

theorem Driven.release (h : Driven b s) (c : Circ) : Driven b (s.release c) := by
  have h0 : Driven b (s.setCircuit c fun r => { r with origin := .of r.state }) := h.of
  have h1 : Driven b ((s.setCircuit c fun r => { r with origin := .of r.state }).moveCircuit c .releasing) :=
    h0.moveCircuit c _
  unfold State.release
  dsimp only
  split
  · exact h1.of
  · exact h1.releaseEnds c

theorem Driven.insertion (h : Driven b s) (c : Circ) : Driven b (s.insertion c) :=
  (h.moveCircuit c .checking).of (by simp [State.insertion])

theorem Driven.forcedRemoval (h : Driven b s) (c : Circ) : Driven b (s.forcedRemoval c) := by
  have h1 : Driven b { s.pumpRemoved c with tag := (s.pumpRemoved c).tag.abandonJobs c } := (h.pumpRemoved c).of rfl
  exact (h1.moveCircuit c .service).of (by simp [State.forcedRemoval])

theorem Driven.bayEvent (h : Driven b s) (c : Circ) : Driven b (s.bayEvent c) := by
  have h1 : Driven b (s.setCircuit c fun r => { r with baseline := s.bayClosed c }) := h.of
  unfold State.bayEvent
  dsimp only
  split
  · exact h1
  · split
    · exact h1.insertion c
    · exact h1.of
  · split
    · exact h1
    · exact h1.forcedRemoval c

theorem Driven.bayCompare (h : Driven b s) (c : Circ) : Driven b (s.bayCompare c) := by
  unfold State.bayCompare
  split
  · exact h
  · exact h.bayEvent c

theorem Driven.bayChanged (h : Driven b s) (c : Circ) : Driven b (s.bayChanged c) := by
  unfold State.bayChanged
  dsimp only
  split
  · exact h.of
  · exact h.when (h.bayCompare c)

theorem Driven.codeMoves (h : Driven b s) (c : Circ) : Driven b (s.codeMoves c) := by
  unfold State.codeMoves
  dsimp only
  split
  · exact (h.moveCircuit c .service).of
  · split
    · exact (h.moveCircuit c .unfitted).of
    · exact h

theorem Driven.csetEffect (h : Driven b s) (c : Circ) (fs : Fields) (w : TwinChange) : Driven b (s.csetEffect c fs w) := by
  have h2 : Driven b ((s.csetWritten c fs w).clampLevel c) := h.of
  have h3 := h2.codeMoves c
  unfold State.csetEffect
  dsimp only
  rw [csetWritten_eq]
  generalize ((s.csetWritten c fs w).clampLevel c).codeMoves c = s3 at h3 ⊢
  have h4 := h3.when (q := fs.has "low") (h3.of (t := s3.lowEvaluate c))
  have h5 := h4.when (q := fs.has "reserve") (h4.emptyCheckReserve c)
  generalize (if fs.has "reserve" = true then _ else _ : State) = s5 at h5 ⊢
  have h6 := h5.of (t := s5.calibrationChanged c (s.circuit c).cfg (s5.circuit c).cfg)
  generalize s5.calibrationChanged c (s.circuit c).cfg (s5.circuit c).cfg = s6 at h6 ⊢
  have h7 := h6.when (q := fs.has "purgeint") (h6.of (t := s6.purgeIntervalSet c))
  generalize (if fs.has "purgeint" = true then _ else _ : State) = s7 at h7 ⊢
  have h8 := h7.when (q := ((s.circuit c).cfg.stir != .off && (s7.circuit c).cfg.stir == .off) = true)
    (h7.of (t := s7.dropDue c))
  exact h8.when (h8.bayCompare c)

theorem Driven.circuitRestart (h : Driven b s) (c : Circ) : Driven b (s.circuitRestart c) := by
  unfold State.circuitRestart
  split
  · exact h.of
  · exact h.askPrimeAgain c
  · split
    · exact h.moveCircuit c _
    · exact (h.moveCircuit c _).emptyCheck c
  · exact h

/-! ### The station -/

theorem Driven.handDose (h : Driven b s) (id k : Nat) (e : DoseEntry) (compared : Bool) :
    Driven b (s.handDose id k e compared) := by
  unfold State.handDose
  split
  · have h1 : Driven b (if compared then s else s.compareLot id k e.circuit) := h.of (by split <;> simp)
    dsimp only
    generalize (if compared then s else s.compareLot id k e.circuit) = u at h1 ⊢
    have h2 := h1.askPump e.circuit ⟨.dose, .tin id k, e.planned⟩
    split <;> exact h2.setEntry _ _ _
  · exact h.of

theorem Driven.lookEntry (h : Driven b s) (id k : Nat) : Driven b (s.lookEntry id k) := by
  unfold State.lookEntry
  split
  · exact h
  · split
    · split
      · exact h
      · exact h.handDose ..
    · split
      · exact h
      · exact h.handDose ..
    · exact h
    · exact h

theorem Driven.dosingLook (h : Driven b s) (id : Nat) : Driven b (s.dosingLook id) := by
  have h1 : Driven b (s.lookEntries id) := h.foldl (fun u k hu => hu.lookEntry id k) _
  unfold State.dosingLook
  dsimp only
  split
  · exact h1.of (by split <;> simp)
  · exact h1

theorem Driven.handCal (h : Driven b s) (q : CalRun) : Driven b (s.handCal q) := by
  unfold State.handCal
  split
  · exact (h.askPump q.circuit _).setStn _
  · exact h.of

theorem Driven.calRunning (h : Driven b s) (q : CalRun) : Driven b (s.calRunning q) := by
  unfold State.calRunning
  split
  · exact h.handCal q
  · split
    · exact h
    · exact h.handCal q
  · exact h
  · exact h.of

theorem Driven.calPrepared (h : Driven b s) (q : CalRun) : Driven b (s.calPrepared q) := by
  unfold State.calPrepared
  split
  · exact h.of
  · exact (h.setStn _).calRunning q

theorem Driven.stationLook (h : Driven b s) : Driven b s.stationLook := by
  unfold State.stationLook
  split
  · rename_i id _ _
    have h1 : Driven b (s.stageTin id .dosing) := h.of
    exact h.when ((h1.setStn _).dosingLook id)
  · exact h.dosingLook _
  · exact h.when (h.calPrepared _)
  · exact h.calRunning _
  · exact h

theorem Driven.handLook (h : Driven b s) : Driven b s.handLook := by
  unfold State.handLook
  split
  · exact h.race _ (fun _ hu => hu.stationLook) fun _ hu => hu.of
  · exact h.stationLook

theorem Driven.capDecide (h : Driven b s) : Driven b s.capDecide := by
  unfold State.capDecide
  split
  · exact h
  · split
    · exact h.when (h.setStn _).abandonPurges
    · exact h.when (h.setStn _)
    · exact h

/-! ### Care -/

theorem Driven.purgesLook (h : Driven b s) : Driven b s.purgesLook :=
  h.forCircuits fun c _ hu => hu.when (hu.askPump c _)

theorem Driven.careLook (h : Driven b s) : Driven b s.careLook :=
  h.race _ (fun _ hu => hu.purgesLook) fun _ hu => hu.of

theorem Driven.stirEnds (h : Driven b s) (c : Circ) : Driven b (s.stirEnds c) := by
  unfold State.stirEnds
  split
  · exact h
  · exact (h.reach _).endStir c

theorem Driven.closedInstant (h : Driven b s) : Driven b s.closedInstant := by
  have h1 : Driven b s.choose := h.of
  exact h.when (h1.when h1.purgesLook)

theorem Driven.capEnds (h : Driven b s) : Driven b s.capEnds := by
  unfold State.capEnds
  split
  · exact h.of
  · exact ((h.reach _).setStn _).closedInstant
  · exact h

theorem Driven.careStop (h : Driven b s) : Driven b s.careStop := h.forCircuits fun c _ hu => hu.cutStir c true

theorem Driven.careRestart (h : Driven b s) : Driven b s.careRestart := by
  have h1 := h.forCircuits (f := fun c u => (u.cutStir c false).setCircuit c fun r =>
    { r with purgeDue := none, lastDelivery := u.now }) fun c u hu => (hu.cutStir c false).of
  exact h1.of (by simp [State.careRestart])

/-! ### The end of a step -/

theorem Driven.look (h : Driven b s) : Driven b s.look := by
  have h1 : Driven b s.primesLook.handLook := h.primesLook.handLook
  have h2 : Driven b s.primesLook.handLook.pressLook.mixerChoose.trackLook.attemptLook := h1.of
  exact h2.capDecide.careLook

theorem Driven.conclude (h : Driven b s) (before : State) : Driven b (State.conclude before s) :=
  h.look.look.look.of (by simp [State.conclude, State.react])

/-! ### STOP, RESUME, RESTART and power -/

theorem Driven.stopMachine (h : Driven b s) : Driven b s.stopMachine := by
  have h1 : Driven b ({ s with stopped := true }.setFlag .stop []) := h.of rfl
  have h2 := (h1.forCircuits fun c u hu => hu.pumpStop c).careStop
  exact h2.of (by simp [State.stopMachine, drive_foldl])

theorem Driven.resumeMachine (h : Driven b s) : Driven b s.resumeMachine := by
  have h1 : Driven b { s with stopped := false } := h.of rfl
  have h2 := h1.forCircuits fun c u hu => hu.pumpResume c
  exact h2.of (by simp [State.resumeMachine, drive_foldl])

theorem Driven.restartMachine (h : Driven b s) : Driven b s.restartMachine := by
  have h1 := Driven.forCircuits (f := fun c u => u.pumpRestart c) (fun c u hu => hu.pumpRestart c) h
  have h3 := h1.of (t := mixes.foldl (fun u m => u.mixerRestart m)
    (Machine.forCircuits (fun c u => u.pumpRestart c) s).bookRestart.stationRestart.trackRestart.lidderRestart)
    (by simp [drive_foldl])
  unfold State.restartMachine
  dsimp only
  generalize mixes.foldl _ _ = s3 at h3 ⊢
  have h4 : Driven b { s3 with tag := s3.tag.restart, calResult := none, lib := { s3.lib with cursor := 1 } } := h3.of rfl
  have h5 : Driven b (Machine.forCircuits (fun c u => u.circuitRestart c)
    { s3 with tag := s3.tag.restart, calResult := none, lib := { s3.lib with cursor := 1 } }).storeRestart :=
    (h4.forCircuits fun c u hu => hu.circuitRestart c).of
  exact h5.careRestart.of

/-- A pump of a reset machine stands idle. -/
theorem reset_pump (c : Circ) : (Drive.reset.pumps[c]).bounded := by
  have e : Drive.reset.pumps[c] = Pump.reset := by simp [Drive.reset]
  rw [e]
  exact (bounded_free rfl).mpr ⟨trivial, nofun⟩

theorem pumpInv_powerLost (s : State) : PumpInv s.powerLost := reset_pump

theorem pumpInv_powerOn (s : State) (damaged : List RecordName) : PumpInv (s.powerOn damaged) := by
  have h0 : PumpInv (s.fromStore (s.store.nv.read damaged) damaged.eraseDups.length) := reset_pump
  have h1 : Driven (s.fromStore (s.store.nv.read damaged) damaged.eraseDups.length) (s.powerOn damaged) := by
    refine (Driven.refl _).of ?_
    unfold State.powerOn
    dsimp only
    rw [drive_forCircuits fun c u => by simp, drive_forCircuits fun c u => by split <;> simp, drive_foldl fun u m => by simp]
    simp
  exact h1.pumps h0

end Sys2Proof.Machine
end

