-- ==== Sys2Proof/Proofs/PumpSteps.lean ====
section
/-! O12: every step keeps the bounds of the pumps; and the lending of a frame stands until the next one begins (R92). -/

namespace Sys2Proof.Machine

set_option Elab.async false

variable {b s t : State} {fs : Fields} {a : Answer}

/-! ### The answers of the requests -/

/-- The change of an answer leaves the Drive Frame. -/
def Answer.LeavesDrive : Answer → Prop
  | .accept _ f => ∀ u : State, (f u).drive = u.drive
  | _ => True

@[simp] theorem Answer.leavesDrive_refuse (x : Reason) : (Answer.refuse x).LeavesDrive := trivial
@[simp] theorem Answer.leavesDrive_report (items : List Item) : (Answer.report items).LeavesDrive := trivial

@[simp] theorem Answer.leavesDrive_accept (items : List Item) (f : State → State) :
    (Answer.accept items f).LeavesDrive ↔ ∀ u : State, (f u).drive = u.drive := Iff.rfl

@[simp] theorem Answer.leavesDrive_check (q : Bool) (x : Reason) (a : Answer) :
    (Answer.check q x a).LeavesDrive ↔ (q = false → a.LeavesDrive) := by
  cases q <;> simp

@[simp] theorem Answer.leavesDrive_unless (x : Option Reason) (a : Answer) :
    (Answer.unless x a).LeavesDrive ↔ (x = none → a.LeavesDrive) := by
  cases x <;> simp

/-- The change of an answer keeps the bounds of the pumps and the lending, since every state before it. -/
def Answer.Drives : Answer → Prop
  | .accept _ f => ∀ b u : State, Driven b u → Driven b (f u)
  | _ => True

@[simp] theorem Answer.drives_check (q : Bool) (x : Reason) (a : Answer) :
    (Answer.check q x a).Drives ↔ (q = false → a.Drives) := by
  cases q <;> simp [Answer.Drives]

theorem Answer.LeavesDrive.drives (h : a.LeavesDrive) : a.Drives := by
  cases a with
  | accept items f => exact fun b u hu => hu.of (h u)
  | _ => trivial

theorem Answer.Reports.drives (h : a.Reports) : a.Drives := by
  cases a with
  | accept => exact h.elim
  | _ => trivial

theorem Answer.leavesDrive_withLine {allowed numeric : List String} {next : Nat → OrderLine → Answer}
    (h : ∀ n l, (next n l).LeavesDrive) : (s.withLine fs allowed numeric next).LeavesDrive := by
  simp only [State.withLine, Answer.leavesDrive_check]
  intro _ _
  split
  · trivial
  · exact h _ _

/-! ### The requests of the book and of the track -/

theorem leavesDrive_confirmJam (s : State) (j : JamPair) : (s.confirmJam j).LeavesDrive := by
  unfold State.confirmJam
  dsimp only
  split <;> simp

theorem leavesDrive_confirmUncertain (s : State) (p : Place) : (s.confirmUncertain p).LeavesDrive := by
  unfold State.confirmUncertain
  split
  · simp
  · split
    · simp [apply_ite State.drive]
    · simp

theorem leavesDrive_confirmZone (s : State) (p : Place) : (s.confirmZone p).LeavesDrive := by
  unfold State.confirmZone
  split
  · repeat' split
    all_goals simp
  · refine (Answer.leavesDrive_check _ _ _).mpr fun _ => ?_
    split <;> simp

theorem leavesDrive_confirmPlace (s : State) (p : Place) : (s.confirmPlace p).LeavesDrive := by
  refine (Answer.leavesDrive_check _ _ _).mpr fun _ => ?_
  split
  · exact leavesDrive_confirmJam s _
  · split
    · exact leavesDrive_confirmUncertain s p
    · exact leavesDrive_confirmZone s p

theorem leavesDrive_confirm (fs : Fields) (s : State) : (confirmAnswer fs s).LeavesDrive := by
  refine (Answer.leavesDrive_check _ _ _).mpr fun _ => ?_
  split
  · trivial
  · refine (Answer.leavesDrive_check _ _ _).mpr fun _ => ?_
    split
    · exact leavesDrive_confirmJam s _
    · simp
  · exact leavesDrive_confirmPlace s _

theorem leavesDrive_hold (fs : Fields) (s : State) : (holdAnswer fs s).LeavesDrive := by
  refine Answer.leavesDrive_withLine fun n l => ?_
  split <;> simp [apply_ite State.drive]

theorem leavesDrive_cancel (fs : Fields) (s : State) : (cancelAnswer fs s).LeavesDrive := by
  refine (Answer.leavesDrive_check _ _ _).mpr fun _ => Answer.leavesDrive_withLine fun n l => ?_
  split
  · simp only [cancelAfterTaken, Answer.leavesDrive_check]
    intro _ _
    split <;> simp
  · refine (Answer.leavesDrive_check _ _ _).mpr fun _ => ?_
    simp

/-- The other answers of the requests whose change leaves the Drive Frame. -/
def drivelessAnswers : List (Fields → State → Answer) :=
  [trimAnswer, bsetAnswer, bdelAnswer, ssetAnswer, sdelAnswer, fstoreAnswer, fnextAnswer, feraseAnswer, orderAnswer,
    goAnswer, scaleAnswer, calrunAnswer, caltakeAnswer, loadedAnswer, clearAnswer, lidsAnswer, lidpolAnswer, timeAnswer,
    stirdayAnswer, purgeAnswer, stirAnswer, fclearAnswer, noticeAnswer]

theorem leavesDrive_of_mem : ∀ a ∈ drivelessAnswers, ∀ fs s, (a fs s).LeavesDrive := by
  simp only [drivelessAnswers, List.forall_mem_cons, List.not_mem_nil, false_imp_iff, implies_true, and_true]
  refine ⟨?_, ?_, ?_, ?_, ?_, ?_, ?_, ?_, ?_, ?_, ?_, ?_, ?_, ?_, ?_, ?_, ?_, ?_, ?_, ?_, ?_, ?_, ?_⟩
  all_goals
    intro fs s
    simp only [trimAnswer, bsetAnswer, bdelAnswer, ssetAnswer, sdelAnswer, fstoreAnswer, fnextAnswer, feraseAnswer,
      orderAnswer, goAnswer, scaleAnswer, calrunAnswer, caltakeAnswer, loadedAnswer, clearAnswer, lidsAnswer, lidpolAnswer,
      timeAnswer, stirdayAnswer, purgeAnswer, stirAnswer, fclearAnswer, fclearFlag, State.fclear, noticeAnswer,
      State.careRequest, State.withLine, Answer.leavesDrive_check, Answer.leavesDrive_unless]
    intros
    repeat' split
    all_goals simp [apply_ite State.drive]

theorem drives_quiet {a : Fields → State → Answer} (fs : Fields) (s : State)
    (h : a ∈ drivelessAnswers := by simp [drivelessAnswers]) : (a fs s).Drives := (leavesDrive_of_mem a h fs s).drives

theorem drives_report {a : Fields → State → Answer} (fs : Fields) (s : State)
    (h : a ∈ reportAnswers := by simp [reportAnswers]) : (a fs s).Drives := (reports_of_mem a h fs s).drives

/-! ### The requests that reach the pumps -/

theorem drives_cset (fs : Fields) (s : State) : (csetAnswer fs s).Drives := by
  simp only [csetAnswer, Answer.drives_check]
  intro _
  split
  · trivial
  · simp only [Answer.drives_check]
    intro _
    split
    · trivial
    · simp only [Answer.drives_check]
      exact fun _ _ b u hu => hu.csetEffect _ _ _

theorem drives_canout (fs : Fields) (s : State) : (canoutAnswer fs s).Drives := by
  simp only [canoutAnswer, Answer.drives_check]
  intro _
  split
  · trivial
  · split
    case h_5 => exact fun b u hu => hu.of
    case h_6 | h_7 | h_8 => exact (Answer.drives_check _ _ _).mpr fun _ b u hu => hu.release _
    all_goals trivial

/-- A SCHEME that waits for the next frame leaves the pumps and the lending of this one. -/
theorem Driven.setScheme (h : Driven b s) (m : Scheme) : Driven b (s.setScheme m) := h.ofPumps rfl fun _ => rfl

theorem drives_scheme (fs : Fields) (s : State) : (schemeAnswer fs s).Drives := by
  simp only [schemeAnswer, Answer.drives_check]
  intro _
  split
  · trivial
  · split
    · trivial
    · exact (Answer.drives_check _ _ _).mpr fun _ b u hu => hu.setScheme _

theorem drives_resume (fs : Fields) (s : State) : (resumeAnswer fs s).Drives := by
  simp only [resumeAnswer, Answer.drives_check]
  exact fun _ _ _ b u hu => hu.resumeMachine

theorem drives_restart (fs : Fields) (s : State) : (restartAnswer fs s).Drives := by
  simp only [restartAnswer, Answer.drives_check]
  exact fun _ b u hu => hu.restartMachine

/-! ### Taking a request -/

/-- Every request keeps the bounds of the pumps and the lending. -/
theorem drives_verb (fs : Fields) (s : State) : ∀ x ∈ verbTable, (x.2 fs s).Drives := by
  simp only [verbTable, List.forall_mem_append, List.forall_mem_cons, List.not_mem_nil, false_imp_iff, implies_true,
    and_true]
  refine ⟨⟨⟨⟨drives_cset fs s, drives_quiet fs s, drives_canout fs s, ?_, drives_quiet fs s, ?_, drives_quiet fs s,
      drives_quiet fs s, ?_, drives_quiet fs s, drives_quiet fs s, ?_, drives_quiet fs s, drives_quiet fs s⟩,
    ?_, ?_, drives_quiet fs s, (leavesDrive_hold fs s).drives, drives_quiet fs s, (leavesDrive_cancel fs s).drives, ?_, ?_,
      ?_, drives_scheme fs s, ?_, drives_quiet fs s, drives_quiet fs s, drives_quiet fs s, ?_, ?_⟩,
    drives_quiet fs s, (leavesDrive_confirm fs s).drives, drives_quiet fs s, ?_, ?_, ?_, drives_quiet fs s,
      drives_quiet fs s, ?_, ?_, ?_, ?_, drives_quiet fs s, drives_quiet fs s, drives_quiet fs s, drives_quiet fs s, ?_⟩,
    drives_quiet fs s, drives_quiet fs s, ?_, drives_resume fs s, drives_restart fs s, ?_⟩
  all_goals exact drives_report fs s

theorem drives_message (chars : List RxChar) (s : State) : (messageAnswer chars s).Drives := by
  unfold messageAnswer
  dsimp only
  split
  · trivial
  · split
    · trivial
    · split
      · trivial
      · split
        · trivial
        · split
          · trivial
          · split
            · trivial
            · rename_i e
              exact drives_verb _ s _ (List.mem_of_find?_eq_some e)

theorem Driven.give (h : Driven b s) (place : Bool) (ha : a.Drives) : Driven b (s.give place a) := by
  have hp (r : Reply) : Driven b (s.pushReply place r) := h.of
  cases a with
  | refuse x => exact hp _
  | report items => exact hp _
  | accept items f => exact Driven.conclude (ha b _ (hp _)) s

theorem Driven.takeEntry (h : Driven b s) : Driven b s.takeEntry := by
  have h1 (f : List InEntry → List InEntry) : Driven b (s.setInputs f) := h.of rfl
  unfold State.takeEntry
  split
  · exact (h1 _).give true (drives_message _ _)
  · exact h.of rfl
  · exact h

theorem Driven.takeEntries (h : Driven b s) : Driven b s.takeEntries := h.takeEntry.takeEntry.takeEntry.takeEntry

theorem Driven.received (h : Driven b s) (chars : List RxChar) : Driven b (s.received chars) := by
  have h1 (f : List InEntry → List InEntry) : Driven b (s.setInputs f) := h.of rfl
  exact h.when (h1 _).takeEntries

theorem Driven.lineSent (h : Driven b s) : Driven b s.lineSent := by
  have h1 : Driven b { s with link := s.link.freePlace.sendNext } := h.of rfl
  unfold State.lineSent
  split
  · exact h
  · exact h1.takeEntries
  · exact h.of rfl

/-! ### Every command -/

/-- What a command leaves is driven from s. -/
def DrivenIn (s : State) (x : Host.Outcome State Fault Refusal) : Prop := ∀ t, x = .next t → Driven s t

theorem drivenIn_next (h : Driven s t) : DrivenIn s (.next t) := by
  rintro u ⟨⟩
  exact h

variable {f : State → State} {g : Inputs → Inputs}

theorem drivenIn_powered (hf : Driven s (f s)) : DrivenIn s (whenPowered f s) := by
  unfold whenPowered
  split
  · exact drivenIn_next hf
  · exact drivenIn_next (.refl s)

theorem drivenIn_event (hf : Driven s (f s)) : DrivenIn s (event f s) := drivenIn_powered (f := State.after f) (hf.conclude s)

/-- An event whose change leaves the Drive Frame. -/
theorem drivenIn_quietEvent (hf : (f s).drive = s.drive := by simp) : DrivenIn s (event f s) :=
  drivenIn_event ((Driven.refl s).of hf)

theorem drivenIn_withInput (hf : ∀ u, Driven s u → Driven s (f u)) : DrivenIn s (withInput g f s) := by
  have h1 : Driven s { s with inp := g s.inp } := (Driven.refl s).of rfl
  unfold Machine.withInput
  dsimp only
  split
  · exact drivenIn_next (hf _ h1)
  · exact drivenIn_next h1

theorem drivenIn_inputEvent (hf : ∀ u, Driven s u → Driven s (f u)) : DrivenIn s (inputEvent g f s) :=
  drivenIn_withInput (f := State.after f) fun u hu => (hf u hu).conclude u

theorem drivenIn_quietInput (hf : ∀ u, (f u).drive = u.drive := by simp) : DrivenIn s (Machine.inputEvent g f s) :=
  drivenIn_inputEvent fun u hu => hu.of (hf u)

theorem drivenIn_request (a : Fields → State → Answer) (fs : Fields)
    (ha : a ∈ verbTable.map (·.2) := by
      simp only [verbTable, List.map_append, List.map_cons, List.mem_append, List.mem_cons, true_or, or_true]) :
    DrivenIn s (request (a fs) s) := by
  obtain ⟨x, hx, rfl⟩ := List.mem_map.mp ha
  exact drivenIn_powered ((Driven.refl s).give false (drives_verb fs s x hx))

/-- Every command but FRAME_START, POWER_ON and POWER_LOSS keeps the bounds of the pumps and the lending. -/
theorem drivenIn_exec (i : Instr) (hframe : i ≠ .frameStart) (hon : ∀ d, i ≠ .powerOn d) (hoff : i ≠ .powerLoss) :
    DrivenIn s (exec i s) := by
  have h := Driven.refl s
  cases i with
  | powerOn d => exact absurd rfl (hon d)
  | powerLoss => exact absurd rfl hoff
  | frameStart => exact absurd rfl hframe
  | stopInputActive => exact show DrivenIn s (execStopInputActive s) from drivenIn_inputEvent fun _ hu => hu.stopMachine
  | stopInputReleased => exact show DrivenIn s (execStopInputReleased s) from drivenIn_withInput fun _ hu => hu
  | baySwitchChange c closed =>
    exact show DrivenIn s (execBaySwitchChange c closed s) from drivenIn_inputEvent fun _ hu => hu.bayChanged c
  | slot => exact show DrivenIn s (execSlot s) from drivenIn_powered h.nextSlot
  | burstComplete c => exact show DrivenIn s (execBurstComplete c s) from drivenIn_event (h.burstComplete c)
  | burstStall c => exact show DrivenIn s (execBurstStall c s) from drivenIn_event (h.burstStall c)
  | burstTimeout c => exact show DrivenIn s (execBurstTimeout c s) from drivenIn_event (h.burstTimeout c)
  | storeWriteEnd => exact show DrivenIn s (execStoreWriteEnd s) from drivenIn_powered h.of
  | capMotionEnd => exact show DrivenIn s (execCapMotionEnd s) from drivenIn_event h.capEnds
  | stirEnd c => exact show DrivenIn s (execStirEnd c s) from drivenIn_event (h.stirEnds c)
  | addrAck => exact show DrivenIn s (execAddrAck s) from drivenIn_event h.addressAcked
  | addrNak => exact show DrivenIn s (execAddrNak s) from drivenIn_event h.addressNaked
  | byteNak => exact show DrivenIn s (execByteNak s) from drivenIn_event h.byteNaked
  | lost => exact show DrivenIn s (execLost s) from drivenIn_event h.arbitrationLost
  | lineError => exact show DrivenIn s (execLineError s) from drivenIn_event h.lineBroken
  | stopSent => exact show DrivenIn s (execStopSent s) from drivenIn_event h.stopEnded
  | tagWriteTimeout => exact show DrivenIn s (execTagWriteTimeout s) from drivenIn_event h.pollTimeout
  | busWait => exact show DrivenIn s (execBusWait s) from drivenIn_event h.busWaited
  | messageFirstCharacter => exact show DrivenIn s (execMessageFirstCharacter s) from drivenIn_powered h.of
  | messageDiscarded => exact show DrivenIn s (execMessageDiscarded s) from drivenIn_powered h.of
  | messageReceived chars => exact show DrivenIn s (execMessageReceived chars s) from drivenIn_powered (h.received chars)
  | lineSent => exact show DrivenIn s (execLineSent s) from drivenIn_powered h.lineSent
  | settleEnd reading => exact show DrivenIn s (execSettleEnd reading s) from drivenIn_quietInput
  | headTaken => exact show DrivenIn s (execHeadTaken s) from drivenIn_quietInput
  | placeSensorChange x => exact show DrivenIn s (execPlaceSensorChange x s) from drivenIn_quietInput
  | lidSensorChange m lids =>
    exact show DrivenIn s (execLidSensorChange m lids s) from drivenIn_quietInput fun u => by split <;> simp
  | arrival dest marks => exact show DrivenIn s (execArrival dest marks s) from drivenIn_quietInput
  | zoneDisagreement zone tin => exact show DrivenIn s (execZoneDisagreement zone tin s) from drivenIn_quietInput
  | cradleDisagreement m tin => exact show DrivenIn s (execCradleDisagreement m tin s) from drivenIn_quietInput
  | pressCycleEnd seated => exact show DrivenIn s (execPressCycleEnd seated s) from drivenIn_quietInput
  | guardOpen => exact show DrivenIn s (execGuardOpen s) from drivenIn_quietInput
  | guardClose => exact show DrivenIn s (execGuardClose s) from drivenIn_quietInput
  | doorOpen m => exact show DrivenIn s (execDoorOpen m s) from drivenIn_quietInput
  | doorClose m => exact show DrivenIn s (execDoorClose m s) from drivenIn_quietInput
  | closingDelayExpiry => exact show DrivenIn s (execClosingDelayExpiry s) from drivenIn_quietEvent
  | jam dest => exact show DrivenIn s (execJam dest s) from drivenIn_quietEvent
  | clampEnd m => exact show DrivenIn s (execClampEnd m s) from drivenIn_quietEvent
  | mixEnd m => exact show DrivenIn s (execMixEnd m s) from drivenIn_quietEvent
  | brakeEnd m => exact show DrivenIn s (execBrakeEnd m s) from drivenIn_quietEvent
  | unclampEnd m => exact show DrivenIn s (execUnclampEnd m s) from drivenIn_quietEvent
  | stirBoundary => exact show DrivenIn s (execStirBoundary s) from drivenIn_quietEvent
  | siteMinute => exact show DrivenIn s (execSiteMinute s) from drivenIn_quietEvent
  | purgeIntervalElapsed c => exact show DrivenIn s (execPurgeIntervalElapsed c s) from drivenIn_quietEvent
  | startConditionSeen => exact show DrivenIn s (execStartConditionSeen s) from drivenIn_quietEvent
  | stopConditionSeen => exact show DrivenIn s (execStopConditionSeen s) from drivenIn_quietEvent
  | busLinesHigh => exact show DrivenIn s (execBusLinesHigh s) from drivenIn_quietEvent
  | taken => exact show DrivenIn s (execTaken s) from drivenIn_quietEvent
  | byteAck data => exact show DrivenIn s (execByteAck data s) from drivenIn_quietEvent
  | pollInterval => exact show DrivenIn s (execPollInterval s) from drivenIn_quietEvent
  | _ fs => exact drivenIn_request _ fs

/-! ### Every step -/

/-- A command that the part takes only while it is powered. -/
theorem whenPowered_next (e : whenPowered f s = .next t) : t = f s ∨ t = s := by
  unfold whenPowered at e
  split at e
  · exact .inl (Host.Outcome.next.inj e).symm
  · exact .inr (Host.Outcome.next.inj e).symm

theorem pumpInv_frameStart (h : PumpInv s) (e : execFrameStart s = .next t) : PumpInv t := by
  rcases whenPowered_next (f := State.beginFrame) e with rfl | rfl
  · exact fun c => h c
  · exact h

theorem pumpInv_powerLoss (h : PumpInv s) (e : execPowerLoss s = .next t) : PumpInv t := by
  rcases whenPowered_next (f := State.powerLost) e with rfl | rfl
  · exact pumpInv_powerLost s
  · exact h

theorem pumpInv_execPowerOn (d : List RecordName) (e : execPowerOn d s = .next t) : PumpInv t := by
  obtain rfl := Host.Outcome.next.inj e
  exact ((Driven.refl _).conclude s).pumps (pumpInv_powerOn s d)

/-- Every command keeps the bounds of the pumps. -/
theorem pumpInv_exec (i : Instr) (h : PumpInv s) (e : exec i s = .next t) : PumpInv t := by
  by_cases hframe : i = .frameStart
  · subst hframe
    exact pumpInv_frameStart h e
  by_cases hon : ∃ d, i = .powerOn d
  · obtain ⟨d, rfl⟩ := hon
    exact pumpInv_execPowerOn d e
  by_cases hoff : i = .powerLoss
  · subst hoff
    exact pumpInv_powerLoss h e
  exact (drivenIn_exec i hframe (not_exists.mp hon) hoff t e).pumps h

/-- Settles O12: each change of a pump keeps it to its bounds, and each command changes the pumps by those alone. -/
theorem stepKeepsPumps : Obligations.StepKeepsPumps := by
  unfold Obligations.StepKeepsPumps
  intro s t h e
  unfold Machine.step at e
  split at e
  · obtain rfl := Host.Outcome.next.inj e
    exact fun c => h c
  · rename_i i rest _
    have h1 : PumpInv { s with pending := rest } := fun c => h c
    exact pumpInv_exec i h1 e

end Sys2Proof.Machine
end

