-- ==== Sys2Proof/Proofs/Lending.lean ====
section
/-! O32 and O36: a frame start lends the spare slots, and SCHEME waits for it (R91, R92). -/

namespace Sys2Proof.Machine

set_option Elab.async false

variable {s t : State} {c d : Circ} {m : Scheme} {fs : Fields}

/-! ### The rank of a dose -/

/-- The dose x ranks before the dose y: more steps to go, or as many and a lower circuit. -/
def ranksBefore (x y : Nat × Circ) : Bool := decide (y.1 < x.1) || (y.1 == x.1 && decide (x.2.val < y.2.val))

theorem ranksBefore_iff {x y : Nat × Circ} : ranksBefore x y = true ↔ y.1 < x.1 ∨ (y.1 = x.1 ∧ x.2.val < y.2.val) := by
  simp [ranksBefore]

theorem ranksBefore_irrefl (x : Nat × Circ) : ranksBefore x x = false := by simp [ranksBefore]

theorem ranksBefore_trans {x y z : Nat × Circ} (h : ranksBefore x y = true) (k : ranksBefore y z = true) :
    ranksBefore x z = true := by
  rw [ranksBefore_iff] at *
  omega

theorem ranksBefore_asymm {x y : Nat × Circ} (h : ranksBefore x y = true) : ranksBefore y x = false :=
  Bool.eq_false_iff.mpr fun k => by simpa [ranksBefore_irrefl] using ranksBefore_trans h k

/-- Two doses of different circuits are ranked. -/
theorem ranksBefore_total {x y : Nat × Circ} (hne : x.2 ≠ y.2) (h : ranksBefore x y = false) : ranksBefore y x = true := by
  have hv : x.2.val ≠ y.2.val := Fin.val_ne_of_ne hne
  rw [← Bool.not_eq_true, ranksBefore_iff] at h
  rw [ranksBefore_iff]
  omega

theorem insertRanked_cons (x y : Nat × Circ) (l : List (Nat × Circ)) :
    insertRanked x (y :: l) = if ranksBefore x y then x :: y :: l else y :: insertRanked x l := rfl

theorem insertRanked_perm (x : Nat × Circ) (l : List (Nat × Circ)) : (insertRanked x l).Perm (x :: l) := by
  induction l with
  | nil => rfl
  | cons y l ih =>
    rw [insertRanked_cons]
    split
    · rfl
    · exact (ih.cons y).trans (.swap x y l)

theorem insertRanked_ranked {x : Nat × Circ} {l : List (Nat × Circ)} (hl : l.Pairwise (ranksBefore · ·))
    (hx : ∀ y ∈ l, x.2 ≠ y.2) : (insertRanked x l).Pairwise (ranksBefore · ·) := by
  induction l with
  | nil => exact List.pairwise_singleton _ _
  | cons y l ih =>
    obtain ⟨hy, hrest⟩ := List.pairwise_cons.mp hl
    rw [insertRanked_cons]
    split
    · rename_i hxy
      refine List.pairwise_cons.mpr ⟨fun z hz => ?_, hl⟩
      rcases List.mem_cons.mp hz with rfl | hz
      · exact hxy
      · exact ranksBefore_trans hxy (hy z hz)
    · rename_i hxy
      refine List.pairwise_cons.mpr ⟨fun z hz => ?_, ih hrest fun z hz => hx z (List.mem_cons_of_mem y hz)⟩
      rcases List.mem_cons.mp ((insertRanked_perm x l).mem_iff.mp hz) with rfl | hz
      · exact ranksBefore_total (hx y List.mem_cons_self) (Bool.eq_false_iff.mpr hxy)
      · exact hy z hz

/-- The place of an element in a ranked list is the number of those that rank before it. -/
theorem getElem?_of_ranked {l : List (Nat × Circ)} (hl : l.Pairwise (ranksBefore · ·)) (n : Nat) (x : Nat × Circ) :
    l[n]? = some x ↔ x ∈ l ∧ (l.filter (ranksBefore · x)).length = n := by
  induction l generalizing n with
  | nil => simp
  | cons y l ih =>
    obtain ⟨hy, hrest⟩ := List.pairwise_cons.mp hl
    by_cases hx : x ∈ l
    · have hyx : ranksBefore y x = true := hy x hx
      have hne : y ≠ x := fun e => by simp [e, ranksBefore_irrefl] at hyx
      cases n with
      | zero => simp [hyx, hne]
      | succ n => simp [ih hrest, hx, hyx]
    · by_cases hyx : y = x
      · subst hyx
        have hnone : l.filter (ranksBefore · y) = [] :=
          List.filter_eq_nil_iff.mpr fun z hz => by simp [ranksBefore_asymm (hy z hz)]
        cases n with
        | zero => simp [ranksBefore_irrefl, hnone]
        | succ n => simp [ranksBefore_irrefl, hnone, ih hrest, hx]
      · cases n with
        | zero => simp [hyx, hx, Ne.symm hyx]
        | succ n => simp [ih hrest, hx, Ne.symm hyx]

/-! ### The ranked doses of a frame start -/

/-- The doses that are inserted for the circuits of a list, over those ranked before. -/
def rankAll (d : Drive) (cs : List Circ) : List (Nat × Circ) :=
  cs.foldl (fun acc c => insertRanked (d.pumps[c].remaining, c) acc) []

theorem foldl_insertRanked (d : Drive) (cs : List Circ) (acc : List (Nat × Circ)) :
    (cs.foldl (fun acc c => insertRanked (d.pumps[c].remaining, c) acc) acc).Perm
      (cs.map (fun c => (d.pumps[c].remaining, c)) ++ acc) := by
  induction cs generalizing acc with
  | nil => rfl
  | cons c cs ih => exact (ih _).trans (((insertRanked_perm _ acc).append_left _).trans List.perm_middle)

theorem rankAll_perm (d : Drive) (cs : List Circ) :
    (rankAll d cs).Perm (cs.map fun c => (d.pumps[c].remaining, c)) := by
  simpa [rankAll] using foldl_insertRanked d cs []

theorem rankAll_ranked (d : Drive) {cs : List Circ} (h : cs.Nodup) : (rankAll d cs).Pairwise (ranksBefore · ·) := by
  have hgen (acc : List (Nat × Circ)) (ha : acc.Pairwise (ranksBefore · ·)) (hn : ∀ c ∈ cs, ∀ y ∈ acc, c ≠ y.2) :
      (cs.foldl (fun acc c => insertRanked (d.pumps[c].remaining, c) acc) acc).Pairwise (ranksBefore · ·) := by
    induction cs generalizing acc with
    | nil => exact ha
    | cons c cs ih =>
      obtain ⟨hc, hcs⟩ := List.nodup_cons.mp h
      refine ih hcs _ (insertRanked_ranked ha (hn c List.mem_cons_self)) fun e he y hy => ?_
      rcases List.mem_cons.mp ((insertRanked_perm _ acc).mem_iff.mp hy) with rfl | hy
      · exact fun hec : e = c => hc (hec ▸ he)
      · exact hn e (List.mem_cons_of_mem c he) y hy
  exact hgen [] List.Pairwise.nil nofun

/-- The doses that take part in the lending. -/
def Drive.lendables (d : Drive) : List Circ := allCircuits.filter fun c => d.pumps[c].lendable

theorem lendables_nodup (d : Drive) : d.lendables.Nodup := (List.nodup_finRange 24).filter _

theorem mem_lendables {e : Drive} : c ∈ e.lendables ↔ e.pumps[c].lendable = true := by
  simp [Drive.lendables, allCircuits]

theorem ranked_eq (d : Drive) : d.ranked = (rankAll d d.lendables).map (·.2) := rfl

theorem mem_rankAll {e : Drive} {cs : List Circ} {x : Nat × Circ} (h : x ∈ rankAll e cs) :
    x.2 ∈ cs ∧ x = (e.pumps[x.2].remaining, x.2) := by
  obtain ⟨y, hy, rfl⟩ := List.mem_map.mp ((rankAll_perm e cs).mem_iff.mp h)
  exact ⟨hy, rfl⟩

theorem ranked_nodup (d : Drive) : d.ranked.Nodup := by
  refine List.pairwise_map.mpr ((rankAll_ranked d (lendables_nodup d)).imp_of_mem fun {x y} hx hy h e => ?_)
  obtain ⟨-, ex⟩ := mem_rankAll hx
  obtain ⟨-, ey⟩ := mem_rankAll hy
  have hxy : x = y := ex.trans ((congrArg (fun c => (d.pumps[c].remaining, c)) e).trans ey.symm)
  rw [hxy, ranksBefore_irrefl] at h
  cases h

theorem ranked_getElem? {e : Drive} {r : Nat} :
    e.ranked[r]? = some c ↔ (rankAll e e.lendables)[r]? = some (e.pumps[c].remaining, c) := by
  rw [ranked_eq, List.getElem?_map, Option.map_eq_some_iff]
  constructor
  · rintro ⟨x, hx, rfl⟩
    rw [hx, ← (mem_rankAll (List.mem_of_getElem? hx)).2]
  · exact fun h => ⟨_, h, rfl⟩

/-- How many of the doses that take part rank before the dose of circuit c. -/
def Drive.rankOf (d : Drive) (c : Circ) : Nat :=
  (d.lendables.filter fun e => ranksBefore (d.pumps[e].remaining, e) (d.pumps[c].remaining, c)).length

/-- The dose of circuit c stands at the place of its rank. -/
theorem ranked_at_iff {e : Drive} {r : Nat} :
    e.ranked[r]? = some c ↔ e.pumps[c].lendable = true ∧ e.rankOf c = r := by
  have hperm := rankAll_perm e e.lendables
  have hmem : (e.pumps[c].remaining, c) ∈ rankAll e e.lendables ↔ e.pumps[c].lendable = true := by
    rw [hperm.mem_iff, ← mem_lendables]
    simp
  have hcount : ((rankAll e e.lendables).filter (ranksBefore · (e.pumps[c].remaining, c))).length = e.rankOf c := by
    rw [(hperm.filter _).length_eq, List.filter_map, List.length_map]
    rfl
  rw [ranked_getElem?, getElem?_of_ranked (rankAll_ranked e (lendables_nodup e)), hmem, hcount]

/-- A dose at a lower place ranks before. -/
theorem ranksBefore_of_ranked {e : Drive} {i j : Nat} (hi : e.ranked[i]? = some c) (hj : e.ranked[j]? = some d)
    (h : i < j) : ranksBefore (e.pumps[c].remaining, c) (e.pumps[d].remaining, d) = true := by
  obtain ⟨hil, hi⟩ := List.getElem?_eq_some_iff.mp (ranked_getElem?.mp hi)
  obtain ⟨hjl, hj⟩ := List.getElem?_eq_some_iff.mp (ranked_getElem?.mp hj)
  have := List.pairwise_iff_getElem.mp (rankAll_ranked e (lendables_nodup e)) i j hil hjl h
  rwa [hi, hj] at this

/-! ### Handing out -/

/-- The dose at place r takes the spare slots at the places 2r and 2r + 1. -/
theorem mem_handOut {spares : List Nat} (he : 2 ∣ spares.length) {cs : List Circ} {k : Nat} :
    (k, c) ∈ handOut spares cs ↔
      ∃ r, cs[r]? = some c ∧ (spares[2 * r]? = some k ∨ spares[2 * r + 1]? = some k) := by
  induction cs generalizing spares with
  | nil => simp [handOut]
  | cons x cs ih =>
    match spares, he with
    | [], _ => simp [handOut]
    | [a], he => exact absurd (Nat.dvd_one.mp he) (by decide)
    | a :: b :: rest, he =>
      have hrest : 2 ∣ rest.length := (Nat.dvd_add_left (Nat.dvd_refl 2)).mp he
      have hzero : ((k, c) = (a, x) ∨ (k, c) = (b, x)) ↔ x = c ∧ (a = k ∨ b = k) := by
        simp only [Prod.mk.injEq, eq_comm (a := k), eq_comm (a := c)]
        tauto
      simp only [handOut, List.mem_cons, ← or_assoc, hzero, ih hrest]
      constructor
      · rintro (⟨rfl, h⟩ | ⟨r, hr, h⟩)
        · exact ⟨0, rfl, by simpa using h⟩
        · exact ⟨r + 1, hr, h⟩
      · rintro ⟨_ | r, hr, h⟩
        · exact .inl ⟨by simpa using hr, by simpa using h⟩
        · exact .inr ⟨r, hr, h⟩

theorem handOut_slots (spares : List Nat) (cs : List Circ) : ((handOut spares cs).map (·.1)).IsPrefix spares := by
  induction cs generalizing spares with
  | nil => simp [handOut]
  | cons x cs ih =>
    match spares with
    | [] => simp [handOut]
    | [a] => simp [handOut]
    | a :: b :: rest => simpa [handOut] using ih rest

/-- The slots that are handed to circuit c. -/
def handedTo (c : Circ) (l : List (Nat × Circ)) : Nat := (l.filter fun x => x.2 == c).length

theorem handedTo_none {spares : List Nat} {cs : List Circ} (h : c ∉ cs) : handedTo c (handOut spares cs) = 0 := by
  induction cs generalizing spares with
  | nil => simp [handOut, handedTo]
  | cons x cs ih =>
    obtain ⟨hx, hcs⟩ := not_or.mp (mt List.mem_cons.mpr h)
    match spares with
    | [] => simp [handOut, handedTo]
    | [a] => simp [handOut, handedTo]
    | a :: b :: rest => simpa [handOut, handedTo, Ne.symm hx] using ih (spares := rest) hcs

theorem handedTo_at {spares : List Nat} {cs : List Circ} {r : Nat} (hn : cs.Nodup) (h : cs[r]? = some c) :
    handedTo c (handOut spares cs) = if 2 * r + 1 < spares.length then 2 else 0 := by
  induction cs generalizing spares r with
  | nil => simp at h
  | cons x cs ih =>
    obtain ⟨hx, hcs⟩ := List.nodup_cons.mp hn
    match spares with
    | [] => simp [handOut, handedTo]
    | [a] => simp [handOut, handedTo]
    | a :: b :: rest =>
      cases r with
      | zero =>
        obtain rfl : x = c := by simpa using h
        have h0 := handedTo_none (spares := rest) hx
        simp only [handedTo] at h0 ⊢
        simp [handOut, h0]
      | succ r =>
        have hr : cs[r]? = some c := h
        have hxc : x ≠ c := fun e => hx (e ▸ List.mem_of_getElem? hr)
        have h1 := ih (spares := rest) hcs hr
        simp only [handedTo] at h1 ⊢
        simp only [handOut, List.filter_cons, beq_eq_false_iff_ne.mpr hxc, Bool.false_eq_true, if_false, h1, List.length_cons]
        congr 1
        simp only [eq_iff_iff]
        omega

/-! ### A frame start -/

/-- The scheme in force in the next frame. -/
def Drive.schemeNext (d : Drive) : Scheme := d.nextScheme.getD d.scheme

theorem exec_frameStart (h : s.powered = true) : exec .frameStart s = .next s.beginFrame :=
  whenPowered_on State.beginFrame h

theorem beginFrame_lent (s : State) : s.beginFrame.drive.lent = handOut (spareSlots s.drive.schemeNext) s.drive.ranked := rfl

theorem beginFrame_now (s : State) : s.beginFrame.now = max s.now (s.drive.frameStart + 20000) := rfl

theorem beginFrame_drive (s : State) : s.beginFrame.drive = { s.drive with
    scheme := s.drive.schemeNext, nextScheme := none, slot := 0, frameStart := s.beginFrame.now
    lent := s.beginFrame.drive.lent, forfeit := Vector.replicate 24 false } := rfl

theorem beginFrame_unchanged (s : State) : Unchanged [.now, .drive] s s.beginFrame := by
  refine ⟨rfl, rfl, fun p hp => ?_⟩
  cases p <;> simp [Part.same, State.beginFrame] at hp ⊢

theorem spareSlots_even (m : Scheme) : 2 ∣ (spareSlots m).length := by
  cases m <;> decide

theorem spareSlots_ascend (m : Scheme) : (spareSlots m).Pairwise (· < ·) := by
  cases m <;> decide

theorem lendable_iff (p : Pump) : p.lendable = true ↔ p.burst = none
    ∧ ∃ a, p.activity = some a ∧ a.kind = .dose ∧ a.run = .running ∧ a.phase = .deliver := by
  unfold Pump.lendable
  cases p.activity <;> cases p.burst <;> simp [and_assoc]

theorem lentTo_lendable (h : (s.pump c).lendable = true) :
    s.beginFrame.drive.lentTo c = if 2 * s.drive.rankOf c + 1 < (spareSlots s.drive.schemeNext).length then 2 else 0 :=
  handedTo_at (ranked_nodup s.drive) (ranked_at_iff.mpr ⟨h, rfl⟩)

theorem lentTo_not_lendable (h : (s.pump c).lendable = false) : s.beginFrame.drive.lentTo c = 0 := by
  refine handedTo_none fun hc => ?_
  obtain ⟨r, hr⟩ := List.mem_iff_getElem?.mp hc
  exact Bool.false_ne_true (h.symm.trans (ranked_at_iff.mp hr).1)

theorem lentTo_zero_or_two (s : State) (c : Circ) : s.beginFrame.drive.lentTo c = 0 ∨ s.beginFrame.drive.lentTo c = 2 := by
  cases h : (s.pump c).lendable
  · exact .inl (lentTo_not_lendable h)
  · rw [lentTo_lendable h]
    split
    · exact .inr rfl
    · exact .inl rfl

/-- A dose that gets slots ranks before one that gets none. -/
theorem ranksBefore_of_lent (hc : s.beginFrame.drive.lentTo c = 2) (hd : s.beginFrame.drive.lentTo d = 0)
    (hl : (s.pump d).lendable = true) :
    ranksBefore ((s.pump c).remaining, c) ((s.pump d).remaining, d) = true := by
  have hlc : (s.pump c).lendable = true := by
    by_contra h
    rw [lentTo_not_lendable (Bool.eq_false_iff.mpr h)] at hc
    cases hc
  rw [lentTo_lendable hlc] at hc
  rw [lentTo_lendable hl] at hd
  refine ranksBefore_of_ranked (ranked_at_iff.mpr ⟨hlc, rfl⟩) (ranked_at_iff.mpr ⟨hl, rfl⟩) ?_
  split at hc
  · split at hd
    · cases hd
    · omega
  · cases hc

/-- The rank as the doses that take part are counted. -/
theorem rankOf_eq (s : State) (c : Circ) : s.drive.rankOf c = (allCircuits.filter fun d => (s.pump d).lendable
    && ((s.pump c).remaining < (s.pump d).remaining
      || ((s.pump d).remaining == (s.pump c).remaining && d < c))).length := by
  rw [Drive.rankOf, Drive.lendables, List.filter_filter]
  congr 2
  funext d
  rw [Bool.and_comm, ranksBefore, Bool.beq_comm]
  rfl

/-- Settles O32: the ranked doses are those the counts of the statement order, and the spare slots go to them in pairs; no
other command touches the lending. -/
theorem frameLendsSpareSlots : Obligations.FrameLendsSpareSlots := by
  unfold Obligations.FrameLendsSpareSlots
  refine ⟨fun s hp => ⟨_, exec_frameStart hp, fun k c => ?_, ?_, fun x hx => ?_, lentTo_zero_or_two s, fun c d hc hd hl => ?_⟩,
    lendable_iff, fun p a ha => by simp [Pump.remaining, ha], spareSlots_ascend, rfl, rfl,
    fun i s t hframe hon hoff e => (drivenIn_exec i hframe hon hoff t e).lent⟩
  · dsimp only
    rw [beginFrame_lent, mem_handOut (spareSlots_even _), ← rankOf_eq]
    constructor
    · rintro ⟨r, hr, hk⟩
      obtain ⟨hl, rfl⟩ := ranked_at_iff.mp hr
      exact ⟨hl, hk⟩
    · rintro ⟨hl, hk⟩
      exact ⟨_, ranked_at_iff.mpr ⟨hl, rfl⟩, hk⟩
  · rw [beginFrame_lent]
    exact ((spareSlots_ascend _).imp Nat.ne_of_lt).sublist (handOut_slots _ _).sublist
  · rw [beginFrame_lent] at hx
    exact (handOut_slots _ _).subset (List.mem_map_of_mem hx)
  · have h := ranksBefore_iff.mp (ranksBefore_of_lent hc hd hl)
    exact h

/-! ### SCHEME (R91) -/

theorem anyPumpBusy_iff : s.anyPumpBusy = true ↔ ∃ c, (s.pump c).activity ≠ none ∨ (s.pump c).next ≠ none := by
  simp [State.anyPumpBusy, allCircuits, Option.isSome_iff_ne_none]

theorem setScheme_pushReply (s : State) (p : Bool) (x : Reply) (m : Scheme) : (s.pushReply p x).setScheme m
    = { s.pushReply p x with
        drive := { s.drive with nextScheme := some m }
        store := { s.store with fifo := s.store.fifo ++ [.scheme m] } } := rfl

theorem schemeAnswer_named (hm : fs.malformed ["mode"] [] [] = false) (h : (fs.get "mode").bind (named? schemeTable) = some m) :
    schemeAnswer fs s = .check (s.anyPumpBusy || !s.linkRoom 1) .busy (.accept [] fun u => u.setScheme m) := by
  obtain ⟨v, hv, hn⟩ := Option.bind_eq_some_iff.mp h
  simp only [schemeAnswer, hm, hv, hn, Answer.check_false]

/-- Settles O36: SCHEME's one check is that of the pumps and the link-write FIFO, and a frame start changes the clock and the
Drive Frame alone. -/
theorem schemeWaitsForFrame : Obligations.SchemeWaitsForFrame := by
  unfold Obligations.SchemeWaitsForFrame
  refine ⟨fun s fs m hp hm hv => ?_, fun s hp => ⟨_, exec_frameStart hp, beginFrame_now s, beginFrame_drive s, beginFrame_unchanged s⟩⟩
  have ha := schemeAnswer_named (s := s) hm hv
  refine ⟨fun h => request_refused hp (ha.trans ?_), fun hidle hroom => ?_⟩
  · have hbusy : (s.anyPumpBusy || !s.linkRoom 1) = true := by
      rcases h with h | h
      · rw [anyPumpBusy_iff.mpr h, Bool.true_or]
      · have hfull : s.linkRoom 1 = false := Bool.eq_false_iff.mpr fun e => by
          have := linkRoom_eq_true.mp e
          omega
        rw [hfull, Bool.not_false, Bool.or_true]
    rw [hbusy, Answer.check_true]
  · have hfree : (s.anyPumpBusy || !s.linkRoom 1) = false := by
      have hquiet : s.anyPumpBusy = false := Bool.eq_false_iff.mpr fun e => by
        obtain ⟨c, hc⟩ := anyPumpBusy_iff.mp e
        exact hc.elim (· (hidle c).1) (· (hidle c).2)
      rw [hquiet, linkRoom_one hroom]
      rfl
    rw [hfree, Answer.check_false] at ha
    show request (schemeAnswer fs) s = _
    rw [request_accepted hp ha, setScheme_pushReply]

end Sys2Proof.Machine
end

