-- ==== Sys2Proof/Proofs/Slots.lean ====
section
/-! O33: the slot map of the schemes, and the burst that a slot grants (R90, R93, R96). -/

namespace Sys2Proof.Machine

set_option Elab.async false

variable {s : State} {c : Circ} {m : Scheme} {k : Nat} {a : Activity}

/-! ### The slot map (R90) -/

theorem ownSlot_lt (m : Scheme) (c : Circ) : ownSlot m c < 32 := by
  cases m with
  | continuous => exact Nat.lt_trans (Nat.succ_lt_succ c.isLt) (by decide)
  | spread =>
    simp only [ownSlot]
    omega
  | split =>
    simp only [ownSlot]
    split <;> omega

theorem ownSlot_injective (m : Scheme) {c d : Circ} (h : ownSlot m c = ownSlot m d) : c = d := by
  apply Fin.ext
  cases m with
  | continuous => exact Nat.succ_injective h
  | spread =>
    simp only [ownSlot] at h
    omega
  | split =>
    simp only [ownSlot] at h
    split at h <;> split at h <;> omega

theorem ownSlot_not_spare (m : Scheme) (c : Circ) : ownSlot m c ∉ spareSlots m := by
  intro h
  cases m with
  | continuous =>
    simp only [ownSlot, spareSlots, List.mem_cons, List.not_mem_nil, or_false] at h
    omega
  | spread => cases h
  | split =>
    simp only [ownSlot, spareSlots, List.mem_cons, List.not_mem_nil, or_false] at h
    split at h <;> omega

/-- A slot is owned by the one circuit whose own slot it is. -/
theorem slotOwner_eq_some : slotOwner m k = some c ↔ ownSlot m c = k := by
  constructor
  · intro h
    simpa using List.find?_some h
  · rintro rfl
    have hsome : (slotOwner m (ownSlot m c)).isSome = true :=
      List.find?_isSome.mpr ⟨c, List.mem_finRange c, beq_self_eq_true _⟩
    obtain ⟨d, hd⟩ := Option.isSome_iff_exists.mp hsome
    have hown : ownSlot m d = ownSlot m c := by simpa using List.find?_some hd
    rw [hd, ownSlot_injective m hown]

theorem slotOwner_eq_none : slotOwner m k = none ↔ ∀ c, ownSlot m c ≠ k := by
  simp [slotOwner, allCircuits]

/-- The slots that no circuit owns and that are not spare. -/
def restSlots : Scheme → List Nat
  | .continuous => []
  | .spread => [0, 4, 8, 12, 16, 20, 24, 28]
  | .split => [0, 16]

theorem mem_restSlots : ∀ m, ∀ k < 32, (slotOwner m k = none ∧ k ∉ spareSlots m ↔ k ∈ restSlots m) := by
  intro m
  cases m <;> decide

/-! ### The slot that comes up (R93) -/

/-- The state once slot k has come up, before its burst is granted. -/
def State.slotBegun (s : State) : State :=
  { s with
    now := max s.now (s.drive.frameStart + 625 * s.drive.slot)
    drive := { s.drive with slot := s.drive.slot + 1 } }

theorem exec_slot (h : s.powered = true) : exec .slot s = .next s.nextSlot := whenPowered_on State.nextSlot h

theorem nextSlot_late (h : 32 ≤ s.drive.slot) : s.nextSlot = s := if_neg (Nat.not_lt.mpr h)

theorem nextSlot_begun (h : s.drive.slot < 32) : s.nextSlot = s.slotBegun.serveSlot s.drive.slot := if_pos h

/-- An own slot grants a burst to the activity that can be driven, and drives no pump where there is none. -/
theorem serveSlot_own (h : slotOwner s.drive.scheme k = some c) :
    (∀ a, (s.pump c).drivable = some a → s.serveSlot k = s.grant c a)
      ∧ ((s.pump c).drivable = none → s.serveSlot k = s) := by
  constructor
  · intro a ha
    simp only [State.serveSlot, h, ha]
  · intro ha
    simp only [State.serveSlot, h, ha]

/-- A lent slot grants a burst to the delivery of a dose that has not lost its lent slots. -/
theorem serveSlot_lent {x : Nat × Circ} (h : slotOwner s.drive.scheme k = none)
    (hl : s.drive.lent.find? (fun x => x.1 == k) = some x) :
    (∀ a, (s.pump x.2).drivable = some a → s.serveSlot k
        = if a.kind = .dose ∧ a.phase = .deliver ∧ s.drive.forfeit[x.2] = false then s.grant x.2 a else s)
      ∧ ((s.pump x.2).drivable = none → s.serveSlot k = s) := by
  constructor
  · intro a ha
    simp only [State.serveSlot, h, hl, ha]
  · intro ha
    simp only [State.serveSlot, h, hl, ha]

theorem serveSlot_spare (h : slotOwner s.drive.scheme k = none) (hl : s.drive.lent.find? (fun x => x.1 == k) = none) :
    s.serveSlot k = s := by
  simp only [State.serveSlot, h, hl]

/-- The burst of the running activity of circuit c, where it is granted one at the moment n. -/
def Pump.withBurst (p : Pump) (a : Activity) (n : Nat) : Pump :=
  { p with burst := some ⟨a.phase == .refill, burstSteps a p.piston, n⟩ }

/-- A slot changes the clock, the slot counter and no pump, or that of one circuit. -/
def Served (c : Circ) (s t : State) : Prop :=
  t.now = max s.now (s.drive.frameStart + 625 * s.drive.slot)
    ∧ t.drive = { s.drive with slot := s.drive.slot + 1, pumps := t.drive.pumps }
    ∧ OtherPumps c s t ∧ Unchanged [.now, .drive] s t

theorem served_slotBegun (s : State) (c : Circ) : Served c s s.slotBegun := by
  refine ⟨rfl, rfl, fun d _ => rfl, rfl, rfl, fun p hp => ?_⟩
  cases p <;> simp [Part.same, State.slotBegun] at hp ⊢

theorem served_grant (s : State) (c : Circ) (a : Activity) : Served c s (s.slotBegun.grant c a) := by
  refine ⟨rfl, rfl, fun d hd => setPump_pump_ne _ _ hd, rfl, rfl, fun p hp => ?_⟩
  cases p <;> simp [Part.same, State.slotBegun, State.grant, State.setPump] at hp ⊢

theorem grant_pump (s : State) (c : Circ) (a : Activity) :
    (s.slotBegun.grant c a).pump c = (s.pump c).withBurst a s.slotBegun.now := setPump_pump _ _ _

/-- A circuit's own slot. -/
theorem slot_own (h : s.drive.slot = ownSlot s.drive.scheme c) : Served c s s.nextSlot
    ∧ (∀ a, (s.pump c).drivable = some a → s.nextSlot.pump c = (s.pump c).withBurst a s.nextSlot.now)
    ∧ ((s.pump c).drivable = none → s.nextSlot.pump c = s.pump c) := by
  have hlt : s.drive.slot < 32 := h ▸ ownSlot_lt _ c
  obtain ⟨hsome, hnone⟩ := serveSlot_own (s := s.slotBegun) (slotOwner_eq_some.mpr h.symm)
  rw [nextSlot_begun hlt]
  cases hd : (s.pump c).drivable with
  | none =>
    rw [hnone hd]
    exact ⟨served_slotBegun s c, nofun, fun _ => rfl⟩
  | some a =>
    rw [hsome a hd]
    refine ⟨served_grant s c a, fun x hx => ?_, nofun⟩
    obtain rfl := Option.some.inj hx
    exact grant_pump s c a

/-- A slot that is no circuit's own, and is lent to none. -/
theorem slot_spare (h : s.drive.slot < 32) (ho : ∀ c, s.drive.slot ≠ ownSlot s.drive.scheme c)
    (hl : s.drive.lent.find? (fun x => x.1 == s.drive.slot) = none) : s.nextSlot = s.slotBegun := by
  rw [nextSlot_begun h]
  exact serveSlot_spare (slotOwner_eq_none.mpr fun c => (ho c).symm) hl

/-- A slot that is lent to circuit c. -/
theorem slot_lent (h : s.drive.slot < 32) (ho : ∀ c, s.drive.slot ≠ ownSlot s.drive.scheme c)
    (hl : s.drive.lent.find? (fun x => x.1 == s.drive.slot) = some (s.drive.slot, c)) : Served c s s.nextSlot
    ∧ (∀ a, (s.pump c).drivable = some a → a.kind = .dose → a.phase = .deliver → s.drive.forfeit[c] = false →
        s.nextSlot.pump c = (s.pump c).withBurst a s.nextSlot.now)
    ∧ ((∀ a, (s.pump c).drivable = some a → ¬(a.kind = .dose ∧ a.phase = .deliver ∧ s.drive.forfeit[c] = false)) →
        s.nextSlot.pump c = s.pump c) := by
  obtain ⟨hsome, hnone⟩ := serveSlot_lent (s := s.slotBegun) (slotOwner_eq_none.mpr fun c => (ho c).symm) hl
  rw [nextSlot_begun h]
  cases hd : (s.pump c).drivable with
  | none =>
    rw [hnone hd]
    exact ⟨served_slotBegun s c, nofun, fun _ => rfl⟩
  | some a =>
    rw [hsome a hd]
    by_cases hq : a.kind = .dose ∧ a.phase = .deliver ∧ s.drive.forfeit[c] = false
    · rw [if_pos (show _ ∧ _ ∧ s.slotBegun.drive.forfeit[c] = false from hq)]
      refine ⟨served_grant s c a, fun x hx _ _ _ => ?_, fun hn => absurd hq (hn a rfl)⟩
      obtain rfl := Option.some.inj hx
      exact grant_pump s c a
    · rw [if_neg (show ¬(_ ∧ _ ∧ s.slotBegun.drive.forfeit[c] = false) from hq)]
      refine ⟨served_slotBegun s c, fun x hx hk hph hno => ?_, fun _ => rfl⟩
      obtain rfl := Option.some.inj hx
      exact absurd ⟨hk, hph, hno⟩ hq

/-- The steps of a burst, by phase and position (R96). -/
theorem burstSteps_eq (a : Activity) (x : Piston) : burstSteps a x = match x, a.phase with
    | .known p, .deliver => min 160 (min (a.planned - a.delivered) p)
    | .known p, .refill => min 640 (25600 - p)
    | .unknown stroke, _ => min 640 (25600 - stroke) := by
  unfold burstSteps
  cases x <;> cases a.phase <;> rfl

/-- Settles O33. -/
theorem slotGrantsBurst : Obligations.SlotGrantsBurst := by
  unfold Obligations.SlotGrantsBurst
  refine ⟨fun m c d => ⟨ownSlot_lt m c, ownSlot_not_spare m c, ownSlot_injective m⟩, fun _ => rfl, fun g j c h => ?_,
    fun c => ⟨fun h => ?_, fun h => ?_⟩, rfl, rfl, rfl, fun m k hk => ?_, fun s hp => ⟨fun h => ?_, fun c h => ?_, fun h ho => ?_⟩⟩
  · simp only [circNo, ownSlot] at h ⊢
    omega
  · simp only [circNo, ownSlot] at h ⊢
    rw [if_pos (by omega)]
  · simp only [circNo, ownSlot] at h ⊢
    rw [if_neg (by omega)]
  · rw [← slotOwner_eq_none]
    exact mem_restSlots m k hk
  · rw [exec_slot hp, nextSlot_late h]
  · obtain ⟨⟨hnow, hdrive, hother, hrest⟩, hgrant, hnone⟩ := slot_own h
    refine ⟨_, exec_slot hp, hnow, hdrive, hother, hrest, fun a ha hr hb => ?_, fun hd => hnone (drivable_eq_none.mpr hd)⟩
    rw [hgrant a (drivable_eq_some.mpr ⟨ha, hb, hr⟩), Pump.withBurst, burstSteps_eq] <;> rfl
  · refine ⟨s.nextSlot, exec_slot hp, ?_⟩
    cases hl : s.drive.lent.find? fun x => x.1 == s.drive.slot with
    | none =>
      obtain ⟨hnow, hdrive, -, hrest⟩ := served_slotBegun s 0
      rw [slot_spare h ho hl]
      exact ⟨hnow, hdrive, hrest, fun _ => rfl, nofun⟩
    | some x =>
      obtain ⟨k, d⟩ := x
      obtain rfl : k = s.drive.slot := by simpa using List.find?_some hl
      obtain ⟨⟨hnow, hdrive, hother, hrest⟩, hgrant, hnone⟩ := slot_lent h ho hl
      refine ⟨hnow, hdrive, hrest, fun hno => absurd (List.mem_of_find?_eq_some hl) (hno d), fun c hc => ?_⟩
      obtain rfl : d = c := (Prod.mk.inj (Option.some.inj hc)).2
      refine ⟨hother, fun a p ha hk hr hph hb hf hx => ?_, fun hd => hnone fun a ha hq => ?_⟩
      · have hsteps : burstSteps a (s.pump d).piston = min 160 (min (a.planned - a.delivered) p) := by
          rw [burstSteps_eq, hph, hx]
        rw [hgrant a (drivable_eq_some.mpr ⟨ha, hb, hr⟩) hk hph hf, Pump.withBurst, hsteps, hph]
        rfl
      · obtain ⟨ha, hb, hr⟩ := drivable_eq_some.mp ha
        obtain ⟨hk, hph, hf⟩ := hq
        rcases hd with hd | hd | hd | ⟨y, hy, hd⟩
        · simp [ha] at hd
        · exact hd hb
        · simp [hf] at hd
        · obtain rfl := Option.some.inj (ha.symm.trans hy)
          rcases hd with hd | hd | hd
          · exact hd hk
          · exact hd hr
          · exact hd hph

end Sys2Proof.Machine
end

