-- ==== Sys2Proof/Proofs/RunEndings.lean ====
section
/-! PROOF SUPPORT. The end of a run whatever its cause: what it takes from the level, what it makes of LOW and EMPTY, and what
its owner is told. -/

namespace Sys2Proof.Machine

set_option Elab.async false

variable {c : Circ} {s t u : State} {a : Activity} {w : EndCause}

theorem drive_clearPurgeDue (s : State) (c : Circ) : (s.clearPurgeDue c).drive = s.drive := by
  unfold State.clearPurgeDue
  split <;> rfl

/-! ### An idle pump is told nothing -/

/-- An operation that tells the pump of circuit c at most that its stirrer has stopped leaves the Drive Frame where that pump
is idle. -/
def Rests (c : Circ) (s t : State) : Prop := (s.pump c).activity = none → t.drive = s.drive

theorem Rests.refl (c : Circ) (s : State) : Rests c s s := fun _ => rfl

theorem Rests.of (h : t.drive = s.drive := by simp) : Rests c s t := fun _ => h

theorem Rests.trans (h : Rests c s t) (k : Rests c t u) : Rests c s u := fun hs => by
  have e := h hs
  exact (k (by rw [pump_congr e, hs])).trans e

theorem Rests.when {p : Prop} [Decidable p] (h : Rests c s t) (k : Rests c s u) : Rests c s (if p then t else u) := by
  split
  · exact h
  · exact k

theorem setPump_self {f : Pump → Pump} (h : f (s.pump c) = s.pump c) : s.setPump c f = s := by
  have e : updAt s.drive.pumps c f = s.drive.pumps := by
    rw [updAt_congr (g := id) s.drive.pumps c h]
    unfold updAt
    exact Vector.set_getElem_self _
  simp only [State.setPump, e]

theorem rests_endStir (c : Circ) (s : State) : Rests c s (s.endStir c) := fun h => by
  have hp : (((s.setCircuit c fun r => { r with stir := none })).pump c).activity = none := h
  unfold State.endStir State.setActivity
  rw [setPump_self]
  · rfl
  · rw [hp, Option.map_none, ← hp]

theorem rests_cutStir (c : Circ) (s : State) (back : Bool) : Rests c s (s.cutStir c back) := by
  unfold State.cutStir
  split
  · exact .refl c s
  · exact Rests.when ((rests_endStir c s).trans .of) (rests_endStir c s)

theorem rests_moveCircuit (c : Circ) (s : State) (g : CircuitState) : Rests c s (s.moveCircuit c g) := by
  have h1 : Rests c s (s.setCircuit c fun r => { r with state := g }) := .of
  have hdrop (u : State) : Rests c u (u.dropOutside c g) := by
    unfold State.dropOutside
    exact Rests.when (.of rfl) (.refl c u)
  rcases moveCircuit_cases s c g with hg | ⟨hg, hs⟩ | ⟨hg, hs⟩
  · rw [moveCircuit_serves s c hg]
    exact h1.trans .of
  · rw [moveCircuit_leaves s c hs hg]
    exact h1.trans ((rests_cutStir c _ true).trans (Rests.trans (.of (drive_clearPurgeDue _ c)) (hdrop _)))
  · rw [moveCircuit_outside s c hs hg]
    exact h1.trans (hdrop _)

theorem rests_enterEmpty (c : Circ) (s : State) : Rests c s (s.enterEmpty c) :=
  (rests_moveCircuit c s .empty).trans (.of rfl)

theorem rests_reduceLevel (c : Circ) (s : State) (n : Nat) (t : Int) : Rests c s (s.reduceLevel c n t) := by
  by_cases hn : n = 0
  · rw [hn, reduceLevel_zero]
    exact .refl c s
  · rw [reduceLevel_pos s c t hn]
    exact Rests.trans (.of (by simp)) (Rests.when (rests_enterEmpty c _) (.refl c _))

theorem rests_primeEnded (c : Circ) (s : State) : Rests c s (s.primeEnded c) := by
  have hm : Rests c s (if (s.circuit c).level ≤ (s.circuit c).cfg.reserve then s.enterEmpty c else s.moveCircuit c .ready) :=
    Rests.when (rests_enterEmpty c s) (rests_moveCircuit c s .ready)
  exact Rests.when (Rests.when hm (hm.trans .of)) (.refl c s)

theorem rests_tellOwner (c : Circ) (s : State) (a : Activity) (v : Nat) (w : EndCause) : Rests c s (s.tellOwner c a v w) := by
  unfold State.tellOwner
  split
  · exact Rests.when .of (Rests.of (by simp))
  · exact Rests.when (.of rfl) (Rests.of (by simp))
  · exact Rests.when .of (.refl c s)
  · exact Rests.when (rests_primeEnded c s) (.refl c s)

/-! ### The report of a run to its circuit -/

/-- The end of a run is reported to the Circuit Table. -/
def State.reported (s : State) (c : Circ) (a : Activity) : State :=
  (s.reduceLevel c a.delivered (a.reduceTrim (s.circuit c))).keepDelivery c a (s.circuit c)

/-- The end of a run is reported to the Circuit Table and to its owner. -/
def State.told (s : State) (c : Circ) (a : Activity) (w : EndCause) : State :=
  (s.reported c a).tellOwner c a (a.volume (s.circuit c)) w

/-- The end of a run, with its request in the next place served. -/
theorem endActivity_told (w : EndCause) (ha : (s.pump c).activity = some a) (hk : a.kind ≠ .refill) :
    s.endActivity c w = ((s.stripped c).told c a w).releaseNext c := by
  simp only [State.endActivity, ha, if_neg hk]
  rfl

theorem endActivity_served (w : EndCause) (ha : (s.pump c).activity = some a) (hk : a.kind = .refill) :
    s.endActivity c w = (s.stripped c).releaseNext c := by
  simp only [State.endActivity, ha, if_pos hk]
  rfl

/-- The level of circuit c falls by v µL. -/
def State.lowered (s : State) (c : Circ) (v : Nat) : State :=
  (s.setCircuit c fun r => { r with level := r.level - v, lastDelivery := s.now }).markDirty c

theorem lowered_circuit (s : State) (c : Circ) (v : Nat) :
    (s.lowered c v).circuit c = { s.circuit c with level := (s.circuit c).level - v, lastDelivery := s.now } :=
  setCircuit_circuit s c _

theorem reduceLevel_lowered {n v : Nat} {t : Int} (hn : n ≠ 0) (hv : v = stepsVolume n (s.circuit c).cfg.k t) :
    s.reduceLevel c n t = ((s.lowered c v).lowEvaluate c).emptyCheck c := by
  simp only [State.reduceLevel, if_neg hn, ← hv]
  rfl

theorem reported_local (c : Circ) (s : State) (a : Activity) : Local c s (s.reported c a) :=
  (Local.reduceLevel c s _ _).trans (.keepDelivery c _ a _)

theorem told_local (c : Circ) (s : State) (a : Activity) (w : EndCause) : Local c s (s.told c a w) :=
  (reported_local c s a).trans (.tellOwner c _ a _ w)

theorem rests_told (c : Circ) (s : State) (a : Activity) (w : EndCause) : Rests c s (s.told c a w) :=
  (rests_reduceLevel c s _ _).trans (Rests.trans (.of (drive_keepDelivery ..)) (rests_tellOwner c _ a _ w))

theorem keepDelivery_keeps (s : State) (c : Circ) (a : Activity) (r : Circuit) :
    (s.keepDelivery c a r).store = s.store ∧ (s.keepDelivery c a r).track = s.track ∧ (s.keepDelivery c a r).stn = s.stn
      ∧ (s.keepDelivery c a r).cares = s.cares ∧ (s.keepDelivery c a r).link = s.link := by
  unfold State.keepDelivery
  split <;> exact ⟨rfl, rfl, rfl, rfl, rfl⟩

theorem reported_nothing (hd : a.delivered = 0) : (s.reported c a).circuit c = s.circuit c
    ∧ (s.reported c a).store = s.store ∧ (s.reported c a).cares = s.cares := by
  obtain ⟨hstore, -, -, hcares, -⟩ := keepDelivery_keeps s c a (s.circuit c)
  unfold State.reported
  rw [hd, reduceLevel_zero, keepDelivery_circuit, ite_self]
  exact ⟨rfl, hstore, hcares⟩

/-- What the circuit reads, the store and LOW after the report of a run that has delivered. -/
theorem reported_reading (hd : a.delivered ≠ 0) {v : Nat} (hv : v = a.volume (s.circuit c)) :
    ((s.reported c a).circuit c).reading = ((s.circuit c).level - v,
        if a.restarted then (s.circuit c).lastDelivery else s.now, decide ((s.circuit c).cfg.low ≤ (s.circuit c).level - v))
      ∧ (s.reported c a).store = (s.markDirty c).store
      ∧ ((s.circuit c).level - v < (s.circuit c).cfg.low → (s.circuit c).lowArmed = true →
        (s.reported c a).link.isSet (.low c) = true)
      ∧ ((s.circuit c).state = .ready → (s.circuit c).level - v ≤ (s.circuit c).cfg.reserve →
        (s.reported c a).link.isSet (.empty c) = true) := by
  have hv' : v = stepsVolume a.delivered (s.circuit c).cfg.k (a.reduceTrim (s.circuit c)) := by
    rw [hv, Activity.volume, if_neg hd]
  obtain ⟨hr, hs, -, -, hlow, hempty⟩ := reduceLevel_spec hd hv'
  unfold State.reported
  generalize s.reduceLevel c a.delivered (a.reduceTrim (s.circuit c)) = s1 at hr hs hlow hempty ⊢
  obtain ⟨kstore, -, -, -, klink⟩ := keepDelivery_keeps s1 c a (s.circuit c)
  rw [kstore, klink, keepDelivery_circuit]
  refine ⟨?_, hs, hlow, hempty⟩
  simp only [Circuit.reading, Prod.mk.injEq] at hr ⊢
  obtain ⟨h1, h2, h3⟩ := hr
  split
  · exact ⟨h1, rfl, h3⟩
  · exact ⟨h1, h2, h3⟩

/-- A READY circuit at or below its reserve becomes EMPTY. -/
theorem emptyCheck_state (s : State) (c : Circ) : ((s.emptyCheck c).circuit c).state
    = if (s.circuit c).state = .ready ∧ (s.circuit c).level ≤ (s.circuit c).cfg.reserve then .empty
      else (s.circuit c).state := by
  unfold State.emptyCheck
  dsimp only
  split
  · exact moveCircuit_state s c .empty
  · rfl

theorem emptyCheck_of_not_ready (h : (s.circuit c).state ≠ .ready) : s.emptyCheck c = s := if_neg fun hc => h hc.1

/-- The state of the circuit after the report of a run: the EMPTY check at its new level, where there is one (R16). -/
theorem reported_state (s : State) (c : Circ) (a : Activity) : ((s.reported c a).circuit c).state
    = if (s.circuit c).state = .ready ∧ a.delivered ≠ 0 ∧ ((s.reported c a).circuit c).level ≤ (s.circuit c).cfg.reserve
      then .empty else (s.circuit c).state := by
  by_cases hd : a.delivered = 0
  · rw [(reported_nothing hd).1, if_neg fun h => h.2.1 hd]
  · have hkeep (x : Circuit) : (if a.restarted then { x with lastDelivery := (s.circuit c).lastDelivery } else x).state = x.state
        ∧ (if a.restarted then { x with lastDelivery := (s.circuit c).lastDelivery } else x).level = x.level := by
      split <;> exact ⟨rfl, rfl⟩
    obtain ⟨v, hv⟩ : ∃ v, v = stepsVolume a.delivered (s.circuit c).cfg.k (a.reduceTrim (s.circuit c)) := ⟨_, rfl⟩
    have hlow := lowEvaluate_circuit (s.lowered c v) c
    rw [lowered_circuit] at hlow
    have hread := reading_of_stationary (account_iff.mp (account_emptyCheck (s := (s.lowered c v).lowEvaluate c) (c := c))).1
    rw [State.reported, keepDelivery_circuit, (hkeep _).1, (hkeep _).2, reduceLevel_lowered hd hv, emptyCheck_state,
      (reading_eq_iff.mp hread).1, hlow]
    simp only [ne_eq, hd, not_false_eq_true, true_and]

/-- Outside READY the report of a run leaves the stirrer and the due list. -/
theorem reported_care (h : (s.circuit c).state ≠ .ready) :
    ((s.reported c a).circuit c).stir = (s.circuit c).stir ∧ (s.reported c a).cares = s.cares := by
  by_cases hd : a.delivered = 0
  · obtain ⟨hcirc, -, hcares⟩ := reported_nothing (s := s) (c := c) hd
    rw [hcirc]
    exact ⟨rfl, hcares⟩
  · obtain ⟨v, hv⟩ : ∃ v, v = stepsVolume a.delivered (s.circuit c).cfg.k (a.reduceTrim (s.circuit c)) := ⟨_, rfl⟩
    have hlow := lowEvaluate_circuit (s.lowered c v) c
    rw [lowered_circuit] at hlow
    have hn : (((s.lowered c v).lowEvaluate c).circuit c).state ≠ .ready := by
      rw [hlow]
      exact h
    obtain ⟨-, -, -, hcares, -⟩ := lowEvaluate_keeps (s.lowered c v) c
    obtain ⟨-, -, -, kcares, -⟩ := keepDelivery_keeps
      (s.reduceLevel c a.delivered (a.reduceTrim (s.circuit c))) c a (s.circuit c)
    rw [State.reported, keepDelivery_circuit, kcares, reduceLevel_lowered hd hv, emptyCheck_of_not_ready hn, hlow, hcares]
    refine ⟨?_, rfl⟩
    split <;> rfl

/-! ### What the owner makes of the circuit -/

/-- The owner's part in the end of a run leaves the level, the last-delivery time and LOW, and the store. -/
theorem tellOwner_keeps (s : State) (c : Circ) (a : Activity) (v : Nat) (w : EndCause) :
    ((s.tellOwner c a v w).circuit c).reading = (s.circuit c).reading ∧ (s.tellOwner c a v w).store = s.store
      ∧ ((s.tellOwner c a v w).pump c).next = (s.pump c).next := by
  have hacc {t u : State} (h : u.account c = t.account c) : (u.circuit c).reading = (t.circuit c).reading
      ∧ u.store = t.store ∧ (u.pump c).next = (t.pump c).next := by
    obtain ⟨hc, hs, -, -, -, hn, -⟩ := account_iff.mp h
    exact ⟨reading_of_stationary hc, hs, hn⟩
  have hi (t : State) : (t.clearIntervalDue c).account c = t.account c := account_clearIntervalDue
  have hdose (id k : Nat) : ((s.doseEnded c id k a v w).circuit c).reading = (s.circuit c).reading
      ∧ (s.doseEnded c id k a v w).store = s.store ∧ ((s.doseEnded c id k a v w).pump c).next = (s.pump c).next := by
    rw [doseEnded_eq]
    dsimp only
    repeat' split
    all_goals exact ⟨rfl, rfl, rfl⟩
  have hcal (x : Station) : ((State.clearIntervalDue { s with stn := x } c).circuit c).reading
        = (s.circuit c).reading ∧ (State.clearIntervalDue { s with stn := x } c).store = s.store
      ∧ ((State.clearIntervalDue { s with stn := x } c).pump c).next = (s.pump c).next := by
    have h := hacc (hi { s with stn := x })
    exact h
  have hprime : (s.primeEnded c).account c = s.account c := by
    have hdue (t : State) (n : Nat) : (t.stirComesDue c n).account c = t.account c := by
      unfold State.stirComesDue
      split <;> simp
    unfold State.primeEnded
    dsimp only
    repeat' split
    all_goals simp [hdue]
  unfold State.tellOwner
  split
  · dsimp only
    split
    · exact hdose _ _
    · obtain ⟨h1, h2, h3⟩ := hacc (hi (s.doseEnded c _ _ a v w))
      rw [h1, h2, h3]
      exact hdose _ _
  · dsimp only
    split
    · exact ⟨rfl, rfl, rfl⟩
    · exact hcal _
  · split
    · exact hacc account_clearPurgeDue
    · exact ⟨rfl, rfl, rfl⟩
  · split
    · exact hacc hprime
    · exact ⟨rfl, rfl, rfl⟩

theorem clearIntervalDue_state (s : State) (c : Circ) : ((s.clearIntervalDue c).circuit c).state = (s.circuit c).state := by
  unfold State.clearIntervalDue
  split
  · rw [clearPurgeDue_circuit]
  · rfl

/-- The owner moves the circuit at the end of a prime alone, out of PRIMING. -/
theorem tellOwner_state (v : Nat) (w : EndCause) (h : (s.circuit c).state ≠ .priming ∨ a.kind ≠ .prime) :
    ((s.tellOwner c a v w).circuit c).state = (s.circuit c).state := by
  have hdose (id k : Nat) : ((s.doseEnded c id k a v w).circuit c).state = (s.circuit c).state := by
    rw [doseEnded_eq]
    dsimp only
    repeat' split
    all_goals rfl
  unfold State.tellOwner
  split
  · dsimp only
    split
    · exact hdose _ _
    · rw [clearIntervalDue_state, hdose]
  · dsimp only
    split
    · rfl
    · rw [clearIntervalDue_state]
      rfl
  · split
    · rw [clearPurgeDue_circuit]
    · rfl
  · split
    · rename_i hw
      rw [State.primeEnded, if_neg (h.resolve_right fun hn => hn hw.2)]
    · rfl

/-! ### The end of a run as its circuit sees it -/

/-- The end of a run of activity a, with d steps delivered in all, as it stands in state u with the pump record p: the pump and
its lent slots, the report to the circuit, and the EMPTY check (R15 to R17, R93, R99). -/
structure EndsAs (c : Circ) (a : Activity) (d : Nat) (p : Pump) (s u : State) : Prop where
  pump : u.pump c = p
  forfeit : u.drive.forfeit[c] = true
  otherPumps : OtherPumps c s u
  otherCircuits : OtherCircuits [c] s u
  reported : RunReported c a d s u
  empties : (s.circuit c).state = .ready → a.kind ≠ .refill → d ≠ 0 → (u.circuit c).level ≤ (s.circuit c).cfg.reserve →
    (u.circuit c).state = .empty ∧ u.link.isSet (.empty c) = true
  serves : (s.circuit c).state = .ready → a.kind = .refill ∨ d = 0 ∨ (s.circuit c).cfg.reserve < (u.circuit c).level →
    (u.circuit c).state = .ready
  stays : (s.circuit c).state ≠ .ready → a.kind ≠ .prime → (u.circuit c).state = (s.circuit c).state

theorem told_nothing (hd : a.delivered = 0) : ((s.told c a w).circuit c).reading = (s.circuit c).reading := by
  rw [State.told, (tellOwner_keeps _ c a _ w).1, (reported_nothing hd).1]

theorem told_reading : ((s.told c a w).circuit c).reading = ((s.reported c a).circuit c).reading :=
  (tellOwner_keeps _ c a _ w).1

theorem told_reported (hk : a.kind ≠ .refill) : RunReported c a a.delivered s (s.told c a w) := by
  refine ⟨fun h => reading_eq_iff.mp (told_nothing (h.resolve_left hk)), fun _ hd => ?_⟩
  have hv := volume_eq a (s.circuit c) hd
  obtain ⟨hread, hstore, hlow, -⟩ := reported_reading (s := s) (c := c) hd rfl
  have hr := told_reading (s := s) (c := c) (a := a) (w := w)
  have hs : (s.told c a w).store = (s.markDirty c).store := (tellOwner_keeps _ c a _ w).2.1.trans hstore
  have hlink := (Local.tellOwner c (s.reported c a) a (a.volume (s.circuit c)) w).link
  generalize a.volume (s.circuit c) = v at hv hread hlow
  rw [hread] at hr
  simp only [Circuit.reading, Prod.mk.injEq] at hr
  obtain ⟨hlevel, hlast, harmed⟩ := hr
  refine ⟨hlevel.trans (congrArg _ hv), hlast, ?_, fun h => ?_, fun h => ⟨?_, fun hl => ?_⟩⟩
  · rw [hs]
    exact updAt_get _ _ _
  · rw [harmed, ← hlevel, decide_eq_true h]
  · rw [harmed, ← hlevel, decide_eq_false (Nat.not_le.mpr h)]
  · exact hlink.flags _ (hlow (hlevel ▸ h) hl)

/-- The end of a run with the pump idle already. -/
theorem told_ends (w : EndCause) (hk : a.kind ≠ .refill) (hi : (s.pump c).activity = none)
    (hf : s.drive.forfeit[c] = true) : EndsAs c a a.delivered (s.pump c) s (s.told c a w) := by
  have hdrive := rests_told c s a w hi
  have hlocal := told_local c s a w
  have hlevel : ((s.told c a w).circuit c).level = ((s.reported c a).circuit c).level := (reading_eq_iff.mp told_reading).1
  have hstate (h : (s.circuit c).state ≠ .priming ∨ a.kind ≠ .prime) : ((s.told c a w).circuit c).state
      = if (s.circuit c).state = .ready ∧ a.delivered ≠ 0 ∧ ((s.told c a w).circuit c).level ≤ (s.circuit c).cfg.reserve
        then .empty else (s.circuit c).state := by
    rw [hlevel, ← reported_state]
    refine tellOwner_state _ w (h.imp_left fun h => ?_)
    rw [reported_state]
    split
    · nofun
    · exact h
  have hready (h : (s.circuit c).state = .ready) : (s.circuit c).state ≠ .priming := by
    rw [h]
    nofun
  refine ⟨pump_congr hdrive c, by rw [hdrive]; exact hf, hlocal.otherPumps, hlocal.otherCircuits, told_reported hk,
    fun hr _ hd hl => ⟨?_, ?_⟩, fun hr h => ?_, fun hr hp => ?_⟩
  · rw [hstate (.inl (hready hr)), if_pos ⟨hr, hd, hl⟩]
  · obtain ⟨hread, -, -, hempty⟩ := reported_reading (s := s) (c := c) hd rfl
    rw [hlevel] at hl
    exact (Local.tellOwner c (s.reported c a) a (a.volume (s.circuit c)) w).link.flags _
      (hempty hr ((congrArg Prod.fst hread).symm.trans_le hl))
  · rw [hstate (.inl (hready hr)), if_neg, hr]
    rintro ⟨-, hd, hl⟩
    rcases h with h | h | h
    · exact hk h
    · exact hd h
    · exact absurd hl (Nat.not_le.mpr h)
  · rw [hstate (.inr hp), if_neg fun h => hr h.1]

theorem stripped_forfeit (s : State) (c : Circ) : (s.stripped c).drive.forfeit[c] = true := updAt_get _ _ _

/-- The end of an activity with no request in the next place. -/
theorem endActivity_run (w : EndCause) (ha : (s.pump c).activity = some a) (hk : a.kind ≠ .refill)
    (hn : (s.pump c).next = none) : s.endActivity c w = (s.stripped c).told c a w := by
  rw [endActivity_told w ha hk]
  refine releaseNext_of_empty ?_
  have hi : ((s.stripped c).pump c).activity = none := by rw [stripped_pump]
  rw [pump_congr (rests_told c (s.stripped c) a w hi), stripped_pump]
  exact hn

theorem endActivity_ends (w : EndCause) (ha : (s.pump c).activity = some a) (hn : (s.pump c).next = none) :
    EndsAs c a a.delivered { s.pump c with activity := none } s (s.endActivity c w) := by
  by_cases hk : a.kind = .refill
  · rw [endActivity_refill w ha hk hn]
    exact ⟨stripped_pump s c, stripped_forfeit s c, (stripped_stays s c).beside.otherPumps, fun _ _ => rfl,
      ⟨fun _ => ⟨rfl, rfl, rfl⟩, fun h => absurd hk h⟩, fun _ h => absurd hk h, fun h _ => h, fun _ _ => rfl⟩
  · rw [endActivity_run w ha hk hn, ← stripped_pump]
    have h := told_ends (s := s.stripped c) (c := c) w hk (by rw [stripped_pump]) (stripped_forfeit s c)
    have ho : OtherPumps c s (s.stripped c) := (stripped_stays s c).beside.otherPumps
    exact { h with otherPumps := fun d hd => (h.otherPumps d hd).trans (ho d hd) }

/-! ### What each owner is told (R58, R99, R100) -/

theorem isShort_iff (out : RunOutcome) : out.isShort = true ↔ out = .cut .pumpFault ∨ out = .cut .removed := by
  cases out with
  | cut why => cases why <;> simp [RunOutcome.isShort]
  | _ => simp [RunOutcome.isShort]

/-- The volume of a dose of a tin. -/
theorem volume_tin {id k : Nat} (ho : a.owner = .tin id k) (r : Circuit) : a.volume r = if a.delivered = 0 then 0
    else roundHalfUp (a.delivered * 1024000) (r.cfg.k * (1024 + r.trim).toNat) := by
  split
  · rename_i hd
    rw [Activity.volume, if_pos hd]
  · rename_i hd
    rw [volume_eq a r hd, if_neg (by rw [ho]; nofun)]

theorem told_dose (s : State) (c : Circ) (a : Activity) (w : EndCause) :
    DoseRecorded c a a.delivered (doseOutcome a w) s (s.told c a w) := by
  intro id k t e ho ht he
  have hb := toldCut_before (c := c) (s := s) a
  obtain ⟨⟨ns, hns, hmem⟩, hne⟩ := tellOwner_tin (s := s.reported c a) (c := c) (a.volume (s.circuit c)) w ho
    ((hb id).1.trans ht) he
  have hcfg : ((s.reported c a).circuit c).cfg = (s.circuit c).cfg := (hb 0).2.2
  rw [hcfg] at hns
  refine ⟨⟨ns, ?_, fun x => ?_⟩, fun m hm => (hne m hm).trans (hb m).1⟩
  · rw [← volume_tin ho (s.circuit c)]
    exact hns
  · rw [hmem, isShort_iff]

theorem told_cal {q : CalRun} (w : EndCause) (ho : a.owner = .cal) (hq : s.stn.cal = some q) (hc : q.circuit = c)
    (hh : q.handing = .handed) : (s.told c a w).stn.cal = some { q with delivered := a.delivered, handing := .ended } := by
  have hb := toldCut_before (c := c) (s := s) a 0
  exact tellOwner_cal _ w ho (hb.2.1.trans hq) hc hh

theorem told_care (ho : a.owner = .care) : ((s.told c a .complete).circuit c).purgeDue = none := by
  have e : s.told c a .complete = (s.reported c a).clearPurgeDue c := by
    simp only [State.told, State.tellOwner, ho, if_true]
  rw [e, clearPurgeDue_circuit]

/-! ### A prime that ends COMPLETE (R11, R208) -/

/-- The circuit after its prime: READY, or EMPTY at or below its reserve. -/
def State.primed (s : State) (c : Circ) : State :=
  if (s.circuit c).level ≤ (s.circuit c).cfg.reserve then s.enterEmpty c else s.moveCircuit c .ready

theorem primed_eq (s : State) (c : Circ) : ∃ g : CircuitState, g.serves = true
    ∧ g = (if (s.circuit c).level ≤ (s.circuit c).cfg.reserve then .empty else .ready)
    ∧ (s.primed c).circuit c = (s.moveCircuit c g).circuit c ∧ (s.primed c).cares = (s.moveCircuit c g).cares
    ∧ (s.primed c).now = (s.moveCircuit c g).now := by
  unfold State.primed
  split
  · exact ⟨.empty, rfl, rfl, rfl, rfl, rfl⟩
  · exact ⟨.ready, rfl, rfl, rfl, rfl, rfl⟩

/-- A move to READY or EMPTY leaves the stirrer and the due list. -/
theorem moveCircuit_serves_care {g : CircuitState} (hg : g.serves = true) :
    ((s.moveCircuit c g).circuit c).stir = (s.circuit c).stir ∧ (s.moveCircuit c g).cares = s.cares := by
  rw [moveCircuit_serves s c hg, purgeTest_circuit, setCircuit_circuit]
  constructor
  · split <;> rfl
  · unfold State.purgeTest
    split <;> rfl

theorem primed_facts (s : State) (c : Circ) :
    ((s.primed c).circuit c).state = (if (s.circuit c).level ≤ (s.circuit c).cfg.reserve then .empty else .ready)
      ∧ ((s.primed c).circuit c).level = (s.circuit c).level ∧ ((s.primed c).circuit c).cfg = (s.circuit c).cfg
      ∧ ((s.primed c).circuit c).stir = (s.circuit c).stir ∧ (s.primed c).cares = s.cares ∧ (s.primed c).now = s.now := by
  obtain ⟨g, hs, hg, hcirc, hcares, hnow⟩ := primed_eq s c
  obtain ⟨hstir, hdue⟩ := moveCircuit_serves_care (s := s) (c := c) hs
  rw [hcirc, hcares, hnow, moveCircuit_state, hstir, hdue]
  refine ⟨hg, ?_, ?_, rfl, rfl, (Local.moveCircuit c s g).now⟩ <;> rw [moveCircuit_circuit]

theorem stirComesDue_circuit (s : State) (c : Circ) (n : Nat) (d : Circ) : (s.stirComesDue c n).circuit d = s.circuit d := by
  unfold State.stirComesDue
  split <;> rfl

/-- A stir comes due that is neither due nor running. -/
theorem stirComesDue_due (s : State) (c : Circ) (n : Nat) :
    (s.stirComesDue c n).cares = { s.cares with due := (s.stirComesDue c n).cares.due }
      ∧ (((s.circuit c).stir ≠ none ∨ ∃ x ∈ s.cares.due, x.1 = c) → (s.stirComesDue c n).cares.due = s.cares.due)
      ∧ ((s.circuit c).stir = none → (∀ x ∈ s.cares.due, x.1 ≠ c) →
        ∀ x, x ∈ (s.stirComesDue c n).cares.due ↔ x ∈ s.cares.due ∨ x = (c, n)) := by
  have hq : (s.stirListed c || (s.circuit c).stir.isSome) = true
      ↔ (s.circuit c).stir ≠ none ∨ ∃ x ∈ s.cares.due, x.1 = c := by
    simp only [State.stirListed, Bool.or_eq_true, List.any_eq_true, beq_iff_eq, Option.isSome_iff_ne_none]
    exact or_comm
  unfold State.stirComesDue
  split
  · rename_i h
    refine ⟨rfl, fun _ => rfl, fun h1 h2 => ?_⟩
    rcases hq.mp h with h | ⟨x, hx, h⟩
    · exact absurd h1 h
    · exact absurd h (h2 x hx)
  · rename_i h
    refine ⟨rfl, fun hn => absurd (hq.mpr hn) h, fun _ _ x => ?_⟩
    exact (mem_insertDue x (c, n) s.cares.due).trans or_comm

/-- The stir that a completed prime makes due between s and u, unless its class is OFF or it is due or runs already. -/
def PrimeStirs (c : Circ) (s u : State) : Prop :=
  let waits : Prop := (s.circuit c).cfg.stir ≠ .off ∧ (s.circuit c).stir = none ∧ ∀ x ∈ s.cares.due, x.1 ≠ c
  u.cares = { s.cares with due := u.cares.due }
    ∧ (¬waits → u.cares.due = s.cares.due) ∧ (waits → ∀ x, x ∈ u.cares.due ↔ x ∈ s.cares.due ∨ x = (c, s.now))

theorem primeEnded_spec (h : (s.circuit c).state = .priming) : PrimeStirs c s (s.primeEnded c)
    ∧ ((s.primeEnded c).circuit c).state
      = if ((s.primeEnded c).circuit c).level ≤ (s.circuit c).cfg.reserve then .empty else .ready := by
  obtain ⟨hstate, hlevel, -, hstir, hcares, hnow⟩ := primed_facts s c
  have e : s.primeEnded c
      = if (s.circuit c).cfg.stir = .off then s.primed c else (s.primed c).stirComesDue c (s.primed c).now := if_pos h
  rw [e]
  split
  · rename_i hoff
    refine ⟨⟨by rw [hcares], fun _ => by rw [hcares], fun hw => absurd hoff hw.1⟩, ?_⟩
    rw [hstate, hlevel]
  · rename_i hon
    obtain ⟨hrest, hkeep, hadd⟩ := stirComesDue_due (s.primed c) c (s.primed c).now
    rw [hstir, hcares] at hkeep hadd
    rw [hcares] at hrest
    rw [hnow] at hrest hkeep hadd ⊢
    refine ⟨⟨hrest, fun hw => hkeep ?_, fun ⟨_, h1, h2⟩ => hadd h1 h2⟩, ?_⟩
    · by_contra hno
      rw [not_or, not_not] at hno
      exact hw ⟨hon, hno.1, fun x hx hc => hno.2 ⟨x, hx, hc⟩⟩
    · rw [stirComesDue_circuit, hstate, hlevel]

/-- A prime of a circuit in PRIMING ends COMPLETE. -/
theorem told_prime (hk : a.kind = .prime) (ho : a.owner = .table) (h : (s.circuit c).state = .priming) :
    PrimeStirs c s (s.told c a .complete) ∧ ((s.told c a .complete).circuit c).state
      = if ((s.told c a .complete).circuit c).level ≤ (s.circuit c).cfg.reserve then .empty else .ready := by
  have hn : (s.circuit c).state ≠ .ready := by
    rw [h]
    nofun
  have hstate : ((s.reported c a).circuit c).state = .priming := by
    rw [reported_state, if_neg fun h => hn h.1, h]
  have e : s.told c a .complete = (s.reported c a).primeEnded c := by
    simp only [State.told, State.tellOwner, ho, hk, and_self, if_true]
  obtain ⟨hstir, hcares⟩ := reported_care (a := a) hn
  have hcfg : ((s.reported c a).circuit c).cfg = (s.circuit c).cfg := (reported_local c s a).circuit_fields.1
  have hp := primeEnded_spec hstate
  rw [e]
  unfold PrimeStirs at hp ⊢
  rwa [hcfg, hstir, hcares, (reported_local c s a).now] at hp

end Sys2Proof.Machine
end

