-- ==== Sys2Proof/Proofs/StalledBursts.lean ====
section
/-! O35: a burst that stalls, or that 60 ms have passed since (R105). -/

namespace Sys2Proof.Machine

set_option Elab.async false

variable {c : Circ} {s t u : State} {a : Activity} {d : Nat}

/-! ### BLOCKED -/

theorem block_circuit (s : State) (c : Circ) (why : BlockReason) :
    (s.block c why).circuit c = { (s.moveCircuit c .blocked).circuit c with reason := some why } :=
  setCircuit_circuit _ c _

theorem block_blocks (s : State) (c : Circ) (why : BlockReason) : ((s.block c why).circuit c).state = .blocked
    ∧ ((s.block c why).circuit c).reason = some why ∧ (s.block c why).link.isSet (.blocked c) = true := by
  rw [block_circuit]
  exact ⟨moveCircuit_state s c .blocked, rfl, Link.isSet_setFlag_self _ _ _⟩

/-- What a circuit that is blocked keeps of its record and of the rest. -/
theorem block_keeps (s : State) (c : Circ) (why : BlockReason) :
    ((s.block c why).circuit c).reading = (s.circuit c).reading ∧ (s.block c why).track = s.track
      ∧ (s.block c why).stn.cal = s.stn.cal := by
  obtain ⟨hc, -, ht, -, hq, -⟩ := account_iff.mp (account_moveCircuit (s := s) (c := c) .blocked)
  have hr := reading_of_stationary hc
  rw [block_circuit]
  exact ⟨hr, ht, hq⟩

theorem pumpFault_cases (s : State) (c : Circ) : s.pumpFault c = s.block c .pumpFault ∨ s.pumpFault c = s := by
  unfold State.pumpFault
  split
  case h_5 => exact .inr rfl
  all_goals exact .inl rfl

theorem pumpFault_of_tagged (h : (s.circuit c).state = .ready ∨ (s.circuit c).state = .empty ∨ (s.circuit c).state = .priming
    ∨ (s.circuit c).state = .blocked) : s.pumpFault c = s.block c .pumpFault := by
  unfold State.pumpFault
  rcases h with h | h | h | h <;> rw [h]

theorem pumpFault_keeps (s : State) (c : Circ) :
    ((s.pumpFault c).circuit c).reading = (s.circuit c).reading ∧ (s.pumpFault c).track = s.track
      ∧ (s.pumpFault c).stn.cal = s.stn.cal := by
  rcases pumpFault_cases s c with e | e <;> rw [e]
  · exact block_keeps s c _
  · exact ⟨rfl, rfl, rfl⟩

theorem woken_pumpFault (s : State) (c : Circ) : Woken c s (s.pumpFault c) := by
  rcases pumpFault_cases s c with e | e <;> rw [e]
  · exact (woken_moveCircuit .blocked).trans .of
  · exact .of

/-! ### The report of a run depends on what its circuit reads -/

theorem RunReported.of_reading (h : RunReported c a d t u) (hr : (t.circuit c).reading = (s.circuit c).reading)
    (hg : (t.circuit c).cfg = (s.circuit c).cfg) (ht : (t.circuit c).trim = (s.circuit c).trim) (hn : t.now = s.now) :
    RunReported c a d s u := by
  obtain ⟨hlevel, hlast, hlow⟩ := reading_eq_iff.mp hr
  unfold RunReported at h ⊢
  dsimp only at h ⊢
  rw [hlevel, hlast, hlow, hg, ht, hn] at h
  exact h

theorem DoseRecorded.of_tins {out : RunOutcome} (h : DoseRecorded c a d out t u) (hg : (t.circuit c).cfg = (s.circuit c).cfg)
    (ht : (t.circuit c).trim = (s.circuit c).trim) (hx : t.track = s.track) : DoseRecorded c a d out s u := by
  unfold DoseRecorded State.tin? at h ⊢
  dsimp only at h ⊢
  rw [hg, ht, hx] at h
  exact h

/-! ### The end of the activity that a stall cuts -/

theorem endActivity_cut_stays (w : CutCause) (hn : (s.pump c).next = none) : Stays c s (s.endActivity c (.cut w)) := by
  cases ha : (s.pump c).activity with
  | none =>
    have e : s.endActivity c (.cut w) = s := by simp only [State.endActivity, ha]
    rw [e]
    exact .refl c s
  | some a =>
    by_cases hk : a.kind = .refill
    · rw [endActivity_refill _ ha hk hn]
      exact stripped_stays s c
    · rw [endActivity_cut w ha hk hn]
      exact (stripped_stays s c).trans (toldCut_tends a w).toStays

/-- The pump once its burst has stalled, with its activity left or told that the stirrer has stopped. -/
theorem stalled_pump (s : State) (c : Circ) : (s.stalled c).pump c = { s.pump c with
      piston := .unknown 0, burst := none, next := none, heldPrime := false
      activity := ((s.stalled c).pump c).activity }
    ∧ (((s.stalled c).pump c).activity = (s.pump c).activity
      ∨ ((s.stalled c).pump c).activity = (s.pump c).activity.map Activity.woken) := by
  have hr : ((s.setPump c Pump.stalled).refuseNext c).pump c
      = { s.pump c with piston := .unknown 0, burst := none, next := none, heldPrime := false } := by
    rw [refuseNext_pump, setPump_pump]
    rfl
  have hw : Woken c _ (s.stalled c) := woken_pumpFault ((s.setPump c Pump.stalled).refuseNext c) c
  unfold Woken at hw
  rw [hr] at hw
  rcases hw with e | e <;> rw [e]
  · exact ⟨rfl, .inl rfl⟩
  · exact ⟨rfl, .inr rfl⟩

/-- What the stall leaves of the circuit's record, of the tins and of the calibration run, before its activity is cut. -/
theorem stalled_keeps (s : State) (c : Circ) : ((s.stalled c).circuit c).reading = (s.circuit c).reading
    ∧ (s.stalled c).track = ((s.setPump c Pump.stalled).refused c).track
    ∧ (s.stalled c).stn.cal = ((s.setPump c Pump.stalled).refused c).stn.cal := by
  obtain ⟨hc, ht, hq⟩ := pumpFault_keeps ((s.setPump c Pump.stalled).refuseNext c) c
  have e : ((s.setPump c Pump.stalled).refuseNext c).circuit c = s.circuit c := by
    rw [refuseNext_frame]
    rfl
  rw [e] at hc
  exact ⟨hc, ht, hq⟩

theorem burstStall_stays (s : State) (c : Circ) : Stays c (s.stalled c) ((s.stalled c).endActivity c (.cut .pumpFault)) := by
  refine endActivity_cut_stays _ ?_
  rw [(stalled_pump s c).1]

/-! ### A burst outstanding that stalls -/

/-- What the stall of a burst outstanding makes of state s (R14, R15, R58, R100, R105). -/
structure StallsAs (c : Circ) (s u : State) : Prop where
  now : u.now = s.now
  pump : u.pump c = { s.pump c with
    piston := .unknown 0, burst := none, activity := none, next := none, heldPrime := false }
  blocks : (s.circuit c).state = .ready ∨ (s.circuit c).state = .empty ∨ (s.circuit c).state = .priming
      ∨ (s.circuit c).state = .blocked →
    (u.circuit c).state = .blocked ∧ (u.circuit c).reason = some .pumpFault ∧ u.link.isSet (.blocked c) = true
  reported : ∀ a, (s.pump c).activity = some a → RunReported c a a.delivered s u
  recorded : ∀ a, (s.pump c).activity = some a → a.kind ≠ .refill → (s.pump c).next = none →
    DoseRecorded c a a.delivered (if a.delivered = a.planned then .delivered else .cut .pumpFault) s u
  refused : ∀ a q, (s.pump c).activity = some a → a.kind = .refill → (s.pump c).next = some q →
    (∀ id k t e, q.owner = .tin id k → s.tin? id = some t → t.entries[k]? = some e →
      u.tin? id = some { t with entries := t.entries.set k { e with handing := .again true } })
    ∧ (q.owner = .cal → u.stn.cal = s.stn.cal.map fun x => { x with handing := .again true })
  otherPumps : OtherPumps c s u
  otherCircuits : OtherCircuits [c] s u

/-- The activity that a stall cuts, as its end finds it. -/
theorem stalled_activity (ha : (s.pump c).activity = some a) :
    ∃ r, ((s.stalled c).pump c).activity = some { a with run := r } := by
  rcases (stalled_pump s c).2 with e | e <;> rw [e, ha]
  · exact ⟨a.run, rfl⟩
  · rw [Option.map_some, Activity.woken]
    split
    · exact ⟨.running, rfl⟩
    · exact ⟨a.run, rfl⟩

theorem stallsAs (s : State) (c : Circ) : StallsAs c s ((s.stalled c).endActivity c (.cut .pumpFault)) := by
  have hstays := burstStall_stays s c
  have hlocal := stalled_local s c
  obtain ⟨hpump, -⟩ := stalled_pump s c
  obtain ⟨hread, htrack, hcal⟩ := stalled_keeps s c
  obtain ⟨hcfg, htrim, -⟩ := hlocal.circuit_fields
  have hnext : ((s.stalled c).pump c).next = none := by rw [hpump]
  refine ⟨hstays.beside.now.trans hlocal.now, ?_, fun h => ?_, fun a ha => ?_, fun a ha hk hn => ?_, fun a q ha hk hq => ?_,
    fun e he => ?_, fun e he => ?_⟩
  · cases ha : ((s.stalled c).pump c).activity with
    | none =>
      have e : (s.stalled c).endActivity c (.cut .pumpFault) = s.stalled c := by simp only [State.endActivity, ha]
      rw [e, hpump, ha]
    | some a =>
      rw [(endActivity_ends _ ha hnext).pump, hpump]
  · have e : s.stalled c = ((s.setPump c Pump.stalled).refuseNext c).block c .pumpFault :=
      pumpFault_of_tagged (by rw [refuseNext_frame]; exact h)
    obtain ⟨hstate, hreason, hflag⟩ := block_blocks ((s.setPump c Pump.stalled).refuseNext c) c .pumpFault
    rw [← e] at hstate hreason hflag
    refine ⟨?_, hstays.reason.trans hreason, hstays.beside.link.flags _ hflag⟩
    rcases hstays.state with h | ⟨-, h⟩
    · exact h.trans hstate
    · rw [hstate] at h
      cases h
  · obtain ⟨r, hr⟩ := stalled_activity ha
    have h : RunReported c a a.delivered (s.stalled c) _ := (endActivity_ends (.cut .pumpFault) hr hnext).reported
    exact h.of_reading hread hcfg htrim hlocal.now
  · obtain ⟨r, hr⟩ := stalled_activity ha
    rw [endActivity_run _ hr hk hnext]
    have h := told_dose ((s.stalled c).stripped c) c { a with run := r } (.cut .pumpFault)
    have hs : (s.stalled c).track = s.track := htrack.trans (refused_of_empty (by rw [setPump_pump]; exact hn)).1
    exact DoseRecorded.of_tins (a := a) h hcfg htrim hs
  · obtain ⟨r, hr⟩ := stalled_activity ha
    have e : (s.stalled c).endActivity c (.cut .pumpFault) = (s.stalled c).stripped c :=
      endActivity_refill _ hr hk hnext
    have hq' : ((s.setPump c Pump.stalled).pump c).next = some q := by rw [setPump_pump]; exact hq
    rw [e]
    refine ⟨fun id k t x ho ht he => ?_, fun ho => ?_⟩
    · have h := refused_tin (s := s.setPump c Pump.stalled) hq' ho ht he
      rw [State.tin?, ← htrack] at h
      exact h
    · exact hcal.trans (refused_cal hq' ho)
  · rw [hstays.beside.pump_ne he, hlocal.pump_ne he, setPump_pump_ne _ _ he]
  · have hne : e ≠ c := List.ne_of_not_mem_cons he
    rw [hstays.beside.circuit_ne hne, hlocal.circuit_ne hne, setPump_circuit]

/-- The command of a burst that stalls. -/
theorem exec_burstStall (h : s.powered = true) : exec (.burstStall c) s = .next (State.conclude s (s.burstStall c)) :=
  event_taken (change := fun t => t.burstStall c) h

theorem exec_burstTimeout (h : s.powered = true) :
    exec (.burstTimeout c) s = .next (State.conclude s (s.burstTimeout c)) :=
  event_taken (change := fun t => t.burstTimeout c) h

theorem burstTimeout_none (h : (s.pump c).burst = none) : s.burstTimeout c = s := by
  simp only [State.burstTimeout, h]

theorem burstTimeout_some {b : Burst} (h : (s.pump c).burst = some b) :
    s.burstTimeout c = (s.reach (b.granted + 60000)).burstStall c := by
  simp only [State.burstTimeout, h]
  rfl

/-- Settles O35: a stall is what `stallsAs` says, and a time-out is a stall at its moment. -/
theorem stalledBurstBlocks : Obligations.StalledBurstBlocks := by
  unfold Obligations.StalledBurstBlocks
  intro s c hp row hrow
  simp only [List.mem_cons, List.not_mem_nil, or_false] at hrow
  rcases hrow with rfl | rfl
  · refine ⟨fun h => by rw [exec_burstStall hp, burstStall_none h], fun b hb => ⟨_, exec_burstStall hp, ?_⟩⟩
    rw [burstStall_some hb, if_neg nofun]
    obtain ⟨hnow, hpump, hblocks, hrep, hrec, href, hops, hocs⟩ := stallsAs s c
    refine ⟨hnow, hpump, hblocks, fun a ha => ⟨?_, hrec a ha⟩, href, hops, hocs⟩
    rw [hnow]
    exact hrep a ha
  · refine ⟨fun h => by rw [exec_burstTimeout hp, burstTimeout_none h], fun b hb => ⟨_, exec_burstTimeout hp, ?_⟩⟩
    rw [burstTimeout_some hb, burstStall_some (s := s.reach (b.granted + 60000)) hb, if_pos rfl]
    obtain ⟨hnow, hpump, hblocks, hrep, hrec, href, hops, hocs⟩ := stallsAs (s.reach (b.granted + 60000)) c
    refine ⟨hnow, hpump, hblocks, fun a ha => ⟨?_, hrec a ha⟩, href, hops, hocs⟩
    rw [hnow]
    exact hrep a ha

end Sys2Proof.Machine
end

