-- ==== Sys2Proof/Proofs/BurstEnds.lean ====
section
/-! O34: a completed burst (R96 to R100, R104 to R110). -/

namespace Sys2Proof.Machine

set_option Elab.async false

variable {c : Circ} {s t u : State} {a : Activity} {b : Burst} {x : Piston} {p n : Nat} {w : EndCause}

/-! ### The lent slots of the other circuits -/

/-- Between s and t nothing of the Drive Frame has changed but its pumps and what circuit c has lost of its lent slots. -/
structure SlotsStand (c : Circ) (s t : State) : Prop where
  drive : t.drive = { s.drive with pumps := t.drive.pumps, forfeit := t.drive.forfeit }
  others : ∀ d : Circ, d ≠ c → t.drive.forfeit[d] = s.drive.forfeit[d]

theorem SlotsStand.refl (c : Circ) (s : State) : SlotsStand c s s := ⟨rfl, fun _ _ => rfl⟩

theorem SlotsStand.trans (h : SlotsStand c s t) (k : SlotsStand c t u) : SlotsStand c s u := by
  refine ⟨?_, fun d hd => (k.others d hd).trans (h.others d hd)⟩
  rw [k.drive, h.drive]

theorem SlotsStand.ite {q : Prop} [Decidable q] (h : SlotsStand c s t) (k : SlotsStand c s u) :
    SlotsStand c s (if q then t else u) := by
  split
  · exact h
  · exact k

theorem SlotsStand.setPump (c : Circ) (s : State) (f : Pump → Pump) : SlotsStand c s (s.setPump c f) := ⟨rfl, fun _ _ => rfl⟩

theorem SlotsStand.forfeitSlots (c : Circ) (s : State) : SlotsStand c s (s.forfeitSlots c) :=
  ⟨rfl, fun _ hd => updAt_get_ne _ _ hd⟩

theorem Local.slotsStand (h : Local c s t) : SlotsStand c s t := by
  have e := (congrArg State.drive h.beside :)
  simp only [State.beside, Drive.mk.injEq] at e
  obtain ⟨h1, h2, -, h3, h4, h5, hf⟩ := e
  refine ⟨?_, fun d hd => ?_⟩
  · cases hs : s.drive
    cases ht : t.drive
    simp_all
  · have e := congrArg (fun v : Vector Bool 24 => v[d]) hf
    rwa [updAt_get_ne _ _ hd, updAt_get_ne _ _ hd] at e

theorem slotsStand_askPump (c : Circ) (s : State) (q : PumpRequest) : SlotsStand c s (s.askPump c q).1 := by
  unfold State.askPump State.createActivity
  repeat' split
  all_goals first
    | exact .refl c s
    | exact .setPump c s _

theorem slotsStand_releaseNext (c : Circ) (s : State) : SlotsStand c s (s.releaseNext c) := by
  unfold State.releaseNext
  split
  · exact .refl c s
  · exact (SlotsStand.setPump c s _).trans (slotsStand_askPump c _ _)

theorem slotsStand_endActivity (c : Circ) (s : State) (w : EndCause) : SlotsStand c s (s.endActivity c w) := by
  have hs : SlotsStand c s (s.stripped c) := (stripped_stays s c).beside.slotsStand
  cases ha : (s.pump c).activity with
  | none =>
    have e : s.endActivity c w = s := by simp only [State.endActivity, ha]
    rw [e]
    exact .refl c s
  | some a =>
    by_cases hk : a.kind = .refill
    · rw [endActivity_served w ha hk]
      exact hs.trans (slotsStand_releaseNext c _)
    · rw [endActivity_told w ha hk]
      exact hs.trans ((told_local c _ a w).slotsStand.trans (slotsStand_releaseNext c _))

theorem slotsStand_advancePhase (c : Circ) (s : State) : SlotsStand c s (s.advancePhase c) := by
  unfold State.advancePhase
  split
  · exact .refl c s
  · exact .ite ((SlotsStand.setPump c s _).trans (.forfeitSlots c _)) (.setPump c s _)

theorem slotsStand_abandonNow (c : Circ) (s : State) : SlotsStand c s (s.abandonNow c) := by
  unfold State.abandonNow
  split
  · exact .refl c s
  · exact .ite ((slotsStand_endActivity c s _).trans (.setPump c _ _)) (slotsStand_endActivity c s _)

theorem slotsStand_atBoundary (c : Circ) (s : State) : SlotsStand c s (s.atBoundary c) := by
  have hadv := slotsStand_advancePhase c s
  unfold State.atBoundary
  split
  · exact .refl c s
  · split
    · exact slotsStand_endActivity c s _
    · exact .ite (slotsStand_endActivity c s _) hadv
    · exact .ite ((SlotsStand.setPump c s _).trans (slotsStand_endActivity c _ _))
        (hadv.trans ((SlotsStand.setPump c _ _).trans (slotsStand_abandonNow c _)))
    · exact .ite (slotsStand_endActivity c s _) (hadv.trans (.setPump c _ _))

theorem slotsStand_burstComplete (c : Circ) (s : State) : SlotsStand c s (s.burstComplete c) := by
  unfold State.burstComplete
  split
  · exact .refl c s
  · exact (SlotsStand.setPump c s _).trans (slotsStand_atBoundary c _)

/-! ### The counts -/

/-- The activity once its burst is counted. -/
def Burst.counts (b : Burst) (a : Activity) : Activity :=
  { a with delivered := if b.refill then a.delivered else a.delivered + b.steps }

/-- The piston once the burst is counted. -/
def Burst.moves (b : Burst) (x : Piston) : Piston := if b.refill then x.drawn b.steps else x.pushed b.steps

/-- The pump of circuit c stands at x with activity a, and no burst is outstanding. -/
def State.moved (s : State) (c : Circ) (x : Piston) (a : Activity) : State :=
  s.setPump c fun p => { p with burst := none, piston := x, activity := some a }

theorem moved_pump (s : State) (c : Circ) (x : Piston) (a : Activity) :
    (s.moved c x a).pump c = { s.pump c with burst := none, piston := x, activity := some a } := setPump_pump _ _ _

theorem moved_others (s : State) (c : Circ) (x : Piston) (a : Activity) : OtherPumps c s (s.moved c x a) :=
  fun _ hd => setPump_pump_ne _ _ hd

theorem setPump_congr {f g : Pump → Pump} (h : f (s.pump c) = g (s.pump c)) : s.setPump c f = s.setPump c g := by
  simp only [State.setPump, updAt_congr (g := g) s.drive.pumps c h]

/-- The burst outstanding of the activity of circuit c, in its phase. -/
structure Driving (c : Circ) (s : State) (b : Burst) (a : Activity) : Prop where
  burst : (s.pump c).burst = some b
  activity : (s.pump c).activity = some a
  phase : b.refill = (a.phase == .refill)

theorem Driving.burstComplete_eq (h : Driving c s b a) :
    s.burstComplete c = (s.moved c (b.moves (s.pump c).piston) (b.counts a)).atBoundary c := by
  simp only [State.burstComplete, h.burst]
  congr 1
  refine setPump_congr ?_
  simp only [Pump.counted, h.activity, Option.map_some, Burst.moves, Burst.counts]
  cases b.refill <;> rfl

theorem Driving.moves_deliver (h : Driving c s b a) (hp : a.phase = .deliver) (hx : (s.pump c).piston = .known p) :
    b.moves (s.pump c).piston = .known (p - b.steps) := by
  rw [Burst.moves, h.phase, hp, hx]
  rfl

theorem Driving.moves_refill (h : Driving c s b a) (hp : a.phase = .refill) (hx : (s.pump c).piston = .known p) :
    b.moves (s.pump c).piston = .known (p + b.steps) := by
  rw [Burst.moves, h.phase, hp, hx]
  rfl

theorem Driving.moves_stroke (h : Driving c s b a) (hp : a.phase = .refill) (hx : (s.pump c).piston = .unknown n) :
    b.moves (s.pump c).piston = if 25600 ≤ n + b.steps then .known 25600 else .unknown (n + b.steps) := by
  rw [Burst.moves, h.phase, hp, hx]
  rfl

theorem Driving.counts_refill (h : Driving c s b a) (hp : a.phase = .refill) : b.counts a = a := by
  have e : b.refill = true := h.phase.trans (by rw [hp]; rfl)
  simp only [Burst.counts, e, if_true]

/-! ### What waits for the boundary -/

/-- Nothing but a stop waits for the burst boundary. -/
def Activity.free (a : Activity) : Prop := a.atBoundary = none ∨ a.atBoundary = some .stop

/-- The activity as it goes on in phase ph, STOPPED where a stop waits. -/
def Activity.onward (a : Activity) (ph : Phase) : Activity :=
  if a.atBoundary = some .stop then { a with phase := ph, run := .stopped, stopSeen := true, atBoundary := none }
  else { a with phase := ph }

theorem onward_of_none (h : a.atBoundary = none) (ph : Phase) : a.onward ph = { a with phase := ph } := by
  rw [Activity.onward, if_neg (by rw [h]; nofun)]

theorem onward_of_stop (h : a.atBoundary = some .stop) (ph : Phase) :
    a.onward ph = { a with phase := ph, run := .stopped, stopSeen := true, atBoundary := none } := if_pos h

theorem finished_run (hk : a.kind ≠ .refill) (x : Piston) :
    a.finished x = (a.phase == .deliver && a.delivered == a.planned) := by
  unfold Activity.finished
  split
  · rename_i h
    exact absurd h hk
  · rfl

theorem finished_refill (hk : a.kind = .refill) (x : Piston) : a.finished x = (x == .known 25600) := by
  simp only [Activity.finished, hk]
  rfl

/-- An activity that refills has not reached its end, unless it is a standalone REFILL. -/
theorem not_finished_of_refill (hk : a.kind ≠ .refill) (hp : a.phase = .refill) (x : Piston) : a.finished x = false := by
  rw [finished_run hk, hp]
  rfl

theorem not_finished_of_short (hk : a.kind ≠ .refill) (hd : a.delivered ≠ a.planned) (x : Piston) : a.finished x = false := by
  rw [finished_run hk, beq_false_of_ne hd, Bool.and_false]

theorem finished_of_planned (hk : a.kind ≠ .refill) (hp : a.phase = .deliver) (hd : a.delivered = a.planned) (x : Piston) :
    a.finished x = true := by
  rw [finished_run hk, hp, hd, beq_self_eq_true, beq_self_eq_true]
  rfl

theorem nextPhase_deliver (hp : a.phase = .deliver) (m : Nat) :
    a.nextPhase (.known m) = if m = 0 then .refill else .deliver := by
  simp only [Activity.nextPhase, hp, Piston.known.injEq]

theorem nextPhase_refill (hp : a.phase = .refill) (hk : a.kind ≠ .refill) (x : Piston) :
    a.nextPhase x = if x = .known 25600 then .deliver else .refill := by
  simp only [Activity.nextPhase, hp, Config.chamber, hk, ne_eq, not_false_eq_true, and_true]

theorem nextPhase_refill_known (hp : a.phase = .refill) (hk : a.kind ≠ .refill) (m : Nat) :
    a.nextPhase (.known m) = if m = 25600 then .deliver else .refill := by
  simp only [nextPhase_refill hp hk, Piston.known.injEq]

theorem nextPhase_standalone (hp : a.phase = .refill) (hk : a.kind = .refill) : a.nextPhase x = .refill := by
  simp only [Activity.nextPhase, hp, hk, ne_eq, not_true_eq_false, and_false, if_false]

theorem nextPhase_unknown (hp : a.phase = .refill) (n : Nat) : a.nextPhase (.unknown n) = .refill := by
  simp only [Activity.nextPhase, hp, reduceCtorEq, false_and, if_false]

theorem not_finished_unknown (hp : a.phase = .refill) (n : Nat) : a.finished (.unknown n) = false := by
  by_cases hk : a.kind = .refill
  · rw [finished_refill hk]
    rfl
  · exact not_finished_of_refill hk hp _

theorem atBoundary_cut {w : CutCause} (ha : (s.pump c).activity = some a) (h : a.atBoundary = some (.cut w)) :
    s.atBoundary c = s.endActivity c (.cut w) := by
  simp only [State.atBoundary, ha, h]

theorem atBoundary_finished (ha : (s.pump c).activity = some a) (h : a.free)
    (hf : a.finished (s.pump c).piston = true) : s.atBoundary c = s.endActivity c .complete := by
  rcases h with h | h <;> simp only [State.atBoundary, ha, h, hf, if_true]

theorem atBoundary_goes (ha : (s.pump c).activity = some a) (h : a.atBoundary = none)
    (hf : a.finished (s.pump c).piston = false) : s.atBoundary c = s.advancePhase c := by
  simp only [State.atBoundary, ha, h, hf, Bool.false_eq_true, if_false]

theorem atBoundary_stops (ha : (s.pump c).activity = some a) (h : a.atBoundary = some .stop)
    (hf : a.finished (s.pump c).piston = false) : s.atBoundary c = (s.advancePhase c).setActivity c fun a =>
      { a with run := .stopped, stopSeen := true, atBoundary := none } := by
  simp only [State.atBoundary, ha, h, hf, Bool.false_eq_true, if_false]

theorem atBoundary_abandons (ha : (s.pump c).activity = some a) (h : a.atBoundary = some .abandon)
    (hf : a.finished (s.pump c).piston = false) :
    s.atBoundary c = ((s.advancePhase c).setActivity c fun a => { a with atBoundary := none }).abandonNow c := by
  simp only [State.atBoundary, ha, h, hf, Bool.false_eq_true, if_false]

theorem atBoundary_abandon_finished (ha : (s.pump c).activity = some a) (h : a.atBoundary = some .abandon)
    (hf : a.finished (s.pump c).piston = true) :
    s.atBoundary c = (s.setPump c fun p => { p with heldPrime := false }).endActivity c .complete := by
  simp only [State.atBoundary, ha, h, hf, if_true]

/-! ### An activity that goes on (R97, R98) -/

/-- Nothing but the pump of circuit c and its lent slots has changed, and these are lost where the activity refills. -/
structure Advances (c : Circ) (p : Pump) (ph : Phase) (s t : State) : Prop where
  pump : t.pump c = p
  others : OtherPumps c s t
  rest : Unchanged [.drive] s t
  forfeit : t.drive.forfeit[c] = (s.drive.forfeit[c] || ph == .refill)

theorem unchanged_drive (s : State) (d : Drive) : Unchanged [.drive] s { s with drive := d } := by
  refine ⟨rfl, rfl, fun q hq => ?_⟩
  cases q <;> simp [Part.same] at hq ⊢

theorem advances_advancePhase (ha : (s.pump c).activity = some a) : Advances c
    { s.pump c with activity := some { a with phase := a.nextPhase (s.pump c).piston } } (a.nextPhase (s.pump c).piston) s
    (s.advancePhase c) := by
  have hp : (s.setActivity c fun y => { y with phase := a.nextPhase (s.pump c).piston }).pump c
      = { s.pump c with activity := some { a with phase := a.nextPhase (s.pump c).piston } } := by
    rw [State.setActivity, setPump_pump, ha]
    rfl
  have ho : OtherPumps c s (s.setActivity c fun y => { y with phase := a.nextPhase (s.pump c).piston }) :=
    fun _ hd => setPump_pump_ne _ _ hd
  have hf : (s.setActivity c fun y => { y with phase := a.nextPhase (s.pump c).piston }).drive.forfeit = s.drive.forfeit := rfl
  simp only [State.advancePhase, ha]
  generalize a.nextPhase (s.pump c).piston = ph at hp ho hf ⊢
  cases ph with
  | deliver =>
    rw [if_neg nofun]
    exact ⟨hp, ho, unchanged_drive s _, (Bool.or_false _).symm⟩
  | refill =>
    rw [if_pos rfl]
    exact ⟨hp, ho, unchanged_drive s _, (updAt_get _ _ _).trans (Bool.or_true _).symm⟩

theorem Advances.setActivity {p : Pump} {ph : Phase} (h : Advances c p ph s t) (f : Activity → Activity) :
    Advances c { p with activity := p.activity.map f } ph s (t.setActivity c f) := by
  refine ⟨by rw [State.setActivity, setPump_pump, h.pump],
    fun d hd => (setPump_pump_ne _ _ hd).trans (h.others d hd), ?_, h.forfeit⟩
  exact (h.rest.trans (unchanged_drive t _)).mono (by decide)

/-- The activity takes its next phase, and is STOPPED where a stop waited. -/
theorem Driving.goes (h : Driving c s b a) (hw : a.free) (hx : b.moves (s.pump c).piston = x)
    (hf : (b.counts a).finished x = false) {ph : Phase} (hp : (b.counts a).nextPhase x = ph) : Advances c
      { s.pump c with burst := none, piston := x, activity := some ((b.counts a).onward ph) } ph s (s.burstComplete c) := by
  have hpump := moved_pump s c x (b.counts a)
  have ha : ((s.moved c x (b.counts a)).pump c).activity = some (b.counts a) := by rw [hpump]
  have hpiston : ((s.moved c x (b.counts a)).pump c).piston = x := by rw [hpump]
  have hadv := advances_advancePhase ha
  rw [hpiston, hp, hpump] at hadv
  have hbase (t : State) (q : Pump) (k : Advances c q ph (s.moved c x (b.counts a)) t) : Advances c q ph s t :=
    ⟨k.pump, fun d hd => (k.others d hd).trans (moved_others s c x _ d hd),
      ((unchanged_drive s _).trans k.rest).mono (by decide), k.forfeit⟩
  rw [h.burstComplete_eq, hx]
  rcases hw with hw | hw
  · rw [atBoundary_goes ha hw (by rw [hpiston]; exact hf), onward_of_none (a := b.counts a) hw]
    exact hbase _ _ hadv
  · rw [atBoundary_stops ha hw (by rw [hpiston]; exact hf), onward_of_stop (a := b.counts a) hw]
    exact hbase _ _ (hadv.setActivity fun a => { a with run := .stopped, stopSeen := true, atBoundary := none })

/-! ### An activity that ends (R99, R100) -/

theorem EndsAs.all {d : Nat} {q : Pump} (h : EndsAs c a d q s u) :
    u.pump c = q ∧ u.drive.forfeit[c] = true ∧ OtherPumps c s u ∧ OtherCircuits [c] s u ∧ RunReported c a d s u
      ∧ ((s.circuit c).state = .ready → a.kind ≠ .refill → d ≠ 0 → (u.circuit c).level ≤ (s.circuit c).cfg.reserve →
          (u.circuit c).state = .empty ∧ u.link.isSet (.empty c) = true)
      ∧ ((s.circuit c).state = .ready → a.kind = .refill ∨ d = 0 ∨ (s.circuit c).cfg.reserve < (u.circuit c).level →
          (u.circuit c).state = .ready)
      ∧ ((s.circuit c).state ≠ .ready → a.kind ≠ .prime → (u.circuit c).state = (s.circuit c).state) := by
  obtain ⟨h1, h2, h3, h4, h5, h6, h7, h8⟩ := h
  exact ⟨h1, h2, h3, h4, h5, h6, h7, h8⟩

/-- The end of the activity from a state that differs in the pump of circuit c alone. -/
theorem ends_of_setPump {f : Pump → Pump} (w : EndCause) (ha : (f (s.pump c)).activity = some a)
    (hn : (f (s.pump c)).next = none) :
    EndsAs c a a.delivered { f (s.pump c) with activity := none } s ((s.setPump c f).endActivity c w) := by
  have h := endActivity_ends (s := s.setPump c f) (c := c) w (by rw [setPump_pump, ha]) (by rw [setPump_pump, hn])
  rw [setPump_pump] at h
  exact { h with otherPumps := fun d hd => (h.otherPumps d hd).trans (setPump_pump_ne _ _ hd) }

theorem moved_ends (s : State) (c : Circ) (x : Piston) (a : Activity) (w : EndCause) (hn : (s.pump c).next = none) :
    EndsAs c a a.delivered { s.pump c with burst := none, piston := x, activity := none } s
      ((s.moved c x a).endActivity c w) :=
  ends_of_setPump (f := fun p => { p with burst := none, piston := x, activity := some a }) w rfl hn

theorem Driving.completes (h : Driving c s b a) (hw : a.free) (hx : b.moves (s.pump c).piston = x) (hf : (b.counts a).finished x = true) :
    s.burstComplete c = (s.moved c x (b.counts a)).endActivity c .complete := by
  have hpump := moved_pump s c x (b.counts a)
  rw [h.burstComplete_eq, hx]
  exact atBoundary_finished (a := b.counts a) (by rw [hpump]) hw (by rw [hpump]; exact hf)

theorem Driving.cuts {w : CutCause} (h : Driving c s b a) (hw : a.atBoundary = some (.cut w))
    (hx : b.moves (s.pump c).piston = x) :
    s.burstComplete c = (s.moved c x (b.counts a)).endActivity c (.cut w) := by
  rw [h.burstComplete_eq, hx]
  exact atBoundary_cut (a := b.counts a) (by rw [moved_pump]) hw

/-- What the owner of a run is told at its end, where the next place is empty. -/
theorem endActivity_dose (w : EndCause) (ha : (s.pump c).activity = some a) (hk : a.kind ≠ .refill)
    (hn : (s.pump c).next = none) : DoseRecorded c a a.delivered (doseOutcome a w) s (s.endActivity c w) := by
  rw [endActivity_run w ha hk hn]
  exact told_dose (s.stripped c) c a w

theorem endActivity_cal {q : CalRun} (w : EndCause) (ha : (s.pump c).activity = some a) (hk : a.kind ≠ .refill)
    (hn : (s.pump c).next = none) (ho : a.owner = .cal) (hq : s.stn.cal = some q) (hc : q.circuit = c)
    (hh : q.handing = .handed) :
    (s.endActivity c w).stn.cal = some { q with delivered := a.delivered, handing := .ended } := by
  rw [endActivity_run w ha hk hn]
  exact told_cal (s := s.stripped c) w ho hq hc hh

theorem endActivity_care (ha : (s.pump c).activity = some a) (hk : a.kind ≠ .refill) (hn : (s.pump c).next = none)
    (ho : a.owner = .care) : ((s.endActivity c .complete).circuit c).purgeDue = none := by
  rw [endActivity_run _ ha hk hn]
  exact told_care ho

theorem endActivity_prime (ha : (s.pump c).activity = some a) (hk : a.kind = .prime) (hn : (s.pump c).next = none)
    (ho : a.owner = .table) (h : (s.circuit c).state = .priming) :
    PrimeStirs c s (s.endActivity c .complete) ∧ ((s.endActivity c .complete).circuit c).state
      = if ((s.endActivity c .complete).circuit c).level ≤ (s.circuit c).cfg.reserve then .empty else .ready := by
  rw [endActivity_run _ ha (by rw [hk]; nofun) hn]
  exact told_prime (s := s.stripped c) hk ho h

/-! ### An activity that is abandoned (R104, R107) -/

/-- The standalone REFILL that an abandoned purge leaves in state u. -/
structure CarriesAs (c : Circ) (x : Piston) (a : Activity) (d : Nat) (s u : State) : Prop where
  pump : u.pump c = { s.pump c with
    burst := none, piston := x
    activity := some (carriedRefill s.stopped (if (s.circuit c).stir.isSome then .waitingStir else .running)) }
  otherPumps : OtherPumps c s u
  forfeit : u.drive.forfeit[c] = true
  otherCircuits : OtherCircuits [c] s u
  reported : RunReported c a d s u

/-- The activity as its abandonment finds it. -/
def Activity.leaving (a : Activity) (ph : Phase) : Activity := { a with phase := ph, atBoundary := none }

theorem Driving.abandons (h : Driving c s b a) (hw : a.atBoundary = some .abandon) (hn : (s.pump c).next = none)
    (hx : b.moves (s.pump c).piston = x) (hf : (b.counts a).finished x = false) {ph : Phase}
    (hp : (b.counts a).nextPhase x = ph) :
    (a.kind ≠ .purge ∨ ph ≠ .refill → EndsAs c ((b.counts a).leaving ph) (b.counts a).delivered
        { s.pump c with burst := none, piston := x, activity := none } s (s.burstComplete c))
      ∧ (a.kind = .purge → ph = .refill → CarriesAs c x a (b.counts a).delivered s (s.burstComplete c)) := by
  have hpump := moved_pump s c x (b.counts a)
  have ha : ((s.moved c x (b.counts a)).pump c).activity = some (b.counts a) := by rw [hpump]
  have hpiston : ((s.moved c x (b.counts a)).pump c).piston = x := by rw [hpump]
  have hadv := (advances_advancePhase ha).setActivity fun a => { a with atBoundary := none }
  rw [hpiston, hp, hpump] at hadv
  rw [h.burstComplete_eq, hx, atBoundary_abandons ha hw (by rw [hpiston]; exact hf)]
  generalize ((s.moved c x (b.counts a)).advancePhase c).setActivity c (fun a => { a with atBoundary := none }) = y at hadv ⊢
  obtain ⟨hypump, hyothers, ⟨-, -, hysame⟩, -⟩ := hadv
  have hya : (y.pump c).activity = some ((b.counts a).leaving ph) := by rw [hypump]; rfl
  have hyn : (y.pump c).next = none := by rw [hypump]; exact hn
  have hcirc : y.circuits = s.circuits := hysame .circuits (by simp)
  have hnow : y.now = s.now := hysame .now (by simp)
  have hstopped : y.stopped = s.stopped := hysame .stopped (by simp)
  have hends := endActivity_ends .abandoned hya hyn
  have hbase : EndsAs c ((b.counts a).leaving ph) (b.counts a).delivered
      { s.pump c with burst := none, piston := x, activity := none } s (y.endActivity c .abandoned) := by
    obtain ⟨h1, h2, h3, h4, h5, h6, h7, h8⟩ := hends
    rw [hypump] at h1
    have hc := circuit_congr hcirc c
    rw [hc] at h6 h7 h8
    refine ⟨h1, h2, fun d hd => ((h3 d hd).trans (hyothers d hd)).trans (moved_others s c x _ d hd),
      fun d hd => (h4 d hd).trans (circuit_congr hcirc d), ?_, h6, h7, h8⟩
    exact h5.of_reading (by rw [hc]) (by rw [hc]) (by rw [hc]) hnow
  have e : y.abandonNow c = if a.kind = .purge ∧ ph = .refill then
      (y.endActivity c .abandoned).setPump c fun p =>
        { p with activity := some (carriedRefill y.stopped (y.freshRun c)) }
      else y.endActivity c .abandoned := by
    simp only [State.abandonNow, hya]
    rfl
  rw [e]
  refine ⟨fun hno => ?_, fun hk hph => ?_⟩
  · rw [if_neg fun hq => hno.elim (· hq.1) (· hq.2)]
    exact hbase
  · rw [if_pos ⟨hk, hph⟩]
    refine ⟨?_, fun d hd => (setPump_pump_ne _ _ hd).trans (hbase.otherPumps d hd), hbase.forfeit, hbase.otherCircuits,
      hbase.reported⟩
    rw [setPump_pump, hbase.pump, hstopped, State.freshRun, circuit_congr hcirc]

/-- Abandoned in phase DELIVER, with steps to go. -/
theorem Driving.abandons_delivering (h : Driving c s b a) (hw : a.atBoundary = some .abandon) (hn : (s.pump c).next = none)
    (hp : a.phase = .deliver) (hk : a.kind ≠ .refill) (hd : (b.counts a).delivered ≠ a.planned)
    (hx : (s.pump c).piston = .known p) :
    (a.kind ≠ .purge ∨ p - b.steps ≠ 0 → EndsAs c ((b.counts a).leaving (if p - b.steps = 0 then .refill else .deliver))
        (b.counts a).delivered { s.pump c with burst := none, piston := .known (p - b.steps), activity := none } s
        (s.burstComplete c))
      ∧ (a.kind = .purge → p - b.steps = 0 → CarriesAs c (.known 0) a (b.counts a).delivered s (s.burstComplete c)) := by
  obtain ⟨hends, hcarries⟩ := h.abandons hw hn (h.moves_deliver hp hx)
    (not_finished_of_short (a := b.counts a) hk hd _) (nextPhase_deliver (a := b.counts a) hp _)
  refine ⟨fun hor => hends (hor.imp_right fun h0 => ?_), fun hk h0 => ?_⟩
  · rw [if_neg h0]
    nofun
  · have hc := hcarries hk (if_pos h0)
    rwa [h0] at hc

/-- Abandoned in phase REFILL. -/
theorem Driving.abandons_refilling (h : Driving c s b a) (hw : a.atBoundary = some .abandon) (hn : (s.pump c).next = none)
    (hp : a.phase = .refill) (hk : a.kind ≠ .refill) (hx : b.moves (s.pump c).piston = x) :
    (a.kind ≠ .purge ∨ x = .known 25600 → EndsAs c ((b.counts a).leaving (if x = .known 25600 then .deliver else .refill))
        (b.counts a).delivered { s.pump c with burst := none, piston := x, activity := none } s (s.burstComplete c))
      ∧ (a.kind = .purge → x ≠ .known 25600 → CarriesAs c x a (b.counts a).delivered s (s.burstComplete c)) := by
  obtain ⟨hends, hcarries⟩ := h.abandons hw hn hx
    (not_finished_of_refill (a := b.counts a) hk hp x) (nextPhase_refill (a := b.counts a) hp hk x)
  refine ⟨fun hor => hends (hor.imp_right fun hfull => ?_), fun hk hne => hcarries hk (if_neg hne)⟩
  rw [if_pos hfull]
  nofun

theorem Driving.abandonCompletes (h : Driving c s b a) (hw : a.atBoundary = some .abandon)
    (hx : b.moves (s.pump c).piston = x) (hf : (b.counts a).finished x = true) : s.burstComplete c
      = ((s.moved c x (b.counts a)).setPump c fun p => { p with heldPrime := false }).endActivity c .complete := by
  have hpump := moved_pump s c x (b.counts a)
  rw [h.burstComplete_eq, hx]
  exact atBoundary_abandon_finished (a := b.counts a) (by rw [hpump]) hw (by rw [hpump]; exact hf)

/-! ### A full standalone REFILL serves the next place (R95, R99, R102) -/

theorem askPump_refused {q : PumpRequest} (h : q.kind = .purge ∧ (s.stopped ∨ ¬s.capClosed)) : (s.askPump c q).1 = s := by
  rw [State.askPump, if_pos h]

theorem askPump_held {q : PumpRequest} (hk : q.kind = .prime) (hs : s.stopped = true) :
    (s.askPump c q).1 = s.setPump c fun p => { p with heldPrime := true } := by
  rw [State.askPump, if_neg (by rw [hk]; nofun), if_pos ⟨hk, hs⟩]

theorem askPump_created {q : PumpRequest} (h1 : ¬(q.kind = .purge ∧ (s.stopped ∨ ¬s.capClosed)))
    (h2 : ¬(q.kind = .prime ∧ s.stopped)) (ha : (s.pump c).activity = none) : (s.askPump c q).1 = s.createActivity c q := by
  rw [State.askPump, if_neg h1, if_neg h2, ha]

/-- The phase in which an activity begins on a full chamber. -/
theorem startsRefill_full (k : Kind) (m : Nat) :
    startsRefill k m 0 (.known 25600) = decide (k = .prime ∨ (k = .purge ∧ 25600 < m)) := by
  cases k <;> simp [startsRefill, Config.chamber]

/-- What serving the request q of the next place makes of state s, once a standalone REFILL is full. -/
structure ServesAs (c : Circ) (q : PumpRequest) (s u : State) : Prop where
  otherPumps : OtherPumps c s u
  rest : Unchanged [.drive] s u
  forfeit : u.drive.forfeit[c] = true
  refused : q.kind = .purge → s.stopped = true ∨ s.stn.cap ≠ .closed →
    u.pump c = { s.pump c with burst := none, piston := .known 25600, activity := none, next := none }
  held : q.kind = .prime → s.stopped = true →
    u.pump c = { s.pump c with
      burst := none, piston := .known 25600, activity := none, next := none, heldPrime := true }
  created : (q.kind = .purge → s.stopped = false ∧ s.stn.cap = .closed) → (q.kind = .prime → s.stopped = false) →
    u.pump c = { s.pump c with
      burst := none, piston := .known 25600, next := none
      heldPrime := if q.kind = .prime then false else (s.pump c).heldPrime
      activity := some
        { kind := q.kind, owner := q.owner, planned := q.planned, delivered := 0
          phase := if q.kind = .prime ∨ (q.kind = .purge ∧ 25600 < q.planned) then .refill else .deliver
          run := if s.stopped then .stopped else if (s.circuit c).stir.isSome then .waitingStir else .running
          stopSeen := s.stopped, atBoundary := none, restarted := false } }

theorem capClosed_iff : s.capClosed = true ↔ s.stn.cap = .closed := beq_iff_eq

theorem moved_serves {q : PumpRequest} (hk : a.kind = .refill) (hq : (s.pump c).next = some q) :
    ServesAs c q s ((s.moved c (.known 25600) a).endActivity c .complete) := by
  have hpump := moved_pump s c (.known 25600) a
  generalize hz : (((s.moved c (.known 25600) a).stripped c).setPump c fun p => { p with next := none }) = z
  have e : (s.moved c (.known 25600) a).endActivity c .complete = (z.askPump c q).1 := by
    rw [endActivity_served _ (by rw [hpump]) hk, State.releaseNext, stripped_pump, hpump, hq, ← hz]
  have hzp : z.pump c = { s.pump c with burst := none, piston := .known 25600, activity := none, next := none } := by
    rw [← hz, setPump_pump, stripped_pump, hpump]
  have hzo : OtherPumps c s z := by
    intro d hd
    rw [← hz, setPump_pump_ne _ _ hd, (stripped_stays _ c).beside.pump_ne hd, moved_others s c _ a d hd]
  have hzf : z.drive.forfeit[c] = true := by
    rw [← hz]
    exact stripped_forfeit _ c
  have hzs : z = { s with drive := z.drive } := by
    rw [← hz]
    rfl
  have hstopped : z.stopped = s.stopped := by rw [hzs]
  have hcap : z.capClosed = true ↔ s.stn.cap = .closed := by
    rw [hzs]
    exact capClosed_iff
  have hrest (f : Pump → Pump) : Unchanged [.drive] s (z.setPump c f) := by
    rw [hzs]
    exact unchanged_drive s _
  have hother (f : Pump → Pump) : OtherPumps c s (z.setPump c f) := fun d hd =>
    (setPump_pump_ne _ _ hd).trans (hzo d hd)
  rw [e]
  by_cases h1 : q.kind = .purge ∧ (z.stopped ∨ ¬z.capClosed)
  · rw [askPump_refused h1]
    refine ⟨hzo, by rw [hzs]; exact unchanged_drive s _, hzf, fun _ _ => hzp, fun h => ?_, fun h => ?_⟩
    · rw [h1.1] at h
      cases h
    · obtain ⟨h2, h3⟩ := h h1.1
      rw [hstopped, h2] at h1
      exact absurd (hcap.mpr h3) (h1.2.resolve_left nofun)
  · by_cases h2 : q.kind = .prime ∧ z.stopped
    · rw [askPump_held h2.1 h2.2]
      refine ⟨hother _, hrest _, hzf, fun h => ?_, fun _ _ => by rw [setPump_pump, hzp], fun _ h => ?_⟩
      · rw [h2.1] at h
        cases h
      · rw [hstopped, h h2.1] at h2
        cases h2.2
    · have hfresh : z.freshRun c = if (s.circuit c).stir.isSome then .waitingStir else .running := by
        rw [hzs]
        rfl
      rw [askPump_created h1 h2 (by rw [hzp])]
      refine ⟨hother _, hrest _, hzf, fun hp h => ?_, fun hp h => absurd ⟨hp, hstopped.trans h⟩ h2, fun _ _ => ?_⟩
      · rw [hstopped, hcap] at h1
        exact absurd ⟨hp, h⟩ h1
      · unfold State.createActivity
        rw [setPump_pump]
        simp only [hzp, hfresh, hstopped, startsRefill_full, decide_eq_true_eq]
        rfl

end Sys2Proof.Machine
end

