-- ==== Sys2Proof/Proofs/BurstCounts.lean ====
section
/-! O34: what a completed burst does, by what waits for its boundary. -/

namespace Sys2Proof.Machine

set_option Elab.async false

variable {c : Circ} {s t u : State} {a : Activity} {b : Burst} {x : Piston} {p n : Nat} {ph : Phase}

theorem exec_burstComplete (h : s.powered = true) :
    exec (.burstComplete c) s = .next (State.conclude s (s.burstComplete c)) :=
  event_taken (change := fun t => t.burstComplete c) h

theorem burstComplete_none (h : (s.pump c).burst = none) : s.burstComplete c = s := by
  simp only [State.burstComplete, h]

theorem Advances.all {q : Pump} (h : Advances c q ph s u) :
    (u.pump c = q ∧ OtherPumps c s u) ∧ Unchanged [.drive] s u
      ∧ u.drive.forfeit[c] = (s.drive.forfeit[c] || ph == .refill) := by
  obtain ⟨hpump, hothers, hrest, hforfeit⟩ := h
  exact ⟨⟨hpump, hothers⟩, hrest, hforfeit⟩

theorem CarriesAs.all {d : Nat} (h : CarriesAs c x a d s u) :
    (u.pump c = { s.pump c with
        burst := none, piston := x
        activity := some (carriedRefill s.stopped (if (s.circuit c).stir.isSome then .waitingStir else .running)) }
      ∧ OtherPumps c s u) ∧ u.drive.forfeit[c] = true ∧ OtherCircuits [c] s u ∧ RunReported c a d s u := by
  obtain ⟨h1, h2, h3, h4, h5⟩ := h
  exact ⟨⟨h1, h2⟩, h3, h4, h5⟩

theorem ServesAs.all {q : PumpRequest} (h : ServesAs c q s u) :
    OtherPumps c s u ∧ Unchanged [.drive] s u ∧ u.drive.forfeit[c] = true
      ∧ (q.kind = .purge → s.stopped = true ∨ s.stn.cap ≠ .closed →
        u.pump c = { s.pump c with burst := none, piston := .known 25600, activity := none, next := none })
      ∧ (q.kind = .prime → s.stopped = true → u.pump c = { s.pump c with
        burst := none, piston := .known 25600, activity := none, next := none, heldPrime := true })
      ∧ ((q.kind = .purge → s.stopped = false ∧ s.stn.cap = .closed) → (q.kind = .prime → s.stopped = false) →
        u.pump c = { s.pump c with
          burst := none, piston := .known 25600, next := none
          heldPrime := if q.kind = .prime then false else (s.pump c).heldPrime
          activity := some
            { kind := q.kind, owner := q.owner, planned := q.planned, delivered := 0
              phase := if q.kind = .prime ∨ (q.kind = .purge ∧ 25600 < q.planned) then .refill else .deliver
              run := if s.stopped then .stopped else if (s.circuit c).stir.isSome then .waitingStir else .running
              stopSeen := s.stopped, atBoundary := none, restarted := false } }) := by
  obtain ⟨h1, h2, h3, h4, h5, h6⟩ := h
  exact ⟨h1, h2, h3, h4, h5, h6⟩

/-! ### Steps to go -/

/-- A dose, a purge, a prime or a calibration run that refills: its count stands. -/
theorem Driving.refills (h : Driving c s b a) (hw : a.free) (hp : a.phase = .refill) (hk : a.kind ≠ .refill)
    (hx : b.moves (s.pump c).piston = x) (hph : a.nextPhase x = ph) : Advances c
      { s.pump c with burst := none, piston := x, activity := some (a.onward ph) } ph s (s.burstComplete c) := by
  have e := h.counts_refill hp
  have g := h.goes (ph := ph) hw hx (by rw [e]; exact not_finished_of_refill hk hp x) (by rw [e]; exact hph)
  rwa [e] at g

/-- An activity that stays in phase REFILL. -/
theorem Driving.stays (h : Driving c s b a) (hw : a.free) (hp : a.phase = .refill) (hx : b.moves (s.pump c).piston = x)
    (hf : a.finished x = false) (hph : a.nextPhase x = .refill) : Advances c
      { s.pump c with
        burst := none, piston := x
        activity := some (if a.atBoundary = some .stop then { a with run := .stopped, stopSeen := true, atBoundary := none }
          else a) } a.phase s (s.burstComplete c) := by
  have e := h.counts_refill hp
  have g := h.goes (ph := a.phase) hw hx (by rw [e]; exact hf) (by rw [e, hp]; exact hph)
  rwa [e] at g

/-! ### Ends -/

theorem Driving.ends_complete (h : Driving c s b a) (hw : a.free) (hn : (s.pump c).next = none)
    (hx : b.moves (s.pump c).piston = x) (hf : (b.counts a).finished x = true) :
    EndsAs c (b.counts a) (b.counts a).delivered { s.pump c with burst := none, piston := x, activity := none } s
      (s.burstComplete c) := by
  rw [h.completes hw hx hf]
  exact moved_ends s c x _ _ hn

theorem Driving.ends_cut {w : CutCause} (h : Driving c s b a) (hw : a.atBoundary = some (.cut w)) (hn : (s.pump c).next = none)
    (hx : b.moves (s.pump c).piston = x) :
    EndsAs c (b.counts a) (b.counts a).delivered { s.pump c with burst := none, piston := x, activity := none } s
      (s.burstComplete c) := by
  rw [h.cuts hw hx]
  exact moved_ends s c x _ _ hn

/-- A standalone REFILL at a full chamber, with its next place empty. -/
theorem Driving.refill_ends (h : Driving c s b a) (hw : a.free) (hp : a.phase = .refill) (hk : a.kind = .refill)
    (hn : (s.pump c).next = none) (hx : b.moves (s.pump c).piston = .known 25600) :
    EndsAs c (b.counts a) (b.counts a).delivered
        { s.pump c with burst := none, piston := .known 25600, activity := none } s (s.burstComplete c)
      ∧ Unchanged [.drive] s (s.burstComplete c) := by
  have e := h.counts_refill hp
  have hf : (b.counts a).finished (.known 25600) = true := by rw [e, finished_refill hk, beq_self_eq_true]
  refine ⟨h.ends_complete hw hn hx hf, ?_⟩
  rw [h.completes hw hx hf, e, endActivity_refill (a := a) _ (by rw [moved_pump]) hk (by rw [moved_pump]; exact hn)]
  exact unchanged_drive s _

theorem Driving.refill_serves {q : PumpRequest} (h : Driving c s b a) (hw : a.free) (hp : a.phase = .refill)
    (hk : a.kind = .refill) (hq : (s.pump c).next = some q) (hx : b.moves (s.pump c).piston = .known 25600) :
    ServesAs c q s (s.burstComplete c) := by
  rw [h.completes hw hx (by rw [h.counts_refill hp, finished_refill hk, beq_self_eq_true]), h.counts_refill hp]
  exact moved_serves hk hq

/-! ### The owner of a run that has delivered its planned steps -/

/-- What the owners of the runs are told by the end COMPLETE of activity a with d delivered steps between s and u. -/
structure OwnersTold (c : Circ) (a : Activity) (d : Nat) (s u : State) : Prop where
  dose : DoseRecorded c a d .delivered s u
  purge : a.owner = .care → (u.circuit c).purgeDue = none
  prime : a.kind = .prime → a.owner = .table → (s.circuit c).state = .priming →
    PrimeStirs c s u ∧ (u.circuit c).state = if (u.circuit c).level ≤ (s.circuit c).cfg.reserve then .empty else .ready
  cal : ∀ q, a.owner = .cal → s.stn.cal = some q → q.circuit = c → q.handing = .handed →
    u.stn.cal = some { q with delivered := d, handing := .ended }

/-- An end from a state that differs in the pump of circuit c alone. -/
theorem ownersTold_of_setPump {f : Pump → Pump} (ha : (f (s.pump c)).activity = some a) (hk : a.kind ≠ .refill)
    (hn : (f (s.pump c)).next = none) : OwnersTold c a a.delivered s ((s.setPump c f).endActivity c .complete) := by
  have ha' : ((s.setPump c f).pump c).activity = some a := by rw [setPump_pump, ha]
  have hn' : ((s.setPump c f).pump c).next = none := by rw [setPump_pump, hn]
  exact {
    dose := (endActivity_dose .complete ha' hk hn').of_tins rfl rfl rfl
    purge := endActivity_care ha' hk hn'
    prime := fun hk ho h => endActivity_prime (s := s.setPump c f) ha' hk hn' ho h
    cal := fun _ ho hq hc hh => endActivity_cal (s := s.setPump c f) _ ha' hk hn' ho hq hc hh }

theorem Driving.tells (h : Driving c s b a) (hw : a.free) (hk : a.kind ≠ .refill) (hn : (s.pump c).next = none)
    (hx : b.moves (s.pump c).piston = x) (hf : (b.counts a).finished x = true) :
    OwnersTold c (b.counts a) (b.counts a).delivered s (s.burstComplete c) := by
  rw [h.completes hw hx hf]
  exact ownersTold_of_setPump (f := fun p => { p with burst := none, piston := x, activity := some (b.counts a) }) rfl hk hn

theorem Driving.cut_records {w : CutCause} (h : Driving c s b a) (hw : a.atBoundary = some (.cut w)) (hk : a.kind ≠ .refill)
    (hn : (s.pump c).next = none) (hx : b.moves (s.pump c).piston = x) :
    DoseRecorded c (b.counts a) (b.counts a).delivered (doseOutcome (b.counts a) (.cut w)) s (s.burstComplete c) := by
  rw [h.cuts hw hx]
  exact (endActivity_dose (a := b.counts a) _ (by rw [moved_pump]) hk (by rw [moved_pump]; exact hn)).of_tins rfl rfl rfl

theorem setPump_setPump (s : State) (c : Circ) (f g : Pump → Pump) :
    (s.setPump c f).setPump c g = s.setPump c fun p => g (f p) := by
  simp only [State.setPump, updAt_updAt]

/-- An abandoned run that has delivered its planned steps ends complete, with no prime held. -/
theorem Driving.abandon_completes (h : Driving c s b a) (hw : a.atBoundary = some .abandon) (hk : a.kind ≠ .refill)
    (hn : (s.pump c).next = none) (hx : b.moves (s.pump c).piston = x) (hf : (b.counts a).finished x = true) :
    EndsAs c (b.counts a) (b.counts a).delivered
        { s.pump c with burst := none, piston := x, activity := none, heldPrime := false } s (s.burstComplete c)
      ∧ OwnersTold c (b.counts a) (b.counts a).delivered s (s.burstComplete c) := by
  have e : (s.moved c x (b.counts a)).setPump c (fun p => { p with heldPrime := false })
      = s.setPump c fun p => { p with burst := none, piston := x, activity := some (b.counts a), heldPrime := false } := by
    unfold State.moved
    exact setPump_setPump _ _ _ _
  rw [h.abandonCompletes hw hx hf, e]
  exact ⟨ends_of_setPump (f := fun p =>
      { p with burst := none, piston := x, activity := some (b.counts a), heldPrime := false }) _ rfl hn,
    ownersTold_of_setPump (f := fun p =>
      { p with burst := none, piston := x, activity := some (b.counts a), heldPrime := false }) rfl hk hn⟩

/-! ### The obligation -/

/-- Settles O34: the cases are those of what waits for the burst boundary, by phase and by what is known of the piston; a
stroke is a burst of an UNKNOWN piston. -/
theorem burstCompleteCounts : Obligations.BurstCompleteCounts := by
  unfold Obligations.BurstCompleteCounts
  intro s c hpow
  refine ⟨fun hb => by rw [exec_burstComplete hpow, burstComplete_none hb], fun b a p hb ha hph => ?_⟩
  have h : Driving c s b a := ⟨hb, ha, hph⟩
  obtain ⟨hdrive, hforfeit⟩ := slotsStand_burstComplete c s
  intro r d at' goes endsAs stirs ends carries serves
  refine ⟨_, exec_burstComplete hpow, hdrive, hforfeit, fun hx hw => ?known, fun n hx hp hw => ?stroke, fun w hx hw hn => ?cut,
    fun w n hx hw hn hp => ?strokeCut, fun hx hw hn hk => ?abandoned, fun n hx hw hn hp => ?strokeAbandoned,
    fun hx hw hn hp hd h0 => ?abandonedPlanned⟩
  case known =>
    refine ⟨fun hp hd hk => ?_, fun hp hk => ?_, fun hp hk hne => ?_, fun hn hp hk hfull => ?_, fun q hq hp hk hfull => ?_,
      fun hn hp hk hd h0 => ?_⟩
    · exact (h.goes hw (h.moves_deliver hp hx) (not_finished_of_short (a := b.counts a) hk hd _) (nextPhase_deliver hp _)).all
    · exact (h.refills hw hp hk (h.moves_refill hp hx) (nextPhase_refill_known hp hk _)).all
    · have hf : a.finished (.known (p + b.steps)) = false := by
        rw [finished_refill hk]
        exact beq_false_of_ne fun e => hne (Piston.known.inj e)
      exact (h.stays hw hp (h.moves_refill hp hx) hf (nextPhase_standalone hp hk)).all
    · have hm := h.moves_refill hp hx
      rw [hfull] at hm
      exact (h.refill_ends hw hp hk hn hm).imp_left fun g => g.all
    · have hm := h.moves_refill hp hx
      rw [hfull] at hm
      exact (h.refill_serves hw hp hk hq hm).all
    · have hm := h.moves_deliver hp hx
      have hf := finished_of_planned (a := b.counts a) hk hp hd (.known (p - b.steps))
      have hends := (h.ends_complete hw hn hm hf).all
      have htold := h.tells hw hk hn hm hf
      exact ⟨fun _ _ _ _ => ⟨hends, htold.dose⟩, fun _ ho => ⟨hends, htold.purge ho⟩,
        fun hk ho hs => ⟨hends, htold.prime hk ho hs⟩, fun q _ ho hq hc hh => ⟨hends, htold.cal q ho hq hc hh⟩⟩
  case stroke =>
    have hm := h.moves_stroke hp hx
    refine ⟨fun hlt => ?_, fun hle hk => ?_, fun hle hk hn => ?_, fun q hle hk hq => ?_⟩
    · rw [if_neg (by omega)] at hm
      exact (h.stays hw hp hm (not_finished_unknown hp _) (nextPhase_unknown hp _)).all
    · rw [if_pos hle] at hm
      exact (h.refills hw hp hk hm (nextPhase_refill hp hk _)).all
    · rw [if_pos hle] at hm
      exact (h.refill_ends hw hp hk hn hm).imp_left fun g => g.all
    · rw [if_pos hle] at hm
      exact (h.refill_serves hw hp hk hq hm).all
  case cut =>
    exact ⟨fun hp => (h.ends_cut hw hn (h.moves_deliver hp hx)).all, fun hp => (h.ends_cut hw hn (h.moves_refill hp hx)).all,
      fun hk => h.cut_records hw hk hn rfl⟩
  case strokeCut => exact (h.ends_cut hw hn (h.moves_stroke hp hx)).all
  case abandoned =>
    have hrun : a.kind ≠ .refill := hk.elim (·.trans_ne nofun) (·.trans_ne nofun)
    have hdeliver (hp : a.phase = .deliver) (hd : d ≠ a.planned) := h.abandons_delivering hw hn hp hrun hd hx
    have hrefill (hp : a.phase = .refill) := h.abandons_refilling hw hn hp hrun (h.moves_refill hp hx)
    exact ⟨fun hp hd hor => ((hdeliver hp hd).1 (hor.symm.imp_left (·.trans_ne nofun))).all,
      fun hp hd h0 hk => ((hdeliver hp hd).2 hk h0).all,
      fun hp hor => ((hrefill hp).1 (hor.imp (·.trans_ne nofun) (congrArg _))).all,
      fun hp hk hne => ((hrefill hp).2 hk (hne ∘ Piston.known.inj)).all⟩
  case strokeAbandoned =>
    have hm := h.moves_stroke hp hx
    refine ⟨fun hle hk => ?_, fun hlt hk => ?_, fun hlt hk => ?_⟩
    · have hrun : a.kind ≠ .refill := hk.elim (·.trans_ne nofun) (·.trans_ne nofun)
      rw [if_pos hle] at hm
      exact ((h.abandons_refilling hw hn hp hrun hm).1 (.inr rfl)).all
    · rw [if_neg (by omega)] at hm
      exact ((h.abandons_refilling hw hn hp (hk.trans_ne nofun) hm).1 (.inl (hk.trans_ne nofun))).all
    · rw [if_neg (by omega)] at hm
      exact ((h.abandons_refilling hw hn hp (hk.trans_ne nofun) hm).2 hk nofun).all
  case abandonedPlanned =>
    intro pump
    have hend (hk : a.kind ≠ .refill) := h.abandon_completes hw hk hn (h.moves_deliver hp hx)
      (finished_of_planned (a := b.counts a) hk hp hd _)
    refine ⟨fun hk ho => ?_, fun hk ho hs => ?_⟩
    · obtain ⟨he, ht⟩ := hend (hk.trans_ne nofun)
      exact ⟨he.all, ht.purge ho⟩
    · obtain ⟨he, ht⟩ := hend (hk.trans_ne nofun)
      exact ⟨he.all, ht.prime hk ho hs⟩

end Sys2Proof.Machine
end
